-- ==== Sys2Proof/Word.lean ====
section
/-!
DEFINITION. The word types of the Paluk (R3, R120): 64-bit registers and control words, bytes of memory,
32-bit instruction words, and the short names of the register fields of an instruction (R52, R54, R56).
-/
namespace Sys2Proof

/-- A 64-bit word: a scalar register, a mask register, a control-field word or a register-page word (R78, R81). -/
abbrev Word := BitVec 64

/-- A byte of memory. -/
abbrev Byte := BitVec 8

/-- One 32-bit instruction word (R48). -/
abbrev IWord := BitVec 32

/-- A scalar register field: s0..s31 (R56). -/
abbrev Reg := BitVec 5

/-- A vector register field whose top bit is zero: v0..v15 (R56). -/
abbrev VReg := BitVec 4

/-- A mask register field whose top two bits are zero: k0..k7 (R56). -/
abbrev KReg := BitVec 3

end Sys2Proof
end

