-- ==== Sys2Proof/Config.lean ====
section
/-!
DEFINITION. What an implementation of the Paluk fixes and the manual leaves open. Every `opaque` constant here has no
body: no proof can see its value, so a claim holds whatever the hardware does (assumption log 1, 3, 4, 6, 7, 8, 12, 13, 31,
33, 73).
-/
namespace Sys2Proof.Config

/-- The stepping's encoding hash (R1, R66). -/
def encodingHash : Word := 0x6D1E4B07A9C2335F

/-- Extra cycles that message number `n` takes beyond the unloaded latency of R185, R396 and the unit chapters.
The manual states unloaded figures only (log 1). -/
opaque extraDelay : Nat → Nat

/-- Bytes of CXL memory installed from 0x0400_0000_0000 upward (R177: "up to the installed capacity") (log 3). -/
opaque cxlInstalled : Nat

/-- The public keys that images are verified with (R386), by image: the seed and the root, 32 bytes each (log 4). -/
opaque imageSeed : Nat → List Nat
/-- The roots of those keys. -/
opaque imageRoot : Nat → List Nat

/-- The module identity key (R386): the secret seed, the key of the randomizer, and the public seed, 32 bytes each (log 4). -/
opaque identitySecret : List Nat
/-- The key of the randomizer. -/
opaque identityPrf : List Nat
/-- The public seed. -/
opaque identitySeed : List Nat
/-- The randomness of signature number `n` (log 4). -/
opaque signRandom : Nat → List Nat

/-- The lines in which errors arise, each with 1 for one that ECC corrects and another number for one that it only detects (R388, log 73). -/
opaque upsets : Nat → List (Nat × Nat)

/-- How many lines the drop cloths of a switch have to spill, as far as they hold so many (R349: it depends on the routers that the
messages have reached) (log 13). -/
opaque clothSpill : Nat → Nat

/-- Whether line number `a` shows an uncorrectable (2), a corrected (1) or no (0) error at scrub or access number `n`
(R388, R390): the manual gives no rule for when hardware errors occur (log 6). -/
opaque lineError : Nat → Nat → Nat

/-- Whether a matrix step's residue check number `n` meets a hardware mismatch (R285) (log 6). -/
opaque residueUpset : Nat → Bool

/-- Whether the conservator's own limits allow the mailbox request of code `k` with argument `a` (R385: "the life-cycle
state and its own limits", which the manual does not list) (log 7). -/
opaque conservatorAllows : Nat → Nat → Bool

/-- Whether a host's endpoint has a receive buffer for send number `n` (R382) (log 8). -/
opaque hostHasBuffer : Nat → Bool

/-- Whether the packets of a flow are acknowledged at observation number `n` (R383) (log 8). -/
opaque linkAcks : Nat → Bool

/-- Whether the peer module accepts operation number `n` (R269, R320, R383) (log 8). -/
opaque peerAccepts : Nat → Bool

/-- What an empty reduction cell holds after a pair (S, 0x8001) with S nonzero reaches it, and whether INEXACT is set, and what an empty
accumulator holds after OR-AND gives it S = 1: R43 and R284 would leave such a pair, which R39 says is never produced, and no rule states
another result (log 31). -/
opaque reservedPair : Int → Int × Int × Bool

/-- E and INEXACT as BRED gives them for a cell of another partition (R298 states BUSY and S only) (log 31). -/
opaque busyCell : Nat → Nat

/-- The code a rule engine reads at a column and row outside the stored halo, which a header with VD above HALO reaches (R304
states no such cell) (log 33). -/
opaque strayCell : Int → Int → Nat

/-- The status with which a peer module's join engine answers reward number `n` (R320) (log 8). -/
opaque peerReply : Nat → Nat

/-- How far executor `e`'s view of global time stands above the west hub's, modulo 5 ns (R356: the views of any two executors differ
by at most 4 ns) (log 12). -/
opaque gtimeSkew : Nat → Nat

/-- Units that the device overhead meter gains by housekeeping act number `n`: refresh, patrol scrub, ballast and wipes (R377 states
that they are charged, not how much) (log 6). -/
opaque overheadUnits : Nat → Nat

/-- Cycles after which a stack's sequencer is back from reset number `n` (R393) (log 6). -/
opaque sequencerBack : Nat → Nat

end Sys2Proof.Config
end

