-- ==== Sys2Proof/Syntax.lean ====
section
/-!
DEFINITION. The instructions and the events of the Paluk: one constructor for each row of spec/opcode_table.json, and a second one
for REWARD and BSUM_ARRIVAL, for the reward and the pair that a peer module sends. The 270 instruction rows carry the operand
fields of their entries (R52 to R57); the 102 rows that are steps of the machine itself (commands, arrivals, completions, engine steps,
hub and firmware acts) carry the names of what they act on.
-/
namespace Sys2Proof

/-- The type code t of R59: width and extension of integer operations and of LD. -/
inductive IType where
  | i8 | i16 | i32 | i64 | n8 | n16 | n32 | n64
  deriving DecidableEq, Repr

/-- The scalar FP type that majors 0x40 to 0x43 select (R61). -/
inductive FType where
  | f64 | f32 | f16 | bf16
  deriving DecidableEq, Repr

/-- R format of the ALU majors (R124): d := a op b at type t. -/
structure AluR where
  t : IType
  d : Reg
  a : Reg
  b : Reg
  deriving DecidableEq, Repr

/-- SL form of the ALU majors: the literal replaces operand b (R57). -/
structure AluL where
  t : IType
  d : Reg
  a : Reg
  lit : Word
  deriving DecidableEq, Repr

/-- One-source ALU operation (R133). -/
structure AluU where
  t : IType
  d : Reg
  a : Reg
  deriving DecidableEq, Repr

/-- I format with a 12-bit immediate (R52, R53). -/
structure ImmI where
  d : Reg
  a : Reg
  imm : BitVec 12
  deriving DecidableEq, Repr

/-- I format with a 64-bit literal (R57). -/
structure ImmL where
  d : Reg
  a : Reg
  lit : Word
  deriving DecidableEq, Repr

/-- Shift by an immediate amount (R131). -/
structure ShiftI where
  d : Reg
  a : Reg
  n : BitVec 6
  deriving DecidableEq, Repr

/-- Bit field: position and length minus one (R53, R134). -/
structure FieldI where
  d : Reg
  a : Reg
  pos : BitVec 6
  len1 : BitVec 6
  deriving DecidableEq, Repr

/-- Funnel shift with an immediate amount (R132). -/
structure FunnelI where
  d : Reg
  a : Reg
  b : Reg
  n : BitVec 6
  deriving DecidableEq, Repr

/-- Four scalar registers: FSHL and FSHR by register, SEL (R132, R137). -/
structure Quad where
  d : Reg
  a : Reg
  b : Reg
  c : Reg
  deriving DecidableEq, Repr

/-- LUT3 (R129). -/
structure Lut where
  d : Reg
  a : Reg
  b : Reg
  c : Reg
  table : BitVec 8
  deriving DecidableEq, Repr

/-- B format of a two-register branch (R140). -/
structure Branch where
  a : Reg
  b : Reg
  off : BitVec 12
  deriving DecidableEq, Repr

/-- B format of BZ and BNZ (R140). -/
structure BranchZ where
  a : Reg
  off : BitVec 12
  deriving DecidableEq, Repr

/-- LOOPX (R144): level, count register or immediate count, distance in words. -/
structure LoopX where
  l : Reg
  a : Reg
  immCount : Bool
  count : BitVec 16
  dist : BitVec 16
  deriving DecidableEq, Repr

/-- Scalar FP with two sources and a mode (R61). -/
structure FpR where
  t : FType
  m : BitVec 3
  d : Reg
  a : Reg
  b : Reg
  deriving DecidableEq, Repr

/-- Scalar FP with one source and a mode (FSQRT). -/
structure FpU where
  t : FType
  m : BitVec 3
  d : Reg
  a : Reg
  deriving DecidableEq, Repr

/-- Scalar FP with two sources and no mode (FMIN, FMAX, FCEQ, FCLT, FCLE). -/
structure FpC where
  t : FType
  d : Reg
  a : Reg
  b : Reg
  deriving DecidableEq, Repr

/-- FSGN: the sub-operation stands in fn[2:0] (R61, R155). -/
structure FpS where
  t : FType
  op : BitVec 3
  d : Reg
  a : Reg
  b : Reg
  deriving DecidableEq, Repr

/-- FCLASS (R157). -/
structure FpK where
  t : FType
  d : Reg
  a : Reg
  deriving DecidableEq, Repr

/-- FMA and FMS (R158). -/
structure FmaX where
  d : Reg
  a : Reg
  b : Reg
  c : Reg
  et : BitVec 5
  rm : BitVec 3
  deriving DecidableEq, Repr

/-- FCVT (R159): source format in fn[4:0], destination in et. -/
structure CvtX where
  d : Reg
  a : Reg
  src : BitVec 5
  et : BitVec 5
  rm : BitVec 3
  deriving DecidableEq, Repr

/-- Major 0x60, X form (R160). -/
structure VBin where
  d : VReg
  a : VReg
  b : Reg
  k : KReg
  z : Bool
  et : BitVec 5
  rm : BitVec 3
  sat : Bool
  sub : BitVec 3
  imm : BitVec 32
  deriving DecidableEq, Repr

/-- Major 0x60, XL form: sub is 2 and the literal is operand B (R57, R160). -/
structure VBinL where
  d : VReg
  a : VReg
  k : KReg
  z : Bool
  et : BitVec 5
  rm : BitVec 3
  sat : Bool
  lit : Word
  deriving DecidableEq, Repr

/-- VFMA (R162). -/
structure VFma where
  d : VReg
  a : VReg
  b : VReg
  c : VReg
  k : KReg
  z : Bool
  et : BitVec 5
  rm : BitVec 3
  sub : BitVec 3
  deriving DecidableEq, Repr

/-- VLUT3 (R163). -/
structure VLut where
  d : VReg
  a : VReg
  b : VReg
  c : VReg
  k : KReg
  z : Bool
  table : BitVec 8
  deriving DecidableEq, Repr

/-- VCMP (R164). -/
structure VCmp where
  d : KReg
  a : VReg
  b : VReg
  k : KReg
  z : Bool
  et : BitVec 5
  sub : BitVec 3
  deriving DecidableEq, Repr

/-- VSEL (R165). -/
structure VSel where
  d : VReg
  a : VReg
  b : VReg
  k : KReg
  et : BitVec 5
  deriving DecidableEq, Repr

/-- VBC (R166): sub 0 broadcasts the scalar S[a], sub 1 the lane imm of V[a]. -/
structure VBc where
  d : VReg
  a : Reg
  k : KReg
  z : Bool
  et : BitVec 5
  sub : BitVec 3
  imm : BitVec 32
  deriving DecidableEq, Repr

/-- VXT (R167). -/
structure VXt where
  d : Reg
  a : VReg
  b : Reg
  et : BitVec 5
  deriving DecidableEq, Repr

/-- VIN (R167). -/
structure VIn where
  d : VReg
  a : Reg
  b : Reg
  et : BitVec 5
  deriving DecidableEq, Repr

/-- VPERM (R168). -/
structure VPerm where
  d : VReg
  a : VReg
  b : VReg
  c : VReg
  k : KReg
  z : Bool
  et : BitVec 5
  deriving DecidableEq, Repr

/-- VRED (R170). -/
structure VRed where
  d : Reg
  a : VReg
  k : KReg
  et : BitVec 5
  rm : BitVec 3
  sub : BitVec 3
  deriving DecidableEq, Repr

/-- VSCAN (R171). -/
structure VScan where
  d : VReg
  a : VReg
  k : KReg
  z : Bool
  et : BitVec 5
  rm : BitVec 3
  sub : BitVec 3
  deriving DecidableEq, Repr

/-- VCVT (R172). -/
structure VCvt where
  d : VReg
  a : VReg
  src : BitVec 5
  k : KReg
  z : Bool
  et : BitVec 5
  rm : BitVec 3
  sat : Bool
  sub : BitVec 3
  deriving DecidableEq, Repr

/-- VDOT (R174). -/
structure VDot where
  d : VReg
  a : VReg
  b : VReg
  sf : BitVec 5
  k : KReg
  z : Bool
  et : BitVec 5
  rm : BitVec 3
  sat : Bool
  deriving DecidableEq, Repr

/-- A memory operand of an extended instruction (R54): segment or own row, base register, displacement. -/
structure XMem where
  sg : BitVec 3
  rowm : Bool
  a : Reg
  disp : BitVec 32
  deriving DecidableEq, Repr

/-- A memory operand of an XL atomic: the literal is a 64-bit displacement (R57, R231). -/
structure LMem where
  sg : BitVec 3
  rowm : Bool
  a : Reg
  lit : Word
  deriving DecidableEq, Repr

/-- LD, short form (R198). -/
structure LdS where
  t : IType
  d : Reg
  a : Reg
  imm : BitVec 12
  deriving DecidableEq, Repr

/-- LD, X form (R198). -/
structure LdX where
  t : IType
  d : Reg
  mem : XMem
  deriving DecidableEq, Repr

/-- ST, short form (R199): w is the width code 0..3. -/
structure StS where
  w : BitVec 2
  a : Reg
  b : Reg
  off : BitVec 12
  deriving DecidableEq, Repr

/-- ST, X form (R199). -/
structure StX where
  w : BitVec 2
  b : Reg
  mem : XMem
  deriving DecidableEq, Repr

/-- VLD (R200). -/
structure VLd where
  d : VReg
  k : KReg
  z : Bool
  et : BitVec 5
  dec : Bool
  mem : XMem
  deriving DecidableEq, Repr

/-- VST (R200). -/
structure VSt where
  b : VReg
  k : KReg
  et : BitVec 5
  mem : XMem
  deriving DecidableEq, Repr

/-- VLDS (R201): b is the scalar stride. -/
structure VLds where
  d : VReg
  b : Reg
  k : KReg
  z : Bool
  et : BitVec 5
  dec : Bool
  mem : XMem
  deriving DecidableEq, Repr

/-- VSTS (R201). -/
structure VSts where
  b : Reg
  c : VReg
  k : KReg
  et : BitVec 5
  mem : XMem
  deriving DecidableEq, Repr

/-- VGAT (R202). -/
structure VGat where
  d : VReg
  b : VReg
  sh : BitVec 3
  k : KReg
  z : Bool
  et : BitVec 5
  mem : XMem
  deriving DecidableEq, Repr

/-- VSCT (R202). -/
structure VSct where
  b : VReg
  c : VReg
  sh : BitVec 3
  k : KReg
  et : BitVec 5
  mem : XMem
  deriving DecidableEq, Repr

/-- ST.DRY (R229): c is the scope register. -/
structure StDry where
  w : BitVec 2
  b : Reg
  c : Reg
  mem : XMem
  deriving DecidableEq, Repr

/-- WATCH (R230). -/
structure WatchX where
  d : Reg
  b : Reg
  et : BitVec 5
  mem : XMem
  deriving DecidableEq, Repr

/-- Atomic, X form (R231). -/
structure AtomX where
  d : Reg
  b : Reg
  et : BitVec 5
  rm : BitVec 3
  mem : XMem
  deriving DecidableEq, Repr

/-- Atomic, XL form (R231). -/
structure AtomL where
  d : Reg
  b : Reg
  et : BitVec 5
  rm : BitVec 3
  mem : LMem
  deriving DecidableEq, Repr

/-- ACAS, X form (R232): c holds the expected value. -/
structure CasX where
  d : Reg
  b : Reg
  c : Reg
  et : BitVec 5
  mem : XMem
  deriving DecidableEq, Repr

/-- ACAS, XL form (R232). -/
structure CasL where
  d : Reg
  b : Reg
  c : Reg
  et : BitVec 5
  mem : LMem
  deriving DecidableEq, Repr

/-- SWEEP (R401). -/
structure SweepX where
  d : VReg
  a : Reg
  b : Reg
  c : VReg
  k : KReg
  z : Bool
  et : BitVec 5
  rm : BitVec 3
  sg : BitVec 3
  sub : BitVec 3
  disp : BitVec 32
  deriving DecidableEq, Repr

/-- NOTE and KPUSH, X form (R240, R250). -/
structure SendX where
  d : Reg
  a : Reg
  b : Reg
  sub : BitVec 3
  imm : BitVec 32
  deriving DecidableEq, Repr

/-- NOTE and KPUSH, XL form. -/
structure SendL where
  d : Reg
  a : Reg
  b : Reg
  sub : BitVec 3
  lit : Word
  deriving DecidableEq, Repr

/-- MMA (R293). -/
structure MmaX where
  a : Reg
  b : Reg
  band : BitVec 2
  et : BitVec 5
  sub : BitVec 3
  n : BitVec 16
  deriving DecidableEq, Repr

/-- MST (R295). -/
structure MstX where
  b : Reg
  clear : Bool
  mem : XMem
  deriving DecidableEq, Repr

/-- MLD (R296). -/
structure MldX where
  b : Reg
  et : BitVec 5
  mem : XMem
  deriving DecidableEq, Repr

/-- JOPEN, X form (R330): a is the key register, or imm the key when sub[0] = 1. -/
structure JopenX where
  h : BitVec 7
  d : Reg
  a : Reg
  b : Reg
  c : Reg
  e : Reg
  sub : BitVec 3
  imm : BitVec 32
  deriving DecidableEq, Repr

/-- JOPEN and JRWD, XL form: the literal is the key. -/
structure JopenL where
  h : BitVec 7
  d : Reg
  b : Reg
  c : Reg
  e : Reg
  lit : Word
  deriving DecidableEq, Repr

/-- JCLOSE, X form (R332). -/
structure JcloseX where
  h : BitVec 7
  d : Reg
  a : Reg
  b : Reg
  sub : BitVec 3
  imm : BitVec 32
  deriving DecidableEq, Repr

/-- JCLOSE, XL form. -/
structure JcloseL where
  h : BitVec 7
  d : Reg
  b : Reg
  terminal : Bool
  lit : Word
  deriving DecidableEq, Repr

/-- A command word as it reaches a row's home (R81, R84): the row, the issuer's privilege, the argument, the reserved bits
and the sequence tag. -/
structure CmdMsg where
  row : Nat
  priv : Bool
  arg : BitVec 8
  rsv : BitVec 16
  tag : BitVec 32
  deriving DecidableEq, Repr

/-- The flow that a remote party's operation belongs to (R378, R379, R381): the entry that names the party (a host's below 64, a peer's
from 64 on), and the delivery mode, 0 ROD, 1 RUD, 2 RUDI. -/
structure RemoteFlow where
  entry : Nat
  mode : Nat
  deriving DecidableEq, Repr

/-- The Paluk's instructions and events: one constructor for each row of spec/opcode_table.json. The events stand first: the
machine itself makes them, and compiled Lean makes only the first 244 constructors of a type; what makes a later one (the
decoder and the step that calls it) is marked noncomputable, and the kernel evaluates it all the same. -/
inductive Instr where
  -- events of the machine: the table rows that are no instruction word
  | illegalInstruction | sweepStep (row : Nat) | slotTableInstall (ex : Nat) | mmaStep (ex : Nat)
  | accumulatorRestore (row : Nat) | bsumArrival (id : Nat) | gtblOperation (studio : Nat) | genStep (studio : Nat)
  | haloStrip (id : Nat) | jopenMessage (id : Nat) | reward (id : Nat) | jcloseMessage (id : Nat)
  | jverMessage (id : Nat) | jstatRequest (id : Nat) | orphanExpiry (eng : Nat) | episodeDeadline (eng : Nat)
  | releasePush (eng : Nat) | releasePushRetry (eng : Nat) | start (m : CmdMsg) | stop (m : CmdMsg)
  | redirect (m : CmdMsg) | resume (m : CmdMsg) | kill (m : CmdMsg) | step (m : CmdMsg) | wakeCommand (m : CmdMsg)
  | priority (m : CmdMsg) | badcode (code : BitVec 8) (m : CmdMsg) | commandLands (row : Nat)
  | directAccess (id : Nat) (elem : Nat) | rowOpen (ex : Nat) (slot : Nat) | holdExpiry (row : Nat) (since : Nat)
  | priorityAging (row : Nat) (since : Nat) | governorWindow (ex : Nat) | memoryReply (id : Nat)
  | longInstructionComplete (row : Nat) | walkComplete (id : Nat) | migrationLineCopy (id : Nat)
  | wetStoreFirstTrip (id : Nat) | wetTripReply (id : Nat) (freed : Bool) | entryDries (id : Nat)
  | driedStoreApply (id : Nat) | dryAcknowledgement (id : Nat) | lbSample
  | lbDelivery (key : Nat) (lb db nb : Option Nat) | rowJoin (row : Nat) | joinAnswer (row : Nat) (phase : Nat)
  | watchAnswer (id : Nat) | watchPoll (id : Nat) | rectangleWrite (p i : Nat) (value : Word)
  | noteLanding (id : Nat) | systemNoteRetry (id : Nat) | acknowledgement (row : Nat) | channelWordSend (row : Nat)
  | channelWordArrival (row : Nat) | remoteRackOperation (id : Nat) | blockMoveLands (id : Nat)
  | lateralBalancing (ex : Nat) | shipmentLands (id : Nat) | continuationRetry (id : Nat) | potOperation (id : Nat)
  | copyPieceRead (id : Nat) | copyPieceWrite (id : Nat) | copyFinish (id : Nat)
  | watchdogWindowEnd (row : Nat) (since : Nat) | instructionLimit (row : Nat) | switchTCycle (p : Nat)
  | switchDecision (p : Nat) | contextEndOrder (p c : Nat) | suspend (t : Nat) | resumeModule (t : Nat)
  | prepare (layout : List (List Nat)) | commit (gen : Nat) | conservatorRecovery | budgetTreePeriod | alarm
  | gatingEnd | clockHop (stack : Nat) | clockHopEnd (stack : Nat) | gtimeCorrection (ex : Nat)
  | hostRmaWrite (p : Nat) (f : RemoteFlow) (addr : Nat) (bytes : List (BitVec 8)) | hostRmaRead (p : Nat) (f : RemoteFlow) (addr : Nat) (n : Nat)
  | hostRmaAtomic (p : Nat) (f : RemoteFlow) (addr : Nat) (op : Nat) (size : Nat) (val cmp : Word)
  | hostTaggedSend (p : Nat) (f : RemoteFlow) (row : Nat) (w1 w2 w3 : Word) | unsupportedOperation (p k : Nat)
  | peerReward (p e h key t x : Nat) | peerSum (p e key : Nat) (sum pow : Int)
  | linkFailure (p peer : Nat) | mailboxRequest (code : Nat) (p : Nat) (args : List Nat)
  | firmwareVerification (which : Nat) (image sig : List Nat) | attestationRequest (nonce : Nat)
  | lifeCycleTransition | reset | patrolScrub (line : Nat) | refreshWindow | neighbourRefresh (row : Nat)
  | sequencerReset (stack : Nat) | sequencerHoldTimeout (stack : Nat) | retryReissue (id : Nat) | powerLossWarning
  | registerWrite (addr : Nat) (priv : Bool) (value : Word) | fetchFault (cause : Nat)
  | issueCycle (ex : Nat) (why : Nat) | alarmCleared | stackOrHubRecovery (stack : Option Nat)
  -- integer arithmetic in the ALU majors (R125 to R127)
  | add (o : AluR) | addSl (o : AluL) | sub (o : AluR) | subSl (o : AluL) | mul (o : AluR) | mulSl (o : AluL)
  | addSat (o : AluR) | addSatSl (o : AluL) | subSat (o : AluR) | subSatSl (o : AluL) | mulSat (o : AluR)
  | mulSatSl (o : AluL) | mulh (o : AluR) | mulhSl (o : AluL) | mulhn (o : AluR) | mulhnSl (o : AluL)
  | div (o : AluR) | divSl (o : AluL) | divn (o : AluR) | divnSl (o : AluL) | rem (o : AluR) | remSl (o : AluL)
  | remn (o : AluR) | remnSl (o : AluL)
  -- logic, shifts, minimum and maximum, compares (R128, R130, R135, R136)
  | and (o : AluR) | andSl (o : AluL) | andn (o : AluR) | andnSl (o : AluL) | or (o : AluR) | orSl (o : AluL)
  | xor (o : AluR) | xorSl (o : AluL) | shl (o : AluR) | shlSl (o : AluL) | shr (o : AluR) | shrSl (o : AluL)
  | sra (o : AluR) | sraSl (o : AluL) | rotl (o : AluR) | rotlSl (o : AluL) | rotr (o : AluR) | rotrSl (o : AluL)
  | min (o : AluR) | minSl (o : AluL) | max (o : AluR) | maxSl (o : AluL) | minn (o : AluR) | minnSl (o : AluL)
  | maxn (o : AluR) | maxnSl (o : AluL) | ceq (o : AluR) | ceqSl (o : AluL) | cne (o : AluR) | cneSl (o : AluL)
  | clt (o : AluR) | cltSl (o : AluL) | cle (o : AluR) | cleSl (o : AluL) | cltn (o : AluR) | cltnSl (o : AluL)
  | clen (o : AluR) | clenSl (o : AluL)
  -- bit counts (R133)
  | clz (o : AluU) | ctz (o : AluU) | popc (o : AluU) | brev (o : AluU)
  -- constants, immediates, bit fields (R125, R128, R131, R134, R138, R139)
  | li (d : Reg) (imm : BitVec 12) | liSl (d : Reg) (lit : Word) | la (d : Reg) (imm : BitVec 12)
  | laSl (d : Reg) (lit : Word) | addi (o : ImmI) | addiSl (o : ImmL) | andi (o : ImmI) | andiSl (o : ImmL)
  | ori (o : ImmI) | oriSl (o : ImmL) | xori (o : ImmI) | xoriSl (o : ImmL) | shlImm (o : ShiftI)
  | shrImm (o : ShiftI) | sraImm (o : ShiftI) | rotlImm (o : ShiftI) | rotrImm (o : ShiftI) | ext (o : FieldI)
  | extn (o : FieldI) | ins (o : FieldI) | fshl (o : FunnelI) | fshr (o : FunnelI) | fshlReg (o : Quad)
  | fshrReg (o : Quad) | lut3 (o : Lut) | sel (o : Quad)
  -- control flow (R140 to R147)
  | beq (o : Branch) | bne (o : Branch) | blt (o : Branch) | bge (o : Branch) | bltn (o : Branch) | bgen (o : Branch)
  | bz (o : BranchZ) | bnz (o : BranchZ) | j (off : BitVec 22) | jSl (lit : Word) | jal (off : BitVec 22)
  | jalSl (lit : Word) | jr (o : ImmI) | loop (l : Reg) (a : Reg) (imm : BitVec 12) | loopx (o : LoopX) | nop
  -- scalar floating point (R153 to R159)
  | fadd (o : FpR) | fsub (o : FpR) | fmul (o : FpR) | fdiv (o : FpR) | fsqrt (o : FpU) | fmin (o : FpC)
  | fmax (o : FpC) | fsgn (o : FpS) | fceq (o : FpC) | fclt (o : FpC) | fcle (o : FpC) | fclass (o : FpK)
  | fma (o : FmaX) | fms (o : FmaX) | fcvt (o : CvtX)
  -- vector lanes (R160 to R174)
  | vadd (o : VBin) | vaddXl (o : VBinL) | vsub (o : VBin) | vsubXl (o : VBinL) | vmul (o : VBin)
  | vmulXl (o : VBinL) | vmulh (o : VBin) | vmulhXl (o : VBinL) | vmin (o : VBin) | vminXl (o : VBinL)
  | vmax (o : VBin) | vmaxXl (o : VBinL) | vand (o : VBin) | vandXl (o : VBinL) | vor (o : VBin) | vorXl (o : VBinL)
  | vxor (o : VBin) | vxorXl (o : VBinL) | vshl (o : VBin) | vshlXl (o : VBinL) | vshr (o : VBin)
  | vshrXl (o : VBinL) | vsra (o : VBin) | vsraXl (o : VBinL) | vfma (o : VFma) | vlut3 (o : VLut) | vcmp (o : VCmp)
  | vsel (o : VSel) | vbc (o : VBc) | vxt (o : VXt) | vin (o : VIn) | vperm (o : VPerm) | vred (o : VRed)
  | vscan (o : VScan) | vcvt (o : VCvt) | vdot (o : VDot)
  -- masks (R175, R176)
  | kand (d a b : KReg) | kor (d a b : KReg) | kxor (d a b : KReg) | knot (d a : KReg) | kmov (d a : KReg)
  | kpop (d : Reg) (a : KReg) | kfind (d : Reg) (a : KReg) (b : Reg)
  -- loads, stores, translation (R198 to R206)
  | ld (o : LdS) | ldX (o : LdX) | st (o : StS) | stX (o : StX) | vld (o : VLd) | vst (o : VSt) | vlds (o : VLds)
  | vsts (o : VSts) | vgat (o : VGat) | vsct (o : VSct) | pref (mem : XMem) | fmtq (d : Reg) (mem : XMem)
  | tlbinv (a b : Reg) (sub : BitVec 3) | migrate (d b : Reg) (mem : XMem) | migrateRelease (d b : Reg)
  -- ordering (R224 to R232)
  | phase (d a : Reg) | tick (d a : Reg) | waitlb (d a b : Reg) | fence (a : Reg)
  | fencex (a : Reg) (sets : BitVec 32) | stDry (o : StDry) | watch (o : WatchX) | aadd (o : AtomX)
  | aaddXl (o : AtomL) | amin (o : AtomX) | aminXl (o : AtomL) | amax (o : AtomX) | amaxXl (o : AtomL)
  | aand (o : AtomX) | aandXl (o : AtomL) | aor (o : AtomX) | aorXl (o : AtomL) | axor (o : AtomX)
  | axorXl (o : AtomL) | axchg (o : AtomX) | axchgXl (o : AtomL) | acas (o : CasX) | acasXl (o : CasL)
  -- rows (R103, R401)
  | ctl (d a b : Reg) | wake (d a : Reg) | arm (d a b : Reg) | disarm (d a : Reg) | self (d : Reg) (sel : BitVec 7)
  | peek (d a b : Reg) (off : BitVec 32) | spawn (d a b c : Reg) (sub : BitVec 3) | quit | park | yield
  | sweep (o : SweepX)
  -- issue state (R104 to R118)
  | slotw (d a : Reg) | slotr (d a : Reg) (sel : BitVec 7) | budget (d a : Reg) | prio (d a : Reg)
  | prioRead (d : Reg)
  -- system (R354 to R357)
  | trap (a : Reg) | beat | gtime (d : Reg) | switch (d a b : Reg)
  -- notes and racks (R240 to R255)
  | note (o : SendX) | noteXl (o : SendL) | recv (d : Reg) | recvq (d : Reg) | kpush (o : SendX)
  | kpushXl (o : SendL) | take (d a : Reg) | jdec (d a b : Reg) | done (d : Reg) | balset (d a : Reg)
  -- copies and pots (R265 to R273)
  | cpy (d a : Reg) (sub : BitVec 3) | cpyw (d a : Reg) | cpyq (d a : Reg) | potset (d a b : Reg) (imm : BitVec 32)
  | potsetClear (d a : Reg) | potput (d a : Reg) (b : VReg) | potget (d a : Reg) | potrel (d a : Reg)
  -- matrix unit and reduction cells (R289 to R298)
  | mown (d a : Reg) | mrel | mcfg (d a : Reg) | mcfgRead (d : Reg) | mzero (a : Reg) | mma (o : MmaX)
  | mst (o : MstX) | mld (o : MldX) | bsum (d a b c : Reg) | bsumAcc (d a c : Reg) | bredRead (d a : Reg)
  | bredClear (d a : Reg) | bredClaim (d a : Reg) | bredRelease (d a : Reg)
  -- rule engine (R310 to R312)
  | gtbl (d : Reg) (hdr : Reg) (mem : XMem) | gen (d a b : Reg) (sub : BitVec 3) (imm : BitVec 32)
  | ghalo (d a : Reg)
  -- join engine (R330 to R333)
  | jopen (o : JopenX) | jopenXl (o : JopenL) | jrwd (o : JopenX) | jrwdXl (o : JopenL) | jclose (o : JcloseX)
  | jcloseXl (o : JcloseL) | jcfgSet (d a b : Reg) | jcfgClear (d a b : Reg) | jcfgPurge (d a b : Reg)
  | jver (d a b : Reg) | jstat (d a : Reg) (sel : BitVec 32)
  deriving DecidableEq, Repr

end Sys2Proof
end

