-- ==== Sys2Proof/Machine/Bits.lean ====
section
/-!
DEFINITION. Bit fields, sign extension and byte order (R3, R22, R59, R77). Everything a register or a descriptor packs is
unpacked here, over natural numbers, so that the byte order and the numbering of bits are decided once.
-/
namespace Sys2Proof.Machine

/-- `v[lo+len-1 : lo]` as an unsigned number (R77). -/
def bitsAt (v lo len : Nat) : Nat := (v >>> lo) % 2 ^ len

/-- Bit `i` of `v`. -/
def bitAt (v i : Nat) : Bool := v.testBit i

/-- `v` with its bits `[lo+len-1 : lo]` replaced by the low bits of `x`. -/
def setBits (v lo len x : Nat) : Nat :=
  v % 2 ^ lo + (x % 2 ^ len) <<< lo + (v >>> (lo + len)) <<< (lo + len)

/-- A truth value as the number 1 or 0. -/
def flag01 (b : Bool) : Nat := if b then 1 else 0

/-- The low `n` bits of `v` read as two's complement. -/
def signedOf (n v : Nat) : Int :=
  if v % 2 ^ n < 2 ^ (n - 1) then (v % 2 ^ n : Nat) else ((v % 2 ^ n : Nat) : Int) - (2 ^ n : Nat)

/-- The low `n` bits of an integer, as an unsigned number. -/
def lowBits (n : Nat) (i : Int) : Nat := (i % (2 ^ n : Nat)).toNat

/-- `sx(v, n)`: the low `n` bits sign-extended to 64 (R77). -/
def sx64 (n v : Nat) : Word := BitVec.ofInt 64 (signedOf n v)

/-- The bytes of `v`, lowest first, `n` of them (R3). -/
def bytesOf : Nat → Nat → List Byte
  | 0, _ => []
  | n + 1, v => BitVec.ofNat 8 v :: bytesOf n (v / 256)

/-- The number whose little-endian bytes these are (R3). -/
def natOfBytes : List Byte → Nat
  | [] => 0
  | b :: r => b.toNat + 256 * natOfBytes r

/-- Element `i` of a packed string of `w`-bit elements (R22). -/
def elemAt (w v i : Nat) : Nat := bitsAt v (w * i) w

/-- A packed string of `w`-bit elements with element `i` replaced (R22). -/
def setElem (w v i x : Nat) : Nat := setBits v (w * i) w x

/-- A packed string built from its elements, element 0 lowest (R22). -/
def packElems (w : Nat) : List Nat → Nat
  | [] => 0
  | x :: r => x % 2 ^ w + 2 ^ w * packElems w r

/-- Clamp an exact integer to `lo..hi` (R23). -/
def clampInt (lo hi i : Int) : Int := if i < lo then lo else if hi < i then hi else i

/-- Number of one bits among the low `n` of `v`. -/
def popCount : Nat → Nat → Nat
  | 0, _ => 0
  | n + 1, v => v % 2 + popCount n (v / 2)

/-- Position of the lowest one bit at or above `i` among `n` further bits of `v`, or `i + n` when there is none. -/
def lowestFrom (v : Nat) : Nat → Nat → Nat
  | 0, i => i
  | n + 1, i => if v.testBit i then i else lowestFrom v n (i + 1)

/-- Zeros above the highest one bit among the low `n` bits. -/
def leadingZeros (v : Nat) : Nat → Nat
  | 0 => 0
  | n + 1 => if v.testBit n then 0 else 1 + leadingZeros v n

/-- The low `n` bits in reverse order. -/
def reverseBits : Nat → Nat → Nat
  | 0, _ => 0
  | n + 1, v => (v % 2) * 2 ^ n + reverseBits n (v / 2)

/-- Number of significant bits. -/
def bitLength (v : Nat) : Nat := if v = 0 then 0 else Nat.log2 v + 1

/-- Integer square root by one result bit at a time: `n` bits, from the highest. -/
def sqrtBits (v : Nat) : Nat → Nat → Nat
  | 0, r => r
  | n + 1, r => sqrtBits v n (if (r + 2 ^ n) * (r + 2 ^ n) ≤ v then r + 2 ^ n else r)

end Sys2Proof.Machine
end

