-- ==== Sys2Proof/Machine/Signatures.lean ====
section
/-!
DEFINITION. The hash and the signatures of the firmware (R20, R66, R386): SHAKE256 as FIPS 202 gives it, and SLH-DSA-SHAKE-256s as FIPS 205
gives it (n 32, h 64, d 8, height 8 a layer, a 14, k 22, w 16, m 47). Both standards are named by R20 and stand outside the manual; keys are
free values (log 4).
-/
namespace Sys2Proof.Machine

/-! ### SHAKE256 (FIPS 202) -/

/-- How far ρ rotates lane x + 5y. -/
def keccakTurns : List Nat :=
  [0, 1, 62, 28, 27, 36, 44, 6, 55, 20, 3, 10, 43, 25, 39, 41, 45, 15, 21, 8, 18, 2, 61, 56, 14]

/-- The constants that ι adds to lane 0, by round. -/
def keccakConstants : List Word :=
  [0x0000000000000001, 0x0000000000008082, 0x800000000000808A, 0x8000000080008000, 0x000000000000808B, 0x0000000080000001,
   0x8000000080008081, 0x8000000000008009, 0x000000000000008A, 0x0000000000000088, 0x0000000080008009, 0x000000008000000A] ++
  [0x000000008000808B, 0x800000000000008B, 0x8000000000008089, 0x8000000000008003, 0x8000000000008002, 0x8000000000000080,
   0x000000000000800A, 0x800000008000000A, 0x8000000080008081, 0x8000000000008080, 0x0000000080000001, 0x8000000080008008]

/-- One round of the permutation on 25 lanes: θ, ρ and π, χ, ι. -/
def keccakRound (a : List Word) (rc : Word) : List Word :=
  let lane := fun (l : List Word) (x y : Nat) => l.getD (x % 5 + 5 * (y % 5)) 0
  let sums := (List.range 5).map fun x => (List.range 5).foldl (fun w y => w ^^^ lane a x y) 0
  let mix := (List.range 5).map fun x => lane sums (x + 4) 0 ^^^ (lane sums (x + 1) 0).rotateLeft 1
  let turned := (List.range 25).map fun i => (lane a i (i / 5) ^^^ lane mix i 0).rotateLeft (keccakTurns.getD i 0)
  let moved := (List.range 25).map fun i => lane turned (i % 5 + 3 * (i / 5)) (i % 5)
  let out := (List.range 25).map fun i =>
    lane moved (i % 5) (i / 5) ^^^ (~~~lane moved (i % 5 + 1) (i / 5) &&& lane moved (i % 5 + 2) (i / 5))
  out.set 0 (out.headD 0 ^^^ rc)

/-- The permutation. -/
def keccakF (a : List Word) : List Word := keccakConstants.foldl keccakRound a

/-- Absorb `n` blocks of 136 bytes. -/
def keccakAbsorb : Nat → List Byte → List Word → List Word
  | 0, _, a => a
  | n + 1, m, a =>
    let block := (List.range 25).map fun i => BitVec.ofNat 64 (natOfBytes (((m.take 136).drop (8 * i)).take 8))
    keccakAbsorb n (m.drop 136) (keccakF (List.zipWith (· ^^^ ·) a block))

/-- Squeeze `n` blocks of 136 bytes. -/
def keccakSqueeze : Nat → List Word → List Byte
  | 0, _ => []
  | n + 1, a => ((a.take 17).flatMap fun w => bytesOf 8 w.toNat) ++ keccakSqueeze n (keccakF a)

/-- `n` bytes of SHAKE256 of a message. -/
def shake256 (m : List Byte) (n : Nat) : List Byte :=
  let pad := 136 - m.length % 136
  let m := m ++ (if pad = 1 then [0x9F] else 0x1F :: List.replicate (pad - 2) 0 ++ [0x80])
  (keccakSqueeze (n / 136 + 1) (keccakAbsorb (m.length / 136) m (List.replicate 25 0))).take n

/-- The SHAKE256 hash of a byte string as the journal and the attestation log hold it: 32 bytes, little-endian (DESIGN CHOICE, log 4: the
manual gives it no length). -/
@[irreducible] def digest (m : List Byte) : Nat := natOfBytes (shake256 m 32)

/-- The hash of layout records: their words, each as 8 bytes. -/
def digestWords (ws : List Nat) : Nat := digest (ws.flatMap fun w => bytesOf 8 w)

/-! ### SLH-DSA-SHAKE-256s (FIPS 205) -/

/-- A hash address: layer, tree, type, and the three words whose meaning the type gives. Types: 0 a WOTS+ chain, 1 a WOTS+ public key, 2 a tree, 3
a FORS tree, 4 FORS roots, 5 a WOTS+ secret, 6 a FORS secret. -/
structure Adrs where
  layer : Nat
  tree : Nat
  kind : Nat
  pair : Nat := 0
  height : Nat := 0
  index : Nat := 0
  deriving DecidableEq, Repr

/-- `n` bytes of a number, highest first. -/
def bytesBE (n v : Nat) : List Byte := (bytesOf n v).reverse

/-- An address in 32 bytes. -/
def Adrs.bytes (a : Adrs) : List Byte :=
  bytesBE 4 a.layer ++ bytesBE 12 a.tree ++ bytesBE 4 a.kind ++ bytesBE 4 a.pair ++ bytesBE 4 a.height ++ bytesBE 4 a.index

/-- F, H, T and PRF: 32 bytes of the hash of the public seed, the address, and what it is applied to. -/
def slhHash (seed : List Byte) (a : Adrs) (m : List Byte) : List Byte := shake256 (seed ++ a.bytes ++ m) 32

/-- The `i`th piece of 32 bytes. -/
def piece32 (m : List Byte) (i : Nat) : List Byte := (m.drop (32 * i)).take 32

/-- `n` digits of `b` bits of a byte string, from its first bit on. -/
def digitsOf (m : List Byte) (b n : Nat) : List Nat :=
  let v := natOfBytes m.reverse
  (List.range n).map fun i => v >>> (8 * m.length - b * (i + 1)) % 2 ^ b

/-- A WOTS+ chain from step `i` for `n` steps. -/
def wotsChain (seed : List Byte) (a : Adrs) (x : List Byte) (i n : Nat) : List Byte :=
  (List.range n).foldl (fun x j => slhHash seed { a with index := i + j } x) x

/-- The 67 digits of a WOTS+ message of 32 bytes: its own 64, and three of their checksum. -/
def wotsDigits (m : List Byte) : List Nat :=
  let ds := digitsOf m 4 64
  ds ++ digitsOf (bytesBE 2 (16 * ds.foldl (fun n d => n + (15 - d)) 0)) 4 3

/-- The WOTS+ public key over the ends of 67 chains. -/
def wotsKey (seed : List Byte) (a : Adrs) (ends : List (List Byte)) : List Byte :=
  slhHash seed { layer := a.layer, tree := a.tree, kind := 1, pair := a.pair } ends.flatten

/-- The WOTS+ public key that a signature of a message leads to. -/
def wotsFrom (seed : List Byte) (a : Adrs) (sig m : List Byte) : List Byte :=
  wotsKey seed a ((wotsDigits m).zipIdx.map fun d => wotsChain seed { a with height := d.2 } (piece32 sig d.2) d.1 (15 - d.1))

/-- Climb a tree from leaf `idx` along an authentication path of `n` nodes. -/
def slhClimb (seed : List Byte) (a : Adrs) (idx : Nat) (path : List Byte) (n : Nat) (leaf : List Byte) : List Byte :=
  (List.range n).foldl (fun x j =>
    let up := slhHash seed { a with height := j + 1, index := idx / 2 ^ (j + 1) }
    if bitAt idx j then up (piece32 path j ++ x) else up (x ++ piece32 path j)) leaf

/-- The root of a layer's tree that its part of a signature leads to: 67 chains and a path of 8. -/
def xmssFrom (seed : List Byte) (layer tree idx : Nat) (sig m : List Byte) : List Byte :=
  slhClimb seed { layer := layer, tree := tree, kind := 2 } idx (sig.drop 2144) 8
    (wotsFrom seed { layer := layer, tree := tree, kind := 0, pair := idx } sig m)

/-- The tree and the leaf that layer `j` uses, from those of the lowest layer. -/
def slhPlace (tree leaf j : Nat) : Nat × Nat := (tree / 2 ^ (8 * j), if j = 0 then leaf else tree / 2 ^ (8 * (j - 1)) % 256)

/-- The root of the hypertree that the signature of a message leads to. -/
def hyperFrom (seed : List Byte) (tree leaf : Nat) (sig m : List Byte) : List Byte :=
  (List.range 8).foldl (fun x j => let at_ := slhPlace tree leaf j
    xmssFrom seed j at_.1 at_.2 ((sig.drop (2400 * j)).take 2400) x) m

/-- The address of FORS trees under a leaf. -/
def forsAdrs (tree leaf : Nat) : Adrs := { layer := 0, tree := tree, kind := 3, pair := leaf }

/-- The FORS public key that a signature of a message digest leads to: 22 secrets, each with a path of 14. -/
def forsFrom (seed : List Byte) (tree leaf : Nat) (sig md : List Byte) : List Byte :=
  let a := forsAdrs tree leaf
  slhHash seed { layer := 0, tree := tree, kind := 4, pair := leaf } ((digitsOf md 14 22).zipIdx.flatMap fun d =>
    let part := (sig.drop (480 * d.2)).take 480
    let idx := d.2 * 2 ^ 14 + d.1
    slhClimb seed a idx (part.drop 32) 14 (slhHash seed { a with index := idx } (part.take 32)))

/-- What a message is digested to: the FORS message, the tree and the leaf. -/
def slhDigest (rand seed root m : List Byte) : List Byte × Nat × Nat :=
  let d := shake256 (rand ++ seed ++ root ++ m) 47
  (d.take 39, natOfBytes ((d.drop 39).take 7).reverse, natOfBytes ((d.drop 46).take 1))

/-- A message of the pure scheme with an empty context string. FIPS 205 offers pre-hash signing and other contexts too, and R20 names none of
them (DESIGN CHOICE, log 4). -/
def slhPure (m : List Byte) : List Byte := 0 :: 0 :: m

/-- Whether a signature of 29,792 bytes verifies for a message under a public key. -/
@[irreducible] def slhVerify (seed root m sig : List Byte) : Bool :=
  let x := slhDigest (sig.take 32) seed root (slhPure m)
  sig.length == 29792 &&
  hyperFrom seed x.2.1 x.2.2 (sig.drop 10592) (forsFrom seed x.2.1 x.2.2 ((sig.drop 32).take 10560) x.1) == root

/-- The secret at the start of a WOTS+ chain. -/
def wotsSecret (secret seed : List Byte) (a : Adrs) (i : Nat) : List Byte := slhHash seed { a with kind := 5, height := i } secret

/-- A node of a layer's tree: at height `z`, number `i`. -/
def xmssNode (secret seed : List Byte) (layer tree : Nat) : Nat → Nat → List Byte
  | 0, i =>
    let a : Adrs := { layer := layer, tree := tree, kind := 0, pair := i }
    wotsKey seed a ((List.range 67).map fun j => wotsChain seed { a with height := j } (wotsSecret secret seed a j) 0 15)
  | z + 1, i =>
    slhHash seed { layer := layer, tree := tree, kind := 2, height := z + 1, index := i }
      (xmssNode secret seed layer tree z (2 * i) ++ xmssNode secret seed layer tree z (2 * i + 1))

/-- A layer's part of a signature. -/
def xmssSign (secret seed : List Byte) (layer tree idx : Nat) (m : List Byte) : List Byte :=
  let a : Adrs := { layer := layer, tree := tree, kind := 0, pair := idx }
  ((wotsDigits m).zipIdx.flatMap fun d => wotsChain seed { a with height := d.2 } (wotsSecret secret seed a d.2) 0 d.1) ++
    (List.range 8).flatMap fun j => xmssNode secret seed layer tree j ((idx / 2 ^ j) ^^^ 1)

/-- A secret of a FORS tree. -/
def forsSecret (secret seed : List Byte) (a : Adrs) (i : Nat) : List Byte := slhHash seed { a with kind := 6, index := i } secret

/-- A node of the FORS trees: at height `z`, number `i`. -/
def forsNode (secret seed : List Byte) (a : Adrs) : Nat → Nat → List Byte
  | 0, i => slhHash seed { a with index := i } (forsSecret secret seed a i)
  | z + 1, i =>
    slhHash seed { a with height := z + 1, index := i } (forsNode secret seed a z (2 * i) ++ forsNode secret seed a z (2 * i + 1))

/-- The FORS part of a signature. -/
def forsSign (secret seed : List Byte) (tree leaf : Nat) (md : List Byte) : List Byte :=
  let a := forsAdrs tree leaf
  (digitsOf md 14 22).zipIdx.flatMap fun d =>
    forsSecret secret seed a (d.2 * 2 ^ 14 + d.1) ++
      (List.range 14).flatMap fun j => forsNode secret seed a j (d.2 * 2 ^ (14 - j) + ((d.1 / 2 ^ j) ^^^ 1))

/-- The hypertree's part of a signature: each layer signs the root of the one below it. -/
def hyperSign (secret seed : List Byte) (tree leaf : Nat) (m : List Byte) : List Byte :=
  ((List.range 8).foldl (fun (x : List Byte × List Byte) j =>
    let at_ := slhPlace tree leaf j
    let part := xmssSign secret seed j at_.1 at_.2 x.2
    (x.1 ++ part, xmssFrom seed j at_.1 at_.2 part x.2)) ([], m)).1

/-- A secret key: the seed of the secrets, the key of the randomizer, and the public seed. -/
structure SlhKey where
  secret : List Byte
  prf : List Byte
  seed : List Byte

/-- The root of a key's hypertree, the second half of its public key. -/
def slhRoot (k : SlhKey) : List Byte := xmssNode k.secret k.seed 7 0 8 0

/-- The signature of a message with a key, with `rand` as the signer's own randomness. -/
@[irreducible] def slhSign (k : SlhKey) (rand m : List Byte) : List Byte :=
  let m := slhPure m
  let r := shake256 (k.prf ++ rand ++ m) 32
  let x := slhDigest r k.seed (slhRoot k) m
  let fors := forsSign k.secret k.seed x.2.1 x.2.2 x.1
  r ++ fors ++ hyperSign k.secret k.seed x.2.1 x.2.2 (forsFrom k.seed x.2.1 x.2.2 fors x.1)

/-! ### The module's keys (R386) -/

/-- Bytes of a list of numbers. -/
def asBytes (l : List Nat) : List Byte := l.map fun n => BitVec.ofNat 8 n

/-- Whether an image's signature verifies under the key for it: 0 the conservator's, held by the boot ROM, 1 the apprentice's, held by the
conservator. -/
def signatureOk (which : Nat) (image sig : List Nat) : Bool :=
  slhVerify (asBytes (Config.imageSeed which)) (asBytes (Config.imageRoot which)) (asBytes image) (asBytes sig)

/-- The conservator's signature with the module identity key over an attestation's numbers, each as 32 bytes, with free value `n` as its
randomness; as numbers (DESIGN CHOICE, log 4: the manual gives the attestation no layout). -/
def attestationSignature (n : Nat) (body : List Nat) : List Nat :=
  (slhSign ⟨asBytes Config.identitySecret, asBytes Config.identityPrf, asBytes Config.identitySeed⟩ (asBytes (Config.signRandom n))
    (body.flatMap fun w => bytesOf 32 w)).map BitVec.toNat

end Sys2Proof.Machine
end

