-- ==== Sys2Proof/WellFormed.lean ====
section
/-!
DEFINITION. What an instruction's fields must satisfy beyond their widths (R53 to R57 and the entries): the conditions whose
breach faults ILLOP at decode. An event of the machine is no instruction word and is not well formed.
-/
namespace Sys2Proof.WF

/-- Lane and arithmetic type codes 0x01 to 0x0C (R148). -/
def laneCode (et : BitVec 5) : Bool := 1 ≤ et.toNat && et.toNat ≤ 12
/-- Integer codes (R21). -/
def intCode (et : BitVec 5) : Bool := 1 ≤ et.toNat && et.toNat ≤ 8
/-- Floating-point lane codes (R148). -/
def fpCode (et : BitVec 5) : Bool := 9 ≤ et.toNat && et.toNat ≤ 12
/-- Rounding modes other than SR (R30, R31). -/
def plainMode (rm : BitVec 3) : Bool := rm.toNat ≤ 3
/-- Formats whose conversions accept SR (R31). -/
def srDest (et : BitVec 5) : Bool :=
  et == 0x09 || et == 0x0A || et == 0x0D || et == 0x0E || et == 0x0F || et == 0x10
/-- A conversion's mode (R31). -/
def cvtMode (et : BitVec 5) (rm : BitVec 3) : Bool := plainMode rm || (rm == 4 && srDest et)
/-- Element width in bits of the codes 0x00 to 0x10 (R21). -/
def codeWidth (et : BitVec 5) : Nat :=
  match et.toNat with
  | 0x02 => 16 | 0x06 => 16 | 0x09 => 16 | 0x0A => 16
  | 0x03 => 32 | 0x07 => 32 | 0x0B => 32
  | 0x04 => 64 | 0x08 => 64 | 0x0C => 64
  | 0x0F => 4 | 0x10 => 4
  | _ => 8
/-- The types of WATCH and the bitwise atomics (R230, R231). -/
def wordInt (et : BitVec 5) : Bool := et == 3 || et == 7 || et == 4 || et == 8
/-- The types of the other atomics (R231). -/
def wordAny (et : BitVec 5) : Bool := wordInt et || et == 0x0B || et == 0x0C
/-- The types of VGAT and VSCT (R202). -/
def gatherCode (et : BitVec 5) : Bool := wordAny et
/-- A memory operand: the own row needs sg 0 (R54). -/
def mem (m : XMem) : Bool := !m.rowm || m.sg == 0
/-- A memory operand with a literal displacement. -/
def memL (m : LMem) : Bool := !m.rowm || m.sg == 0
/-- EXT, EXTN, INS: position + length ≤ 64 (R53). -/
def field (o : FieldI) : Bool := o.pos.toNat + o.len1.toNat + 1 ≤ 64
/-- A mode field of scalar FP (R61). -/
def fpMode (o : FpR) : Bool := plainMode o.m
/-- Integer or FP fields of VADD, VSUB, VMUL (R160). -/
def vArith (et : BitVec 5) (rm : BitVec 3) (sat : Bool) : Bool :=
  (intCode et && rm == 0) || (fpCode et && plainMode rm && !sat)
/-- Fields of VMULH and the bitwise and shift operations (R160). -/
def vInt (et : BitVec 5) (rm : BitVec 3) (sat : Bool) : Bool := intCode et && rm == 0 && !sat
/-- Fields of VMIN and VMAX (R160). -/
def vMinMax (et : BitVec 5) (rm : BitVec 3) (sat : Bool) : Bool := laneCode et && rm == 0 && !sat
/-- Operand B of major 0x60 (R160): a vector register needs its top bit zero, an immediate needs b = 0. -/
def vSub (o : VBin) : Bool :=
  match o.sub.toNat with
  | 0 => o.b.toNat < 16 && o.imm == 0
  | 1 => o.imm == 0
  | 2 => o.b == 0
  | _ => false
/-- VCMP's relation (R164). -/
def vRel (et : BitVec 5) (sub : BitVec 3) : Bool :=
  (intCode et && sub.toNat ≤ 5) || (fpCode et && sub.toNat ≤ 4)
/-- VRED and VSCAN (R170). -/
def redFields (et : BitVec 5) (rm : BitVec 3) (sub : BitVec 3) : Bool :=
  (intCode et && sub.toNat ≤ 5 && rm == 0) ||
  (fpCode et && sub.toNat ≤ 2 && (if sub == 0 then plainMode rm else rm == 0))
/-- VBC (R166). -/
def vbc (o : VBc) : Bool :=
  laneCode o.et && (match o.sub.toNat with
    | 0 => o.imm == 0
    | 1 => o.a.toNat < 16 && o.imm.toNat < 512 / codeWidth o.et
    | _ => false)
/-- VCVT (R172). -/
def vcvt (o : VCvt) : Bool :=
  1 ≤ o.src.toNat && o.src.toNat ≤ 16 && 1 ≤ o.et.toNat && o.et.toNat ≤ 16 && o.src != o.et &&
  (!o.sat || (intCode o.src && intCode o.et)) && cvtMode o.et o.rm &&
  o.sub.toNat < max (codeWidth o.src) (codeWidth o.et) / min (codeWidth o.src) (codeWidth o.et)
/-- VDOT's pairings (R174). -/
def vdot (o : VDot) : Bool :=
  match o.sf.toNat with
  | 0x01 => o.et == 3 && o.rm == 0
  | 0x05 => o.et == 3 && o.rm == 0
  | 0x02 => o.et == 3 && o.rm == 0
  | 0x09 => o.et == 0x0B && plainMode o.rm && !o.sat
  | 0x0A => o.et == 0x0B && plainMode o.rm && !o.sat
  | 0x0D => o.et == 0x0B && plainMode o.rm && !o.sat
  | 0x0E => o.et == 0x0B && plainMode o.rm && !o.sat
  | 0x0F => o.et == 0x0B && plainMode o.rm && !o.sat
  | 0x10 => o.et == 0x0B && plainMode o.rm && !o.sat
  | _ => false
/-- FCVT (R159). -/
def fcvt (o : CvtX) : Bool :=
  1 ≤ o.src.toNat && o.src.toNat ≤ 15 && 1 ≤ o.et.toNat && o.et.toNat ≤ 15 && o.src != o.et &&
  !(intCode o.src && intCode o.et) && cvtMode o.et o.rm
/-- LOOPX (R144). -/
def loopx (o : LoopX) : Bool :=
  o.l.toNat ≤ 1 && 3 ≤ o.dist.toNat && o.dist.toNat ≤ 4098 && (if o.immCount then o.a == 0 else o.count == 0)
/-- SWEEP (its entry's operand rules). `rm` is 0 to 3 whatever the operation and type, also where nothing is rounded: the entry refuses only 4 and
up (DESIGN CHOICE, log 78). -/
def sweep (o : SweepX) : Bool :=
  plainMode o.rm && (match o.sub.toNat with
    | 0 => intCode o.et && o.c == 0
    | 1 => (intCode o.et || o.et == 0x0B || o.et == 0x0A) && o.c == 0
    | 2 => (intCode o.et || o.et == 0x0B) && o.c == 0
    | 3 => (intCode o.et || o.et == 0x0B) && o.c == 0
    | 4 => o.et == 3 || o.et == 0x0B
    | 5 => laneCode o.et
    | _ => false)
/-- NOTE, X form (R240): b at most 29, or 30 with an immediate third word. -/
def noteX (o : SendX) : Bool :=
  o.sub.toNat ≤ 3 && (if o.sub.toNat % 2 = 1 then o.b.toNat ≤ 30 else o.b.toNat ≤ 29 && o.imm == 0)
/-- NOTE, XL form. -/
def noteL (o : SendL) : Bool := (o.sub == 1 || o.sub == 3) && o.b.toNat ≤ 30
/-- KPUSH, X form (R250). -/
def kpushX (o : SendX) : Bool := o.sub.toNat ≤ 3 && o.b.toNat ≤ 28 && (o.sub.toNat % 2 = 1 || o.imm == 0)
/-- KPUSH, XL form. -/
def kpushL (o : SendL) : Bool := (o.sub == 1 || o.sub == 3) && o.b.toNat ≤ 28
/-- Destinations of RECV, RECVQ and TAKE (R241, R251). -/
def four (d : Reg) : Bool := 1 ≤ d.toNat && d.toNat ≤ 26
/-- Formats a register operand of MMA may have (R281). -/
def mmaReg (et : BitVec 5) : Bool := et == 0x09 || et == 0x0A || (0x12 ≤ et.toNat && et.toNat ≤ 0x16)
/-- MMA (R293): register pairs stop at s30:s31. -/
def mma (o : MmaX) : Bool :=
  match o.sub.toNat with
  | 0 => o.et == 0 && o.band == 0 && o.a.toNat ≤ 30 && o.b.toNat ≤ 30
  | 1 => o.a == 0 && mmaReg o.et && o.n == 1 && o.b.toNat ≤ 30
  | 2 => o.b == 0 && mmaReg o.et && o.n == 1 && o.a.toNat ≤ 30
  | _ => false
/-- JOPEN and JRWD, X form. -/
def jKey (o : JopenX) : Bool := (o.sub == 0 && o.imm == 0) || (o.sub == 1 && o.a == 0)
/-- JCLOSE, X form. -/
def jcloseX (o : JcloseX) : Bool :=
  o.sub.toNat ≤ 3 && (if o.sub.toNat % 2 = 1 then o.a == 0 else o.imm == 0)
/-- POTSET's immediate (its entry): SLOT 1..1,024. -/
def potset (imm : BitVec 32) : Bool :=
  1 ≤ imm.toNat % 65536 && imm.toNat % 65536 ≤ 1024 && imm.toNat < 2 ^ 24
/-- TLBINV (R205). -/
def tlbinv (a b : Reg) (sub : BitVec 3) : Bool :=
  match sub.toNat with
  | 0 => true
  | 1 => a == 0
  | 2 => a == 0 && b == 0
  | 3 => b == 0
  | _ => false

end Sys2Proof.WF

namespace Sys2Proof

/-- Whether an instruction's fields meet its entry, so that it has an encoding (R63). -/
def wellFormed (i : Instr) : Bool :=
  match i with
  | .add _ => true | .addSl _ => true | .sub _ => true | .subSl _ => true | .mul _ => true | .mulSl _ => true
  | .addSat _ => true | .addSatSl _ => true | .subSat _ => true | .subSatSl _ => true
  | .mulSat _ => true | .mulSatSl _ => true
  | .mulh _ => true | .mulhSl _ => true | .mulhn _ => true | .mulhnSl _ => true
  | .div _ => true | .divSl _ => true | .divn _ => true | .divnSl _ => true
  | .rem _ => true | .remSl _ => true | .remn _ => true | .remnSl _ => true
  | .and _ => true | .andSl _ => true | .andn _ => true | .andnSl _ => true | .or _ => true | .orSl _ => true
  | .xor _ => true | .xorSl _ => true | .shl _ => true | .shlSl _ => true | .shr _ => true | .shrSl _ => true
  | .sra _ => true | .sraSl _ => true | .rotl _ => true | .rotlSl _ => true | .rotr _ => true | .rotrSl _ => true
  | .min _ => true | .minSl _ => true | .max _ => true | .maxSl _ => true | .minn _ => true | .minnSl _ => true
  | .maxn _ => true | .maxnSl _ => true | .ceq _ => true | .ceqSl _ => true | .cne _ => true | .cneSl _ => true
  | .clt _ => true | .cltSl _ => true | .cle _ => true | .cleSl _ => true | .cltn _ => true | .cltnSl _ => true
  | .clen _ => true | .clenSl _ => true
  | .clz _ => true | .ctz _ => true | .popc _ => true | .brev _ => true
  | .li _ _ => true | .liSl _ _ => true | .la _ _ => true | .laSl _ _ => true
  | .addi _ => true | .addiSl _ => true | .andi _ => true | .andiSl _ => true | .ori _ => true | .oriSl _ => true
  | .xori _ => true | .xoriSl _ => true
  | .shlImm _ => true | .shrImm _ => true | .sraImm _ => true | .rotlImm _ => true | .rotrImm _ => true
  | .ext o => WF.field o | .extn o => WF.field o | .ins o => WF.field o
  | .fshl _ => true | .fshr _ => true | .fshlReg _ => true | .fshrReg _ => true | .lut3 _ => true | .sel _ => true
  | .beq _ => true | .bne _ => true | .blt _ => true | .bge _ => true | .bltn _ => true | .bgen _ => true
  | .bz _ => true | .bnz _ => true
  | .j _ => true | .jal _ => true
  | .jSl lit => lit.toNat % 4 = 0 && lit.toNat < 2 ^ 40
  | .jalSl lit => lit.toNat % 4 = 0 && lit.toNat < 2 ^ 40
  | .jr _ => true
  | .loop l _ imm => l.toNat ≤ 1 && imm != 0
  | .loopx o => WF.loopx o | .nop => true | .illegalInstruction => false
  | .fadd o => WF.fpMode o | .fsub o => WF.fpMode o | .fmul o => WF.fpMode o | .fdiv o => WF.fpMode o
  | .fsqrt o => WF.plainMode o.m | .fmin _ => true | .fmax _ => true | .fsgn o => o.op.toNat ≤ 2
  | .fceq _ => true | .fclt _ => true | .fcle _ => true | .fclass _ => true
  | .fma o => WF.fpCode o.et && WF.plainMode o.rm | .fms o => WF.fpCode o.et && WF.plainMode o.rm
  | .fcvt o => WF.fcvt o
  | .vadd o => WF.vArith o.et o.rm o.sat && WF.vSub o | .vaddXl o => WF.vArith o.et o.rm o.sat
  | .vsub o => WF.vArith o.et o.rm o.sat && WF.vSub o | .vsubXl o => WF.vArith o.et o.rm o.sat
  | .vmul o => WF.vArith o.et o.rm o.sat && WF.vSub o | .vmulXl o => WF.vArith o.et o.rm o.sat
  | .vmulh o => WF.vInt o.et o.rm o.sat && WF.vSub o | .vmulhXl o => WF.vInt o.et o.rm o.sat
  | .vmin o => WF.vMinMax o.et o.rm o.sat && WF.vSub o | .vminXl o => WF.vMinMax o.et o.rm o.sat
  | .vmax o => WF.vMinMax o.et o.rm o.sat && WF.vSub o | .vmaxXl o => WF.vMinMax o.et o.rm o.sat
  | .vand o => WF.vInt o.et o.rm o.sat && WF.vSub o | .vandXl o => WF.vInt o.et o.rm o.sat
  | .vor o => WF.vInt o.et o.rm o.sat && WF.vSub o | .vorXl o => WF.vInt o.et o.rm o.sat
  | .vxor o => WF.vInt o.et o.rm o.sat && WF.vSub o | .vxorXl o => WF.vInt o.et o.rm o.sat
  | .vshl o => WF.vInt o.et o.rm o.sat && WF.vSub o | .vshlXl o => WF.vInt o.et o.rm o.sat
  | .vshr o => WF.vInt o.et o.rm o.sat && WF.vSub o | .vshrXl o => WF.vInt o.et o.rm o.sat
  | .vsra o => WF.vInt o.et o.rm o.sat && WF.vSub o | .vsraXl o => WF.vInt o.et o.rm o.sat
  | .vfma o => WF.fpCode o.et && WF.plainMode o.rm && o.sub.toNat ≤ 3
  | .vlut3 _ => true | .vcmp o => WF.vRel o.et o.sub | .vsel o => WF.laneCode o.et | .vbc o => WF.vbc o
  | .vxt o => WF.laneCode o.et | .vin o => WF.laneCode o.et | .vperm o => WF.laneCode o.et
  | .vred o => WF.redFields o.et o.rm o.sub | .vscan o => WF.redFields o.et o.rm o.sub
  | .vcvt o => WF.vcvt o | .vdot o => WF.vdot o
  | .kand _ _ _ => true | .kor _ _ _ => true | .kxor _ _ _ => true | .knot _ _ => true | .kmov _ _ => true
  | .kpop _ _ => true | .kfind _ _ _ => true
  | .ld _ => true | .ldX o => WF.mem o.mem | .st _ => true | .stX o => WF.mem o.mem
  | .vld o => WF.laneCode o.et && WF.mem o.mem | .vst o => WF.laneCode o.et && WF.mem o.mem
  | .vlds o => WF.laneCode o.et && WF.mem o.mem | .vsts o => WF.laneCode o.et && WF.mem o.mem
  | .vgat o => WF.gatherCode o.et && o.sh.toNat ≤ 3 && WF.mem o.mem
  | .vsct o => WF.gatherCode o.et && o.sh.toNat ≤ 3 && WF.mem o.mem
  | .pref m => WF.mem m | .fmtq _ m => WF.mem m | .tlbinv a b sub => WF.tlbinv a b sub
  | .migrate _ _ m => WF.mem m | .migrateRelease _ _ => true
  | .phase _ _ => true | .tick _ _ => true | .waitlb _ _ _ => true | .fence _ => true
  | .fencex _ sets =>
    sets.toNat % 128 != 0 && sets.toNat / 256 % 128 != 0 && sets.toNat / 128 % 2 == 0 && sets.toNat < 32768
  | .stDry o => WF.mem o.mem | .watch o => WF.wordInt o.et && WF.mem o.mem
  | .aadd o => WF.wordAny o.et && WF.mem o.mem && (if WF.fpCode o.et then WF.plainMode o.rm else o.rm == 0)
  | .aaddXl o => WF.wordAny o.et && WF.memL o.mem && (if WF.fpCode o.et then WF.plainMode o.rm else o.rm == 0)
  | .amin o => WF.wordAny o.et && WF.mem o.mem && o.rm == 0 | .aminXl o => WF.wordAny o.et && WF.memL o.mem && o.rm == 0
  | .amax o => WF.wordAny o.et && WF.mem o.mem && o.rm == 0 | .amaxXl o => WF.wordAny o.et && WF.memL o.mem && o.rm == 0
  | .aand o => WF.wordInt o.et && WF.mem o.mem && o.rm == 0 | .aandXl o => WF.wordInt o.et && WF.memL o.mem && o.rm == 0
  | .aor o => WF.wordInt o.et && WF.mem o.mem && o.rm == 0 | .aorXl o => WF.wordInt o.et && WF.memL o.mem && o.rm == 0
  | .axor o => WF.wordInt o.et && WF.mem o.mem && o.rm == 0 | .axorXl o => WF.wordInt o.et && WF.memL o.mem && o.rm == 0
  | .axchg o => WF.wordAny o.et && WF.mem o.mem && o.rm == 0
  | .axchgXl o => WF.wordAny o.et && WF.memL o.mem && o.rm == 0
  | .acas o => WF.wordAny o.et && WF.mem o.mem | .acasXl o => WF.wordAny o.et && WF.memL o.mem
  | .ctl _ _ _ => true | .wake _ _ => true | .arm _ _ _ => true | .disarm _ _ => true | .self _ sel => sel.toNat ≤ 3
  | .peek _ _ _ off => off.toNat % 8 = 0 && off.toNat ≤ 0xF00
  | .spawn _ _ _ c sub => c.toNat ≤ 28 && sub.toNat ≤ 1
  | .quit => true | .park => true | .yield => true | .sweep o => WF.sweep o | .sweepStep _ => false
  | .slotw _ _ => true | .slotTableInstall _ => false
  | .slotr _ a sel => sel.toNat ≤ 9 && (sel == 0 || a == 0)
  | .budget _ _ => true | .prio _ _ => true | .prioRead _ => true
  | .trap _ => true | .beat => true | .gtime _ => true | .switch _ _ _ => true
  | .note o => WF.noteX o | .noteXl o => WF.noteL o | .recv d => WF.four d | .recvq d => WF.four d
  | .kpush o => WF.kpushX o | .kpushXl o => WF.kpushL o | .take d _ => WF.four d
  | .jdec _ _ b => b.toNat ≤ 28 | .done _ => true | .balset _ _ => true
  | .cpy _ _ _ => true | .cpyw _ _ => true | .cpyq _ _ => true
  | .potset _ _ _ imm => WF.potset imm | .potsetClear _ _ => true | .potput _ _ _ => true | .potget _ _ => true
  | .potrel _ _ => true
  | .mown _ _ => true | .mrel => true | .mcfg _ _ => true | .mcfgRead _ => true | .mzero _ => true | .mma o => WF.mma o
  | .mmaStep _ => false | .accumulatorRestore _ => false
  | .mst o => WF.mem o.mem
  | .mld o => (o.et == 0 || o.et == 3 || o.et == 0x0B) && WF.mem o.mem
  | .bsum _ _ _ _ => true | .bsumAcc _ _ _ => true | .bsumArrival _ => false
  | .bredRead d _ => 1 ≤ d.toNat && d.toNat ≤ 30 | .bredClear d _ => 1 ≤ d.toNat && d.toNat ≤ 30
  | .bredClaim d _ => 1 ≤ d.toNat && d.toNat ≤ 30 | .bredRelease d _ => 1 ≤ d.toNat && d.toNat ≤ 30
  | .gtbl _ _ m => WF.mem m | .gtblOperation _ => false
  | .gen _ _ b sub imm => (sub == 0 && imm == 0) || (sub == 1 && b == 0)
  | .genStep _ => false | .ghalo _ _ => true | .haloStrip _ => false
  | .jopen o => WF.jKey o | .jopenXl _ => true | .jrwd o => WF.jKey o | .jrwdXl _ => true
  | .jclose o => WF.jcloseX o | .jcloseXl _ => true
  | .jcfgSet _ _ _ => true | .jcfgClear _ _ _ => true | .jcfgPurge _ _ _ => true | .jver _ _ _ => true
  | .jstat _ _ sel => sel.toNat ≤ 13
  | .jopenMessage _ => false | .reward _ => false | .jcloseMessage _ => false | .jverMessage _ => false
  | .jstatRequest _ => false | .orphanExpiry _ => false | .episodeDeadline _ => false | .releasePush _ => false
  | .releasePushRetry _ => false
  | .start _ => false | .stop _ => false | .redirect _ => false | .resume _ => false | .kill _ => false
  | .step _ => false | .wakeCommand _ => false | .priority _ => false | .badcode _ _ => false | .commandLands _ => false
  | .directAccess _ _ => false | .rowOpen _ _ => false | .holdExpiry _ _ => false | .priorityAging _ _ => false
  | .governorWindow _ => false | .memoryReply _ => false | .longInstructionComplete _ => false | .walkComplete _ => false
  | .migrationLineCopy _ => false | .wetStoreFirstTrip _ => false | .wetTripReply _ _ => false | .entryDries _ => false
  | .driedStoreApply _ => false | .dryAcknowledgement _ => false | .lbSample => false | .lbDelivery _ _ _ _ => false
  | .rowJoin _ => false | .joinAnswer _ _ => false | .watchAnswer _ => false | .watchPoll _ => false
  | .rectangleWrite _ _ _ => false | .noteLanding _ => false | .systemNoteRetry _ => false | .acknowledgement _ => false
  | .channelWordSend _ => false | .channelWordArrival _ => false | .remoteRackOperation _ => false
  | .blockMoveLands _ => false | .lateralBalancing _ => false | .shipmentLands _ => false | .continuationRetry _ => false
  | .potOperation _ => false | .copyPieceRead _ => false | .copyPieceWrite _ => false | .copyFinish _ => false
  | .watchdogWindowEnd _ _ => false | .instructionLimit _ => false | .switchTCycle _ => false | .switchDecision _ => false
  | .contextEndOrder _ _ => false | .suspend _ => false | .resumeModule _ => false | .prepare _ => false | .commit _ => false
  | .conservatorRecovery => false | .budgetTreePeriod => false | .alarm => false | .gatingEnd => false
  | .clockHop _ => false | .clockHopEnd _ => false | .gtimeCorrection _ => false
  | .hostRmaWrite _ _ _ _ => false | .hostRmaRead _ _ _ _ => false | .hostRmaAtomic _ _ _ _ _ _ _ => false
  | .hostTaggedSend _ _ _ _ _ _ => false | .unsupportedOperation _ _ => false | .linkFailure _ _ => false
  | .peerReward _ _ _ _ _ _ => false | .peerSum _ _ _ _ _ => false
  | .mailboxRequest _ _ _ => false | .firmwareVerification _ _ _ => false | .attestationRequest _ => false
  | .lifeCycleTransition => false | .reset => false | .patrolScrub _ => false | .refreshWindow => false
  | .neighbourRefresh _ => false | .sequencerReset _ => false | .sequencerHoldTimeout _ => false | .retryReissue _ => false
  | .powerLossWarning => false | .registerWrite _ _ _ => false | .fetchFault _ => false | .issueCycle _ _ => false
  | .alarmCleared => false | .stackOrHubRecovery _ => false

end Sys2Proof
end

