-- ==== Sys2Proof/Decode.lean ====
section
/-!
DEFINITION. Decoding and encoding of instruction words (chapter "Instruction words and the Toriq conventions", R48 to R63). Words
are given as numbers below 2^32. `decodeWords` takes the words of one instruction, first word first, and answers the instruction
or none where the Paluk faults ILLOP; `encodeWords` writes the words of a well-formed instruction from the same tables.
-/
namespace Sys2Proof

/-! ### Fields of word 0 (R52) -/

/-- Length code [1:0] (R49). -/
def fLen (w : Nat) : Nat := w % 4
/-- Major opcode [9:2]. -/
def fMajor (w : Nat) : Nat := w / 4 % 256
/-- d [14:10]. -/
def fD (w : Nat) : Nat := w / 1024 % 32
/-- a [19:15]. -/
def fA (w : Nat) : Nat := w / 32768 % 32
/-- b [24:20]. -/
def fB (w : Nat) : Nat := w / 1048576 % 32
/-- fn [31:25]. -/
def fFn (w : Nat) : Nat := w / 33554432 % 128
/-- I-format immediate [31:20]. -/
def fImm (w : Nat) : Nat := w / 1048576 % 4096
/-- B-format offset: [14:10] low, [31:25] high. -/
def fOffB (w : Nat) : Nat := fD w + 32 * fFn w
/-- J-format offset [31:10]. -/
def fOffJ (w : Nat) : Nat := w / 1024 % 4194304

/-! ### Fields of word 1 (R54) -/

/-- c [4:0]. -/
def gC (w : Nat) : Nat := w % 32
/-- k [7:5]. -/
def gK (w : Nat) : Nat := w / 32 % 8
/-- z [8]. -/
def gZ (w : Nat) : Nat := w / 256 % 2
/-- et [13:9]. -/
def gEt (w : Nat) : Nat := w / 512 % 32
/-- rm [16:14]. -/
def gRm (w : Nat) : Nat := w / 16384 % 8
/-- sat [17]. -/
def gSat (w : Nat) : Nat := w / 131072 % 2
/-- sg [20:18]. -/
def gSg (w : Nat) : Nat := w / 262144 % 8
/-- rowm [21]. -/
def gRowm (w : Nat) : Nat := w / 2097152 % 2
/-- reserved [23:22]. -/
def gRsv (w : Nat) : Nat := w / 4194304 % 4
/-- e [28:24]. -/
def gE (w : Nat) : Nat := w / 16777216 % 32
/-- sub [31:29]. -/
def gSub (w : Nat) : Nat := w / 536870912 % 8

/-- Which word-1 fields an entry names (R56); `mem` stands for sg and rowm. -/
structure Use1 where
  c : Bool := false
  k : Bool := false
  z : Bool := false
  et : Bool := false
  rm : Bool := false
  sat : Bool := false
  mem : Bool := false
  e : Bool := false
  sub : Bool := false
  deriving DecidableEq, Repr

/-- Every word-1 field the entry does not name is zero, the reserved bits included (R56). -/
def only1 (u : Use1) (w : Nat) : Bool :=
  (u.c || gC w == 0) && (u.k || gK w == 0) && (u.z || gZ w == 0) && (u.et || gEt w == 0) && (u.rm || gRm w == 0) &&
  (u.sat || gSat w == 0) && (u.mem || (gSg w == 0 && gRowm w == 0)) && gRsv w == 0 && (u.e || gE w == 0) &&
  (u.sub || gSub w == 0)

/-- A register field. -/
def reg (n : Nat) : Reg := BitVec.ofNat 5 n
/-- A vector register field. -/
def vreg (n : Nat) : VReg := BitVec.ofNat 4 n
/-- A mask register field. -/
def kreg (n : Nat) : KReg := BitVec.ofNat 3 n
/-- A format code field. -/
def code5 (n : Nat) : BitVec 5 := BitVec.ofNat 5 n
/-- A three-bit field. -/
def code3 (n : Nat) : BitVec 3 := BitVec.ofNat 3 n
/-- A memory operand with displacement (R54, R55). -/
def xmem (w1 a w2 : Nat) : XMem := ⟨code3 (gSg w1), gRowm w1 == 1, reg a, BitVec.ofNat 32 w2⟩
/-- A memory operand with a literal displacement (R57). -/
def lmem (w1 a lit : Nat) : LMem := ⟨code3 (gSg w1), gRowm w1 == 1, reg a, BitVec.ofNat 64 lit⟩
/-- A 64-bit literal, low word first (R57). -/
def literal (lo hi : Nat) : Nat := lo + 4294967296 * hi

/-- The type code of an ALU major or a load (R59). -/
def itypeOf (t : Nat) : IType :=
  match t with
  | 0 => .i8 | 1 => .i16 | 2 => .i32 | 3 => .i64 | 4 => .n8 | 5 => .n16 | 6 => .n32 | _ => .n64

/-- The FP type of majors 0x40 to 0x43 (R61). -/
def ftypeOf (m : Nat) : FType :=
  match m with
  | 0x40 => .f64 | 0x41 => .f32 | 0x42 => .f16 | _ => .bf16

/-- The instruction when its fields meet the entry, none otherwise (R63). -/
def checked (i : Instr) : Option Instr := if wellFormed i then some i else none

/-- `i` when the condition holds and its fields meet the entry. -/
def given (c : Bool) (i : Instr) : Option Instr := if c then checked i else none

/-! ### The short forms -/

/-- ALU operations on two registers (R60). -/
def aluShort (o : AluR) (fn : Nat) : Option Instr :=
  match fn with
  | 0x0 => some (.add o)
  | 0x1 => some (.sub o)
  | 0x2 => some (.mul o)
  | 0x3 => some (.mulh o)
  | 0x4 => some (.mulhn o)
  | 0x5 => some (.div o)
  | 0x6 => some (.divn o)
  | 0x7 => some (.rem o)
  | 0x8 => some (.remn o)
  | 0x9 => some (.and o)
  | 0xa => some (.andn o)
  | 0xb => some (.or o)
  | 0xc => some (.xor o)
  | 0xd => some (.shl o)
  | 0xe => some (.shr o)
  | 0xf => some (.sra o)
  | 0x10 => some (.rotl o)
  | 0x11 => some (.rotr o)
  | 0x12 => some (.min o)
  | 0x13 => some (.max o)
  | 0x14 => some (.minn o)
  | 0x15 => some (.maxn o)
  | 0x16 => some (.ceq o)
  | 0x17 => some (.cne o)
  | 0x18 => some (.clt o)
  | 0x19 => some (.cle o)
  | 0x1a => some (.cltn o)
  | 0x1b => some (.clen o)
  | 0x40 => some (.addSat o)
  | 0x41 => some (.subSat o)
  | 0x42 => some (.mulSat o)
  | 0x1c => given (o.b == 0) (.clz ⟨o.t, o.d, o.a⟩)
  | 0x1d => given (o.b == 0) (.ctz ⟨o.t, o.d, o.a⟩)
  | 0x1e => given (o.b == 0) (.popc ⟨o.t, o.d, o.a⟩)
  | 0x1f => given (o.b == 0) (.brev ⟨o.t, o.d, o.a⟩)
  | _ => none

/-- ALU operations with a literal (R57, R60): CLZ to BREV have no b operand (R124). -/
def aluLit (o : AluL) (fn : Nat) : Option Instr :=
  match fn with
  | 0x0 => some (.addSl o)
  | 0x1 => some (.subSl o)
  | 0x2 => some (.mulSl o)
  | 0x3 => some (.mulhSl o)
  | 0x4 => some (.mulhnSl o)
  | 0x5 => some (.divSl o)
  | 0x6 => some (.divnSl o)
  | 0x7 => some (.remSl o)
  | 0x8 => some (.remnSl o)
  | 0x9 => some (.andSl o)
  | 0xa => some (.andnSl o)
  | 0xb => some (.orSl o)
  | 0xc => some (.xorSl o)
  | 0xd => some (.shlSl o)
  | 0xe => some (.shrSl o)
  | 0xf => some (.sraSl o)
  | 0x10 => some (.rotlSl o)
  | 0x11 => some (.rotrSl o)
  | 0x12 => some (.minSl o)
  | 0x13 => some (.maxSl o)
  | 0x14 => some (.minnSl o)
  | 0x15 => some (.maxnSl o)
  | 0x16 => some (.ceqSl o)
  | 0x17 => some (.cneSl o)
  | 0x18 => some (.cltSl o)
  | 0x19 => some (.cleSl o)
  | 0x1a => some (.cltnSl o)
  | 0x1b => some (.clenSl o)
  | 0x40 => some (.addSatSl o)
  | 0x41 => some (.subSatSl o)
  | 0x42 => some (.mulSatSl o)
  | _ => none

/-- Scalar FP by its operation number fn[6:3] and mode fn[2:0] (R61). -/
def fpShort (t : FType) (op m d a b : Nat) : Option Instr :=
  match op with
  | 0 => checked (.fadd ⟨t, code3 m, reg d, reg a, reg b⟩)
  | 1 => checked (.fsub ⟨t, code3 m, reg d, reg a, reg b⟩)
  | 2 => checked (.fmul ⟨t, code3 m, reg d, reg a, reg b⟩)
  | 3 => checked (.fdiv ⟨t, code3 m, reg d, reg a, reg b⟩)
  | 4 => given (b == 0) (.fsqrt ⟨t, code3 m, reg d, reg a⟩)
  | 5 => given (m == 0) (.fmin ⟨t, reg d, reg a, reg b⟩)
  | 6 => given (m == 0) (.fmax ⟨t, reg d, reg a, reg b⟩)
  | 7 => checked (.fsgn ⟨t, code3 m, reg d, reg a, reg b⟩)
  | 8 => given (m == 0) (.fceq ⟨t, reg d, reg a, reg b⟩)
  | 9 => given (m == 0) (.fclt ⟨t, reg d, reg a, reg b⟩)
  | 10 => given (m == 0) (.fcle ⟨t, reg d, reg a, reg b⟩)
  | 11 => given (m == 0 && b == 0) (.fclass ⟨t, reg d, reg a⟩)
  | _ => none

/-- The majors of the S form by number (R58). -/
noncomputable def decodeS (w : Nat) : Option Instr :=
  let m := fMajor w
  let d := fD w
  let a := fA w
  let b := fB w
  let fn := fFn w
  let imm : BitVec 12 := BitVec.ofNat 12 (fImm w)
  let off : BitVec 12 := BitVec.ofNat 12 (fOffB w)
  if 0x08 ≤ m && m ≤ 0x0F then aluShort ⟨itypeOf (m - 8), reg d, reg a, reg b⟩ fn
  else if 0x40 ≤ m && m ≤ 0x43 then fpShort (ftypeOf m) (fn / 8) (fn % 8) d a b
  else if 0x80 ≤ m && m ≤ 0x87 then some (.ld ⟨itypeOf (m - 0x80), reg d, reg a, imm⟩)
  else if 0x88 ≤ m && m ≤ 0x8B then some (.st ⟨BitVec.ofNat 2 (m - 0x88), reg a, reg b, off⟩)
  else match m with
  | 0x01 => given (a == 0) (.li (reg d) imm)
  | 0x02 => given (a == 0) (.la (reg d) imm)
  | 0x03 => some (.addi ⟨reg d, reg a, imm⟩)
  | 0x04 => some (.andi ⟨reg d, reg a, imm⟩)
  | 0x05 => some (.ori ⟨reg d, reg a, imm⟩)
  | 0x06 => some (.xori ⟨reg d, reg a, imm⟩)
  | 0x10 => given (fImm w < 64) (.shlImm ⟨reg d, reg a, BitVec.ofNat 6 (fImm w)⟩)
  | 0x11 => given (fImm w < 64) (.shrImm ⟨reg d, reg a, BitVec.ofNat 6 (fImm w)⟩)
  | 0x12 => given (fImm w < 64) (.sraImm ⟨reg d, reg a, BitVec.ofNat 6 (fImm w)⟩)
  | 0x13 => given (fImm w < 64) (.rotlImm ⟨reg d, reg a, BitVec.ofNat 6 (fImm w)⟩)
  | 0x14 => given (fImm w < 64) (.rotrImm ⟨reg d, reg a, BitVec.ofNat 6 (fImm w)⟩)
  | 0x15 => checked (.ext ⟨reg d, reg a, BitVec.ofNat 6 (fImm w % 64), BitVec.ofNat 6 (fImm w / 64)⟩)
  | 0x16 => checked (.extn ⟨reg d, reg a, BitVec.ofNat 6 (fImm w % 64), BitVec.ofNat 6 (fImm w / 64)⟩)
  | 0x17 => checked (.ins ⟨reg d, reg a, BitVec.ofNat 6 (fImm w % 64), BitVec.ofNat 6 (fImm w / 64)⟩)
  | 0x18 =>
    if fn < 64 then some (.fshl ⟨reg d, reg a, reg b, BitVec.ofNat 6 fn⟩)
    else some (.fshr ⟨reg d, reg a, reg b, BitVec.ofNat 6 (fn - 64)⟩)
  | 0x20 => some (.beq ⟨reg a, reg b, off⟩)
  | 0x21 => some (.bne ⟨reg a, reg b, off⟩)
  | 0x22 => some (.blt ⟨reg a, reg b, off⟩)
  | 0x23 => some (.bge ⟨reg a, reg b, off⟩)
  | 0x24 => some (.bltn ⟨reg a, reg b, off⟩)
  | 0x25 => some (.bgen ⟨reg a, reg b, off⟩)
  | 0x26 => given (b == 0) (.bz ⟨reg a, off⟩)
  | 0x27 => given (b == 0) (.bnz ⟨reg a, off⟩)
  | 0x28 => some (.j (BitVec.ofNat 22 (fOffJ w)))
  | 0x29 => some (.jal (BitVec.ofNat 22 (fOffJ w)))
  | 0x2A => some (.jr ⟨reg d, reg a, imm⟩)
  | 0x2B => checked (.loop (reg d) (reg a) imm)
  | 0x3F => given (d == 0 && a == 0 && b == 0 && fn == 0) .nop
  | 0x70 =>
    if 8 ≤ d || 8 ≤ a || 8 ≤ b then none
    else match fn with
    | 0 => some (.kand (kreg d) (kreg a) (kreg b))
    | 1 => some (.kor (kreg d) (kreg a) (kreg b))
    | 2 => some (.kxor (kreg d) (kreg a) (kreg b))
    | 3 => given (b == 0) (.knot (kreg d) (kreg a))
    | 4 => given (b == 0) (.kmov (kreg d) (kreg a))
    | _ => none
  | 0x71 => given (fn == 0 && b == 0 && a < 8) (.kpop (reg d) (kreg a))
  | 0x72 => given (fn == 0 && a < 8) (.kfind (reg d) (kreg a) (reg b))
  | 0xA0 => given (fn == 0 && b == 0) (.phase (reg d) (reg a))
  | 0xA1 => given (fn == 0 && b == 0) (.tick (reg d) (reg a))
  | 0xA2 => given (fn == 0) (.waitlb (reg d) (reg a) (reg b))
  | 0xA3 => given (fn == 0 && d == 0 && b == 0) (.fence (reg a))
  | 0xB1 => given (fn == 0 && d == 0 && a == 0 && b == 0) .quit
  | 0xB2 => given (fn == 0 && d == 0 && a == 0 && b == 0) .park
  | 0xB3 => given (fn == 0 && b == 0) (.wake (reg d) (reg a))
  | 0xB4 => given (fn == 0 && d == 0 && a == 0 && b == 0) .yield
  | 0xB5 => given (fn == 0) (.ctl (reg d) (reg a) (reg b))
  | 0xB6 => given (a == 0 && b == 0) (.self (reg d) (BitVec.ofNat 7 fn))
  | 0xB8 => given (fn == 0) (.arm (reg d) (reg a) (reg b))
  | 0xB9 => given (fn == 0 && b == 0) (.disarm (reg d) (reg a))
  | 0xBB => given (fn == 0 && b == 0) (.slotw (reg d) (reg a))
  | 0xBC => given (b == 0) (.slotr (reg d) (reg a) (BitVec.ofNat 7 fn))
  | 0xBD => given (fn == 0 && b == 0) (.budget (reg d) (reg a))
  | 0xBE =>
    match fn with
    | 0 => given (b == 0) (.prio (reg d) (reg a))
    | 1 => given (b == 0 && a == 0) (.prioRead (reg d))
    | _ => none
  | 0xBF =>
    match fn with
    | 0 => given (d == 0 && b == 0) (.trap (reg a))
    | 1 => given (d == 0 && a == 0 && b == 0) .beat
    | 2 => given (a == 0 && b == 0) (.gtime (reg d))
    | 3 => some (.switch (reg d) (reg a) (reg b))
    | _ => none
  | 0xC1 => given (fn == 0 && a == 0 && b == 0) (.recv (reg d))
  | 0xC2 => given (fn == 0 && a == 0 && b == 0) (.recvq (reg d))
  | 0xC4 => given (fn == 0 && b == 0) (.take (reg d) (reg a))
  | 0xC5 => given (fn == 0) (.jdec (reg d) (reg a) (reg b))
  | 0xC6 => given (fn == 0 && a == 0 && b == 0) (.done (reg d))
  | 0xC7 => given (fn == 0 && b == 0) (.balset (reg d) (reg a))
  | 0xD1 => given (fn == 0 && b == 0) (.cpyw (reg d) (reg a))
  | 0xD2 => given (fn == 0 && b == 0) (.cpyq (reg d) (reg a))
  | 0xD4 => given (fn == 0 && b < 16) (.potput (reg d) (reg a) (vreg b))
  | 0xD5 => given (fn == 0 && b == 0) (.potget (reg d) (reg a))
  | 0xD6 => given (fn == 0 && b == 0) (.potrel (reg d) (reg a))
  | 0xD8 => given (fn == 0 && b == 0) (.mown (reg d) (reg a))
  | 0xD9 => given (fn == 0 && d == 0 && a == 0 && b == 0) .mrel
  | 0xDB => given (fn == 0 && d == 0 && b == 0) (.mzero (reg a))
  | _ => none

/-! ### The literal form of the short formats -/

/-- The majors of the SL form (R57, R58). -/
noncomputable def decodeSL (w lit : Nat) : Option Instr :=
  let m := fMajor w
  let d := fD w
  let a := fA w
  let l : Word := BitVec.ofNat 64 lit
  if 0x08 ≤ m && m ≤ 0x0F then
    (if fB w == 0 then aluLit ⟨itypeOf (m - 8), reg d, reg a, l⟩ (fFn w) else none)
  else match m with
  | 0x01 => given (fImm w == 0 && a == 0) (.liSl (reg d) l)
  | 0x02 => given (fImm w == 0 && a == 0) (.laSl (reg d) l)
  | 0x03 => given (fImm w == 0) (.addiSl ⟨reg d, reg a, l⟩)
  | 0x04 => given (fImm w == 0) (.andiSl ⟨reg d, reg a, l⟩)
  | 0x05 => given (fImm w == 0) (.oriSl ⟨reg d, reg a, l⟩)
  | 0x06 => given (fImm w == 0) (.xoriSl ⟨reg d, reg a, l⟩)
  | 0x28 => given (fOffJ w == 0) (.jSl l)
  | 0x29 => given (fOffJ w == 0) (.jalSl l)
  | _ => none

/-! ### The extended forms -/

/-- Major 0x60, X form (R62, R160). -/
noncomputable def vbinX (o : VBin) (fn : Nat) : Option Instr :=
  match fn with
  | 0 => checked (.vadd o)
  | 1 => checked (.vsub o)
  | 2 => checked (.vmul o)
  | 3 => checked (.vmulh o)
  | 4 => checked (.vmin o)
  | 5 => checked (.vmax o)
  | 6 => checked (.vand o)
  | 7 => checked (.vor o)
  | 8 => checked (.vxor o)
  | 9 => checked (.vshl o)
  | 10 => checked (.vshr o)
  | 11 => checked (.vsra o)
  | _ => none

/-- Major 0x60, XL form: sub is 2 (R57, R160). -/
noncomputable def vbinXL (o : VBinL) (fn : Nat) : Option Instr :=
  match fn with
  | 0 => checked (.vaddXl o)
  | 1 => checked (.vsubXl o)
  | 2 => checked (.vmulXl o)
  | 3 => checked (.vmulhXl o)
  | 4 => checked (.vminXl o)
  | 5 => checked (.vmaxXl o)
  | 6 => checked (.vandXl o)
  | 7 => checked (.vorXl o)
  | 8 => checked (.vxorXl o)
  | 9 => checked (.vshlXl o)
  | 10 => checked (.vshrXl o)
  | 11 => checked (.vsraXl o)
  | _ => none

/-- Major 0xA8, X form (R62, R231). -/
noncomputable def atomX (o : AtomX) (fn : Nat) : Option Instr :=
  match fn with
  | 0 => checked (.aadd o)
  | 1 => checked (.amin o)
  | 2 => checked (.amax o)
  | 3 => checked (.aand o)
  | 4 => checked (.aor o)
  | 5 => checked (.axor o)
  | 6 => checked (.axchg o)
  | _ => none

/-- Major 0xA8, XL form. -/
noncomputable def atomXL (o : AtomL) (fn : Nat) : Option Instr :=
  match fn with
  | 0 => checked (.aaddXl o)
  | 1 => checked (.aminXl o)
  | 2 => checked (.amaxXl o)
  | 3 => checked (.aandXl o)
  | 4 => checked (.aorXl o)
  | 5 => checked (.axorXl o)
  | 6 => checked (.axchgXl o)
  | _ => none

/-- The majors of the X form (R58). -/
noncomputable def decodeX (w w1 w2 : Nat) : Option Instr :=
  let d := fD w
  let a := fA w
  let b := fB w
  let fn := fFn w
  let et := code5 (gEt w1)
  let rm := code3 (gRm w1)
  let k := code3 (gK w1)
  let z := gZ w1 == 1
  let sat := gSat w1 == 1
  let sub := code3 (gSub w1)
  let i32 : BitVec 32 := BitVec.ofNat 32 w2
  let mem := xmem w1 a w2
  match fMajor w with
  | 0x18 =>
    if only1 { c := true } w1 && w2 == 0 then
      (match fn with
       | 0 => some (.fshlReg ⟨reg d, reg a, reg b, reg (gC w1)⟩)
       | 64 => some (.fshrReg ⟨reg d, reg a, reg b, reg (gC w1)⟩)
       | _ => none)
    else none
  | 0x19 => given (fn == 0 && only1 { c := true } w1 && w2 < 256)
      (.lut3 ⟨reg d, reg a, reg b, reg (gC w1), BitVec.ofNat 8 w2⟩)
  | 0x1A => given (fn == 0 && only1 { c := true } w1 && w2 == 0) (.sel ⟨reg d, reg a, reg b, reg (gC w1)⟩)
  | 0x2C => given (fn == 0 && b == 0 && only1 { sub := true } w1 && gSub w1 < 2)
      (.loopx ⟨reg d, reg a, gSub w1 == 1, BitVec.ofNat 16 (w2 / 65536), BitVec.ofNat 16 (w2 % 65536)⟩)
  | 0x44 => given (fn == 0 && only1 { c := true, et := true, rm := true } w1 && w2 == 0)
      (.fma ⟨reg d, reg a, reg b, reg (gC w1), et, rm⟩)
  | 0x45 => given (fn == 0 && only1 { c := true, et := true, rm := true } w1 && w2 == 0)
      (.fms ⟨reg d, reg a, reg b, reg (gC w1), et, rm⟩)
  | 0x46 => given (fn < 32 && b == 0 && only1 { et := true, rm := true } w1 && w2 == 0)
      (.fcvt ⟨reg d, reg a, code5 fn, et, rm⟩)
  | 0x60 =>
    if d < 16 && a < 16 && only1 { k := true, z := true, et := true, rm := true, sat := true, sub := true } w1 then
      vbinX ⟨vreg d, vreg a, reg b, k, z, et, rm, sat, sub, i32⟩ fn
    else none
  | 0x61 => given (fn == 0 && d < 16 && a < 16 && b < 16 && gC w1 < 16 && w2 == 0 &&
        only1 { c := true, k := true, z := true, et := true, rm := true, sub := true } w1)
      (.vfma ⟨vreg d, vreg a, vreg b, vreg (gC w1), k, z, et, rm, sub⟩)
  | 0x62 => given (fn == 0 && d < 16 && a < 16 && b < 16 && gC w1 < 16 && w2 < 256 &&
        only1 { c := true, k := true, z := true } w1)
      (.vlut3 ⟨vreg d, vreg a, vreg b, vreg (gC w1), k, z, BitVec.ofNat 8 w2⟩)
  | 0x63 => given (fn == 0 && d < 8 && a < 16 && b < 16 && w2 == 0 &&
        only1 { k := true, z := true, et := true, sub := true } w1)
      (.vcmp ⟨kreg d, vreg a, vreg b, k, z, et, sub⟩)
  | 0x64 => given (fn == 0 && d < 16 && a < 16 && b < 16 && w2 == 0 && only1 { k := true, et := true } w1)
      (.vsel ⟨vreg d, vreg a, vreg b, k, et⟩)
  | 0x65 => given (fn == 0 && d < 16 && b == 0 && only1 { k := true, z := true, et := true, sub := true } w1)
      (.vbc ⟨vreg d, reg a, k, z, et, sub, i32⟩)
  | 0x66 => given (fn == 0 && a < 16 && w2 == 0 && only1 { et := true } w1) (.vxt ⟨reg d, vreg a, reg b, et⟩)
  | 0x67 => given (fn == 0 && d < 16 && w2 == 0 && only1 { et := true } w1) (.vin ⟨vreg d, reg a, reg b, et⟩)
  | 0x68 => given (fn == 0 && d < 16 && a < 16 && b < 16 && gC w1 < 16 && w2 == 0 &&
        only1 { c := true, k := true, z := true, et := true } w1)
      (.vperm ⟨vreg d, vreg a, vreg b, vreg (gC w1), k, z, et⟩)
  | 0x69 => given (fn == 0 && a < 16 && b == 0 && w2 == 0 &&
        only1 { k := true, et := true, rm := true, sub := true } w1)
      (.vred ⟨reg d, vreg a, k, et, rm, sub⟩)
  | 0x6A => given (fn == 0 && d < 16 && a < 16 && b == 0 && w2 == 0 &&
        only1 { k := true, z := true, et := true, rm := true, sub := true } w1)
      (.vscan ⟨vreg d, vreg a, k, z, et, rm, sub⟩)
  | 0x6B => given (fn < 32 && d < 16 && a < 16 && b == 0 && w2 == 0 &&
        only1 { k := true, z := true, et := true, rm := true, sat := true, sub := true } w1)
      (.vcvt ⟨vreg d, vreg a, code5 fn, k, z, et, rm, sat, sub⟩)
  | 0x6C => given (fn < 32 && d < 16 && a < 16 && b < 16 && w2 == 0 &&
        only1 { k := true, z := true, et := true, rm := true, sat := true } w1)
      (.vdot ⟨vreg d, vreg a, vreg b, code5 fn, k, z, et, rm, sat⟩)
  | 0x8C => given (fn < 8 && b == 0 && only1 { mem := true } w1) (.ldX ⟨itypeOf fn, reg d, mem⟩)
  | 0x8D => given (fn < 4 && d == 0 && only1 { mem := true } w1) (.stX ⟨BitVec.ofNat 2 fn, reg b, mem⟩)
  | 0x90 => given (fn == 0 && d < 16 && b == 0 && gSub w1 < 2 &&
        only1 { k := true, z := true, et := true, mem := true, sub := true } w1)
      (.vld ⟨vreg d, k, z, et, gSub w1 == 1, mem⟩)
  | 0x91 => given (fn == 0 && d == 0 && b < 16 && only1 { k := true, et := true, mem := true } w1)
      (.vst ⟨vreg b, k, et, mem⟩)
  | 0x92 => given (fn == 0 && d < 16 && gSub w1 < 2 &&
        only1 { k := true, z := true, et := true, mem := true, sub := true } w1)
      (.vlds ⟨vreg d, reg b, k, z, et, gSub w1 == 1, mem⟩)
  | 0x93 => given (fn == 0 && d == 0 && gC w1 < 16 && only1 { c := true, k := true, et := true, mem := true } w1)
      (.vsts ⟨reg b, vreg (gC w1), k, et, mem⟩)
  | 0x94 => given (fn == 0 && d < 16 && b < 16 &&
        only1 { k := true, z := true, et := true, mem := true, sub := true } w1)
      (.vgat ⟨vreg d, vreg b, sub, k, z, et, mem⟩)
  | 0x95 => given (fn == 0 && d == 0 && b < 16 && gC w1 < 16 &&
        only1 { c := true, k := true, et := true, mem := true, sub := true } w1)
      (.vsct ⟨vreg b, vreg (gC w1), sub, k, et, mem⟩)
  | 0x96 => given (fn == 0 && d == 0 && b == 0 && only1 { mem := true } w1) (.pref mem)
  | 0x97 => given (fn == 0 && b == 0 && only1 { mem := true } w1) (.fmtq (reg d) mem)
  | 0x98 => given (fn == 0 && d == 0 && w2 == 0 && only1 { sub := true } w1) (.tlbinv (reg a) (reg b) sub)
  | 0x99 =>
    if fn == 0 && gSub w1 == 0 && only1 { mem := true } w1 then checked (.migrate (reg d) (reg b) mem)
    else given (fn == 0 && gSub w1 == 1 && a == 0 && w2 == 0 && only1 { sub := true } w1)
      (.migrateRelease (reg d) (reg b))
  | 0xA4 => given (fn == 0 && d == 0 && b == 0 && w1 == 0) (.fencex (reg a) i32)
  | 0xA5 => given (fn < 4 && d == 0 && only1 { c := true, mem := true } w1)
      (.stDry ⟨BitVec.ofNat 2 fn, reg b, reg (gC w1), mem⟩)
  | 0xA6 => given (fn == 0 && only1 { et := true, mem := true } w1) (.watch ⟨reg d, reg b, et, mem⟩)
  | 0xA8 =>
    if only1 { et := true, rm := true, mem := true } w1 then atomX ⟨reg d, reg b, et, rm, mem⟩ fn else none
  | 0xA9 => given (fn == 0 && only1 { c := true, et := true, mem := true } w1)
      (.acas ⟨reg d, reg b, reg (gC w1), et, mem⟩)
  | 0xB0 => given (fn == 0 && w2 == 0 && only1 { c := true, sub := true } w1)
      (.spawn (reg d) (reg a) (reg b) (reg (gC w1)) sub)
  | 0xB7 => given (fn == 0 && w1 == 0) (.peek (reg d) (reg a) (reg b) i32)
  | 0xBA => given (fn == 0 && d < 16 && gC w1 < 16 && gRowm w1 == 0 &&
        only1 { c := true, k := true, z := true, et := true, rm := true, mem := true, sub := true } w1)
      (.sweep ⟨vreg d, reg a, reg b, vreg (gC w1), k, z, et, rm, code3 (gSg w1), sub, i32⟩)
  | 0xC0 => given (fn == 0 && only1 { sub := true } w1) (.note ⟨reg d, reg a, reg b, sub, i32⟩)
  | 0xC3 => given (fn == 0 && only1 { sub := true } w1) (.kpush ⟨reg d, reg a, reg b, sub, i32⟩)
  | 0xD0 => given (fn == 0 && b == 0 && w2 == 0 && only1 { sub := true } w1) (.cpy (reg d) (reg a) sub)
  | 0xD3 =>
    if fn == 0 && gSub w1 == 0 && only1 {} w1 then checked (.potset (reg d) (reg a) (reg b) i32)
    else given (fn == 0 && gSub w1 == 1 && b == 0 && w2 == 0 && only1 { sub := true } w1) (.potsetClear (reg d) (reg a))
  | 0xDA =>
    if fn == 0 && b == 0 && w2 == 0 && gSub w1 == 0 && only1 {} w1 then some (.mcfg (reg d) (reg a))
    else given (fn == 0 && b == 0 && w2 == 0 && a == 0 && gSub w1 == 1 && only1 { sub := true } w1) (.mcfgRead (reg d))
  | 0xDC => given (d == 0 && fn < 4 && w2 < 65536 && only1 { et := true, sub := true } w1)
      (.mma ⟨reg a, reg b, BitVec.ofNat 2 fn, et, sub, BitVec.ofNat 16 w2⟩)
  | 0xDD => given (fn == 0 && d == 0 && gSub w1 < 2 && only1 { mem := true, sub := true } w1)
      (.mst ⟨reg b, gSub w1 == 1, mem⟩)
  | 0xDE => given (fn == 0 && d == 0 && only1 { et := true, mem := true } w1) (.mld ⟨reg b, et, mem⟩)
  | 0xDF =>
    (match fn with
     | 0 =>
       if gSub w1 == 0 then given (w2 == 0 && only1 { c := true } w1) (.bsum (reg d) (reg a) (reg b) (reg (gC w1)))
       else given (w2 == 0 && gSub w1 == 1 && b == 0 && only1 { c := true, sub := true } w1)
         (.bsumAcc (reg d) (reg a) (reg (gC w1)))
     | 1 =>
       if b == 0 && w2 == 0 && only1 { sub := true } w1 then
         (match gSub w1 with
          | 0 => checked (.bredRead (reg d) (reg a))
          | 1 => checked (.bredClear (reg d) (reg a))
          | 2 => checked (.bredClaim (reg d) (reg a))
          | 3 => checked (.bredRelease (reg d) (reg a))
          | _ => none)
       else none
     | _ => none)
  | 0xE0 => given (fn == 0 && only1 { mem := true } w1) (.gtbl (reg d) (reg a) (xmem w1 b w2))
  | 0xE1 => given (fn == 0 && only1 { sub := true } w1) (.gen (reg d) (reg a) (reg b) sub i32)
  | 0xE2 => given (fn == 0 && b == 0 && w1 == 0 && w2 == 0) (.ghalo (reg d) (reg a))
  | 0xE4 => given (only1 { c := true, e := true, sub := true } w1)
      (.jopen ⟨BitVec.ofNat 7 fn, reg d, reg a, reg b, reg (gC w1), reg (gE w1), sub, i32⟩)
  | 0xE5 => given (only1 { c := true, e := true, sub := true } w1)
      (.jrwd ⟨BitVec.ofNat 7 fn, reg d, reg a, reg b, reg (gC w1), reg (gE w1), sub, i32⟩)
  | 0xE6 => given (only1 { sub := true } w1) (.jclose ⟨BitVec.ofNat 7 fn, reg d, reg a, reg b, sub, i32⟩)
  | 0xE7 =>
    (match fn with
     | 0 =>
       if w2 == 0 && only1 { sub := true } w1 then
         (match gSub w1 with
          | 0 => some (.jcfgSet (reg d) (reg a) (reg b))
          | 1 => some (.jcfgClear (reg d) (reg a) (reg b))
          | 2 => some (.jcfgPurge (reg d) (reg a) (reg b))
          | _ => none)
       else none
     | 1 => given (w1 == 0 && w2 == 0) (.jver (reg d) (reg a) (reg b))
     | 2 => given (w1 == 0 && b == 0) (.jstat (reg d) (reg a) i32)
     | _ => none)
  | _ => none

/-- The majors of the XL form (R57, R58). -/
noncomputable def decodeXL (w w1 w2 lit : Nat) : Option Instr :=
  let d := fD w
  let a := fA w
  let b := fB w
  let fn := fFn w
  let et := code5 (gEt w1)
  let rm := code3 (gRm w1)
  let l : Word := BitVec.ofNat 64 lit
  if w2 != 0 then none else
  match fMajor w with
  | 0x60 =>
    if d < 16 && a < 16 && b == 0 && gSub w1 == 2 &&
        only1 { k := true, z := true, et := true, rm := true, sat := true, sub := true } w1 then
      vbinXL ⟨vreg d, vreg a, code3 (gK w1), gZ w1 == 1, et, rm, gSat w1 == 1, l⟩ fn
    else none
  | 0xA8 =>
    if only1 { et := true, rm := true, mem := true } w1 then
      atomXL ⟨reg d, reg b, et, rm, lmem w1 a lit⟩ fn
    else none
  | 0xA9 => given (fn == 0 && only1 { c := true, et := true, mem := true } w1)
      (.acasXl ⟨reg d, reg b, reg (gC w1), et, lmem w1 a lit⟩)
  | 0xC0 => given (fn == 0 && only1 { sub := true } w1) (.noteXl ⟨reg d, reg a, reg b, code3 (gSub w1), l⟩)
  | 0xC3 => given (fn == 0 && only1 { sub := true } w1) (.kpushXl ⟨reg d, reg a, reg b, code3 (gSub w1), l⟩)
  | 0xE4 => given (a == 0 && gSub w1 == 1 && only1 { c := true, e := true, sub := true } w1)
      (.jopenXl ⟨BitVec.ofNat 7 fn, reg d, reg b, reg (gC w1), reg (gE w1), l⟩)
  | 0xE5 => given (a == 0 && gSub w1 == 1 && only1 { c := true, e := true, sub := true } w1)
      (.jrwdXl ⟨BitVec.ofNat 7 fn, reg d, reg b, reg (gC w1), reg (gE w1), l⟩)
  | 0xE6 => given (a == 0 && (gSub w1 == 1 || gSub w1 == 3) && only1 { sub := true } w1)
      (.jcloseXl ⟨BitVec.ofNat 7 fn, reg d, reg b, gSub w1 == 3, l⟩)
  | _ => none

/-! ### Whole instructions -/

/-- Length in words of an instruction by its first word (R49). -/
def lengthWords (w : Nat) : Nat :=
  match fLen w with
  | 0 => 1 | 1 => 3 | 2 => 3 | _ => 5

/-- Length in bytes (R49). -/
def lengthBytes (w : Nat) : Nat := 4 * lengthWords w

/-- Decode the words of one instruction; none is ILLOP (R63). -/
noncomputable def decodeWords (ws : List Nat) : Option Instr :=
  match ws with
  | [w] => if fLen w = 0 then decodeS w else none
  | [w, x, y] =>
    if fLen w = 1 then decodeX w x y
    else if fLen w = 2 then decodeSL w (literal x y)
    else none
  | [w, x, y, lo, hi] => if fLen w = 3 then decodeXL w x y (literal lo hi) else none
  | _ => none

/-- The number that four little-endian bytes hold (R3, R48). -/
def wordOfBytes (a b c d : Byte) : Nat := a.toNat + 256 * b.toNat + 65536 * c.toNat + 16777216 * d.toNat

/-- The words that a string of bytes holds. -/
def wordsOfBytes : List Byte → List Nat
  | a :: b :: c :: d :: r => wordOfBytes a b c d :: wordsOfBytes r
  | _ => []

/-- Decode the instruction that begins a string of bytes: the instruction and its length in bytes, or none (R48 to R63). -/
noncomputable def decodeBytes (bs : List Byte) : Option (Instr × Nat) :=
  match wordsOfBytes bs with
  | [] => none
  | w :: r =>
    match decodeWords ((w :: r).take (lengthWords w)) with
    | some i => some (i, lengthBytes w)
    | none => none

/-- `n` words of the number `w`, first word lowest. -/
def wordsOfNat : Nat → Nat → List Nat
  | 0, _ => []
  | n + 1, w => w % 4294967296 :: wordsOfNat n (w / 4294967296)

/-- The instruction the decoder reads from an instruction whose bits are `w`, numbered as the opcode table numbers them; the
bits above the given ones are zero. -/
noncomputable def decodeTableWord (nbits w : Nat) : Option Instr :=
  decodeWords (wordsOfNat (lengthWords (w % 2 ^ nbits % 4294967296)) (w % 2 ^ nbits))

/-! ### The encoder -/

/-- Word 0 of the R layout (R52). -/
def wordR (len major d a b fn : Nat) : Nat :=
  len + 4 * major + 1024 * d + 32768 * a + 1048576 * b + 33554432 * fn
/-- Word 0 of the I layout. -/
def wordI (len major d a imm : Nat) : Nat := len + 4 * major + 1024 * d + 32768 * a + 1048576 * imm
/-- Word 0 of the B layout. -/
def wordB (major a b off : Nat) : Nat :=
  4 * major + 1024 * (off % 32) + 32768 * a + 1048576 * b + 33554432 * (off / 32)
/-- Word 0 of the J layout. -/
def wordJ (len major off : Nat) : Nat := len + 4 * major + 1024 * off
/-- Word 1 (R54). -/
def word1 (c k z et rm sat sg rowm e sub : Nat) : Nat :=
  c + 32 * k + 256 * z + 512 * et + 16384 * rm + 131072 * sat + 262144 * sg + 2097152 * rowm + 16777216 * e +
  536870912 * sub

/-- A bit. -/
def bit (b : Bool) : Nat := if b then 1 else 0
/-- Low word of a literal. -/
def litLo (l : Word) : Nat := l.toNat % 4294967296
/-- High word of a literal. -/
def litHi (l : Word) : Nat := l.toNat / 4294967296

/-- The number of a type code (R59). -/
def itypeNum (t : IType) : Nat :=
  match t with
  | .i8 => 0 | .i16 => 1 | .i32 => 2 | .i64 => 3 | .n8 => 4 | .n16 => 5 | .n32 => 6 | .n64 => 7
/-- The major of an FP type (R61). -/
def ftypeMajor (t : FType) : Nat :=
  match t with
  | .f64 => 0x40 | .f32 => 0x41 | .f16 => 0x42 | .bf16 => 0x43

/-- ALU words. -/
def encAlu (o : AluR) (fn : Nat) : List Nat := [wordR 0 (8 + itypeNum o.t) o.d.toNat o.a.toNat o.b.toNat fn]
/-- ALU words with a literal. -/
def encAluL (o : AluL) (fn : Nat) : List Nat :=
  [wordR 2 (8 + itypeNum o.t) o.d.toNat o.a.toNat 0 fn, litLo o.lit, litHi o.lit]
/-- One-source ALU words. -/
def encAlu1 (o : AluU) (fn : Nat) : List Nat := [wordR 0 (8 + itypeNum o.t) o.d.toNat o.a.toNat 0 fn]
/-- I-format words. -/
def encI (m : Nat) (o : ImmI) : List Nat := [wordI 0 m o.d.toNat o.a.toNat o.imm.toNat]
/-- I-format words with a literal. -/
def encIL (m : Nat) (o : ImmL) : List Nat := [wordI 2 m o.d.toNat o.a.toNat 0, litLo o.lit, litHi o.lit]
/-- Shift-by-immediate words. -/
def encShift (m : Nat) (o : ShiftI) : List Nat := [wordI 0 m o.d.toNat o.a.toNat o.n.toNat]
/-- Bit-field words. -/
def encField (m : Nat) (o : FieldI) : List Nat := [wordI 0 m o.d.toNat o.a.toNat (o.pos.toNat + 64 * o.len1.toNat)]
/-- Branch words. -/
def encBranch (m : Nat) (o : Branch) : List Nat := [wordB m o.a.toNat o.b.toNat o.off.toNat]
/-- Scalar FP words. -/
def encFp (t : FType) (op m d a b : Nat) : List Nat := [wordR 0 (ftypeMajor t) d a b (8 * op + m)]
/-- Major 0x60 words. -/
def encV (o : VBin) (fn : Nat) : List Nat :=
  [wordR 1 0x60 o.d.toNat o.a.toNat o.b.toNat fn,
   word1 0 o.k.toNat (bit o.z) o.et.toNat o.rm.toNat (bit o.sat) 0 0 0 o.sub.toNat, o.imm.toNat]
/-- Major 0x60 words with a literal. -/
def encVL (o : VBinL) (fn : Nat) : List Nat :=
  [wordR 3 0x60 o.d.toNat o.a.toNat 0 fn,
   word1 0 o.k.toNat (bit o.z) o.et.toNat o.rm.toNat (bit o.sat) 0 0 0 2, 0, litLo o.lit, litHi o.lit]
/-- Atomic words. -/
def encAtom (o : AtomX) (fn : Nat) : List Nat :=
  [wordR 1 0xA8 o.d.toNat o.mem.a.toNat o.b.toNat fn,
   word1 0 0 0 o.et.toNat o.rm.toNat 0 o.mem.sg.toNat (bit o.mem.rowm) 0 0, o.mem.disp.toNat]
/-- Atomic words with a literal. -/
def encAtomL (o : AtomL) (fn : Nat) : List Nat :=
  [wordR 3 0xA8 o.d.toNat o.mem.a.toNat o.b.toNat fn,
   word1 0 0 0 o.et.toNat o.rm.toNat 0 o.mem.sg.toNat (bit o.mem.rowm) 0 0, 0, litLo o.mem.lit, litHi o.mem.lit]
/-- Word 1 of a memory operand with other fields. -/
def memWord1 (m : XMem) (c k z et sub : Nat) : Nat := word1 c k z et 0 0 m.sg.toNat (bit m.rowm) 0 sub
/-- R-format word alone. -/
def encR (m d a b fn : Nat) : List Nat := [wordR 0 m d a b fn]

/-- The words of a well-formed instruction (R52 to R62); an event has none. -/
def encodeWords (i : Instr) : List Nat :=
  match i with
  | .add o => encAlu o 0x0
  | .addSl o => encAluL o 0x0
  | .sub o => encAlu o 0x1
  | .subSl o => encAluL o 0x1
  | .mul o => encAlu o 0x2
  | .mulSl o => encAluL o 0x2
  | .mulh o => encAlu o 0x3
  | .mulhSl o => encAluL o 0x3
  | .mulhn o => encAlu o 0x4
  | .mulhnSl o => encAluL o 0x4
  | .div o => encAlu o 0x5
  | .divSl o => encAluL o 0x5
  | .divn o => encAlu o 0x6
  | .divnSl o => encAluL o 0x6
  | .rem o => encAlu o 0x7
  | .remSl o => encAluL o 0x7
  | .remn o => encAlu o 0x8
  | .remnSl o => encAluL o 0x8
  | .and o => encAlu o 0x9
  | .andSl o => encAluL o 0x9
  | .andn o => encAlu o 0xa
  | .andnSl o => encAluL o 0xa
  | .or o => encAlu o 0xb
  | .orSl o => encAluL o 0xb
  | .xor o => encAlu o 0xc
  | .xorSl o => encAluL o 0xc
  | .shl o => encAlu o 0xd
  | .shlSl o => encAluL o 0xd
  | .shr o => encAlu o 0xe
  | .shrSl o => encAluL o 0xe
  | .sra o => encAlu o 0xf
  | .sraSl o => encAluL o 0xf
  | .rotl o => encAlu o 0x10
  | .rotlSl o => encAluL o 0x10
  | .rotr o => encAlu o 0x11
  | .rotrSl o => encAluL o 0x11
  | .min o => encAlu o 0x12
  | .minSl o => encAluL o 0x12
  | .max o => encAlu o 0x13
  | .maxSl o => encAluL o 0x13
  | .minn o => encAlu o 0x14
  | .minnSl o => encAluL o 0x14
  | .maxn o => encAlu o 0x15
  | .maxnSl o => encAluL o 0x15
  | .ceq o => encAlu o 0x16
  | .ceqSl o => encAluL o 0x16
  | .cne o => encAlu o 0x17
  | .cneSl o => encAluL o 0x17
  | .clt o => encAlu o 0x18
  | .cltSl o => encAluL o 0x18
  | .cle o => encAlu o 0x19
  | .cleSl o => encAluL o 0x19
  | .cltn o => encAlu o 0x1a
  | .cltnSl o => encAluL o 0x1a
  | .clen o => encAlu o 0x1b
  | .clenSl o => encAluL o 0x1b
  | .addSat o => encAlu o 0x40
  | .addSatSl o => encAluL o 0x40
  | .subSat o => encAlu o 0x41
  | .subSatSl o => encAluL o 0x41
  | .mulSat o => encAlu o 0x42
  | .mulSatSl o => encAluL o 0x42
  | .clz o => encAlu1 o 0x1c
  | .ctz o => encAlu1 o 0x1d
  | .popc o => encAlu1 o 0x1e
  | .brev o => encAlu1 o 0x1f
  | .li d imm => [wordI 0 0x01 d.toNat 0 imm.toNat]
  | .liSl d l => [wordI 2 0x01 d.toNat 0 0, litLo l, litHi l]
  | .la d imm => [wordI 0 0x02 d.toNat 0 imm.toNat]
  | .laSl d l => [wordI 2 0x02 d.toNat 0 0, litLo l, litHi l]
  | .addi o => encI 3 o
  | .addiSl o => encIL 3 o
  | .andi o => encI 4 o
  | .andiSl o => encIL 4 o
  | .ori o => encI 5 o
  | .oriSl o => encIL 5 o
  | .xori o => encI 6 o
  | .xoriSl o => encIL 6 o
  | .shlImm o => encShift 0x10 o
  | .shrImm o => encShift 0x11 o
  | .sraImm o => encShift 0x12 o
  | .rotlImm o => encShift 0x13 o
  | .rotrImm o => encShift 0x14 o
  | .ext o => encField 0x15 o
  | .extn o => encField 0x16 o
  | .ins o => encField 0x17 o
  | .fshl o => [wordR 0 0x18 o.d.toNat o.a.toNat o.b.toNat o.n.toNat]
  | .fshr o => [wordR 0 0x18 o.d.toNat o.a.toNat o.b.toNat (64 + o.n.toNat)]
  | .fshlReg o => [wordR 1 0x18 o.d.toNat o.a.toNat o.b.toNat 0, word1 o.c.toNat 0 0 0 0 0 0 0 0 0, 0]
  | .fshrReg o => [wordR 1 0x18 o.d.toNat o.a.toNat o.b.toNat 64, word1 o.c.toNat 0 0 0 0 0 0 0 0 0, 0]
  | .lut3 o => [wordR 1 0x19 o.d.toNat o.a.toNat o.b.toNat 0, word1 o.c.toNat 0 0 0 0 0 0 0 0 0, o.table.toNat]
  | .sel o => [wordR 1 0x1A o.d.toNat o.a.toNat o.b.toNat 0, word1 o.c.toNat 0 0 0 0 0 0 0 0 0, 0]
  | .beq o => encBranch 0x20 o
  | .bne o => encBranch 0x21 o
  | .blt o => encBranch 0x22 o
  | .bge o => encBranch 0x23 o
  | .bltn o => encBranch 0x24 o
  | .bgen o => encBranch 0x25 o
  | .bz o => [wordB 0x26 o.a.toNat 0 o.off.toNat]
  | .bnz o => [wordB 0x27 o.a.toNat 0 o.off.toNat]
  | .j off => [wordJ 0 0x28 off.toNat]
  | .jSl l => [wordJ 2 0x28 0, litLo l, litHi l]
  | .jal off => [wordJ 0 0x29 off.toNat]
  | .jalSl l => [wordJ 2 0x29 0, litLo l, litHi l]
  | .jr o => encI 0x2A o
  | .loop l a imm => [wordI 0 0x2B l.toNat a.toNat imm.toNat]
  | .loopx o => [wordR 1 0x2C o.l.toNat o.a.toNat 0 0, word1 0 0 0 0 0 0 0 0 0 (bit o.immCount),
      o.dist.toNat + 65536 * o.count.toNat]
  | .nop => [wordR 0 0x3F 0 0 0 0]
  | .illegalInstruction => []
  | .fadd o => encFp o.t 0 o.m.toNat o.d.toNat o.a.toNat o.b.toNat
  | .fsub o => encFp o.t 1 o.m.toNat o.d.toNat o.a.toNat o.b.toNat
  | .fmul o => encFp o.t 2 o.m.toNat o.d.toNat o.a.toNat o.b.toNat
  | .fdiv o => encFp o.t 3 o.m.toNat o.d.toNat o.a.toNat o.b.toNat
  | .fsqrt o => encFp o.t 4 o.m.toNat o.d.toNat o.a.toNat 0
  | .fmin o => encFp o.t 5 0 o.d.toNat o.a.toNat o.b.toNat
  | .fmax o => encFp o.t 6 0 o.d.toNat o.a.toNat o.b.toNat
  | .fsgn o => encFp o.t 7 o.op.toNat o.d.toNat o.a.toNat o.b.toNat
  | .fceq o => encFp o.t 8 0 o.d.toNat o.a.toNat o.b.toNat
  | .fclt o => encFp o.t 9 0 o.d.toNat o.a.toNat o.b.toNat
  | .fcle o => encFp o.t 10 0 o.d.toNat o.a.toNat o.b.toNat
  | .fclass o => encFp o.t 11 0 o.d.toNat o.a.toNat 0
  | .fma o => [wordR 1 0x44 o.d.toNat o.a.toNat o.b.toNat 0, word1 o.c.toNat 0 0 o.et.toNat o.rm.toNat 0 0 0 0 0, 0]
  | .fms o => [wordR 1 0x45 o.d.toNat o.a.toNat o.b.toNat 0, word1 o.c.toNat 0 0 o.et.toNat o.rm.toNat 0 0 0 0 0, 0]
  | .fcvt o => [wordR 1 0x46 o.d.toNat o.a.toNat 0 o.src.toNat, word1 0 0 0 o.et.toNat o.rm.toNat 0 0 0 0 0, 0]
  | .vadd o => encV o 0
  | .vaddXl o => encVL o 0
  | .vsub o => encV o 1
  | .vsubXl o => encVL o 1
  | .vmul o => encV o 2
  | .vmulXl o => encVL o 2
  | .vmulh o => encV o 3
  | .vmulhXl o => encVL o 3
  | .vmin o => encV o 4
  | .vminXl o => encVL o 4
  | .vmax o => encV o 5
  | .vmaxXl o => encVL o 5
  | .vand o => encV o 6
  | .vandXl o => encVL o 6
  | .vor o => encV o 7
  | .vorXl o => encVL o 7
  | .vxor o => encV o 8
  | .vxorXl o => encVL o 8
  | .vshl o => encV o 9
  | .vshlXl o => encVL o 9
  | .vshr o => encV o 10
  | .vshrXl o => encVL o 10
  | .vsra o => encV o 11
  | .vsraXl o => encVL o 11
  | .vfma o => [wordR 1 0x61 o.d.toNat o.a.toNat o.b.toNat 0,
      word1 o.c.toNat o.k.toNat (bit o.z) o.et.toNat o.rm.toNat 0 0 0 0 o.sub.toNat, 0]
  | .vlut3 o => [wordR 1 0x62 o.d.toNat o.a.toNat o.b.toNat 0, word1 o.c.toNat o.k.toNat (bit o.z) 0 0 0 0 0 0 0,
      o.table.toNat]
  | .vcmp o => [wordR 1 0x63 o.d.toNat o.a.toNat o.b.toNat 0,
      word1 0 o.k.toNat (bit o.z) o.et.toNat 0 0 0 0 0 o.sub.toNat, 0]
  | .vsel o => [wordR 1 0x64 o.d.toNat o.a.toNat o.b.toNat 0, word1 0 o.k.toNat 0 o.et.toNat 0 0 0 0 0 0, 0]
  | .vbc o => [wordR 1 0x65 o.d.toNat o.a.toNat 0 0, word1 0 o.k.toNat (bit o.z) o.et.toNat 0 0 0 0 0 o.sub.toNat,
      o.imm.toNat]
  | .vxt o => [wordR 1 0x66 o.d.toNat o.a.toNat o.b.toNat 0, word1 0 0 0 o.et.toNat 0 0 0 0 0 0, 0]
  | .vin o => [wordR 1 0x67 o.d.toNat o.a.toNat o.b.toNat 0, word1 0 0 0 o.et.toNat 0 0 0 0 0 0, 0]
  | .vperm o => [wordR 1 0x68 o.d.toNat o.a.toNat o.b.toNat 0,
      word1 o.c.toNat o.k.toNat (bit o.z) o.et.toNat 0 0 0 0 0 0, 0]
  | .vred o => [wordR 1 0x69 o.d.toNat o.a.toNat 0 0, word1 0 o.k.toNat 0 o.et.toNat o.rm.toNat 0 0 0 0 o.sub.toNat, 0]
  | .vscan o => [wordR 1 0x6A o.d.toNat o.a.toNat 0 0,
      word1 0 o.k.toNat (bit o.z) o.et.toNat o.rm.toNat 0 0 0 0 o.sub.toNat, 0]
  | .vcvt o => [wordR 1 0x6B o.d.toNat o.a.toNat 0 o.src.toNat,
      word1 0 o.k.toNat (bit o.z) o.et.toNat o.rm.toNat (bit o.sat) 0 0 0 o.sub.toNat, 0]
  | .vdot o => [wordR 1 0x6C o.d.toNat o.a.toNat o.b.toNat o.sf.toNat,
      word1 0 o.k.toNat (bit o.z) o.et.toNat o.rm.toNat (bit o.sat) 0 0 0 0, 0]
  | .kand d a b => encR 0x70 d.toNat a.toNat b.toNat 0
  | .kor d a b => encR 0x70 d.toNat a.toNat b.toNat 1
  | .kxor d a b => encR 0x70 d.toNat a.toNat b.toNat 2
  | .knot d a => encR 0x70 d.toNat a.toNat 0 3
  | .kmov d a => encR 0x70 d.toNat a.toNat 0 4
  | .kpop d a => encR 0x71 d.toNat a.toNat 0 0
  | .kfind d a b => encR 0x72 d.toNat a.toNat b.toNat 0
  | .ld o => [wordI 0 (0x80 + itypeNum o.t) o.d.toNat o.a.toNat o.imm.toNat]
  | .ldX o => [wordR 1 0x8C o.d.toNat o.mem.a.toNat 0 (itypeNum o.t), memWord1 o.mem 0 0 0 0 0, o.mem.disp.toNat]
  | .st o => [wordB (0x88 + o.w.toNat) o.a.toNat o.b.toNat o.off.toNat]
  | .stX o => [wordR 1 0x8D 0 o.mem.a.toNat o.b.toNat o.w.toNat, memWord1 o.mem 0 0 0 0 0, o.mem.disp.toNat]
  | .vld o => [wordR 1 0x90 o.d.toNat o.mem.a.toNat 0 0,
      memWord1 o.mem 0 o.k.toNat (bit o.z) o.et.toNat (bit o.dec), o.mem.disp.toNat]
  | .vst o => [wordR 1 0x91 0 o.mem.a.toNat o.b.toNat 0, memWord1 o.mem 0 o.k.toNat 0 o.et.toNat 0, o.mem.disp.toNat]
  | .vlds o => [wordR 1 0x92 o.d.toNat o.mem.a.toNat o.b.toNat 0,
      memWord1 o.mem 0 o.k.toNat (bit o.z) o.et.toNat (bit o.dec), o.mem.disp.toNat]
  | .vsts o => [wordR 1 0x93 0 o.mem.a.toNat o.b.toNat 0, memWord1 o.mem o.c.toNat o.k.toNat 0 o.et.toNat 0,
      o.mem.disp.toNat]
  | .vgat o => [wordR 1 0x94 o.d.toNat o.mem.a.toNat o.b.toNat 0,
      memWord1 o.mem 0 o.k.toNat (bit o.z) o.et.toNat o.sh.toNat, o.mem.disp.toNat]
  | .vsct o => [wordR 1 0x95 0 o.mem.a.toNat o.b.toNat 0,
      memWord1 o.mem o.c.toNat o.k.toNat 0 o.et.toNat o.sh.toNat, o.mem.disp.toNat]
  | .pref m => [wordR 1 0x96 0 m.a.toNat 0 0, memWord1 m 0 0 0 0 0, m.disp.toNat]
  | .fmtq d m => [wordR 1 0x97 d.toNat m.a.toNat 0 0, memWord1 m 0 0 0 0 0, m.disp.toNat]
  | .tlbinv a b sub => [wordR 1 0x98 0 a.toNat b.toNat 0, word1 0 0 0 0 0 0 0 0 0 sub.toNat, 0]
  | .migrate d b m => [wordR 1 0x99 d.toNat m.a.toNat b.toNat 0, memWord1 m 0 0 0 0 0, m.disp.toNat]
  | .migrateRelease d b => [wordR 1 0x99 d.toNat 0 b.toNat 0, word1 0 0 0 0 0 0 0 0 0 1, 0]
  | .phase d a => encR 0xA0 d.toNat a.toNat 0 0
  | .tick d a => encR 0xA1 d.toNat a.toNat 0 0
  | .waitlb d a b => encR 0xA2 d.toNat a.toNat b.toNat 0
  | .fence a => encR 0xA3 0 a.toNat 0 0
  | .fencex a sets => [wordR 1 0xA4 0 a.toNat 0 0, 0, sets.toNat]
  | .stDry o => [wordR 1 0xA5 0 o.mem.a.toNat o.b.toNat o.w.toNat, memWord1 o.mem o.c.toNat 0 0 0 0, o.mem.disp.toNat]
  | .watch o => [wordR 1 0xA6 o.d.toNat o.mem.a.toNat o.b.toNat 0, memWord1 o.mem 0 0 0 o.et.toNat 0, o.mem.disp.toNat]
  | .aadd o => encAtom o 0
  | .aaddXl o => encAtomL o 0
  | .amin o => encAtom o 1
  | .aminXl o => encAtomL o 1
  | .amax o => encAtom o 2
  | .amaxXl o => encAtomL o 2
  | .aand o => encAtom o 3
  | .aandXl o => encAtomL o 3
  | .aor o => encAtom o 4
  | .aorXl o => encAtomL o 4
  | .axor o => encAtom o 5
  | .axorXl o => encAtomL o 5
  | .axchg o => encAtom o 6
  | .axchgXl o => encAtomL o 6
  | .acas o => [wordR 1 0xA9 o.d.toNat o.mem.a.toNat o.b.toNat 0, memWord1 o.mem o.c.toNat 0 0 o.et.toNat 0,
      o.mem.disp.toNat]
  | .acasXl o => [wordR 3 0xA9 o.d.toNat o.mem.a.toNat o.b.toNat 0,
      word1 o.c.toNat 0 0 o.et.toNat 0 0 o.mem.sg.toNat (bit o.mem.rowm) 0 0, 0, litLo o.mem.lit, litHi o.mem.lit]
  | .ctl d a b => encR 0xB5 d.toNat a.toNat b.toNat 0
  | .wake d a => encR 0xB3 d.toNat a.toNat 0 0
  | .arm d a b => encR 0xB8 d.toNat a.toNat b.toNat 0
  | .disarm d a => encR 0xB9 d.toNat a.toNat 0 0
  | .self d sel => encR 0xB6 d.toNat 0 0 sel.toNat
  | .peek d a b off => [wordR 1 0xB7 d.toNat a.toNat b.toNat 0, 0, off.toNat]
  | .spawn d a b c sub => [wordR 1 0xB0 d.toNat a.toNat b.toNat 0, word1 c.toNat 0 0 0 0 0 0 0 0 sub.toNat, 0]
  | .quit => encR 0xB1 0 0 0 0
  | .park => encR 0xB2 0 0 0 0
  | .yield => encR 0xB4 0 0 0 0
  | .sweep o => [wordR 1 0xBA o.d.toNat o.a.toNat o.b.toNat 0,
      word1 o.c.toNat o.k.toNat (bit o.z) o.et.toNat o.rm.toNat 0 o.sg.toNat 0 0 o.sub.toNat, o.disp.toNat]
  | .slotw d a => encR 0xBB d.toNat a.toNat 0 0
  | .slotr d a sel => encR 0xBC d.toNat a.toNat 0 sel.toNat
  | .budget d a => encR 0xBD d.toNat a.toNat 0 0
  | .prio d a => encR 0xBE d.toNat a.toNat 0 0
  | .prioRead d => encR 0xBE d.toNat 0 0 1
  | .trap a => encR 0xBF 0 a.toNat 0 0
  | .beat => encR 0xBF 0 0 0 1
  | .gtime d => encR 0xBF d.toNat 0 0 2
  | .switch d a b => encR 0xBF d.toNat a.toNat b.toNat 3
  | .note o => [wordR 1 0xC0 o.d.toNat o.a.toNat o.b.toNat 0, word1 0 0 0 0 0 0 0 0 0 o.sub.toNat, o.imm.toNat]
  | .noteXl o => [wordR 3 0xC0 o.d.toNat o.a.toNat o.b.toNat 0, word1 0 0 0 0 0 0 0 0 0 o.sub.toNat, 0, litLo o.lit,
      litHi o.lit]
  | .recv d => encR 0xC1 d.toNat 0 0 0
  | .recvq d => encR 0xC2 d.toNat 0 0 0
  | .kpush o => [wordR 1 0xC3 o.d.toNat o.a.toNat o.b.toNat 0, word1 0 0 0 0 0 0 0 0 0 o.sub.toNat, o.imm.toNat]
  | .kpushXl o => [wordR 3 0xC3 o.d.toNat o.a.toNat o.b.toNat 0, word1 0 0 0 0 0 0 0 0 0 o.sub.toNat, 0, litLo o.lit,
      litHi o.lit]
  | .take d a => encR 0xC4 d.toNat a.toNat 0 0
  | .jdec d a b => encR 0xC5 d.toNat a.toNat b.toNat 0
  | .done d => encR 0xC6 d.toNat 0 0 0
  | .balset d a => encR 0xC7 d.toNat a.toNat 0 0
  | .cpy d a sub => [wordR 1 0xD0 d.toNat a.toNat 0 0, word1 0 0 0 0 0 0 0 0 0 sub.toNat, 0]
  | .cpyw d a => encR 0xD1 d.toNat a.toNat 0 0
  | .cpyq d a => encR 0xD2 d.toNat a.toNat 0 0
  | .potset d a b imm => [wordR 1 0xD3 d.toNat a.toNat b.toNat 0, 0, imm.toNat]
  | .potsetClear d a => [wordR 1 0xD3 d.toNat a.toNat 0 0, word1 0 0 0 0 0 0 0 0 0 1, 0]
  | .potput d a b => encR 0xD4 d.toNat a.toNat b.toNat 0
  | .potget d a => encR 0xD5 d.toNat a.toNat 0 0
  | .potrel d a => encR 0xD6 d.toNat a.toNat 0 0
  | .mown d a => encR 0xD8 d.toNat a.toNat 0 0
  | .mrel => encR 0xD9 0 0 0 0
  | .mcfg d a => [wordR 1 0xDA d.toNat a.toNat 0 0, 0, 0]
  | .mcfgRead d => [wordR 1 0xDA d.toNat 0 0 0, word1 0 0 0 0 0 0 0 0 0 1, 0]
  | .mzero a => encR 0xDB 0 a.toNat 0 0
  | .mma o => [wordR 1 0xDC 0 o.a.toNat o.b.toNat o.band.toNat, word1 0 0 0 o.et.toNat 0 0 0 0 0 o.sub.toNat, o.n.toNat]
  | .mst o => [wordR 1 0xDD 0 o.mem.a.toNat o.b.toNat 0, memWord1 o.mem 0 0 0 0 (bit o.clear), o.mem.disp.toNat]
  | .mld o => [wordR 1 0xDE 0 o.mem.a.toNat o.b.toNat 0, memWord1 o.mem 0 0 0 o.et.toNat 0, o.mem.disp.toNat]
  | .bsum d a b c => [wordR 1 0xDF d.toNat a.toNat b.toNat 0, word1 c.toNat 0 0 0 0 0 0 0 0 0, 0]
  | .bsumAcc d a c => [wordR 1 0xDF d.toNat a.toNat 0 0, word1 c.toNat 0 0 0 0 0 0 0 0 1, 0]
  | .bredRead d a => [wordR 1 0xDF d.toNat a.toNat 0 1, 0, 0]
  | .bredClear d a => [wordR 1 0xDF d.toNat a.toNat 0 1, word1 0 0 0 0 0 0 0 0 0 1, 0]
  | .bredClaim d a => [wordR 1 0xDF d.toNat a.toNat 0 1, word1 0 0 0 0 0 0 0 0 0 2, 0]
  | .bredRelease d a => [wordR 1 0xDF d.toNat a.toNat 0 1, word1 0 0 0 0 0 0 0 0 0 3, 0]
  | .gtbl d h m => [wordR 1 0xE0 d.toNat h.toNat m.a.toNat 0, memWord1 m 0 0 0 0 0, m.disp.toNat]
  | .gen d a b sub imm => [wordR 1 0xE1 d.toNat a.toNat b.toNat 0, word1 0 0 0 0 0 0 0 0 0 sub.toNat, imm.toNat]
  | .ghalo d a => [wordR 1 0xE2 d.toNat a.toNat 0 0, 0, 0]
  | .jopen o => [wordR 1 0xE4 o.d.toNat o.a.toNat o.b.toNat o.h.toNat,
      word1 o.c.toNat 0 0 0 0 0 0 0 o.e.toNat o.sub.toNat, o.imm.toNat]
  | .jopenXl o => [wordR 3 0xE4 o.d.toNat 0 o.b.toNat o.h.toNat, word1 o.c.toNat 0 0 0 0 0 0 0 o.e.toNat 1, 0,
      litLo o.lit, litHi o.lit]
  | .jrwd o => [wordR 1 0xE5 o.d.toNat o.a.toNat o.b.toNat o.h.toNat,
      word1 o.c.toNat 0 0 0 0 0 0 0 o.e.toNat o.sub.toNat, o.imm.toNat]
  | .jrwdXl o => [wordR 3 0xE5 o.d.toNat 0 o.b.toNat o.h.toNat, word1 o.c.toNat 0 0 0 0 0 0 0 o.e.toNat 1, 0,
      litLo o.lit, litHi o.lit]
  | .jclose o => [wordR 1 0xE6 o.d.toNat o.a.toNat o.b.toNat o.h.toNat, word1 0 0 0 0 0 0 0 0 0 o.sub.toNat, o.imm.toNat]
  | .jcloseXl o => [wordR 3 0xE6 o.d.toNat 0 o.b.toNat o.h.toNat, word1 0 0 0 0 0 0 0 0 0 (1 + 2 * bit o.terminal), 0,
      litLo o.lit, litHi o.lit]
  | .jcfgSet d a b => [wordR 1 0xE7 d.toNat a.toNat b.toNat 0, 0, 0]
  | .jcfgClear d a b => [wordR 1 0xE7 d.toNat a.toNat b.toNat 0, word1 0 0 0 0 0 0 0 0 0 1, 0]
  | .jcfgPurge d a b => [wordR 1 0xE7 d.toNat a.toNat b.toNat 0, word1 0 0 0 0 0 0 0 0 0 2, 0]
  | .jver d a b => [wordR 1 0xE7 d.toNat a.toNat b.toNat 1, 0, 0]
  | .jstat d a sel => [wordR 1 0xE7 d.toNat a.toNat 0 2, 0, sel.toNat]
  | .sweepStep _ => [] | .slotTableInstall _ => [] | .mmaStep _ => [] | .accumulatorRestore _ => []
  | .bsumArrival _ => [] | .gtblOperation _ => [] | .genStep _ => [] | .haloStrip _ => [] | .jopenMessage _ => []
  | .reward _ => [] | .jcloseMessage _ => [] | .jverMessage _ => [] | .jstatRequest _ => [] | .orphanExpiry _ => []
  | .episodeDeadline _ => [] | .releasePush _ => [] | .releasePushRetry _ => [] | .start _ => [] | .stop _ => []
  | .redirect _ => [] | .resume _ => [] | .kill _ => [] | .step _ => [] | .wakeCommand _ => [] | .priority _ => []
  | .badcode _ _ => [] | .commandLands _ => [] | .directAccess _ _ => [] | .rowOpen _ _ => [] | .holdExpiry _ _ => []
  | .priorityAging _ _ => [] | .governorWindow _ => [] | .memoryReply _ => [] | .longInstructionComplete _ => []
  | .walkComplete _ => [] | .migrationLineCopy _ => [] | .wetStoreFirstTrip _ => [] | .wetTripReply _ _ => []
  | .entryDries _ => [] | .driedStoreApply _ => [] | .dryAcknowledgement _ => [] | .lbSample => []
  | .lbDelivery _ _ _ _ => [] | .rowJoin _ => [] | .joinAnswer _ _ => [] | .watchAnswer _ => [] | .watchPoll _ => []
  | .rectangleWrite _ _ _ => [] | .noteLanding _ => [] | .systemNoteRetry _ => [] | .acknowledgement _ => []
  | .channelWordSend _ => [] | .channelWordArrival _ => [] | .remoteRackOperation _ => [] | .blockMoveLands _ => []
  | .lateralBalancing _ => [] | .shipmentLands _ => [] | .continuationRetry _ => [] | .potOperation _ => []
  | .copyPieceRead _ => [] | .copyPieceWrite _ => [] | .copyFinish _ => [] | .watchdogWindowEnd _ _ => []
  | .instructionLimit _ => [] | .switchTCycle _ => [] | .switchDecision _ => [] | .contextEndOrder _ _ => []
  | .suspend _ => [] | .resumeModule _ => [] | .prepare _ => [] | .commit _ => [] | .conservatorRecovery => []
  | .budgetTreePeriod => [] | .alarm => [] | .gatingEnd => [] | .clockHop _ => [] | .clockHopEnd _ => []
  | .gtimeCorrection _ => [] | .hostRmaWrite _ _ _ _ => [] | .hostRmaRead _ _ _ _ => []
  | .hostRmaAtomic _ _ _ _ _ _ _ => [] | .hostTaggedSend _ _ _ _ _ _ => [] | .unsupportedOperation _ _ => []
  | .peerReward _ _ _ _ _ _ => [] | .peerSum _ _ _ _ _ => []
  | .linkFailure _ _ => [] | .mailboxRequest _ _ _ => [] | .firmwareVerification _ _ _ => []
  | .attestationRequest _ => [] | .lifeCycleTransition => [] | .reset => [] | .patrolScrub _ => []
  | .refreshWindow => [] | .neighbourRefresh _ => [] | .sequencerReset _ => [] | .sequencerHoldTimeout _ => []
  | .retryReissue _ => [] | .powerLossWarning => [] | .registerWrite _ _ _ => [] | .fetchFault _ => []
  | .issueCycle _ _ => [] | .alarmCleared => [] | .stackOrHubRecovery _ => []

/-- The words of an instruction as 32-bit words. -/
def encode (i : Instr) : List IWord := (encodeWords i).map (BitVec.ofNat 32)

/-- Decode 32-bit words. -/
noncomputable def decode (ws : List IWord) : Option Instr := decodeWords (ws.map BitVec.toNat)

end Sys2Proof
end

