-- ==== Sys2Proof/Machine/Flags.lean ====
section
/-!
DEFINITION. The five sticky floating-point flags (R28, R81) and every rounding the manual uses: to an integer grid by a mode
code (R30, R32), to the nearest integer with ties to even (R43), and the stochastic-rounding state (R32).
-/
namespace Sys2Proof.Machine

/-- A set of the flags of R28, in the order of MISC [36:32] (R81). -/
structure Flags where
  inexact : Bool := false
  underflow : Bool := false
  overflow : Bool := false
  divzero : Bool := false
  invalid : Bool := false
  deriving DecidableEq, Repr

/-- No flag raised. -/
def flagsNone : Flags := {}

/-- Only INVALID. -/
def flagsInvalid : Flags := { invalid := true }

/-- The union of two flag sets: an instruction sets flags and never clears one (R28). -/
def flagsOr (x y : Flags) : Flags :=
  { inexact := x.inexact || y.inexact, underflow := x.underflow || y.underflow, overflow := x.overflow || y.overflow,
    divzero := x.divzero || y.divzero, invalid := x.invalid || y.invalid }

/-- The flags as MISC.FLAGS holds them: bit 0 INEXACT to bit 4 INVALID (R81). -/
def flagsToNat (x : Flags) : Nat :=
  flag01 x.inexact + 2 * flag01 x.underflow + 4 * flag01 x.overflow + 8 * flag01 x.divzero + 16 * flag01 x.invalid

/-- The flags that five bits of MISC.FLAGS name (R81). -/
def flagsOfNat (n : Nat) : Flags :=
  { inexact := bitAt n 0, underflow := bitAt n 1, overflow := bitAt n 2, divzero := bitAt n 3, invalid := bitAt n 4 }

/-- One advance of the SR state (R32, steps 1 and 2). -/
def srNext (st : Nat) : Nat :=
  let s0 := if st = 0 then 0x9E3779B9 else st
  let s1 := s0 ^^^ (s0 <<< 13) % 2 ^ 32
  let s2 := s1 ^^^ (s1 >>> 17)
  s2 ^^^ (s2 <<< 5) % 2 ^ 32

/-- Whether the truncated magnitude `t` goes up by one, when `r` of `2^sh` was discarded (R30, R32): mode `rm`, sign `neg`,
SR state `u`. -/
def roundsUp (rm : Nat) (neg : Bool) (u t r sh : Nat) : Bool :=
  match rm with
  | 0 => 2 ^ sh < 2 * r || (2 * r == 2 ^ sh && t % 2 == 1)
  | 1 => false
  | 2 => neg && r != 0
  | 3 => !neg && r != 0
  | _ => 2 ^ 32 ≤ r * 2 ^ 32 / 2 ^ sh + u

/-- A magnitude divided by `2^sh` and rounded by mode `rm`; the second component tells whether bits were discarded. -/
def roundShift (rm : Nat) (neg : Bool) (u m sh : Nat) : Nat × Bool :=
  let t := m >>> sh
  let r := m % 2 ^ sh
  (if roundsUp rm neg u t r sh then t + 1 else t, r != 0)

/-- `RNE(x / 2^k)` on a signed integer, with the inexact mark (R43). -/
def rneShift (x : Int) (k : Nat) : Int × Bool :=
  let (m, ix) := roundShift 0 (x < 0) 0 x.natAbs k
  (if x < 0 then -(m : Int) else (m : Int), ix)

/-- `m * 2^q` rounded to an integer magnitude by mode `rm`, with the inexact mark (R24). -/
def roundToInt (rm : Nat) (neg : Bool) (u m : Nat) (q : Int) : Nat × Bool :=
  if 0 ≤ q then (m <<< q.toNat, false) else roundShift rm neg u m (-q).toNat

end Sys2Proof.Machine
end

