-- ==== Sys2Proof/Machine/Numbers.lean ====
section
/-!
DEFINITION. Numbers to the last bit (chapter "Numbers to the last bit", R21 to R47): the element formats, decoding a stored
element to an exact value, rounding an exact value to a format, the arithmetic of R152 to R159 on exact values, the x4
outlier pairs, MX blocks and the 80-bit accumulator.
-/
namespace Sys2Proof.Machine

/-- Layout of a floating-point format (R25): exponent bits, fraction bits, bias, and what its top codes mean. -/
structure FloatFmt where
  ebits : Nat
  fbits : Nat
  bias : Nat
  /-- infinities and NaN as IEEE 754 has them -/
  ieee : Bool
  /-- largest finite magnitude, as magnitude bits -/
  maxBits : Nat
  /-- canonical NaN (R27); 0 for e2m1, which has none (R29) -/
  nanBits : Nat
  deriving DecidableEq, Repr

/-- The floating-point format of an element code of R21, when it is one. -/
def floatFmt (code : Nat) : Option FloatFmt :=
  match code with
  | 0x09 => some ⟨5, 10, 15, true, 0x7BFF, 0x7E00⟩
  | 0x0A => some ⟨8, 7, 127, true, 0x7F7F, 0x7FC0⟩
  | 0x0B => some ⟨8, 23, 127, true, 0x7F7FFFFF, 0x7FC00000⟩
  | 0x0C => some ⟨11, 52, 1023, true, 0x7FEFFFFFFFFFFFFF, 0x7FF8000000000000⟩
  | 0x0D => some ⟨4, 3, 7, false, 0x7E, 0x7F⟩
  | 0x0E => some ⟨5, 2, 15, true, 0x7B, 0x7E⟩
  | 0x0F => some ⟨2, 1, 1, false, 0x7, 0⟩
  | _ => none

/-- Element width in bits of a format code (R21), scale apart; 0 for a reserved code. -/
def fmtWidth (code : Nat) : Nat :=
  match code with
  | 0x00 => 8 | 0x01 => 8 | 0x02 => 16 | 0x03 => 32 | 0x04 => 64
  | 0x05 => 8 | 0x06 => 16 | 0x07 => 32 | 0x08 => 64
  | 0x09 => 16 | 0x0A => 16 | 0x0B => 32 | 0x0C => 64
  | 0x0D => 8 | 0x0E => 8 | 0x0F => 4 | 0x10 => 4 | 0x11 => 8
  | 0x12 => 8 | 0x13 => 8 | 0x14 => 4 | 0x15 => 8 | 0x16 => 4
  | _ => 0

/-- Codes 0x01 to 0x08: integers (R21). -/
def fmtIsInt (code : Nat) : Bool := 1 ≤ code && code ≤ 8

/-- Signed integer codes (R21). -/
def fmtIsSigned (code : Nat) : Bool := 1 ≤ code && code ≤ 4

/-- Codes 0x09 to 0x0C: the lane types of floating point (R148). -/
def fmtIsLaneFp (code : Nat) : Bool := 9 ≤ code && code ≤ 12

/-- Block formats 0x12 to 0x16 (R37). -/
def fmtIsBlock (code : Nat) : Bool := 0x12 ≤ code && code ≤ 0x16

/-- The element format of a block format (R37): mxi8 elements are i8. -/
def blockElem (code : Nat) : Nat :=
  match code with
  | 0x12 => 0x0D | 0x13 => 0x0E | 0x14 => 0x0F | 0x15 => 0x01 | 0x16 => 0x10
  | c => c

/-- An exact value: a NaN (signalling or quiet), an infinity, or `±m·2^q`, the sign of zero kept. -/
inductive FVal where
  | nan (signalling : Bool)
  | inf (neg : Bool)
  | fin (neg : Bool) (m : Nat) (q : Int)
  deriving DecidableEq, Repr

/-- The exact value of an integer. -/
def fvOfInt (i : Int) : FVal := .fin (i < 0) i.natAbs 0

/-- Width of a float format. -/
def floatWidth (f : FloatFmt) : Nat := 1 + f.ebits + f.fbits

/-- The magnitude bits of a pattern. -/
def magBits (f : FloatFmt) (b : Nat) : Nat := b % 2 ^ (f.ebits + f.fbits)

/-- The sign bit of a pattern. -/
def signBit (f : FloatFmt) (b : Nat) : Bool := bitAt b (f.ebits + f.fbits)

/-- The value of a floating-point pattern (R25). -/
def decodeFloat (f : FloatFmt) (b : Nat) : FVal :=
  let neg := signBit f b
  let ex := bitsAt b f.fbits f.ebits
  let fr := bitsAt b 0 f.fbits
  if f.ieee && ex == 2 ^ f.ebits - 1 then
    if fr = 0 then .inf neg else .nan (!bitAt fr (f.fbits - 1))
  else if !f.ieee && f.nanBits != 0 && magBits f b == f.nanBits then .nan false
  else if ex = 0 then .fin neg fr (1 - (f.bias : Int) - f.fbits)
  else .fin neg (2 ^ f.fbits + fr) ((ex : Int) - f.bias - f.fbits)

/-- A pattern with its sign. -/
def withSign (f : FloatFmt) (neg : Bool) (mag : Nat) : Nat := mag + flag01 neg * 2 ^ (f.ebits + f.fbits)

/-- The infinity pattern of an IEEE format. -/
def infBits (f : FloatFmt) : Nat := (2 ^ f.ebits - 1) * 2 ^ f.fbits

/-- What overflow gives (R29). -/
def overflowBits (f : FloatFmt) (rm : Nat) (neg : Bool) : Nat :=
  let toInf := match rm with
    | 1 => false
    | 2 => neg
    | 3 => !neg
    | _ => true
  withSign f neg (if f.ieee && toInf then infBits f else f.maxBits)

/-- An exact value `±m·2^q`, rounded once to the format by mode `rm` (R29, R30, R32), with its flags. `jam` tells that a
nonzero tail below `m` was cut off (an inexact quotient or root). -/
def roundFin (f : FloatFmt) (rm : Nat) (u : Nat) (neg : Bool) (m0 : Nat) (q0 : Int) (jam : Bool) : Nat × Flags :=
  if m0 = 0 && !jam then (withSign f neg 0, flagsNone) else
  let m := if jam then 4 * m0 + 1 else m0
  let q := if jam then q0 - 2 else q0
  let emin : Int := 1 - (f.bias : Int)
  let e : Int := q + bitLength m - 1
  let quantum : Int := (if e < emin then emin else e) - f.fbits
  let r := if q < quantum then roundShift rm neg u m (quantum - q).toNat else (m <<< (q - quantum).toNat, false)
  let bits := (quantum - (emin - f.fbits)).toNat * 2 ^ f.fbits + r.1
  if f.maxBits < bits then (overflowBits f rm neg, { overflow := true, inexact := true })
  else
    let free := roundShift rm neg u m (e - f.fbits - q).toNat
    let tiny := decide (e < emin) && !(e == emin - 1 && decide (q < e - f.fbits) && free.1 == 2 ^ (f.fbits + 1))
    (withSign f neg bits, { inexact := r.2, underflow := tiny && r.2 })

/-- Round any value to a float format: the conversions of R27 and R29 for the special inputs. -/
def roundVal (f : FloatFmt) (rm u : Nat) (v : FVal) : Nat × Flags :=
  match v with
  | .nan s => (f.nanBits, { invalid := s || f.nanBits == 0 })
  | .inf neg =>
    if f.ieee then (withSign f neg (infBits f), flagsNone)
    else if f.nanBits = 0 then (withSign f neg f.maxBits, flagsInvalid)
    else (f.nanBits, flagsInvalid)
  | .fin neg m q => roundFin f rm u neg m q false

/-- The least value of an integer format. -/
def intMin (signed : Bool) (n : Nat) : Int := if signed then -((2 ^ (n - 1) : Nat) : Int) else 0

/-- The greatest value of an integer format. -/
def intMax (signed : Bool) (n : Nat) : Int := if signed then ((2 ^ (n - 1) : Nat) : Int) - 1 else ((2 ^ n : Nat) : Int) - 1

/-- Conversion of a value to an integer format (R24): the integer, before it is cut to `n` bits, and the flags. -/
def valToInt (signed : Bool) (n rm : Nat) (v : FVal) : Int × Flags :=
  match v with
  | .nan _ => (0, flagsInvalid)
  | .inf neg => (if neg then intMin signed n else intMax signed n, flagsInvalid)
  | .fin neg m q =>
    let (mag, ix) := roundToInt rm neg 0 m q
    let i : Int := if neg then -(mag : Int) else (mag : Int)
    let c := clampInt (intMin signed n) (intMax signed n) i
    if c = i then (i, { inexact := ix }) else (c, flagsInvalid)

/-! ### The x4 outlier pairs (R34, R35) -/

/-- The two's complement value of an x4 nibble. -/
def x4Plain (nib : Nat) : Int := signedOf 4 nib

/-- The e2m1 value of a nibble times 8: an integer (R34). -/
def x4Outlier (nib : Nat) : Int :=
  match decodeFloat ⟨2, 1, 1, false, 7, 0⟩ nib with
  | .fin neg m q => (if neg then -1 else 1) * ((8 * m * 2 ^ (q + 1).toNat / 2 : Nat) : Int)
  | _ => 0

/-- The two integers of an x4 byte (R34). -/
def x4Pair (byte : Nat) : Int × Int :=
  let a := byte % 16
  let b := byte / 16 % 16
  match a == 8, b == 8 with
  | false, false => (x4Plain a, x4Plain b)
  | true, false => (0, x4Outlier b)
  | false, true => (x4Outlier a, 0)
  | true, true => (0, 0)

/-- Element `i` of an x4 string (R34). -/
def x4At (v i : Nat) : Int :=
  let p := x4Pair (elemAt 8 v (i / 2))
  if i % 2 = 0 then p.1 else p.2

/-- One input of an x4 conversion rounded to an integer (R35, step 1): magnitude, sign, inexactness. -/
def x4Round (rm u : Nat) (v : FVal) : Nat × Bool × Bool :=
  match v with
  | .nan _ => (0, false, false)
  | .inf neg => (2 ^ 20, neg, false)
  | .fin neg m q =>
    if 20 < q + bitLength m then (2 ^ 20, neg, false)
    else
      let r := roundToInt rm neg u m q
      (r.1, neg, r.2)

/-- Whether a value is zero. -/
def fvIsZero : FVal → Bool
  | .fin _ m _ => m == 0
  | _ => false

/-- A value divided by 8 (R35, step 4). -/
def fvEighth : FVal → FVal
  | .fin neg m q => .fin neg m (q - 3)
  | v => v

/-- Which of two inputs has the greater rounded magnitude: true for the second. Values too large for step 1's small range
are compared exactly, and an infinity is above every finite value (R35, step 3). -/
def x4SecondKept (rm u1 u2 : Nat) (a b : FVal) : Bool :=
  match a, b with
  | .inf _, _ => false
  | _, .inf _ => true
  | .fin n1 m1 q1, .fin n2 m2 q2 =>
    (roundToInt rm n1 u1 m1 q1).1 < (roundToInt rm n2 u2 m2 q2).1
  | .nan _, _ => true
  | _, .nan _ => false

/-- The x4 byte of a pair of exact inputs (R35), its flags, and the SR state after it: under SR, step 1 consumes one state
per element and step 4 one more. -/
def x4Encode (rm st : Nat) (a b : FVal) : Nat × Flags × Nat :=
  let u1 := if rm = 4 then srNext st else st
  let u2 := if rm = 4 then srNext u1 else u1
  let p := x4Round rm u1 a
  let q := x4Round rm u2 b
  let inv := match a, b with
    | .nan _, _ => true
    | _, .nan _ => true
    | _, _ => false
  if p.1 ≤ 7 && q.1 ≤ 7 then
    let nib := fun (r : Nat × Bool × Bool) => if r.2.1 then (16 - r.1) % 16 else r.1
    (nib p + 16 * nib q, { inexact := p.2.2 || q.2.2, invalid := inv }, u2)
  else
    let second := x4SecondKept rm u1 u2 a b
    let kept := if second then b else a
    let lost := if second then a else b
    let u3 := if rm = 4 then srNext u2 else u2
    let r := roundVal ⟨2, 1, 1, false, 7, 0⟩ rm u3 (fvEighth kept)
    let lostIx := match lost with
      | .nan _ => false
      | v => !fvIsZero v
    let byte := if second then 8 + 16 * r.1 else r.1 + 16 * 8
    (byte, flagsOr r.2 { inexact := lostIx, invalid := inv }, u3)

/-! ### Decoding any element, converting to any format -/

/-- The value of an element given by its bits, for the formats that stand alone (R21, R25); x4 is read by pairs. -/
def elemVal (code bits : Nat) : FVal :=
  match floatFmt code with
  | some f => decodeFloat f bits
  | none =>
    if code = 0x11 then (if bits % 256 = 0xFF then .nan false else .fin false 1 (((bits % 256 : Nat) : Int) - 127))
    else if fmtIsSigned code then fvOfInt (signedOf (fmtWidth code) bits) else .fin false (bits % 2 ^ fmtWidth code) 0

/-- The value of element `i` of a register or a stored string. -/
def elemValAt (code v i : Nat) : FVal :=
  if code = 0x10 then fvOfInt (x4At v i) else elemVal code (elemAt (fmtWidth code) v i)

/-- Convert a value to a format other than x4 (R24, R27, R29): the element bits and the flags. -/
def convertVal (code rm u : Nat) (v : FVal) : Nat × Flags :=
  match floatFmt code with
  | some f => roundVal f rm u v
  | none =>
    let r := valToInt (fmtIsSigned code) (fmtWidth code) rm v
    (lowBits (fmtWidth code) r.1, r.2)

/-- The product of a value and `2^k`. -/
def fvScale (v : FVal) (k : Int) : FVal :=
  match v with
  | .fin neg m q => .fin neg m (q + k)
  | w => w

/-- The value of a block element under its sc8 scale code (R36 to R38): NaN when the scale is 0xFF, mxi8 elements count
2^−6. Under that scale an element that is a signalling NaN is a quiet one here, so that a decoding load raises no flag for it (DESIGN CHOICE, log 77). -/
def blockVal (code scale v i : Nat) : FVal :=
  if scale = 0xFF then .nan false
  else
    let e := elemValAt (blockElem code) v i
    fvScale e ((scale : Int) - 127 + (if code = 0x15 then -6 else 0))

/-! ### Arithmetic on exact values (R152 to R158) -/

/-- Whether a value is a signalling NaN. -/
def fvIsSnan : FVal → Bool
  | .nan s => s
  | _ => false

/-- Whether a value is a NaN. -/
def fvIsNan : FVal → Bool
  | .nan _ => true
  | _ => false

/-- The negation of a value. -/
def fvNeg : FVal → FVal
  | .nan s => .nan s
  | .inf n => .inf (!n)
  | .fin n m q => .fin (!n) m q

/-- The signed significand of `±m·2^q` at a lower exponent `r`. -/
def fvInt (neg : Bool) (m : Nat) (q r : Int) : Int :=
  (if neg then -1 else 1) * ((m <<< (q - r).toNat : Nat) : Int)

/-- Exact sum of two values: an exact zero takes its sign from the mode (R153). -/
def fvAdd (rm : Nat) (x y : FVal) : FVal × Flags :=
  match x, y with
  | .nan s, .nan t => (.nan false, { invalid := s || t })
  | .nan s, _ => (.nan false, { invalid := s })
  | _, .nan t => (.nan false, { invalid := t })
  | .inf a, .inf b => if a = b then (.inf a, flagsNone) else (.nan false, flagsInvalid)
  | .inf a, _ => (.inf a, flagsNone)
  | _, .inf b => (.inf b, flagsNone)
  | .fin a m q, .fin b n r =>
    if m = 0 && n = 0 then (.fin (if a = b then a else rm == 2) 0 0, flagsNone)
    else
      let lo := if q < r then q else r
      let s := fvInt a m q lo + fvInt b n r lo
      if s = 0 then (.fin (rm == 2) 0 0, flagsNone) else (.fin (s < 0) s.natAbs lo, flagsNone)

/-- Exact product of two values (R153). Infinity times infinity is the infinity of the product's sign: R41, which PLUS-TIMES follows, names
only an infinity times a finite element (DESIGN CHOICE, log 70). -/
def fvMul (x y : FVal) : FVal × Flags :=
  match x, y with
  | .nan s, .nan t => (.nan false, { invalid := s || t })
  | .nan s, _ => (.nan false, { invalid := s })
  | _, .nan t => (.nan false, { invalid := t })
  | .inf a, .inf b => (.inf (a != b), flagsNone)
  | .inf a, .fin b m _ => if m = 0 then (.nan false, flagsInvalid) else (.inf (a != b), flagsNone)
  | .fin a m _, .inf b => if m = 0 then (.nan false, flagsInvalid) else (.inf (a != b), flagsNone)
  | .fin a m q, .fin b n r => (.fin (a != b) (m * n) (q + r), flagsNone)

/-- A rounded result: the exact value's flags and the rounding's. -/
def roundWith (f : FloatFmt) (rm : Nat) (v : FVal × Flags) : Nat × Flags :=
  let r := roundVal f rm 0 v.1
  (r.1, flagsOr v.2 r.2)

/-- `round(A + B)` on bit patterns (R153). -/
def fpAdd (f : FloatFmt) (rm a b : Nat) : Nat × Flags := roundWith f rm (fvAdd rm (decodeFloat f a) (decodeFloat f b))

/-- `round(A − B)` (R153). -/
def fpSub (f : FloatFmt) (rm a b : Nat) : Nat × Flags :=
  roundWith f rm (fvAdd rm (decodeFloat f a) (fvNeg (decodeFloat f b)))

/-- `round(A · B)` (R153). -/
def fpMul (f : FloatFmt) (rm a b : Nat) : Nat × Flags := roundWith f rm (fvMul (decodeFloat f a) (decodeFloat f b))

/-- `round(±(A·B) ± C)` with a single rounding (R158, R162): 0·∞ sets INVALID whatever C holds. -/
def fpFma (f : FloatFmt) (rm : Nat) (negP negC : Bool) (a b c : Nat) : Nat × Flags :=
  let p := fvMul (decodeFloat f a) (decodeFloat f b)
  let pv := if negP then fvNeg p.1 else p.1
  let cv := decodeFloat f c
  let s := fvAdd rm pv (if negC then fvNeg cv else cv)
  roundWith f rm (s.1, flagsOr p.2 s.2)

/-- `round(A / B)` (R153). -/
def fpDiv (f : FloatFmt) (rm a b : Nat) : Nat × Flags :=
  match decodeFloat f a, decodeFloat f b with
  | .nan s, .nan t => (f.nanBits, { invalid := s || t })
  | .nan s, _ => (f.nanBits, { invalid := s })
  | _, .nan t => (f.nanBits, { invalid := t })
  | .inf _, .inf _ => (f.nanBits, flagsInvalid)
  | .inf x, .fin y _ _ => (withSign f (x != y) (infBits f), flagsNone)
  | .fin x _ _, .inf y => (withSign f (x != y) 0, flagsNone)
  | .fin x m q, .fin y n r =>
    if n = 0 then
      if m = 0 then (f.nanBits, flagsInvalid) else (withSign f (x != y) (infBits f), { divzero := true })
    else
      let k := f.fbits + 3 + bitLength n
      let num := m <<< k
      roundFin f rm 0 (x != y) (num / n) (q - r - k) (num % n != 0)

/-- `round(√A)` (R153). -/
def fpSqrt (f : FloatFmt) (rm a : Nat) : Nat × Flags :=
  match decodeFloat f a with
  | .nan s => (f.nanBits, { invalid := s })
  | .inf neg => if neg then (f.nanBits, flagsInvalid) else (infBits f, flagsNone)
  | .fin neg m q =>
    if m = 0 then (withSign f neg 0, flagsNone)
    else if neg then (f.nanBits, flagsInvalid)
    else
      let k := 2 * f.fbits + 6
      let odd := flag01 ((q - k) % 2 != 0)
      let n := m <<< (k + odd)
      let root := sqrtBits n (f.fbits + 5 + f.fbits) 0
      roundFin f rm 0 false root ((q - k - odd) / 2) (root * root != n)

/-- −∞, the finite values and +∞ in order, −0 below +0: the magnitude bits read with their sign (R154). -/
def orderKey (f : FloatFmt) (b : Nat) : Int :=
  if signBit f b then -(magBits f b : Int) - 1 else (magBits f b : Int)

/-- FMIN and FMAX (R154). -/
def fpMinMax (f : FloatFmt) (isMax : Bool) (a b : Nat) : Nat × Flags :=
  let x := decodeFloat f a
  let y := decodeFloat f b
  let fl : Flags := { invalid := fvIsSnan x || fvIsSnan y }
  match fvIsNan x, fvIsNan y with
  | true, true => (f.nanBits, fl)
  | true, false => (b, fl)
  | false, true => (a, fl)
  | false, false =>
    let less := orderKey f a < orderKey f b
    (if isMax then (if less then b else a) else (if less then a else b), fl)

/-- Relations of R156 and R164. -/
inductive FRel where
  | eq | ne | lt | le | un
  deriving DecidableEq, Repr

/-- The order of two values that are not NaN: −1, 0 or 1, with −0 = +0. -/
def fpOrder (f : FloatFmt) (a b : Nat) : Int :=
  let k := fun v => if signBit f v then -(magBits f v : Int) else (magBits f v : Int)
  if k a < k b then -1 else if k a = k b then 0 else 1

/-- A comparison and its flags: LT and LE are signalling, the others quiet (R156, R164). -/
def fpCompare (f : FloatFmt) (rel : FRel) (a b : Nat) : Bool × Flags :=
  let x := decodeFloat f a
  let y := decodeFloat f b
  let un := fvIsNan x || fvIsNan y
  let sn := fvIsSnan x || fvIsSnan y
  match rel with
  | .eq => (!un && fpOrder f a b == 0, { invalid := sn })
  | .ne => (un || fpOrder f a b != 0, { invalid := sn })
  | .lt => (!un && fpOrder f a b == -1, { invalid := un })
  | .le => (!un && fpOrder f a b != 1, { invalid := un })
  | .un => (un, { invalid := sn })

/-- FCLASS (R157): the number of the one bit set. -/
def fpClass (f : FloatFmt) (a : Nat) : Nat :=
  match decodeFloat f a with
  | .nan s => if s then 8 else 9
  | .inf neg => if neg then 0 else 7
  | .fin neg m _ =>
    if m = 0 then (if neg then 3 else 4)
    else if bitsAt a f.fbits f.ebits = 0 then (if neg then 2 else 5)
    else (if neg then 1 else 6)

/-- FSGN (R155): copy, inverse or XOR of the signs, on bits alone. -/
def fpSign (f : FloatFmt) (op a b : Nat) : Nat :=
  let s := match op with
    | 0 => signBit f b
    | 1 => !signBit f b
    | _ => signBit f a != signBit f b
  withSign f s (magBits f a)

/-! ### The 80-bit accumulator (R39 to R46) -/

/-- An ACC80 pair: significand and exponent (R39). -/
structure Acc80 where
  s : Int
  e : Int
  deriving DecidableEq, Repr

/-- E = 0x8001: empty. -/
def accEmpty : Acc80 := ⟨0, -32767⟩

/-- E = 0x8000: NaN. -/
def accNan : Acc80 := ⟨0, -32768⟩

/-- E = 0x8000: an infinity. -/
def accInf (neg : Bool) : Acc80 := ⟨if neg then -1 else 1, -32768⟩

/-- The 80 bits of an accumulator in memory: S in bytes 0..7, E in bytes 8..9 (R39). -/
def accToNat (a : Acc80) : Nat := lowBits 64 a.s + 2 ^ 64 * lowBits 16 a.e

/-- The accumulator that 80 bits hold (R39). -/
def accOfNat (n : Nat) : Acc80 := ⟨signedOf 64 n, signedOf 16 (n >>> 64)⟩

/-- Whether a pair is one that R39 lets be produced. -/
def accProduced (a : Acc80) : Bool :=
  if a.e = -32768 then a.s == 0 || a.s == 1 || a.s == -1 else a.e != -32767 || a.s == 0

/-- A contribution to an accumulator (R40 to R42). -/
inductive Contrib where
  | nan
  | inf (neg : Bool)
  | fin (b : Int) (f : Int)
  deriving DecidableEq, Repr

/-- The least right shift that brings an integer into 64 bits, with RNE (R40). -/
def fit64 : Nat → Int → Nat → Int × Nat × Bool
  | 0, b, k => (b, k, false)
  | n + 1, b, k =>
    let r := rneShift b k
    if -(2 ^ 63 : Int) ≤ r.1 && r.1 ≤ 2 ^ 63 - 1 then (r.1, k, r.2) else fit64 n b (k + 1)

/-- A finite contribution added to an accumulator that holds a number or is empty (R43): the accumulator, whether nonzero
bits were discarded, and whether it overflowed. -/
def accAddFin (a : Acc80) (b f : Int) : Acc80 × Flags :=
  if b = 0 then (a, flagsNone)
  else if a.e = -32767 then (⟨b, f⟩, flagsNone)
  else
    let sh := if a.e < f then rneShift a.s (f - a.e).toNat else (a.s, false)
    let e := if a.e < f then f else a.e
    let bh := if f < e then rneShift b (e - f).toNat else (b, false)
    let t := sh.1 + bh.1
    let ix := sh.2 || bh.2
    if 2 ^ 63 - 1 < t || t < -(2 ^ 63 : Int) then
      let r := rneShift t 1
      if 32767 < e + 1 then (accInf (r.1 < 0), { inexact := ix || r.2, overflow := true })
      else (⟨r.1, e + 1⟩, { inexact := ix || r.2 })
    else (⟨t, e⟩, { inexact := ix })

/-- Any contribution added (R41, R43). -/
def accAdd (a : Acc80) (c : Contrib) : Acc80 × Flags :=
  match c with
  | .nan => (accNan, flagsNone)
  | .inf neg =>
    if a.e = -32768 then (if a = accInf neg then a else accNan, flagsNone) else (accInf neg, flagsNone)
  | .fin b f => if a.e = -32768 then (a, flagsNone) else accAddFin a b f

/-- The exact value of an accumulator; empty and zero read as +0 (R39, R44). -/
def accVal (a : Acc80) : FVal :=
  if a.e = -32767 then .fin false 0 0
  else if a.e = -32768 then (if a.s = 0 then .nan false else .inf (a.s < 0))
  else if a.s = 0 then .fin false 0 0
  else .fin (a.s < 0) a.s.natAbs a.e

/-- The pair (M, q) of a block element (R38), with q_min of its format. -/
def qMin (elem : Nat) : Int :=
  match elem with
  | 0x0D => -9 | 0x0E => -16 | 0x0F => -1 | 0x01 => -6 | _ => 0

/-- The special products of R41 and R42 gathered: NaN first, then infinities of one sign. -/
def specialOf (l : List FVal) : Option Contrib :=
  if l.any fvIsNan then some .nan
  else
    let pos := l.any fun v => match v with | .inf n => !n | _ => false
    let neg := l.any fun v => match v with | .inf n => n | _ => false
    if pos && neg then some .nan else if pos then some (.inf false) else if neg then some (.inf true) else none

/-- The contribution of a K block of 32 element pairs on MX formats (R40, R41). The first list holds exact element products
without the scales; `base` is q_min(A) + q_min(B); `sc` is the sum of the two unbiased scale codes. -/
def mxContrib (prods : List FVal) (base sc : Int) (scaleNan : Bool) : Contrib × Bool :=
  if scaleNan then (.nan, false)
  else match specialOf prods with
  | some c => (c, false)
  | none =>
    let b := prods.foldl (fun acc v => match v with | .fin n m q => acc + fvInt n m q base | _ => acc) 0
    let r := fit64 16 b 0
    (.fin r.1 (base + sc + r.2.1), r.2.2)

/-- The contribution of a K block of BF16 or FP16 products (R42). -/
def fpContrib (prods : List FVal) : Contrib × Bool :=
  match specialOf prods with
  | some c => (c, false)
  | none =>
    let nz := prods.filter fun v => !fvIsZero v
    let top := nz.foldl (fun (acc : Option Int) v => match v, acc with
      | .fin _ m q, some x => some (if x < q + bitLength m then q + bitLength m else x)
      | .fin _ m q, none => some (q + bitLength m)
      | _, x => x) none
    match top with
    | none => (.fin 0 0, false)
    | some h =>
      let f := h - 58
      nz.foldl (fun (acc : Contrib × Bool) v => match v, acc with
        | .fin n m q, (.fin b g, ix) =>
          let t := if q < f then roundShift 0 n 0 m (f - q).toNat else (m <<< (q - f).toNat, false)
          (.fin (b + (if n then -(t.1 : Int) else (t.1 : Int))) g, ix || t.2)
        | _, x => x) (.fin 0 f, false)

end Sys2Proof.Machine
end

