-- ==== Sys2Proof/Machine/State.lean ====
section
/-!
DEFINITION. The state of the module, all of it plain data (INVENTORY.md lists every piece with its rule and reset value). A
thread row's registers and control field ARE bytes of `mem` (R78: a row has no other state); register pages and hub windows
are `regs`, keyed by the address of the word. Tables of units are sparse: an entry that is not listed stands at its reset value.
Messages in flight, timed completions and the outside world's acts are events of `agenda`, in order of time.
-/
namespace Sys2Proof.Machine

/-- A sparse table: keys and values, at most one value for a key. -/
abbrev Tab (α : Type) := List (Nat × α)

/-- Memory as the list of bytes that are not zero, addresses rising (R387: unlisted bytes read zero; log 10). -/
abbrev Memory := List Host.Cell

/-- The paths of R222. -/
inductive Path where
  | T | C | M | G | J | S | N
  deriving DecidableEq, Repr

/-- Whose message an event is: issuing row, partition, context, path, and the ends of its flow. `request` marks what a drop
cloth may catch (R349); `flow` names the ordered flow it belongs to; an executor that counts its own cycles acts at enabled cycle `upto`
at the earliest (R360). -/
structure MsgTag where
  row : Nat := 0
  part : Nat := 32
  ctx : Nat := 0
  path : Path := .T
  home : Nat := 0
  flow : Nat := 0
  request : Bool := false
  upto : Nat := 0
  deriving DecidableEq, Repr

/-- One event of the agenda: the module cycle at which it acts and its place among events of that cycle. -/
structure Timed where
  due : Nat
  seq : Nat
  tag : MsgTag
  ev : Instr
  deriving DecidableEq, Repr

/-- A scalar register that a completion writes (R110). -/
structure RowWrite where
  reg : Nat
  val : Word
  deriving DecidableEq, Repr

/-- A fault's cause, detail, address and space (R335). -/
structure FaultRec where
  cause : Nat
  detail : Nat
  addr : Nat
  space : Nat
  deriving DecidableEq, Repr

/-- What a slot of an executor holds (R98, R348). `from` is the last cycle at which its row may not yet issue. -/
structure Slot where
  row : Nat
  opening : Bool := false
  readyAt : Nat := 0
  retained : Bool := false
  openedAt : Nat := 0
  deriving DecidableEq, Repr

/-- The condition a waiting row waits for. -/
inductive Cond where
  /-- an event of the agenda answers the row -/
  | event
  /-- a deliverable note (R241) -/
  | note
  /-- view LB and view DB of scope slot `σ` above phase `p` (R224) -/
  | phase (d σ p : Nat)
  /-- room under R214 before PHASE raises -/
  | phaseRoom
  /-- view LB of scope slot `σ` above `v` (R226) -/
  | lower (d σ v : Nat)
  /-- a word in the input FIFO (R243) -/
  | chanIn
  /-- room in the output FIFO (R243) -/
  | chanOut
  /-- the copies of the masked groups have ended (R273) -/
  | copies (mask : Nat)
  /-- a free copy record (R272) -/
  | copyRecord
  /-- a WAKE after a page fault (R192) -/
  | paged
  /-- room in the wet buffer or the spill area (R209) -/
  | wetRoom
  /-- FENCEX number `n` is resolved (R228) -/
  | fencex (n : Nat)
  /-- fewer than eight FENCEX outstanding (R228) -/
  | fencexRoom
  /-- the row's early-dried entries and direct stores are acknowledged (R227) -/
  | fence (σ upto : Nat)
  /-- the matrix unit is free for a restore (R288) -/
  | unitFree
  /-- the walks of the partition that began before cycle `t` have ended, and cycle `upto` has come (R205) -/
  | walks (t upto : Nat)
  deriving DecidableEq, Repr

/-- What an instruction that first acts as a FENCE does when the fence is complete (R229, R252, R255, R328). -/
inductive After where
  /-- it is complete -/
  | finish
  /-- access `req` is sent -/
  | access (req : Nat)
  /-- join message `id` is sent -/
  | join (id : Nat)
  /-- DONE's step -/
  | done (d : Nat)
  deriving DecidableEq, Repr

/-- A row's wait (R99, R110) and what follows it; `since`: the enabled cycle of its executor in which it began (R100, R106). -/
structure Wait where
  why : Nat
  bounded : Bool
  cond : Cond
  since : Nat
  after : After := .finish
  deriving DecidableEq, Repr

/-- A direct access's act at its home (R84, R89, R103, R223, R230, R235). -/
inductive DirectOp where
  | read
  | write (scalar : Bool)
  | atom (op et rm : Nat)
  | cas
  | watch (et old : Nat)
  | ctl (word : Word)
  | arm (mode : Word)
  | disarm
  | peek (off : Nat)
  | spawn (pc : Nat) (args : List Word) (started : Bool)
  | jdec (cont : List Word)
  | note (hdr w1 w2 w3 : Word) (engage : Bool)
  deriving DecidableEq, Repr

/-- A segment register as an instruction reads it (R180); `bad` marks KIND 7 or a nonzero reserved field (R6, R183). -/
structure Seg where
  base : Nat
  kind : Nat
  canR : Bool
  canW : Bool
  canX : Bool
  fmt : Nat
  limit : Nat
  bad : Bool
  deriving DecidableEq, Repr

/-- One element of an access: lane, what FAULTADDR would hold (the virtual address of a VIRT access), the DPA reached, width in
bytes, data, expected value, the stored format of a decode, what the first six checks of R183 found, what came back, and whether it has
been held for a boundary, which it then passes before any command that lands there (R89). -/
structure Elem where
  lane : Nat := 0
  va : Nat := 0
  off : Int := 0
  addr : Nat := 0
  size : Nat := 8
  data : Nat := 0
  cmp : Nat := 0
  fmt : Nat := 0
  pre : Option FaultRec := none
  got : Option Nat := none
  past : Bool := false
  deriving DecidableEq, Repr

/-- Where an access's result goes. -/
inductive Dest where
  | none
  /-- scalar register `d`, `n` bits extended by signedness -/
  | scalar (d n : Nat) (sgn : Bool)
  /-- vector register: lane code, mask, zeroing -/
  | vector (d et k : Nat) (z : Bool)
  /-- status of a row instruction -/
  | status (d : Nat)
  /-- PEEK: STATE to `d`, the window to own offset -/
  | window (d off : Nat)
  /-- accumulator rows of MLD -/
  | acc (et band : Nat)
  /-- a rule table of GTBL -/
  | table (d hdr tab n e : Nat)
  /-- NOTE: status, and the engaging unit to give back -/
  | noteStatus (d : Nat) (engage : Bool)
  /-- a remote party's operation: its entry (a host's `k`, or 64 + a peer's), whether data goes back (R380), and whether it belongs to
  the entry's ordered flow (R381) -/
  | host (k : Nat) (data : Bool) (ordered : Bool)
  deriving DecidableEq, Repr

/-- An access under way (R183 to R186): issuer, act, elements and replies still out, its result's place, whether the row waits,
how it is translated (`need` 0 read, 1 write, 2 fetch, 3 atomic), and whether it decodes (1 contiguous, 2 strided); `whole` that a
store's elements lie in one line and are applied together, and a load's by 64-bit words (R151, R258), `spills` the spills its store has made so far (R209). -/
structure Req where
  row : Nat
  part : Nat
  ctx : Nat
  priv : Bool
  ex : Nat
  path : Path := .T
  op : DirectOp := .read
  elems : List Elem := []
  left : Nat := 0
  dest : Dest := .none
  wait : Bool := false
  virt : Bool := false
  need : Nat := 0
  seg : Seg := ⟨0, 0, false, false, false, 0, 0, false⟩
  decode : Nat := 0
  fl : Nat := 0
  status : Nat := 0
  fault : Option FaultRec := none
  whole : Bool := false
  spills : Nat := 0
  deriving DecidableEq, Repr

/-- Whether an access is a WATCH. -/
def Req.isWatch (q : Req) : Bool :=
  match q.op with
  | .watch _ _ => true
  | _ => false

/-- A wet-buffer entry (R208): `stage` 0 first trip under way, 1 wet, 2 sent to dry, 3 applied and not yet acknowledged. `priv` is the
privilege of the store that last entered it; `cmd` the value of a 64-bit store to the first 8 bytes of its line, which acts as a
command should it dry into the CMD word of a row armed since (R87, R90); `past` that it has been held for that row's boundary (R89). -/
structure Wet where
  id : Nat
  row : Nat
  tag : Nat
  pos : Nat
  line : Nat
  bytes : Tab Byte
  part : Nat
  ctx : Nat
  ex : Nat
  stage : Nat := 0
  spilled : Bool := false
  early : Bool := false
  priv : Bool := false
  cmd : Option Nat := none
  past : Bool := false
  deriving DecidableEq, Repr

/-- The precedence of the dried store that last wrote a byte (R219). -/
structure Prec where
  tag : Nat
  row : Nat
  pos : Nat
  deriving DecidableEq, Repr

/-- A view of the lower-bound network (R215, R237). -/
structure View where
  lb : Option Nat
  db : Option Nat
  nb : Option Nat
  deriving DecidableEq, Repr

/-- A watch: register or polled (R230). -/
structure Watch where
  id : Nat
  req : Nat
  row : Nat
  addr : Nat
  size : Nat
  old : Nat
  home : Nat
  polled : Bool
  deriving DecidableEq, Repr

/-- An outstanding FENCEX (R228): sets before and after, scope, the messages and records it waits on, and how many channel words that the
row had pushed before it have not yet entered a downstream FIFO. -/
structure FenceX where
  n : Nat
  row : Nat
  before : Nat
  after : Nat
  scope : Nat
  upto : Nat
  words : Nat
  deriving DecidableEq, Repr

/-- An undelivered system note and where it goes (R238): the target row and the four words. -/
structure SysNote where
  id : Nat
  target : Nat
  words : List Word
  part : Nat
  deriving DecidableEq, Repr

/-- A note in flight for NB (R237). -/
structure FlyNote where
  id : Nat
  row : Nat
  stamp : Nat
  deriving DecidableEq, Repr

/-- A row's channel words (R242, R243): those of its output FIFO with the row they go to, those that have left and are on their way, and
those that came in. `bound` is whether the row holds one of its executor's endpoints. -/
structure Endpoint where
  row : Nat
  bound : Bool
  out : List (Nat × Word)
  moving : List (Nat × Word)
  inp : List Word
  sending : Bool
  deriving DecidableEq, Repr

/-- A rack entry (R246): the sketch, its context, its place in the order of pushing, and its engager. -/
structure RackEntry where
  sketch : List Word
  ctx : Nat
  order : Nat
  engager : Option Nat
  deriving DecidableEq, Repr

/-- A block of rack entries in transit (R248, R249): from and to rack keys, and its entries. -/
structure RackMove where
  id : Nat
  src : Nat
  dst : Nat
  part : Nat
  entries : List RackEntry
  deriving DecidableEq, Repr

/-- A rack operation that has to reach a rack or wait there (R247, R250, R251). -/
structure RackOp where
  id : Nat
  row : Nat
  part : Nat
  ctx : Nat
  rack : Nat
  d : Nat
  push : Option RackEntry
  fromLast : Bool
  wait : Bool
  delay : Nat
  deriving DecidableEq, Repr

/-- A continuation or release push that a full hierarchy holds (R252, R327). -/
structure HeldPush where
  id : Nat
  rack : Nat
  part : Nat
  entry : RackEntry
  deriving DecidableEq, Repr

/-- A pot operation on its way, held for FREE, or registered (R262, R267). `kind` 0 POTPUT, 1 POTGET, 2 POTREL, 3 POTSET. -/
structure PotReq where
  id : Nat
  kind : Nat
  row : Nat
  part : Nat
  ctx : Nat
  pot : Nat
  d : Nat
  wait : Bool
  line : List Byte
  args : List Nat
  held : Bool := false
  /-- its place among the lines that hold for FREE of the pot (the model's own) -/
  ticket : Nat := 0
  deriving DecidableEq, Repr

/-- A piece of a copy between its read and its write (R269): destination address, byte of the stream, bytes, poison, and the cycle in
which it reaches its destination. -/
structure Piece where
  at_ : Nat
  pos : Nat
  bytes : List Byte
  bad : Bool
  due : Nat
  deriving DecidableEq, Repr

/-- A copy record (R268, R271). `sseg`, `dseg`: segment words at issue, or the key of its pot; `readPos`, `writePos`: bytes of the stream
read and written; `fly`: pieces read and not yet written; `state` 0 running, 1 paused by a page fault, 2 failed, 4 ended and being
reported, 5 held for FREE of its pot, 6 sent to its peer and not yet acknowledged; `out`: its record lies in the copy-record area (R349); `readAt`: the first cycle of its next read;
`gate`: its next read waits 1 for a walk, 2 for its home; `writeHeld`: its next write waits for its home, or in state 5 for FREE;
`ticket`: its place among what holds for FREE of the pot (the model's own). -/
structure Copy where
  id : Nat
  row : Nat
  part : Nat
  ctx : Nat
  ex : Nat
  group : Nat
  desc : List Word
  sseg : Nat × Nat
  dseg : Nat × Nat
  readPos : Nat
  writePos : Nat
  fly : List Piece
  err : Nat
  state : Nat
  readAt : Nat
  out : Bool := false
  gate : Nat := 0
  writeHeld : Bool := false
  ticket : Nat := 0
  deriving DecidableEq, Repr

/-- A matrix unit (R274, R277): its holder, MCFG, and the accumulators that differ from `init`. -/
structure MatUnit where
  holder : Option Nat
  part : Nat
  ctx : Nat
  mcfg : Nat
  init : Acc80
  acc : Tab Acc80
  /-- the cycle in which a spill under way ends (R288) -/
  spillEnds : Option Nat := none
  deriving DecidableEq, Repr

/-- A context's matrix record at an executor (R276). -/
structure MRecord where
  owner : Nat
  valid : Bool
  spilled : Bool
  spill : Nat
  cfg : Nat
  deriving DecidableEq, Repr

/-- A stepped instruction: SWEEP, MMA or GEN (R88). -/
inductive Stepped where
  | sweep (o : SweepX)
  | mma (o : MmaX)
  | gen (d a b : Reg) (sub : BitVec 3) (imm : BitVec 32)
  deriving DecidableEq, Repr

/-- A stepped instruction under way at an executor (MMA, SWEEP): the row, the instruction, its step and the engine cycles or
lines still to come; `startAt` is the enabled cycle from which the step runs, `begun` whether it has, `ended` that its end is on its way;
`tmp` and `fl` hold what a SWEEP step has gathered, `at_` the address of the row that it sweeps. For the step of an MMA that begins next,
`want` lists the palette lines still to be read, `got` those that have been, each with its content, and `words` the descriptors that named
them (R286). -/
structure StepRun where
  row : Nat
  instr : Stepped
  step : Nat
  left : Nat
  startAt : Nat
  begun : Bool
  ended : Bool
  tmp : Nat
  fl : Nat
  at_ : Nat := 0
  want : List Nat := []
  got : Tab Nat := []
  words : List Word := []
  deriving DecidableEq, Repr

/-- A reduction cell (R45, R298). -/
structure RedCell where
  part : Nat
  acc : Acc80
  inexact : Bool
  deriving DecidableEq, Repr

/-- A request in a rule engine's queue (R307): kind 0 a GEN step, 1 a GTBL, 2 a GHALO strip, 3 a GHALO's sending; the instruction of
a GEN and its step, or the name of the access or strip; `readyAt` is the cycle from which it may begin. -/
structure RuleReq where
  kind : Nat
  row : Nat
  id : Nat
  instr : Option Stepped
  step : Nat
  readyAt : Nat
  deriving DecidableEq, Repr

/-- What a rule engine holds at its studio (R308): an access that has arrived, or a line that an executor's matrix unit would read. -/
inductive RuleHeld where
  | event (t : Timed)
  | line (ex l : Nat)
  deriving DecidableEq, Repr

/-- A rule engine: its queue, whether it works now on the request at its head, and the ranges it keeps from other accesses
(R307, R308). -/
structure RuleEng where
  busy : Bool
  /-- cycles the operation under way still takes, less stalls -/
  left : Nat
  ranges : List (Nat × Nat)
  queue : List RuleReq
  /-- the palette banks, as 32·studio + bank, that each cycle to come claims (R307, log 2) -/
  plan : List (List Nat) := []
  /-- accesses held until the operation ends, in arrival order (R308) -/
  held : List RuleHeld := []
  /-- while what was held is applied: the ranges of the operation that has ended (the model's own) -/
  guard : List (Nat × Nat) := []
  /-- a GEN whose step has ended, while writes to its registers are applied (R89) -/
  edge : Option RuleReq := none
  deriving DecidableEq, Repr

/-- A halo strip of the GHALO named `halo`, on its way to the header at `dst`, with its cells as stored columns, stored rows and codes
(R312); on the way back its cells are gone and `gen` is 1 when it was written. `held`: an operation on its tile keeps or kept it;
`sent`: it has left; `leave`: cycles of the GHALO's reading that are left when it leaves. -/
structure Strip where
  id : Nat
  halo : Nat
  row : Nat
  dir : Nat
  dst : Nat
  gen : Nat
  lines : Nat
  back : Bool
  cells : List (Nat × Nat × Nat)
  held : Bool := false
  sent : Bool := false
  leave : Nat := 0
  deriving DecidableEq, Repr

/-- A GHALO under way (R312): its name, the palette offset of its header, strips still out, the word it will write, and, once it has read
its last line, the cycle before which it does not complete. -/
structure HaloRun where
  id : Nat
  row : Nat
  d : Nat
  hdr : Nat
  left : Nat
  word : Nat
  due : Option Nat := none
  deriving DecidableEq, Repr

/-- A live episode of a join table (R315, R316). -/
structure Episode where
  key : Nat
  recAt : Nat
  order : Nat
  slot : Nat
  deadline : Option Nat
  held : Bool
  releasing : Bool
  deriving DecidableEq, Repr

/-- A configured join table (R314): its descriptor words, GL, LV, live episodes, NEXT by actor, counters by JSTAT's sel, and, while a
purge lets held pushes complete, the rows and registers of the JCFGs that wait for it (R333). -/
structure JoinTable where
  part : Nat
  desc : List Word
  gl : Nat
  lv : Nat
  eps : List Episode
  next : Tab Nat
  counts : Tab Nat
  purge : Option (List (Nat × Nat))
  deriving DecidableEq, Repr

/-- An orphan of an engine's pool (R321). -/
structure Orphan where
  table : Nat
  key : Nat
  step : Nat
  val : Nat
  expiry : Nat
  deriving DecidableEq, Repr

/-- A release of an engine, in the order in which they began (R325, R399): at work, or its push held by a full hierarchy until it is
offered again at `offerAt`. -/
structure Release where
  table : Nat
  key : Nat
  running : Bool
  held : Bool
  offerAt : Nat := 0
  deriving DecidableEq, Repr

/-- A message to a join engine (R319): its words, whether the row waits, the time back, and the peer it goes to. A JCFG or JVER
carries its operation in the first word. -/
structure JoinMsg where
  id : Nat
  row : Nat
  part : Nat
  d : Nat
  handle : Nat
  words : List Nat
  wait : Bool
  back : Nat
  peer : Option Nat
  /-- the peer's answer to a message that has left for it, until its row has it (R320, R383) -/
  answer : Option Nat := none
  deriving DecidableEq, Repr

/-- The governor's and the counters' state of a partition at an executor (R109, R112, R118). -/
structure Gov where
  acc : Nat
  budget : Option Nat
  pending : Option Nat
  lend : Nat
  issued : Nat
  lent : Nat
  gblock : Nat
  forfeit : Nat
  mstall : Nat
  gated : Nat
  demand : Nat
  /-- cycle of the last charge and A_p before its first charge, cycle of the last stall and stalls in it (R118: SLOTR reads what stood at
  the start of its cycle) (the model's own) -/
  chargedAt : Nat
  accBefore : Nat
  stalledAt : Nat
  stalled : Nat
  deriving DecidableEq, Repr

/-- A slot-table image to install (R104): the row that waits, its executor, the table. -/
structure Install where
  row : Nat
  ex : Nat
  d : Nat
  image : List Nat
  deriving DecidableEq, Repr

/-- A cached translation (R190). -/
structure TlbEntry where
  part : Nat
  ctx : Nat
  vpage : Nat
  large : Bool
  dpa : Nat
  fmt : Nat
  geom : Nat
  rights : Nat
  s2rights : Nat
  owner : Nat
  shared : Bool
  mig : Bool
  frame : Nat
  deriving DecidableEq, Repr

/-- What a walk serves when it ends (R191), each with the address it asked for: an access that is held, an instruction that issues again, an
end of a copy, a query with its segment's rights, or a migration to a new frame. -/
inductive WalkFor where
  | access (req : Nat)
  | reissue (row va : Nat)
  | copy (id va need : Nat)
  | query (row d rights va : Nat)
  | migrate (row d gpa va : Nat)
  deriving DecidableEq, Repr

/-- A page walk, queued or under way (R189, R191), and what its reads gave: the entry to cache, or `bad` 1 a page fault at level
`b1`, 2 a fault with cause `b1` and detail `b2`; `seen` is the leaf as FMTQ reports it; `fills` the second-stage entries it used;
`stale` that a TLBINV was issued since it began (R205); `held` that its miss waits at its executor for room in the queue. -/
structure Walk where
  id : Nat
  studio : Nat
  ex : Nat
  row : Nat
  part : Nat
  ctx : Nat
  va : Nat
  need : Nat
  started : Bool
  began : Nat
  serves : List WalkFor
  entry : Option TlbEntry
  seen : Option TlbEntry
  bad : Nat
  b1 : Nat
  b2 : Nat
  fills : List (Nat × Nat)
  stale : Bool
  held : Bool := false
  deriving DecidableEq, Repr

/-- A migration under way (R206): the frames, the leaf, the next line, and the row that waits. -/
structure Migration where
  id : Nat
  row : Nat
  d : Nat
  part : Nat
  ctx : Nat
  va : Nat
  leaf : Nat
  oldBase : Nat
  newBase : Nat
  newGpa : Nat
  size : Nat
  line : Nat
  reading : Option (List Byte)
  deriving DecidableEq, Repr

/-- A forwarding record (R197). -/
structure Forward where
  studio : Nat
  oldGpa : Nat
  oldBase : Nat
  newBase : Nat
  size : Nat
  copied : Nat
  busy : Bool
  part : Nat
  deriving DecidableEq, Repr

/-- A completion of a long instruction (R110): what it writes, the flags it raises, and the fault it ends in, if any. -/
structure Completion where
  writes : List RowWrite
  fl : Nat
  fault : Option FaultRec
  deriving DecidableEq, Repr

/-- A chosen issue (R108): executor, slot, row, whether lent, and why nothing issues (0 an issue; 1 gated; 2 IDLE; 3 blocked;
4 forfeit). -/
structure Todo where
  ex : Nat
  slot : Nat
  row : Nat
  lent : Bool
  why : Nat
  deriving DecidableEq, Repr

/-- A gang switch from the T cycle on (R346): partition (32 for a suspend that was refused), outgoing context, global time T, the first
executor's T cycle, whether the hub has decided, whether SHORT, and the lost cycles as they stood at the decision. -/
structure Switching where
  part : Nat
  out : Nat
  at_ : Nat
  tAt : Nat
  decided : Bool
  short : Bool
  lostAll : Nat
  lostStack : Tab Nat
  deriving DecidableEq, Repr

/-- An answer or note that leaves the module (R380, R382): partition, table entry, kind and words. Kinds: 0 a note to the management
endpoint, 1 a row's note, 2 a copy's piece for a peer, 3 a pair and 4 a reward for a peer; for a host 5 an operation done, 6 access
denied, 7 unsupported, 8 retry; 9 an answer of the conservator, which stays within the module; 10 the status of a peer's reward; 11 a record of
the black box for the management endpoint (R395). For the entry of a peer's operation 5 to 8 count from 64 on. -/
structure HostOut where
  part : Nat
  entry : Nat
  kind : Nat
  words : List Nat
  deriving DecidableEq, Repr

/-- The clock, the free values drawn, and what this cycle still has to issue. -/
structure Clock where
  now : Nat
  /-- counter of free values drawn (the model's own field; log 1) -/
  draws : Nat
  /-- counter of names for messages and records (the model's own) -/
  ids : Nat
  /-- what the cycle still issues; none before its decisions are made (the model's own) -/
  todo : Option (List Todo)
  /-- row whose instruction acts (the model's own) -/
  cur : Nat
  /-- word popped by the acting instruction (R121) (the model's own) -/
  popped : Option Word
  /-- module cycles in which no executor was enabled (R106, R374) -/
  lostAll : Nat
  /-- enabled cycles lost to hops, by stack (R359) -/
  lostStack : Tab Nat
  deriving DecidableEq, Repr

/-- What a 64-byte line carries beside its data (R388). -/
structure Lines where
  /-- poison bits -/
  poison : List Nat
  /-- owner tags -/
  owner : Tab Nat
  /-- errors that no access and no scrub has met yet: 1 one that ECC corrects, 2 one that it only detects (the model's own) -/
  latent : Tab Nat
  deriving DecidableEq, Repr

/-- Rows: metadata and scheduling. -/
structure Rows where
  /-- row-kind bits (R79) -/
  kinds : List Nat
  /-- wiped bits of rows (R92) -/
  wiped : List Nat
  /-- wiped bits of second-tier lines (R369) -/
  wipedLines : List Nat
  /-- instruction counts since the last reset of R342 -/
  icount : Tab Nat
  /-- activations within the refresh window (R392) -/
  activations : Tab Nat
  /-- slots, by executor·32 + slot (R98) -/
  slots : Tab Slot
  /-- cycle of a slot's last issue (R107) -/
  lastIssue : Tab Nat
  /-- activation queues, by executor·32 + partition (R95) -/
  queue : Tab (List Nat)
  /-- spawn pools, most recent first (R84, SPAWN) -/
  pools : Tab (List Nat)
  /-- wake lists, by (executor·32 + partition)·8 + context (R350) -/
  wakes : Tab (List Nat)
  /-- what each waiting or sleeping row waits for -/
  waits : Tab Wait
  /-- completions of long instructions -/
  longs : Tab Completion
  /-- length in bytes of the instruction a waiting row will resume or finish (R145) -/
  lens : Tab Nat
  /-- rows whose long instruction has a channel pop to commit (R121) -/
  popDue : List Nat
  /-- rows whose long instruction will push to their channel: their endpoint is kept (R242) -/
  pushDue : List Nat
  /-- what the hash check of a pending command found (R68) -/
  hashFault : Tab FaultRec
  /-- rows that their energy budget stops at the next boundary (R101): 0, or 1 behind a pending command -/
  budgetStops : Tab Nat
  /-- direct accesses held behind a pending command (R86) -/
  held : List (Nat × Timed)
  /-- writes to a stepped instruction's registers held for its boundary (R89) -/
  stepHeld : List (Nat × Timed)
  /-- rows whose descriptor check is still to be made (R67, R68) -/
  recheck : List Nat
  /-- rows that wait for the root's join answer (R213) -/
  joining : List Nat
  /-- rows that run one STEP (R84) -/
  stepping : List Nat
  /-- name of a queued row's aging, which its entry began (R97) -/
  queuedAt : Tab Nat
  /-- by row that has begun to run: bytes of memory as they stood at its last taken transfer, where they have been overwritten since
  (R51) -/
  oldCode : Tab (Tab Byte)
  /-- start of the watchdog window, in enabled cycles (R341) -/
  windowAt : Tab Nat
  /-- rows whose window has ended without a beat inside an instruction: the watchdog fires at the next boundary (R341, R343) -/
  fired : List Nat
  deriving DecidableEq, Repr

/-- Accesses, translation and wet stores. -/
structure MemSys where
  reqs : Tab Req
  wet : List Wet
  prec : Tab Prec
  floors : Tab Nat
  views : Tab View
  watches : List Watch
  fencex : List FenceX
  tlb : Tab (List TlbEntry)
  tlb2 : Tab (List TlbEntry)
  s2c : Tab (List (Nat × Nat))
  walks : List Walk
  migrations : List Migration
  forwards : List Forward
  deriving DecidableEq, Repr

/-- Notes, channels and racks. -/
structure Msgs where
  fly : List FlyNote
  system : List SysNote
  ends : List Endpoint
  racks : Tab (List RackEntry)
  moves : List RackMove
  rackOps : List RackOp
  heldPush : List HeldPush
  pushes : Nat
  deriving DecidableEq, Repr

/-- Pots, copies, matrix units, reduction cells, sweeps and rule engines. -/
structure Engines where
  pots : List PotReq
  copies : List Copy
  units : Tab MatUnit
  records : Tab MRecord
  mma : Tab StepRun
  /-- by row: its step, waiting for the latch or in it -/
  sweep : Tab StepRun
  /-- rows waiting for the sweep latch, by executor (R401) -/
  sweepQ : Tab (List Nat)
  cells : Tab RedCell
  /-- BSUM pairs on their way: cell key, pair, partition, sender, d, delay back -/
  bsums : Tab (List Int)
  rules : Tab RuleEng
  strips : List Strip
  halos : List HaloRun
  /-- last winner of a palette bank, by studio·32 + bank (R111) -/
  winners : Tab Nat
  /-- tries that a claim has lost (R119), by row, or by 2^28 + (studio·32 + bank)·16 + requester for an engine -/
  tries : Tab Nat
  /-- the copy that a studio's engine served last (R270) -/
  copyTurn : Tab Nat
  /-- by studio: a cycle and the piece slots taken in it (R270) (the model's own) -/
  copySlots : Tab (Nat × Nat)
  deriving DecidableEq, Repr

/-- Join engines (R313 to R329). -/
structure Joins where
  tables : Tab JoinTable
  orphans : Tab (List Orphan)
  releases : Tab (List Release)
  msgs : List JoinMsg
  /-- nanoseconds of ACTIVE at cycle 0 (R318) -/
  active : Nat
  orders : Nat
  /-- last tick acted on, by engine (R318) -/
  ticked : Tab Nat
  /-- cycle of the last message accepted, by engine (R319) -/
  accepted : Tab Nat
  deriving DecidableEq, Repr

/-- Issue state of executors. -/
structure Issue where
  tables : Tab (List Nat)
  installs : List Install
  gov : Tab Gov
  /-- by executor: fetch duty in force (R117) -/
  duty : Tab Nat
  /-- by executor: the budget E in force (R112, R373) -/
  effE : Tab Nat
  /-- demand of the module in the last period (R371) -/
  lastDemand : Nat
  ballast : Bool
  deriving DecidableEq, Repr

/-- Supervision, switches, suspend, layout, hosts, firmware. -/
structure Hub where
  /-- messages kept in drop cloths, by partition·8 + context (R349) -/
  cloths : Tab (List Timed)
  /-- lines of 64 bytes that have spilled from them to the drop-cloth area, by the same keys (R349, R353) -/
  clothLines : Tab Nat
  /-- gang switches from their T cycle until every executor has finished (R346) -/
  switching : List Switching
  /-- global time T of a suspend under way, until its decision, and the first executor's T cycle once it has come (R351) -/
  suspendT : Option Nat
  suspendAt : Option Nat
  /-- partitions and contexts that a suspend switched out (R351) -/
  suspended : List (Nat × Nat)
  /-- save-area words prepared with a layout, by partition (R344, R365) -/
  areas : Tab (List Nat)
  /-- partitions held by a commit under way (R366) -/
  heldParts : List Nat
  /-- journal records, newest first: kind 0 PREP, 1 COMMIT, 2 DONE, the generation, the shadow's hash (R365 to R367) -/
  journal : List (Nat × Nat × Nat)
  lifeCycle : Nat
  /-- measurement log: image digests (R386) -/
  measured : List Nat
  verified : List Nat
  identityKey : Bool
  /-- ring of black-box records, newest first (R395) -/
  blackBox : List (List Nat)
  /-- black-box copies in the module's flash -/
  flash : List (List (List Nat))
  /-- mailbox requests refused -/
  refusals : Nat
  outputs : List HostOut
  /-- operations that wait at the hub for earlier ones of their ordered flow, oldest first: the flow's entry, by partition·8192 + entry,
  and the operation's name (R381) -/
  hostQueue : List (Nat × Nat)
  /-- flows with unacknowledged packets, by partition·8192 + peer entry, or + 4,096 + host entry: the ACTIVE time since which (R383) -/
  unacked : Tab Nat
  /-- alarm asserted and the cycle since which it has been clear (R374) -/
  alarmClear : Option Nat
  /-- stacks in a clock hop and its first cycle (R359) -/
  hops : List (Nat × Nat)
  /-- stacks whose sequencer is under reset, since when and until when (R393) -/
  seqReset : List (Nat × Nat × Nat)
  /-- accesses held at a stack under reset -/
  seqHeld : List (Nat × Timed)
  /-- accesses answered RETRY, by name, until their units issue them again (R393) -/
  retries : List (Nat × Timed)
  /-- global time at cycle 0, in nanoseconds; it grows by the time spent in STILL, in which no module cycle passes (R352, R356) -/
  gtimeBase : Nat
  deriving DecidableEq, Repr

/-- The machine. -/
structure State where
  clk : Clock
  agenda : List Timed
  mem : Memory
  regs : Tab Word
  rows : Rows
  lines : Lines
  ms : MemSys
  msg : Msgs
  eng : Engines
  join : Joins
  iss : Issue
  hub : Hub
  deriving DecidableEq, Repr

/-- Why the machine itself stops. -/
inductive Fault where
  /-- Raised by `step` in PSTATE 0, OFF: no logic is powered and the manual gives no step (R376). Safe: the machine stops
  where the hardware does nothing. -/
  | poweredOff
  deriving DecidableEq, Repr

/-- Why a step is refused. -/
inductive Refusal where
  /-- Raised by `exec` for an instruction that has no meaning yet. Safe. -/
  | notModelled (mnemonic : String)
  deriving DecidableEq, Repr

/-- The canonical form of memory: addresses strictly rising, no listed byte zero. -/
def memWfFrom : Option Nat → Memory → Bool
  | _, [] => true
  | lo, (a, b) :: r =>
    (match lo with
     | none => true
     | some l => l < a) && b != 0 && memWfFrom (some a) r

/-- The canonical form (Memory.wf of the package). -/
def Memory.wf (m : Memory) : Bool := memWfFrom none m

/-- The clock right after reset: cycle 0. -/
def Clock.reset : Clock :=
  { now := 0, draws := 0, ids := 0, todo := none, cur := 0, popped := none, lostAll := 0, lostStack := [] }

/-- Rows right after reset: every row a data row, unwiped, nothing open (R79, R387). -/
def Rows.reset : Rows :=
  { kinds := [], wiped := [], wipedLines := [], icount := [], activations := [], slots := [],
    lastIssue := [], queue := [], pools := [], wakes := [], waits := [], longs := [], lens := [], popDue := [], pushDue := [], hashFault := [], budgetStops := [], held := [], stepHeld := [],
    recheck := [], joining := [], stepping := [], queuedAt := [], oldCode := [], windowAt := [], fired := [] }

/-- No line poisoned, owned or in error after reset (R387). -/
def Lines.reset : Lines := { poison := [], owner := [], latent := [] }

/-- No access, entry, view or translation after reset. -/
def MemSys.reset : MemSys :=
  { reqs := [], wet := [], prec := [], floors := [], views := [], watches := [], fencex := [], tlb := [], tlb2 := [],
    s2c := [], walks := [], migrations := [], forwards := [] }

/-- No message after reset. -/
def Msgs.reset : Msgs :=
  { fly := [], system := [], ends := [], racks := [], moves := [], rackOps := [], heldPush := [], pushes := 0 }

/-- Engines idle after reset. -/
def Engines.reset : Engines :=
  { pots := [], copies := [], units := [], records := [], mma := [], sweep := [], sweepQ := [], cells := [], bsums := [],
    rules := [], strips := [], halos := [], winners := [], tries := [], copyTurn := [], copySlots := [] }

/-- No join table after reset; ACTIVE 0 (log 5). -/
def Joins.reset : Joins :=
  { tables := [], orphans := [], releases := [], msgs := [], active := 0, orders := 0, ticked := [], accepted := [] }

/-- Default slot tables, accumulators 0 (R104, R118). -/
def Issue.reset : Issue := { tables := [], installs := [], gov := [], duty := [], effE := [], lastDemand := 0, ballast := false }

/-- The hubs after reset: no layout, an empty log (R385 to R387). -/
def Hub.reset : Hub :=
  { cloths := [], clothLines := [], switching := [], suspendT := none, suspendAt := none, suspended := [], areas := [], heldParts := [], journal := [], lifeCycle := 0, measured := [], verified := [],
    identityKey := false, blackBox := [], flash := [], refusals := 0, outputs := [], hostQueue := [], unacked := [], alarmClear := none, hops := [],
    seqReset := [], seqHeld := [], retries := [], gtimeBase := 0 }

/-- The module right after reset: PSTATE BRINGUP, every register word at the reset value of its map (`regReset`), memory with
nothing listed, no partition bound (R361, R372, R387). -/
def State.reset : State :=
  { clk := Clock.reset, agenda := [], mem := [], regs := [], rows := Rows.reset, lines := Lines.reset, ms := MemSys.reset, msg := Msgs.reset,
    eng := Engines.reset, join := Joins.reset, iss := Issue.reset, hub := Hub.reset }

end Sys2Proof.Machine
end

