-- ==== Sys2Proof/Machine/Store.lean ====
section
/-!
DEFINITION. Tables, memory bytes, register words, the device physical map and the geometry of the mesh
(R11, R12, R177, R178, R185, R373, R396).
-/
namespace Sys2Proof.Machine

/-! ### Sparse tables and sets -/

/-- The entry of key `k`. -/
def tabGet {α : Type} : Tab α → Nat → Option α
  | [], _ => none
  | (i, v) :: r, k => if i = k then some v else tabGet r k

/-- The entry of key `k`, or `d`. -/
def tabGetD {α : Type} (t : Tab α) (k : Nat) (d : α) : α := (tabGet t k).getD d

/-- The table without key `k`. -/
def tabDel {α : Type} (t : Tab α) (k : Nat) : Tab α := t.filter fun e => e.1 != k

/-- Place an entry before the first greater key. -/
def tabIns {α : Type} : Tab α → Nat → α → Tab α
  | [], k, v => [(k, v)]
  | (i, w) :: r, k, v => if k < i then (k, v) :: (i, w) :: r else (i, w) :: tabIns r k v

/-- The table with `k` mapped to `v`. -/
def tabSet {α : Type} (t : Tab α) (k : Nat) (v : α) : Tab α := tabIns (tabDel t k) k v

/-- The table with entry `k` (default `d`) changed by `f`. -/
def tabUpd {α : Type} (t : Tab α) (k : Nat) (d : α) (f : α → α) : Tab α := tabSet t k (f (tabGetD t k d))

/-- Rising insertion of a number into a set without repeats. -/
def setAdd : List Nat → Nat → List Nat
  | [], k => [k]
  | i :: r, k => if k = i then i :: r else if k < i then k :: i :: r else i :: setAdd r k

/-- A set without `k`. -/
def setDel (l : List Nat) (k : Nat) : List Nat := l.filter fun i => i != k

/-- The first element with `p`, and the others in order. -/
def takeFirst {α : Type} (p : α → Bool) : List α → Option (α × List α)
  | [] => none
  | x :: r => if p x then some (x, r) else (takeFirst p r).map fun y => (y.1, x :: y.2)

/-! ### Memory (R3; canonical form of Memory.wf) -/

/-- What the byte at `a` reads as. -/
def memByte : Memory → Nat → Byte
  | [], _ => 0
  | (i, b) :: r, a => if i = a then b else memByte r a

/-- The memory with byte `a` unlisted. -/
def memDrop (m : Memory) (a : Nat) : Memory := m.filter fun c => c.1 != a

/-- Place a byte before the first greater address. -/
def memIns : Memory → Nat → Byte → Memory
  | [], a, b => [(a, b)]
  | (i, c) :: r, a, b => if a < i then (a, b) :: (i, c) :: r else (i, c) :: memIns r a b

/-- Write one byte; writing zero unlists the address. -/
def memPut (m : Memory) (a : Nat) (b : Byte) : Memory :=
  if b = 0 then memDrop m a else memIns (memDrop m a) a b

/-- Bytes `a .. a+n-1`. -/
def memRead (m : Memory) (a : Nat) : Nat → List Byte
  | 0 => []
  | n + 1 => memByte m a :: memRead m (a + 1) n

/-- Write bytes from `a` upward. -/
def memWrite : Memory → Nat → List Byte → Memory
  | m, _, [] => m
  | m, a, b :: r => memWrite (memPut m a b) (a + 1) r

/-- Zero `n` bytes from `a` upward. -/
def memClear (m : Memory) (a n : Nat) : Memory := m.filter fun c => !(a ≤ c.1 && c.1 < a + n)

/-- The little-endian number in `n` bytes at `a`. -/
def memNat (m : Memory) (a n : Nat) : Nat := natOfBytes (memRead m a n)

/-- Write `n` bytes of a number. -/
def memSetNat (m : Memory) (a n v : Nat) : Memory := memWrite m a (bytesOf n v)

/-! ### The device physical map (R177) -/

/-- What a DPA names. -/
inductive Place where
  | hbm | lpddr | cxl | palette | rowWindow | exPage | ctxRegs | west | east | unmapped
  deriving DecidableEq, Repr

/-- Base of the palettes. -/
def paletteBase : Nat := 0x080000000000
/-- Base of the row control window (R80). -/
def windowBase : Nat := 0x090000000000
/-- Base of the executor register pages. -/
def pageBase : Nat := 0x0A0000000000
/-- Base of the context translation registers (R181). -/
def ctxBase : Nat := 0x0B0000000000
/-- Base of the west hub control window. -/
def westBase : Nat := 0x0C0000000000
/-- Base of the east hub control window. -/
def eastBase : Nat := 0x0C0100000000

/-- The range a DPA lies in (R177). -/
def placeOf (a : Nat) : Place :=
  if a < 0x010000000000 then .hbm
  else if a < 0x020000000000 then .unmapped
  else if a < 0x040000000000 then .lpddr
  else if a < 0x080000000000 then (if a - 0x040000000000 < Config.cxlInstalled then .cxl else .unmapped)
  else if a < 0x080080000000 then .palette
  else if a < 0x090000000000 then .unmapped
  else if a < 0x0A0000000000 then .rowWindow
  else if a < 0x0A0004000000 then .exPage
  else if a < 0x0B0000000000 then .unmapped
  else if a < 0x0B0000100000 then .ctxRegs
  else if a < 0x0C0000000000 then .unmapped
  else if a < 0x0C0100000000 then .west
  else if a < 0x0C0200000000 then .east
  else .unmapped

/-- Whether the address lies in second-tier memory. -/
def isTier2 (a : Nat) : Bool := placeOf a == .lpddr || placeOf a == .cxl

/-! ### Geometry (R11, R12). An executor's number is 32·x + y, the field DPA[39:30]. -/

/-- x of an executor. -/
def exX (e : Nat) : Nat := e / 32
/-- y of an executor. -/
def exY (e : Nat) : Nat := e % 32
/-- The executor at (x, y), coordinates taken modulo 32. -/
def exAt (x y : Nat) : Nat := x % 32 * 32 + y % 32
/-- The home executor of a row identity (R2, R178). -/
def homeOf (row : Nat) : Nat := row / 2 ^ 18
/-- The shaft bank of a row identity (R178). -/
def bankOf (row : Nat) : Nat := row / 2 ^ 13 % 32
/-- The DPA of a row. -/
def rowDpa (row : Nat) : Nat := row * 4096
/-- Stack 4·sy + sx of an executor. -/
def stackOf (e : Nat) : Nat := 4 * (exY e / 8) + exX e / 8
/-- Local index j within the stack. -/
def localOf (e : Nat) : Nat := 8 * (exY e % 8) + exX e % 8
/-- The executor of local index 0 of a stack. -/
def stackHome (st : Nat) : Nat := exAt (8 * (st % 4)) (8 * (st / 4))
/-- Studio 16·sy + sx of an executor. -/
def studioOf (e : Nat) : Nat := 16 * (exY e / 2) + exX e / 2
/-- Member number within the studio. -/
def memberOf (e : Nat) : Nat := exX e % 2 + 2 * (exY e % 2)
/-- Member `m` of a studio. -/
def studioMember (st m : Nat) : Nat := exAt (2 * (st % 16) + m % 2) (2 * (st / 16) + m / 2)
/-- The distance of two coordinates. -/
def gap (a b : Nat) : Nat := if a < b then b - a else a - b
/-- Hops of the X-then-Y route. -/
def hops (e f : Nat) : Nat := gap (exX e) (exX f) + gap (exY e) (exY f)
/-- Stack crossings of that route. -/
def crossings (e f : Nat) : Nat := gap (exX e / 8) (exX f / 8) + gap (exY e / 8) (exY f / 8)
/-- One way of a mesh message, half the distance terms of R185 (R396). -/
def meshWay (e f : Nat) : Nat := 2 * hops e f + 30 * crossings e f
/-- Palette base of a studio (R178). -/
def studioPalette (st : Nat) : Nat := paletteBase + 0x800000 * st
/-- The executor register page (R177). -/
def exPage (e : Nat) : Nat := pageBase + 0x10000 * (32 * exY e + exX e)
/-- Edge executor column of a hub in the mesh row of `e` (R15, R185). -/
def hubWay (e : Nat) (west : Bool) : Nat := 2 * (if west then exX e else 31 - exX e)

/-- The executor at which an HBM, palette, window or register-page address has its home (R12, R80, R177, R218). -/
def addrHome (a : Nat) : Nat :=
  match placeOf a with
  | .hbm => a / 2 ^ 30
  | .rowWindow => (a - windowBase) / 2 ^ 30
  | .palette => studioMember ((a - paletteBase) / 0x800000) 0
  | .exPage => exAt ((a - pageBase) / 0x10000 % 32) ((a - pageBase) / 0x10000 / 32)
  | _ => 0

/-- Half the round trip of R185 from an executor to an address. -/
def oneWay (e a : Nat) : Nat :=
  match placeOf a with
  | .palette =>
    if (a - paletteBase) / 0x800000 = studioOf e then 12
    else 12 + meshWay e (addrHome a)
  | .lpddr => 300
  | .cxl => 300
  | .ctxRegs => 100 + hubWay e true
  | .west => 100 + hubWay e true
  | .east => 100 + hubWay e false
  | _ => 100 + meshWay e (addrHome a)

/-! ### Register words: hub windows, translation registers, register pages -/

/-- The reset value of a register word (R253, R362, R372, R373). A balancing word is kept as 0 until written; `balOf` gives
its default, which depends on the layout (R253). -/
def regReset (a : Nat) : Word :=
  if a = 0x0C0000400000 then 1
  else if pageBase ≤ a && a < pageBase + 0x4000000 && a % 0x10000 == 0x1000 then BitVec.ofNat 64 (512 + 16 * 2 ^ 16)
  else 0

/-- A register word. -/
def regWord (s : State) (a : Nat) : Nat := (tabGetD s.regs a (regReset a)).toNat

/-- Write a register word. -/
def setRegWord (s : State) (a v : Nat) : State := { s with regs := tabSet s.regs a (BitVec.ofNat 64 v) }

/-- A field of a register word. -/
def regBits (s : State) (a lo len : Nat) : Nat := bitsAt (regWord s a) lo len

/-- Write a field of a register word. -/
def setRegBits (s : State) (a lo len v : Nat) : State := setRegWord s a (setBits (regWord s a) lo len v)

/-- Add to a 64-bit counter that wraps. -/
def regAdd (s : State) (a n : Nat) : State := setRegWord s a ((regWord s a + n) % 2 ^ 64)

/-- Add to a 64-bit meter that saturates (R377). -/
def regAddSat (s : State) (a n : Nat) : State := setRegWord s a (min (regWord s a + n) (2 ^ 64 - 1))

/-- The layout record of a partition (R362). -/
def layoutAt (p : Nat) : Nat := 0x0C0000300000 + 0x100 * p
/-- The shadow record. -/
def shadowAt (p : Nat) : Nat := 0x0C0000380000 + 0x100 * p
/-- The supervision block (R344). -/
def supAt (p : Nat) : Nat := 0x0C0000200000 + 0x200 * p
/-- The device power block (R372). -/
def powerAt : Nat := 0x0C0000400000
/-- The rectangle record of a partition (R210). -/
def rectAt (p i : Nat) : Nat := 0x0C0000100000 + 0x100 * p + 8 * i
/-- A context's translation registers (R181). -/
def transAt (p c : Nat) : Nat := ctxBase + 0x1000 * (8 * p + c)
/-- The power word of an executor (R373). -/
def exPower (e : Nat) : Nat := exPage e + 0x1000
/-- The rack words of a partition at an executor (R256). -/
def rackWord (e p off : Nat) : Nat := exPage e + 0x2000 + 0x40 * p + off
/-- A context's energy meter (R362). -/
def meterAt (p c : Nat) : Nat := layoutAt p + 0x40 + 8 * c

/-- The slot set of a partition (R361). -/
def slotSet (s : State) (p : Nat) : Nat := if p < 32 then regBits s (layoutAt p) 0 32 else 0
/-- The bank set of a partition. -/
def bankSet (s : State) (p : Nat) : Nat := if p < 32 then regBits s (layoutAt p) 32 32 else 0
/-- n_p (R112). -/
def slotCount (s : State) (p : Nat) : Nat := popCount 32 (slotSet s p)
/-- The partition that owns slot `i`; 32 when none does. -/
def slotOwner (s : State) (i : Nat) : Nat :=
  ((List.range 32).find? fun p => bitAt (slotSet s p) i).getD 32
/-- The partition that owns bank `q`; 32 when none does. -/
def bankOwner (s : State) (q : Nat) : Nat :=
  ((List.range 32).find? fun p => bitAt (bankSet s p) q).getD 32
/-- The partition a row belongs to. -/
def partOf (s : State) (row : Nat) : Nat := bankOwner s (bankOf row)
/-- The active context of a partition (R344). -/
def activeCtx (s : State) (p : Nat) : Nat := regBits s (supAt p) 0 3
/-- PSTATE (R376). -/
def pstate (s : State) : Nat := regBits s powerAt 0 3

/-- Whether an address lies in the reserved area of partition `p`'s banks (R363). -/
def isReservedRow (s : State) (row : Nat) : Bool :=
  let p := partOf s row
  p < 32 && 8192 - regBits s (layoutAt p + 8) 16 12 ≤ row % 8192

/-- Whether a second-tier address lies in an extent of the partition (R362). -/
def inExtent (s : State) (p a : Nat) : Bool :=
  p < 32 && (List.range 4).any fun e =>
    let w := regWord s (layoutAt p + 0x20 + 8 * e)
    let base := bitsAt w 21 27 * 2 ^ 21
    base ≤ a && a < base + bitsAt w 0 21 * 2 ^ 21

/-- The check of R179 and R363 for an address of any place: whether the partition may reach it. -/
def partMayReach (s : State) (p a : Nat) : Bool :=
  match placeOf a with
  | .hbm => bitAt (bankSet s p) (a / 2 ^ 25 % 32)
  | .rowWindow => bitAt (bankSet s p) (a / 2 ^ 25 % 32)
  | .palette => bitAt (bankSet s p) (a / 2 ^ 18 % 32)
  | .lpddr => inExtent s p a
  | .cxl => inExtent s p a
  | .ctxRegs => (a - ctxBase) / 0x8000 == p
  | _ => true

/-- Whether the address lies in a reserved area (R363). -/
def inReserved (s : State) (a : Nat) : Bool :=
  match placeOf a with
  | .hbm => isReservedRow s (a / 4096)
  | .rowWindow => isReservedRow s ((a - windowBase) / 4096)
  | _ => false

end Sys2Proof.Machine
end

