-- ==== Sys2Proof/Machine/RowState.lean ====
section
/-!
DEFINITION. A thread row's bytes as named fields and registers (R78, R81, R120, R148, R149, R180), its region chain (R101),
its partition, context and privilege (R96, R364).
-/
namespace Sys2Proof.Machine

/-! ### Bytes of a row -/

/-- `n` bytes of a row at an offset, as a number. -/
def rowNat (s : State) (r off n : Nat) : Nat := memNat s.mem (rowDpa r + off) n

/-- Write `n` bytes of a row at an offset. -/
def setRowNat (s : State) (r off n v : Nat) : State := { s with mem := memSetNat s.mem (rowDpa r + off) n v }

/-- A field of a 64-bit word of the control field: offset of its word, lowest bit, width. -/
structure Fld where
  off : Nat
  lo : Nat
  len : Nat
  deriving DecidableEq, Repr

/-- CMD.CODE (R81; all fields below likewise). -/
def fCmdCode : Fld := ⟨0x00, 0, 8⟩
/-- The whole CMD word. -/
def fCmd : Fld := ⟨0x00, 0, 64⟩
/-- The whole STATE word. -/
def fStateWord : Fld := ⟨0x08, 0, 64⟩
/-- STATE.CODE. -/
def fCode : Fld := ⟨0x08, 0, 4⟩
/-- STATE.PEND. -/
def fPend : Fld := ⟨0x08, 4, 1⟩
/-- STATE.CTXOUT. -/
def fCtxOut : Fld := ⟨0x08, 5, 1⟩
/-- STATE.WHY. -/
def fWhy : Fld := ⟨0x08, 8, 4⟩
/-- STATE.LSTAT. -/
def fLstat : Fld := ⟨0x08, 16, 3⟩
/-- STATE.ATAG. -/
def fAtag : Fld := ⟨0x08, 32, 32⟩
/-- PC. -/
def fPc : Fld := ⟨0x10, 0, 40⟩
/-- TARGET. -/
def fTarget : Fld := ⟨0x18, 0, 40⟩
/-- The whole VT word. -/
def fVt : Fld := ⟨0x20, 0, 64⟩
/-- VT.PHASE. -/
def fPhase : Fld := ⟨0x20, 0, 32⟩
/-- VT.LEAD. -/
def fLead : Fld := ⟨0x20, 32, 4⟩
/-- VT.SCOPE. -/
def fScope : Fld := ⟨0x20, 36, 5⟩
/-- LOOPn.END. -/
def fLoopEnd (n : Nat) : Fld := ⟨0x28 + 8 * n, 0, 40⟩
/-- LOOPn.SPAN. -/
def fLoopSpan (n : Nat) : Fld := ⟨0x28 + 8 * n, 40, 12⟩
/-- LOOPn.ARMED. -/
def fLoopArmed (n : Nat) : Fld := ⟨0x28 + 8 * n, 52, 1⟩
/-- COUNTS.C0, COUNTS.C1. -/
def fCount (n : Nat) : Fld := ⟨0x38, 32 * n, 32⟩
/-- The whole COUNTS word. -/
def fCounts : Fld := ⟨0x38, 0, 64⟩
/-- The whole PROGRESS word. -/
def fProgress : Fld := ⟨0x40, 0, 64⟩
/-- PROGRESS.STEP. -/
def fStep : Fld := ⟨0x40, 0, 32⟩
/-- PROGRESS.MAJOR. -/
def fMajor : Fld := ⟨0x40, 32, 8⟩
/-- PROGRESS.VALID. -/
def fValid : Fld := ⟨0x40, 40, 1⟩
/-- The whole FAULT word. -/
def fFault : Fld := ⟨0x48, 0, 64⟩
/-- FAULT.CAUSE. -/
def fCause : Fld := ⟨0x48, 0, 8⟩
/-- FAULT.DETAIL. -/
def fDetail : Fld := ⟨0x48, 8, 8⟩
/-- FAULT.NUM. -/
def fFaultNum : Fld := ⟨0x48, 32, 32⟩
/-- The whole FAULTADDR word. -/
def fFaultAddr : Fld := ⟨0x50, 0, 64⟩
/-- SCHED.PRIO. -/
def fPrio : Fld := ⟨0x58, 0, 6⟩
/-- SCHED.EPRIO. -/
def fEprio : Fld := ⟨0x58, 6, 6⟩
/-- SCHED.HOLD. -/
def fHold : Fld := ⟨0x58, 12, 11⟩
/-- SCHED.REGION. -/
def fRegion : Fld := ⟨0x58, 23, 41⟩
/-- LINKS.SUP. -/
def fSup : Fld := ⟨0x60, 0, 28⟩
/-- LINKS.PARENT. -/
def fParent : Fld := ⟨0x60, 28, 28⟩
/-- LINKS.DEFICIT. -/
def fDeficit : Fld := ⟨0x60, 56, 6⟩
/-- LINKS.ENG. -/
def fEng : Fld := ⟨0x60, 62, 1⟩
/-- LINKS.SUPV. -/
def fSupv : Fld := ⟨0x60, 63, 1⟩
/-- INBOX.HEAD. -/
def fHead : Fld := ⟨0x68, 0, 4⟩
/-- INBOX.TAIL. -/
def fTail : Fld := ⟨0x68, 4, 4⟩
/-- INBOX.DOWN. -/
def fDown : Fld := ⟨0x68, 8, 28⟩
/-- MISC.SRST. -/
def fSrst : Fld := ⟨0x70, 0, 32⟩
/-- MISC.FLAGS. -/
def fFlags : Fld := ⟨0x70, 32, 5⟩
/-- MISC.BEATS. -/
def fBeats : Fld := ⟨0x70, 40, 8⟩
/-- MISC.PERSIST. -/
def fPersist : Fld := ⟨0x70, 48, 1⟩
/-- MISC.CHAN. -/
def fChan : Fld := ⟨0x70, 49, 1⟩
/-- MISC.MXE. -/
def fMxe : Fld := ⟨0x70, 50, 1⟩
/-- MISC.EXEMPT. -/
def fExempt : Fld := ⟨0x70, 51, 1⟩
/-- MISC.PRIV. -/
def fPriv : Fld := ⟨0x70, 52, 1⟩
/-- ACCOUNT. -/
def fAccount : Fld := ⟨0x78, 0, 64⟩

/-- Read a field of a row. -/
def getF (s : State) (r : Nat) (f : Fld) : Nat := bitsAt (rowNat s r f.off 8) f.lo f.len

/-- Write a field of a row. -/
def setF (s : State) (r : Nat) (f : Fld) (v : Nat) : State :=
  setRowNat s r f.off 8 (setBits (rowNat s r f.off 8) f.lo f.len v)

/-- The reserved bits of word `i` of the control field, as a mask of the bits that exist (R81). -/
def ctlMask (i : Nat) : Nat :=
  match i with
  | 0 => 0xFFFFFFFF0000FFFF
  | 1 => 0xFFFFFFFF00070F3F
  | 2 => 0x000000FFFFFFFFFF
  | 3 => 0x000000FFFFFFFFFF
  | 4 => 0x000001FFFFFFFFFF
  | 5 => 0x001FFFFFFFFFFFFF
  | 6 => 0x001FFFFFFFFFFFFF
  | 8 => 0x000001FFFFFFFFFF
  | 9 => 0xFFFFFFFF0000FFFF
  | 10 => 0x0007FFFFFFFFFFFF
  | 13 => 0x0000000FFFFFFFFF
  | 14 => 0x001FFF1FFFFFFFFF
  | _ => 0xFFFFFFFFFFFFFFFF

/-- The bits of word `i` that software may store (R81): the others keep what the hardware holds. -/
def storeMask (i : Nat) (priv closed : Bool) : Nat :=
  match i with
  | 0 => 0
  | 1 => 0
  | 2 => if closed then 0x000000FFFFFFFFFF else 0
  | 3 => if closed then 0x000000FFFFFFFFFF else 0
  | 4 => if closed && priv then 0x000001FFFFFFFFFF else 0
  | 8 => 0
  | 9 => 0x000000000000FFFF
  | 11 => if priv then 0xFFFFFFFFFFFFF03F else 0x00000000007FF03F
  | 12 => if priv then 0xFFFFFFFFFFFFFFFF else 0x7FFFFFFFF0000000
  | 14 => if priv then 0x001F001FFFFFFFFF else 0x0003001FFFFFFFFF
  | 15 => if priv then 0xFFFFFFFFFFFFFFFF else 0
  | _ => ctlMask i

/-! ### Registers -/

/-- The stored word of scalar register `i` (R120). -/
def rawS (s : State) (r i : Nat) : Word := BitVec.ofNat 64 (rowNat s r (0x100 + 8 * i) 8)

/-- Vector register `i` (R148). -/
def getV (s : State) (r i : Nat) : Nat := rowNat s r (0x200 + 64 * i) 64

/-- Mask register `i`; k0 reads as all ones (R78, R149). -/
def getK (s : State) (r i : Nat) : Nat := if i = 0 then 2 ^ 64 - 1 else rowNat s r (0x600 + 8 * i) 8

/-- A segment register's two words; `bad` marks KIND 7 or a nonzero reserved field (R6, R180, R183). -/
def segOf (w0 w1 : Nat) : Seg :=
  { base := bitsAt w0 0 48, kind := bitsAt w0 48 3, canR := bitAt w0 51, canW := bitAt w0 52, canX := bitAt w0 53,
    fmt := bitsAt w0 54 5, limit := bitsAt w1 0 40,
    bad := bitsAt w0 48 3 == 7 || bitsAt w0 59 5 != 0 || bitsAt w1 40 24 != 0 }

/-- The words of segment register `n` of a row. -/
def segWords (s : State) (r n : Nat) : Nat × Nat := (rowNat s r (0x80 + 16 * n) 8, rowNat s r (0x88 + 16 * n) 8)

/-- Segment register `n` of a row. -/
def getSeg (s : State) (r n : Nat) : Seg := segOf (segWords s r n).1 (segWords s r n).2

/-- The segment that `row:` acts as (R182). -/
def rowSeg : Seg :=
  { base := 0, kind := 0, canR := true, canW := true, canX := false, fmt := 0, limit := 0x1000, bad := false }

/-- OR floating-point flags into MISC.FLAGS (R28). -/
def orFlags (s : State) (r n : Nat) : State := if n = 0 then s else setF s r fFlags (getF s r fFlags ||| n)

/-! ### Kind, state, partition, context, privilege -/

/-- Whether a row is a thread row (R79). -/
def isThread (s : State) (r : Nat) : Bool := s.rows.kinds.contains r

/-- STATE.CODE of a thread row, 0 DATA for a data row (R83). -/
def codeOf (s : State) (r : Nat) : Nat := if isThread s r then getF s r fCode else 0

/-- Whether a thread row is open: RUNNING or WAITING (R83). -/
def isOpen (s : State) (r : Nat) : Bool := codeOf s r == 3 || codeOf s r == 4

/-- Set STATE.CODE and STATE.WHY. -/
def setCode (s : State) (r code why : Nat) : State := setF (setF s r fCode code) r fWhy why

/-- MISC.PRIV (R96). -/
def isPriv (s : State) (r : Nat) : Bool := getF s r fPriv == 1

/-! ### Region chains (R101) -/

/-- Whether a region block's address and reserved fields are in order. -/
def blockOk (s : State) (p a : Nat) : Bool :=
  (placeOf a == .hbm || isTier2 a) && partMayReach s p a && !inReserved s a &&
  bitsAt (memNat s.mem a 8) 0 7 == 0 && bitsAt (memNat s.mem a 8) 48 16 == 0 &&
  bitsAt (memNat s.mem (a + 8) 8) 10 6 == 0 && bitsAt (memNat s.mem (a + 8) 8) 29 3 == 0 &&
  bitsAt (memNat s.mem (a + 8) 8) 35 29 == 0 && bitsAt (memNat s.mem (a + 0x30) 8) 2 62 == 0 &&
  bitsAt (memNat s.mem (a + 0x38) 8) 48 16 == 0 && bitsAt (memNat s.mem (a + 0x48) 8) 28 36 == 0 &&
  bitsAt (memNat s.mem (a + 0x50) 8) 28 36 == 0 && memNat s.mem (a + 0x60) 32 == 0

/-- The chain from a REGION or PARENT field, at most `fuel` blocks; none when malformed. -/
def chainFrom (s : State) (p : Nat) : Nat → Nat → Option (List Nat)
  | 0, reg => if reg = 0 then some [] else none
  | n + 1, reg =>
    if reg = 0 then some []
    else if blockOk s p (reg * 128) then
      (chainFrom s p n (bitsAt (memNat s.mem (reg * 128) 8) 7 41)).map fun l => reg * 128 :: l
    else none

/-- The region chain of a row. -/
def chainOf (s : State) (r : Nat) : Option (List Nat) := chainFrom s (partOf s r) 16 (getF s r fRegion)

/-- The block of a row, 0 when it names none. -/
def blockOf (s : State) (r : Nat) : Nat := getF s r fRegion * 128

/-- Whether the block a row names is sound itself, whatever its ancestors are: LIVE and EUSED are kept there (R101). -/
def blockSound (s : State) (r : Nat) : Bool := blockOf s r != 0 && blockOk s (partOf s r) (blockOf s r)

/-- The effective value of the field with OVR bit `i`, at word `off`, bits `lo`, `len`; none on a malformed chain. -/
def effField (s : State) (r i off lo len dflt : Nat) : Option Nat :=
  (chainOf s r).map fun l =>
    match l.find? fun a => bitAt (memNat s.mem (a + 8) 8) i with
    | some a => bitsAt (memNat s.mem (a + off) 8) lo len
    | none => dflt

/-- CEIL, default 63. -/
def effCeil (s : State) (r : Nat) : Option Nat := effField s r 0 8 16 6 63
/-- POLICY, default 0. -/
def effPolicy (s : State) (r : Nat) : Option Nat := effField s r 1 8 22 2 0
/-- SCOPE, default 0. -/
def effScope (s : State) (r : Nat) : Option Nat := effField s r 2 8 24 5 0
/-- QUOTA, default unlimited. -/
def effQuota (s : State) (r : Nat) : Option Nat := effField s r 3 0x10 0 32 0
/-- EBUDGET, default unlimited. -/
def effBudget (s : State) (r : Nat) : Option Nat := effField s r 4 0x18 0 64 0
/-- ILIMIT, default none. -/
def effIlimit (s : State) (r : Nat) : Option Nat := effField s r 5 0x28 0 64 0
/-- CADDR, default none. -/
def effCaddr (s : State) (r : Nat) : Option Nat := effField s r 6 0x38 0 48 0
/-- CVAL. -/
def effCval (s : State) (r : Nat) : Option Nat := effField s r 6 0x40 0 64 0
/-- PAGER, default none. -/
def effPager (s : State) (r : Nat) : Option Nat := effField s r 7 0x48 0 28 0
/-- SUPV, default none. -/
def effSupv (s : State) (r : Nat) : Option Nat := effField s r 8 0x50 0 28 0
/-- WPERS, default none. -/
def effWpers (s : State) (r : Nat) : Option Nat := effField s r 9 0x58 0 64 0

/-- TSTATE of the block the row names (R254, R336); 0 without a block. -/
def tstateOf (s : State) (r : Nat) : Nat :=
  if blockOf s r = 0 then 0 else bitsAt (memNat s.mem (blockOf s r + 0x30) 8) 0 2

/-- Write TSTATE of the block the row names. -/
def setTstate (s : State) (r v : Nat) : State :=
  if blockOf s r = 0 then s
  else { s with mem := memSetNat s.mem (blockOf s r + 0x30) 8 (setBits (memNat s.mem (blockOf s r + 0x30) 8) 0 2 v) }

/-- The row's context (R364). -/
def ctxOf (s : State) (r : Nat) : Nat :=
  if blockOf s r = 0 then 0 else bitsAt (memNat s.mem (blockOf s r + 8) 8) 32 3

/-- Lines whose `n` bytes at `a` context `c` of partition `p` has written (R388): the last writer owns them, and a write of a whole line
clears its poison and any error in it. -/
def Lines.stamp (x : Lines) (a n p c : Nat) : Lines :=
  (List.range ((a + n - 1) / 64 + 1 - a / 64)).foldl (fun x i =>
    let l := a / 64 + i
    let whole := a ≤ 64 * l && 64 * l + 64 ≤ a + n
    { owner := if p * 8 + c = 0 then tabDel x.owner l else tabSet x.owner l (p * 8 + c)
      poison := if whole then setDel x.poison l else x.poison
      latent := if whole then tabDel x.latent l else x.latent }) x

/-- Mark the lines of a span as last written by (p, c) (R388). -/
def stampLines (s : State) (a n p c : Nat) : State := { s with lines := s.lines.stamp a n p c }

/-- Mark bytes of a row as written by itself. -/
def stampOwn (s : State) (r off n : Nat) : State := stampLines s (rowDpa r + off) n (partOf s r) (ctxOf s r)

/-- Store scalar register word `i`. -/
def setRawS (s : State) (r i : Nat) (v : Word) : State := setRowNat (stampOwn s r (0x100 + 8 * i) 8) r (0x100 + 8 * i) 8 v.toNat

/-- Write vector register `i`. -/
def setV (s : State) (r i v : Nat) : State := setRowNat (stampOwn s r (0x200 + 64 * i) 64) r (0x200 + 64 * i) 64 v

/-- Write mask register `i`; writes to k0 are discarded (R149). -/
def setK (s : State) (r i v : Nat) : State :=
  if i = 0 then s else setRowNat (stampOwn s r (0x600 + 8 * i) 8) r (0x600 + 8 * i) 8 v

/-- LIVE of the block the row names, changed by `f` (R101). A row that retires, or is disarmed, while the block it names is itself
malformed leaves LIVE as it stands: R84 states no exception (DESIGN CHOICE, log 51). -/
def updLive (s : State) (r : Nat) (f : Nat → Nat) : State :=
  if !blockSound s r then s
  else
    let a := blockOf s r + 0x10
    { s with mem := memSetNat s.mem a 8 (setBits (memNat s.mem a 8) 32 32 (f (bitsAt (memNat s.mem a 8) 32 32))) }

/-- LIVE of the block the row names. -/
def liveOf (s : State) (r : Nat) : Nat :=
  if blockOf s r = 0 then 0 else bitsAt (memNat s.mem (blockOf s r + 0x10) 8) 32 32

/-- Whether the row names a killed block (R336). -/
def isKilled (s : State) (r : Nat) : Bool := (chainOf s r).isSome && tstateOf s r == 3

/-- Whether the row's context is the active one of its partition (R346). -/
def ctxActive (s : State) (r : Nat) : Bool :=
  activeCtx s (partOf s r) == ctxOf s r && !(s.hub.suspended.any fun x => x.1 == partOf s r)

/-- Whether the context is enabled and has not ended (R364, R339). -/
def ctxLive (s : State) (p c : Nat) : Bool :=
  (bitAt (regBits s (layoutAt p + 8) 0 8) c || (c == 0 && slotSet s p != 0)) && regBits s (supAt p + 0x118 + 0x20 * c) 24 3 == 0

/-- The supervisor of a row (R336): LINKS.SUP, else the region's SUPV; none on a malformed chain without LINKS.SUP. -/
def supervisorOf (s : State) (r : Nat) : Nat :=
  if getF s r fSupv = 1 then getF s r fSup else (effSupv s r).getD 0

/-! ### Slots -/

/-- The slot key (executor · 32 + slot) a row is open in, opening in, or retained in. -/
def slotOf (s : State) (r : Nat) : Option Nat :=
  (s.rows.slots.find? fun e => e.2.row == r).map Prod.fst

/-- The row's own executor. -/
def exOf (r : Nat) : Nat := homeOf r

end Sys2Proof.Machine
end

