-- ==== Sys2Proof/Machine/Segments.lean ====
section
/-!
DEFINITION. From a segment and an offset to an address: the checks of R183 in their order, the address forms of R182, and
translation (R187 to R190). A walk's answer is a function of the tables as they stand; what it costs is kept beside it.
-/
namespace Sys2Proof.Machine

/-- Fault causes (R335). -/
def cILLOP : Nat := 1
/-- SEG. -/
def cSEG : Nat := 2
/-- RIGHTS. -/
def cRIGHTS : Nat := 3
/-- ALIGN. -/
def cALIGN : Nat := 4
/-- PRIV. -/
def cPRIV : Nat := 5
/-- SCOPE. -/
def cSCOPE : Nat := 6
/-- MXOWN. -/
def cMXOWN : Nat := 7
/-- ENCHASH. -/
def cENCHASH : Nat := 8
/-- ARITH. -/
def cARITH : Nat := 9
/-- WATCHDOG. -/
def cWATCHDOG : Nat := 10
/-- TRAP. -/
def cTRAP : Nat := 11
/-- BUS. -/
def cBUS : Nat := 12

/-- The address of the instruction at PC, with sg0's kind (R335). -/
def instrAddr (s : State) (r : Nat) : Nat × Nat :=
  let g := getSeg s r 0
  ((g.base + getF s r fPc) % 2 ^ 48, g.kind)

/-- A fault that names the instruction (R335). -/
def instrFault (s : State) (r cause detail : Nat) : FaultRec :=
  ⟨cause, detail, (instrAddr s r).1, (instrAddr s r).2⟩

/-- What an access asks of its segment: kinds accepted (bit per KIND), rights, size and alignment in bytes. -/
structure Need where
  kinds : Nat := 0x7F
  rd : Bool := false
  wr : Bool := false
  ex : Bool := false
  size : Nat := 8
  align : Nat := 1
  deriving DecidableEq, Repr

/-- The address that offset `o` of a segment reaches by KIND, or none when it leaves the range (R182). -/
def segReach (r : Nat) (g : Seg) (o n : Nat) : Option Nat :=
  let a := g.base + o
  let e := homeOf r
  match g.kind with
  | 0 => if a + n ≤ 0x1000 then some (rowDpa r + a) else none
  | 1 => if a + n ≤ 2 ^ 30 then some (e * 2 ^ 30 + a) else none
  | 2 =>
    let ok := fun x => x < 0x10000000000 || (paletteBase ≤ x && x < 2 ^ 48)
    if ok a && ok (a + n - 1) then some a else none
  | 3 =>
    if a < 2 ^ 40 then
      some (exAt (exX e + bitsAt a 35 5) (exY e + bitsAt a 30 5) * 2 ^ 30 + bitsAt a 0 30)
    else none
  | 4 => if a + n ≤ 2 ^ 48 then some a else none
  | 5 => if a + n ≤ 0x800000 then some (studioPalette (studioOf e) + a) else none
  | 6 =>
    if 0x20000000000 ≤ a && a + n ≤ 0x80000000000 then some a else none
  | _ => none

/-- What FAULTADDR.ADDR holds for an access (R183): BASE + o, or for MESHR the DPA reached. -/
def segAddr (r : Nat) (g : Seg) (o : Int) (n : Nat) : Nat :=
  if g.kind = 3 ∧ 0 ≤ o then (segReach r g o.toNat n).getD (lowBits 48 (g.base + o)) else lowBits 48 (g.base + o)

/-- The first six checks of R183: an address, or a virtual address for KIND 4, or the fault. -/
def segChecks (s : State) (r : Nat) (g : Seg) (o : Int) (q : Need) : Except FaultRec Nat :=
  let fa := segAddr r g o q.size
  if g.bad then .error (instrFault s r cILLOP 0)
  else if (g.base + o) % (q.align : Int) ≠ 0 then .error ⟨cALIGN, 0, fa, g.kind⟩
  else if o < 0 ∨ (g.limit : Int) < o + q.size then .error ⟨cSEG, 0x01, fa, g.kind⟩
  else if bitAt q.kinds g.kind = false then .error ⟨cSEG, 0x02, fa, g.kind⟩
  else match segReach r g o.toNat q.size with
    | none => .error ⟨cSEG, 0x03, fa, g.kind⟩
    | some a =>
      if (q.rd && !g.canR) || (q.wr && !g.canW) || (q.ex && !g.canX) then .error ⟨cRIGHTS, 0x10, fa, g.kind⟩
      else .ok a

/-- Bytes of a table's area (R315): entries of 64 bytes, and an actor array under ORDER 1. -/
def areaBytes (d : List Word) : Nat :=
  let w := (d.getD 0 0).toNat
  64 * 2 ^ bitsAt w 48 5 + (if bitAt w 54 then 4 * 65536 else 0)

/-- Whether `n` bytes at an address meet the area of a configured join table (R315). -/
def meetsJoinArea (s : State) (a n : Nat) : Bool :=
  let d := if placeOf a == .rowWindow then a - windowBase else a
  s.join.tables.any fun t =>
    let base := bitsAt ((t.2.desc.getD 0 0).toNat) 0 48
    base < d + n && d < base + areaBytes t.2.desc

/-- Whether an address lies in the area of a configured join table (R315). -/
def inJoinArea (s : State) (a : Nat) : Bool := meetsJoinArea s a 1

/-- The last checks of R183 on a DPA: partition, reserved and join areas, mapping, privileged windows. The result is cause and
detail. -/
def dpaChecks (s : State) (p : Nat) (priv write : Bool) (a : Nat) : Option (Nat × Nat) :=
  if !partMayReach s p a then some (cRIGHTS, 0x11)
  else if inReserved s a then some (cRIGHTS, 0x16)
  else if inJoinArea s a then some (cRIGHTS, 0x15)
  else match placeOf a with
    | .unmapped => some (cBUS, 0x20)
    | .west =>
      -- the note range of the host endpoints is reached by NOTE only (R382)
      if 0x0C0080000000 ≤ a && a < 0x0C0080800000 then some (cSEG, 0x03)
      else if priv then none else some (cRIGHTS, 0x14)
    | .east => if priv then none else some (cRIGHTS, 0x14)
    | .exPage => if priv || !write then none else some (cRIGHTS, 0x14)
    | _ => none

/-! ### Migrating pages (R196, R197) -/

/-- The memory address behind a control-window address (R80). -/
def strip (a : Nat) : Nat := if placeOf a = .rowWindow then a - windowBase else a

/-- What the forwarding records say of an address (R196, R197). -/
inductive Fwd where
  | here
  | moved (a : Nat)
  | busy
  deriving DecidableEq, Repr

/-- The state of an address's line under one record (R196): copied lines are forwarded, the line being copied is held. An address of the
control window names the memory behind it, and stays in the window where the new frame lies in a row (R80). -/
def forwardOne (s : State) (a : Nat) : Fwd :=
  let d := strip a
  match s.ms.forwards.find? fun f => f.oldBase ≤ d && d < f.oldBase + f.size with
  | none => .here
  | some f =>
    let l := (d - f.oldBase) / 64
    let b := f.newBase + (d - f.oldBase)
    if l < f.copied then .moved (if placeOf a = .rowWindow ∧ placeOf b = .hbm then windowBase + b else b)
    else if l = f.copied ∧ f.busy then .busy else .here

/-- Follow the records until none forwards the address further: a new frame may itself have moved since (R197). -/
def forwardFrom (s : State) : Nat → Nat → Fwd
  | 0, a => .moved a
  | n + 1, a =>
    match forwardOne s a with
    | .moved b => forwardFrom s n b
    | .busy => .busy
    | .here => .moved a

/-- The state of an address's line under the migrations of its page (R196, R197). -/
def forwardOf (s : State) (a : Nat) : Fwd :=
  match forwardOne s a with
  | .moved b => forwardFrom s s.ms.forwards.length b
  | x => x

/-- Where an address's bytes stand now; the line being copied still stands in its old frame (R196). -/
def movedTo (s : State) (a : Nat) : Nat :=
  match forwardOf s a with
  | .moved b => b
  | _ => a

/-! ### Translation -/

/-- What a walk or a cached entry answers. -/
inductive Trans where
  | hit (dpa : Nat) (e : TlbEntry)
  | page (level : Nat)
  | fault (cause detail : Nat)
  deriving DecidableEq, Repr

/-- Cost in cycles of one of the walker's reads (R185): the walker stands at member 0 of the studio. -/
def walkRead (studio a : Nat) : Nat :=
  if isTier2 a then 600
  else if studioOf (addrHome a) = studio then 200
  else 200 + 2 * meshWay (studioMember studio 0) (addrHome a)

/-- The running account of a walk: cycles, the second-stage entries it used, the last one first (key p·2^22 + frame, word), and the
addresses it has read. -/
structure WalkAcc where
  cost : Nat
  fills : List (Nat × Nat)
  reads : List Nat := []
  deriving DecidableEq, Repr

/-- A second-stage lookup (R189 `s2`): the DPA and the entry's W and X, or cause and detail. R190 does not say how
its entries are tagged: here by partition and frame, so that the contexts of a partition share them (DESIGN CHOICE, log 76). -/
def s2Look (s : State) (studio p c gpa : Nat) (w : WalkAcc) : WalkAcc × Except (Nat × Nat) (Nat × Nat) :=
  let f := bitsAt gpa 21 22
  let at_ := bitsAt (regWord s (transAt p c + 8)) 3 45 * 8 + 8 * f
  if bitsAt (regWord s (transAt p c + 0x10)) 0 23 ≤ f then (w, .error (cRIGHTS, 0x12))
  else
    let cached := (tabGetD s.ms.s2c studio []).find? fun x => x.1 == p * 2 ^ 22 + f
    let here := w.fills.find? fun x => x.1 == p * 2 ^ 22 + f
    let e := match cached with
      | some x => x.2
      | none => memNat s.mem at_ 8
    let w' : WalkAcc :=
      { cost := w.cost + (if cached.isSome || here.isSome then 0 else walkRead studio at_), fills := (p * 2 ^ 22 + f, e) :: w.fills
        reads := if cached.isSome || here.isSome then w.reads else at_ :: w.reads }
    if !partMayReach s p at_ then (w, .error (cRIGHTS, 0x11))
    else if bitsAt e 3 18 ≠ 0 ∨ bitsAt e 48 16 ≠ 0 then (w', .error (cILLOP, 0))
    else if !bitAt e 0 then (w', .error (cRIGHTS, 0x12))
    else (w', .ok (bitsAt e 21 27 * 2 ^ 21 + bitsAt gpa 0 21, bitsAt e 0 3))

/-- Rights word as FMTQ gives it: bit 0 R, bit 1 W, bit 2 X of leaf and second stage; V of the second stage allows reads (R188, R204). -/
def entryRights (e : TlbEntry) : Nat := e.rights &&& e.s2rights

/-- What an access with `need` (0 read, 1 write, 2 fetch, 3 atomic) gets from a valid translation (R189, R190). -/
def entryUse (e : TlbEntry) (c need va : Nat) : Trans :=
  let off := va % (if e.large then 2 ^ 21 else 2 ^ 16)
  if e.owner ≠ c ∧ e.shared = false then .fault cRIGHTS 0x13
  else if ((need == 0 || need == 3) && !bitAt e.rights 0) || ((need == 1 || need == 3) && !bitAt e.rights 1)
      || (need == 2 && !bitAt e.rights 2) then .page 4
  else if ((need == 1 || need == 3) && !bitAt e.s2rights 1) || (need == 2 && !bitAt e.s2rights 2) then .fault cRIGHTS 0x12
  else .hit (e.dpa + off) e

/-- One directory read (R189): entry word, or what ends the walk. The walk's reads are checked as every access is (R179, R315, R363),
and forwarded as every access is (R197). -/
def dirRead (s : State) (studio p c gpa idx : Nat) (w : WalkAcc) : WalkAcc × Except (Nat × Nat) Nat :=
  match s2Look s studio p c gpa w with
  | (w, .error x) => (w, .error x)
  | (w, .ok (a, _)) =>
    let a := a + 8 * idx
    match dpaChecks s p false false a with
    | some x => (w, .error x)
    | none => ({ w with cost := w.cost + walkRead studio a, reads := movedTo s a :: w.reads }, .ok (memNat s.mem (movedTo s a) 8))

/-- The guest physical address of a leaf's page. -/
def leafGpa (e : Nat) (large : Bool) : Nat := if large then bitsAt e 42 22 * 2 ^ 21 else bitsAt e 37 27 * 2 ^ 16

/-- A leaf's fields, without its frame's second stage. -/
def leafSeen (p c va e : Nat) (large : Bool) : TlbEntry :=
  { part := p, ctx := c, vpage := if large then va / 2 ^ 21 else va / 2 ^ 16, large := large, dpa := 0,
    fmt := bitsAt e 8 5, geom := bitsAt e 13 2, rights := bitsAt e 1 3, s2rights := 0,
    owner := bitsAt e 4 3, shared := bitAt e 7, mig := bitAt e 15, frame := bitsAt (leafGpa e large) 21 22 }

/-- The leaf's translation, its frame looked up for the data page. -/
def leafEntry (s : State) (studio p c va e : Nat) (large : Bool) (w : WalkAcc) : WalkAcc × Except (Nat × Nat) TlbEntry :=
  match s2Look s studio p c (leafGpa e large) w with
  | (w, .error x) => (w, .error x)
  | (w, .ok (a, s2)) => (w, .ok { leafSeen p c va e large with dpa := a, s2rights := s2 })

/-- The outcome of a walk: cycles and second-stage fills, the entry to cache, the valid leaf as FMTQ reports it (R204), the
leaf's address, and the answer. -/
structure WalkOut where
  acc : WalkAcc
  entry : Option TlbEntry
  seen : Option TlbEntry
  leaf : Nat
  ans : Trans
  deriving DecidableEq, Repr

/-- A walk for `va` of context `c` of partition `p` by a studio's walker (R189). -/
def walkNow (s : State) (studio p c va need : Nat) : WalkOut :=
  let stop := fun (w : WalkAcc) (t : Trans) => (⟨w, none, none, 0, t⟩ : WalkOut)
  let w : WalkAcc := { cost := 0, fills := [] }
  if regBits s (transAt p c) 0 1 = 0 then stop w (.fault cSEG 0x02)
  else match dirRead s studio p c (regBits s (transAt p c) 12 31 * 2 ^ 12) (bitsAt va 39 9) w with
  | (w, .error (a, b)) => stop w (.fault a b)
  | (w, .ok e1) =>
  if bitsAt e1 1 10 ≠ 0 ∨ bitsAt e1 43 21 ≠ 0 then stop w (.fault cILLOP 0)
  else if !bitAt e1 0 then stop w (.page 1)
  else match dirRead s studio p c (bitsAt e1 11 32 * 2 ^ 11) (bitsAt va 31 8) w with
  | (w, .error (a, b)) => stop w (.fault a b)
  | (w, .ok e2) =>
  if bitsAt e2 1 10 ≠ 0 ∨ bitsAt e2 43 21 ≠ 0 then stop w (.fault cILLOP 0)
  else if !bitAt e2 0 then stop w (.page 2)
  else match dirRead s studio p c (bitsAt e2 11 32 * 2 ^ 11) (bitsAt va 23 8) w with
  | (w, .error (a, b)) => stop w (.fault a b)
  | (w, .ok e3) =>
  if bitsAt e3 2 8 ≠ 0 ∨ bitsAt e3 43 21 ≠ 0 then stop w (.fault cILLOP 0)
  else if !bitAt e3 0 then stop w (.page 3)
  else
  let large := bitAt e3 1
  let idx := if large then bitsAt va 21 2 else bitsAt va 16 7
  match dirRead s studio p c (bitsAt e3 10 33 * 2 ^ 10) idx w with
  | (w, .error (a, b)) => stop w (.fault a b)
  | (w, .ok e) =>
  let leaf := match s2Look s studio p c (bitsAt e3 10 33 * 2 ^ 10) w with
    | (_, .ok (a, _)) => a + 8 * idx
    | _ => 0
  if bitsAt e 16 21 ≠ 0 ∨ (large ∧ bitsAt e 37 5 ≠ 0) then ⟨w, none, none, leaf, .fault cILLOP 0⟩
  else if !bitAt e 0 then ⟨w, none, none, leaf, .page 4⟩
  else match leafEntry s studio p c va e large w with
  | (w, .error (a, b)) =>
    -- R189: OWNER and the page rights are tested before the data page's second stage
    if bitsAt e 4 3 ≠ c ∧ bitAt e 7 = false then ⟨w, none, some (leafSeen p c va e large), leaf, .fault cRIGHTS 0x13⟩
    else if ((need == 0 || need == 3) && !bitAt e 1) || ((need == 1 || need == 3) && !bitAt e 2)
        || (need == 2 && !bitAt e 3) then ⟨w, none, some (leafSeen p c va e large), leaf, .page 4⟩
    else ⟨w, none, some (leafSeen p c va e large), leaf, .fault a b⟩
  | (w, .ok t) => ⟨w, some t, some t, leaf, entryUse t c need va⟩

/-- Whether a cached entry holds the page of `va` for context `c` of partition `p` (R190). -/
def entryCovers (p c va : Nat) (e : TlbEntry) : Bool :=
  e.part == p && e.ctx == c && e.vpage == va / (if e.large then 2 ^ 21 else 2 ^ 16)

/-- The executor's cached entry. -/
def tlbFind (s : State) (ex p c va : Nat) : Option TlbEntry := (tabGetD s.ms.tlb ex []).find? (entryCovers p c va)

/-- The studio's cached entry. -/
def tlb2Find (s : State) (st p c va : Nat) : Option TlbEntry := (tabGetD s.ms.tlb2 st []).find? (entryCovers p c va)

/-- Bring an entry to the front of a cache of `n` entries, dropping the least recently used (R190). -/
def lruPut (n : Nat) (l : List TlbEntry) (e : TlbEntry) : List TlbEntry :=
  (e :: l.filter fun x => !(x.part == e.part && x.ctx == e.ctx && x.large == e.large && x.vpage == e.vpage)).take n

/-- Fill both caches with an entry. A hit in the executor's cache is one of the studio's too: it comes to the front of both (DESIGN CHOICE,
log 76). -/
def fillTlb (s : State) (ex : Nat) (e : TlbEntry) : State :=
  { s with ms := { s.ms with
      tlb := tabSet s.ms.tlb ex (lruPut 128 (tabGetD s.ms.tlb ex []) e)
      tlb2 := tabSet s.ms.tlb2 (studioOf ex) (lruPut 2048 (tabGetD s.ms.tlb2 (studioOf ex) []) e) } }

/-- Bring the second-stage entries that a walk used to the front of its studio's stage-2 cache of 256, least recently used last
(R190). -/
def fillS2 (s : State) (st : Nat) (l : List (Nat × Nat)) : State :=
  let put := fun (c : List (Nat × Nat)) (x : Nat × Nat) => (x :: c.filter fun y => y.1 != x.1).take 256
  { s with ms := { s.ms with s2c := tabSet s.ms.s2c st (l.reverse.foldl put (tabGetD s.ms.s2c st [])) } }

/-- What the caches answer for a translation now: extra cycles (R185) and the answer; none when a walk is needed. -/
def cachedTrans (s : State) (ex p c va need : Nat) : Option (Nat × TlbEntry × Trans) :=
  match tlbFind s ex p c va with
  | some e => some (0, e, entryUse e c need va)
  | none => (tlb2Find s (studioOf ex) p c va).map fun e => (12, e, entryUse e c need va)

end Sys2Proof.Machine
end

