-- ==== Sys2Proof/Machine/Ops.lean ====
section
/-!
DEFINITION. The shared operations over the state: the agenda, scalar registers as instructions see them, charges, the
activation queue, opening and closing, system notes, TAKING A FAULT (`takeFault`, R334 to R337) and the return from one (the
commands of R84 that RESUME, REDIRECT or STEP a frozen row), completion of instructions with their loop resolution (R145),
waits (R99, R100) and commands (R84 to R88).
-/
namespace Sys2Proof.Machine

/-! ### Time and the agenda -/

/-- Insert an event in order of cycle, then of arrival. -/
def agendaIns : List Timed → Timed → List Timed
  | [], t => [t]
  | u :: r, t => if t.due < u.due ∨ (t.due = u.due ∧ t.seq < u.seq) then t :: u :: r else u :: agendaIns r t

/-- Draw a fresh name. -/
def freshId (s : State) : State := { s with clk := { s.clk with ids := s.clk.ids + 1 } }

/-- Place an event at an absolute cycle. -/
def postAt (s : State) (due : Nat) (tag : MsgTag) (ev : Instr) : State :=
  freshId { s with agenda := agendaIns s.agenda ⟨due, s.clk.ids, tag, ev⟩ }

/-- Place an event `d` cycles from now. -/
def postIn (s : State) (d : Nat) (tag : MsgTag) (ev : Instr) : State := postAt s (s.clk.now + d) tag ev

/-- Whether an executor's clock is enabled in this module cycle (R106, R359, R374). -/
def clockOn (s : State) (ex : Nat) : Bool :=
  !(regBits s powerAt 3 1 == 1 && s.clk.now % 4 != 0) && !(s.hub.hops.any fun h => h.1 == stackOf ex)

/-- Enabled cycles of an executor so far (R106). -/
def enabledCycles (s : State) (ex : Nat) : Nat :=
  s.clk.now - s.clk.lostAll - tabGetD s.clk.lostStack (stackOf ex) 0

/-- Place an event `d` enabled cycles of an executor from now (R106, R360). -/
def postClock (s : State) (ex d : Nat) (tag : MsgTag) (ev : Instr) : State := postIn s d { tag with upto := enabledCycles s ex + d } ev

/-- Put an event that was held back in front of everything that is still to come (R86). -/
def repost (s : State) (t : Timed) : State := { s with agenda := agendaIns s.agenda { t with due := 0, seq := 0 } }

/-- Let an event that has arrived try again `d` cycles later, before the arrivals of that cycle. -/
def tryLater (s : State) (d : Nat) (t : Timed) : State :=
  { s with agenda := agendaIns s.agenda { t with due := s.clk.now + d, seq := 0 } }

/-- The latest cycle at which a pending message of an ordered flow arrives (R89, R222); flow 0 is unordered. -/
def flowLast (s : State) (flow : Nat) : Nat :=
  if flow = 0 then 0 else s.agenda.foldl (fun m t => if t.tag.flow = flow then max m t.due else m) 0

/-- Whether an event is the arrival of a message that the networks carry, a reply included. -/
def travels (i : Instr) : Bool :=
  match i with
  | .directAccess _ _ => true
  | .noteLanding _ => true
  | .wetStoreFirstTrip _ => true
  | .driedStoreApply _ => true
  | .memoryReply _ => true
  | .wetTripReply _ _ => true
  | .dryAcknowledgement _ => true
  | .watchAnswer _ => true
  | .longInstructionComplete _ => true
  | .rowJoin _ => true
  | .joinAnswer _ _ => true
  | .systemNoteRetry _ => true
  | .acknowledgement _ => true
  | .channelWordArrival _ => true
  | .remoteRackOperation _ => true
  | .continuationRetry _ => true
  | .potOperation _ => true
  | .bsumArrival _ => true
  | .haloStrip _ => true
  | .jopenMessage _ => true
  | .reward _ => true
  | .jcloseMessage _ => true
  | .jverMessage _ => true
  | .jstatRequest _ => true
  | .migrationLineCopy _ => true
  | _ => false

/-- Whether such an event brings something back to the row that asked for it: a reply, which no drop cloth catches (R349). -/
def isReply (i : Instr) : Bool :=
  match i with
  | .memoryReply _ => true
  | .wetTripReply _ _ => true
  | .dryAcknowledgement _ => true
  | .watchAnswer _ => true
  | .longInstructionComplete _ => true
  | .joinAnswer _ _ => true
  | _ => false

/-- Whether something of another row is on its way, so that the figures for an unloaded machine need not hold for row `r` (log 1): a
message, a piece of a copy, or accumulators that are being spilled. -/
def netLoaded (s : State) (r : Nat) : Bool :=
  s.agenda.any (fun t => travels t.ev && t.tag.row != r) || s.eng.copies.any (fun c => c.row != r && !c.fly.isEmpty) ||
  s.eng.units.any fun u => u.2.spillEnds.isSome && u.2.holder != some r

/-- Cycles that a message of row `r` takes beyond its unloaded time: none while nothing else is on its way, else a free value (log 1). -/
def loadDelay (s : State) (r : Nat) : Nat := if netLoaded s r then Config.extraDelay s.clk.draws else 0

/-- Send a message: its unloaded time `d`, a free extra delay under load (log 1), never ahead of its own flow. -/
def sendIn (s : State) (d : Nat) (tag : MsgTag) (ev : Instr) : State :=
  let due := max (s.clk.now + d + loadDelay s tag.row) (flowLast s tag.flow)
  postAt { s with clk := { s.clk with draws := s.clk.draws + 1 } } due tag ev

/-- The home of an address by number: an executor's, 1,024 for the hubs, 1,025 for the second tier. -/
def homeKey (a : Nat) : Nat :=
  match placeOf a with
  | .hbm => addrHome a
  | .rowWindow => addrHome a
  | .palette => addrHome a
  | .exPage => addrHome a
  | .lpddr => 1025
  | .cxl => 1025
  | _ => 1024

/-- The flow of a row's direct accesses to one home (R89). -/
def flowKey (row a : Nat) : Nat := 1 + row * 2048 + homeKey a

/-- The tag of a message that a row sends. -/
def rowTag (s : State) (r : Nat) (path : Path) (a : Nat) : MsgTag :=
  { row := r, part := partOf s r, ctx := ctxOf s r, path := path, home := addrHome a, flow := flowKey r a, request := true }

/-- Global time as the west hub holds it, in nanoseconds: 5 ns every 12 module cycles (R356). -/
def hubTime (s : State) : Nat := s.hub.gtimeBase + 5 * s.clk.now / 12

/-- An executor's view of global time (R356). -/
def gtimeAt (s : State) (ex : Nat) : Nat := hubTime s + Config.gtimeSkew ex % 5

/-- Whether a record of a kind names a partition (R395): a fault, a context's end, a wipe, a link failure, and the refusal of a request that is
about one. -/
def namesPart (kind detail : Nat) : Bool :=
  kind == 0 || kind == 1 || kind == 3 || kind == 6 || (kind == 7 && [0, 4, 7, 8, 9, 11].contains detail)

/-- A record enters the black box (R395): global time, kind (0 a fault with POLICY 1, 1 a context's end, 2 a layout step, 3 a wipe,
4 an alarm, 5 a sequencer reset, 6 a link failure, 7 a refusal, 8 a firmware verification, 9 a life-cycle change), executor or hub,
partition and context, detail; the last 4,096 stay. A record that names a partition goes to its management endpoint, through the apprentice
where that runs (log 60). -/
def logBox (s : State) (kind place p c detail : Nat) : State :=
  let rec_ := [hubTime s, kind, place, p + 32 * c, detail]
  { s with hub := { s.hub with
      blackBox := (rec_ :: s.hub.blackBox).take 4096
      outputs := if namesPart kind detail && s.hub.verified.contains 1 then s.hub.outputs ++ [⟨p, 0, 11, rec_⟩] else s.hub.outputs } }

/-- One more activation of a row in the refresh window (R392); at 4,096 its neighbours are due. -/
def activation (t : Tab Nat) (r : Nat) : Tab Nat := tabUpd t r 0 fun n => min (n + 1) 4096

/-! ### Scalar registers as the row's own instructions see them (R120, R121) -/

/-- MISC.CHAN. -/
def chanOn (s : State) (r : Nat) : Bool := getF s r fChan == 1

/-- The endpoint bound to a row (R242). -/
def endOf (s : State) (r : Nat) : Option Endpoint := s.msg.ends.find? fun e => e.row == r

/-- Change a row's channel words. -/
def updEnd (s : State) (r : Nat) (f : Endpoint → Endpoint) : State :=
  let e := (endOf s r).getD ⟨r, false, [], [], [], false⟩
  { s with msg := { s.msg with ends := (s.msg.ends.filter fun x => x.row != r) ++ [f e] } }

/-- The word that the instruction of a row popped (R121): at its issue, or, while a long instruction goes on, the oldest word of its input
FIFO, which stands there until the instruction completes. -/
def poppedWord (s : State) (r : Nat) : Word :=
  match s.clk.popped with
  | some w => w
  | none => if s.rows.popDue.contains r then (((endOf s r).map Endpoint.inp).getD []).headD 0 else 0

/-- A scalar register as source (R120, R121): with CHAN set, s30 is the word popped; s31 is the word at 0x1F8, which is the last word pushed
unless a store has changed it since, and what stood there before the first push (DESIGN CHOICE, log 53). -/
def getS (s : State) (r i : Nat) : Word :=
  if i = 0 then 0
  else if i = 30 ∧ chanOn s r then poppedWord s r
  else rawS s r i

/-- A scalar register as destination (R120, R121): s0 discards; with CHAN set, s30 discards, and s31 pushes the word that its own word
takes. -/
def setS (s : State) (r i : Nat) (v : Word) : State :=
  if i = 0 then s
  else if i = 30 ∧ chanOn s r then s
  else if i = 31 ∧ chanOn s r then
    let s := updEnd (setRawS s r 31 v) r fun e => { e with bound := true, out := e.out ++ [(getF s r fDown, v)] }
    if ((endOf s r).map Endpoint.sending).getD false then s
    else postIn (updEnd s r fun e => { e with sending := true }) 1 {} (.channelWordSend r)
  else setRawS s r i v

/-- The check of a push (R244). -/
def pushCheck (s : State) (r : Nat) : Option FaultRec :=
  let t := getF s r fDown
  let far := gap (exX (homeOf t)) (exX (homeOf r)) + gap (exY (homeOf t)) (exY (homeOf r))
  if partOf s t ≠ partOf s r then some ⟨cRIGHTS, 0x11, rowDpa t, 0⟩
  else if !isThread s t ∨ codeOf s t = 8 ∨ 1 < far then some ⟨cSEG, 0x06, rowDpa t, 0⟩
  else none

/-- The fault of a long instruction that is to write the registers `regs` (R244): DOWN is read when the word is pushed. -/
def pushStops (s : State) (r : Nat) (regs : List Nat) : Option FaultRec :=
  if regs.contains 31 && chanOn s r then pushCheck s r else none

/-- Commit the pop that the acting instruction made (R121). -/
def commitPop (s : State) (r : Nat) : State :=
  match s.clk.popped with
  | none => s
  | some _ => { updEnd s r fun e => { e with inp := e.inp.drop 1 } with clk := { s.clk with popped := none } }

/-! ### Charges (R113, R116, R377) -/

/-- Charge units to a context's meter. -/
def chargeCtx (s : State) (p c n : Nat) : State := if p < 32 then regAddSat s (meterAt p c) n else s

/-- Charge the device overhead meter. -/
def chargeDevice (s : State) (n : Nat) : State := regAddSat s (powerAt + 0xA8) n

/-- Free value of a housekeeping charge to the device (R377, log 6). -/
def chargeHousekeeping (s : State) : State :=
  chargeDevice { s with clk := { s.clk with draws := s.clk.draws + 1 } } (Config.overheadUnits s.clk.draws)

/-- Charge a row's ACCOUNT, its block's EUSED and its context's meter. -/
def chargeRow (s : State) (r n : Nat) : State :=
  let s := setF s r fAccount (min (getF s r fAccount + n) (2 ^ 64 - 1))
  let s :=
    if !blockSound s r then s
    else { s with mem := memSetNat s.mem (blockOf s r + 0x20) 8 ((memNat s.mem (blockOf s r + 0x20) 8 + n) % 2 ^ 64) }
  chargeCtx s (partOf s r) (ctxOf s r) n

/-! ### Slots, queue, pools -/

/-- Change the slot a row is in. -/
def updSlot (s : State) (r : Nat) (f : Slot → Slot) : State :=
  match slotOf s r with
  | none => s
  | some k => { s with rows := { s.rows with slots := tabUpd s.rows.slots k { row := r } f } }

/-- RUNNING from now on: the row may issue at any later cycle (R110). -/
def runRow (s : State) (r : Nat) : State := updSlot (setCode s r 3 0) r fun x => { x with readyAt := s.clk.now }

/-- Free the slot a row is in (R98): its latch is written back, which counts as an activation (R392). -/
def freeSlot (s : State) (r : Nat) : State :=
  { s with rows := { s.rows with
      slots := s.rows.slots.filter fun e => e.2.row != r
      activations := if s.rows.slots.any fun e => e.2.row == r then activation s.rows.activations r else s.rows.activations
      windowAt := tabDel s.rows.windowAt r, fired := setDel s.rows.fired r } }

/-- Whether the row's latch is retained in a slot (R348). -/
def isRetained (s : State) (r : Nat) : Bool := s.rows.slots.any fun e => e.2.row == r && e.2.retained

/-- From now on the row fetches memory as it now stands: it has opened for the first time, or taken a transfer of control (R51). -/
def freshCode (s : State) (r : Nat) : State := { s with rows := { s.rows with oldCode := tabSet s.rows.oldCode r [] } }

/-- The byte of code at `a` as the row fetches it: what stood there at its last taken transfer; a segment of kind ROW reads the
latch (R51). -/
def codeByte (s : State) (r a : Nat) : Byte :=
  if (getSeg s r 0).kind = 0 then memByte s.mem a else (tabGet (tabGetD s.rows.oldCode r []) a).getD (memByte s.mem a)

/-- `n` bytes of code. -/
def codeNat (s : State) (r a n : Nat) : Nat := natOfBytes ((List.range n).map fun i => codeByte s r (a + i))

/-- A row that has begun to run remembers code until it is armed anew (R51). -/
def forgetCode (s : State) (r : Nat) : State := { s with rows := { s.rows with oldCode := tabDel s.rows.oldCode r } }

/-- Before bytes of memory change: the rows that have begun to run keep them, for what they fetch without a transfer of control (R51). -/
def keepCode (s : State) (a n : Nat) : State :=
  { s with rows := { s.rows with oldCode := s.rows.oldCode.map fun e =>
      (e.1, (List.range n).foldl (fun t i => if (tabGet t (a + i)).isSome then t else tabSet t (a + i) (memByte s.mem (a + i))) e.2) } }

/-- Take a row out of every activation queue and wake list. -/
def dequeue (s : State) (r : Nat) : State :=
  { s with rows := { s.rows with
      queue := s.rows.queue.map fun e => (e.1, setDel e.2 r)
      wakes := s.rows.wakes.map fun e => (e.1, setDel e.2 r)
      queuedAt := tabDel s.rows.queuedAt r } }

/-- Drop what a row waits for: its wait, watches, registered pot requests, resume bookkeeping (R88, R230, R264). -/
def withdraw (s : State) (r : Nat) : State :=
  { s with
    rows := { s.rows with waits := tabDel s.rows.waits r, longs := tabDel s.rows.longs r, lens := tabDel s.rows.lens r,
                          popDue := setDel s.rows.popDue r, pushDue := setDel s.rows.pushDue r }
    ms := { s.ms with watches := s.ms.watches.filter fun w => w.row != r
                      reqs := s.ms.reqs.filter fun e => !(e.2.row == r && e.2.isWatch) }
    msg := { s.msg with rackOps := s.msg.rackOps.filter fun o => !(o.row == r && o.delay == 0) }
    eng := { s.eng with pots := s.eng.pots.filter fun q => !(q.row == r && q.kind ≤ 1)
                        sweepQ := s.eng.sweepQ.map fun e => (e.1, setDel e.2 r)
                        sweep := tabDel s.eng.sweep r } }

/-- Place a row in its queue behind every row of its level or above (R95). -/
def queueIns (s : State) (l : List Nat) (r : Nat) : List Nat :=
  let e := getF s r fEprio
  l.takeWhile (fun x => e ≤ getF s x fEprio) ++ r :: l.dropWhile fun x => e ≤ getF s x fEprio

/-- Key of the activation queue and spawn pool of partition `p` at an executor. -/
def queueKey (ex p : Nat) : Nat := ex * 32 + p

/-- Key of a wake list (R350). -/
def wakeKey (ex p c : Nat) : Nat := (ex * 32 + p) * 8 + c

/-- Enter the activation queue at min(PRIO, CEIL) (R95, R97); a row of a switched-out context enters its wake list (R350). A row that
enters without a command or an instruction that needs its chain (a YIELD, the event of a SLEEPING row) takes the default ceiling 63
while the chain is malformed: R97 states none for it (DESIGN CHOICE, log 51). -/
def enqueue (s : State) (r : Nat) : State :=
  let s := setF (setCode s r 2 0) r fEprio (min (getF s r fPrio) ((effCeil s r).getD 63))
  if ctxActive s r then
    let k := queueKey (exOf r) (partOf s r)
    let s := { s with rows := { s.rows with
      queue := tabSet s.rows.queue k (queueIns s (tabGetD s.rows.queue k []) r)
      queuedAt := tabSet s.rows.queuedAt r s.clk.ids } }
    postClock s (exOf r) (2 ^ 20) {} (.priorityAging r s.clk.ids)
  else
    let k := wakeKey (exOf r) (partOf s r) (ctxOf s r)
    let s := setF s r fCtxOut 1
    { s with rows := { s.rows with wakes := tabUpd s.rows.wakes k [] fun l => setDel l r ++ [r] } }

/-- Key of a context's matrix record at an executor (R276). -/
def recordKey (ex p c : Nat) : Nat := (ex * 32 + p) * 8 + c

/-- MCFG's reset value (R277): OFMT 0x0B. -/
def mcfgReset : Nat := 0x160

/-- A free matrix unit. -/
def freeUnit : MatUnit := { holder := none, part := 0, ctx := 0, mcfg := mcfgReset, init := accEmpty, acc := [] }

/-- MREL's effect for a row (R290): the unit empties when the row holds it, and the row's record is cleared. -/
def releaseUnit (s : State) (r : Nat) : State :=
  let ex := exOf r
  let s :=
    if (tabGetD s.eng.units ex freeUnit).holder = some r then
      { s with eng := { s.eng with units := tabDel s.eng.units ex, mma := tabDel s.eng.mma ex } }
    else s
  { s with eng := { s.eng with records := s.eng.records.filter fun e => !(e.1 / 256 == ex && e.2.owner == r) } }

/-- Discard a retired row's input FIFO and count the words (R245). -/
def dropInput (s : State) (r : Nat) : State :=
  match endOf s r with
  | none => s
  | some e =>
    regAdd (updEnd s r fun e => { e with inp := [] }) (rackWord (exOf r) (partOf s r) 0x30) e.inp.length

/-- Put back every direct access held behind a command that has landed, in arrival order (R86). -/
def releaseHeld (s : State) (r : Nat) : State :=
  let mine := s.rows.held.filter fun h => h.1 == r
  let s := { s with rows := { s.rows with held := s.rows.held.filter fun h => h.1 != r } }
  mine.foldl (fun s h => repost s h.2) s

/-- Put back the accesses and PEEKs that wait for the row's boundary (R89, PEEK). -/
def releaseStep (s : State) (r : Nat) : State :=
  let mine := s.rows.stepHeld.filter fun h => h.1 == r
  let s := { s with rows := { s.rows with stepHeld := s.rows.stepHeld.filter fun h => h.1 != r } }
  mine.foldl (fun s h => repost s h.2) s

/-- Close an open row: its slot is freed and its wait dropped (R99). -/
def closeRow (s : State) (r : Nat) : State := freeSlot (withdraw s r) r

/-- A row becomes RETIRED as by KILL or QUIT (R84, R245, R275). -/
def retire (s : State) (r : Nat) : State :=
  if codeOf s r = 8 then s
  else
    let s := dequeue (closeRow (forgetCode s r) r) r
    let s := releaseUnit (dropInput s r) r
    let s := updLive s r fun n => n - 1
    let k := queueKey (exOf r) (partOf s r)
    let s := { s with rows := { s.rows with
      pools := tabUpd s.rows.pools k [] fun l => r :: setDel l r
      stepping := setDel s.rows.stepping r
      hashFault := tabDel s.rows.hashFault r
      budgetStops := tabDel s.rows.budgetStops r
      joining := setDel (setDel s.rows.joining r) (r + 2 ^ 28) } }
    releaseHeld (releaseStep (setF (setF (setCode s r 8 0) r fPend 0) r fCtxOut 0) r) r

/-- A row becomes READY, or is killed in place of it when its block is killed (R336). -/
def makeReady (s : State) (r : Nat) : State := if isKilled s r then retire s r else enqueue s r

/-- A row joins the lower-bound network when it enters a counted state (R213): VT.SCOPE takes the region's SCOPE when it is 0,
and the join goes to the root in the west hub. -/
def joinRow (s : State) (r : Nat) : State :=
  let sc := (effScope s r).getD 0
  let s := if getF s r fScope = 0 ∧ sc ≠ 0 then setF s r fScope sc else s
  let s := { s with rows := { s.rows with joining := setAdd s.rows.joining r } }
  sendIn s (hubWay (exOf r) true) { rowTag s r .T (rowDpa r) with request := false } (.rowJoin r)

/-- Join when the state before was not counted (R212, R213). -/
def joinFrom (s : State) (r old : Nat) : State := if old = 0 ∨ old = 1 ∨ old = 8 then joinRow s r else s

/-! ### System notes and the management endpoint (R234, R238, R382) -/

/-- An answer or note leaves the module. -/
def hostNote (s : State) (p entry kind : Nat) (words : List Nat) : State :=
  { s with hub := { s.hub with outputs := s.hub.outputs ++ [⟨p, entry, kind, words⟩] } }

/-- ACTIVE in nanoseconds (R318): it advances at 5/12 ns a module cycle; in STILL no module cycle passes. -/
def activeNow (s : State) : Nat :=
  s.join.active + 5 * s.clk.now / 12

/-- The link counters of a partition (R384): TXPKT, RXPKT, REFUSED, RETRY, PEERFAIL at 0, 8, 0x10, 0x18, 0x20. -/
def linkAt (p off : Nat) : Nat := 0x0C0000600000 + 0x40 * p + off

/-- A packet leaves for host entry `entry`, or, when `peer`, for peer entry `entry` of a partition (R379, R384); its flow then waits for an
acknowledgement, from now on if it did not before (R383). -/
def sendPacket (s : State) (p : Nat) (peer : Bool) (entry kind : Nat) (words : List Nat) : State :=
  let s := hostNote (regAdd s (linkAt p 0) 1) p entry kind words
  let flow := p * 8192 + (if peer then entry else 4096 + entry)
  { s with hub := { s.hub with
    unacked := if (tabGet s.hub.unacked flow).isSome then s.hub.unacked else tabSet s.hub.unacked flow (activeNow s) } }

/-- An answer goes to the remote party of an operation: host entry `k`, or peer entry `k - 64`. -/
def answerRemote (s : State) (p k kind : Nat) (words : List Nat) : State :=
  if k < 64 then sendPacket s p false k kind words else sendPacket s p true (k - 64) kind words

/-- The first 8 bytes of a management note by KIND (R382). -/
def mgmtMark (kind : Nat) : Nat :=
  match kind with
  | 3 => 2 ^ 64 - 1
  | 4 => 2 ^ 64 - 3
  | _ => 2 ^ 64 - 4

/-- A system note goes to the partition's management endpoint (R238, R382). -/
def toManagement (s : State) (p : Nat) (words : List Word) : State :=
  let kind := bitsAt ((words.headD 0).toNat) 60 3
  sendPacket s p false 0 0 (mgmtMark kind :: (words.drop 1).map BitVec.toNat)

/-- Send a system note from an executor to a row; it is offered at the row's home (R238). It is a message of the context of the row that
it tells of (R349). -/
def sysNote (s : State) (ex p target : Nat) (words : List Word) : State :=
  if target = 0 then toManagement s p words
  else
    let id := s.clk.ids
    let s := freshId { s with msg := { s.msg with system := s.msg.system ++ [⟨id, target, words, p⟩] } }
    let snd := bitsAt ((words.headD 0).toNat) 32 28
    let tag : MsgTag := { row := snd, part := p, ctx := ctxOf s snd, path := .N, home := homeOf target, request := true }
    sendIn s (100 + meshWay ex (homeOf target)) tag (.systemNoteRetry id)

/-- A note header (R234). -/
def noteHeader (stamp sender kind : Nat) : Word := BitVec.ofNat 64 (stamp + sender * 2 ^ 32 + kind * 2 ^ 60)

/-! ### Taking a fault (R334 to R337) -/

/-- REDIRECT's act on a row (R84): PC := TARGET; PROGRESS, both ARMED bits and COUNTS cleared. -/
def redirectTo (s : State) (r : Nat) : State :=
  let s := setF s r fPc (getF s r fTarget)
  let s := setF (setF s r fProgress 0) r fCounts 0
  setF (setF s r (fLoopArmed 0) 0) r (fLoopArmed 1) 0

/-- Write the FAULT and FAULTADDR words and count the fault (R81, R334). -/
def writeFault (s : State) (r : Nat) (f : FaultRec) : State :=
  let s := setF (setF s r fCause f.cause) r fDetail f.detail
  let s := setF s r fFaultNum (min (getF s r fFaultNum + 1) (2 ^ 32 - 1))
  setF s r fFaultAddr (f.addr % 2 ^ 48 + f.space % 8 * 2 ^ 48)

/-- The row stops where it stands: FROZEN and closed, PC on the instruction (R334). -/
def freezeRow (s : State) (r : Nat) : State :=
  let old := codeOf s r
  let s := dequeue (closeRow s r) r
  let s := { s with rows := { s.rows with stepping := setDel s.rows.stepping r } }
  joinFrom (setCode s r 6 0) r old

/-- The fault note of R337. -/
def faultNote (s : State) (r major policy : Nat) : List Word :=
  [ noteHeader 0 r 3, BitVec.ofNat 64 (getF s r fFault), BitVec.ofNat 64 (getF s r fFaultAddr),
    BitVec.ofNat 64 (getF s r fPc + major % 256 * 2 ^ 40 + ctxOf s r * 2 ^ 48 + policy * 2 ^ 51) ]

/-- Whether an open row stands at a boundary (R88): between two instructions, in an unbounded wait, or waiting for the sweep latch (R401). -/
def atBoundary (s : State) (r : Nat) : Bool :=
  codeOf s r == 3 || (codeOf s r == 4 && ((s.eng.sweepQ.any fun e => e.2.contains r) || (tabGet s.rows.waits r).any fun w => !w.bounded))

/-- The block that a row names has been killed (R336): open rows that name it and stand at a boundary are killed at once, the others at
their next one. -/
def killOpen (s : State) (r : Nat) : State :=
  let mine := (s.rows.slots.map fun (e : Nat × Slot) => e.2.row).filter fun x => x != r && blockOf s x == blockOf s r
  mine.foldl (fun s x => if isKilled s x && atBoundary s x then retire s x else s) s

/-- What the region's POLICY adds to a fault (R336). -/
def faultPolicy (s : State) (r major : Nat) : State :=
  match effPolicy s r with
  | none => sysNote s (exOf r) (partOf s r) (supervisorOf s r) (faultNote s r major 2)
  | some 0 => s
  | some 1 =>
    let s := sysNote s (exOf r) (partOf s r) (supervisorOf s r) (faultNote s r major 1)
    let s := logBox s 0 (exX (exOf r) + 256 * exY (exOf r)) (partOf s r) (ctxOf s r) (getF s r fFault)
    killOpen (retire (setTstate s r 3) r) r
  | some q => sysNote s (exOf r) (partOf s r) (supervisorOf s r) (faultNote s r major q)

/-- Nothing is pending any more. -/
def clearPending (s : State) (r : Nat) : State :=
  let s := setF s r fPend 0
  { s with rows := { s.rows with hashFault := tabDel s.rows.hashFault r, budgetStops := tabDel s.rows.budgetStops r } }

/-- The code of the command that is pending; the energy budget's STOP writes no CMD (R85, R101). -/
def pendingCode (s : State) (r : Nat) : Nat :=
  match tabGet s.rows.budgetStops r with
  | some 0 => 2
  | _ => getF s r fCmdCode

/-- The effect of STOP on a row that is at a boundary (R84); a retained latch stays in its slot (R348). -/
def stopNow (s : State) (r : Nat) : State :=
  match codeOf s r with
  | 1 => joinFrom (setCode s r 7 0) r 1
  | 2 => setCode (dequeue (if isRetained s r then s else freeSlot s r) r) r 7 0
  | 3 => setCode (closeRow s r) r 7 0
  | 4 => setCode (closeRow s r) r 7 0
  | 5 => setCode (if isRetained s r then withdraw s r else closeRow s r) r 7 0
  | _ => s

/-- The energy budget's STOP that stood behind a command lands after it (R86, R101). -/
def stopAfter (s0 s : State) (r : Nat) : State := if tabGet s0.rows.budgetStops r = some 1 then stopNow s r else s

/-- What a fault writes and does, but for the commands that wait on the row (R334, R336). -/
def faultEntry (s : State) (r : Nat) (f : FaultRec) (major : Nat) : State :=
  let s := freezeRow (writeFault s r f) r
  let s := regAdd s (supAt (partOf s r) + 0x48) 1
  releaseStep (faultPolicy s r major) r

/-- A command that was pending when the row froze meets a FROZEN row (R84, R86): KILL retires it, REDIRECT makes it READY at
TARGET unless its hash check found a difference, which is then a fault of its own (R68); STOP and an ended STEP change nothing
further. -/
def settlePending (s : State) (r : Nat) : State :=
  if getF s r fPend = 0 then s
  else
    let s0 := s
    let s := clearPending s r
    let s := match pendingCode s0 r with
      | 5 => retire s r
      | 3 =>
        if codeOf s r ≠ 6 then s
        else (match tabGet s0.rows.hashFault r with
          | some f => faultEntry s r f 0
          | none => makeReady (redirectTo s r) r)
      | _ => s
    releaseHeld (stopAfter s0 s r) r

/-- TAKE A FAULT (R334 to R337, R400): the FAULT words are written, the row freezes with PC on the instruction and closes, the
partition's FAULTS counts it, the region's policy acts. The one exception entry of the machine. -/
def takeFault (s : State) (r : Nat) (f : FaultRec) (major : Nat) : State := settlePending (faultEntry s r f major) r

/-! ### Code: where it is read, and the hash check (R50, R66 to R68) -/

/-- What reading code bytes at sg0 offset `off` meets: bytes' address, a page to be walked, or a fault. -/
inductive CodeAt where
  | at_ (dpa : Nat)
  | walk (va : Nat)
  | page (va level : Nat)
  | fault (f : FaultRec)
  deriving DecidableEq, Repr

/-- The code address of `n` bytes at offset `off` of sg0 (R50, R182, R183), translated by the caches or, with `now`, by a walk
made at once; `x` asks for the x right of the segment. -/
def codePlace (s : State) (r off n : Nat) (now x : Bool) : CodeAt :=
  let g := getSeg s r 0
  let q : Need := { kinds := 0x1F, ex := x, size := n }
  match segChecks s r g off q with
  | .error f => .fault f
  | .ok a =>
    let p := partOf s r
    let fin := fun a' =>
      match dpaChecks s p (isPriv s r) false a' with
      | some (c, d) => CodeAt.fault ⟨c, d, segAddr r g off n, g.kind⟩
      | none => .at_ a'
    if g.kind ≠ 4 then fin a
    else
      let use := fun t =>
        match t with
        | Trans.hit d _ => fin d
        | .page l => .page a l
        | .fault c d => .fault ⟨c, d, segAddr r g off n, g.kind⟩
      match cachedTrans s (exOf r) p (ctxOf s r) a 2 with
      | some (_, _, t) => use t
      | none => if now then use (walkNow s (studioOf (exOf r)) p (ctxOf s r) a 2).ans else .walk a

/-- The code address of `n` bytes that a row is to run. -/
def codeAddr (s : State) (r off n : Nat) (now : Bool) : CodeAt := codePlace s r off n now true

/-- The major opcode of the instruction at PC, for the fault note (R337); 0 when it cannot be read. -/
def majorAt (s : State) (r : Nat) : Nat :=
  match codeAddr s r (getF s r fPc) 4 true with
  | .at_ a => bitsAt (codeNat s r (movedTo s a) 4) 2 8
  | _ => 0

/-- Fault the acting row's instruction. -/
def faultNow (s : State) (r : Nat) (f : FaultRec) : State := takeFault s r f (majorAt s r)

/-- Fault on the instruction with cause and detail and its own address (R335). -/
def faultInstr (s : State) (r cause detail : Nat) : State := faultNow s r (instrFault s r cause detail)

/-- What the hash check finds (R67, R68). -/
inductive HashRes where
  | good
  | bad (f : FaultRec)
  | later (va level : Nat)
  deriving DecidableEq, Repr

/-- Compare the code descriptor at offset 0 of sg0 with the stepping's hash (R66 to R68). A SEG or RIGHTS of this check gives the address of
offset 0, not that of the PC (DESIGN CHOICE, log 79). -/
def hashCheck (s : State) (r : Nat) : HashRes :=
  let g := getSeg s r 0
  match codeAddr s r 0 8 true with
  | .fault f => .bad f
  | .walk va => .later va 0
  | .page va l => .later va l
  | .at_ a =>
    if memNat s.mem (movedTo s a) 8 = Config.encodingHash.toNat then .good else .bad ⟨cENCHASH, 0, g.base, g.kind⟩

/-! ### Commit, waits, boundaries -/

/-- One loop level of R145: next PC, exact (R77), and whether the transfer is one. END and SPAN stand as software left them: the start may
lie below 0. -/
def loopLevel (s : State) (r l : Nat) (skip : Bool) (n : Int) (transfer : Bool) : State × Int × Bool :=
  let e := getF s r (fLoopEnd l)
  let st : Int := (e : Int) - 4 * (getF s r (fLoopSpan l) : Nat)
  if getF s r (fLoopArmed l) = 0 ∨ skip then (s, n, transfer)
  else if transfer then
    if n < st ∨ e ≤ n then (setF s r (fLoopArmed l) 0, n, true) else (s, n, true)
  else if n = e then
    if 1 < getF s r (fCount l) then (setF s r (fCount l) (getF s r (fCount l) - 1), st, true)
    else (setF (setF s r (fCount l) 0) r (fLoopArmed l) 0, n, false)
  else if n < st ∨ e < n then (setF s r (fLoopArmed l) 0, n, false)
  else (s, n, false)

/-- Resolve both loop levels, 1 then 0, and write PC, its low 40 bits (R77, R81, R145); `skip` is the level a LOOP or LOOPX arms. A taken
branch, a jump and a loop return, but no LOOP or LOOPX, are where the row's fetch takes up dried stores (R51, R143). -/
def resolvePc (s : State) (r n : Nat) (transfer : Bool) (skip : Option Nat) : State :=
  let x := loopLevel s r 1 (skip == some 1) n transfer
  let y := loopLevel x.1 r 0 (skip == some 0) x.2.1 x.2.2
  setF (if y.2.2 ∧ skip = none ∧ (tabGet y.1.rows.oldCode r).isSome then freshCode y.1 r else y.1) r fPc (lowBits 40 y.2.1)

/-- A landing STOP, REDIRECT or KILL, or the end of a STEP, at a boundary (R84, R88). -/
def landCommand (s : State) (r : Nat) : State :=
  let s0 := s
  let bad := tabGet s.rows.hashFault r
  let s := clearPending s r
  let s := match pendingCode s0 r with
    | 2 => setCode (closeRow s r) r 7 0
    | 3 =>
      let s := withdraw s r
      (match bad with
       | some f => takeFault s r f 0
       | none => runRow (redirectTo s r) r)
    | 5 => retire s r
    | _ => s
  releaseHeld (stopAfter s0 s r) r


/-- A STEP has run its instruction or its step: STOPPED (R84). -/
def endStep (s : State) (r : Nat) : State :=
  let s := { s with rows := { s.rows with stepping := setDel s.rows.stepping r } }
  releaseHeld (clearPending (setCode (closeRow s r) r 7 0) r) r

/-- A pending command, or the end of a STEP, meets a boundary. Writes and PEEKs that wait for this boundary act before it (R89). -/
def landNow (s : State) (r : Nat) : State :=
  if s.rows.stepHeld.any fun h => h.1 == r then releaseStep (postIn s 0 { row := r } (.commandLands r)) r
  else if s.rows.stepping.contains r then endStep s r
  else landCommand s r

/-- The watchdog's window of a row that is no longer open ends (R341). -/
def endWindow (s : State) (r : Nat) : State :=
  { s with rows := { s.rows with windowAt := tabDel s.rows.windowAt r, fired := setDel s.rows.fired r } }

/-- An open row of a context that is out: READY, its latch retained in the slot (R347, R348, R350). -/
def retainRow (s : State) (r : Nat) : State :=
  let s := updSlot (withdraw (endWindow s r) r) r fun x => { x with retained := true }
  let k := wakeKey (exOf r) (partOf s r) (ctxOf s r)
  let s := { s with rows := { s.rows with wakes := tabUpd s.rows.wakes k [] fun l => setDel l r ++ [r] } }
  setF (setCode s r 2 0) r fCtxOut 1

/-- Whether the window of a persistent row has ended without a progress beat (R341), now or since its last boundary. -/
def watchdogDue (s : State) (r : Nat) : Bool :=
  let w := (effWpers s r).getD 0
  s.rows.fired.contains r ||
  getF s r fPersist == 1 && w != 0 && getF s r fBeats == 0 && ctxActive s r &&
  (match tabGet s.rows.windowAt r with
   | some c => decide (c + w ≤ enabledCycles s (exOf r))
   | none => false)

/-- A watchdog window starts (R341): when the row is opened, and at the end of each window. -/
def startWindow (s : State) (r : Nat) : State :=
  setF { s with rows := { s.rows with
    windowAt := tabSet s.rows.windowAt r (enabledCycles s (exOf r)), fired := setDel s.rows.fired r } } r fBeats 0

/-- The watchdog fires (R343): WATCHDOG on the instruction about to issue. -/
def watchdogFires (s : State) (r detail : Nat) : State := takeFault s r (instrFault s r cWATCHDOG detail) (majorAt s r)

/-- What an open row meets at a boundary (R84, R88, R336, R341, R347). -/
def boundary (s : State) (r : Nat) : State :=
  if !isOpen s r then s
  else if s.rows.stepping.contains r ∨ getF s r fPend = 1 then landNow s r
  else if isKilled s r then retire s r
  else if watchdogDue s r then watchdogFires s r 1
  else if !ctxActive s r then retainRow s r
  else s

/-- A short instruction commits: PC and loops, the channel pop, then the boundary. -/
def finishAt (s : State) (r n : Nat) (transfer : Bool) (skip : Option Nat) : State :=
  boundary (commitPop (resolvePc s r n transfer skip) r) r

/-- Commit an instruction of `len` bytes that transfers no control (R48, R145). -/
def finish (s : State) (r len : Nat) : State := finishAt s r (getF s r fPc + len) false none

/-- Commit a transfer to offset `n` (R145). -/
def jumpTo (s : State) (r n : Nat) : State := finishAt s r (n % 2 ^ 40) true none

/-- A long instruction leaves rotation (R110): `len` is its length for the commit to come. -/
def beginLong (s : State) (r why len : Nat) : State :=
  let s := { s with rows := { s.rows with
    lens := tabSet s.rows.lens r len
    popDue := if s.clk.popped.isSome then setAdd s.rows.popDue r else s.rows.popDue } }
  { setCode s r 4 why with clk := { s.clk with popped := none } }

/-- A long instruction with a fixed time: what it will write is settled at issue (R89, R110). -/
def goLong (s : State) (r why len d : Nat) (c : Completion) : State :=
  let s := beginLong s r why len
  postClock { s with rows := { s.rows with longs := tabSet s.rows.longs r c } } (exOf r) d {} (.longInstructionComplete r)

/-- A long instruction completes without a fault: pop, PC and loops, RUNNING again, then the boundary (R88, R110). -/
def completeLong (s : State) (r : Nat) : State :=
  let len := tabGetD s.rows.lens r 4
  let s := if s.rows.popDue.contains r then updEnd s r fun e => { e with inp := e.inp.drop 1 } else s
  let s := if getF s r fValid = 0 then s else setF s r fValid 0
  let was := codeOf s r
  let s := resolvePc (withdraw s r) r (getF s r fPc + len) false none
  -- what was held for this boundary goes before a command that lands here (R89)
  let lands := s.rows.stepping.contains r || getF s r fPend == 1
  if was = 5 then makeReady s r else boundary (runRow (if lands then s else releaseStep s r) r) r

/-- A long instruction ends in a fault (R334). -/
def faultLong (s : State) (r : Nat) (f : FaultRec) : State := faultNow s r f

/-- A long instruction ends with results for the registers `regs` (R110); it faults when its push would (R244). -/
def endLong (s : State) (r : Nat) (regs : List Nat) (write : State → State) : State :=
  match pushStops s r regs with
  | some f => faultLong s r f
  | none => completeLong (write s) r

/-- The hold time of a row in cycles (R81). -/
def holdOf (s : State) (r : Nat) : Nat := if getF s r fHold = 0 then 2048 else 16 * getF s r fHold

/-- An instruction waits before it commits anything (R88, R99): WHY, whether bounded, and the condition. The start of an unbounded
wait is a boundary: PEEKs that wait for one are answered, and a command already pending lands at once (R86); a STEP, which is such a
command, ends with the row STOPPED before the instruction (log 17). -/
def waitOn (s : State) (r why : Nat) (bounded : Bool) (c : Cond) : State :=
  let s := { setCode s r 4 why with clk := { s.clk with popped := none } }
  let s := { s with rows := { s.rows with waits := tabSet s.rows.waits r { why := why, bounded := bounded, cond := c,
                                                                                 since := enabledCycles s (exOf r) } } }
  let s := if bounded then s else postClock s (exOf r) (holdOf s r) {} (.holdExpiry r (enabledCycles s (exOf r)))
  if !bounded && getF s r fPend == 1 then landNow s r
  else
  let s := if bounded then s else releaseStep s r
  if !ctxActive s r && !bounded then
    -- R347: an unbounded wait of an outgoing row sleeps at once
    setF (setCode (updSlot (endWindow s r) r fun x => { x with retained := true }) r 5 why) r fCtxOut 1
  else s

/-- An unbounded wait that begins where a bounded part of its instruction ends is a boundary (R88): a row whose block has been killed
meanwhile is killed (R336), and one whose watchdog window has ended meets it (R343); any other goes on to its wait. -/
def restAt (s : State) (r : Nat) (wait : State → State) : State :=
  if codeOf s r ≠ 4 ∨ getF s r fPend = 1 then wait s
  else if isKilled s r then retire s r
  else if watchdogDue s r then watchdogFires s r 1
  else wait s

/-- A wait is over: the instruction issues again, or a sleeping row becomes READY (R100). -/
def resumeRow (s : State) (r : Nat) : State :=
  let s := withdraw s r
  match codeOf s r with
  | 4 => runRow (releaseStep s r) r
  | 5 => makeReady s r
  | _ => s

/-! ### Commands (R84 to R87, R102) -/

/-- Record a command's outcome; CMD and ATAG change only for DONE and NOCHANGE (R85). -/
def noteOutcome (s : State) (r out cmd : Nat) : State :=
  let s := setF s r fLstat out
  if out ≤ 1 then
    setF (setF s r fCmd (cmd % 2 ^ 16 + cmd / 2 ^ 32 % 2 ^ 32 * 2 ^ 32)) r fAtag (cmd / 2 ^ 32 % 2 ^ 32)
  else s

/-- A command word (R81): code, argument, reserved bits, tag. -/
def cmdWord (code : Nat) (m : CmdMsg) : Nat :=
  code + m.arg.toNat * 2 ^ 8 + m.rsv.toNat * 2 ^ 16 + m.tag.toNat * 2 ^ 32

/-- Reset the instruction count of R342. -/
def resetCount (s : State) (r : Nat) : State := { s with rows := { s.rows with icount := tabDel s.rows.icount r } }

/-- The check of R67 when a command is accepted: a difference freezes the row where it stands, its PC unchanged (R68); else `act` goes
on, with the check postponed when the descriptor's page is absent. -/
def checked (s : State) (r : Nat) (act : State → State) : State :=
  match hashCheck s r with
  | .good => act s
  | .bad f => takeFault s r f 0
  | .later _ _ => act { s with rows := { s.rows with recheck := setAdd s.rows.recheck r } }

/-- An accepted command makes the row READY after the hash check of R67, or freezes it (R68). -/
def startChecked (s : State) (r old : Nat) : State := checked s r fun s => makeReady (joinFrom s r old) r

/-- Whether a command is malformed (R84, R85): reserved bits, or an argument it does not take. -/
def cmdBad (code : Nat) (m : CmdMsg) : Bool :=
  m.rsv != 0 || (if code = 8 then decide (64 ≤ m.arg.toNat) else m.arg != 0)

/-- Settle a command that its words or the region chain refuse; `needs` says whether it needs the chain (R85). -/
def cmdGate (s : State) (code : Nat) (m : CmdMsg) (needs : Bool) (act : State → State) : State :=
  if cmdBad code m then noteOutcome s m.row 3 (cmdWord code m)
  else if needs ∧ (chainOf s m.row).isNone then noteOutcome s m.row 6 (cmdWord code m)
  else act s

/-- Arm a data row in the given state (R81, R103): reserved control bits cleared, CMD := 0, STATE set, LIVE counted for
PARKED. -/
def armRow (s : State) (r code : Nat) : State :=
  let s := (List.range 16).foldl (fun s i =>
    setRowNat s r (8 * i) 8 (if i = 0 then 0 else if i = 1 then code else rowNat s r (8 * i) 8 &&& ctlMask i)) s
  let s := stampOwn { s with mem := memClear s.mem (rowDpa r + 0x640) 0xC0 } r 0x640 0xC0
  let s := { s with rows := { s.rows with kinds := setAdd s.rows.kinds r } }
  if code = 1 then updLive s r (· + 1)
  else
    let k := queueKey (exOf r) (partOf s r)
    { s with rows := { s.rows with pools := tabUpd s.rows.pools k [] fun l => r :: setDel l r } }

/-- START (R84): PARKED becomes READY at PC; TSTATE of a killed block, a disabled or ended context refuse it (R336, R364); a
root's START sets TSTATE (R254). -/
def cmdStart (s : State) (m : CmdMsg) : State :=
  let r := m.row
  let w := cmdWord 1 m
  cmdGate s 1 m (codeOf s r == 1) fun s =>
    match codeOf s r with
    | 1 =>
      if tstateOf s r = 3 ∨ ctxLive s (partOf s r) (ctxOf s r) = false then noteOutcome s r 2 w
      else
        let s := resetCount (noteOutcome s r 0 w) r
        let s := if getF s r fEng = 1 ∧ getF s r fParent = r then setTstate s r 1 else s
        startChecked s r 1
    | 6 => noteOutcome s r 2 w
    | 7 => noteOutcome s r 2 w
    | 8 => noteOutcome s r 2 w
    | _ => noteOutcome s r 1 w

/-- A command that lands at an open row's next boundary: PEND until then; at a boundary it lands at once (R84, R86, R88). -/
def cmdPend (s : State) (r w : Nat) : State :=
  let s := setF (noteOutcome s r 0 w) r fPend 1
  match codeOf s r with
  | 3 => landCommand s r
  | 4 =>
    -- a row that waits for the sweep latch stands at a step boundary (R401)
    if s.eng.sweepQ.any fun e => e.2.contains r then landNow s r
    else (match tabGet s.rows.waits r with
      | some x => if x.bounded then s else landNow s r
      | none => s)
  | _ => s

/-- STOP (R84). -/
def cmdStop (s : State) (m : CmdMsg) : State :=
  let r := m.row
  let w := cmdWord 2 m
  cmdGate s 2 m false fun s =>
    match codeOf s r with
    | 1 => stopNow (noteOutcome s r 0 w) r
    | 2 => stopNow (noteOutcome s r 0 w) r
    | 3 => cmdPend s r w
    | 4 => cmdPend s r w
    | 5 => stopNow (noteOutcome s r 0 w) r
    | 8 => noteOutcome s r 2 w
    | _ => noteOutcome s r 1 w

/-- REDIRECT (R84). -/
def cmdRedirect (s : State) (m : CmdMsg) : State :=
  let r := m.row
  let w := cmdWord 3 m
  let c := codeOf s r
  cmdGate s 3 m (c == 1 || c == 5 || c == 6 || c == 7) fun s =>
    match c with
    | 2 =>
      checked (resetCount (noteOutcome s r 0 w) r) r fun s => redirectTo s r
    | 3 =>
      let s := resetCount s r
      let s := match hashCheck s r with
        | .good => s
        | .bad f => { s with rows := { s.rows with hashFault := tabSet s.rows.hashFault r f } }
        | .later _ _ => { s with rows := { s.rows with recheck := setAdd s.rows.recheck r } }
      cmdPend s r w
    | 4 =>
      let s := resetCount s r
      let s := match hashCheck s r with
        | .good => s
        | .bad f => { s with rows := { s.rows with hashFault := tabSet s.rows.hashFault r f } }
        | .later _ _ => { s with rows := { s.rows with recheck := setAdd s.rows.recheck r } }
      cmdPend s r w
    | 8 => noteOutcome s r 2 w
    | _ => checked (resetCount (withdraw (noteOutcome s r 0 w) r) r) r fun s => makeReady (joinFrom (redirectTo s r) r c) r

/-- RESUME (R84, R338, R343): the return from a fault at PC, PROGRESS and loop state kept. -/
def cmdResume (s : State) (m : CmdMsg) : State :=
  let r := m.row
  let w := cmdWord 4 m
  let c := codeOf s r
  cmdGate s 4 m (c == 6 || c == 7) fun s =>
    match c with
    | 6 => startChecked (resetCount (noteOutcome s r 0 w) r) r c
    | 7 => startChecked (resetCount (noteOutcome s r 0 w) r) r c
    | 1 => noteOutcome s r 2 w
    | 8 => noteOutcome s r 2 w
    | _ => noteOutcome s r 1 w

/-- KILL (R84). -/
def cmdKill (s : State) (m : CmdMsg) : State :=
  let r := m.row
  let w := cmdWord 5 m
  cmdGate s 5 m false fun s =>
    match codeOf s r with
    | 8 => noteOutcome s r 1 w
    | 3 => cmdPend s r w
    | 4 => cmdPend s r w
    | _ => retire (noteOutcome s r 0 w) r

/-- STEP (R84): one instruction or one step of a stepped one, then STOPPED; PEND until it ends. -/
def cmdStep (s : State) (m : CmdMsg) : State :=
  let r := m.row
  let w := cmdWord 6 m
  let c := codeOf s r
  cmdGate s 6 m (c == 6 || c == 7) fun s =>
    if c = 6 ∨ c = 7 then
      let s := setF (noteOutcome s r 0 w) r fPend 1
      startChecked { s with rows := { s.rows with stepping := setAdd s.rows.stepping r } } r c
    else noteOutcome s r 2 w

/-- An accepted WAKE resumes every paused copy of its row (R269). -/
def resumeCopies (s : State) (r : Nat) : State :=
  { s with eng := { s.eng with copies := s.eng.copies.map fun c => if c.row == r && c.state == 1 then { c with state := 0 } else c } }

/-- WAKE (R84): also what makes a page-faulted access issue again (R192). -/
def cmdWake (s : State) (m : CmdMsg) : State :=
  let r := m.row
  let w := cmdWord 7 m
  let c := codeOf s r
  cmdGate s 7 m (c == 1 || c == 5) fun s =>
    let s := if c = 8 then s else resumeCopies s r
    match c with
    | 1 => startChecked (noteOutcome s r 0 w) r 1
    | 4 =>
      (match tabGet s.rows.waits r with
       | some x => if x.bounded then noteOutcome s r 1 w else resumeRow (noteOutcome s r 0 w) r
       | none => noteOutcome s r 1 w)
    | 5 => resumeRow (noteOutcome s r 0 w) r
    | 8 => noteOutcome s r 2 w
    | _ => noteOutcome s r 1 w

/-- PRIORITY (R84, R95): PRIO := ARG; a READY row that waits in its queue is queued again. The table of R84 says so without condition:
it moves behind its level, and its aging begins anew, also when its effective priority stays the same, for which R95 alone would
leave it in place (DEDUCED, log 65). A row that is already being opened has left the queue (R98). -/
def cmdPriority (s : State) (m : CmdMsg) : State :=
  let r := m.row
  let w := cmdWord 8 m
  let c := codeOf s r
  cmdGate s 8 m (c == 2) fun s =>
    if c = 8 then noteOutcome s r 2 w
    else
      let s := setF (noteOutcome s r 0 w) r fPrio (m.arg.toNat % 64)
      if c = 2 ∧ !(s.rows.slots.any fun e => e.2.row == r && e.2.opening) then enqueue (dequeue s r) r else s

/-- A command of no known code (R85). -/
def cmdUnknown (s : State) (code : Nat) (m : CmdMsg) : State := noteOutcome s m.row 3 (cmdWord code m)

/-- A command word as a message to a row (R81). -/
def cmdOfWord (r : Nat) (priv : Bool) (w : Word) : CmdMsg :=
  { row := r, priv := priv, arg := BitVec.ofNat 8 (bitsAt w.toNat 8 8), rsv := BitVec.ofNat 16 (bitsAt w.toNat 16 16),
    tag := BitVec.ofNat 32 (bitsAt w.toNat 32 32) }

/-- Apply a command word to a thread row at its home (R84). -/
def applyCommand (s : State) (r : Nat) (priv : Bool) (w : Word) : State :=
  let m := cmdOfWord r priv w
  match bitsAt w.toNat 0 8 with
  | 1 => cmdStart s m
  | 2 => cmdStop s m
  | 3 => cmdRedirect s m
  | 4 => cmdResume s m
  | 5 => cmdKill s m
  | 6 => cmdStep s m
  | 7 => cmdWake s m
  | 8 => cmdPriority s m
  | c => cmdUnknown s c m

/-- A privileged START that reaches a data row arms it in PARKED mode and is then accepted (R102); on a malformed chain it is
answered BADREGION and changes nothing. One whose argument or reserved bits are not zero is no START that can be accepted: BADCODE, and
nothing changes. One that TSTATE or CTXEN refuses has armed the row all the same: it stays PARKED and counted in LIVE (R85 names the
refusal after the arming). Both are the model's reading (DEDUCED, log 66). -/
def startDataRow (s : State) (r : Nat) (w : Word) : State × Nat :=
  if bitsAt w.toNat 8 24 ≠ 0 then (s, 3)
  else if (chainOf s r).isNone then (s, 6)
  else
    let s := applyCommand (armRow s r 1) r true w
    (s, getF s r fLstat)

/-- The energy budget stops a row as STOP does (R84, R101), at its next boundary and behind a command that is pending (R86). It
is no write to CMD: CMD, LSTAT and ATAG stand (R85). -/
def stopRow (s : State) (r : Nat) : State :=
  if getF s r fPend = 1 then { s with rows := { s.rows with budgetStops := tabUpd s.rows.budgetStops r 1 id } }
  else if codeOf s r == 4 && !(s.eng.sweepQ.any fun e => e.2.contains r) &&
      (match tabGet s.rows.waits r with
       | some x => x.bounded
       | none => true) then
    setF { s with rows := { s.rows with budgetStops := tabSet s.rows.budgetStops r 0 } } r fPend 1
  else stopNow s r

/-- EUSED of the block a row names. -/
def eusedOf (s : State) (r : Nat) : Nat :=
  if !blockSound s r then 0 else memNat s.mem (blockOf s r + 0x20) 8

/-- A charge that carried EUSED from `old` to `new` past a nonzero EBUDGET stops the row, and its supervisor gets a BUDGET note
(R101, R234). -/
def budgetStop (s : State) (r old new : Nat) : State :=
  let lim := (effBudget s r).getD 0
  if lim ≠ 0 ∧ old ≤ lim ∧ lim < new then
    let s := sysNote s (exOf r) (partOf s r) (supervisorOf s r) [noteHeader 0 r 5, BitVec.ofNat 64 r, BitVec.ofNat 64 new, 0]
    if isThread s r then stopRow s r else s
  else s

/-- Charge a row outside its issue, and stop it when the charge passes its energy budget (R101, R116). -/
def chargeStop (s : State) (r n : Nat) : State :=
  let old := eusedOf s r
  budgetStop (chargeRow s r n) r old (old + n)

end Sys2Proof.Machine
end

