-- ==== Sys2Proof/Machine/Classes.lean ====
section
/-!
DEFINITION. What the issue logic asks of an instruction before it acts: its weight (R113, R150), the scalar registers it reads
and writes (R121), and the paths on which it starts an access (R222, R228; bits 0 T, 1 C, 2 M, 3 G, 4 J, 5 S, 6 N).
-/
namespace Sys2Proof.Machine

/-- Codes of floating-point formats (R21); x4 is an integer format. -/
def isFpFormat (c : Nat) : Bool := 9 ≤ c && c ≤ 15

/-- Weight of words that do not decode (R113: a fault at decode is charged the instruction's weight), by major, fn and ET. -/
def weightOfWords (ws : List Nat) : Nat :=
  let w := ws.headD 0
  let fn := bitsAt w 25 7
  let et := bitsAt (ws.getD 1 0) 9 5
  match bitsAt w 2 8 with
  | 0x44 => 2
  | 0x45 => 2
  | 0x61 => 3
  | 0x6C => 3
  | 0x60 => if isFpFormat et && (fn ≤ 2 || fn == 4 || fn == 5) then 2 else 1
  | 0x63 => if isFpFormat et then 2 else 1
  | 0x69 => if isFpFormat et then 2 else 1
  | 0x6A => if isFpFormat et then 2 else 1
  | 0x6B => if isFpFormat et || isFpFormat (fn % 32) then 2 else 1
  | _ => 1

/-- Weight of an issue in units of R113. -/
def weightOf (i : Instr) : Nat :=
  match i with
  | .fma _ | .fms _ => 2
  | .vfma _ | .vdot _ => 3
  | .vadd o | .vsub o | .vmul o | .vmin o | .vmax o => if fmtIsLaneFp o.et.toNat then 2 else 1
  | .vaddXl o | .vsubXl o | .vmulXl o | .vminXl o | .vmaxXl o => if fmtIsLaneFp o.et.toNat then 2 else 1
  | .vcmp o => if fmtIsLaneFp o.et.toNat then 2 else 1
  | .vred o => if fmtIsLaneFp o.et.toNat then 2 else 1
  | .vscan o => if fmtIsLaneFp o.et.toNat then 2 else 1
  | .vcvt o => if isFpFormat o.et.toNat || isFpFormat o.src.toNat then 2 else 1
  | _ => 1

/-- Scalar registers an instruction reads as sources (R121). -/
def scalarReads (i : Instr) : List Nat :=
  match i with
  | .add o | .sub o | .mul o | .addSat o | .subSat o | .mulSat o | .mulh o | .mulhn o
  | .div o | .divn o | .rem o | .remn o | .and o | .andn o | .or o | .xor o
  | .shl o | .shr o | .sra o | .rotl o | .rotr o | .min o | .max o | .minn o
  | .maxn o | .ceq o | .cne o | .clt o | .cle o | .cltn o | .clen o => [o.a.toNat, o.b.toNat]
  | .addSl o | .subSl o | .mulSl o | .addSatSl o | .subSatSl o | .mulSatSl o | .mulhSl o | .mulhnSl o
  | .divSl o | .divnSl o | .remSl o | .remnSl o | .andSl o | .andnSl o | .orSl o | .xorSl o
  | .shlSl o | .shrSl o | .sraSl o | .rotlSl o | .rotrSl o | .minSl o | .maxSl o | .minnSl o
  | .maxnSl o | .ceqSl o | .cneSl o | .cltSl o | .cleSl o | .cltnSl o | .clenSl o => [o.a.toNat]
  | .clz o | .ctz o | .popc o | .brev o => [o.a.toNat]
  | .addi o | .andi o | .ori o | .xori o => [o.a.toNat]
  | .addiSl o | .andiSl o | .oriSl o | .xoriSl o => [o.a.toNat]
  | .shlImm o | .shrImm o | .sraImm o | .rotlImm o | .rotrImm o => [o.a.toNat]
  | .ext o | .extn o => [o.a.toNat]
  | .ins o => [o.d.toNat, o.a.toNat]
  | .fshl o | .fshr o => [o.a.toNat, o.b.toNat]
  | .fshlReg o | .fshrReg o | .sel o => [o.a.toNat, o.b.toNat, o.c.toNat]
  | .lut3 o => [o.a.toNat, o.b.toNat, o.c.toNat]
  | .beq o | .bne o | .blt o | .bge o | .bltn o | .bgen o => [o.a.toNat, o.b.toNat]
  | .bz o | .bnz o => [o.a.toNat]
  | .jr o => [o.a.toNat]
  | .loop _ a _ => [a.toNat]
  | .loopx o => if o.immCount then [] else [o.a.toNat]
  | .fadd o | .fsub o | .fmul o | .fdiv o => [o.a.toNat, o.b.toNat]
  | .fsqrt o => [o.a.toNat]
  | .fmin o | .fmax o | .fceq o | .fclt o | .fcle o => [o.a.toNat, o.b.toNat]
  | .fsgn o => [o.a.toNat, o.b.toNat]
  | .fclass o => [o.a.toNat]
  | .fma o | .fms o => [o.a.toNat, o.b.toNat, o.c.toNat]
  | .fcvt o => [o.a.toNat]
  | .vadd o | .vsub o | .vmul o | .vmulh o | .vmin o | .vmax o | .vand o | .vor o
  | .vxor o | .vshl o | .vshr o | .vsra o => if o.sub = 1 then [o.b.toNat] else []
  | .vbc o => if o.sub = 0 then [o.a.toNat] else []
  | .vxt o => [o.b.toNat]
  | .vin o => [o.a.toNat, o.b.toNat]
  | .kfind _ _ b => [b.toNat]
  | .ld o => [o.a.toNat]
  | .ldX o => [o.mem.a.toNat]
  | .st o => [o.a.toNat, o.b.toNat]
  | .stX o => [o.mem.a.toNat, o.b.toNat]
  | .vld o => [o.mem.a.toNat]
  | .vst o => [o.mem.a.toNat]
  | .vlds o => [o.mem.a.toNat, o.b.toNat]
  | .vsts o => [o.mem.a.toNat, o.b.toNat]
  | .vgat o => [o.mem.a.toNat]
  | .vsct o => [o.mem.a.toNat]
  | .pref m => [m.a.toNat]
  | .fmtq _ m => [m.a.toNat]
  | .tlbinv a b _ => [a.toNat, b.toNat]
  | .migrate _ b m => [b.toNat, m.a.toNat]
  | .migrateRelease _ b => [b.toNat]
  | .phase _ a | .tick _ a | .wake _ a | .disarm _ a | .slotw _ a | .slotr _ a _ | .budget _ a | .prio _ a => [a.toNat]
  | .take _ a | .balset _ a | .cpy _ a _ | .cpyw _ a | .cpyq _ a | .potsetClear _ a | .potput _ a _ | .potget _ a => [a.toNat]
  | .potrel _ a | .mown _ a | .mcfg _ a | .bredRead _ a | .bredClear _ a | .bredClaim _ a | .bredRelease _ a => [a.toNat]
  | .ghalo _ a | .jstat _ a _ => [a.toNat]
  | .waitlb _ a b | .ctl _ a b | .arm _ a b | .peek _ a b _ | .switch _ a b | .potset _ a b _ | .gen _ a b _ _ => [a.toNat, b.toNat]
  | .jcfgSet _ a b | .jcfgClear _ a b | .jcfgPurge _ a b | .jver _ a b => [a.toNat, b.toNat]
  | .fence a | .fencex a _ | .trap a | .mzero a => [a.toNat]
  | .stDry o => [o.mem.a.toNat, o.b.toNat, o.c.toNat]
  | .watch o => [o.mem.a.toNat, o.b.toNat]
  | .aadd o | .amin o | .amax o | .aand o | .aor o | .axor o | .axchg o => [o.mem.a.toNat, o.b.toNat]
  | .aaddXl o | .aminXl o | .amaxXl o | .aandXl o | .aorXl o | .axorXl o | .axchgXl o => [o.mem.a.toNat, o.b.toNat]
  | .acas o => [o.mem.a.toNat, o.b.toNat, o.c.toNat]
  | .acasXl o => [o.mem.a.toNat, o.b.toNat, o.c.toNat]
  | .spawn _ a b c _ => [a.toNat, b.toNat, c.toNat, c.toNat + 1, c.toNat + 2, c.toNat + 3]
  | .sweep o => [o.a.toNat, o.b.toNat]
  | .note o => [o.a.toNat, o.b.toNat, o.b.toNat + 1] ++ (if bitAt o.sub.toNat 0 then [] else [o.b.toNat + 2])
  | .noteXl o => [o.a.toNat, o.b.toNat, o.b.toNat + 1]
  | .kpush o => [o.a.toNat, o.b.toNat, o.b.toNat + 1, o.b.toNat + 2, o.b.toNat + 3]
  | .kpushXl o => [o.a.toNat, o.b.toNat, o.b.toNat + 1, o.b.toNat + 2, o.b.toNat + 3]
  | .jdec _ a b => a.toNat :: (if b = 0 then [] else [b.toNat, b.toNat + 1, b.toNat + 2, b.toNat + 3])
  | .mma o => [o.a.toNat, o.a.toNat + 1, o.b.toNat, o.b.toNat + 1]
  | .mst o => [o.mem.a.toNat, o.b.toNat]
  | .mld o => [o.mem.a.toNat, o.b.toNat]
  | .bsum _ a b c => [a.toNat, b.toNat, c.toNat]
  | .bsumAcc _ a c => [a.toNat, c.toNat]
  | .gtbl _ a m => [a.toNat, m.a.toNat]
  | .jopen o => (if bitAt o.sub.toNat 0 then [] else [o.a.toNat]) ++ [o.b.toNat, o.c.toNat, o.e.toNat]
  | .jopenXl o => [o.b.toNat, o.c.toNat, o.e.toNat]
  | .jrwd o => (if bitAt o.sub.toNat 0 then [] else [o.a.toNat]) ++ [o.b.toNat, o.c.toNat, o.e.toNat]
  | .jrwdXl o => [o.b.toNat, o.c.toNat, o.e.toNat]
  | .jclose o => (if bitAt o.sub.toNat 0 then [] else [o.a.toNat]) ++ [o.b.toNat]
  | .jcloseXl o => [o.b.toNat]
  | _ => []

/-- Scalar registers an instruction writes (R121). JAL and JR write through their own d. -/
def scalarWrites (i : Instr) : List Nat :=
  match i with
  | .add o | .sub o | .mul o | .addSat o | .subSat o | .mulSat o | .mulh o | .mulhn o
  | .div o | .divn o | .rem o | .remn o | .and o | .andn o | .or o | .xor o
  | .shl o | .shr o | .sra o | .rotl o | .rotr o | .min o | .max o | .minn o
  | .maxn o | .ceq o | .cne o | .clt o | .cle o | .cltn o | .clen o => [o.d.toNat]
  | .addSl o | .subSl o | .mulSl o | .addSatSl o | .subSatSl o | .mulSatSl o | .mulhSl o | .mulhnSl o
  | .divSl o | .divnSl o | .remSl o | .remnSl o | .andSl o | .andnSl o | .orSl o | .xorSl o
  | .shlSl o | .shrSl o | .sraSl o | .rotlSl o | .rotrSl o | .minSl o | .maxSl o | .minnSl o
  | .maxnSl o | .ceqSl o | .cneSl o | .cltSl o | .cleSl o | .cltnSl o | .clenSl o => [o.d.toNat]
  | .clz o | .ctz o | .popc o | .brev o => [o.d.toNat]
  | .li d _ | .la d _ | .liSl d _ | .laSl d _ => [d.toNat]
  | .addi o | .andi o | .ori o | .xori o => [o.d.toNat]
  | .addiSl o | .andiSl o | .oriSl o | .xoriSl o => [o.d.toNat]
  | .shlImm o | .shrImm o | .sraImm o | .rotlImm o | .rotrImm o => [o.d.toNat]
  | .ext o | .extn o | .ins o => [o.d.toNat]
  | .fshl o | .fshr o => [o.d.toNat]
  | .fshlReg o | .fshrReg o | .sel o => [o.d.toNat]
  | .lut3 o => [o.d.toNat]
  | .jal _ | .jalSl _ => [29]
  | .jr o => [o.d.toNat]
  | .fadd o | .fsub o | .fmul o | .fdiv o => [o.d.toNat]
  | .fsqrt o => [o.d.toNat]
  | .fmin o | .fmax o | .fceq o | .fclt o | .fcle o => [o.d.toNat]
  | .fsgn o => [o.d.toNat]
  | .fclass o => [o.d.toNat]
  | .fma o | .fms o => [o.d.toNat]
  | .fcvt o => [o.d.toNat]
  | .vxt o => [o.d.toNat]
  | .vred o => [o.d.toNat]
  | .kpop d _ | .kfind d _ _ => [d.toNat]
  | .ld o => [o.d.toNat]
  | .ldX o => [o.d.toNat]
  | .fmtq d _ | .migrate d _ _ | .migrateRelease d _ => [d.toNat]
  | .phase d _ | .tick d _ | .waitlb d _ _ | .ctl d _ _ | .wake d _ | .arm d _ _ | .disarm d _ | .self d _ => [d.toNat]
  | .watch o => [o.d.toNat]
  | .aadd o | .amin o | .amax o | .aand o | .aor o | .axor o | .axchg o => [o.d.toNat]
  | .aaddXl o | .aminXl o | .amaxXl o | .aandXl o | .aorXl o | .axorXl o | .axchgXl o => [o.d.toNat]
  | .acas o => [o.d.toNat]
  | .acasXl o => [o.d.toNat]
  | .peek d _ _ _ | .spawn d _ _ _ _ | .slotw d _ | .slotr d _ _ | .budget d _ | .prio d _ | .prioRead d | .gtime d => [d.toNat]
  | .switch d _ _ | .jdec d _ _ | .done d | .balset d _ | .cpy d _ _ | .cpyw d _ | .cpyq d _ | .potset d _ _ _ => [d.toNat]
  | .potsetClear d _ | .potput d _ _ | .potget d _ | .potrel d _ | .mown d _ | .mcfg d _ | .mcfgRead d => [d.toNat]
  | .bsum d _ _ _ | .bsumAcc d _ _ => [d.toNat]
  | .bredRead d _ | .bredClear d _ | .bredClaim d _ | .bredRelease d _ => [d.toNat, d.toNat + 1]
  | .gtbl d _ _ | .gen d _ _ _ _ | .ghalo d _ | .jcfgSet d _ _ | .jcfgClear d _ _ | .jcfgPurge d _ _ | .jver d _ _ => [d.toNat]
  | .jstat d _ _ => [d.toNat]
  | .recv d | .recvq d | .take d _ => [d.toNat, d.toNat + 1, d.toNat + 2, d.toNat + 3]
  | .note o => [o.d.toNat]
  | .noteXl o => [o.d.toNat]
  | .kpush o => [o.d.toNat]
  | .kpushXl o => [o.d.toNat]
  | .jopen o => [o.d.toNat]
  | .jopenXl o => [o.d.toNat]
  | .jrwd o => [o.d.toNat]
  | .jrwdXl o => [o.d.toNat]
  | .jclose o => [o.d.toNat]
  | .jcloseXl o => [o.d.toNat]
  | _ => []

/-- Paths on which an instruction starts an access (R228). -/
def startsPath (i : Instr) : List Nat :=
  match i with
  | .ld _ | .ldX _ | .st _ | .stX _ | .vld _ | .vst _ | .vlds _ | .vsts _ | .vgat _ | .vsct _ | .fence _ | .stDry _ => [0]
  | .aadd _ | .aaddXl _ | .amin _ | .aminXl _ | .amax _ | .amaxXl _ | .aand _ | .aandXl _ | .aor _ | .aorXl _
  | .axor _ | .axorXl _ | .axchg _ | .axchgXl _ | .acas _ | .acasXl _ | .watch _ => [0]
  | .ctl _ _ _ | .wake _ _ | .arm _ _ _ | .disarm _ _ | .peek _ _ _ _ | .spawn _ _ _ _ _ | .jdec _ _ _ | .done _ => [0]
  | .potput _ _ _ | .potget _ _ | .potrel _ _ | .potset _ _ _ _ | .potsetClear _ _ | .migrate _ _ _ => [0]
  | .cpy _ _ _ => [1]
  | .mma _ | .mst _ | .mld _ | .bsum _ _ _ _ | .bsumAcc _ _ _ => [2]
  | .gtbl _ _ _ => [0, 3]
  | .gen _ _ _ _ _ | .ghalo _ _ => [3]
  | .jopen _ | .jopenXl _ | .jrwd _ | .jrwdXl _ | .jver _ _ _ | .jstat _ _ _ => [4]
  | .jclose _ | .jcloseXl _ => [0, 4]
  | .sweep _ => [5]
  | .note _ | .noteXl _ | .kpush _ | .kpushXl _ | .take _ _ => [6]
  | _ => []

end Sys2Proof.Machine
end

