-- ==== Sys2Proof/Machine/Alu.lean ====
section
/-!
DEFINITION. Integer results at a width of N bits (R124 to R136), shared by the scalar ALU and the vector lanes, and the
64-bit operations that have a width of their own (R129, R132, R134).
-/
namespace Sys2Proof.Machine

/-- Width of a type code (R59). -/
def itypeWidth (t : IType) : Nat :=
  match t with
  | .i8 => 8 | .n8 => 8 | .i16 => 16 | .n16 => 16 | .i32 => 32 | .n32 => 32 | .i64 => 64 | .n64 => 64

/-- Signedness of a type code (R59). -/
def itypeSigned (t : IType) : Bool :=
  match t with
  | .i8 => true | .i16 => true | .i32 => true | .i64 => true
  | .n8 => false | .n16 => false | .n32 => false | .n64 => false

/-- The type code's number (R59). -/
def itypeCode (t : IType) : Nat :=
  match t with
  | .i8 => 0 | .i16 => 1 | .i32 => 2 | .i64 => 3 | .n8 => 4 | .n16 => 5 | .n32 => 6 | .n64 => 7

/-- A register value from an N-bit result: sign-extended for signed types, else zero-extended (R59, R124 `put`). -/
def extendTo (n : Nat) (sgn : Bool) (v : Nat) : Word := if sgn then sx64 n v else BitVec.ofNat 64 (v % 2 ^ n)

/-- `put` at a type code (R124). -/
def putT (t : IType) (v : Nat) : Word := extendTo (itypeWidth t) (itypeSigned t) v

/-- The low N bits of a value read by signedness (R124 `rd_s`, `rd_n`). -/
def readN (n : Nat) (sgn : Bool) (v : Nat) : Int := if sgn then signedOf n v else ((v % 2 ^ n : Nat) : Int)

/-- ADD (R125). -/
def intAdd (n : Nat) (sgn : Bool) (a b : Nat) : Nat := lowBits n (readN n sgn a + readN n sgn b)
/-- SUB (R125). -/
def intSub (n : Nat) (sgn : Bool) (a b : Nat) : Nat := lowBits n (readN n sgn a - readN n sgn b)
/-- MUL (R125). -/
def intMul (n : Nat) (sgn : Bool) (a b : Nat) : Nat := lowBits n (readN n sgn a * readN n sgn b)
/-- ADD.sat (R125). -/
def intAddSat (n : Nat) (sgn : Bool) (a b : Nat) : Nat :=
  lowBits n (clampInt (intMin sgn n) (intMax sgn n) (readN n sgn a + readN n sgn b))
/-- SUB.sat (R125). -/
def intSubSat (n : Nat) (sgn : Bool) (a b : Nat) : Nat :=
  lowBits n (clampInt (intMin sgn n) (intMax sgn n) (readN n sgn a - readN n sgn b))
/-- MUL.sat (R125). -/
def intMulSat (n : Nat) (sgn : Bool) (a b : Nat) : Nat :=
  lowBits n (clampInt (intMin sgn n) (intMax sgn n) (readN n sgn a * readN n sgn b))
/-- MULH signed, MULHN unsigned: `P[2N-1:N]` (R126). -/
def intMulh (n : Nat) (readSigned : Bool) (a b : Nat) : Nat :=
  lowBits n (readN n readSigned a * readN n readSigned b / (2 ^ n : Nat))
/-- DIV signed, DIVN unsigned (R127). -/
def intDiv (n : Nat) (readSigned : Bool) (a b : Nat) : Nat :=
  if b % 2 ^ n = 0 then 2 ^ n - 1 else lowBits n (Int.tdiv (readN n readSigned a) (readN n readSigned b))
/-- REM signed, REMN unsigned (R127). -/
def intRem (n : Nat) (readSigned : Bool) (a b : Nat) : Nat :=
  if b % 2 ^ n = 0 then a % 2 ^ n else lowBits n (Int.tmod (readN n readSigned a) (readN n readSigned b))
/-- AND (R128). -/
def intAnd (n : Nat) (a b : Nat) : Nat := (a &&& b) % 2 ^ n
/-- ANDN: A and not B (R128). -/
def intAndn (n : Nat) (a b : Nat) : Nat := (a &&& (2 ^ n - 1 - b % 2 ^ n)) % 2 ^ n
/-- OR (R128). -/
def intOr (n : Nat) (a b : Nat) : Nat := (a ||| b) % 2 ^ n
/-- XOR (R128). -/
def intXor (n : Nat) (a b : Nat) : Nat := (a ^^^ b) % 2 ^ n
/-- SHL by `k < 64` (R130). -/
def intShl (n : Nat) (a k : Nat) : Nat := (a <<< k) % 2 ^ n
/-- SHR (R130). -/
def intShr (n : Nat) (a k : Nat) : Nat := (a % 2 ^ n) >>> k
/-- SRA (R130). -/
def intSra (n : Nat) (a k : Nat) : Nat := lowBits n (signedOf n a / (2 ^ k : Nat))
/-- ROTL by `k mod N` (R130). -/
def intRotl (n : Nat) (a k : Nat) : Nat :=
  ((a % 2 ^ n) <<< (k % n) + (a % 2 ^ n) >>> (n - k % n)) % 2 ^ n
/-- ROTR by `k mod N` (R130). -/
def intRotr (n : Nat) (a k : Nat) : Nat :=
  ((a % 2 ^ n) >>> (k % n) + (a % 2 ^ n) <<< (n - k % n)) % 2 ^ n
/-- MIN, MINN (R135). -/
def intMinOf (n : Nat) (readSigned : Bool) (a b : Nat) : Nat :=
  if readN n readSigned b < readN n readSigned a then b % 2 ^ n else a % 2 ^ n
/-- MAX, MAXN (R135). -/
def intMaxOf (n : Nat) (readSigned : Bool) (a b : Nat) : Nat :=
  if readN n readSigned a < readN n readSigned b then b % 2 ^ n else a % 2 ^ n
/-- CEQ (R136). -/
def intEq (n : Nat) (a b : Nat) : Bool := a % 2 ^ n == b % 2 ^ n
/-- CLT, CLTN (R136). -/
def intLt (n : Nat) (readSigned : Bool) (a b : Nat) : Bool := readN n readSigned a < readN n readSigned b
/-- CLE, CLEN (R136). -/
def intLe (n : Nat) (readSigned : Bool) (a b : Nat) : Bool := readN n readSigned a ≤ readN n readSigned b
/-- CLZ (R133). -/
def intClz (n : Nat) (a : Nat) : Nat := leadingZeros (a % 2 ^ n) n
/-- CTZ (R133). -/
def intCtz (n : Nat) (a : Nat) : Nat := lowestFrom (a % 2 ^ n) n 0
/-- POPC (R133). -/
def intPopc (n : Nat) (a : Nat) : Nat := popCount n a
/-- BREV (R133). -/
def intBrev (n : Nat) (a : Nat) : Nat := reverseBits n a

/-- LUT3 at one bit position (R129). -/
def lutBit (table : Nat) (x y z : Bool) : Bool := bitAt table (4 * flag01 x + 2 * flag01 y + flag01 z)

/-- LUT3 on the low `n` bits of three numbers (R129, R163). -/
def lutBits (table x y z : Nat) : Nat → Nat
  | 0 => 0
  | n + 1 => flag01 (lutBit table (bitAt x n) (bitAt y n) (bitAt z n)) * 2 ^ n + lutBits table x y z n

/-- FSHL: bits [127−n : 64−n] of W (R132). -/
def funnelLeft (a b : Word) (k : Nat) : Word := BitVec.ofNat 64 ((a.toNat * 2 ^ 64 + b.toNat) >>> (64 - k))
/-- FSHR: bits [63+n : n] of W (R132). -/
def funnelRight (a b : Word) (k : Nat) : Word := BitVec.ofNat 64 ((a.toNat * 2 ^ 64 + b.toNat) >>> k)

/-- EXT (R134). -/
def fieldSigned (a : Word) (pos len : Nat) : Word := sx64 len (bitsAt a.toNat pos len)
/-- EXTN (R134). -/
def fieldUnsigned (a : Word) (pos len : Nat) : Word := BitVec.ofNat 64 (bitsAt a.toNat pos len)
/-- INS (R134). -/
def fieldInsert (d a : Word) (pos len : Nat) : Word := BitVec.ofNat 64 (setBits d.toNat pos len a.toNat)

end Sys2Proof.Machine
end

