-- ==== Sys2Proof/Machine/Lanes.lean ====
section
/-!
DEFINITION. Lanes of a 512-bit vector register, given as a number below 2^512, and of a 64-bit mask, given as a number
(R148, R149): lane operations, the fixed reduction tree (R169 to R171), lane conversions and decodes (R172, R173) and narrow
dot products (R174).
-/
namespace Sys2Proof.Machine

/-- Lanes of width `w` in a register (R148). -/
def laneCount (w : Nat) : Nat := 512 / w

/-- Combine lane results under a mask: active lanes take `f`, inactive ones keep `old` or, with `z`, become zero (R149). -/
def mapLanes (w k : Nat) (z : Bool) (old : Nat) (f : Nat → Nat × Flags) : Nat × Flags :=
  let l := (List.range (laneCount w)).map fun j =>
    if bitAt k j then f j else (if z then 0 else elemAt w old j, flagsNone)
  (packElems w (l.map Prod.fst), l.foldl (fun a r => flagsOr a r.2) flagsNone)

/-- Operand B of a major 0x60 instruction in a lane, from a 64-bit value (R160, sub 1 and 2). -/
def broadcastLane (w : Nat) (v : Nat) : Nat := v % 2 ^ w

/-- Integer lane result without flags. -/
def plainLane (v : Nat) : Nat × Flags := (v, flagsNone)

/-- VADD in a lane (R161). -/
def laneAdd (et rm : Nat) (sat : Bool) (a b : Nat) : Nat × Flags :=
  match floatFmt et with
  | some f => fpAdd f rm a b
  | none => plainLane ((if sat then intAddSat else intAdd) (fmtWidth et) (fmtIsSigned et) a b)
/-- VSUB in a lane. -/
def laneSub (et rm : Nat) (sat : Bool) (a b : Nat) : Nat × Flags :=
  match floatFmt et with
  | some f => fpSub f rm a b
  | none => plainLane ((if sat then intSubSat else intSub) (fmtWidth et) (fmtIsSigned et) a b)
/-- VMUL in a lane. -/
def laneMul (et rm : Nat) (sat : Bool) (a b : Nat) : Nat × Flags :=
  match floatFmt et with
  | some f => fpMul f rm a b
  | none => plainLane ((if sat then intMulSat else intMul) (fmtWidth et) (fmtIsSigned et) a b)
/-- VMULH in a lane: signed for i types, unsigned for n types (R161). -/
def laneMulh (et : Nat) (a b : Nat) : Nat × Flags := plainLane (intMulh (fmtWidth et) (fmtIsSigned et) a b)
/-- VMIN in a lane. -/
def laneMin (et : Nat) (a b : Nat) : Nat × Flags :=
  match floatFmt et with
  | some f => fpMinMax f false a b
  | none => plainLane (intMinOf (fmtWidth et) (fmtIsSigned et) a b)
/-- VMAX in a lane. -/
def laneMax (et : Nat) (a b : Nat) : Nat × Flags :=
  match floatFmt et with
  | some f => fpMinMax f true a b
  | none => plainLane (intMaxOf (fmtWidth et) (fmtIsSigned et) a b)

/-! ### Reductions (R169) -/

/-- The five combining operations of VRED and VSCAN, and XOR. -/
inductive RedOp where
  | add | min | max | and | or | xor
  deriving DecidableEq, Repr

/-- The reduction that `sub` names (R170). -/
def redOpOf (sub : Nat) : RedOp :=
  match sub with
  | 0 => .add | 1 => .min | 2 => .max | 3 => .and | 4 => .or | _ => .xor

/-- One combination, rounded once to the lane format. -/
def redCombine (op : RedOp) (et rm : Nat) (a b : Nat) : Nat × Flags :=
  match op with
  | .add => laneAdd et rm false a b
  | .min => laneMin et a b
  | .max => laneMax et a b
  | .and => plainLane (intAnd (fmtWidth et) a b)
  | .or => plainLane (intOr (fmtWidth et) a b)
  | .xor => plainLane (intXor (fmtWidth et) a b)

/-- What an empty root gives (R169). -/
def redIdentity (op : RedOp) (et : Nat) : Nat :=
  match op with
  | .add => 0
  | .or => 0
  | .xor => 0
  | .and => 2 ^ fmtWidth et - 1
  | .min => match floatFmt et with
    | some f => infBits f
    | none => lowBits (fmtWidth et) (intMax (fmtIsSigned et) (fmtWidth et))
  | .max => match floatFmt et with
    | some f => withSign f true (infBits f)
    | none => lowBits (fmtWidth et) (intMin (fmtIsSigned et) (fmtWidth et))

/-- Two tree values combined; an empty one yields to the other without rounding (R169). -/
def redJoin (op : RedOp) (et rm : Nat) (x y : Option Nat × Flags) : Option Nat × Flags :=
  match x.1, y.1 with
  | some a, some b =>
    let r := redCombine op et rm a b
    (some r.1, flagsOr (flagsOr x.2 y.2) r.2)
  | some a, none => (some a, flagsOr x.2 y.2)
  | none, b => (b, flagsOr x.2 y.2)

/-- Node (m, i) of the tree over the active lanes of `v` (R169). -/
def redNode (op : RedOp) (et rm k v : Nat) : Nat → Nat → Option Nat × Flags
  | 0, i => (if bitAt k i then some (elemAt (fmtWidth et) v i) else none, flagsNone)
  | m + 1, i => redJoin op et rm (redNode op et rm k v m (2 * i)) (redNode op et rm k v m (2 * i + 1))

/-- VRED's root (R170). -/
def redRoot (op : RedOp) (et rm k v : Nat) : Nat × Flags :=
  let r := redNode op et rm k v (Nat.log2 (laneCount (fmtWidth et))) 0
  (r.1.getD (redIdentity op et), r.2)

/-- VSCAN: the blocks of lanes 0..m−1 from the highest power of two down, combined left to right (R171). `b` powers remain,
`s` lanes are already covered. -/
def scanBlocks (op : RedOp) (et rm k v m : Nat) : Nat → Nat → Option Nat × Flags → Option Nat × Flags
  | 0, _, acc => acc
  | b + 1, s, acc =>
    if bitAt m b then
      scanBlocks op et rm k v m b (s + 2 ^ b) (redJoin op et rm acc (redNode op et rm k v b (s / 2 ^ b)))
    else scanBlocks op et rm k v m b s acc

/-- VSCAN's lane `j` (R171). -/
def scanLane (op : RedOp) (et rm k v j : Nat) : Nat × Flags :=
  let r := scanBlocks op et rm k v (j + 1) 7 0 (none, flagsNone)
  (r.1.getD (redIdentity op et), r.2)

/-! ### Conversions -/

/-- Integer to integer (R172): extension by the source signedness, then the low bits or, with `sat`, the clamped value. -/
def intToInt (src dst : Nat) (sat : Bool) (a : Nat) : Nat :=
  let i := readN (fmtWidth src) (fmtIsSigned src) a
  let w := fmtWidth dst
  lowBits w (if sat then clampInt (intMin (fmtIsSigned dst) w) (intMax (fmtIsSigned dst) w) i else i)

/-- One element converted (R24, R29, R32): bits, flags and the SR state after it. -/
def convertElem (src dst rm st : Nat) (sat : Bool) (v i : Nat) : Nat × Flags × Nat :=
  if fmtIsInt src && fmtIsInt dst then (intToInt src dst sat (elemAt (fmtWidth src) v i), flagsNone, st)
  else
    let u := if rm = 4 then srNext st else st
    let r := convertVal dst rm u (elemValAt src v i)
    (r.1, r.2, u)

/-- The running result of a lane conversion: destination string, flags, SR state. -/
structure CvtAcc where
  dst : Nat
  fl : Flags
  st : Nat
  deriving DecidableEq, Repr

/-- One `j` of VCVT's loop, for a destination other than x4 (R172). -/
def cvtStep (src dst rm : Nat) (sat z : Bool) (k v n part : Nat) (acc : CvtAcc) (j : Nat) : CvtAcc :=
  let ws := fmtWidth src
  let wd := fmtWidth dst
  let si := if ws < wd then part * n + j else j
  let di := if wd < ws then part * n + j else j
  if bitAt k j then
    let r := convertElem src dst rm acc.st sat v si
    { dst := setElem wd acc.dst di r.1, fl := flagsOr acc.fl r.2.1, st := r.2.2 }
  else if z then { acc with dst := setElem wd acc.dst di 0 } else acc

/-- One pair `(2i, 2i+1)` of VCVT's loop into x4 (R35, R172). -/
def cvtPair (src rm : Nat) (z : Bool) (k v n part : Nat) (acc : CvtAcc) (i : Nat) : CvtAcc :=
  let ws := fmtWidth src
  let di := if 4 < ws then part * n + 2 * i else 2 * i
  if bitAt k (2 * i) then
    let r := x4Encode rm acc.st (elemValAt src v (2 * i)) (elemValAt src v (2 * i + 1))
    { dst := setElem 8 acc.dst (di / 2) r.1, fl := flagsOr acc.fl r.2.1, st := r.2.2 }
  else if z then { acc with dst := setElem 8 acc.dst (di / 2) 0 } else acc

/-- VCVT (R172): the destination register, flags and SR state. -/
def cvtLanes (src dst rm : Nat) (sat z : Bool) (k part v old st : Nat) : CvtAcc :=
  let wm := max (fmtWidth src) (fmtWidth dst)
  let n := 512 / wm
  if dst = 0x10 then
    (List.range (n / 2)).foldl (cvtPair src rm z k v n part) ⟨old, flagsNone, st⟩
  else
    (List.range n).foldl (cvtStep src dst rm sat z k v n part) ⟨old, flagsNone, st⟩

/-- A stored element decoded into a lane type, rounded once with RNE (R173); `scale` is its block's scale code. -/
def decodeInto (fmt lane v i scale : Nat) : Nat × Flags :=
  if fmtIsInt fmt && fmtIsInt lane then plainLane (intToInt fmt lane false (elemAt (fmtWidth fmt) v i))
  else convertVal lane 0 0 (if fmtIsBlock fmt then blockVal fmt scale v i else elemValAt fmt v i)

/-- Group size of VDOT (R174). -/
def dotGroup (sf : Nat) : Nat := 32 / fmtWidth sf

/-- VDOT on integer sources: exact products and sum plus the lane, wrapped or clamped (R174). -/
def dotInt (sf : Nat) (sat : Bool) (a b lane j : Nat) : Nat :=
  let g := dotGroup sf
  let rd := fun v i => readN (fmtWidth sf) (fmtIsSigned sf) (elemAt (fmtWidth sf) v i)
  let s := (List.range g).foldl (fun (acc : Int) i => acc + rd a (g * j + i) * rd b (g * j + i)) (signedOf 32 lane)
  lowBits 32 (if sat then clampInt (intMin true 32) (intMax true 32) s else s)

/-- The f32 layout. -/
def f32Fmt : FloatFmt := ⟨8, 23, 127, true, 0x7F7FFFFF, 0x7FC00000⟩

/-- The tree over `2^m` product leaves from leaf `i` (R174). -/
def dotNode (sf rm a b : Nat) : Nat → Nat → Nat × Flags
  | 0, i =>
    let p := fvMul (elemValAt sf a i) (elemValAt sf b i)
    roundWith f32Fmt rm p
  | m + 1, i =>
    let x := dotNode sf rm a b m (2 * i)
    let y := dotNode sf rm a b m (2 * i + 1)
    let r := fpAdd f32Fmt rm x.1 y.1
    (r.1, flagsOr (flagsOr x.2 y.2) r.2)

/-- VDOT on floating-point sources (R174). -/
def dotFp (sf rm a b lane j : Nat) : Nat × Flags :=
  let x := dotNode sf rm a b (Nat.log2 (dotGroup sf)) j
  let r := fpAdd f32Fmt rm lane x.1
  (r.1, flagsOr x.2 r.2)

/-- One lane of a SWEEP line operation (ops xsum, add, max, min, dot) (SWEEP entry). -/
def sweepLane (sub et rm d l c : Nat) : Nat × Flags :=
  match sub with
  | 0 => plainLane (intXor (fmtWidth et) d l)
  | 1 => laneAdd et rm false d l
  | 2 => laneMax et d l
  | 3 => laneMin et d l
  | _ => match floatFmt et with
    | some f => fpFma f rm false false l c d
    | none => plainLane (intAdd (fmtWidth et) true d (intMul (fmtWidth et) true l c))

end Sys2Proof.Machine
end

