-- ==== Sys2Proof/Machine/Scopes.lean ====
section
/-!
DEFINITION. Scopes, views of the lower-bound network and the comparison of phases (R210 to R215, R237), the inbox ring
(R235 to R237, R241), and what a waiting row waits for.
-/
namespace Sys2Proof.Machine

/-! ### Phases (R214) -/

/-- `a > b` modulo 2^32 (R214). -/
def phGt (a b : Nat) : Bool :=
  let d := (a + 2 ^ 32 - b % 2 ^ 32) % 2 ^ 32
  1 ≤ d && d < 2 ^ 31

/-- `a ≤ b` modulo 2^32. -/
def phLe (a b : Nat) : Bool := !phGt a b

/-- The lesser of two phases. -/
def phMin (a b : Nat) : Nat := if phGt a b then b else a

/-- The greater of two phases. -/
def phMax (a b : Nat) : Nat := if phGt a b then a else b

/-- A figure of the network exceeds `v`; none exceeds every value (R212). -/
def figGt (f : Option Nat) (v : Nat) : Bool :=
  match f with
  | none => true
  | some x => phGt x v

/-- The least of a list of phases; none when empty. -/
def phLeast : List Nat → Option Nat
  | [] => none
  | x :: r => some (r.foldl phMin x)

/-! ### Rectangles (R210, R211) -/

/-- A rectangle of executors. -/
structure Rect where
  x0 : Nat
  y0 : Nat
  x1 : Nat
  y1 : Nat
  deriving DecidableEq, Repr

/-- The rectangle packed in 32 bits as scope operands and rectangle words hold it. -/
def rectOf (v : Nat) : Rect := ⟨bitsAt v 0 8, bitsAt v 8 8, bitsAt v 16 8, bitsAt v 24 8⟩

/-- The whole partition (R211). -/
def wholeRect : Rect := ⟨0, 0, 31, 31⟩

/-- Whether an executor lies in a rectangle. -/
def Rect.has (q : Rect) (e : Nat) : Bool := q.x0 ≤ exX e && exX e ≤ q.x1 && q.y0 ≤ exY e && exY e ≤ q.y1

/-- Whether a rectangle lies within another. -/
def Rect.within (a b : Rect) : Bool := b.x0 ≤ a.x0 && a.x1 ≤ b.x1 && b.y0 ≤ a.y0 && a.y1 ≤ b.y1

/-- The rectangle of scope slot σ of a partition: 0 the whole partition, 1..16 a registered rectangle. -/
def scopeRect (s : State) (p σ : Nat) : Option Rect :=
  if σ = 0 then some wholeRect
  else if σ ≤ 16 ∧ regBits s (rectAt p (σ - 1)) 32 1 = 1 then some (rectOf (regBits s (rectAt p (σ - 1)) 0 32))
  else none

/-- The row's own scope slot, or the reason it has none (R211): 0 with `false` then. -/
def ownScope (s : State) (r : Nat) : Nat × Bool :=
  let σ := getF s r fScope
  match scopeRect s (partOf s r) σ with
  | some q => if q.has (homeOf r) then (σ, true) else (0, false)
  | none => (0, false)

/-- The rectangle a row counts under (R211, R212). -/
def ownRect (s : State) (r : Nat) : Rect := (scopeRect s (partOf s r) (ownScope s r).1).getD wholeRect

/-- A scope operand (R211): its slot, or the fault. -/
def scopeOperand (s : State) (r : Nat) (v : Word) : Except FaultRec Nat :=
  let p := partOf s r
  let w := v.toNat
  let f := fun d => FaultRec.mk cSCOPE d (bitsAt w 0 48) 0
  if w = 0x1F1F0000 then .ok 0
  else if bitsAt w 32 32 ≠ 0 then .error (f 1)
  else match (List.range 16).find? fun i => regBits s (rectAt p i) 32 1 == 1 && regBits s (rectAt p i) 0 32 == w with
    | none => .error (f 1)
    | some i => if (rectOf w).has (homeOf r) then .ok (i + 1) else .error (f 2)

/-- The scope slots whose rectangle holds the row's own (R212). -/
def countedScopes (s : State) (r : Nat) : List Nat :=
  (List.range 17).filter fun σ =>
    match scopeRect s (partOf s r) σ with
    | some q => (ownRect s r).within q
    | none => false

/-- Whether a state is counted (R212). -/
def countedCode (c : Nat) : Bool := 2 ≤ c && c ≤ 7

/-! ### Views (R215, R237) -/

/-- Key of a scope of a context. -/
def scopeKey (p c σ : Nat) : Nat := (p * 8 + c) * 17 + σ

/-- The floor of a scope (R213). -/
def floorOf (s : State) (p c σ : Nat) : Nat := tabGetD s.ms.floors (scopeKey p c σ) 0

/-- The view of a scope: the last values delivered; until the first delivery the scope's floor as it stood at reset, 0, and none
(R215). -/
def viewOf (s : State) (p c σ : Nat) : View := tabGetD s.ms.views (scopeKey p c σ) ⟨some 0, none, none⟩

/-- A row's view of a scope of its context. -/
def rowView (s : State) (r σ : Nat) : View := viewOf s (partOf s r) (ctxOf s r) σ

/-- Whether a PHASE may raise VT from `p` (R214, R224). -/
def mayRaise (s : State) (r p : Nat) : Bool :=
  (countedScopes s r).all fun σ =>
    match (rowView s r σ).lb with
    | none => true
    | some lb => (p + 1 + 2 ^ 32 - lb) % 2 ^ 32 < 2 ^ 30

/-! ### The inbox ring (R235, R237) -/

/-- Notes present: (TAIL − HEAD) mod 16, of which positions 0..7 are seen. -/
def inboxCount (s : State) (r : Nat) : Nat := (getF s r fTail + 16 - getF s r fHead) % 16

/-- The row offset of the note at position `m`. -/
def inboxAt (s : State) (r m : Nat) : Nat := 0x700 + 32 * ((getF s r fHead + m) % 8)

/-- The header at position `m`. -/
def inboxHdr (s : State) (r m : Nat) : Nat := rowNat s r (inboxAt s r m) 8

/-- Whether the note with this header may be delivered (R237). -/
def deliverable (s : State) (r hdr : Nat) : Bool :=
  if bitAt hdr 63 then
    let v := rowView s r (ownScope s r).1
    let st := bitsAt hdr 0 32
    (match v.lb with | none => true | some x => phLe st x) && (match v.nb with | none => true | some x => phLe st x)
  else true

/-- Whether a header is a system note's. -/
def isSystemHdr (hdr : Nat) : Bool := 3 ≤ bitsAt hdr 60 3 && bitsAt hdr 60 3 ≤ 5

/-- The gated note of least STAMP, then least SENDER, then earliest landing. -/
def gatedBetter (s : State) (r m n : Nat) : Nat :=
  let a := inboxHdr s r m
  let b := inboxHdr s r n
  if phGt (bitsAt a 0 32) (bitsAt b 0 32) then n
  else if bitsAt a 0 32 = bitsAt b 0 32 ∧ bitsAt b 32 28 < bitsAt a 32 28 then n
  else m

/-- The position RECV and RECVQ choose (R237). -/
def choosePos (s : State) (r : Nat) : Option Nat :=
  let ps := (List.range (min 8 (inboxCount s r))).filter fun m => deliverable s r (inboxHdr s r m)
  match ps.find? fun m => isSystemHdr (inboxHdr s r m) with
  | some m => some m
  | none =>
    match ps.find? fun m => !bitAt (inboxHdr s r m) 63 with
    | some m => some m
    | none =>
      match ps with
      | [] => none
      | m :: rest => some (rest.foldl (gatedBetter s r) m)

/-! ### Outstanding accesses of a row (R227, R228) -/

/-- Whether an address's home lies in a rectangle (R218): the second tier lies in every scope; hub words count as theirs. -/
def homeIn (a : Nat) (q : Rect) : Bool :=
  match placeOf a with
  | .hbm => q.has (addrHome a)
  | .rowWindow => q.has (addrHome a)
  | .palette => q.has (addrHome a)
  | .exPage => q.has (addrHome a)
  | _ => true

/-- Entries of a row, early-dried or not, with a home in the scope, older than `upto` (R227). -/
def entriesLeft (s : State) (r : Nat) (q : Rect) (upto : Nat) : Bool :=
  s.ms.wet.any fun w => w.row == r && w.id < upto && homeIn (w.line * 64) q

/-- Whether an event is a message of a row on a path, older than `upto`; a wet entry on its way to dry is looked at as an entry. -/
def messageOf (r : Nat) (path : Path) (upto : Nat) (t : Timed) : Bool :=
  t.tag.row == r && t.tag.path == path && t.tag.request && t.seq < upto && t.tag.flow != 0 &&
  (match t.ev with | .driedStoreApply _ => false | _ => true)

/-- Messages of a row still under way on a path, or kept in a drop cloth (R349), older than `upto`. -/
def messagesLeft (s : State) (r : Nat) (path : Path) (upto : Nat) : Bool :=
  s.agenda.any (messageOf r path upto) || s.hub.cloths.any fun e => e.2.any (messageOf r path upto)

/-- Whether a direct access of a row with a home in the scope, older than `upto`, is not yet acknowledged (R227). -/
def acksLeft (s : State) (r : Nat) (q : Rect) (upto : Nat) : Bool :=
  s.ms.reqs.any fun e => e.2.row == r && e.1 < upto && e.2.path == .T && e.2.elems.any fun x => homeIn x.addr q

/-- Whether an access of a row on a path, older than `upto`, is not yet applied at its home, wherever that is (R228): one that has
arrived and is held there, a note that has neither landed nor bounced. -/
def accessLeft (s : State) (r : Nat) (path : Path) (upto : Nat) : Bool :=
  s.ms.reqs.any fun e => e.2.row == r && e.1 < upto && e.2.path == path && e.2.elems.any fun x => x.got.isNone

/-- Whether an outstanding FENCEX has all of its before set performed (R228): entries with homes in the scope, and every earlier direct
access. -/
def fencexDone (s : State) (f : FenceX) : Bool :=
  let q := (scopeRect s (partOf s f.row) f.scope).getD wholeRect
  !(bitAt f.before 0 && (entriesLeft s f.row q f.upto || accessLeft s f.row .T f.upto || messagesLeft s f.row .T f.upto)) &&
  !(bitAt f.before 1 && s.eng.copies.any fun c => c.row == f.row && c.id < f.upto && c.state != 2 && c.state != 4) &&
  !(bitAt f.before 2 && (messagesLeft s f.row .M f.upto || accessLeft s f.row .M f.upto || s.eng.mma.any fun m => m.2.row == f.row)) &&
  !(bitAt f.before 3 && (messagesLeft s f.row .G f.upto || accessLeft s f.row .G f.upto || s.eng.rules.any fun e => e.2.queue.any fun x => x.row == f.row && x.id < f.upto)) &&
  !(bitAt f.before 4 && s.join.msgs.any fun m => m.row == f.row && m.id < f.upto && m.answer.isNone) &&
  !(bitAt f.before 5 && (messagesLeft s f.row .S f.upto || s.eng.sweep.any fun m => m.2.row == f.row)) &&
  !(bitAt f.before 6 && (messagesLeft s f.row .N f.upto || accessLeft s f.row .N f.upto || f.words != 0))

/-- FENCEX records of a row that are not yet resolved. -/
def fencexOpen (s : State) (r : Nat) : List FenceX := s.ms.fencex.filter fun f => f.row == r && !fencexDone s f

/-- The first unresolved FENCEX that holds an instruction starting an access on these paths (R228). -/
def fencexHolds (s : State) (r : Nat) (paths : List Nat) : Option Nat :=
  ((fencexOpen s r).find? fun f => paths.any fun p => bitAt f.after p).map FenceX.n

/-! ### Conditions of waits -/

/-- Copies of a row in the groups of a mask that have not ended (R273). -/
def copiesLeft (s : State) (r mask : Nat) : Nat :=
  (s.eng.copies.filter fun c => c.row == r && bitAt mask c.group && c.state != 2).length

/-- Copy records of the row's partition at its executor, of 32·n_p (R272). -/
def copyRoom (s : State) (r : Nat) : Bool :=
  (s.eng.copies.filter fun c => c.ex == exOf r && c.part == partOf s r && !c.out).length < 32 * slotCount s (partOf s r)

/-- Wet entries a partition holds at an executor, spilled ones not counted (R209). -/
def wetHeld (s : State) (ex p : Nat) : Nat := (s.ms.wet.filter fun w => w.ex == ex && w.part == p && !w.spilled).length

/-- Whether the context's wet-spill area has room for one more entry of 128 bytes (R209, R345). -/
def spillRoom (s : State) (p c : Nat) : Bool :=
  128 * ((s.ms.wet.filter fun w => w.part == p && w.ctx == c && w.spilled).length + 1)
    ≤ regBits s (supAt p + 0x108 + 0x20 * c) 0 40

/-- Room for one more entry: in the buffer, or by spilling one (R209). -/
def wetRoom (s : State) (r : Nat) : Bool :=
  wetHeld s (exOf r) (partOf s r) < 32 * slotCount s (partOf s r) || spillRoom s (partOf s r) (ctxOf s r)

/-- Endpoints bound at an executor (R242). -/
def boundEnds (s : State) (ex : Nat) : Nat := (s.msg.ends.filter fun e => e.bound && homeOf e.row == ex).length

/-- Whether a row has an endpoint or may bind one (R242). -/
def endRoom (s : State) (r : Nat) : Bool := (endOf s r).any Endpoint.bound || boundEnds s (homeOf r) < 64

/-- Whether a condition holds now. -/
def condTrue (s : State) (r : Nat) (c : Cond) : Bool :=
  match c with
  | .event => false
  | .note => (choosePos s r).isSome
  | .phase _ σ p => figGt (rowView s r σ).lb p && figGt (rowView s r σ).db p
  | .phaseRoom => mayRaise s r (getF s r fPhase)
  | .lower _ σ v => figGt (rowView s r σ).lb v
  | .chanIn => ((endOf s r).map fun e => !e.inp.isEmpty).getD false
  | .chanOut =>
    endRoom s r && ((endOf s r).map fun e => e.out.length).getD 0 < 16
  | .copies mask => copiesLeft s r mask == 0
  | .copyRecord => copyRoom s r
  | .paged => false
  | .wetRoom => wetRoom s r
  | .fencex n => !((fencexOpen s r).any fun f => f.n == n)
  | .fencexRoom => (fencexOpen s r).length < 8
  | .fence σ upto =>
    let q := (scopeRect s (partOf s r) σ).getD wholeRect
    !entriesLeft s r q upto && !acksLeft s r q upto
  | .unitFree => (tabGetD s.eng.units (exOf r) freeUnit).holder.isNone
  | .walks t upto => upto ≤ s.clk.now && !(s.ms.walks.any fun w => w.part == partOf s r && w.started && w.began < t)

/-! ### What the network samples (R212, R213, R215, R237) -/

/-- Whether a row's join has not reached the root yet; it is counted from the root's next sample on (R213). -/
def joinUnderWay (s : State) (r : Nat) : Bool := s.rows.joining.contains r

/-- Whether a row may not issue before the root's answer is applied (R213). -/
def joinPending (s : State) (r : Nat) : Bool := s.rows.joining.contains r || s.rows.joining.contains (r + 2 ^ 28)

/-- Rows counted in scope `σ` of context `c` of partition `p` (R212). -/
def countedRows (s : State) (p c σ : Nat) : List Nat :=
  match scopeRect s p σ with
  | none => []
  | some q => s.rows.kinds.filter fun r =>
      partOf s r == p && ctxOf s r == c && countedCode (codeOf s r) && !joinUnderWay s r && (ownRect s r).within q

/-- LB as it now stands (R212). -/
def lbNow (s : State) (p c σ : Nat) : Option Nat := phLeast ((countedRows s p c σ).map fun r => getF s r fPhase)

/-- DB as it now stands (R212). -/
def dbNow (s : State) (p c σ : Nat) : Option Nat :=
  match scopeRect s p σ with
  | none => none
  | some q => phLeast ((s.ms.wet.filter fun w => w.part == p && w.ctx == c && (ownRect s w.row).within q).map Wet.tag)

/-- NB as it now stands (R237). -/
def nbNow (s : State) (p c σ : Nat) : Option Nat :=
  match scopeRect s p σ with
  | none => none
  | some q => phLeast ((s.msg.fly.filter fun f => partOf s f.row == p && ctxOf s f.row == c && (ownRect s f.row).within q).map FlyNote.stamp)

/-- A progress beat (R341). -/
def beat (s : State) (r : Nat) : State := setF s r fBeats (min (getF s r fBeats + 1) 255)

/-- PHASE ends: VALID is cleared and S[d] receives VT.PHASE (R224). -/
def phaseEnd (s : State) (r d : Nat) : State :=
  let s := setF s r fValid 0
  finish (beat (setS s r d (BitVec.ofNat 64 (getF s r fPhase))) r) r 4

/-- WAITLB ends: the view of LB, bit 32 when it is none (R226). -/
def waitlbEnd (s : State) (r d σ : Nat) : State :=
  let v := match (rowView s r σ).lb with
    | some x => x
    | none => 2 ^ 32
  finish (setS s r d (BitVec.ofNat 64 v)) r 4

end Sys2Proof.Machine
end

