-- ==== Sys2Proof/Machine/Context.lean ====
section
/-!
DEFINITION. The end of a whole context (R339), and the words of register pages and hub windows as loads read them and stores
write them (R5, R6, R177, R181, R210, R256, R276, R344, R362, R372, R373, R379).
-/
namespace Sys2Proof.Machine

/-- Key of a rack: level 0 executor, 1 studio, 2 stack, 3 overflow of a stack (R247). -/
def rackKey (level unit p : Nat) : Nat := (level * 1024 + unit) * 32 + p

/-- Word `off` of a pot's descriptor (R261). -/
def potAt (studio n off : Nat) : Nat := exPage (studioMember studio 0) + 0x4000 + 0x20 * n + off

/-- Whether a register address is the first word of a pot descriptor of partition `p` set by context `c`. -/
def isPotOf (s : State) (p c a : Nat) : Bool :=
  placeOf a == .exPage && 0x4000 ≤ a % 0x10000 && a % 0x10000 < 0x5000 && a % 0x20 == 0 &&
  bitAt (bankSet s p) ((a % 0x10000 - 0x4000) / 0x20 / 4) && regBits s a 51 1 == 1 && regBits s a 52 3 == c

/-- Rule operations of rows that are no more write nothing (R339, R369): one that works for such a row has nothing left to do, and ends so
that what it held comes; those that wait are dropped when their turn comes. -/
def endOps (s : State) (mine : List Nat) : State :=
  let ending := fun (e : RuleEng) => e.busy && (e.queue.head?.map fun q => mine.contains q.row) == some true
  let none_ : RuleReq := { kind := 1, row := 2 ^ 28, id := s.clk.ids, instr := none, step := 0, readyAt := 0 }
  let hit := s.eng.rules.filter fun e => ending e.2
  let s := freshId { s with eng := { s.eng with
    rules := s.eng.rules.map fun e =>
      (e.1, if ending e.2 then { e.2 with left := 0, plan := [], queue := none_ :: e.2.queue.drop 1 } else e.2)
    halos := s.eng.halos.filter fun h => !mine.contains h.row
    strips := s.eng.strips.filter fun x => !mine.contains x.row } }
  hit.foldl (fun s e => postIn s 0 { path := .G } (.gtblOperation e.1)) s

/-- End a context with a CEND code (R339): its rows retire as by KILL, copies end, wet entries and rack entries are dropped,
pots are cleared, matrix records released, and what the engines do for it ends. -/
def contextEnd (s : State) (p c code : Nat) : State :=
  let mine := s.rows.kinds.filter fun r => partOf s r == p && ctxOf s r == c
  let s := mine.foldl retire s
  let pots := s.regs.filter fun e => isPotOf s p c e.1
  let s := pots.foldl (fun s e => setRegBits s e.1 51 1 0) s
  let s := endOps s mine
  let answers := fun (i : Instr) => match i with
    | .longInstructionComplete r => mine.contains r
    | .accumulatorRestore r => mine.contains r
    | _ => false
  let s := { s with
    agenda := s.agenda.filter fun t => !answers t.ev
    ms := { s.ms with wet := s.ms.wet.filter fun w => !(w.part == p && w.ctx == c)
                      reqs := s.ms.reqs.map fun e =>
                        (e.1, if e.2.part == p && e.2.ctx == c then { e.2 with wait := false } else e.2) }
    eng := { s.eng with
      copies := s.eng.copies.filter fun x => !(x.part == p && x.ctx == c)
      pots := s.eng.pots.filter fun x => !(x.part == p && x.ctx == c)
      records := s.eng.records.filter fun e => !(e.1 % 256 == p * 8 + c)
      units := s.eng.units.filter fun e => !(e.2.part == p && e.2.ctx == c && e.2.holder.isSome)
      mma := s.eng.mma.filter fun e => !(partOf s e.2.row == p && ctxOf s e.2.row == c)
      sweep := s.eng.sweep.filter fun e => !(partOf s e.2.row == p && ctxOf s e.2.row == c)
      bsums := s.eng.bsums.map fun e =>
        (e.1, if mine.contains (e.2.getD 4 0).toNat then e.2.set 5 0 else e.2) }
    join := { s.join with msgs := s.join.msgs.map fun m => if mine.contains m.row then { m with wait := false } else m }
    msg := { s.msg with
      racks := s.msg.racks.map fun e => (e.1, if e.1 % 32 == p then e.2.filter fun x => x.ctx != c else e.2)
      moves := s.msg.moves.map fun m => if m.part == p then { m with entries := m.entries.filter fun x => x.ctx != c } else m
      heldPush := s.msg.heldPush.filter fun h => !(h.part == p && h.entry.ctx == c) }
    hub := { s.hub with cloths := tabDel s.hub.cloths (p * 8 + c), clothLines := tabDel s.hub.clothLines (p * 8 + c) } }
  logBox (setRegBits s (supAt p + 0x118 + 0x20 * c) 24 3 code) 1 0 p c code

/-! ### Register words -/

/-- Entries of a rack, all contexts; a block in transit counts in the rack it left until it lands (R248). -/
def rackCount (s : State) (k : Nat) : Nat :=
  (tabGetD s.msg.racks k []).length + s.msg.moves.foldl (fun n m => if m.src = k then n + m.entries.length else n) 0

/-- The default balancing word (R253): INTERVAL 8, MARGIN 2·b, XSTACK 1, with b = max(1, n_p div 4). -/
def balDefault (s : State) (p : Nat) : Nat := 8 + 2 * max 1 (slotCount s p / 4) * 256 + 2 ^ 16

/-- The balancing word of a partition at an executor (R253). -/
def balOf (s : State) (ex p : Nat) : Nat :=
  let w := regWord s (rackWord ex p 0x18)
  if w = 0 then balDefault s p else w

/-- A word of an executor register page as a load reads it (R256, R261, R276, R373). -/
def pageWord (s : State) (a : Nat) : Nat :=
  let ex := addrHome a
  let o := a % 0x10000 / 8 * 8
  let p := (o - 0x2000) / 0x40
  if 0x2000 ≤ o ∧ o < 0x2800 then
    match o % 0x40 with
    | 0x00 => rackCount s (rackKey 0 ex p) + rackCount s (rackKey 1 (studioOf ex) p) * 2 ^ 16
        + (rackCount s (rackKey 2 (stackOf ex) p) + rackCount s (rackKey 3 (stackOf ex) p)) * 2 ^ 32
    | 0x18 => balOf s ex p
    | 0x38 => boundEnds s ex
    | _ => regWord s (a / 8 * 8)
  else if o = 0x1000 then setBits (regWord s (a / 8 * 8)) 24 1 (regBits s powerAt 3 1)
  else if o = 0x5800 then
    let u := tabGetD s.eng.units ex freeUnit
    if u.holder.isSome then 1 + u.part * 2 + u.ctx * 64 else 0
  else if 0x6000 ≤ o ∧ o < 0x8000 then
    match tabGet s.eng.records (recordKey ex ((o - 0x6000) / 0x100) ((o - 0x6000) / 0x20 % 8)) with
    | none => 0
    | some m =>
      match o % 0x20 with
      | 0x00 => m.owner + flag01 m.valid * 2 ^ 28 + flag01 m.spilled * 2 ^ 29
      | 0x08 => m.spill * 2 ^ 12
      | 0x10 => m.cfg
      | _ => 0
  else regWord s (a / 8 * 8)

/-- Whether rectangle `i` of a partition is BUSY (R210): for some context one of its three figures is not none now. -/
def rectBusy (s : State) (p i : Nat) : Bool :=
  match scopeRect s p (i + 1) with
  | none => false
  | some q =>
    (s.rows.kinds.any fun r => partOf s r == p && countedCode (codeOf s r) && (ownRect s r).within q) ||
    (s.ms.wet.any fun w => w.part == p && (ownRect s w.row).within q) ||
    (s.msg.fly.any fun f => partOf s f.row == p && (ownRect s f.row).within q)

/-- A register word as a load reads it. -/
def readReg (s : State) (a : Nat) : Nat :=
  let w := a / 8 * 8
  match placeOf a with
  | .exPage => pageWord s w
  | .west =>
    if 0x0C0000100000 ≤ w ∧ w < 0x0C0000102000 ∧ w % 0x100 = 0x80 then
      let p := (w - 0x0C0000100000) / 0x100
      packElems 1 ((List.range 16).map fun i => flag01 (rectBusy s p i)) + regBits s w 16 2 * 2 ^ 16
    else regWord s w
  | _ => regWord s w

/-- Forget what the network delivered, or has under way, for a rectangle that changed (R213, R215). -/
def resetScope (s : State) (p σ : Nat) : State :=
  let s := { s with agenda := s.agenda.filter fun t => match t.ev with
    | .lbDelivery k _ _ _ => !(k / 17 / 8 == p && k % 17 == σ)
    | _ => true }
  (List.range 8).foldl (fun s c => { s with ms := { s.ms with
    floors := tabDel s.ms.floors (scopeKey p c σ), views := tabDel s.ms.views (scopeKey p c σ) } }) s

/-- A write to a rectangle word (R210). -/
def writeRect (s : State) (p i v : Nat) : State :=
  let last := rectAt p 16
  let q := rectOf v
  if rectBusy s p i then setRegBits s last 16 2 1
  else if bitAt v 32 ∧ (q.x1 < q.x0 ∨ q.y1 < q.y0 ∨ 32 ≤ q.x0 ∨ 32 ≤ q.y0 ∨ 32 ≤ q.x1 ∨ 32 ≤ q.y1) then
    setRegBits s last 16 2 2
  else setRegBits (resetScope (setRegWord s (rectAt p i) (bitsAt v 0 33)) p (i + 1)) last 16 2 0

/-- The value a software store leaves in a plain register word: bits under `mask` change, reserved bits stay zero (R5, R6). -/
def maskStore (s : State) (w mask v : Nat) : State :=
  setRegWord s w ((regWord s w &&& (2 ^ 64 - 1 - mask)) ||| (v &&& mask))

/-- A software store of a whole word to a register page, the translation registers or a hub window: only the fields that their
chapters mark as writable change (R181, R210, R253, R256, R379). -/
def writeReg (s : State) (a : Nat) (priv : Bool) (v : Nat) : State :=
  let w := a / 8 * 8
  match placeOf a with
  | .ctxRegs => if priv ∧ w % 0x1000 = 0 then maskStore s w 0x7FFFFFFF001 v else s
  | .west =>
    if !priv then s
    else if 0x0C0000100000 ≤ w ∧ w < 0x0C0000102000 ∧ w % 0x100 < 0x80 then
      writeRect s ((w - 0x0C0000100000) / 0x100) (w % 0x100 / 8) v
    else if 0x0C0010000000 ≤ w ∧ w < 0x0C0010200000 ∧ 16 ≤ w % 0x10000 then
      (if w % 16 = 0 then setRegWord s w v else maskStore s w 0x3F v)
    else s
  | .exPage =>
    let o := w % 0x10000
    let ex := addrHome w
    let p := (o - 0x2000) / 0x40
    if priv ∧ 0x2000 ≤ o ∧ o < 0x2800 then
      match o % 0x40 with
      | 0x08 => if localOf ex = 0 then maskStore s w 0xFFFFFFFFF000 v else s
      | 0x10 => if localOf ex = 0 then maskStore s w 0xFFFFFFFF v else s
      | 0x18 =>
        let b := max 1 (slotCount s p / 4)
        setRegWord s w (bitsAt v 0 8 + max b (bitsAt v 8 8) * 256 + bitsAt v 16 1 * 2 ^ 16)
      | _ => s
    else s
  | _ => s

end Sys2Proof.Machine
end

