-- ==== Sys2Proof/Machine/Racks.lean ====
section
/-!
DEFINITION. Racks of sketches: rack order, shares, block moves, lateral balancing (R246 to R253, R398), and diffusing
termination (R254). Every operation on a rack is one act in the order in which the events reach it.
-/
namespace Sys2Proof.Machine

/-- Priority of an entry: PRIO of its sketch (R246). -/
def entryPrio (e : RackEntry) : Nat := bitsAt ((e.sketch.getD 3 0).toNat) 0 6

/-- Whether reserved bits of a sketch are set, which is ILLOP for the instruction that names it (R6, R246). -/
def sketchBad (l : List Word) : Bool := bitsAt ((l.getD 0 0).toNat) 40 24 != 0

/-- CODE of a sketch (R246). -/
def sketchCode (l : List Word) : Nat := bitsAt ((l.getD 0 0).toNat) 0 40

/-- Whether `x` leads `y` in rack order: PRIO highest first, then newest first (R247). -/
def leads (x y : RackEntry) : Bool :=
  entryPrio y < entryPrio x || (entryPrio x == entryPrio y && y.order < x.order)

/-- Insert in rack order. -/
def rackIns (l : List RackEntry) (e : RackEntry) : List RackEntry :=
  l.takeWhile (fun x => leads x e) ++ e :: l.dropWhile fun x => leads x e

/-- The level, unit and partition of a rack key. -/
def rackLevel (k : Nat) : Nat := k / 32 / 1024
/-- The unit of a rack key. -/
def rackUnit (k : Nat) : Nat := k / 32 % 1024
/-- The partition of a rack key. -/
def rackPart (k : Nat) : Nat := k % 32

/-- The stack of a studio. -/
def studioStack (st : Nat) : Nat := 4 * (st / 16 / 4) + st % 16 / 4

/-- The rack above: studio, stack, overflow (R248). -/
def rackParent (k : Nat) : Option Nat :=
  match rackLevel k with
  | 0 => some (rackKey 1 (studioOf (rackUnit k)) (rackPart k))
  | 1 => some (rackKey 2 (studioStack (rackUnit k)) (rackPart k))
  | 2 => some (rackKey 3 (rackUnit k) (rackPart k))
  | _ => none

/-- The share of a rack (R247); the overflow's is OVFSIZE (R256). -/
def rackShare (s : State) (k : Nat) : Nat :=
  let n := slotCount s (rackPart k)
  match rackLevel k with
  | 0 => 2 * n
  | 1 => 16 * n
  | 2 => 128 * n
  | _ => regBits s (rackWord (stackHome (rackUnit k)) (rackPart k) 0x10) 0 32

/-- The block size b (R247). -/
def blockSize (s : State) (p : Nat) : Nat := max 1 (slotCount s p / 4)

/-- Cycles of a block move between a rack and the one above it (R248). -/
def moveTime (lower : Nat) : Nat :=
  match rackLevel lower with
  | 0 => 24
  | 1 => 96
  | _ => 200

/-- Entries of a context in a rack, in rack order. -/
def rackOf (s : State) (k c : Nat) : List RackEntry := (tabGetD s.msg.racks k []).filter fun e => e.ctx == c

/-- The last `n` of a list. -/
def lastN {α : Type} (n : Nat) (l : List α) : List α := l.drop (l.length - n)

/-- Take a block out of a rack and put it in transit (R248, R249). -/
def startMove (s : State) (src dst : Nat) (es : List RackEntry) (d : Nat) : State :=
  let id := s.clk.ids
  let gone := fun (e : RackEntry) => !(es.any fun x => x.order == e.order)
  let s := freshId { s with msg := { s.msg with
    racks := tabUpd s.msg.racks src [] fun l => l.filter gone
    moves := s.msg.moves ++ [⟨id, src, dst, rackPart src, es⟩] } }
  postIn s d { part := rackPart src, path := .N } (.blockMoveLands id)

/-- Move the last block of a context up, the level above first making room for it; none when nothing can move, or while the context is
switched out (R248). -/
def moveUp (s : State) (c : Nat) : Nat → Nat → Option State
  | 0, _ => none
  | fuel + 1, k =>
    match rackParent k with
    | none => none
    | some up =>
      let b := blockSize s (rackPart k)
      let es := if c = activeCtx s (rackPart k) then lastN b (rackOf s k c) else []
      let room := if rackShare s up < rackCount s up + b then moveUp s c fuel up else some s
      match room with
      | none => none
      | some s => if es.isEmpty then none else some (startMove s k up es (moveTime k))

/-- Bring the first block of the active context down from the level above when the rack holds fewer than b, those in transit from it
among them (R248), whether or not a block is on its way down already (log 13); the level above does the same in turn. -/
def refill (s : State) (c : Nat) : Nat → Nat → State
  | 0, _ => s
  | fuel + 1, k =>
    let b := blockSize s (rackPart k)
    match rackParent k with
    | none => s
    | some up =>
      if c ≠ activeCtx s (rackPart k) ∨ b ≤ rackCount s k then s
      else
        let es := (rackOf s up c).take b
        let s := if es.isEmpty then s else startMove s up k es (moveTime k)
        refill s c fuel up

/-- Place a sketch at a rack (R250): 0 placed, 1 FULL, 2 it waits for a move out. -/
def pushAt (s : State) (k : Nat) (e : RackEntry) : State × Nat :=
  if rackShare s k ≤ rackCount s k then
    if s.msg.moves.any fun m => m.src == k then (s, 2)
    else match moveUp s e.ctx 3 k with
      | some s => (s, 2)
      | none => (s, 1)
  else
    let e := { e with order := s.msg.pushes }
    let s := { s with msg := { s.msg with
      racks := tabUpd s.msg.racks k [] fun l => rackIns l e, pushes := s.msg.pushes + 1 } }
    if rackShare s k - blockSize s (rackPart k) < rackCount s k then ((moveUp s e.ctx 3 k).getD s, 0) else (s, 0)

/-- Take the first or the last entry of a context (R247, R251). -/
def takeAt (s : State) (k c : Nat) (fromLast : Bool) : State × Option RackEntry :=
  let l := rackOf s k c
  match if fromLast then l.getLast? else l.head? with
  | none => (s, none)
  | some e =>
    let s := { s with msg := { s.msg with racks := tabUpd s.msg.racks k [] fun l => l.filter fun x => x.order != e.order } }
    (refill s c 3 k, some e)

/-! ### Diffusing termination (R254) -/

/-- An acknowledgement leaves for a parent's home. -/
def sendAck (s : State) (w parent : Nat) : State :=
  sendIn s (oneWay (exOf w) (rowDpa parent)) (rowTag s w .T (rowDpa parent)) (.acknowledgement parent)

/-- An engaging message from `e` reaches `w` (R254). -/
def engage (s : State) (w e : Nat) : State :=
  if getF s w fEng = 0 ∧ e ≠ w then setF (setF s w fParent e) w fEng 1 else sendAck s w e

/-- An acknowledgement is applied at the parent (R254). -/
def acknowledge (s : State) (r : Nat) : State :=
  if isThread s r ∧ codeOf s r ≠ 8 then setF s r fDeficit (getF s r fDeficit - 1) else s

/-! ### Answers to rows that wait at or for a rack -/

/-- Complete a waiting row's instruction with register writes (R110), now or `d` cycles later. -/
def answerRow (s : State) (r : Nat) (ws : List RowWrite) (d : Nat) : State :=
  if codeOf s r ≠ 4 ∧ codeOf s r ≠ 5 then s
  else if d = 0 then endLong s r (ws.map RowWrite.reg) fun s => ws.foldl (fun s w => setS s r w.reg w.val) s
  else postIn { s with rows := { s.rows with longs := tabSet s.rows.longs r ⟨ws, 0, none⟩ } } d { row := r, part := partOf s r }
    (.longInstructionComplete r)

/-- What TAKE writes and does with its outcome (R251): a sketch engages the taker and is a progress beat. -/
def takeGot (s : State) (r d : Nat) (e : Option RackEntry) : State × List RowWrite :=
  match e with
  | none => (s, [⟨d, 0⟩])
  | some e =>
    let s := beat s r
    let s := match e.engager with
      | some g => engage s r g
      | none => s
    (s, (List.range 4).map fun i => ⟨d + i, e.sketch.getD i 0⟩)

/-- A push ends with status `st` for the row that made it (R250): FULL returns the unit of DEFICIT; with d = s0 FULL is counted
in BOUNCED. -/
def pushEnd (s : State) (o : RackOp) (engaging : Bool) (st : Nat) : State :=
  let s := if st = 1 ∧ engaging ∧ isThread s o.row then setF s o.row fDeficit (getF s o.row fDeficit - 1) else s
  if o.d = 0 ∧ o.delay ≠ 0 then
    if st = 1 then regAdd s (rackWord (exOf o.row) o.part 0x20) 1 else s
  else
    let s := if o.d = 0 ∧ st = 1 then regAdd s (rackWord (exOf o.row) o.part 0x20) 1 else s
    answerRow s o.row [⟨o.d, BitVec.ofNat 64 st⟩] o.delay

/-- The rack a waiting TAKE searches next: bring a block one level nearer; none when no level holds an entry (R251). -/
def pullDown (s : State) (c : Nat) : Nat → Nat → Option State
  | 0, _ => none
  | fuel + 1, k =>
    match rackParent k with
    | none => none
    | some up =>
      if s.msg.moves.any fun m => m.dst == k && m.src == up && m.entries.any fun e => e.ctx == c then some s
      else
        let es := (rackOf s up c).take (blockSize s (rackPart k))
        if es.isEmpty then pullDown s c fuel up
        else some (refill (startMove s up k es (moveTime k)) c 2 up)

/-- The row of an operation that no row makes: a continuation (R252). -/
def noRow : Nat := 2 ^ 28

/-- A continuation that a full hierarchy refuses is offered again 1,024 cycles later (R252). -/
def holdPush (s : State) (o : RackOp) (e : RackEntry) : State :=
  let h : HeldPush := ⟨s.clk.ids, o.rack, o.part, e⟩
  postIn (freshId { s with msg := { s.msg with heldPush := s.msg.heldPush ++ [h] } }) 1024 { part := o.part, path := .N } (.continuationRetry h.id)

/-- One rack operation at its rack: a push, or a take from the last end, or a TAKE of the own hierarchy that waits (R250, R251). -/
def rackAct (s : State) (o : RackOp) : State :=
  let keep := fun (s : State) => { s with msg := { s.msg with rackOps := s.msg.rackOps ++ [{ o with wait := true }] } }
  match o.push with
  | some e =>
    let x := pushAt s o.rack e
    if x.2 = 2 then keep x.1
    else if o.row = noRow then (if x.2 = 0 then x.1 else holdPush x.1 o e)
    else pushEnd x.1 o e.engager.isSome x.2
  | none =>
    if o.fromLast then
      let x := takeAt s o.rack o.ctx true
      let y := takeGot x.1 o.row o.d x.2
      answerRow y.1 o.row y.2 o.delay
    else
      let x := takeAt s o.rack o.ctx false
      match x.2 with
      | some e =>
        let y := takeGot x.1 o.row o.d (some e)
        answerRow y.1 o.row y.2 0
      | none =>
        match pullDown s o.ctx 3 o.rack with
        | some s => keep s
        | none => answerRow s o.row [⟨o.d, 0⟩] 0

/-- Whether a waiting operation looks again when a block has landed. -/
def opWaits (o : RackOp) : Bool := o.wait

/-- A block lands (R248, R249): the entries join the rack it reaches, a studio or stack rack that holds too much then passes its own block on,
and the operations that wait at racks look again in order. -/
def landMove (s : State) (id : Nat) : State :=
  match s.msg.moves.find? fun m => m.id == id with
  | none => s
  | some m =>
    let s := { s with msg := { s.msg with
      moves := s.msg.moves.filter fun x => x.id != id
      racks := tabUpd s.msg.racks m.dst [] fun l => m.entries.foldl rackIns l } }
    let c := (m.entries.head?.map RackEntry.ctx).getD 0
    -- a block that has gone down may leave fewer than b above it
    let s := if rackLevel m.dst < rackLevel m.src then refill s c 2 m.src else s
    let s :=
      if 1 ≤ rackLevel m.dst ∧ rackShare s m.dst - blockSize s m.part < rackCount s m.dst then
        (moveUp s c 3 m.dst).getD s
      else s
    let ws := s.msg.rackOps.filter opWaits
    let s := { s with msg := { s.msg with rackOps := s.msg.rackOps.filter fun o => !opWaits o } }
    let s := ws.foldl rackAct s
    -- releases whose push waits for this rack are offered again (R250, R327)
    s.join.releases.foldl (fun s e =>
      if e.2.any fun x => x.held && x.offerAt == 0 then postIn s 0 { path := .N } (.releasePushRetry e.1) else s) s

/-- The one-way time to a rack, half of R247's figure; `lvl` 0 executor, 1 studio, 2 stack. -/
def rackWay (e target lvl : Nat) : Nat :=
  match lvl with
  | 0 => 12 + meshWay e target
  | 1 => if studioOf e = studioOf target then 12 else 12 + meshWay e (studioMember (studioOf target) 0)
  | _ => if stackOf e = stackOf target then 60 else 60 + meshWay e (stackHome (stackOf target))

/-- The key of the rack a name's level selects at an executor. -/
def rackAtLevel (target lvl p : Nat) : Nat :=
  match lvl with
  | 0 => rackKey 0 target p
  | 1 => rackKey 1 (studioOf target) p
  | _ => rackKey 2 (stackOf target) p

/-- A rack name (R250): executor and level; none for a reserved bit or LEVEL 3. -/
def rackName (e : Nat) (v : Nat) : Option (Nat × Nat) :=
  if v &&& 0xFFFFFFFFFFF8E0E0 ≠ 0 ∨ bitsAt v 17 2 = 3 then none
  else
    let x := bitsAt v 0 5
    let y := bitsAt v 8 5
    some (if bitAt v 16 then exAt (exX e + x) (exY e + y) else exAt x y, bitsAt v 17 2)

/-- Send a rack operation to a rack of another executor, studio or stack (R247, R250, R251). -/
def sendRackOp (s : State) (o : RackOp) : State :=
  let id := s.clk.ids
  let s := freshId { s with msg := { s.msg with rackOps := s.msg.rackOps ++ [{ o with id := id, wait := false }] } }
  sendIn s o.delay { rowTag s o.row .N 0 with flow := 2 ^ 59 + o.row, home := exOf o.row } (.remoteRackOperation id)

/-- A continuation is offered to its rack as KPUSH offers (R252): placed; waiting there while a block moves out of a full rack (R250); or
refused by a full hierarchy, and offered again 1,024 cycles later. -/
def offerPush (s : State) (h : HeldPush) : State :=
  rackAct s { id := h.id, row := noRow, part := h.part, ctx := h.entry.ctx, rack := h.rack, d := 0, push := some h.entry, fromLast := false,
              wait := true, delay := 0 }

/-- Neighbours in the order of R249. -/
def neighbours (e : Nat) : List Nat :=
  (if exX e = 0 then [] else [e - 32]) ++ (if exX e = 31 then [] else [e + 32]) ++
  (if exY e = 0 then [] else [e - 1]) ++ (if exY e = 31 then [] else [e + 1])

/-- Lateral balancing of a partition at an executor (R249), against the counts `cnt` held at that cycle. -/
def balance (cnt : Nat → Nat) (ex : Nat) (s : State) (p : Nat) : State :=
  let w := balOf s ex p
  let iv := 1024 * bitsAt w 0 8
  if iv = 0 then s
  else if s.clk.now % iv ≠ 0 then s
  else
    let near := (neighbours ex).filter fun n => bitAt w 16 || stackOf n == stackOf ex
    match near with
    | [] => s
    | n :: rest =>
      let best := rest.foldl (fun m x => if cnt (rackKey 0 x p) < cnt (rackKey 0 m p) then x else m) n
      let b := blockSize s p
      let k := rackKey 0 ex p
      let dk := rackKey 0 best p
      let es := lastN b (rackOf s k (activeCtx s p))
      if cnt dk + bitsAt w 8 8 ≤ cnt k ∧ cnt dk + b ≤ rackShare s dk ∧ !es.isEmpty then
        let s := regAdd s (rackWord ex p 0x28) 1
        let id := s.clk.ids
        let gone := fun (e : RackEntry) => !(es.any fun x => x.order == e.order)
        let s := freshId { s with msg := { s.msg with
          racks := tabUpd s.msg.racks k [] fun l => l.filter gone
          moves := s.msg.moves ++ [⟨id, k, dk, p, es⟩] } }
        postIn s (if stackOf best = stackOf ex then 4 else 64) { part := p, path := .N } (.shipmentLands id)
      else s

end Sys2Proof.Machine
end

