-- ==== Sys2Proof/Machine/Home.lean ====
section
/-!
DEFINITION. What happens at a home: reads and writes of bytes, registers and rows as a direct access makes them (R79 to R94,
R101, R207, R219), watches (R230), atomics (R231, R232), notes (R235, R236, R238), and the acts of CTL, ARM, DISARM, PEEK, SPAWN
and JDEC (R84, R102, R103, R252).
-/
namespace Sys2Proof.Machine

/-- Whether an address names a register word. -/
def isReg (a : Nat) : Bool :=
  match placeOf a with
  | .exPage => true
  | .ctxRegs => true
  | .west => true
  | .east => true
  | _ => false

/-- The row an address lies in, when it is in HBM. -/
def rowAt (a : Nat) : Option Nat := if placeOf (strip a) = .hbm then some (strip a / 4096) else none

/-- Whether the stack of an address's home is under a sequencer reset (R393). -/
def stackHeld (s : State) (a : Nat) : Option Nat :=
  match rowAt a with
  | none => none
  | some r => if s.hub.seqReset.any fun h => h.1 == stackOf (homeOf r) then some (stackOf (homeOf r)) else none

/-- Whether an address lies in a thread row. -/
def inThread (s : State) (a : Nat) : Bool :=
  match rowAt a with
  | some r => isThread s r
  | none => false

/-- An error in a line is met (R388): one that ECC corrects is counted and gone; any other poisons the line. -/
def meetError (s : State) (l : Nat) : State :=
  match tabGet s.lines.latent l with
  | none => s
  | some e =>
    let s := { s with lines := { s.lines with latent := tabDel s.lines.latent l } }
    if e = 1 then regAdd s 0x0C0000680000 1
    else regAdd { s with lines := { s.lines with poison := setAdd s.lines.poison l } } 0x0C0000680008 1

/-- An engine's read meets the errors in its lines (R388). -/
def meetLines (s : State) (a n : Nat) : State :=
  (List.range ((strip a + n - 1) / 64 + 1 - strip a / 64)).foldl (fun s i => meetError s (strip a / 64 + i)) s

/-- An access meets an error in its line (R388), activates its row (R392) and wipes it first when its wiped bit is clear (R92, R369), at
the device's charge (R377); the cycles the wipe costs. -/
def touch (s : State) (a : Nat) : State × Nat :=
  let s := if isReg a then s else meetError s (strip a / 64)
  match rowAt a with
  | none =>
    if isTier2 a && !s.rows.wipedLines.contains (a / 64) then
      (chargeDevice { s with rows := { s.rows with wipedLines := setAdd s.rows.wipedLines (a / 64) } } 1, 0)
    else (s, 0)
  | some r =>
    let s := { s with rows := { s.rows with activations := activation s.rows.activations r } }
    if s.rows.wiped.contains r then (s, 0)
    else (chargeDevice { s with rows := { s.rows with wiped := setAdd s.rows.wiped r } } 64, 40)

/-- `n` bytes at an address, as a number. -/
def readHome (s : State) (a n : Nat) : Nat :=
  if isReg a then natOfBytes ((List.range n).map fun i => BitVec.ofNat 8 (readReg s (a + i) >>> (8 * ((a + i) % 8))))
  else memNat s.mem (strip a) n

/-- The bits of a thread row's byte that a store changes, and the value of the bits that exist (R78, R81). -/
def threadByte (priv closed : Bool) (off : Nat) (old new : Byte) : Byte :=
  if off < 0x80 then
    let m := BitVec.ofNat 8 (storeMask (off / 8) priv closed >>> (8 * (off % 8)))
    (old &&& ~~~m) ||| (new &&& m)
  else if 0x640 ≤ off ∧ off < 0x700 then 0
  else new

/-- Whether the span `[off, off+n)` meets `[lo, lo+len)`. -/
def spans (off n lo len : Nat) : Bool := off < lo + len && lo < off + n

/-- Whether bytes of a live episode's record header lie among `n` bytes: only its engine writes them (R5, R316). -/
def inHeader (s : State) (a n : Nat) : Bool :=
  s.join.tables.any fun t => t.2.eps.any fun e => spans a n (strip e.recAt) 0x40

/-- Bytes stored into a thread row from outside or by itself (R81, R82, R67, R213); CMD and STATE never change here, nor does the header of
a live episode whose record lies in the row (R316). -/
def writeThread (s : State) (r off : Nat) (bs : List Byte) (priv : Bool) : State :=
  let closed := !isOpen s r
  let s := keepCode s (rowDpa r + off) bs.length
  let new := (bs.zipIdx).map fun b =>
    let old := memByte s.mem (rowDpa r + off + b.2)
    if inHeader s (rowDpa r + off + b.2) 1 then old else threadByte priv closed (off + b.2) old b.1
  let s := { s with mem := memWrite s.mem (rowDpa r + off) new }
  let s := if closed && spans off bs.length 0x10 8 then setF s r fValid 0 else s
  let s := if spans off bs.length 0x80 16 then { s with rows := { s.rows with recheck := setAdd s.rows.recheck r } } else s
  if closed && priv && countedCode (codeOf s r) && spans off bs.length 0x20 8 then joinRow s r else s

/-- Whether some thread row's SCHED.REGION names the block (R101: the home then guards its hardware words, log 16). -/
def isBlock (s : State) (a : Nat) : Bool := s.rows.kinds.any fun r => blockOf s r == a / 128 * 128 && blockOf s r != 0

/-- The byte a software store leaves in a region block that rows name: LIVE, EUSED and TSTATE are the hardware's, CTX needs
privilege and LIVE 0; a privileged store of 0 to TSTATE lifts a kill (R101, R336, R364). -/
def guardByte (s : State) (priv : Bool) (a : Nat) (old new : Byte) : Byte :=
  let keep := fun (m : Byte) => (new &&& ~~~m) ||| (old &&& m)
  match a % 128 with
  | 0x0C => if priv ∧ memNat s.mem (a / 128 * 128 + 0x14) 4 = 0 then new else keep 7
  | 0x30 => if priv ∧ new &&& 3 = 0 then new else keep 3
  | o => if (0x14 ≤ o ∧ o < 0x18) ∨ (0x20 ≤ o ∧ o < 0x28) then old else new

/-- A store into plain memory; region blocks that rows name, and headers of live episodes, are guarded. -/
def writePlain (s : State) (a : Nat) (bs : List Byte) (priv : Bool) : State :=
  let new := if isBlock s a || isBlock s (a + bs.length - 1) || inHeader s a bs.length then
      (bs.zipIdx).map fun b =>
        if inHeader s (a + b.2) 1 then memByte s.mem (a + b.2)
        else if isBlock s (a + b.2) then guardByte s priv (a + b.2) (memByte s.mem (a + b.2)) b.1 else b.1
    else bs
  let s := keepCode s a bs.length
  { s with mem := memWrite s.mem a new }

/-- Drop the precedence of bytes that a direct write covers (R219). -/
def clearPrec (s : State) (a n : Nat) : State :=
  { s with ms := { s.ms with prec := s.ms.prec.filter fun e => !(a ≤ e.1 && e.1 < a + n) } }

/-- Answer a watch whose word has left its value (R230): the value goes back to the row. -/
def answerWatch (s : State) (w : Watch) : State :=
  let v := readHome s (movedTo s w.addr) w.size
  let s := { s with ms := { s.ms with watches := s.ms.watches.filter fun x => x.id != w.id } }
  match tabGet s.ms.reqs w.req with
  | none => s
  | some q =>
    let q' := { q with elems := q.elems.map fun e => { e with got := some v } }
    let s := { s with ms := { s.ms with reqs := tabSet s.ms.reqs w.req q' } }
    sendIn s (oneWay q.ex w.addr) { row := q.row, part := q.part, ctx := q.ctx, home := exOf q.row } (.watchAnswer w.req)

/-- After a write: the watches on its bytes, wherever their page has migrated to (R197), that now see another value are answered
(R230). -/
def checkWatches (s : State) (a n : Nat) : State :=
  let hit := s.ms.watches.filter fun w => !w.polled && spans (strip a) n (strip (movedTo s w.addr)) w.size
  hit.foldl (fun s w => if readHome s (movedTo s w.addr) w.size = w.old % 2 ^ (8 * w.size) then s else answerWatch s w) s

/-- A direct write of bytes at an address, within one row or line group (R89, R207, R219), before any watch looks at it. -/
def putHome (s : State) (a : Nat) (bs : List Byte) (priv : Bool) (p c : Nat) : State :=
  let n := bs.length
  if isReg a then
    let words := (List.range ((a + n - 1) / 8 + 1 - a / 8)).map fun i => a / 8 * 8 + 8 * i
    words.foldl (fun s w =>
      let v := natOfBytes ((List.range 8).map fun i =>
        if a ≤ w + i ∧ w + i < a + n then bs.getD (w + i - a) 0 else BitVec.ofNat 8 (readReg s w >>> (8 * i)))
      writeReg s w priv v) s
  else
    let d := strip a
    let s := match rowAt a with
      | some r => if isThread s r then writeThread s r (d % 4096) bs priv else writePlain s d bs priv
      | none => writePlain s d bs priv
    stampLines (clearPrec s d n) d n p c

/-- A direct write of bytes at an address (R89, R207, R219): applied whole, then seen by the watches on it (R230). -/
def writeHome (s : State) (a : Nat) (bs : List Byte) (priv : Bool) (p c : Nat) : State :=
  if bs.isEmpty then s else checkWatches (putHome s a bs priv p c) a bs.length

/-- A join engine's write at a record's home (R207, R317). -/
def writeEngine (s : State) (a : Nat) (bs : List Byte) (p c : Nat) : State :=
  let n := bs.length
  let d := strip a
  let s := keepCode s d n
  checkWatches (stampLines (clearPrec { s with mem := memWrite s.mem d bs } d n) d n p c) a n

/-- The runs of consecutive offsets in a table of bytes. -/
def byteRuns : Tab Byte → List (Nat × List Byte)
  | [] => []
  | (i, b) :: r =>
    match byteRuns r with
    | (j, l) :: rs => if j = i + 1 then (i, b :: l) :: rs else (i, [b]) :: (j, l) :: rs
    | [] => [(i, [b])]

/-- A direct write of some bytes of the line at `a`, applied whole (R151, R258). -/
def writeSome (s : State) (a : Nat) (t : Tab Byte) (priv : Bool) (p c : Nat) : State :=
  checkWatches ((byteRuns t).foldl (fun s x => putHome s (a + x.1) x.2 priv p c) s) a 64

/-- The event of a command word (R84), as it stands held behind a command that is pending. -/
def cmdEvent (r : Nat) (priv : Bool) (w : Word) : Instr :=
  let m := cmdOfWord r priv w
  match bitsAt w.toNat 0 8 with
  | 1 => .start m
  | 2 => .stop m
  | 3 => .redirect m
  | 4 => .resume m
  | 5 => .kill m
  | 6 => .step m
  | 7 => .wakeCommand m
  | 8 => .priority m
  | c => .badcode (BitVec.ofNat 8 c) m

/-- Hold a command behind the one that is pending at its row (R86). -/
def holdCommand (s : State) (r : Nat) (ev : Instr) : State :=
  { s with rows := { s.rows with held := s.rows.held ++ [(r, ⟨s.clk.now, 0, {}, ev⟩)] } }

/-- A command word acts on its thread row at home (R84), and a WATCH on CMD sees what it leaves (R230). The row's own command that meets
one pending is held behind it (R86), while the access that carried it is answered, since what is pending lands only when that
instruction has completed (DEDUCED, log 17). -/
def giveCommand (s : State) (issuer r : Nat) (priv : Bool) (w : Word) : State :=
  if issuer = r ∧ getF s r fPend = 1 then holdCommand s r (cmdEvent r priv w)
  else checkWatches (applyCommand s r priv w) (rowDpa r) 8

/-! ### Poison (R389) -/

/-- A poisoned line among the bytes. -/
def poisonedLine (s : State) (a n : Nat) : Option Nat :=
  if isReg a then none
  else (List.range ((strip a + n - 1) / 64 + 1 - strip a / 64)).findSome? fun i =>
    if s.lines.poison.contains (strip a / 64 + i) then some (strip a / 64 + i) else none

/-- Poison is consumed: the owner's context ends; a consumer of another context faults BUS 0x21 (R389). -/
def consumePoison (s : State) (p c a n : Nat) : State × Option (Nat × Nat) :=
  match poisonedLine s a n with
  | none => (s, none)
  | some l =>
    let o := tabGetD s.lines.owner l 0
    let s := regAdd s 0x0C0000680010 1
    let s := contextEnd s (o / 8) (o % 8) 2
    (s, if o = p * 8 + c then none else some (cBUS, 0x21))

/-! ### The row's own wet stores over a load (R208, R185) -/

/-- Overlay a byte with the row's own entries, the youngest last: an entry stands until its home has acknowledged it (R208, R209), and
an entry for a line that has migrated since is one for the line's new place (R196). -/
def ownByte (s : State) (r a : Nat) (b : Byte) : Byte :=
  s.ms.wet.foldl (fun b w =>
    if w.row == r && movedTo s (64 * w.line) / 64 == a / 64 then (tabGet w.bytes (a % 64)).getD b else b) b

/-- A load's bytes at the home merged with the row's own wet stores. -/
def mergeOwn (s : State) (r a n v : Nat) : Nat :=
  natOfBytes ((bytesOf n v).zipIdx.map fun b => ownByte s r (a + b.2) b.1)

/-! ### Atomics (R231, R232) -/

/-- The new value and flags of an atomic operation (R231). -/
def atomNew (op et rm old b : Nat) : Nat × Nat :=
  let w := fmtWidth et
  let fin := fun (x : Nat × Flags) => (x.1, flagsToNat x.2)
  match op with
  | 0 => fin (laneAdd et rm false old b)
  | 1 => fin (laneMin et old b)
  | 2 => fin (laneMax et old b)
  | 3 => (intAnd w old b, 0)
  | 4 => (intOr w old b, 0)
  | 5 => (intXor w old b, 0)
  | _ => (b % 2 ^ w, 0)

/-- Whether a span touches CMD of a thread row (R87). -/
def touchesCmd (s : State) (a n : Nat) : Bool := inThread s a && spans (strip a % 4096) n 0 8

/-! ### Notes at the receiver (R235, R236, R238) -/

/-- Whether the note is gated at landing (R236). -/
def noteGated (s : State) (r sender kind : Nat) : Bool :=
  (kind == 1 || kind == 2) && partOf s sender == partOf s r && ctxOf s sender == ctxOf s r &&
  (ownRect s sender).within (ownRect s r)

/-- A note lands, as one direct access: 0 LANDED, 1 FULL, 3 GONE, 4 NOTROW (R235, R238, R240). -/
def landNote (s : State) (r : Nat) (words : List Word) : State × Nat :=
  if !isThread s r then (s, 4)
  else if codeOf s r = 8 then (s, 3)
  else if 8 ≤ inboxCount s r then (s, 1)
  else
    let hdr := (words.getD 0 0).toNat
    let kind := bitsAt hdr 60 3
    let sender := bitsAt hdr 32 28
    let hdr := if noteGated s r sender kind then setBits hdr 63 1 1 else hdr
    let at_ := 0x700 + 32 * (getF s r fTail % 8)
    let s := setRowNat s r at_ 8 hdr
    let s := setRowNat s r (at_ + 8) 8 (words.getD 1 0).toNat
    let s := setRowNat s r (at_ + 16) 8 (words.getD 2 0).toNat
    let s := setRowNat s r (at_ + 24) 8 (words.getD 3 0).toNat
    let s := if kind < 3 then stampLines s (rowDpa r + at_) 32 (partOf s sender) (ctxOf s sender) else stampOwn s r at_ 32
    let s := setF s r fTail (getF s r fTail + 1)
    let s := if kind = 3 ∧ isPriv s r then setF s r fExempt 1 else s
    (if kind = 2 then engage s r sender else s, 0)

/-- A system note is offered at its target: it lands, is kept and offered again, or goes to the management endpoint (R238). -/
def offerSystem (s : State) (n : SysNote) : State :=
  let drop := fun (s : State) => { s with msg := { s.msg with system := s.msg.system.filter fun x => x.id != n.id } }
  if !isThread s n.target || codeOf s n.target == 8 || partOf s n.target != n.part then toManagement (drop s) n.part n.words
  else
    let x := if (stackHeld s (rowDpa n.target)).isSome then (s, 1) else landNote s n.target n.words
    if x.2 = 0 then drop x.1 else postIn s 1024 { part := n.part, path := .N } (.systemNoteRetry n.id)

/-! ### Row instructions at the target's home -/

/-- An arming START at a data row (R102); the arming gives up what the bytes it writes had of precedence (R219), and watches see it
(R230). -/
def startAt (s : State) (r : Nat) (w : Word) : State × Nat :=
  let x := startDataRow s r w
  (if x.2 = 3 ∨ x.2 = 6 then x.1 else checkWatches (clearPrec x.1 (rowDpa r) 0x800) (rowDpa r) 0x800, x.2)

/-- CTL's act (R84, R102, R103): the outcome's status; one held behind a pending command is accepted (log 17). -/
def ctlAt (s : State) (issuer r : Nat) (priv : Bool) (w : Word) : State × Nat :=
  if isThread s r then
    if issuer = r ∧ getF s r fPend = 1 then (giveCommand s issuer r priv w, 0)
    else
      let s := giveCommand s issuer r priv w
      (s, getF s r fLstat)
  else if priv ∧ bitsAt w.toNat 0 8 = 1 then startAt s r w
  else (s, 4)

/-- ARM's act (R103). ARM to PARKED counts LIVE in the chain's first block and is answered BADREGION when the chain is malformed, as the
commands that need one are: R101 gives ILLOP for an instruction of the malformed row itself, and here the chain is another row's
(DESIGN CHOICE, log 51). A mode above 1 is BADCODE also for a thread row, for which NOCHANGE stands in the entry beside it: the entry
gives no order of the two (DESIGN CHOICE, log 51). -/
def armAt (s : State) (r : Nat) (mode : Nat) : State × Nat :=
  if 1 < mode then (s, 3)
  else if isThread s r then (s, 1)
  else if mode = 0 ∧ (chainOf s r).isNone then (s, 6)
  else (checkWatches (clearPrec (armRow s r (if mode = 0 then 1 else 8)) (rowDpa r) 0x800) (rowDpa r) 0x800, 0)

/-- DISARM's act (R103). -/
def disarmAt (s : State) (r : Nat) : State × Nat :=
  if !isThread s r then (s, 4)
  else
    let c := codeOf s r
    if c = 1 ∨ c = 6 ∨ c = 7 ∨ c = 8 then
      let s := if c = 8 then s else updLive s r fun n => n - 1
      let s := freeSlot s r
      let k := queueKey (exOf r) (partOf s r)
      let s := { s with rows := { s.rows with
        kinds := setDel s.rows.kinds r, pools := tabUpd s.rows.pools k [] fun l => setDel l r
        oldCode := tabDel s.rows.oldCode r, icount := tabDel s.rows.icount r, recheck := setDel s.rows.recheck r, joining := setDel (setDel s.rows.joining r) (r + 2 ^ 28) } }
      (s, 0)
    else (s, 5)

/-- SPAWN's act at the pool's executor (R84, SPAWN): the value for S[d]; none when QUOTA stands in a malformed chain (R101). The
issuer's sg0 to sg7, VT, SCHED and LINKS are read here, at the arrival: the entry does not say when (DESIGN CHOICE, log 51). -/
def spawnAt (s : State) (ex issuer pc : Nat) (args : List Word) (started : Bool) : State × Option Nat :=
  let p := partOf s issuer
  let k := queueKey ex p
  match tabGetD s.rows.pools k [] with
  | [] => (s, some (2 ^ 63 + 1))
  | n :: rest =>
    match effQuota s issuer with
    | none => (s, none)
    | some quota =>
    if quota ≠ 0 ∧ quota ≤ liveOf s issuer then (s, some (2 ^ 63 + 2))
    else
      let s := updLive s issuer (· + 1)
      let s := { s with rows := { s.rows with
        pools := tabSet s.rows.pools k rest, wiped := setAdd s.rows.wiped n, recheck := setDel s.rows.recheck n
        icount := tabDel s.rows.icount n } }
      let segs := memRead s.mem (rowDpa issuer + 0x80) 128
      let vt := rowNat s issuer 0x20 8
      let sched := setBits (rowNat s issuer 0x58 8) 6 6 0
      let links := rowNat s issuer 0x60 8 &&& 0x800000000FFFFFFF
      let s := { s with mem := memWrite (memClear s.mem (rowDpa n) 4096) (rowDpa n + 0x80) segs }
      let s := setRowNat (setRowNat (setRowNat s n 0x20 8 vt) n 0x58 8 sched) n 0x60 8 links
      let s := (List.range 4).foldl (fun s i => setRawS s n (1 + i) (args.getD i 0)) s
      let s := setF (setF (setF s n fPc pc) n fSrst n) n fCode 1
      let s := clearPrec (stampLines s (rowDpa n) 4096 p (ctxOf s issuer)) (rowDpa n) 4096
      let s := checkWatches s (rowDpa n) 4096
      let s := if started then cmdStart s { row := n, priv := true, arg := 0, rsv := 0, tag := 0 } else s
      (s, some (rowDpa n))

/-- JDEC's act at the counter (R252): the new value; at zero the continuation leaves for its origin's executor rack. -/
def jdecAt (s : State) (q : Req) (a : Nat) (cont : List Word) : State × Nat :=
  let new := (readHome s a 8 + (2 ^ 64 - 1)) % 2 ^ 64
  let s := writeHome s a (bytesOf 8 new) q.priv q.part q.ctx
  if new = 0 ∧ sketchCode cont ≠ 0 then
    let w3 := (cont.getD 3 0).toNat
    let dst := exAt (bitsAt w3 6 5) (bitsAt w3 11 5)
    let id := s.clk.ids
    let e : RackEntry := { sketch := cont, ctx := q.ctx, order := 0, engager := none }
    let s := freshId { s with msg := { s.msg with heldPush := s.msg.heldPush ++ [⟨id, rackKey 0 dst q.part, q.part, e⟩] } }
    (postIn s (rackWay (addrHome a) dst 0) { part := q.part, ctx := q.ctx, row := q.row, path := .N, request := true } (.continuationRetry id), new)
  else (s, new)

end Sys2Proof.Machine
end

