-- ==== Sys2Proof/Machine/Access.lean ====
section
/-!
DEFINITION. An access at its issuer: the elements it is made of, their checks, translation and formats (R183, R187 to R195),
sending it (R185, R186, R207 to R209), and page faults (R192).
-/
namespace Sys2Proof.Machine

/-! ### Stored formats (R193 to R195) -/

/-- Whether a decoding load is raw (R194). -/
def loadIsRaw (et fmt : Nat) : Bool := fmt == 0 || fmt == et

/-- Whether a decoding load into lanes `et` accepts stored format `fmt` (R194). -/
def loadAccepts (et fmt : Nat) : Bool :=
  loadIsRaw et fmt ||
  (if fmtIsInt fmt then fmtIsInt et && fmtWidth fmt ≤ fmtWidth et
   else if fmt == 0x10 then fmtIsLaneFp et || fmtIsSigned et
   else 0x09 ≤ fmt && fmt ≤ 0x16 && fmtIsLaneFp et)

/-- Whether VLDS decodes the format: 8 bits or more, no block format (R194). -/
def strideAccepts (et fmt : Nat) : Bool := loadAccepts et fmt && !fmtIsBlock fmt && 8 ≤ fmtWidth fmt

/-- Bytes of one element of an accepted format, at least one. -/
def loadBytes (et fmt : Nat) : Nat := if loadIsRaw et fmt then fmtWidth et / 8 else max 1 (fmtWidth fmt / 8)

/-- Lane type of a vector destination. -/
def destType (d : Dest) : Nat :=
  match d with
  | .vector _ et _ _ => et
  | _ => 4

/-- Active lanes of a vector destination, as a mask. -/
def destMask (d : Dest) : Nat :=
  match d with
  | .vector _ _ k _ => k
  | _ => 0

/-! ### Elements -/

/-- One element, with what the first six checks of R183 find for it at issue. -/
def mkElem (s : State) (r : Nat) (g : Seg) (o : Int) (n : Need) (lane data cmp : Nat) : Elem :=
  let c := segChecks s r g o n
  { lane := lane, va := segAddr r g o n.size, off := o, size := n.size, data := data, cmp := cmp, fmt := 0,
    addr := match c with
      | .ok a => a
      | .error _ => 0
    pre := match c with
      | .ok _ => none
      | .error f => some f }

/-- What planning an access finds. -/
inductive PlanRes where
  | go (es : List Elem) (extra : Nat) (hits : List TlbEntry)
  | walk (va : Nat)
  | page (va level : Nat)
  | fault (f : FaultRec)
  deriving DecidableEq, Repr

/-- Translation of one address by the caches as they stand (R190): DPA, extra cycles, entry. -/
def xlate (s : State) (q : Req) (va : Nat) : Except PlanRes (Nat × Nat × Option TlbEntry) :=
  if !q.virt then .ok (va, 0, none)
  else match cachedTrans s q.ex q.part q.ctx va q.need with
    | none => .error (.walk va)
    | some (x, e, .hit d _) => .ok (d, x, some e)
    | some (_, _, .page l) => .error (.page va l)
    | some (_, _, .fault c d) => .error (.fault ⟨c, d, va, 4⟩)

/-- Whether an access writes at its home. -/
def Req.writes (q : Req) : Bool := q.need == 1 || q.need == 3

/-- The stored format of an element: the leaf's for VIRT, else the segment's (R193). -/
def elemFmt (q : Req) (t : Option TlbEntry) : Nat :=
  match t with
  | some e => e.fmt
  | none => q.seg.fmt

/-- The checks of a strided decoding element whose format is now known (R183, R194, R201). -/
def strideStage (s : State) (q : Req) (e : Elem) (t : Option TlbEntry) : Except FaultRec Elem :=
  if q.decode ≠ 2 then .ok e
  else
    let et := destType q.dest
    let f := elemFmt q t
    if 0x17 ≤ f then .error (instrFault s q.row cILLOP 0)
    else if !strideAccepts et f then .error ⟨cSEG, 0x04, e.va, q.seg.kind⟩
    else
      let n := loadBytes et f
      match segChecks s q.row q.seg e.off { rd := true, size := n, align := n } with
      | .error x => .error x
      | .ok _ => .ok { e with size := n, fmt := f }

/-- The checks of one element (R183): the first six, translation, format, and those of its DPA. -/
def planElem (s : State) (q : Req) (e : Elem) : Except PlanRes (Elem × Nat × Option TlbEntry) :=
  match e.pre with
  | some f => .error (.fault f)
  | none =>
    match xlate s q e.addr with
    | .error x => .error x
    | .ok (d, x, t) =>
      match strideStage s q e t with
      | .error f => .error (.fault f)
      | .ok e =>
        match dpaChecks s q.part q.priv q.writes d with
        | some (c, dt) => .error (.fault ⟨c, dt, e.va, q.seg.kind⟩)
        | none =>
          -- register words take no atomic (R231); CMD of a thread row is judged at the home (R87, R90)
          if q.need = 3 ∧ isReg d then .error (.fault ⟨cSEG, 0x03, e.va, q.seg.kind⟩)
          else .ok ({ e with addr := d }, x, t)

/-- The checks lane by lane, in order; the first failure ends the access (R183). -/
def planElems (s : State) (q : Req) : List Elem → PlanRes
  | [] => .go [] 0 []
  | e :: r =>
    match planElem s q e with
    | .error x => x
    | .ok (e, x, t) =>
      match planElems s q r with
      | .go es y ts => .go (e :: es) (max x y) (t.toList ++ ts)
      | other => other

/-- The offset of a block's scale byte and the first byte of the scale area, within a unit of `n` bytes (R195). -/
def scalePlace (fmt n po : Nat) : Nat × Nat :=
  let w := fmtWidth fmt
  (n - n / (4 * w) + po / (4 * w), n - n / (4 * w))

/-- The elements of a decoding VLD whose format is now known (R194, R195): one for every lane (one for each byte of two
4-bit lanes), then the scale as lane 64; or the fault. `po` is the place of the first byte in its unit of `n` bytes. -/
def spanElems (s : State) (q : Req) (o : Int) (va fmt geom n po : Nat) : Except FaultRec (List Elem) :=
  let et := destType q.dest
  let lanes := 512 / fmtWidth et
  let bad := fun d => FaultRec.mk cSEG d va q.seg.kind
  if 0x17 ≤ fmt then .error (instrFault s q.row cILLOP 0)
  else if !loadAccepts et fmt then .error (bad 0x04)
  else if loadIsRaw et fmt then
    .ok (((List.range lanes).filter fun j => bitAt (destMask q.dest) j).map fun (j : Nat) =>
      mkElem s q.row q.seg (o + (fmtWidth et / 8 * j : Nat)) { rd := true, size := fmtWidth et / 8, align := fmtWidth et / 8 } j 0 0)
  else if fmtIsBlock fmt ∧ geom ≠ 0 then .error (instrFault s q.row cILLOP 0)
  else
    let w := fmtWidth fmt
    let bytes := lanes * w / 8
    let align := if fmtIsBlock fmt then bytes else max 1 (w / 8)
    let size := max 1 (w / 8)
    if va % align ≠ 0 then .error ⟨cALIGN, 0, va, q.seg.kind⟩
    else
      -- the lowest failing byte of the span (R194)
      match (List.range bytes).findSome? fun (i : Nat) =>
        match segChecks s q.row q.seg (o + i) { rd := true, size := 1 } with
        | .error f => some f
        | .ok _ => none with
      | some f => .error f
      | none =>
        let es := (List.range (bytes / size)).map fun (i : Nat) =>
          mkElem s q.row q.seg (o + (size * i : Nat)) { rd := true, size := size } (if w = 4 then 2 * i + 1 else i) 0 0
        let es := es.map fun e => { e with fmt := fmt }
        if !fmtIsBlock fmt then .ok es
        else
          let sp := scalePlace fmt n po
          let sc := mkElem s q.row q.seg (o + ((sp.1 : Int) - po)) { rd := true, size := 1 } 64 0 0
          match sc.pre with
          | some f => .error f
          | none =>
            if sp.2 < po + bytes ∨ po / (4 * w) ≠ (po + bytes - 1) / (4 * w) then .error (bad 0x04)
            else .ok (es ++ [{ sc with fmt := fmt }])

/-- Whether an access moves a band of accumulators. -/
def Req.isBand (q : Req) : Bool :=
  match q.dest with
  | .acc _ _ => true
  | _ => false

/-- The first and the last byte of an access's elements. -/
def endBytes (q : Req) : List Elem :=
  match q.elems.head?, q.elems.getLast? with
  | some e, some f =>
    let n := f.size - 1
    [{ e with size := 1 }, { f with size := 1, addr := f.addr + n, va := (f.va + n) % 2 ^ 48, off := f.off + (n : Nat) }]
  | _, _ => []

/-- Plan a band (R295): all checks of the least and the greatest byte come first, then those of every line in turn, so that a page fault is
taken on the lowest line that faults. -/
def planBand (s : State) (q : Req) : PlanRes :=
  match planElems s q (endBytes q) with
  | .fault f => .fault f
  | .walk va => .walk va
  | _ => planElems s q q.elems

/-- Plan an access (R183). A decoding VLD first learns its format, then checks its span; where the span covers two translated pages, the format
and geometry are the first one's (DESIGN CHOICE, log 76). -/
def planReq (s : State) (q : Req) : PlanRes :=
  if q.isBand then planBand s q
  else if q.decode ≠ 1 then planElems s q q.elems
  else match q.elems with
    | [] => .go [] 0 []
    | e :: _ =>
      match e.pre with
      | some f => .fault f
      | none =>
        match xlate s q e.addr with
        | .error x => x
        | .ok (_, _, t) =>
          let large := (t.map fun x => x.large).getD false
          let n := if large then 2 ^ 21 else 2 ^ 16
          let po := if q.virt then e.va % n else e.off.toNat % n
          match spanElems s q e.off e.va (elemFmt q t) ((t.map fun x => x.geom).getD 0) n po with
          | .error f => .fault f
          | .ok es => planElems s q es

/-! ### Walks (R189, R191) -/

/-- Whether a miss of `va` asks for the page that a walk, outstanding or queued, looks up (R191): the tables as they stand give the
size of a queued walk's page. -/
def samePage (s : State) (w : Walk) (va : Nat) : Bool :=
  w.va / 2 ^ 16 == va / 2 ^ 16 ||
  (w.va / 2 ^ 21 == va / 2 ^ 21 &&
    (if w.started then w.seen else (walkNow s w.studio w.part w.ctx w.va w.need).seen).any fun e => e.large)

/-- Walks of a studio's queue: its misses that have not begun and are not held at an executor. -/
def walkQueue (s : State) (st : Nat) : List Walk := s.ms.walks.filter fun w => w.studio == st && !w.started && !w.held

/-- The oldest held miss of a studio enters the queue when there is room for it (R191). -/
def admitWalk (s : State) (st : Nat) : State :=
  if 4096 ≤ (walkQueue s st).length then s
  else match s.ms.walks.find? fun w => w.studio == st && w.held with
    | none => s
    | some w => { s with ms := { s.ms with walks := s.ms.walks.map fun x => if x.id = w.id then { x with held := false } else x } }

/-- A walk with what its reads of the tables give now, whatever right the accesses need that it serves. -/
def readWalk (s : State) (w : Walk) : Walk :=
  let out := walkNow s w.studio w.part w.ctx w.va 4
  let bad := match out.ans with
    | .hit _ _ => (0, 0, 0)
    | .page l => (1, l, 0)
    | .fault c d => (2, c, d)
  { w with entry := out.entry, seen := out.seen, bad := bad.1, b1 := bad.2.1, b2 := bad.2.2, fills := out.acc.fills }

/-- Change the record of a walk. -/
def setWalk (s : State) (w : Walk) : State :=
  { s with ms := { s.ms with walks := s.ms.walks.map fun x => if x.id = w.id then w else x } }

/-- How long something that needs an address waits before it tries again, when the address lies at a stack whose sequencer is under reset:
held at its routers for 50 µs, then issued again 1,024 cycles later (R393). -/
def stackWait (s : State) (as : List Nat) : Option Nat :=
  (as.findSome? fun a => stackHeld s a).map fun st =>
    if s.hub.seqReset.any fun h => h.1 == st && h.2.1 + 120000 ≤ s.clk.now then 1024 else 1

/-- How long a walk waits for reads that are held. -/
def walkWait (s : State) (w : Walk) : Option Nat :=
  if s.hub.seqReset.isEmpty then none else stackWait s (walkNow s w.studio w.part w.ctx w.va w.need).acc.reads

/-- Begin queued walks of a studio while fewer than 64 are outstanding: their reads are made against the tables as they now
stand, and WALKS counts them (R181, R191). Every caller acts in an enabled cycle of the studio's stack (R358). -/
def startWalks (s : State) (st : Nat) : Nat → State
  | 0 => s
  | fuel + 1 =>
    if 64 ≤ (s.ms.walks.filter fun w => w.studio == st && w.started).length then s
    else match (walkQueue s st).head? with
      | none => s
      | some w =>
        let out := walkNow s st w.part w.ctx w.va w.need
        let s := out.acc.reads.foldl (fun s a => if isReg a then s else meetLines s a 8) s
        let s := setWalk s { readWalk s w with started := true, began := s.clk.now }
        let s := regAdd s (transAt w.part w.ctx + 0x18) 1
        let s := sendIn s (12 + out.acc.cost) { part := w.part, ctx := w.ctx } (.walkComplete w.id)
        startWalks (admitWalk s st) st fuel

/-- A miss: it joins a walk for its page, or enters the studio's queue of 4,096 misses; with the queue full it is held at its executor
(R191). -/
def addWalk (s : State) (ex row part ctx va need : Nat) (serve : WalkFor) : State :=
  let st := studioOf ex
  match s.ms.walks.find? fun w => w.studio == st && w.part == part && w.ctx == ctx && samePage s w va with
  | some w =>
    { s with ms := { s.ms with walks := s.ms.walks.map fun x => if x.id = w.id then { x with serves := x.serves ++ [serve] } else x } }
  | none =>
    let w : Walk := { id := s.clk.ids, studio := st, ex := ex, row := row, part := part, ctx := ctx, va := va, need := need,
                      started := false, began := 0, serves := [serve], entry := none, seen := none, bad := 0, b1 := 0, b2 := 0,
                      fills := [], stale := false, held := decide (4096 ≤ (walkQueue s st).length) }
    startWalks (freshId { s with ms := { s.ms with walks := s.ms.walks ++ [w] } }) st 64

/-- A page fault (R192): no fault; a note to the pager, and the row waits for WAKE. No pager faults SEG 0x05; a malformed chain
faults ILLOP. -/
def pageFault (s : State) (r va level need major : Nat) : State :=
  match effPager s r with
  | none => faultInstr s r cILLOP 0
  | some 0 => faultNow s r ⟨cSEG, 0x05, va, 4⟩
  | some g => restAt s r fun s =>
    let s := regAdd s (transAt (partOf s r) (ctxOf s r) + 0x20) 1
    let s := sysNote s (exOf r) (partOf s r) g
      [noteHeader 0 r 4, BitVec.ofNat 64 va, BitVec.ofNat 64 (r + major * 2 ^ 32), BitVec.ofNat 64 (need + 4 * level)]
    waitOn (withdraw s r) r 5 false .paged

/-! ### Sending -/

/-- Store an access record under a name. -/
def putReq (s : State) (id : Nat) (q : Req) : State := { s with ms := { s.ms with reqs := tabSet s.ms.reqs id q } }

/-- Forget an access record. -/
def dropReq (s : State) (id : Nat) : State := { s with ms := { s.ms with reqs := tabDel s.ms.reqs id } }

/-- The cycle, from the access's start, in which an element leaves (R185): one lane a cycle; a scale with the last lane. -/
def elemBeat (q : Req) (i : Nat) (e : Elem) : Nat :=
  if q.decode = 1 then min e.lane (512 / max 8 (fmtWidth (destType q.dest)) - 1) else i

/-- The wet entry of a name. -/
def wetOf (s : State) (id : Nat) : Option Wet := s.ms.wet.find? fun w => w.id == id

/-- Change a wet entry. -/
def updWet (s : State) (id : Nat) (f : Wet → Wet) : State :=
  { s with ms := { s.ms with wet := s.ms.wet.map fun w => if w.id = id then f w else w } }

/-- Send an entry to dry at its home (R216): `early` when a FENCE or ST.DRY dries it (R218). -/
def sendDry (s : State) (w : Wet) (early : Bool) : State :=
  let a := w.line * 64
  let s := updWet s w.id fun x => { x with stage := 2, early := early }
  sendIn s (oneWay w.ex a)
    { row := w.row, part := w.part, ctx := w.ctx, path := .T, home := addrHome a, flow := flowKey w.row a, request := true } (.driedStoreApply w.id)

/-- FENCE and ST.DRY dry early the entries of a row with homes in a scope (R218). -/
def dryEarly (s : State) (r : Nat) (q : Rect) : State :=
  (s.ms.wet.filter fun w => w.row == r && w.stage < 2 && homeIn (w.line * 64) q).foldl (fun s w => sendDry s w true) s

/-- Register a watch at its home, or have it polled when the home's 64 registers are taken (R230). -/
def addWatch (s : State) (id : Nat) (q : Req) (a n old : Nat) : State :=
  let regs := s.ms.watches.filter fun w => !w.polled && w.home == homeKey a
  let w : Watch := ⟨s.clk.ids, id, q.row, a, n, old, homeKey a, decide (64 ≤ regs.length)⟩
  let s := freshId { s with ms := { s.ms with watches := s.ms.watches ++ [w] } }
  if w.polled then postIn s 1024 { row := q.row, part := q.part, ctx := q.ctx } (.watchPoll w.id) else s

/-- Start the FENCE of a row at scope slot `σ` and go on with `after`, at once when nothing is outstanding (R227): the condition
covers what stood before the instruction's own access. -/
def startFence (s : State) (r len σ : Nat) (out : Bool) (after : After) (now_ : State → State) : State :=
  let s := dryEarly s r ((scopeRect s (partOf s r) σ).getD wholeRect)
  let c := Cond.fence σ (match after with
    | .access id => id
    | _ => s.clk.ids)
  if condTrue s r c then now_ s
  else
    let s := if out then s else beginLong s r 1 len
    { s with rows := { s.rows with waits := tabSet s.rows.waits r { why := 1, bounded := true, cond := c, since := enabledCycles s (exOf r), after := after } } }

/-- A WATCH waits, unbounded, from its issue (R230, R99). -/
def watchWaits (s : State) (r len : Nat) (out : Bool) : State :=
  if out then restAt s r fun s => waitOn s r 6 false .event else waitOn (beginLong s r 6 len) r 6 false .event

/-- The elements that travel together, each group with the index of its first: by the aligned runs of `n` bytes they lie in, or every element
alone. -/
def wordGroups (whole : Bool) (n : Nat) : List (Elem × Nat) → List (List (Elem × Nat))
  | [] => []
  | x :: r =>
    match wordGroups whole n r with
    | (y :: g) :: gs => if whole && y.1.addr / n == x.1.addr / n then (x :: y :: g) :: gs else [x] :: (y :: g) :: gs
    | gs => [x] :: gs

/-- The groups in which an access goes to its home: a contiguous vector load by aligned 64-bit words, so that no word is torn (R91, R151);
a store that is applied whole by 64-byte lines (R258). -/
def Req.groups (q : Req) : List (List (Elem × Nat)) := wordGroups q.whole (if q.op = .read then 8 else 64) q.elems.zipIdx

/-- Send a planned access to its home, lane by lane, each group with its last lane (R185, R396). -/
def sendReq (s : State) (id : Nat) (q : Req) (extra : Nat) : State :=
  let s := putReq s id { q with left := q.groups.length }
  q.groups.foldl (fun s g =>
    let x := g.headD ({}, 0)
    let beat := g.foldl (fun m y => max m (elemBeat q y.2 y.1)) 0
    sendIn s (oneWay q.ex x.1.addr + extra + beat) (rowTag s q.row q.path x.1.addr) (.directAccess id x.2)) s

/-- Whether a store to this address is wet (R207). -/
def isWet (a : Nat) : Bool := placeOf a == .hbm || isTier2 a

/-- The bytes of a group's elements, by their place in the line. -/
def groupBytes (es : List Elem) (t : Tab Byte) : Tab Byte :=
  es.foldl (fun t e => ((bytesOf e.size e.data).zipIdx).foldl (fun t b => tabSet t (e.addr % 64 + b.2) b.1) t) t

/-- The value of a 64-bit scalar store to the first 8 bytes of a line, which acts as a command where those bytes are CMD (R87). -/
def cmdOf (q : Req) (es : List Elem) : Option Nat :=
  match q.op, es with
  | .write true, [e] => if e.size = 8 ∧ e.addr % 64 = 0 then some e.data else none
  | _, _ => none

/-- Enter a store's bytes of one line into the wet buffer, merged with an entry of the same row, tag and line that has not been sent
(R208), spilling the entry of lowest tag when the buffer is full (R209): the entry's name and whether one spilled; none when there
is no room. -/
def wetPut (s : State) (q : Req) (es : List Elem) : Option (State × Nat × Bool) :=
  let tag := getF s q.row fPhase
  let line := (es.headD {}).addr / 64
  let cmd := cmdOf q es
  match s.ms.wet.find? fun w => w.row == q.row && w.tag == tag && w.line == line && w.stage < 2 with
  | some w =>
    let w' := { w with bytes := groupBytes es w.bytes, priv := q.priv, cmd := if cmd.isSome then cmd else w.cmd }
    some (updWet s w.id fun _ => w', w.id, false)
  | none =>
    let id := s.clk.ids
    let w : Wet := { id := id, row := q.row, tag := tag, pos := id, line := line, bytes := groupBytes es [], part := q.part, ctx := q.ctx,
                     ex := q.ex, priv := q.priv, cmd := cmd }
    let put := fun (s : State) => freshId { s with ms := { s.ms with wet := s.ms.wet ++ [w] } }
    if wetHeld s q.ex q.part < 32 * slotCount s q.part then some (put s, id, false)
    else if spillRoom s q.part q.ctx then
      let held := s.ms.wet.filter fun x => x.ex == q.ex && x.part == q.part && !x.spilled
      match held with
      | [] => none
      | x :: rest =>
        let low := rest.foldl (fun m y => if phGt m.tag y.tag then y else m) x
        some (put (updWet s low.id fun y => { y with spilled := true }), id, true)
    else none

/-- The elements of a store as they travel: those of a contiguous vector store that fall into one 64-byte line go together and are
applied whole (R151, R258); any other element goes alone. -/
def lineGroups (whole : Bool) : List Elem → List (List Elem)
  | [] => []
  | e :: r =>
    match lineGroups whole r with
    | (f :: g) :: gs => if whole && f.addr / 64 == e.addr / 64 then (e :: f :: g) :: gs else [e] :: (f :: g) :: gs
    | gs => [e] :: gs

/-- Send the groups of a store in lane order: wet ones enter the buffer and make their first trip (R207), direct ones leave for
their homes; what is left when the buffer has no room, and the number of spills. A group leaves with its last lane (R185). -/
def sendStores (q : Req) (extra : Nat) : List (List Elem) → Nat → Nat → State → State × List Elem × Nat
  | [], _, n, s => (s, [], n)
  | g :: r, i, n, s =>
    let e := g.headD {}
    let i := i + g.length - 1
    let one := fun (s : State) (st : Nat) =>
      putReq (freshId s) s.clk.ids { q with elems := g, left := 1, status := st, wait := false, dest := .none, whole := true }
    if isWet e.addr && q.status == 0 then
      match wetPut s q g with
      | none => (s, (g :: r).flatten, n)
      | some (s, w, sp) =>
        let id := s.clk.ids
        let s := sendIn (one s w) (oneWay q.ex e.addr + extra + i) { rowTag s q.row q.path e.addr with request := true } (.wetStoreFirstTrip id)
        sendStores q extra r (i + 1) (if sp then n + 1 else n) s
    else
      let id := s.clk.ids
      let s := sendIn (one s 0) (oneWay q.ex e.addr + extra + i) (rowTag s q.row q.path e.addr) (.directAccess id 0)
      sendStores q extra r (i + 1) n s

/-- A store has left: it commits, after 200 cycles for each spill it made (R209). `out` tells whether the row had left rotation. -/
def storeDone (s : State) (r len : Nat) (out : Bool) (spills : Nat) : State :=
  if spills = 0 then (if out then completeLong s r else finish s r len)
  else
    let s := if out then setCode s r 4 1 else beginLong s r 1 len
    postClock { s with rows := { s.rows with longs := tabSet s.rows.longs r ⟨[], 0, none⟩ } } (exOf r) (200 * spills) {} (.longInstructionComplete r)

/-- Send a direct store whose FENCE is complete; the row does not wait for it (R229). -/
def sendDirect (s : State) (q : Req) (es : List Elem) (extra len : Nat) (out : Bool) : State :=
  let x := sendStores q extra (lineGroups q.whole es) 0 0 s
  if out then completeLong x.1 q.row else finish x.1 q.row len

/-- Whether an atomic's bytes touch CMD of what is a thread row now: it then waits for its home's judgement even with d = s0, so that a
fault there finds the row at the instruction (R87, R90; DEDUCED, log 50). -/
def awaitsCmd (s : State) (q : Req) (es : List Elem) : Bool := q.need == 3 && es.any fun e => touchesCmd s e.addr e.size

/-- Let a planned access go: loads and atomics are sent and wait for their replies or not; stores as R207 lays down, waiting for
room in the wet buffer when there is none (R209). -/
def launch (s : State) (id len : Nat) (q : Req) (es : List Elem) (extra : Nat) (hits : List TlbEntry) (out : Bool) : State :=
  let s := hits.foldl (fun s e => fillTlb s q.ex e) s
  if q.need = 1 ∧ q.decode = 3 then
    -- ST.DRY: a FENCE at the scope that `fl` names comes first (R229)
    let q := { q with decode := 0 }
    startFence (putReq s id q) q.row len q.fl out (.access id) fun s => sendDirect (dropReq s id) q es extra len out
  else if q.need = 1 then
    let x := sendStores q extra (lineGroups q.whole es) 0 q.spills s
    if x.2.1.isEmpty then storeDone (dropReq x.1 id) q.row len out x.2.2
    else
      let s := if out then x.1 else beginLong x.1 q.row 1 len
      let s := putReq s id { q with elems := x.2.1, virt := false, spills := x.2.2 }
      let w : Wait := { why := 1, bounded := true, cond := .wetRoom, since := enabledCycles s (exOf q.row), after := .access id }
      { s with rows := { s.rows with waits := tabSet s.rows.waits q.row w } }
  else if q.isWatch then
    let s := watchWaits s q.row len out
    -- a row whose context is out sleeps at once and issues its WATCH again when it is back (R347)
    if codeOf s q.row = 4 then sendReq s id { q with elems := es } extra else dropReq s id
  else
    let q := { q with wait := q.wait || awaitsCmd s q es }
    let s := if q.wait ∧ !out then beginLong s q.row 1 len else s
    let s := sendReq s id { q with elems := es } extra
    if q.wait then s
    else if out then completeLong s q.row else finish s q.row len

/-- Act on a plan: send, walk, page-fault or fault. `out`: the row has left rotation; `major`: the instruction's major opcode. -/
def actPlan (s : State) (id len : Nat) (q : Req) (out : Bool) (res : PlanRes) : State :=
  match res with
  | .go es x hits => launch s id len q es x hits out
  | .fault f => faultNow (dropReq s id) q.row f
  | .page va l => pageFault (dropReq s id) q.row va l q.need (majorAt s q.row)
  | .walk va =>
    let s := putReq (if out then s else beginLong s q.row 1 len) id q
    addWalk s q.ex q.row q.part q.ctx va q.need (.access id)

/-- Issue an access on a row's behalf. -/
def issueAccess (s : State) (len : Nat) (q : Req) : State := actPlan (freshId s) s.clk.ids len q false (planReq s q)

/-! ### The own row's latch (R93) -/

/-- A store of bytes to the own row within the instruction (R93, R207), with the privilege of its issue, before any watch looks; CMD
stays as it is (R87, R94). -/
def ownPut (s : State) (r off : Nat) (bs : List Byte) (priv : Bool) : State :=
  let a := rowDpa r + off
  stampLines (clearPrec (writeThread s r off bs priv) a bs.length) a bs.length (partOf s r) (ctxOf s r)

/-- The same, then seen by the watches on it (R230). -/
def ownWrite (s : State) (r off : Nat) (bs : List Byte) (priv : Bool) : State :=
  checkWatches (ownPut s r off bs priv) (rowDpa r + off) bs.length

/-- Bytes of the own row as a number. -/
def ownRead (s : State) (a n : Nat) : Nat := memNat s.mem a n

/-- ST.DRY through the own row, its FENCE complete: the latch takes the store, and a 64-bit store to CMD acts (R93, R94, R229). -/
def ownResumed (s : State) (q : Req) : State :=
  match planReq s q with
  | .go [e] _ _ =>
    if e.size = 8 ∧ e.addr % 4096 = 0 then giveCommand (completeLong s q.row) q.row q.row q.priv (BitVec.ofNat 64 e.data)
    else completeLong (ownWrite s q.row (e.addr % 4096) (bytesOf e.size e.data) q.priv) q.row
  | .fault f => faultNow s q.row f
  | _ => completeLong s q.row

/-- An access that waited for room in the wet buffer or for its FENCE goes on. -/
def resumeAccess (s : State) (r id : Nat) : State :=
  let s := { s with rows := { s.rows with waits := tabDel s.rows.waits r } }
  match tabGet s.ms.reqs id with
  | none => s
  | some q =>
    if q.seg.kind ≠ 0 then actPlan s id (tabGetD s.rows.lens r 4) q true (planReq s q)
    else ownResumed (dropReq s id) q

/-- Whether a leaf lacks the right an access needs (R189). -/
def lacksRight (e : TlbEntry) (need : Nat) : Bool :=
  ((need == 0 || need == 3) && !bitAt e.rights 0) || ((need == 1 || need == 3) && !bitAt e.rights 1) || (need == 2 && !bitAt e.rights 2)

/-- A page fault that a walk found at `va`; a band takes it only when no lower line of it faults (R295). -/
def pageFound (s : State) (q : Req) (va level : Nat) : PlanRes :=
  if !q.isBand then .page va level
  else match planElems s q (q.elems.filter fun e => e.addr / 2 ^ 16 < va / 2 ^ 16) with
    | .go _ _ _ => .page va level
    | other => other

/-- What a walk without an entry found for an access that needs a right (R189): 1 a page fault and its level, 2 a fault's cause and detail.
OWNER comes before the page's rights, and these before the data page's second stage. -/
def Walk.finds (w : Walk) (need : Nat) : Nat × Nat × Nat :=
  if w.bad = 2 ∧ ¬(w.b1 = cRIGHTS ∧ w.b2 = 0x13) ∧ (w.seen.any fun e => lacksRight e need) then (1, 4, 0) else (w.bad, w.b1, w.b2)

/-- Whether an address lies in the page that a walk looked up. -/
def Walk.covers (w : Walk) (a : Nat) : Bool :=
  a / 2 ^ 16 == w.va / 2 ^ 16 || (a / 2 ^ 21 == w.va / 2 ^ 21 && w.seen.any fun e => e.large)

/-- What an access whose walk has ended finds: a plan from the caches, or what the walk found (R191, R192). -/
def walkFound (s : State) (w : Walk) (q : Req) : PlanRes :=
  let here := fun (e : Elem) => w.covers e.addr
  let found := w.finds q.need
  let va := ((q.elems.find? here).map Elem.addr).getD w.va
  let at_ := if q.isBand then (((endBytes q).find? here).map Elem.addr).getD va else va
  if w.entry.isSome then
    planReq (match w.entry with
      | some e => fillTlb s q.ex e
      | none => s) q
  else if found.1 = 1 then pageFound s q va found.2.1
  else .fault (if w.b1 = cILLOP then instrFault s q.row cILLOP 0 else ⟨w.b1, w.b2, at_, 4⟩)

/-- An access whose walk has ended goes on with `act` (R191, R192). -/
def serveAccess (s : State) (w : Walk) (id : Nat) (act : State → Nat → Req → Bool → PlanRes → State) : State :=
  match tabGet s.ms.reqs id with
  | none => s
  | some q =>
    -- a PREF serves no element
    if q.elems.isEmpty ∨ (codeOf s q.row ≠ 4 ∧ codeOf s q.row ≠ 5) then dropReq s id
    else act s id q true (walkFound s w q)

/-- What an ordinary access does with its plan. -/
def planAct (s : State) (id : Nat) (q : Req) (out : Bool) (res : PlanRes) : State :=
  actPlan s id (tabGetD s.rows.lens q.row 4) q out res

end Sys2Proof.Machine
end

