-- ==== Sys2Proof/Machine/Arrive.lean ====
section
/-!
DEFINITION. What arrives at a home: direct accesses and what may hold them (R84 to R94, R196, R308, R393), the first trip of a
wet store and drying (R207, R216 to R219), watches (R230), and the replies on their way back (R396).
-/
namespace Sys2Proof.Machine

/-! ### What holds an access -/

/-- Whether a pending command of the target row holds an access (R86). The row's own access to itself through the window is not held
behind its own pending command: the command lands when the row's instruction completes, and an instruction that waited for its own
access would never let it land (DEDUCED, log 17). -/
def pendHolds (s : State) (issuer r : Nat) : Bool := isThread s r && issuer != r && getF s r fPend == 1

/-- Offsets and sizes of the registers a stepped instruction uses (R89, R293, R311). -/
def usedSpans (i : Stepped) : List (Nat × Nat) :=
  let sc := fun (r : Nat) => (0x100 + 8 * r, 8)
  match i with
  | .sweep o => [sc o.a.toNat, sc o.b.toNat, (0x200 + 64 * o.c.toNat, 64), (0x200 + 64 * o.d.toNat, 64)]
  | .mma o => [sc o.a.toNat, sc (o.a.toNat + 1), sc o.b.toNat, sc (o.b.toNat + 1)] ++
      (if bitAt o.sub.toNat 0 || bitAt o.sub.toNat 1 then [(0x200, 1024)] else [])
  | .gen _ a b _ _ => [sc a.toNat, sc b.toNat]

/-- The stepped instruction a row has under way; one whose step has ended, or waits for the sweep latch, stands at its boundary and
uses nothing (R401). -/
def steppedOf (s : State) (r : Nat) : Option Stepped :=
  match s.eng.sweep.find? fun e => e.2.row == r && e.2.begun && !e.2.ended with
  | some e => some e.2.instr
  | none =>
    match s.eng.mma.find? fun e => e.2.row == r && !e.2.ended with
    | some e => some e.2.instr
    | none => s.eng.rules.findSome? fun e => (e.2.queue.head?.bind fun x => if x.row = r ∧ e.2.busy then x.instr else none)

/-- Whether a row stands at the boundary between two steps. -/
def atStepEnd (s : State) (r : Nat) : Bool :=
  (s.eng.sweep.any fun e => e.2.row == r && (e.2.ended || !e.2.begun)) || (s.eng.mma.any fun e => e.2.row == r && e.2.ended)

/-- Whether the row's boundary holds an access: a write to a register that its stepped instruction uses, or a PEEK while a long
instruction runs (R89, PEEK). -/
def stepHolds (s : State) (r : Nat) (q : Req) (e : Elem) (a : Nat) : Bool :=
  let used := match steppedOf s r with
    | some i => (usedSpans i).any fun u => spans (strip a % 4096) e.size u.1 u.2
    | none => false
  isThread s r &&
  (match q.op with
   | .peek _ => codeOf s r == 4 && q.row != r && !atStepEnd s r && (match tabGet s.rows.waits r with | none => true | some w => w.bounded)
   | .write _ => used
   | .atom _ _ _ => used
   | .cas => used
   | .jdec _ => used
   | _ => false)

/-- The studio whose rule engine holds an access to a tile it works on (R308). -/
def ruleHolder (s : State) (a n : Nat) : Option Nat :=
  (s.eng.rules.find? fun e => e.2.ranges.any fun r => spans a n r.1 r.2).map Prod.fst

/-- Whether a rule engine holds an access. -/
def ruleHolds (s : State) (a n : Nat) : Bool := (ruleHolder s a n).isSome

/-- Whether it is an event's turn among what a rule engine held: the operation has ended, and what was held before it has been applied. -/
def ruleTurn (s : State) (st : Nat) (ev : Instr) : Bool :=
  match tabGet s.eng.rules st with
  | some e => !e.busy && (match e.held with
    | .event t :: _ => t.ev == ev
    | _ => false)
  | none => false

/-- What stops an access that has reached its home. -/
inductive Hold where
  | free
  | rule (studio : Nat)
  | stack (st : Nat)
  | pending (r : Nat)
  | step (r : Nat)
  deriving DecidableEq, Repr

/-- The row whose rules govern an access: a thread row at the address. -/
def holdFor (s : State) (q : Req) (e : Elem) (a : Nat) : Hold :=
  match stackHeld s a with
  | some st => .stack st
  | none =>
    match ruleHolder s a e.size with
    | some st => .rule st
    | none =>
      match rowAt a with
      | none => .free
      | some r => if !e.past && pendHolds s q.row r then .pending r else if stepHolds s r q e a then .step r else .free

/-- Elements that a boundary holds have then passed it: no command that lands there holds them again (R89). -/
def markPast (s : State) (id : Nat) (h : Hold) (mine : Nat → Bool) : State :=
  match h with
  | .step _ =>
    (match tabGet s.ms.reqs id with
     | none => s
     | some q => putReq s id { q with elems := (q.elems.zipIdx).map fun x => if mine x.2 then { x.1 with past := true } else x.1 })
  | _ => s

/-- Put an arrived event where what holds it will let it go. -/
def holdEvent (s : State) (h : Hold) (t : Timed) : State :=
  match h with
  | .free => s
  | .rule st =>
    { s with eng := { s.eng with rules := s.eng.rules.map fun e => if e.1 = st then (e.1, { e.2 with held := e.2.held ++ [.event t] }) else e } }
  | .stack st => { s with hub := { s.hub with seqHeld := s.hub.seqHeld ++ [(st, t)] } }
  | .pending r => { s with rows := { s.rows with held := s.rows.held ++ [(r, t)] } }
  | .step r => { s with rows := { s.rows with stepHeld := s.rows.stepHeld ++ [(r, t)] } }

/-- An arrived event of an access, to be held. -/
def heldEv (s : State) (q : Req) (ev : Instr) : Timed := ⟨s.clk.now, 0, { row := q.row, part := q.part, ctx := q.ctx, path := q.path }, ev⟩

/-! ### Replies -/

/-- The reply of an access leaves its home (R396): never caught by a drop cloth (R349). -/
def replyFrom (s : State) (id : Nat) (q : Req) (a extra : Nat) : State :=
  sendIn s (oneWay q.ex a + extra) { row := q.row, part := q.part, ctx := q.ctx, path := q.path, home := q.ex } (.memoryReply id)

/-- Note what an element got at its home. -/
def setGot (s : State) (id i v : Nat) : State :=
  match tabGet s.ms.reqs id with
  | none => s
  | some q => putReq s id { q with elems := (q.elems.zipIdx).map fun x => if x.2 = i then { x.1 with got := some v } else x.1 }

/-- Note a fault met at the home; the first one stays. -/
def setReqFault (s : State) (id : Nat) (f : FaultRec) : State :=
  match tabGet s.ms.reqs id with
  | none => s
  | some q => if q.fault.isSome then s else putReq s id { q with fault := some f }

/-! ### Acts -/

/-- A store of an element's bytes at its home: a command when it writes exactly CMD of a thread row (R87); a privileged START
through the window that reaches a data row arms it, or changes nothing on a malformed chain (R85, R102). Eight bytes with code START
and a nonzero argument or reserved bits are no START that could be accepted, and stay a plain store of 8 bytes (DEDUCED, log 66). -/
def storeAt (s : State) (q : Req) (a size : Nat) (scalar : Bool) (v : Nat) : State :=
  match rowAt a with
  | some r =>
    if scalar ∧ size = 8 ∧ strip a % 4096 = 0 ∧ isThread s r then giveCommand s q.row r q.priv (BitVec.ofNat 64 v)
    else if scalar ∧ size = 8 ∧ strip a % 4096 = 0 ∧ placeOf a = .rowWindow ∧ q.priv ∧ v % 256 = 1 ∧ bitsAt v 8 24 = 0 then
      (startAt s r (BitVec.ofNat 64 v)).1
    else writeHome s a (bytesOf size v) q.priv q.part q.ctx
  | none => writeHome s a (bytesOf size v) q.priv q.part q.ctx

/-- A word read at its home, with the row's own wet stores for an ordinary load of a data row or the second tier (R185, R208);
engine reads never see them (R287). -/
def loadAt (s : State) (q : Req) (a n : Nat) : Nat :=
  let v := readHome s a n
  if q.path == .T && isWet a && !inThread s a then mergeOwn s q.row a n v else v

/-- An atomic at its home: new state, old value, flags (R231, R232). -/
def atomAt (s : State) (q : Req) (a : Nat) (e : Elem) (op et rm : Nat) : State × Nat × Nat :=
  let old := readHome s a e.size
  let x := atomNew op et rm old e.data
  (writeHome s a (bytesOf e.size x.1) q.priv q.part q.ctx, old, x.2)

/-- Apply an access at its home: the new state, the value for the reply, flags, and what else the reply costs; `none` in place
of the value keeps the reply back (a registered watch). -/
def actAt (s : State) (id : Nat) (q : Req) (e : Elem) (a : Nat) : State × Option Nat × Nat × Nat :=
  let r := (rowAt a).getD 0
  match q.op with
  | .read => (s, some (loadAt s q a e.size), 0, 0)
  | .write sc => (storeAt s q a e.size sc e.data, some 0, 0, 0)
  | .atom op et rm =>
    if touchesCmd s a e.size then (setReqFault s id ⟨cSEG, 0x03, e.va, q.seg.kind⟩, some 0, 0, 0)
    else
      let x := atomAt s q a e op et rm
      (x.1, some x.2.1, x.2.2, 0)
  | .cas =>
    if touchesCmd s a e.size then (setReqFault s id ⟨cSEG, 0x03, e.va, q.seg.kind⟩, some 0, 0, 0)
    else
      let old := readHome s a e.size
      let s := if old = e.cmp % 2 ^ (8 * e.size) then writeHome s a (bytesOf e.size e.data) q.priv q.part q.ctx else s
      (s, some old, 0, 0)
  | .watch _ old =>
    let v := readHome s a e.size
    if v ≠ old % 2 ^ (8 * e.size) then (s, some v, 0, 0)
    else
      (addWatch s id q a e.size old, none, 0, 0)
  | .ctl w =>
    let x := ctlAt s q.row r q.priv w
    (x.1, some x.2, 0, 0)
  | .arm m =>
    let x := armAt s r m.toNat
    (x.1, some x.2, 0, 0)
  | .disarm =>
    let x := disarmAt s r
    (x.1, some x.2, 0, 0)
  | .peek off =>
    let st := if isThread s r then rowNat s r 8 8 else 0
    (s, some (st + 2 ^ 64 * natOfBytes (memRead s.mem (rowDpa r + off) 256)), 0, 0)
  | .spawn pc args started =>
    let x := spawnAt s (addrHome a) q.row pc args started
    (match x.2 with
     | none => (setReqFault x.1 id (instrFault s q.row cILLOP 0), some 0, 0, 0)
     | some v => (x.1, some v, 0, if v < 2 ^ 63 then 40 else 0))
  | .jdec cont =>
    if touchesCmd s a e.size then (setReqFault s id ⟨cSEG, 0x03, e.va, q.seg.kind⟩, some 0, 0, 0)
    else
      let x := jdecAt s q a cont
      (x.1, some x.2, 0, 0)
  | .note h w1 w2 w3 _ =>
    let x := landNote s r [h, w1, w2, w3]
    (x.1, some x.2, 0, 0)

/-- Whether an access takes data from its line for a row (R389); a host's operation has row 2^28. -/
def consumes (q : Req) : Bool :=
  q.row < 2 ^ 28 &&
  match q.op with
  | .read => true
  | .atom _ _ _ => true
  | .cas => true
  | .watch _ _ => true
  | .jdec _ => true
  | _ => false

/-- What holds a group of elements that is applied together, each at its address. -/
def holdAll (s : State) (q : Req) (es : List (Elem × Nat)) : Hold :=
  ((es.map fun x => holdFor s q x.1 x.2).find? fun h => h != .free).getD .free

/-- Apply the elements of a store together at the home (R151, R258): one element as any store, more of them as one write of their
line. -/
def storeGroup (s : State) (q : Req) (a : Nat) (es : List Elem) : State :=
  match es with
  | [e] => storeAt s q a e.size (match q.op with
      | .write b => b
      | _ => false) e.data
  | _ => writeSome s (a / 64 * 64) (groupBytes es []) q.priv q.part q.ctx

/-- Whether a layout commit has taken the place that an access reaches from its partition since it was checked (R366): it then touches
nothing, so that no tenant meets what another had in flight (R369, log 72). -/
def placeLost (s : State) (q : Req) (a : Nat) : Bool :=
  q.part < 32 &&
  match placeOf (strip a) with
  | .hbm => !partMayReach s q.part a
  | .palette => !partMayReach s q.part a
  | .lpddr => !partMayReach s q.part a
  | .cxl => !partMayReach s q.part a
  | _ => false

/-- The group of an access that its element `i` travels in. -/
def groupOf (q : Req) (i : Nat) (e : Elem) : List (Elem × Nat) := (q.groups.find? fun g => g.any fun x => x.2 == i).getD [(e, i)]

/-- A group of a store reaches its home (R89): forwarded, held, or applied whole. -/
def arriveGroup (s : State) (id i : Nat) (q : Req) (e : Elem) (ev : Instr) : State :=
  match forwardOf s e.addr with
  | .busy => tryLater s 1 (heldEv s q ev)
  | _ =>
    let g := groupOf q i e
    let a := movedTo s e.addr
    let got := fun (s : State) => g.foldl (fun s x => setGot s id x.2 0) s
    if placeLost s q a then replyFrom (got s) id q a 0 else
    match holdAll s q (g.map fun x => (x.1, movedTo s x.1.addr)) with
    | .free =>
      let x := touch s a
      replyFrom (got (storeGroup x.1 q a (g.map Prod.fst))) id q a x.2
    | h => holdEvent (markPast s id h fun j => g.any fun x => x.2 == j) h (heldEv s q ev)

/-- A word of a contiguous vector load reaches its home (R89, R91, R151): all its lanes are read together. -/
def arriveWord (s : State) (id i : Nat) (q : Req) (e : Elem) (ev : Instr) : State :=
  match forwardOf s e.addr with
  | .busy => tryLater s 1 (heldEv s q ev)
  | _ =>
    let g := groupOf q i e
    let a := movedTo s e.addr
    let got := fun (s : State) (f : Elem → Nat) => g.foldl (fun s x => setGot s id x.2 (f x.1)) s
    if placeLost s q a then replyFrom (got s fun _ => 0) id q a 0 else
    match holdAll s q (g.map fun x => (x.1, movedTo s x.1.addr)) with
    | .free =>
      let x := touch s a
      let y := consumePoison x.1 q.part q.ctx a e.size
      (match y.2 with
       | some (c, d) => replyFrom (got (setReqFault y.1 id ⟨c, d, e.va, q.seg.kind⟩) fun _ => 0) id q a x.2
       | none => replyFrom (got y.1 fun z => loadAt y.1 q (movedTo y.1 z.addr) z.size) id q a x.2)
    | h => holdEvent (markPast s id h fun j => g.any fun x => x.2 == j) h (heldEv s q ev)

/-- An element of an access reaches its home (R89): it is forwarded, held, or applied, and its reply leaves. -/
def arrive (s : State) (id i : Nat) (ev : Instr) : State :=
  match tabGet s.ms.reqs id with
  | none => s
  | some q =>
    match q.elems[i]? with
    | none => s
    | some e =>
      if q.whole then (if q.op = .read then arriveWord s id i q e ev else arriveGroup s id i q e ev)
      else match forwardOf s e.addr with
      | .busy => tryLater s 1 (heldEv s q ev)
      | f =>
        let a := match f with
          | .moved a => a
          | _ => e.addr
        if placeLost s q a then replyFrom (setGot s id i 0) id q a 0 else
        match holdFor s q e a with
        | .free =>
          let x := touch s a
          let y := if consumes q then consumePoison x.1 q.part q.ctx a e.size else (x.1, none)
          (match y.2 with
           | some (c, d) => replyFrom (setGot (setReqFault y.1 id ⟨c, d, e.va, q.seg.kind⟩) id i 0) id q a x.2
           | none =>
             let z := actAt y.1 id q e a
             let s := match tabGet z.1.ms.reqs id with
               | some q' => if z.2.2.1 = 0 then z.1 else putReq z.1 id { q' with fl := q'.fl ||| z.2.2.1 }
               | none => z.1
             match z.2.1 with
             | some v => replyFrom (setGot s id i v) id q a (x.2 + z.2.2.2)
             | none => s)
        | h => holdEvent (markPast s id h fun j => j == i) h (heldEv s q ev)

/-! ### Wet stores (R207, R216 to R219) -/

/-- A first trip reaches the home (R207): a thread row takes the store as a direct access and the entry's bytes are given up; a
data row changes nothing and the store stays wet. -/
def firstTrip (s : State) (id : Nat) (ev : Instr) : State :=
  match tabGet s.ms.reqs id with
  | none => s
  | some q =>
    match q.elems.head? with
    | none => s
    | some e =>
      match forwardOf s e.addr with
      | .busy => tryLater s 1 (heldEv s q ev)
      | _ =>
        let a := movedTo s e.addr
        let back := fun (s : State) (freed : Bool) =>
          sendIn (setGot s id 0 0) (oneWay q.ex a) { row := q.row, part := q.part, ctx := q.ctx, path := q.path, home := q.ex } (.wetTripReply id freed)
        if inThread s a then
          match holdAll s q (q.elems.map fun x => (x, movedTo s x.addr)) with
          | .free =>
            let s := storeGroup (touch s a).1 q a q.elems
            let mine := groupBytes q.elems []
            let s := updWet s q.status fun w => { w with
              bytes := w.bytes.filter fun b => (tabGet mine b.1).isNone
              cmd := if (tabGet mine 0).isSome then none else w.cmd }
            back s true
          | h => holdEvent (markPast s id h fun _ => true) h (heldEv s q ev)
        else
          -- bytes that an earlier trip of the same entry gave up are the entry's again
          let keep := fun (t : Tab Byte) (b : Nat × Byte) => if (tabGet t b.1).isSome then t else tabSet t b.1 b.2
          let s := updWet s q.status fun w => { w with
            bytes := (groupBytes q.elems []).foldl keep w.bytes
            cmd := if w.cmd.isSome then w.cmd else cmdOf q q.elems }
          back s false

/-- The issuer learns the outcome of a first trip: an entry with nothing left and no trip under way is freed. -/
def tripReply (s : State) (id : Nat) : State :=
  match tabGet s.ms.reqs id with
  | none => s
  | some q =>
    let s := dropReq s id
    let more := s.ms.reqs.any fun e => e.2.row == q.row && e.2.status == q.status && q.status != 0 && !e.2.wait && e.2.need == 1
    let s := if more then s else updWet s q.status fun w => { w with stage := max w.stage 1 }
    let spent := fun (w : Wet) => w.id == q.status && w.bytes.isEmpty && w.stage ≤ 1 && !more
    { s with ms := { s.ms with wet := s.ms.wet.filter fun w => !spent w } }

/-- Precedence order of dried stores on a byte (R219). -/
def precGt (x y : Prec) : Bool :=
  phGt x.tag y.tag || (x.tag == y.tag && (y.row < x.row || (y.row == x.row && y.pos < x.pos)))

/-- Apply one byte of a dried store under its precedence. -/
def dryByte (priv : Bool) (p c : Nat) (pr : Prec) (a : Nat) (b : Byte) (s : State) : State :=
  let put := fun (s : State) =>
    let s := stampLines (writePlain s a [b] priv) a 1 p c
    { s with ms := { s.ms with prec := tabSet s.ms.prec a pr } }
  match tabGet s.ms.prec a with
  | some old => if precGt old pr then s else put s
  | none => put s

/-- A dried store into a row that has been armed since it was made (R90, R216): a direct access. A 64-bit store to CMD among what the
entry merged acts as a command, after the entry's other bytes (R87, log 25). -/
def dryDirect (s : State) (q : Req) (w : Wet) (a : Nat) : State :=
  let s := writeSome s a w.bytes q.priv q.part q.ctx
  match w.cmd with
  | some v => if a % 4096 = 0 then storeAt s q a 8 true v else s
  | none => s

/-- What holds an entry that dries at the line at `a` (R86, R89, R308, R393). -/
def dryHold (s : State) (q : Req) (w : Wet) (a : Nat) : Hold :=
  match stackHeld s a with
  | some st => .stack st
  | none =>
    match ruleHolder s a 64 with
    | some st => .rule st
    | none =>
    if inThread s a then
      let r := (rowAt a).getD 0
      if !w.past && pendHolds s w.row r then .pending r
      else if w.bytes.any fun b => stepHolds s r q { size := 1 } (a + b.1) then .step r
      else .free
    else .free

/-- A dried store at its home: direct into a row armed since (R216), else byte by byte under precedence (R219), each word whole
(R217); the entry stands until the acknowledgement arrives. -/
def applyDry (s : State) (id : Nat) (ev : Instr) : State :=
  match wetOf s id with
  | none => s
  | some w =>
    let a0 := w.line * 64
    let q : Req := { row := w.row, part := w.part, ctx := w.ctx, priv := w.priv, ex := w.ex, op := .write false }
    let t : Timed := heldEv s q ev
    match forwardOf s a0 with
    | .busy => tryLater s 1 t
    | _ =>
      let a := movedTo s a0
      match dryHold s q w a with
      | .free =>
        let s := (touch s a).1
        let s :=
          if inThread s a then dryDirect s q w a
          else checkWatches (w.bytes.foldl (fun s b => dryByte w.priv w.part w.ctx ⟨w.tag, w.row, w.pos⟩ (a + b.1) b.2 s) s) a 64
        let s := updWet s id fun x => { x with stage := 3 }
        sendIn s (oneWay w.ex a) { row := w.row, part := w.part, ctx := w.ctx, path := .T, home := w.ex } (.dryAcknowledgement id)
      | h => holdEvent (updWet s id fun x => { x with past := x.past || (match h with
          | .step _ => true
          | _ => false) }) h t

/-- The acknowledgement frees the entry (R209). -/
def dryAcked (s : State) (id : Nat) : State := { s with ms := { s.ms with wet := s.ms.wet.filter fun w => w.id != id } }

/-! ### Watches (R230) -/

/-- A polled watch reads its word. -/
def pollWatch (s : State) (id : Nat) : State :=
  match s.ms.watches.find? fun w => w.id == id with
  | none => s
  | some w =>
    if readHome s (movedTo s w.addr) w.size ≠ w.old % 2 ^ (8 * w.size) then answerWatch s w
    else postIn s 1024 { row := w.row } (.watchPoll id)

end Sys2Proof.Machine
end

