-- ==== Sys2Proof/Machine/Finish.lean ====
section
/-!
DEFINITION. An access whose last reply has come: what its row gets (R110, R186, R198 to R202, R231, R240), and the end of waits
that are answered in place (R397).
-/
namespace Sys2Proof.Machine

/-- What an element brought, zero before its reply. -/
def Elem.value (e : Elem) : Nat := e.got.getD 0

/-- The value of lane `j` of a vector load (R200 to R202, R194). -/
def loadedLane (q : Req) (et j : Nat) : Nat × Flags :=
  let mine := (q.elems.find? fun e => e.lane == j).getD {}
  match q.decode with
  | 0 => plainLane mine.value
  | 1 =>
    let f := (q.elems.headD {}).fmt
    if loadIsRaw et f then plainLane mine.value
    else
      let span := q.elems.filter fun e => e.lane != 64 || !fmtIsBlock f
      let v := packElems (8 * (q.elems.headD {}).size) (span.map Elem.value)
      let sc := ((q.elems.find? fun e => e.lane == 64).getD {}).value
      decodeInto f et v j sc
  | _ => if loadIsRaw et mine.fmt then plainLane mine.value else decodeInto mine.fmt et mine.value 0 0

/-- Write a vector load's lanes; flags of the decoding are raised (R173, R149). -/
def loadVector (s : State) (q : Req) (d et k : Nat) (z : Bool) : State :=
  let x := mapLanes (fmtWidth et) k z (getV s q.row d) (loadedLane q et)
  orFlags (setV s q.row d x.1) q.row (flagsToNat x.2)

/-- A note's outcome at its sender (R240): a refused engaging note gives its unit of DEFICIT back; with d = s0 a refusal is counted. -/
def noteOutcomeAt (s : State) (q : Req) (d st : Nat) (engage : Bool) : State :=
  let s := if engage ∧ st ≠ 0 ∧ isThread s q.row then setF s q.row fDeficit (getF s q.row fDeficit - 1) else s
  if d = 0 ∧ st ≠ 0 then regAdd s (rackWord q.ex q.part 0x20) 1 else s

/-- What a finished access writes into its row (without the completion itself). -/
def writeDest (s : State) (q : Req) : State :=
  let v := (q.elems.headD {}).value
  match q.dest with
  | .none => s
  | .scalar d n sgn => setS s q.row d (extendTo n sgn v)
  | .vector d et k z => loadVector s q d et k z
  | .status d => setS s q.row d (BitVec.ofNat 64 v)
  | .window d off => setS (ownWrite s q.row off (bytesOf 256 (v / 2 ^ 64)) q.priv) q.row d (BitVec.ofNat 64 v)
  | .noteStatus d _ => setS s q.row d (BitVec.ofNat 64 v)
  | .acc _ _ => s
  | .table _ _ _ _ _ => s
  | .host _ _ _ => s

/-- The scalar registers that a finished access writes. -/
def destRegs (q : Req) : List Nat :=
  match q.dest with
  | .scalar d _ _ => [d]
  | .status d => [d]
  | .window d _ => [d]
  | .noteStatus d _ => [d]
  | _ => []

/-- The ordered flow an operation belongs to, by partition·8192 + entry (R381). -/
def hostFlow (q : Req) : Option Nat :=
  match q.dest with
  | .host k _ true => some (q.part * 8192 + k)
  | _ => none

/-- Whether a write or an atomic of an ordered flow that has left the hub has not been answered: later operations of the flow are not
started (R381). The hub learns by the answer that it has been applied. -/
def flowBusy (s : State) (flow : Nat) : Bool :=
  s.ms.reqs.any fun e => hostFlow e.2 == some flow && !(s.hub.hostQueue.any fun x => x.2 == e.1) &&
    (match e.2.op with
     | .write _ => true
     | .atom _ _ _ => true
     | .cas => true
     | _ => false)

/-- An accepted operation leaves the hub for its homes: direct, of no context, never caught by a drop cloth (R380). Operations of an
ordered flow keep their order on the way; others have none (R381). -/
def hostGo (s : State) (id : Nat) : State :=
  match tabGet s.ms.reqs id with
  | none => s
  | some q =>
    let flow := match hostFlow q with
      | some k => 2 ^ 54 + k
      | none => 0
    let tag : MsgTag := { row := 2 ^ 28, part := q.part, ctx := 8, path := .N, flow := flow }
    let ev := fun (i : Nat) => match q.op with
      | .note _ _ _ _ _ => Instr.noteLanding id
      | _ => Instr.directAccess id i
    (q.elems.zipIdx).foldl (fun s x => sendIn s (oneWay q.ex x.1.addr) tag (ev x.2)) s

/-- An operation is started, or waits at the hub behind earlier ones of its flow (R381). -/
def hostStart (s : State) (id : Nat) (q : Req) : State :=
  match hostFlow q with
  | none => hostGo (putReq s id q) id
  | some flow =>
    if flowBusy s flow || s.hub.hostQueue.any fun x => x.1 == flow then
      { putReq s id q with hub := { s.hub with hostQueue := s.hub.hostQueue ++ [(flow, id)] } }
    else hostGo (putReq s id q) id

/-- Operations of a flow that waited are started, up to the next write or atomic (R381). -/
def hostPump (s : State) (flow : Nat) : State :=
  (s.hub.hostQueue.filter fun x => x.1 == flow).foldl (fun s x =>
    if flowBusy s flow then s
    else hostGo { s with hub := { s.hub with hostQueue := s.hub.hostQueue.filter fun y => y.2 != x.2 } } x.2) s

/-- What an access's last reply does whoever waits: the engaging side of a note, the answer to a host's operation (R380). -/
def noteSide (s : State) (q : Req) : State :=
  match q.dest with
  | .noteStatus d engage => noteOutcomeAt s q d (q.elems.headD {}).value engage
  | .host k data _ =>
    let s := if q.fault.isSome then answerRemote (regAdd s (linkAt q.part 0x10) 1) q.part k 6 []
      else answerRemote s q.part k 5 (if data then (q.elems.map fun e => e.value) else [])
    (match hostFlow q with
     | some flow => hostPump s flow
     | none => s)
  | _ => s

/-- An access is complete: its record is dropped, its row gets the result or the fault and runs on (R110, R334). -/
def finishReq (s : State) (id : Nat) (q : Req) : State :=
  let s := noteSide (dropReq s id) q
  if !q.wait || !(codeOf s q.row == 4 || codeOf s q.row == 5) then s
  -- a WATCH whose row has been closed reads the word again when it issues again (R230)
  else if codeOf s q.row = 5 ∧ q.isWatch then makeReady (withdraw s q.row) q.row
  else match q.fault with
    | some f => faultLong s q.row f
    | none => endLong s q.row (destRegs q) fun s => writeDest (orFlags s q.row q.fl) q

/-- One reply has come. -/
def replyCome (s : State) (id : Nat) (q : Req) : State :=
  if 1 < q.left then putReq s id { q with left := q.left - 1 } else finishReq s id q

end Sys2Proof.Machine
end

