-- ==== Sys2Proof/Machine/Pots.lean ====
section
/-!
DEFINITION. Pots (R260 to R267): descriptors as words of the register page, and the operations of R262 as they are applied at the
pot's studio, one at a time in arrival order.
-/
namespace Sys2Proof.Machine

/-! ### Descriptor fields (R261); a pot's key is 128·studio + n -/

/-- A field of a pot's descriptor. -/
def potF (s : State) (k off lo len : Nat) : Nat := regBits s (potAt (k / 128) (k % 128) off) lo len
/-- Write a field of a pot's descriptor. -/
def setPotF (s : State) (k off lo len v : Nat) : State := setRegBits s (potAt (k / 128) (k % 128) off) lo len v
/-- BASE. -/
def potBase (s : State) (k : Nat) : Nat := potF s k 0 0 23
/-- SLOT. -/
def potSlot (s : State) (k : Nat) : Nat := potF s k 0 32 11
/-- COUNT. -/
def potCount (s : State) (k : Nat) : Nat := potF s k 0 43 8 + 1
/-- ACTIVE. -/
def potActive (s : State) (k : Nat) : Bool := potF s k 0 51 1 == 1
/-- CTX. -/
def potCtx (s : State) (k : Nat) : Nat := potF s k 0 52 3
/-- FREE. -/
def potFree (s : State) (k : Nat) : Nat := potF s k 8 0 9
/-- FILLED. -/
def potFilled (s : State) (k : Nat) : Nat := potF s k 8 16 9
/-- TAKEN. -/
def potTaken (s : State) (k : Nat) : Nat := potF s k 8 32 9
/-- FILLPOS. -/
def potFillPos (s : State) (k : Nat) : Nat := potF s k 8 48 11
/-- OPEN. -/
def potOpen (s : State) (k : Nat) : Bool := potF s k 8 63 1 == 1

/-- Palette address of byte `b` of slot `i`. -/
def potSlotAt (s : State) (k i b : Nat) : Nat := studioPalette (k / 128) + potBase s k + 64 * potSlot s k * i + b

/-- The failed reply of a pot that is another context's (R263). -/
def potFault (name : Nat) : FaultRec := ⟨cRIGHTS, 0x13, name % 2 ^ 48, 0⟩

/-- One way of a pot operation (R267). -/
def potWay (ex k : Nat) : Nat := oneWay ex (studioPalette (k / 128))

/-- The operation's row gets its answer after the way back; a row that has been closed meanwhile is woken and issues again (R100);
`false` when the answer was not taken. -/
def potAnswer (s : State) (q : PotReq) (v : Nat) (f : Option FaultRec) : State × Bool :=
  let s := { s with eng := { s.eng with pots := s.eng.pots.filter fun x => x.id != q.id } }
  if !q.wait then (s, true)
  else
    -- a row whose operation a drop cloth caught sleeps, and is answered all the same (R347)
    if codeOf s q.row = 4 ∨ (codeOf s q.row = 5 ∧ !q.held) then
      let c : Completion := ⟨[⟨q.d, BitVec.ofNat 64 v⟩], 0, f⟩
      let s := { s with rows := { s.rows with waits := tabDel s.rows.waits q.row, longs := tabSet s.rows.longs q.row c } }
      (sendIn s (potWay (exOf q.row) q.pot) { row := q.row, part := q.part, ctx := q.ctx, home := exOf q.row } (.longInstructionComplete q.row), true)
    else if codeOf s q.row = 5 then (makeReady (withdraw s q.row) q.row, false)
    else (s, true)

/-- INACTIVE as POTPUT and POTGET return it (R267). -/
def potInactive : Nat := 2 ^ 63 + 3

/-- Take the slot at RD (R262): its palette offset. -/
def potTake (s : State) (k : Nat) : State × Nat :=
  let rd := potF s k 0x10 8 8
  let s' := setPotF (setPotF s k 8 16 9 (potFilled s k - 1)) k 8 32 9 (potTaken s k + 1)
  (setPotF s' k 0x10 8 8 ((rd + 1) % potCount s k), potBase s k + 64 * potSlot s k * rd)

/-- Answer the registered POTGETs in order while slots are filled (R267). -/
def serveGets (s : State) (k : Nat) : Nat → State
  | 0 => s
  | fuel + 1 =>
    if potFilled s k = 0 then s
    else match s.eng.pots.find? fun q => q.pot == k && q.kind == 1 && q.held with
      | none => s
      | some q =>
        if codeOf s q.row = 4 then
          let x := potTake s k
          serveGets (potAnswer x.1 q x.2 none).1 k fuel
        else serveGets (potAnswer s q 0 none).1 k fuel

/-- One line of the open slot has been written: FILLPOS moves, a full slot is published and taken by a waiting POTGET (R262); FILLPOS
then stays at SLOT until the next reservation. -/
def potLineDone (s : State) (k : Nat) : State :=
  let fp := potFillPos s k + 1
  let s := setPotF s k 8 48 11 fp
  if fp < potSlot s k then s
  else
    let s := setPotF (setPotF s k 8 63 1 0) k 8 16 9 (potFilled s k + 1)
    let s := setPotF s k 0x10 0 8 ((potF s k 0x10 0 8 + 1) % potCount s k)
    serveGets s k 128

/-- Reserve a slot when none is open (R262); none when FREE is 0. -/
def potReserve (s : State) (k : Nat) : Option State :=
  if potOpen s k then some s
  else if potFree s k = 0 then none
  else some (setPotF (setPotF (setPotF s k 8 0 9 (potFree s k - 1)) k 8 63 1 1) k 8 48 11 0)

/-- Count a reservation that found FREE = 0. -/
def potFWait (s : State) (k : Nat) : State := setPotF s k 0x18 32 32 (potF s k 0x18 32 32 + 1)

/-- Where the next line of the open slot goes. -/
def potLineAt (s : State) (k : Nat) : Nat := potSlotAt s k (potF s k 0x10 0 8) (64 * potFillPos s k)

/-- Write a POTPUT's line (R262, R267): the state and FILLPOS after it. -/
def putLine (s : State) (q : PotReq) : State × Nat :=
  let s := potLineDone (writeHome s (potLineAt s q.pot) q.line false q.part q.ctx) q.pot
  (s, if potOpen s q.pot then potFillPos s q.pot else 0)

/-- A pot operation that meets what a rule engine keeps to itself is held at the studio (R308). -/
def holdPot (s : State) (q : PotReq) (st : Nat) : State :=
  let s := { s with eng := { s.eng with pots := s.eng.pots.map fun x => if x.id = q.id then { x with held := false } else x } }
  holdEvent s (.rule st) ⟨s.clk.now, 0, { row := q.row, part := q.part, ctx := q.ctx }, .potOperation q.id⟩

/-- The next line that holds for FREE of a pot, in the order in which they came to hold: a POTPUT, or a copy's. -/
inductive PotWaiter where
  | put (q : PotReq)
  | copy (c : Copy)

/-- The first of them. -/
def potWaiter (s : State) (k : Nat) : Option PotWaiter :=
  let puts := (s.eng.pots.filter fun q => q.pot == k && q.kind == 0 && q.held).map fun q => (q.ticket, PotWaiter.put q)
  let copies := (s.eng.copies.filter fun c => c.state == 5 && bitAt (c.desc.getD 1 0).toNat 52 && c.dseg.1 == k).map fun c => (c.ticket, PotWaiter.copy c)
  ((puts ++ copies).foldl (fun (m : Option (Nat × PotWaiter)) x => match m with
    | some y => if x.1 < y.1 then some x else some y
    | none => some x) none).map Prod.snd

/-- Held lines go on in order while a slot is open or can be reserved (R262): a POTPUT's line is written; a copy has its slot reserved, and
reads or writes on. -/
def servePuts (s : State) (k : Nat) : Nat → State
  | 0 => s
  | fuel + 1 =>
    match potWaiter s k, potReserve s k with
    | none, _ => s
    | some (.put q), x =>
      if codeOf s q.row ≠ 4 then servePuts (potAnswer s q 0 none).1 k fuel
      else match x with
        | none => s
        | some s' =>
          match ruleHolder s' (potLineAt s' k) 64 with
          | some st => servePuts (holdPot s q st) k fuel
          | none =>
            let y := putLine s' q
            servePuts (potAnswer y.1 q y.2 none).1 k fuel
    | some (.copy c), some s' =>
      servePuts { s' with eng := { s'.eng with copies := s'.eng.copies.map fun x =>
        if x.id = c.id then { x with state := 0, writeHeld := false } else x } } k fuel
    | some (.copy _), none => s

/-- An operation that must wait is registered at the pot and its row's wait is unbounded from now on (R267, R99). -/
def potHold (s : State) (q : PotReq) : State :=
  let s := freshId { s with eng := { s.eng with pots := (s.eng.pots.filter fun x => x.id != q.id) ++ [{ q with held := true, ticket := s.clk.ids }] } }
  restAt s q.row fun s => if codeOf s q.row = 4 then waitOn s q.row 8 false .event else s

/-- POTSET's act (R265): status, or ALIGN. -/
def potSetAct (s : State) (q : PotReq) : State :=
  let k := q.pot
  let busy := potActive s k && (potOpen s k || potFilled s k != 0 || potTaken s k != 0 ||
    s.eng.copies.any fun c => bitAt (c.desc.getD 1 0).toNat 52 && c.dseg.1 == k && c.state != 2 && c.state != 4)
  let gets := s.eng.pots.filter fun x => x.pot == k && x.kind == 1 && x.held
  let free := fun (s : State) => gets.foldl (fun s x => (potAnswer s x potInactive none).1) s
  let base := q.args.getD 1 0
  let slot := q.args.getD 2 0
  let cnt := q.args.getD 3 0 + 1
  if busy then (potAnswer s q 1 none).1
  else if q.args.getD 0 0 = 1 then (potAnswer (free (setPotF s k 0 51 1 0)) q 0 none).1
  else if base % 64 ≠ 0 then (potAnswer s q 0 (some ⟨cALIGN, 0, base % 2 ^ 48, 5⟩)).1
  else if 2 ^ 23 < base + 64 * slot * cnt ∨
      (List.range ((base + 64 * slot * cnt - 1) / 2 ^ 18 + 1 - base / 2 ^ 18)).any (fun i => !bitAt (bankSet s q.part) (base / 2 ^ 18 + i)) then
    (potAnswer s q 2 none).1
  else
    let s := setRegWord s (potAt (k / 128) (k % 128) 0) (base + slot * 2 ^ 32 + (cnt - 1) * 2 ^ 43 + 2 ^ 51 + q.ctx * 2 ^ 52)
    let s := setRegWord s (potAt (k / 128) (k % 128) 8) cnt
    let s := setRegWord s (potAt (k / 128) (k % 128) 0x10) 0
    (potAnswer (free s) q 0 none).1

/-- A pot operation is applied at its studio (R262, R263, R267). -/
def potApply (s : State) (id : Nat) : State :=
  match s.eng.pots.find? fun q => q.id == id with
  | none => s
  | some q =>
    let k := q.pot
    let alien := potActive s k && potCtx s k != q.ctx
    let name := q.args.getD 0 0
    match q.kind with
    | 0 =>
      if alien then (potAnswer s q 0 (some (potFault name))).1
      else if !potActive s k then (potAnswer s q potInactive none).1
      else match potReserve s k with
        | none => potHold (potFWait s k) q
        | some s =>
          let x := putLine s q
          (potAnswer x.1 q x.2 none).1
    | 1 =>
      if alien then (potAnswer s q 0 (some (potFault name))).1
      else if !potActive s k then (potAnswer s q potInactive none).1
      else if potFilled s k = 0 then potHold (setPotF s k 0x18 0 32 (potF s k 0x18 0 32 + 1)) q
      else
        let x := potTake s k
        (potAnswer x.1 q x.2 none).1
    | 2 =>
      if alien then (potAnswer s q 0 (some (potFault name))).1
      else if !potActive s k || potTaken s k == 0 then (potAnswer s q 1 none).1
      else
        let s := setPotF (setPotF s k 8 32 9 (potTaken s k - 1)) k 8 0 9 (potFree s k + 1)
        let s := setPotF s k 0x10 16 8 ((potF s k 0x10 16 8 + 1) % potCount s k)
        let s := servePuts s k 256
        (potAnswer s q 0 none).1
    | _ => potSetAct s q

/-- A pot operation leaves for its studio (R262, R264, R267): in order with the row's other accesses to that palette. -/
def sendPot (s : State) (q : PotReq) : State :=
  let id := s.clk.ids
  let s := freshId { s with eng := { s.eng with pots := s.eng.pots ++ [{ q with id := id }] } }
  sendIn s (potWay (exOf q.row) q.pot) (rowTag s q.row .T (studioPalette (q.pot / 128))) (.potOperation id)

/-- A pot name (R260): its key, or the fault, which names bits [47:0] of the name; `own` when only the own studio is accepted. -/
def potName (s : State) (r : Nat) (v : Word) (own : Bool) : Except FaultRec Nat :=
  let w := v.toNat
  let st := studioOf (exOf r)
  let name := w % 2 ^ 48
  if w / 2 ^ 17 ≠ 0 ∨ bitAt w 7 ∨ (bitAt w 16 ∧ bitsAt w 8 8 ≠ 0) then .error ⟨cILLOP, 0, name, 0⟩
  else
    let k := (if bitAt w 16 then st else bitsAt w 12 4 * 16 + bitsAt w 8 4) * 128 + w % 128
    if !bitAt (bankSet s (partOf s r)) (w % 128 / 4) then .error ⟨cRIGHTS, 0x11, name, 0⟩
    else if own ∧ k / 128 ≠ st then .error ⟨cSEG, 0x07, name, 0⟩
    else .ok k

end Sys2Proof.Machine
end

