-- ==== Sys2Proof/Machine/Copies.lean ====
section
/-!
DEFINITION. The copy engine (R268 to R273): the stream of a copy cut into pieces, one read and one write each, in order; page
faults, errors, pots and peers as destinations.
-/
namespace Sys2Proof.Machine

/-! ### The shape of a copy (R268) -/

/-- Word `i` of the descriptor. -/
def cpyW (c : Copy) (i : Nat) : Nat := (c.desc.getD i 0).toNat
/-- LEN. -/
def cpyLen (c : Copy) : Nat := bitsAt (cpyW c 2) 0 32
/-- NROWS. -/
def cpyRows (c : Copy) : Nat := bitsAt (cpyW c 2) 32 16
/-- NPLANES. -/
def cpyPlanes (c : Copy) : Nat := bitsAt (cpyW c 2) 48 16
/-- Bytes of the whole stream. -/
def cpyTotal (c : Copy) : Nat := cpyLen c * cpyRows c * cpyPlanes c
/-- Whether the destination is a pot. -/
def cpyPot (c : Copy) : Bool := bitAt (cpyW c 1) 52
/-- The peer entry, 0 for none. -/
def cpyPeer (c : Copy) : Nat := bitsAt (cpyW c 5) 0 16
/-- Source offset of a byte of the stream. -/
def cpySrcOff (c : Copy) (pos : Nat) : Int :=
  let l := cpyLen c
  (bitsAt (cpyW c 0) 0 48 : Int) + (pos / (l * cpyRows c) : Nat) * signedOf 32 (bitsAt (cpyW c 4) 0 32)
    + (pos / l % cpyRows c : Nat) * signedOf 32 (bitsAt (cpyW c 3) 0 32) + (pos % l : Nat)
/-- Destination offset of a byte of the stream. -/
def cpyDstOff (c : Copy) (pos : Nat) : Int :=
  let l := cpyLen c
  (bitsAt (cpyW c 1) 0 48 : Int) + (pos / (l * cpyRows c) : Nat) * signedOf 32 (bitsAt (cpyW c 4) 32 32)
    + (pos / l % cpyRows c : Nat) * signedOf 32 (bitsAt (cpyW c 3) 32 32) + (pos % l : Nat)
/-- The source segment as it stood at issue. -/
def cpySseg (c : Copy) : Seg := segOf c.sseg.1 c.sseg.2
/-- The destination segment as it stood at issue. -/
def cpyDseg (c : Copy) : Seg := segOf c.dseg.1 c.dseg.2
/-- The words of the segment that the own row acts as (R182). -/
def rowSegWords : Nat × Nat := (3 * 2 ^ 51, 0x1000)

/-- Bytes of the piece that starts at `pos` (R269). -/
def pieceLen (c : Copy) (pos : Nat) : Nat :=
  let low := if cpyPot c then pos % 64
    else ((if cpyPeer c ≠ 0 then cpyDstOff c pos else (cpyDseg c).base + cpyDstOff c pos) % 64).toNat
  min (cpyLen c - pos % cpyLen c) (64 - low)

/-- What resolving one end of a piece finds. -/
inductive Reach where
  | at_ (a extra : Nat)
  | walk (va : Nat)
  | page (va level : Nat)
  | err (bit : Nat)
  deriving DecidableEq, Repr

/-- Resolve an offset of a copy's segment now (R269, R272); what lies there may have migrated (R196). -/
def cpyReach (s : State) (c : Copy) (g : Seg) (o : Int) (need : Nat) : Reach :=
  let fin := fun (a x : Nat) =>
    match dpaChecks s c.part (isPriv s c.row) (need == 1) a with
    | some (k, _) => Reach.err (if k = cBUS then 1 else 0)
    | none => .at_ (movedTo s a) x
  if g.kind = 4 then
    let q : Req := { row := c.row, part := c.part, ctx := c.ctx, priv := false, ex := c.ex, virt := true, need := need }
    match xlate s q (lowBits 48 (g.base + o)) with
    | .ok (a, x, _) => fin a x
    | .error (.walk va) => .walk va
    | .error (.page va l) => .page va l
    | .error _ => .err 0
  else match segReach c.row g o.toNat 1 with
    | some a => fin a 0
    | none => .err 0

/-- Change a copy record. -/
def updCopy (s : State) (id : Nat) (f : Copy → Copy) : State :=
  { s with eng := { s.eng with copies := s.eng.copies.map fun c => if c.id = id then f c else c } }

/-- The copy of a name. -/
def copyOf (s : State) (id : Nat) : Option Copy := s.eng.copies.find? fun c => c.id == id

/-- The tag of a copy's steps. -/
def copyTag (c : Copy) : MsgTag := { row := c.row, part := c.part, ctx := c.ctx, path := .C }

/-- A copy has ended: it is reported 12 cycles later (R397). -/
def copyOver (s : State) (c : Copy) : State := postIn (updCopy s c.id fun c => { c with state := 4 }) 12 (copyTag c) (.copyFinish c.id)

/-- A copy ends when nothing is left under way: with its last write, or, for PEER, once the peer has acknowledged it (R269). -/
def copyEnd (s : State) (id : Nat) : State :=
  match copyOf s id with
  | none => s
  | some c =>
    if c.state ≠ 4 ∧ c.state ≠ 2 ∧ c.fly.isEmpty ∧ (c.err ≠ 0 ∨ cpyTotal c ≤ c.writePos) then
      if c.err = 0 ∧ cpyPeer c ≠ 0 then updCopy s id fun c => { c with state := 6 } else copyOver s c
    else s

/-- The peer of entry `k` of a partition has acknowledged what was sent to it: copies whose last piece has gone have finished (R269, R383). -/
def copiesAcked (s : State) (p k : Nat) : State :=
  (s.eng.copies.filter fun c => c.part == p && cpyPeer c == k && c.state == 6).foldl copyOver s

/-- A copy meets its first error (R269): no further piece is read. -/
def copyFail (s : State) (id bit : Nat) : State :=
  copyEnd (updCopy s id fun c => { c with err := c.err ||| 2 ^ bit, state := 0 }) id

/-- A copy meets a page fault (R269): it pauses and the pager is told, or it fails when there is none. -/
def copyPage (s : State) (c : Copy) (va level need : Nat) : State :=
  match effPager s c.row with
  | none => copyFail s c.id 0
  | some 0 => copyFail s c.id 0
  | some g =>
    let s := regAdd s (transAt c.part c.ctx + 0x20) 1
    let s := sysNote s c.ex c.part g
      [noteHeader 0 c.row 4, BitVec.ofNat 64 va, BitVec.ofNat 64 (c.row + 0xD0 * 2 ^ 32), BitVec.ofNat 64 (need + 4 * level)]
    updCopy s c.id fun c => { c with state := 1 }

/-- Entry of the peer table (R379): whether it may be used. -/
def peerUsable (s : State) (p k : Nat) : Bool :=
  0 < k && k < 4096 && regBits s (0x0C0010000000 + 0x10000 * p + 16 * k + 8) 5 2 == 1

/-- Whether the ranges of a copy overlap (R269): both ends of kinds that resolve directly, both VIRT, or the source within the slots of
the destination pot. Ranges of which one is VIRT are compared piece by piece instead, as they are translated (log 68). -/
def copyOverlaps (s : State) (c : Copy) : Bool :=
  let span := fun (off : Nat → Int) =>
    let l := cpyLen c
    let corners := [off 0, off (l * (cpyRows c - 1)), off (l * cpyRows c * (cpyPlanes c - 1)), off (cpyTotal c - l)]
    (corners.foldl (fun m x => if x < m then x else m) (off 0), corners.foldl (fun m x => if m < x then x else m) (off 0) + l)
  let pos := fun (g : Seg) (o : Int) => if g.kind = 4 then some (g.base + o).toNat else segReach c.row g o.toNat 1
  let a := span (cpySrcOff c)
  let len := (a.2 - a.1).toNat
  if cpyPeer c ≠ 0 then false
  else if cpyPot c then
    match (if (cpySseg c).kind = 4 then none else pos (cpySseg c) a.1) with
    | some x => spans x len (studioPalette (c.dseg.1 / 128) + potBase s c.dseg.1) (64 * potSlot s c.dseg.1 * potCount s c.dseg.1)
    | none => false
  else
    let b := span (cpyDstOff c)
    if ((cpySseg c).kind == 4) != ((cpyDseg c).kind == 4) then false
    else match pos (cpySseg c) a.1, pos (cpyDseg c) b.1 with
      | some x, some y => spans x len y (b.2 - b.1).toNat
      | _, _ => false

/-- Read the bytes of a piece; a piece that lies in two lines of its source is read in two parts, each where its line stands (R196). -/
def pieceBytes (s : State) (a1 n1 a2 n2 : Nat) : State × List Byte × Bool :=
  let s := (touch s a1).1
  let s := if n2 = 0 then s else (touch s a2).1
  (s, bytesOf n1 (readHome s a1 n1) ++ bytesOf n2 (readHome s a2 n2), (poisonedLine s a1 n1).isSome || (n2 != 0 && (poisonedLine s a2 n2).isSome))

/-- Whether another unfinished copy to the same pot came first: copies to one pot are served one at a time (R271). -/
def potBehind (s : State) (c : Copy) : Bool :=
  s.eng.copies.any fun x => cpyPot x && x.dseg.1 == c.dseg.1 && x.state != 2 && x.state != 4 && decide (x.id < c.id)

/-- What a pot says to the next read of a copy into it (R262, R263, R269): 0 read, 1 wait, 2 hold for FREE, 3 an error; with the slot
reserved. The read-ahead stays within the open slot. -/
def potGate (s : State) (c : Copy) : State × Nat :=
  let k := c.dseg.1
  let ahead := c.readPos - c.writePos
  if !cpyPot c then (s, 0)
  else if !potActive s k || potCtx s k != c.ctx then (s, 3)
  else if potBehind s c then (s, 1)
  else if potOpen s k then
    (s, if 64 * potFillPos s k + c.writePos % 64 + ahead < 64 * potSlot s k then 0 else 1)
  else if ahead ≠ 0 then (s, 1)
  else match potReserve s k with
    | some s => (s, 0)
    | none => (potFWait s k, 2)

/-- The next piece of a copy: its length, the length of its part in the first line of the source, and what its ends resolve to. -/
structure NextPiece where
  len : Nat
  head : Nat
  src : Reach
  more : Reach
  dst : Reach

/-- Resolve the next piece. -/
def nextPiece (s : State) (c : Copy) : NextPiece :=
  let n := pieceLen c c.readPos
  let o := cpySrcOff c c.readPos
  let n1 := min n (64 - ((cpySseg c).base + o).toNat % 64)
  { len := n, head := n1, src := cpyReach s c (cpySseg c) o 0,
    more := if n1 < n then cpyReach s c (cpySseg c) (o + n1) 0 else .at_ 0 0,
    dst := if cpyPot c || cpyPeer c != 0 then .at_ 0 0 else cpyReach s c (cpyDseg c) (cpyDstOff c c.readPos) 1 }

/-- Whether a copy would read its next piece now, the piece's own place apart (R269, R271): copies of one row and group start in issue
order. -/
def pieceWanted (s : State) (c : Copy) : Bool :=
  let first := c.readPos != 0 || !(s.eng.copies.any fun x =>
    x.row == c.row && x.group == c.group && decide (x.id < c.id) && x.readPos == 0 && x.state != 2 && x.state != 4)
  c.state == 0 && c.err == 0 && !c.out && decide (c.readPos < cpyTotal c) && decide (c.fly.length < 16) &&
  (c.fly.isEmpty || !copyOverlaps s c) && first

/-- Whether a piece on its way still has to be written to where the bytes are read (R269). -/
def pieceClash (c : Copy) (p : NextPiece) : Bool :=
  let hits := fun (x : Reach) (n : Nat) => match x with
    | .at_ a _ => c.fly.any fun f => !cpyPot c && cpyPeer c == 0 && spans a n f.at_ f.bytes.length
    | _ => false
  hits p.src p.head || (p.head != p.len && hits p.more (p.len - p.head))

/-- Whether a copy is ready for its next piece slot in this cycle (R269, R270). -/
def pieceReady (s : State) (c : Copy) : Bool :=
  c.gate == 0 && decide (c.readAt ≤ s.clk.now) && pieceWanted s c && (potGate s c).2 != 1 &&
  (let p := nextPiece s c
   let still := fun (x : Reach) => match x with
     | .at_ a _ => forwardOf s a != .busy
     | _ => true
   !pieceClash c p && still p.src && (p.head == p.len || still p.more))

/-- The cycle in which a piece read now reaches its destination (R270): after the copy's earlier pieces, and for a peer after those of
its row and group. -/
def pieceDue (s : State) (c : Copy) (d : Nat) : Nat :=
  let mine := s.eng.copies.filter fun x =>
    x.id == c.id || (cpyPeer c != 0 && cpyPeer x != 0 && x.row == c.row && x.group == c.group)
  (mine.flatMap fun (x : Copy) => x.fly).foldl (fun m f => max m f.due) (s.clk.now + d + loadDelay s c.row)

/-- A rule engine holds nothing whose turn it is among what it held (R308). -/
def turnFree (s : State) (ev : Instr) (h : Hold) : Hold :=
  match h with
  | .rule st => if ruleTurn s st ev then .free else h
  | h => h

/-- What holds the next read at its home (R308, R393). -/
def readHold (s : State) (c : Copy) (a1 n1 a2 n2 : Nat) : Hold :=
  let q : Req := { row := 2 ^ 28, part := c.part, ctx := c.ctx, priv := false, ex := c.ex, path := .C }
  match turnFree s (.copyPieceRead c.id) (holdFor s q { size := n1 } a1) with
  | .free => if n2 = 0 then .free else turnFree s (.copyPieceRead c.id) (holdFor s q { size := n2 } a2)
  | h => h

/-- The studio whose rule engine still holds a pot operation on a pot: a line that arrives comes after it (R262, R308). -/
def potQueue (s : State) (k : Nat) : Option Nat :=
  match tabGet s.eng.rules (k / 128) with
  | some e => if e.held.any (fun h => match h with
      | .event t => (match t.ev with
        | .potOperation id => s.eng.pots.any fun q => q.id == id && q.pot == k
        | _ => false)
      | .line _ _ => false) then some (k / 128) else none
  | none => none

/-- Piece slots that a studio has left in this cycle (R270). -/
def slotsLeft (s : State) (st : Nat) : Nat :=
  match tabGet s.eng.copySlots st with
  | some (n, k) => if n = s.clk.now then 4 - k else 4
  | none => 4

/-- A piece slot of this cycle is taken. -/
def takeSlot (s : State) (st : Nat) : State :=
  { s with eng := { s.eng with copySlots := tabSet s.eng.copySlots st (s.clk.now, 5 - slotsLeft s st) } }

/-- The next piece is read from where it stands (R269, R270): poison goes along, one unit is charged, and it is on its way. -/
def takePiece (s : State) (c : Copy) (p : NextPiece) (a1 x1 a2 b y : Nat) : State :=
  let x := pieceBytes s a1 p.head a2 (p.len - p.head)
  let ld := if cpyPeer c ≠ 0 then 600 else if cpyPot c then 2 * potWay c.ex c.dseg.1 else 2 * oneWay c.ex b
  let due := pieceDue x.1 c (max 1 (2 * oneWay c.ex a1 + ld - 24 + x1 + y))
  let s := updCopy (takeSlot x.1 (studioOf c.ex)) c.id fun c =>
    { c with readPos := c.readPos + p.len, gate := 0, readAt := x.1.clk.now + 1, fly := c.fly ++ [⟨b, c.readPos, x.2.1, x.2.2, due⟩] }
  chargeStop { s with clk := { s.clk with draws := s.clk.draws + 1 } } c.row 1

/-- A translation that a copy takes from a cache is brought to the front (R190), in the caches of its issuer's executor and studio, which are
those the model has it consult (DESIGN CHOICE, log 76). -/
def renewEnd (s : State) (c : Copy) (g : Seg) (o : Int) : State :=
  if g.kind ≠ 4 then s
  else match cachedTrans s c.ex c.part c.ctx (lowBits 48 (g.base + o)) 4 with
    | some (_, e, _) => fillTlb s c.ex e
    | none => s

/-- The translations of a piece that is taken are used (R190). -/
def renewPiece (s : State) (c : Copy) (p : NextPiece) : State :=
  let o := cpySrcOff c c.readPos
  let s := renewEnd s c (cpySseg c) o
  let s := if p.head = p.len then s else renewEnd s c (cpySseg c) (o + p.head)
  if cpyPot c || cpyPeer c != 0 then s else renewEnd s c (cpyDseg c) (cpyDstOff c c.readPos)

/-- One piece is read (R269, R270), or the copy meets what stands in its way. -/
def pieceRead (s : State) (id : Nat) : State :=
  match copyOf s id with
  | none => s
  | some c =>
    if !pieceWanted s c then s
    else if cpyPeer c ≠ 0 ∧ !peerUsable s c.part (cpyPeer c) then copyFail s id 2
    else
      let p := nextPiece s c
      let walk := fun (va need : Nat) => addWalk (updCopy s id fun c => { c with gate := 1 }) c.ex c.row c.part c.ctx va need (.copy id va need)
      match p.src, p.more, p.dst with
      | .at_ a1 x1, .at_ a2 _, .at_ b y =>
        (match readHold s c a1 p.head a2 (p.len - p.head), potGate s c with
         | .free, (s, 0) => takePiece (renewPiece s c p) c p a1 x1 a2 b y
         | .free, (s, 2) => freshId (updCopy s id fun c => { c with state := 5, ticket := s.clk.ids })
         | .free, (s, 3) => copyFail s id 3
         | .free, _ => s
         | h, _ => holdEvent (updCopy s id fun c => { c with gate := 2 }) h ⟨s.clk.now, 0, copyTag c, .copyPieceRead id⟩)
      | .walk va, _, _ => walk va 0
      | _, .walk va, _ => walk va 0
      | _, _, .walk va => walk va 1
      | .page va l, _, _ => copyPage s c va l 0
      | _, .page va l, _ => copyPage s c va l 0
      | _, _, .page va l => copyPage s c va l 1
      | .err b, _, _ => copyFail s id b
      | _, .err b, _ => copyFail s id b
      | _, _, .err b => copyFail s id b

/-- Carry the poison of a piece to the lines it reaches (R268). -/
def carryPoison (s : State) (a n : Nat) (bad : Bool) : State :=
  if bad = false ∨ isReg a then s
  else (List.range ((a + n - 1) / 64 + 1 - a / 64)).foldl (fun s i =>
    { s with lines := { s.lines with poison := setAdd s.lines.poison (a / 64 + i) } }) s

/-- The first piece on its way has been written: a read that it kept back comes in the next cycle (R397). -/
def pieceDone (s : State) (id : Nat) : State :=
  let at_ := s.clk.now + 1
  let late := fun (c : Copy) => decide (16 ≤ c.fly.length) || copyOverlaps s c
  copyEnd (updCopy s id fun c =>
    { c with fly := c.fly.drop 1, writeHeld := false, readAt := if late c then max c.readAt at_ else c.readAt,
             writePos := c.writePos + ((c.fly.head?.map fun f => f.bytes.length).getD 0) }) id

/-- A copy fails at its destination: what is on its way is dropped (R269). -/
def pieceLost (s : State) (id bit : Nat) : State := copyFail (updCopy s id fun c => { c with fly := [] }) id bit

/-- A piece is written into the open slot of its pot (R262); a slot that it fills is published, and the next one reserved from the next
cycle on. -/
def pieceToPot (s : State) (c : Copy) (f : Piece) (a : Nat) : State :=
  let k := c.dseg.1
  let n := f.bytes.length
  let s := carryPoison (writeHome s a f.bytes false c.part c.ctx) a n f.bad
  let s := if (f.pos + n) % 64 = 0 then potLineDone s k else s
  pieceDone (if potOpen s k then s else updCopy s c.id fun c => { c with readAt := max c.readAt (s.clk.now + 1) }) c.id

/-- The next piece of a copy is written at its destination, in order (R269). -/
def pieceWrite (s : State) (id : Nat) : State :=
  match copyOf s id with
  | none => s
  | some c =>
    match c.fly with
    | [] => s
    | f :: _ =>
      let hold := fun (s : State) (h : Hold) =>
        holdEvent (updCopy s id fun c => { c with writeHeld := true }) h ⟨s.clk.now, 0, copyTag c, .copyPieceWrite id⟩
      if cpyPeer c ≠ 0 then
        let s' := { s with clk := { s.clk with draws := s.clk.draws + 1 } }
        if Config.peerAccepts s.clk.draws then
          pieceDone (sendPacket s' c.part true (cpyPeer c) 2 ((cpyDstOff c f.pos).toNat :: f.bytes.map BitVec.toNat)) id
        else pieceLost s' id 2
      else if cpyPot c then
        if !potActive s c.dseg.1 || potCtx s c.dseg.1 != c.ctx then pieceLost s id 3
        else match potReserve s c.dseg.1 with
          | none => freshId (updCopy (potFWait s c.dseg.1) id fun c => { c with state := 5, writeHeld := true, ticket := s.clk.ids })
          | some s' =>
            let a := potLineAt s' c.dseg.1 + f.pos % 64
            (match turnFree s (.copyPieceWrite id) (match potQueue s c.dseg.1, ruleHolder s a f.bytes.length with
              | some st, _ => .rule st
              | none, some st => .rule st
              | none, none => .free) with
             | .free => pieceToPot s' c f a
             | h => hold s h)
      else if forwardOf s f.at_ = .busy then updCopy s id fun c => { c with writeHeld := false }
      else
        let a := movedTo s f.at_
        let q : Req := { row := 2 ^ 28, part := c.part, ctx := c.ctx, priv := isPriv s c.row, ex := c.ex, path := .C, op := .write false }
        match turnFree s (.copyPieceWrite id) (holdFor s q { size := f.bytes.length } a) with
        | .free => pieceDone (carryPoison (writeHome (touch s a).1 a f.bytes q.priv c.part c.ctx) (strip a) f.bytes.length f.bad) id
        | h => hold s h

/-- A copy that has ended is reported to the issuing executor (R271, R397): its record is freed, or kept until CPYW when it
failed. -/
def copyReport (s : State) (id : Nat) : State :=
  match copyOf s id with
  | none => s
  | some c =>
    if c.err = 0 then { s with eng := { s.eng with copies := s.eng.copies.filter fun x => x.id != id } }
    else updCopy s id fun c => { c with state := 2 }

/-- A walk that a copy waits for has ended. -/
def serveCopy (s : State) (w : Walk) (id va need : Nat) : State :=
  match copyOf s id with
  | none => s
  | some c =>
    let s := updCopy s id fun c => { c with gate := 0 }
    if w.entry.isSome then s
    else
      let x := w.finds need
      if x.1 = 1 then copyPage s c va x.2.1 need else copyFail s id 0

end Sys2Proof.Machine
end

