-- ==== Sys2Proof/Machine/Governor.lean ====
section
/-!
DEFINITION. The activity governor of an executor (R112 to R116): accumulators, budgets, windows, and the charges of issues and
engines; the executor's power word (R117, R373).
-/
namespace Sys2Proof.Machine

/-- The governor's state at reset and after a layout commit (R118). -/
def govReset : Gov :=
  { acc := 0, budget := none, pending := none, lend := 0, issued := 0, lent := 0, gblock := 0, forfeit := 0, mstall := 0,
    gated := 0, demand := 0, chargedAt := 0, accBefore := 0, stalledAt := 0, stalled := 0 }

/-- The governor's state of partition `p` at an executor. -/
def govOf (s : State) (ex p : Nat) : Gov := tabGetD s.iss.gov (ex * 32 + p) govReset

/-- Change it. -/
def updGov (s : State) (ex p : Nat) (f : Gov → Gov) : State :=
  { s with iss := { s.iss with gov := tabSet s.iss.gov (ex * 32 + p) (f (govOf s ex p)) } }

/-- E in force at an executor (R112). -/
def effOf (s : State) (ex : Nat) : Nat := tabGetD s.iss.effE ex 512

/-- C_p (R112). -/
def ceilOf (s : State) (ex p : Nat) : Nat := effOf s ex * slotCount s p / 32

/-- B_p (R112). -/
def budgetOf (s : State) (ex p : Nat) : Nat := min ((govOf s ex p).budget.getD (ceilOf s ex p)) (ceilOf s ex p)

/-- D in force at an executor (R117). -/
def dutyOf (s : State) (ex : Nat) : Nat := tabGetD s.iss.duty ex 16

/-- Whether fetch is allowed in enabled cycle `c` (R117). -/
def fetchAllowed (d c : Nat) : Bool := c % 16 * d / 16 < (c % 16 + 1) * d / 16

/-- A window start at an executor (R112, R114, R373): a new E and a new B_p come into force, then every A_p drains. -/
def windowStart (s : State) (ex : Nat) : State :=
  let e := regBits s (exPower ex) 0 13
  let s := { s with iss := { s.iss with effE := if e = 512 then tabDel s.iss.effE ex else tabSet s.iss.effE ex e } }
  let mine := s.iss.gov.filter fun g => g.1 / 32 == ex
  mine.foldl (fun s g =>
    let p := g.1 % 32
    let c := ceilOf s ex p
    let s := updGov s ex p fun g =>
      { g with budget := (if g.pending.isSome then g.pending else g.budget).map fun b => min b c, pending := none }
    updGov s ex p fun g => { g with acc := g.acc - budgetOf s ex p }) s

/-- A group start: the duty that the budget tree wrote comes into force (R117). -/
def groupStart (s : State) (ex : Nat) : State :=
  let d := regBits s (exPower ex) 16 5
  { s with iss := { s.iss with duty := if d = 16 then tabDel s.iss.duty ex else tabSet s.iss.duty ex d } }

/-- Whether a charge of `w` would pass the cap (R114). -/
def overCap (s : State) (ex p w : Nat) : Bool := budgetOf s ex p < (govOf s ex p).acc + w

/-- Add a charge to A_p, which saturates, and to the period's demand (R112, R370); what A_p was before the first charge of the cycle stays
known (R118). -/
def addCharge (s : State) (ex p w : Nat) : State :=
  updGov s ex p fun g =>
    { g with acc := min (g.acc + w) 65535, demand := g.demand + w, chargedAt := s.clk.now,
             accBefore := if g.chargedAt = s.clk.now then g.accBefore else g.acc }

/-- An engine cycle or sweep line asks for its charge (R114): charged to the row, or stalled and counted in MSTALL. -/
def engineCharge (s : State) (ex row w : Nat) : State × Bool :=
  let p := partOf s row
  if overCap s ex p w then
    (updGov s ex p fun g =>
      { g with mstall := (g.mstall + 1) % 2 ^ 64, demand := g.demand + w, stalledAt := s.clk.now,
               stalled := (if g.stalledAt = s.clk.now then g.stalled else 0) + 1 }, false)
  else (chargeStop (addCharge s ex p w) row w, true)

/-! ### Where a switch stops rows (R346, R351) -/

/-- Whether a scheduled switch of a partition has reached its T cycle at an executor (R346). -/
def tReached (s : State) (p ex : Nat) : Bool := decide (regWord s (supAt p + 8) ≤ gtimeAt s ex)

/-- PEND (R344). -/
def switchPending (s : State) (p : Nat) : Bool := regBits s (supAt p) 3 1 == 1

/-- The switch of a partition that has reached its T cycle and not yet ended. -/
def switchOf (s : State) (p : Nat) : Option Switching := s.hub.switching.find? fun w => w.part == p

/-- The cycle at which the hub's decision reaches an executor: 256 cycles after its own T cycle (R346). -/
def decisionAt (s : State) (w : Switching) (ex : Nat) : Nat :=
  let left := w.at_ - s.hub.gtimeBase - Config.gtimeSkew ex % 5
  max w.tAt ((12 * left + 4) / 5) + 256

/-- Whether the rows of a partition may not issue at an executor: a switch or a suspend has reached its T cycle there, and the decision
has not yet reached it (R346, R351). -/
def heldForSwitch (s : State) (p ex : Nat) : Bool :=
  (switchPending s p && tReached s p ex) || (s.hub.suspendT.any fun t => t ≤ gtimeAt s ex) ||
  s.hub.switching.any fun w => (w.part == p || w.part == 32) && w.decided && decide (s.clk.now < decisionAt s w ex)

/-- Whether no step of a row's SWEEP, MMA or GEN may begin: its context stops at the step boundary (R347). -/
def stepStops (s : State) (r : Nat) : Bool := heldForSwitch s (partOf s r) (exOf r) || !ctxActive s r

end Sys2Proof.Machine
end

