-- ==== Sys2Proof/Machine/Matrix.lean ====
section
/-!
DEFINITION. The matrix unit (R274 to R296) and the reduction cells (R297, R298): ownership, operands, the arithmetic of a step,
accumulator rows in memory, spill and restore.
-/
namespace Sys2Proof.Machine

/-! ### The unit of an executor -/

/-- The unit of an executor. -/
def unitAt (s : State) (ex : Nat) : MatUnit := tabGetD s.eng.units ex freeUnit
/-- Change the unit. -/
def updUnit (s : State) (ex : Nat) (f : MatUnit → MatUnit) : State :=
  { s with eng := { s.eng with units := tabSet s.eng.units ex (f (unitAt s ex)) } }
/-- The record of a context at an executor. -/
def recordAt (s : State) (ex p c : Nat) : Option MRecord := tabGet s.eng.records (recordKey ex p c)
/-- Write it. -/
def setRecord (s : State) (ex p c : Nat) (m : MRecord) : State :=
  { s with eng := { s.eng with records := tabSet s.eng.records (recordKey ex p c) m } }
/-- The record of a row's context. -/
def ownRecord (s : State) (r : Nat) : Option MRecord := recordAt s (exOf r) (partOf s r) (ctxOf s r)
/-- Whether the row holds the unit. -/
def holdsUnit (s : State) (r : Nat) : Bool := (unitAt s (exOf r)).holder == some r
/-- Whether the row is its context's spilled owner (R288). -/
def spilledOwner (s : State) (r : Nat) : Bool :=
  match ownRecord s r with
  | some m => m.valid && m.spilled && m.owner == r
  | none => false
/-- SEMI. -/
def semiOf (u : MatUnit) : Nat := bitsAt u.mcfg 0 2
/-- RM of MCFG. -/
def mcfgRm (u : MatUnit) : Nat := bitsAt u.mcfg 2 3
/-- OFMT. -/
def ofmtOf (u : MatUnit) : Nat := bitsAt u.mcfg 5 5
/-- The initial value of a semiring (R284). -/
def initialAcc (semi : Nat) : Acc80 :=
  match semi with
  | 0 => accEmpty
  | 1 => accInf false
  | 2 => accInf true
  | _ => ⟨0, 0⟩
/-- Accumulator (i, j). -/
def accAt (u : MatUnit) (i j : Nat) : Acc80 := tabGetD u.acc (64 * i + j) u.init
/-- Every accumulator reset. -/
def clearAll (u : MatUnit) : MatUnit := { u with init := initialAcc (semiOf u), acc := [] }
/-- Accumulators set by a function of their place. -/
def setAccs (u : MatUnit) (f : Nat → Nat → Acc80) : MatUnit :=
  { u with acc := (List.range 4096).filterMap fun n => if f (n / 64) (n % 64) = u.init then none else some (n, f (n / 64) (n % 64)) }
/-- Rows `i0 .. i0+nr-1` reset (R292). -/
def clearRows (u : MatUnit) (i0 nr : Nat) : MatUnit :=
  setAccs u fun i j => if i0 ≤ i ∧ i < i0 + nr then initialAcc (semiOf u) else accAt u i j
/-- Raise flags in MCFG [14:11] (R277). -/
def mRaise (u : MatUnit) (f : Flags) : MatUnit :=
  { u with mcfg := u.mcfg ||| (flag01 f.inexact * 2 ^ 11 + flag01 f.underflow * 2 ^ 12 + flag01 f.overflow * 2 ^ 13 + flag01 f.invalid * 2 ^ 14) }
/-- The DPA of the spill area of a record. -/
def spillAt (m : MRecord) : Nat := m.spill * 4096

/-- The accumulators as the 40,960 bytes of the spill area (R288). -/
def spillBytes (u : MatUnit) : List Byte := (List.range 4096).flatMap fun n => bytesOf 10 (accToNat (accAt u (n / 64) (n % 64)))

/-- Cycles that a spill or a restore takes, unloaded (R288). -/
def spillWay (ex : Nat) (m : MRecord) : Nat := 320 + 2 * oneWay ex (spillAt m)

/-- The save engine begins to write the holder's accumulators (R288); the unit stays held until it has. -/
def beginSpill (s : State) (ex : Nat) : State :=
  let u := unitAt s ex
  match recordAt s ex u.part u.ctx with
  | none => s
  | some m =>
    let n := s.clk.now + spillWay ex m + loadDelay s (u.holder.getD (2 ^ 28))
    updUnit { s with clk := { s.clk with draws := s.clk.draws + 1 } } ex fun u => { u with spillEnds := some n }

/-- The holder's accumulators and MCFG are saved and the unit is free (R288); the lines are charged to the outgoing context, and in a
suspend to the device (R353). -/
def spillUnit (s : State) (ex : Nat) : State :=
  let u := unitAt s ex
  match recordAt s ex u.part u.ctx with
  | none => s
  | some m =>
    let bs := spillBytes u
    let s := (List.range 10).foldl (fun s t => writeHome s (spillAt m + 4096 * t) (bs.drop (4096 * t) |>.take 4096) true u.part u.ctx) s
    let s := setRecord s ex u.part u.ctx { m with spilled := true, cfg := u.mcfg }
    let s := if pstate s = 6 then chargeDevice s 640 else chargeCtx s u.part u.ctx 640
    { s with eng := { s.eng with units := tabDel s.eng.units ex, mma := tabDel s.eng.mma ex } }

/-- A restore ends (R288): the accumulators and MCFG are back, and the row's instruction issues again; it waits once more when another
row has taken the unit meanwhile. It is held while the area's stack is under sequencer reset (R393). A poisoned line of the area is consumed (R389). -/
def restoreUnit (s : State) (r : Nat) : State :=
  let ex := exOf r
  let p := partOf s r
  let c := ctxOf s r
  match ownRecord s r with
  | none => resumeRow s r
  | some m =>
    let base := spillAt m
    if (stackHeld s base).isSome then postIn s 1 { row := r, part := p, ctx := c } (.accumulatorRestore r)
    else if (unitAt s ex).holder.isSome then waitOn s r 2 true .unitFree
    else
      let s := meetLines s base 40960
      let line := (poisonedLine s base 40960).getD 0
      let x := consumePoison s p c base 40960
      match x.2 with
      | some (k, d) => faultLong x.1 r ⟨k, d, 64 * line, 2⟩
      | none =>
        let s := x.1
        if codeOf s r ≠ 4 then s
        else
          let u : MatUnit := { holder := some r, part := p, ctx := c, mcfg := m.cfg, init := accEmpty, acc := [] }
          let s := updUnit s ex fun _ => setAccs u fun i j => accOfNat (memNat s.mem (base + 10 * (64 * i + j)) 10)
          resumeRow (chargeCtx (setRecord s ex p c { m with spilled := false }) p c 640) r

/-- A spilled owner's unit is restored first, or awaited while a row holds it (R288). -/
def askRestore (s : State) (r : Nat) : State :=
  match ownRecord s r with
  | none => s
  | some m =>
    if (unitAt s (exOf r)).holder.isSome then waitOn s r 2 true .unitFree
    else sendIn (waitOn s r 2 true .event) (spillWay (exOf r) m) { row := r, part := partOf s r, ctx := ctxOf s r } (.accumulatorRestore r)

/-- What a matrix instruction meets before it acts (R64, R274, R288): it goes on when the row holds the unit; a spilled owner's
unit is restored first, and one that is being spilled is awaited; any other row faults MXOWN. -/
def withUnit (s : State) (r : Nat) (act : State → State) : State :=
  if holdsUnit s r then (if (unitAt s (exOf r)).spillEnds.isSome then waitOn s r 2 true .unitFree else act s)
  else if spilledOwner s r then askRestore s r
  else faultInstr s r cMXOWN 0

/-! ### Band registers (R292) -/

/-- I0, NR and PITCH of a band register; none when malformed. -/
def bandOf (v : Word) : Option (Nat × Nat × Nat) :=
  let w := v.toNat
  let i0 := bitsAt w 0 6
  let nr := bitsAt w 6 7
  if nr = 0 ∨ 64 < i0 + nr ∨ bitsAt w 13 3 ≠ 0 ∨ bitsAt w 32 32 ≠ 0 then none else some (i0, nr, bitsAt w 16 16)

/-! ### Operands of MMA (R278 to R282) -/

/-- A palette operand's descriptor (R279). -/
structure PalOp where
  base : Nat
  fmt : Nat
  rot : Nat
  rpitch : Nat
  tpitch : Nat
  soff : Nat
  bad : Bool
  deriving DecidableEq, Repr

/-- The descriptor in a register pair. -/
def palOp (s : State) (r x : Nat) : PalOp :=
  let a := (getS s r x).toNat
  let b := (getS s r (x + 1)).toNat
  { base := bitsAt a 0 23, fmt := bitsAt a 23 5, rot := bitsAt a 28 3, rpitch := bitsAt a 32 16, tpitch := bitsAt b 0 24,
    soff := bitsAt b 24 24, bad := bitAt a 31 || bitsAt a 48 16 != 0 || bitsAt b 48 16 != 0 || 5 < bitsAt a 28 3 }

/-- Palette offset of row `i` of step `k` (R280). -/
def rowPlace (o : PalOp) (k i : Nat) : Nat :=
  let t := o.base + k * o.tpitch
  0x40000 * ((bitsAt t 18 5 + i % 2 ^ o.rot) % 32) + bitsAt t 0 18 + i / 2 ^ o.rot * o.rpitch

/-- Palette offset of the scale line of step `k`. -/
def scaleLine (o : PalOp) (k : Nat) : Nat := o.base + k * o.tpitch + o.soff

/-- The ILLOP checks of a palette operand with rows of `w` bytes (R280). -/
def palIllop (o : PalOp) (w : Nat) : Bool :=
  o.bad || o.rpitch % 16 != 0 || o.rpitch < w || o.tpitch % 64 != 0 || o.soff % 64 != 0 || (o.soff != 0 && !fmtIsBlock o.fmt)

/-- A fault of the palette at an offset. -/
def palFault (c d a : Nat) : Option FaultRec := some ⟨c, d, a % 2 ^ 48, 5⟩

/-- The steps `k0 .. n-1`. -/
def stepsFrom (k0 n : Nat) : List Nat := (List.range (n - k0)).map (· + k0)

/-- ALIGN of a palette operand (R280). -/
def palAlign (o : PalOp) (k0 n : Nat) : Option FaultRec :=
  if o.base % 16 ≠ 0 then palFault cALIGN 0 o.base
  else (stepsFrom k0 n).findSome? fun k =>
    if fmtIsBlock o.fmt ∧ scaleLine o k % 64 ≠ 0 then palFault cALIGN 0 (scaleLine o k) else none

/-- SEG of a palette operand with `rows` rows of `w` bytes (R280): a row beyond the end of its bank, or a scale line beyond 8 MiB. -/
def palSeg (o : PalOp) (rows w k0 n : Nat) : Option FaultRec :=
  (stepsFrom k0 n).findSome? fun k =>
    let t := o.base + k * o.tpitch
    match (List.range rows).findSome? fun i =>
      let low := bitsAt t 0 18 + i / 2 ^ o.rot * o.rpitch
      if 0x40000 < low + w then palFault cSEG 0x03 (0x40000 * ((bitsAt t 18 5 + i % 2 ^ o.rot) % 32) + max low 0x40000) else none with
    | some x => some x
    | none => if fmtIsBlock o.fmt ∧ 0x800000 < scaleLine o k + 64 then palFault cSEG 0x03 (max (scaleLine o k) 0x800000) else none

/-- RIGHTS of a palette operand (R257, R280). -/
def palRights (s : State) (p : Nat) (o : PalOp) (rows k0 n : Nat) : Option FaultRec :=
  (stepsFrom k0 n).findSome? fun k =>
    match (List.range rows).findSome? fun i =>
      if !bitAt (bankSet s p) ((bitsAt (o.base + k * o.tpitch) 18 5 + i % 2 ^ o.rot) % 32) then palFault cRIGHTS 0x11 (rowPlace o k i) else none with
    | some x => some x
    | none => if fmtIsBlock o.fmt ∧ !bitAt (bankSet s p) (scaleLine o k / 2 ^ 18) then palFault cRIGHTS 0x11 (scaleLine o k) else none

/-- The other checks of the palette operands, each with its rows and their width (R280): ALIGN of all, then SEG, then RIGHTS, as the entry
lists them (R64). -/
def palCheck (s : State) (p k0 n : Nat) (os : List (PalOp × Nat × Nat)) : Option FaultRec :=
  match os.findSome? fun x => palAlign x.1 k0 n with
  | some f => some f
  | none =>
    match os.findSome? fun x => palSeg x.1 x.2.1 x.2.2 k0 n with
    | some f => some f
    | none => os.findSome? fun x => palRights s p x.1 x.2.1 k0 n

/-- Engine cycles of a step of this format pair under SEMI; none when it is not listed (R282). -/
def stepCycles (semi fa fb : Nat) : Option Nat :=
  if semi = 0 ∧ fmtIsBlock fa ∧ fmtIsBlock fb then some (if fmtWidth fa = 4 ∧ fmtWidth fb = 4 then 16 else 32)
  else if semi = 0 ∧ (fa = 0x09 ∨ fa = 0x0A) ∧ (fb = 0x09 ∨ fb = 0x0A) then some 64
  else if semi ≤ 1 ∧ fa = fb ∧ (fa = 0x0B ∨ fa = 0x03) then some 128
  else if semi = 2 ∧ fa = 0x0B ∧ fb = 0x0B then some 128
  else if semi = 3 ∧ fa = 0x08 ∧ fb = 0x08 then some 32
  else none

/-- What an MMA's operands are at a step: sub 0 both in the palette, 1 A in registers, 2 B in registers. -/
def mmaFmtA (s : State) (r : Nat) (o : MmaX) : Nat := if o.sub = 1 then o.et.toNat else (palOp s r o.a.toNat).fmt
/-- The format of operand B. -/
def mmaFmtB (s : State) (r : Nat) (o : MmaX) : Nat := if o.sub = 2 then o.et.toNat else (palOp s r o.b.toNat).fmt

/-- The checks of MMA over steps `k0 .. n-1` (R280 to R282). -/
def mmaCheck (s : State) (r : Nat) (o : MmaX) (k0 : Nat) : Option FaultRec :=
  let fa := mmaFmtA s r o
  let fb := mmaFmtB s r o
  let a := palOp s r o.a.toNat
  let b := palOp s r o.b.toNat
  let n := o.n.toNat
  let p := partOf s r
  let regOk := fun f => fmtIsBlock f || f == 0x09 || f == 0x0A
  if (o.sub ≠ 0 ∧ n ≠ 1) ∨ (stepCycles (semiOf (unitAt s (exOf r))) fa fb).isNone ∨ (o.sub = 1 ∧ !regOk fa) ∨ (o.sub = 2 ∧ !regOk fb) ∨
      (o.sub ≠ 1 ∧ palIllop a (4 * fmtWidth fa)) ∨ (o.sub ≠ 2 ∧ palIllop b (8 * fmtWidth fb)) then
    some (instrFault s r cILLOP 0)
  else
    palCheck s p k0 n ((if o.sub = 1 then [] else [(a, 64, 4 * fmtWidth fa)]) ++ (if o.sub = 2 then [] else [(b, 32, 8 * fmtWidth fb)]))

/-- Lines an operand reads in step `k`. -/
def palLines (o : PalOp) (rows w k : Nat) : List Nat :=
  let span := fun a n => (List.range ((a + n - 1) / 64 + 1 - a / 64)).map (· + a / 64)
  ((List.range rows).flatMap fun i => span (rowPlace o k i) w) ++ (if fmtIsBlock o.fmt then [scaleLine o k / 64] else [])

/-- Palette lines of step `k`, by number in the palette (R286). -/
def mmaLines (s : State) (r : Nat) (o : MmaX) (k : Nat) : List Nat :=
  ((if o.sub = 1 then [] else palLines (palOp s r o.a.toNat) 64 (4 * fmtWidth (mmaFmtA s r o)) k) ++
   (if o.sub = 2 then [] else palLines (palOp s r o.b.toNat) 32 (8 * fmtWidth (mmaFmtB s r o)) k)).eraseDups

/-- The register words that name a step's operands (R279, R293). -/
def operandWords (s : State) (r : Nat) (o : MmaX) : List Word :=
  [o.a.toNat, o.a.toNat + 1, o.b.toNat, o.b.toNat + 1].map fun x => getS s r x

/-- `n` bytes from palette offset `a` out of the lines that have been read. -/
def linesNat (got : Tab Nat) (a n : Nat) : Nat :=
  let ls := (List.range ((a + n - 1) / 64 + 1 - a / 64)).map fun i => tabGetD got (a / 64 + i) 0
  packElems 512 ls >>> (8 * (a % 64)) % 2 ^ (8 * n)

/-! ### Arithmetic (R283) -/

/-- The value of an element of an operand, block scale apart (R38). -/
def opElem (fmt v i : Nat) : FVal := fvScale (elemValAt (blockElem fmt) v i) (if fmt = 0x15 then -6 else 0)

/-- A step's operands: rows of A, rows of B (or columns, for B in registers), and their scales. -/
structure StepData where
  fa : Nat
  fb : Nat
  arow : Nat → Nat
  brow : Nat → Nat
  ascale : Nat → Nat
  bscale : Nat → Nat
  bcols : Bool

/-- The operands of step `k` (R278 to R281): registers as they stand, palette lines as they were read (R286). -/
def stepData (s : State) (r : Nat) (o : MmaX) (k : Nat) (got : Tab Nat) : StepData :=
  let fa := mmaFmtA s r o
  let fb := mmaFmtB s r o
  let a := palOp s r o.a.toNat
  let b := palOp s r o.b.toNat
  let reg := fun (i : Nat) => getV s r (i % 16)
  { fa := fa, fb := fb,
    arow := if o.sub = 1 then reg else fun i => linesNat got (rowPlace a k i) (4 * fmtWidth fa),
    brow := if o.sub = 2 then reg else fun i => linesNat got (rowPlace b k i) (8 * fmtWidth fb),
    ascale := if o.sub = 1 then fun i => elemAt 8 (reg i) 63 else fun i => linesNat got (scaleLine a k + i) 1,
    bscale := if o.sub = 2 then fun j => elemAt 8 (reg j) 63 else fun j => linesNat got (scaleLine b k + j) 1,
    bcols := o.sub = 2 }

/-- Element K of row `i` of A. -/
def aElem (d : StepData) (i kk : Nat) : Nat × Nat := (d.arow i, kk)
/-- Element K of column `j` of B: the packed string and the index in it. -/
def bElem (d : StepData) (j kk : Nat) : Nat × Nat := if d.bcols then (d.brow j, kk) else (d.brow kk, j)

/-- The order of two values that are no NaN, −0 below +0 (R154). -/
def fvLess (x y : FVal) : Bool :=
  match x, y with
  | .nan _, _ => false
  | _, .nan _ => false
  | .inf a, .inf b => a && !b
  | .inf a, _ => a
  | _, .inf b => !b
  | .fin a m q, .fin b n r =>
    let lo := if q < r then q else r
    if m = 0 ∧ n = 0 then a && !b else fvInt a m q lo < fvInt b n r lo

/-- An f32 value as a semiring accumulator (R283). -/
def accOfF32 (b : Nat) : Acc80 :=
  match decodeFloat f32Fmt b with
  | .nan _ => accNan
  | .inf n => accInf n
  | .fin n m q => if m = 0 then ⟨0, 0⟩ else ⟨if n then -(m : Int) else m, q⟩

/-- The least or greatest of an accumulator and a term of value `v` (R154, R284): whichever is kept is kept bit for bit. Of two equal
values the accumulator is kept (DESIGN CHOICE, log 70). -/
def accPick (isMax : Bool) (a t : Acc80) (v : FVal) : Acc80 :=
  if fvIsNan (accVal a) then t
  else if fvIsNan v then a
  else if (if isMax then fvLess (accVal a) v else fvLess v (accVal a)) then t else a

/-- A term of f32 bits against an accumulator. -/
def pickF32 (isMax : Bool) (a : Acc80) (t : Nat) : Acc80 := accPick isMax a (accOfF32 t) (decodeFloat f32Fmt t)

/-- The pair that stands where a rule would leave one that R39 says is never produced: free among those that are (log 31). -/
def freePair (sum : Int) : Acc80 :=
  let y := Config.reservedPair sum
  let a : Acc80 := ⟨signedOf 64 (lowBits 64 y.1), signedOf 16 (lowBits 16 y.2.1)⟩
  if accProduced a then a else accNan

/-- OR-AND's new pair (R283, R284): E stays as it stands; an empty accumulator that takes a one holds a free pair (log 31). -/
def orPair (old : Acc80) (bit : Bool) : Acc80 :=
  let a : Acc80 := ⟨signedOf 64 (lowBits 64 old.s ||| flag01 bit), old.e⟩
  if accProduced a then a else freePair a.s

/-- The new accumulator and flags of a cell at a step (R283). In PLUS-TIMES a signalling NaN operand sets INVALID (R27), also in a block
whose scale is 0xFF (DESIGN CHOICE, log 77); an infinity times zero and infinities of both signs set no flag, since R41 and R283 name none
there (DESIGN CHOICE, log 70). -/
def cellStep (semi : Nat) (d : StepData) (i j : Nat) (old : Acc80) : Acc80 × Flags :=
  let ks := List.range 32
  let av := fun k => opElem d.fa (aElem d i k).1 (aElem d i k).2
  let bv := fun k => opElem d.fb (bElem d j k).1 (bElem d j k).2
  let ai := fun k => elemAt 32 (aElem d i k).1 (aElem d i k).2
  let bi := fun k => elemAt 32 (bElem d j k).1 (bElem d j k).2
  match semi with
  | 0 =>
    let c : Contrib × Bool :=
      if fmtIsBlock d.fa then
        let sa := d.ascale i
        let sb := d.bscale j
        mxContrib (ks.map fun k => (fvMul (av k) (bv k)).1) (qMin (blockElem d.fa) + qMin (blockElem d.fb))
          ((sa : Int) - 127 + ((sb : Int) - 127)) (sa == 0xFF || sb == 0xFF)
      else if d.fa = 0x03 then
        let x := fit64 16 (ks.foldl (fun acc k => acc + signedOf 32 (ai k) * signedOf 32 (bi k)) 0) 0
        (.fin x.1 x.2.1, x.2.2)
      else fpContrib (ks.map fun k => (fvMul (av k) (bv k)).1)
    let x := accAdd old c.1
    (x.1, flagsOr x.2 { inexact := c.2, invalid := d.fa != 0x03 && ks.any fun k => fvIsSnan (av k) || fvIsSnan (bv k) })
  | 1 =>
    if d.fa = 0x03 then
      let old := if old = accInf false then ⟨0x7FFFFFFF, 0⟩ else old
      (ks.foldl (fun acc k =>
        let t : Int := if ai k = 0x7FFFFFFF ∨ bi k = 0x7FFFFFFF then 0x7FFFFFFF
          else clampInt (-(2 ^ 31)) (2 ^ 31 - 1) (signedOf 32 (ai k) + signedOf 32 (bi k))
        accPick false acc ⟨t, 0⟩ (accVal ⟨t, 0⟩)) old, flagsNone)
    else ks.foldl (fun acc k =>
        let t := fpAdd f32Fmt 0 (ai k) (bi k)
        (pickF32 false acc.1 t.1, flagsOr acc.2 t.2)) (old, flagsNone)
  | 2 => ks.foldl (fun acc k =>
        let t := fpMul f32Fmt 0 (ai k) (bi k)
        (pickF32 true acc.1 t.1, flagsOr acc.2 t.2)) (old, flagsNone)
  | _ =>
    let bit := ks.any fun k => (elemAt 64 (aElem d i k).1 (aElem d i k).2 &&& elemAt 64 (bElem d j k).1 (bElem d j k).2) != 0
    (orPair old bit, flagsNone)

/-- Whether cell (i, j) belongs to the step's output set (R281). -/
def inBand (o : MmaX) (i j : Nat) : Bool :=
  if o.sub = 1 then i / 16 == o.band.toNat else if o.sub = 2 then j / 16 == o.band.toNat else true

/-- Every contribution of a step applied to a unit. -/
def applyStep (u : MatUnit) (o : MmaX) (d : StepData) : MatUnit :=
  let cells := (List.range 4096).map fun n =>
    if inBand o (n / 64) (n % 64) then cellStep (semiOf u) d (n / 64) (n % 64) (accAt u (n / 64) (n % 64)) else (accAt u (n / 64) (n % 64), flagsNone)
  let fl := cells.foldl (fun a c => flagsOr a c.2) flagsNone
  let u := { u with acc := (cells.zipIdx).filterMap fun c => if c.1.1 = u.init then none else some (c.2, c.1.1) }
  mRaise u fl

/-! ### The run of an MMA (R286, R293, R294) -/

/-- Drop an executor's MMA. -/
def dropMma (s : State) (ex : Nat) : State := { s with eng := { s.eng with mma := tabDel s.eng.mma ex } }

/-- Let step `k` of a row's MMA come (R286): it starts at `at_` or when its lines have been read. `pre` is what the step before it read
ahead; it is of no use when the descriptors have changed since (R293). -/
def queueStep (s : State) (r : Nat) (i : Stepped) (o : MmaX) (k at_ : Nat) (pre : Option StepRun) : State :=
  let c := (stepCycles (semiOf (unitAt s (exOf r))) (mmaFmtA s r o) (mmaFmtB s r o)).getD 1
  let ws := operandWords s r o
  let lines := match pre.filter fun p => p.words == ws with
    | some p => (p.want, p.got)
    | none => (mmaLines s r o k, [])
  let run : StepRun :=
    { row := r, instr := i, step := k, left := c, startAt := at_, begun := false, ended := false, tmp := 0, fl := 0,
      want := lines.1, got := lines.2, words := ws }
  { s with eng := { s.eng with mma := tabSet s.eng.mma (exOf r) run } }

/-- The unit of an executor reads one palette line (R286, R287); an error in it is met (R388). -/
def readLine (s : State) (ex : Nat) (run : StepRun) (l : Nat) : State :=
  let s := meetError s (studioPalette (studioOf ex) / 64 + l)
  let v := memNat s.mem (studioPalette (studioOf ex) + 64 * l) 64
  { s with eng := { s.eng with mma := tabUpd s.eng.mma ex run fun x => { x with want := x.want.erase l, got := tabSet x.got l v } } }

/-- A step begins: poison is consumed (R389), the residues are checked (R285), the contributions are formed and applied; nothing
sees them before the step's end. The fault, if one ends it. -/
def beginStep (s : State) (ex : Nat) (run : StepRun) (o : MmaX) : State :=
  let r := run.row
  let pal := studioPalette (studioOf ex)
  let bad := (mmaLines s r o run.step).find? fun l => s.lines.poison.contains (pal / 64 + l)
  let y := match bad with
    | some l => consumePoison s (partOf s r) (ctxOf s r) (pal + 64 * l) 1
    | none => (s, none)
  match y.2 with
  | some (c, d) => faultLong (dropMma y.1 ex) r ⟨c, d, (bad.getD 0) * 64, 5⟩
  | none =>
    let s := y.1
    if codeOf s r ≠ 4 then dropMma s ex
    else
      let s' := { s with clk := { s.clk with draws := s.clk.draws + 1 } }
      if Config.residueUpset s.clk.draws && semiOf (unitAt s ex) == 0 then
        let s := faultLong (dropMma s' ex) r (instrFault s' r cARITH 1)
        contextEnd s (partOf s r) (ctxOf s r) 1
      else
        let s := updUnit s' ex fun u => applyStep u o (stepData s r o run.step run.got)
        let next := if run.step + 1 < o.n.toNat then mmaLines s r o (run.step + 1) else []
        let run' := { run with begun := true, want := next, got := [], words := operandWords s r o }
        { s with eng := { s.eng with mma := tabSet s.eng.mma ex run' } }

/-- One cycle of an executor's matrix engine (R286, R114). -/
def mmaCycle (s : State) (ex : Nat) (run : StepRun) : State :=
  match run.instr with
  | .mma o =>
    if run.ended ∨ enabledCycles s ex < run.startAt ∨ (!run.begun ∧ (!run.want.isEmpty ∨ stepStops s run.row)) then s
    else if codeOf s run.row ≠ 4 then dropMma s ex
    else
      let s := if run.begun then s else beginStep s ex run o
      match tabGet s.eng.mma ex with
      | none => s
      | some run =>
        let x := engineCharge s ex run.row 12
        if !x.2 then x.1
        else
          let left := run.left - 1
          let s := { x.1 with eng := { x.1.eng with mma := tabUpd x.1.eng.mma ex run fun y => { y with left := left, ended := left = 0 } } }
          if left = 0 then postIn s 1 { row := run.row } (.mmaStep ex) else s
  | _ => dropMma s ex

/-- A step of an MMA ends (R293, R294): PROGRESS; held writes and PEEKs act first, standing first in the agenda (R89), then what
lands at the boundary; then the next step, checked anew, or the drain of 24 cycles. -/
def mmaStepEnd (s : State) (ex : Nat) : State :=
  match tabGet s.eng.mma ex with
  | none => s
  | some run =>
    match run.instr with
    | .mma o =>
      let r := run.row
      let k := run.step + 1
      let s := setF s r fProgress (k + 0xDC * 2 ^ 32 + 2 ^ 40)
      if s.rows.stepHeld.any fun h => h.1 == r then releaseStep (postIn s 0 { row := r } (.mmaStep ex)) r
      else if k = o.n.toNat then
        let s := dropMma s ex
        postClock { s with rows := { s.rows with longs := tabSet s.rows.longs r ⟨[], 0, none⟩ } } ex 24 {} (.longInstructionComplete r)
      else
        let s := boundary s r
        if codeOf s r ≠ 4 then dropMma s ex
        else match mmaCheck s r o k with
          | some f => faultLong (dropMma s ex) r f
          | none => queueStep s r run.instr o k (enabledCycles s ex) (some run)
    | _ => dropMma s ex

end Sys2Proof.Machine
end

