-- ==== Sys2Proof/Machine/Operands.lean ====
section
/-!
DEFINITION. Operand forms: how an instruction's fields name its sources, its result and its address, and how it commits
(R52 to R57, R124, R140, R160, R182, R198 to R202).
-/
namespace Sys2Proof.Machine

/-- What a meaning answers. -/
abbrev Out := Host.Outcome State Fault Refusal

/-! ### Scalar results -/

/-- Write a scalar result and commit an instruction of `len` bytes. -/
def putReg (s : State) (d : Reg) (v : Word) (len : Nat) : Out := .next (finish (setS s s.clk.cur d.toNat v) s.clk.cur len)

/-- A scalar source of the acting row. -/
def src (s : State) (a : Reg) : Nat := (getS s s.clk.cur a.toNat).toNat

/-- The ALU majors, R form (R124): `f` takes width, signedness and the two sources. -/
def aluR (f : Nat → Bool → Nat → Nat → Nat) (o : AluR) (s : State) : Out :=
  putReg s o.d (putT o.t (f (itypeWidth o.t) (itypeSigned o.t) (src s o.a) (src s o.b))) 4

/-- The ALU majors, SL form (R57, R124). -/
def aluL (f : Nat → Bool → Nat → Nat → Nat) (o : AluL) (s : State) : Out :=
  putReg s o.d (putT o.t (f (itypeWidth o.t) (itypeSigned o.t) (src s o.a) o.lit.toNat)) 12

/-- One-source ALU operations (R133). -/
def aluU (f : Nat → Nat → Nat) (o : AluU) (s : State) : Out :=
  putReg s o.d (putT o.t (f (itypeWidth o.t) (src s o.a))) 4

/-- Cycles of a divide (R127). -/
def divTime (t : IType) : Nat := if itypeWidth t ≤ 32 then 16 else 24

/-- Divides leave rotation with WHY 2 (R127), R form. -/
def aluLong (f : Nat → Bool → Nat → Nat → Nat) (o : AluR) (s : State) : Out :=
  .next (goLong s s.clk.cur 2 4 (divTime o.t)
    ⟨[⟨o.d.toNat, putT o.t (f (itypeWidth o.t) (itypeSigned o.t) (src s o.a) (src s o.b))⟩], 0, none⟩)

/-- Divides, SL form. -/
def aluLongL (f : Nat → Bool → Nat → Nat → Nat) (o : AluL) (s : State) : Out :=
  .next (goLong s s.clk.cur 2 12 (divTime o.t)
    ⟨[⟨o.d.toNat, putT o.t (f (itypeWidth o.t) (itypeSigned o.t) (src s o.a) o.lit.toNat)⟩], 0, none⟩)

/-- Immediate majors, short form: the immediate is sign-extended (R53). -/
def immI (f : Word → Word → Word) (o : ImmI) (s : State) : Out :=
  putReg s o.d (f (getS s s.clk.cur o.a.toNat) (o.imm.signExtend 64)) 4

/-- Immediate majors, literal form. -/
def immL (f : Word → Word → Word) (o : ImmL) (s : State) : Out :=
  putReg s o.d (f (getS s s.clk.cur o.a.toNat) o.lit) 12

/-- Shifts by an immediate, always on 64 bits (R131). -/
def shiftI (f : Nat → Nat → Nat → Nat) (o : ShiftI) (s : State) : Out :=
  putReg s o.d (BitVec.ofNat 64 (f 64 (src s o.a) o.n.toNat)) 4

/-- PC plus an offset modulo 2^40 (R139). -/
def codeOffset (s : State) (v : Word) : Word :=
  BitVec.ofNat 64 ((getF s s.clk.cur fPc + v.toNat) % 2 ^ 40)

/-! ### Transfers of control (R140, R141) -/

/-- The target of a branch whose offset of `n` bits counts words. -/
def branchTarget (s : State) (n off : Nat) : Nat := ((getF s s.clk.cur fPc : Int) + signedOf n off * 4 : Int) % (2 ^ 40 : Int) |>.toNat

/-- A conditional branch (R140). -/
def branchIf (s : State) (c : Bool) (off : BitVec 12) : Out :=
  .next (if c then jumpTo s s.clk.cur (branchTarget s 12 off.toNat) else finish s s.clk.cur 4)

/-! ### Scalar floating point (R152) -/

/-- The format code of a scalar FP type (R61). -/
def ftypeCode (t : FType) : Nat :=
  match t with
  | .f64 => 0x0C | .f32 => 0x0B | .f16 => 0x09 | .bf16 => 0x0A

/-- The layout of a lane type; f64 stands for codes that are no float. -/
def layoutOf (code : Nat) : FloatFmt := (floatFmt code).getD ⟨11, 52, 1023, true, 0x7FEFFFFFFFFFFFFF, 0x7FF8000000000000⟩

/-- The low N bits of a scalar source of a format (R152). -/
def fsrc (s : State) (code : Nat) (a : Reg) : Nat := src s a % 2 ^ fmtWidth code

/-- An FP result: the low bits of S[d], the rest zero, and its flags, at the commit (R152). -/
def putF (s : State) (d : Reg) (x : Nat × Flags) (len : Nat) : Out :=
  putReg (orFlags s s.clk.cur (flagsToNat x.2)) d (BitVec.ofNat 64 x.1) len

/-- A long FP instruction (R153): flags and result at completion. -/
def putFLong (s : State) (t : FType) (d : Reg) (x : Nat × Flags) : Out :=
  .next (goLong s s.clk.cur 2 4 (match t with
    | .f64 => 24
    | _ => 16) ⟨[⟨d.toNat, BitVec.ofNat 64 x.1⟩], flagsToNat x.2, none⟩)

/-- Two-source scalar FP with a mode. -/
def fpR (f : FloatFmt → Nat → Nat → Nat → Nat × Flags) (o : FpR) (s : State) : Out :=
  let c := ftypeCode o.t
  putF s o.d (f (layoutOf c) o.m.toNat (fsrc s c o.a) (fsrc s c o.b)) 4

/-- Two-source scalar FP without a mode. -/
def fpC (f : FloatFmt → Nat → Nat → Nat × Flags) (o : FpC) (s : State) : Out :=
  let c := ftypeCode o.t
  putF s o.d (f (layoutOf c) (fsrc s c o.a) (fsrc s c o.b)) 4

/-! ### Lanes (R148, R149, R160) -/

/-- Write a vector result under a mask and commit: V[d], the flags raised, PC (R149). -/
def putV (s : State) (d : VReg) (w k : Nat) (z : Bool) (f : Nat → Nat × Flags) : Out :=
  let r := s.clk.cur
  let x := mapLanes w k z (getV s r d.toNat) f
  .next (finish (orFlags (setV s r d.toNat x.1) r (flagsToNat x.2)) r 12)

/-- Lane `j` of a vector register. -/
def vlane (s : State) (w : Nat) (v : VReg) (j : Nat) : Nat := elemAt w (getV s s.clk.cur v.toNat) j

/-- A mask register of the acting row. -/
def kmask (s : State) (k : KReg) : Nat := getK s s.clk.cur k.toNat

/-- Operand B of major 0x60 in lane `j` (R160). -/
def vbinB (s : State) (o : VBin) (w j : Nat) : Nat :=
  match o.sub.toNat with
  | 0 => elemAt w (getV s s.clk.cur (o.b.toNat % 16)) j
  | 1 => src s o.b % 2 ^ w
  | _ => (o.imm.signExtend 64).toNat % 2 ^ w

/-- Major 0x60, X form: `f` takes the lane type, the mode, saturation and the two lanes. -/
def vbinX (f : Nat → Nat → Bool → Nat → Nat → Nat × Flags) (o : VBin) (s : State) : Out :=
  let w := fmtWidth o.et.toNat
  putV s o.d w (kmask s o.k) o.z fun j => f o.et.toNat o.rm.toNat o.sat (vlane s w o.a j) (vbinB s o w j)

/-- Commit an instruction of `len` bytes whose effect is `s`. -/
def commit (s : State) (len : Nat) : Out := .next (finish s s.clk.cur len)

/-- Major 0x60, XL form: the literal is operand B (R57). -/
def vbinL (f : Nat → Nat → Bool → Nat → Nat → Nat × Flags) (o : VBinL) (s : State) : Out :=
  let r := s.clk.cur
  let w := fmtWidth o.et.toNat
  let x := mapLanes w (kmask s o.k) o.z (getV s r o.d.toNat) fun j =>
    f o.et.toNat o.rm.toNat o.sat (vlane s w o.a j) (o.lit.toNat % 2 ^ w)
  .next (finish (orFlags (setV s r o.d.toNat x.1) r (flagsToNat x.2)) r 20)

/-! ### Memory operands (R54, R182, R183) -/

/-- The segment of a memory operand. -/
def memSeg (s : State) (m : XMem) : Seg := if m.rowm then rowSeg else getSeg s s.clk.cur m.sg.toNat

/-- The offset of a memory operand: S[a], read unsigned, plus the signed displacement, exact (log 21). -/
def memOff (s : State) (m : XMem) : Int := (src s m.a : Int) + signedOf 32 m.disp.toNat

/-- The segment of a literal memory operand. -/
def lmemSeg (s : State) (m : LMem) : Seg := if m.rowm then rowSeg else getSeg s s.clk.cur m.sg.toNat

/-- The offset of a literal memory operand (R57): the literal is a signed 64-bit displacement. -/
def lmemOff (s : State) (m : LMem) : Int := (src s m.a : Int) + signedOf 64 m.lit.toNat

/-- An access of the acting row through a segment. -/
def reqOf (s : State) (g : Seg) (need : Nat) : Req :=
  let r := s.clk.cur
  { row := r, part := partOf s r, ctx := ctxOf s r, priv := isPriv s r, ex := exOf r, virt := g.kind == 4, need := need, seg := g }

/-- An access through the own row's latch (R93, R185): checked as every access is, then done within the instruction. -/
def ownAccess (s : State) (q : Req) (act : List Elem → State) : State :=
  match planReq s q with
  | .fault f => faultNow s q.row f
  | .go es _ _ => act es
  -- a ROW segment is never translated
  | .walk _ => s
  | .page _ _ => s

/-- Read elements in the own latch; poison among them is consumed (R389). -/
def ownReads (s : State) (q : Req) (es : List Elem) : State × List Elem × Option FaultRec :=
  es.foldl (fun x e =>
    let y := consumePoison x.1 q.part q.ctx e.addr e.size
    let f := match y.2 with
      | some (c, d) => some (x.2.2.getD ⟨c, d, e.va, q.seg.kind⟩)
      | none => x.2.2
    (y.1, x.2.1 ++ [{ e with got := some (memNat y.1.mem e.addr e.size) }], f)) (s, [], none)

/-- Store elements in the own latch, in lane order, within the instruction; a watch sees what they leave (R93, R230). -/
def ownStores (s : State) (q : Req) (es : List Elem) : State :=
  checkWatches (es.foldl (fun s e => ownPut s q.row (e.addr % 4096) (bytesOf e.size e.data) q.priv) s) (rowDpa q.row) 4096

/-- A load of any shape: in the latch when the segment is the own row, else sent (R185, R186). -/
def loadAccess (s : State) (len : Nat) (q : Req) : State :=
  let q := { q with wait := true }
  if q.seg.kind ≠ 0 then issueAccess s len q
  else ownAccess s q fun es =>
    let x := ownReads s q es
    match x.2.2 with
    | some f => faultNow x.1 q.row f
    | none => if isOpen x.1 q.row then finish (writeDest x.1 { q with elems := x.2.1 }) q.row len else x.1

/-- A store of any shape. A 64-bit scalar store of the own row to its own CMD acts as a command when the instruction has
committed (R87, R94). -/
def storeAccess (s : State) (len : Nat) (q : Req) (scalar : Bool) : State :=
  let q := { q with op := .write scalar }
  if q.seg.kind ≠ 0 then issueAccess s len q
  else ownAccess s q fun es =>
    match es with
    | [e] =>
      if scalar ∧ e.size = 8 ∧ e.addr % 4096 = 0 then
        giveCommand (finish s q.row len) q.row q.row q.priv (BitVec.ofNat 64 e.data)
      else finish (ownStores s q es) q.row len
    | _ => finish (ownStores s q es) q.row len

/-- Active lanes of width `w` under mask `k`. -/
def activeLanes (w k : Nat) : List Nat := (List.range (laneCount w)).filter fun j => bitAt k j

/-- A vector load of raw lanes at offsets `off j`; without an active lane no access is made (R200 to R202). `whole` for one whose lanes lie
one after another. -/
def laneLoad (s : State) (g : Seg) (d : VReg) (et k : Nat) (z : Bool) (off : Nat → Int) (whole : Bool) : State :=
  let r := s.clk.cur
  let w := fmtWidth et
  let q := { reqOf s g 0 with dest := .vector d.toNat et k z, whole := whole }
  match activeLanes w k with
  | [] => finish (loadVector s q d.toNat et k z) r 12
  | js => loadAccess s 12 { q with elems := js.map fun j => mkElem s r g (off j) { rd := true, size := w / 8, align := w / 8 } j 0 0 }

/-- A vector store of raw lanes of `v` at offsets `off j`; `whole` for one whose lanes lie one after another. -/
def laneStore (s : State) (g : Seg) (v w k : Nat) (off : Nat → Int) (whole : Bool) : State :=
  let r := s.clk.cur
  match activeLanes w k with
  | [] => finish s r 12
  | js => storeAccess s 12 { reqOf s g 1 with
      whole := whole
      elems := js.map fun j => mkElem s r g (off j) { wr := true, size := w / 8, align := w / 8 } j (elemAt w v j) 0 } false

/-- The check of a whole span as one access, FAULTADDR at the lowest failing byte (R194). -/
def spanPre (s : State) (r : Nat) (g : Seg) (o : Int) (n align : Nat) : Option FaultRec :=
  match segChecks s r g o { rd := true, size := n, align := align } with
  | .ok _ => none
  | .error f =>
    if f.cause ≠ cSEG then some f
    else
      let low := (List.range n).findSome? fun (i : Nat) =>
        match segChecks s r g (o + i) { rd := true, size := 1 } with
        | .error x => if x.cause = f.cause ∧ x.detail = f.detail then some x else none
        | .ok _ => none
      some (low.getD f)

/-- A decoding VLD (R194, R200): for VIRT the format comes with the translation, else from the segment. -/
def decodeLoad (s : State) (g : Seg) (o : Int) (d : VReg) (et k : Nat) (z : Bool) : State :=
  let r := s.clk.cur
  let w := fmtWidth et
  let q := { reqOf s g 0 with dest := .vector d.toNat et k z, decode := 1, whole := true }
  if (activeLanes w k).isEmpty then finish (loadVector s { q with decode := 0 } d.toNat et k z) r 12
  else if g.kind ≠ 4 ∧ loadIsRaw et g.fmt then laneLoad s g d et k z (fun (j : Nat) => o + (w / 8 * j : Nat)) true
  else
    let e := mkElem s r g o { rd := true, size := 1 } 0 0 0
    let e :=
      if g.kind = 4 ∨ !loadAccepts et g.fmt then e
      else
        let fw := fmtWidth g.fmt
        let n := laneCount w * fw / 8
        { e with pre := spanPre s r g o n (if fmtIsBlock g.fmt then n else max 1 (fw / 8)) }
    loadAccess s 12 { q with elems := [e] }

/-- A decoding VLDS (R194, R201): each active lane a separate access. -/
def decodeStride (s : State) (g : Seg) (d : VReg) (et k : Nat) (z : Bool) (off : Nat → Int) : State :=
  let r := s.clk.cur
  let w := fmtWidth et
  let n := if g.kind = 4 ∨ !strideAccepts et g.fmt then 1 else loadBytes et g.fmt
  let q := { reqOf s g 0 with dest := .vector d.toNat et k z, decode := 2 }
  match activeLanes w k with
  | [] => finish (loadVector s { q with decode := 0 } d.toNat et k z) r 12
  | js => loadAccess s 12 { q with elems := js.map fun j => mkElem s r g (off j) { rd := true, size := n, align := n } j 0 0 }

end Sys2Proof.Machine
end

