-- ==== Sys2Proof/Machine/Memory.lean ====
section
/-!
DEFINITION. Loads, stores and translation (R177 to R206): one meaning per instruction; what a walk serves when it ends, and the
steps of a migration.
-/
namespace Sys2Proof.Machine

/-! ### Scalar loads and stores (R198, R199) -/

/-- A scalar load at a type. -/
def scalarLoad (s : State) (len : Nat) (g : Seg) (o : Int) (t : IType) (d : Reg) : State :=
  let n := itypeWidth t / 8
  loadAccess s len { reqOf s g 0 with
    elems := [mkElem s s.clk.cur g o { rd := true, size := n, align := n } 0 0 0], dest := .scalar d.toNat (8 * n) (itypeSigned t) }

/-- A scalar store of `n` bytes. -/
def scalarStore (s : State) (len : Nat) (g : Seg) (o : Int) (n v : Nat) : State :=
  storeAccess s len { reqOf s g 1 with
    elems := [mkElem s s.clk.cur g o { wr := true, size := n, align := n } 0 (v % 2 ^ (8 * n)) 0] } true

/-- LD, short form, through sg1 (R198). -/
def execLd (o : LdS) (s : State) : Out :=
  .next (scalarLoad s 4 (getSeg s s.clk.cur 1) ((src s o.a : Int) + signedOf 12 o.imm.toNat) o.t o.d)
/-- LD, X form (R198). -/
def execLdX (o : LdX) (s : State) : Out := .next (scalarLoad s 12 (memSeg s o.mem) (memOff s o.mem) o.t o.d)
/-- ST, short form, through sg1 (R199). -/
def execSt (o : StS) (s : State) : Out :=
  .next (scalarStore s 4 (getSeg s s.clk.cur 1) ((src s o.a : Int) + signedOf 12 o.off.toNat) (2 ^ o.w.toNat) (src s o.b))
/-- ST, X form (R199). -/
def execStX (o : StX) (s : State) : Out :=
  .next (scalarStore s 12 (memSeg s o.mem) (memOff s o.mem) (2 ^ o.w.toNat) (src s o.b))

/-! ### Vector loads and stores (R200 to R202) -/

/-- VLD (R200). -/
def execVld (o : VLd) (s : State) : Out :=
  let g := memSeg s o.mem
  let b := memOff s o.mem
  let et := o.et.toNat
  .next (if o.dec then decodeLoad s g b o.d et (kmask s o.k) o.z
    else laneLoad s g o.d et (kmask s o.k) o.z (fun (j : Nat) => b + (fmtWidth et / 8 * j : Nat)) true)
/-- VST (R200). -/
def execVst (o : VSt) (s : State) : Out :=
  let w := fmtWidth o.et.toNat
  let b := memOff s o.mem
  .next (laneStore s (memSeg s o.mem) (getV s s.clk.cur o.b.toNat) w (kmask s o.k) (fun (j : Nat) => b + (w / 8 * j : Nat)) true)
/-- VLDS (R201). -/
def execVlds (o : VLds) (s : State) : Out :=
  let g := memSeg s o.mem
  let b := memOff s o.mem
  let st := signedOf 64 (src s o.b)
  let off := fun (j : Nat) => b + j * st
  .next (if o.dec then decodeStride s g o.d o.et.toNat (kmask s o.k) o.z off else laneLoad s g o.d o.et.toNat (kmask s o.k) o.z off false)
/-- VSTS (R201). -/
def execVsts (o : VSts) (s : State) : Out :=
  let b := memOff s o.mem
  let st := signedOf 64 (src s o.b)
  .next (laneStore s (memSeg s o.mem) (getV s s.clk.cur o.c.toNat) (fmtWidth o.et.toNat) (kmask s o.k) (fun (j : Nat) => b + j * st) false)
/-- VGAT (R202). -/
def execVgat (o : VGat) (s : State) : Out :=
  let w := fmtWidth o.et.toNat
  let b := memOff s o.mem
  .next (laneLoad s (memSeg s o.mem) o.d o.et.toNat (kmask s o.k) o.z (fun j =>
    b + signedOf w (vlane s w o.b j) * (2 ^ o.sh.toNat : Nat)) false)
/-- VSCT (R202). -/
def execVsct (o : VSct) (s : State) : Out :=
  let w := fmtWidth o.et.toNat
  let b := memOff s o.mem
  .next (laneStore s (memSeg s o.mem) (getV s s.clk.cur o.c.toNat) w (kmask s o.k) (fun j =>
    b + signedOf w (vlane s w o.b j) * (2 ^ o.sh.toNat : Nat)) false)

/-! ### PREF, FMTQ, TLBINV (R203 to R205) -/

/-- Whether a translation passes the checks of R183 that remain for PREF: OWNER and the partition's (R179, R203). -/
def prefUses (s : State) (p c va : Nat) (e : TlbEntry) : Bool :=
  match entryUse e c 4 va with
  | .hit a _ => (dpaChecks s p false false a).isNone
  | _ => false

/-- PREF (R203): any check that fails makes it do nothing. -/
def execPref (mem : XMem) (s : State) : Out :=
  let r := s.clk.cur
  let g := memSeg s mem
  .next (match segChecks s r g (memOff s mem) { size := 1 } with
    | .error f => if f.cause = cILLOP then faultNow s r f else finish s r 12
    | .ok va =>
      let q := { reqOf s g 4 with elems := [], status := va }
      if g.kind ≠ 4 then finish s r 12
      else match cachedTrans s q.ex q.part q.ctx va 4 with
        | some (_, e, _) => finish (if prefUses s q.part q.ctx va e then fillTlb s q.ex e else s) r 12
        | none =>
          let id := s.clk.ids
          finish (addWalk (putReq (freshId s) id q) q.ex r q.part q.ctx va 4 (.access id)) r 12)

/-- The word FMTQ writes (R204): format, geometry, V, rights, page size, MIG and the address reached. -/
def fmtqWord (fmt geom rights : Nat) (large mig : Bool) (at_ : Option Nat) : Nat :=
  fmt + geom * 2 ^ 5 + flag01 at_.isSome * 2 ^ 7 + rights % 8 * 2 ^ 8 + flag01 large * 2 ^ 11 + flag01 mig * 2 ^ 12
    + bitsAt (at_.getD 0) 12 36 * 2 ^ 16

/-- FMTQ's word for a leaf: V needs the translation, the owner and the partition check. -/
def fmtqLeaf (s : State) (p c va rights : Nat) (seen entry : Option TlbEntry) : Nat :=
  match seen with
  | none => 0
  | some l =>
    let reach := match entry with
      | none => none
      | some e =>
        let a := e.dpa + va % (if e.large then 2 ^ 21 else 2 ^ 16)
        if (e.owner ≠ c ∧ e.shared = false) ∨ !partMayReach s p a then none else some a
    fmtqWord l.fmt l.geom (rights &&& entryRights l) l.large l.mig reach

/-- Rights bits of a segment: R, W, X. -/
def segRights (g : Seg) : Nat := flag01 g.canR + 2 * flag01 g.canW + 4 * flag01 g.canX

/-- FMTQ (R204): long with WHY 1, one cycle beside the translation. -/
def execFmtq (d : Reg) (mem : XMem) (s : State) : Out :=
  let r := s.clk.cur
  let g := memSeg s mem
  let p := partOf s r
  let c := ctxOf s r
  .next (match segChecks s r g (memOff s mem) { size := 1 } with
    | .error f => faultNow s r f
    | .ok va =>
      let done := fun (s : State) (t v : Nat) => goLong s r 1 12 t ⟨[⟨d.toNat, BitVec.ofNat 64 v⟩], 0, none⟩
      if g.kind ≠ 4 then
        done s 1 (fmtqWord g.fmt 0 (segRights g) false false (if partMayReach s p va then some va else none))
      else match cachedTrans s (exOf r) p c va 4 with
        | some (x, e, _) => done (fillTlb s (exOf r) e) (1 + x) (fmtqLeaf s p c va (segRights g) (some e) (some e))
        | none => addWalk (beginLong s r 1 12) (exOf r) r p c va 4 (.query r d.toNat (segRights g) va))

/-- A query's walk has ended (R204): the word follows, or the faults SEG and ILLOP. -/
def serveQuery (s : State) (w : Walk) (r d rights va : Nat) : State :=
  if codeOf s r ≠ 4 then s
  else if w.bad = 2 ∧ w.entry.isNone ∧ w.b1 = cILLOP then faultLong s r (instrFault s r cILLOP 0)
  else if w.bad = 2 ∧ w.entry.isNone ∧ w.b1 = cSEG then faultLong s r ⟨cSEG, w.b2, va, 4⟩
  else
    let v := fmtqLeaf s w.part w.ctx va rights w.seen w.entry
    postIn { s with rows := { s.rows with longs := tabSet s.rows.longs r ⟨[⟨d, BitVec.ofNat 64 v⟩], 0, none⟩ } } 1 {}
      (.longInstructionComplete r)

/-- Whether TLBINV drops an entry (R205). -/
def tlbHit (op p a b : Nat) (e : TlbEntry) : Bool :=
  e.part == p &&
  match op with
  | 0 => e.ctx == b % 8 && e.vpage == bitsAt a 0 48 / (if e.large then 2 ^ 21 else 2 ^ 16)
  | 1 => e.ctx == b % 8
  | 2 => true
  | _ => e.frame == a % 2 ^ 22

/-- Drop cached translations in every cache of the module; what the partition's running walks bring is dropped when they end
(R205). -/
def dropTlb (s : State) (op p a b : Nat) : State :=
  let keep := fun (l : List TlbEntry) => l.filter fun e => !tlbHit op p a b e
  { s with ms := { s.ms with
      tlb := s.ms.tlb.map fun e => (e.1, keep e.2)
      tlb2 := s.ms.tlb2.map fun e => (e.1, keep e.2)
      s2c := match op with
        | 2 => s.ms.s2c.map fun e => (e.1, e.2.filter fun x => x.1 / 2 ^ 22 != p)
        | 3 => s.ms.s2c.map fun e => (e.1, e.2.filter fun x => x.1 != p * 2 ^ 22 + a % 2 ^ 22)
        | _ => s.ms.s2c
      walks := s.ms.walks.map fun w => if w.part == p && w.started then { w with stale := true } else w } }

/-- TLBINV, privileged (R205): done when the walks that began before it have ended, at most 512 cycles after issue when none is
outstanding; sooner is open. -/
def execTlbinv (a b : Reg) (sub : BitVec 3) (s : State) : Out :=
  let r := s.clk.cur
  .next (if !isPriv s r then faultInstr s r cPRIV 0
    else
      let s := dropTlb s sub.toNat (partOf s r) (src s a) (src s b)
      let d := 1 + Config.extraDelay s.clk.draws % 512
      let s := beginLong { s with clk := { s.clk with draws := s.clk.draws + 1 } } r 2 12
      let w : Wait := { why := 2, bounded := true, cond := .walks s.clk.now (s.clk.now + d), since := enabledCycles s (exOf r) }
      { s with rows := { s.rows with waits := tabSet s.rows.waits r w } })

/-! ### Migration (R196, R197, R206) -/

/-- A long instruction that answers after a message's time. -/
def goLongMsg (s : State) (r why len d : Nat) (c : Completion) : State :=
  let s := beginLong s r why len
  sendIn { s with rows := { s.rows with longs := tabSet s.rows.longs r c } } d {} (.longInstructionComplete r)

/-- MIGRATE, sub 0 (R206): the page is walked first. It waits with WHY 2 as its entry says; R186 says WHY 1 (DEDUCED, log 67). -/
def execMigrate (d b : Reg) (mem : XMem) (s : State) : Out :=
  let r := s.clk.cur
  let g := memSeg s mem
  .next (match segChecks s r g (memOff s mem) { kinds := 0x10, wr := true, size := 1 } with
    | .error f => faultNow s r f
    | .ok va => addWalk (beginLong s r 2 12) (exOf r) r (partOf s r) (ctxOf s r) va 4 (.migrate r d.toNat (src s b) va))

/-- Complete a waiting row's instruction with one result after `d` cycles. -/
def answerIn (s : State) (r d v t : Nat) : State :=
  sendIn { s with rows := { s.rows with longs := tabSet s.rows.longs r ⟨[⟨d, BitVec.ofNat 64 v⟩], 0, none⟩ } } t {}
    (.longInstructionComplete r)

/-- Write a leaf as a direct write at its home, wherever its page has migrated to (R197). -/
def writeLeaf (s : State) (p c leaf v : Nat) : State :=
  let a := movedTo s leaf
  writeHome (touch s a).1 a (bytesOf 8 v) false p c

/-- The studio whose forwarding records serve a frame (R197): that of its home. A frame of the second tier has none; its records count at
studio 0 (DESIGN CHOICE, log 76). -/
def forwardStudio (a : Nat) : Nat := studioOf (addrHome a)

/-- MIGRATE's walk has ended (R206, steps 1 to 5): statuses 3 NOTMAPPED, 2 BUSY, 4 BADFRAME, 1 FULL, or the copy begins. -/
def serveMigrate (s : State) (w : Walk) (r d gpa va : Nat) : State :=
  if codeOf s r ≠ 4 then s
  else
    let now := walkNow s w.studio w.part w.ctx va 4
    match now.seen, now.entry with
    | none, _ =>
      (match now.ans with
       | .fault c x => faultLong s r (if c = cILLOP then instrFault s r cILLOP 0 else ⟨c, x, va, 4⟩)
       | _ => answerIn s r d 3 1)
    | some l, e =>
      let size := if l.large then 2 ^ 21 else 2 ^ 16
      if l.owner ≠ w.ctx ∧ l.shared = false then faultLong s r ⟨cRIGHTS, 0x13, va, 4⟩
      else if gpa % size ≠ 0 then faultLong s r ⟨cALIGN, 0, va, 4⟩
      else if l.mig then answerIn s r d 2 1
      else match (s2Look s w.studio w.part w.ctx gpa { cost := 0, fills := [] }).2, e with
        | .error _, _ => answerIn s r d 4 1
        | .ok _, none => faultLong s r ⟨cRIGHTS, 0x12, va, 4⟩
        | .ok (nb, _), some e =>
          let st := forwardStudio e.dpa
          if 2 ^ 43 ≤ gpa ∨ !partMayReach s w.part nb ∨ !partMayReach s w.part (nb + size - 1) then answerIn s r d 4 1
          else if 64 ≤ (s.ms.forwards.filter fun f => f.studio == st).length then answerIn s r d 1 1
          else
            let word := memNat s.mem (movedTo s now.leaf) 8
            let s := dropTlb (writeLeaf s w.part w.ctx now.leaf (setBits word 15 1 1)) 0 w.part va w.ctx
            let f : Forward := { studio := st, oldGpa := leafGpa word l.large, oldBase := e.dpa, newBase := nb, size := size,
                                 copied := 0, busy := true, part := w.part }
            let id := s.clk.ids
            let m : Migration := { id := id, row := r, d := d, part := w.part, ctx := w.ctx, va := va, leaf := now.leaf,
                                   oldBase := e.dpa, newBase := nb, newGpa := gpa, size := size, line := 0, reading := none }
            let s := freshId { s with ms := { s.ms with forwards := s.ms.forwards ++ [f], migrations := s.ms.migrations ++ [m] } }
            sendIn s (oneWay (exOf r) e.dpa) { row := r, part := w.part, ctx := w.ctx } (.migrationLineCopy id)

/-- Change the forwarding record of an old frame. -/
def updForward (s : State) (base : Nat) (f : Forward → Forward) : State :=
  { s with ms := { s.ms with forwards := s.ms.forwards.map fun x => if x.oldBase = base then f x else x } }

/-- Copy one line with its poison (R196). -/
def copyLine (s : State) (p c a b : Nat) : State :=
  let bad := s.lines.poison.contains (strip a / 64)
  carryPoison (writeHome (touch (touch s a).1 b).1 b (memRead s.mem (strip a) 64) false p c) (strip b) 64 bad

/-- One line of a migration is copied (R196, R206), held while a stack's sequencer is under reset (R393): 4 cycles a line; after the last the leaf moves and MIGRATE is done. -/
def migrateLine (s : State) (id : Nat) : State :=
  match s.ms.migrations.find? fun m => m.id == id with
  | none => s
  | some m =>
    let a := m.oldBase + 64 * m.line
    let b := m.newBase + 64 * m.line
    if (stackHeld s a).isSome || (stackHeld s b).isSome then
      postIn s 1 { row := m.row, part := m.part, ctx := m.ctx } (.migrationLineCopy id)
    else
    let s := copyLine s m.part m.ctx a b
    let s := updForward s m.oldBase fun f => { f with copied := m.line + 1, busy := 64 * (m.line + 1) < m.size }
    let others := s.ms.migrations.filter fun x => x.id != id
    if 64 * (m.line + 1) < m.size then
      postIn { s with ms := { s.ms with migrations := { m with line := m.line + 1 } :: others } } 4
        { row := m.row, part := m.part, ctx := m.ctx } (.migrationLineCopy id)
    else
      let word := setBits (memNat s.mem (movedTo s m.leaf) 8) 15 1 0
      let word := if m.size = 2 ^ 21 then setBits word 42 22 (m.newGpa / 2 ^ 21) else setBits word 37 27 (m.newGpa / 2 ^ 16)
      let s := writeLeaf { s with ms := { s.ms with migrations := others } } m.part m.ctx m.leaf word
      let s := dropTlb s 0 m.part m.va m.ctx
      if codeOf s m.row = 4 then answerIn s m.row m.d 0 (oneWay (exOf m.row) m.oldBase) else s

/-- MIGRATE with release, sub 1 (R206): 0, or 5 NOFWD. -/
def execMigrateRelease (d b : Reg) (s : State) : Out :=
  let r := s.clk.cur
  let gpa := src s b
  .next (match s.ms.forwards.find? fun f => f.part == partOf s r && f.oldGpa ≤ gpa && gpa < f.oldGpa + f.size with
    | none => goLongMsg s r 2 12 200 ⟨[⟨d.toNat, 5⟩], 0, none⟩
    | some f =>
      let s' := { s with ms := { s.ms with forwards := s.ms.forwards.filter fun x => x.oldBase != f.oldBase } }
      goLongMsg s' r 2 12 (2 * oneWay (exOf r) f.oldBase) ⟨[⟨d.toNat, 0⟩], 0, none⟩)

/-! ### Walks end (R190, R191) -/

/-- A fetch whose walk has ended issues again, or takes what the walk found (R50, R192). -/
def serveFetch (s : State) (w : Walk) (r va : Nat) : State :=
  if codeOf s r ≠ 4 then s
  else if w.entry.isSome then resumeRow (match w.entry with
    | some e => fillTlb s (exOf r) e
    | none => s) r
  else
    let x := w.finds 2
    if x.1 = 1 then pageFault s r va x.2.1 2 0
    else takeFault s r (if w.b1 = cILLOP then instrFault s r cILLOP 0 else instrFault s r w.b1 w.b2) 0

end Sys2Proof.Machine
end

