-- ==== Sys2Proof/Machine/Ordering.lean ====
section
/-!
DEFINITION. Phases, fences, watches and atomics (R207 to R233): one meaning per instruction, and the events of the wet buffer and
of the lower-bound network.
-/
namespace Sys2Proof.Machine

/-! ### Phases (R224 to R226) -/

/-- An instruction that may end in place later keeps its channel pop for then (R121). -/
def waitInPlace (s : State) (r why len : Nat) (c : Cond) : State :=
  let s := { s with rows := { s.rows with
    lens := tabSet s.rows.lens r len
    popDue := if s.clk.popped.isSome then setAdd s.rows.popDue r else s.rows.popDue } }
  waitOn s r why false c

/-- PHASE's wait from phase `p` (R224). -/
def phaseWait (s : State) (r d σ p : Nat) : State :=
  if condTrue s r (.phase d σ p) then phaseEnd s r d else waitInPlace s r 4 4 (.phase d σ p)

/-- PHASE (R224). -/
def execPhase (d a : Reg) (s : State) : Out :=
  let r := s.clk.cur
  .next (match scopeOperand s r (getS s r a.toNat) with
    | .error f => faultNow s r f
    | .ok σ =>
      if getF s r fValid = 1 ∧ getF s r fMajor = 0xA0 then phaseWait s r d.toNat σ ((getF s r fStep + 2 ^ 32 - 1) % 2 ^ 32)
      else
        let p := getF s r fPhase
        if !mayRaise s r p then waitOn s r 4 false .phaseRoom
        else
          let n := (p + 1) % 2 ^ 32
          phaseWait (setF (setF s r fPhase n) r fProgress (n + 0xA0 * 2 ^ 32 + 2 ^ 40)) r d.toNat σ p)

/-- How far TICK may go under R214; none when every view is none. -/
def tickBound (s : State) (r : Nat) : Option Nat :=
  let l := (countedScopes s r).filterMap fun σ =>
    (rowView s r σ).lb.map fun lb => (lb + 2 ^ 30 - 1 + 2 ^ 32 - getF s r fPhase) % 2 ^ 32
  match l with
  | [] => none
  | x :: rest => some (rest.foldl min x)

/-- The fault of an instruction that uses an own scope that does not hold (R211). -/
def ownScopeFault (s : State) (r : Nat) : FaultRec := ⟨cSCOPE, 3, getF s r fVt % 2 ^ 48, 0⟩

/-- TICK (R225). -/
def execTick (d a : Reg) (s : State) : Out :=
  let r := s.clk.cur
  let o := ownScope s r
  .next (if !o.2 then faultNow s r (ownScopeFault s r)
    else
      let old := getF s r fPhase
      let lead := if getF s r fLead = 0 then 15 else getF s r fLead
      let lb := (rowView s r o.1).lb.getD old
      let n := min (src s a) ((lb + lead + 2 ^ 32 - old) % 2 ^ 32)
      let n := match tickBound s r with
        | some m => min n m
        | none => n
      finish (setS (setF s r fPhase ((old + n) % 2 ^ 32)) r d.toNat (BitVec.ofNat 64 n)) r 4)

/-- WAITLB (R226). -/
def execWaitlb (d a b : Reg) (s : State) : Out :=
  let r := s.clk.cur
  .next (match scopeOperand s r (getS s r a.toNat) with
    | .error f => faultNow s r f
    | .ok σ =>
      let v := src s b % 2 ^ 32
      if condTrue s r (.lower d.toNat σ v) then waitlbEnd s r d.toNat σ
      else waitInPlace s r 4 4 (.lower d.toNat σ v))

/-! ### Fences (R227 to R229) -/

/-- FENCE (R227). -/
def execFence (a : Reg) (s : State) : Out :=
  let r := s.clk.cur
  .next (match scopeOperand s r (getS s r a.toNat) with
    | .error f => faultNow s r f
    | .ok σ => startFence s r 4 σ false .finish fun s => finish s r 4)

/-- FENCEX (R228): a ninth waits until one is resolved. -/
def execFencex (a : Reg) (sets : BitVec 32) (s : State) : Out :=
  let r := s.clk.cur
  .next (match scopeOperand s r (getS s r a.toNat) with
    | .error f => faultNow s r f
    | .ok σ =>
      if 8 ≤ (fencexOpen s r).length then waitOn s r 1 true .fencexRoom
      else
        let before := sets.toNat % 128
        let s := if bitAt before 0 then dryEarly s r ((scopeRect s (partOf s r) σ).getD wholeRect) else s
        let words := ((s.msg.ends.find? fun e => e.row == r).map fun e => e.out.length + e.moving.length).getD 0
        let f : FenceX :=
          { n := s.clk.ids, row := r, before := before, after := bitsAt sets.toNat 8 7, scope := σ, upto := s.clk.ids, words := words }
        let keep := s.ms.fencex.filter fun x => !fencexDone s x
        finish (freshId { s with ms := { s.ms with fencex := keep ++ [f] } }) r 12)

/-- ST.DRY (R229): the scope, then the address; then a FENCE and a direct store. -/
def execStDry (o : StDry) (s : State) : Out :=
  let r := s.clk.cur
  .next (match scopeOperand s r (getS s r o.c.toNat) with
    | .error f => faultNow s r f
    | .ok σ =>
      let g := memSeg s o.mem
      let n := 2 ^ o.w.toNat
      let e := mkElem s r g (memOff s o.mem) { wr := true, size := n, align := n } 0 (src s o.b % 2 ^ (8 * n)) 0
      let q := { reqOf s g 1 with op := .write true, elems := [e], decode := 3, fl := σ, status := 1 }
      if g.kind ≠ 0 then issueAccess s 12 q
      else
        let id := s.clk.ids
        ownAccess s q fun _ =>
          startFence (putReq (freshId s) id { q with decode := 0 }) r 12 σ false (.access id) fun s =>
            let s := dropReq s id
            if n = 8 ∧ e.addr % 4096 = 0 then giveCommand (finish s r 12) r r q.priv (BitVec.ofNat 64 e.data)
            else finish (ownWrite s r (e.addr % 4096) (bytesOf n e.data) q.priv) r 12)

/-! ### WATCH and atomics (R230 to R232) -/

/-- WATCH (R230). -/
def execWatch (o : WatchX) (s : State) : Out :=
  let r := s.clk.cur
  let g := memSeg s o.mem
  let et := o.et.toNat
  let n := fmtWidth et / 8
  let old := src s o.b % 2 ^ (8 * n)
  let e := mkElem s r g (memOff s o.mem) { rd := true, size := n, align := n } 0 0 0
  let q := { reqOf s g 0 with op := .watch et old, elems := [e], dest := .scalar o.d.toNat (8 * n) (fmtIsSigned et), wait := true }
  .next (if g.kind ≠ 0 then issueAccess s 12 q
    else ownAccess s q fun es =>
      let x := ownReads s q es
      match x.2.2 with
      | some f => faultNow x.1 r f
      | none =>
        if (x.2.1.headD {}).value ≠ old then finish (writeDest x.1 { q with elems := x.2.1 }) r 12
        else
          let id := x.1.clk.ids
          let s := watchWaits (freshId x.1) r 12 false
          if codeOf s r = 4 ∨ codeOf s r = 5 then addWatch (putReq s id { q with elems := es, left := 1 }) id q (es.headD {}).addr n old
          else s)

/-- An atomic access of any shape: within the instruction on the own row, else direct; with d = s0 the row does not wait (R231). -/
def atomAccess (s : State) (len : Nat) (d : Reg) (et : Nat) (q : Req) : State :=
  let r := s.clk.cur
  let n := fmtWidth et / 8
  let q := { q with dest := .scalar d.toNat (8 * n) (fmtIsSigned et), wait := d != 0 }
  if q.seg.kind ≠ 0 then issueAccess s len q
  else ownAccess s q fun es =>
    let e := es.headD {}
    let p := consumePoison s q.part q.ctx e.addr e.size
    match p.2 with
    | some (c, x) => faultNow p.1 r ⟨c, x, e.va, q.seg.kind⟩
    | none =>
      if touchesCmd s e.addr e.size then faultNow p.1 r ⟨cSEG, 0x03, e.va, q.seg.kind⟩
      else
      let x := actAt p.1 0 q e e.addr
      if isOpen x.1 r then
        let s := if d = 0 then x.1 else orFlags x.1 r x.2.2.1
        finish (setS s r d.toNat (extendTo (8 * n) (fmtIsSigned et) (x.2.1.getD 0))) r len
      else x.1

/-- The element of an atomic. -/
def atomElem (s : State) (g : Seg) (off : Int) (et b cmp : Nat) : Elem :=
  let n := fmtWidth et / 8
  mkElem s s.clk.cur g off { rd := true, wr := true, size := n, align := n } 0 (b % 2 ^ (8 * n)) (cmp % 2 ^ (8 * n))

/-- Atomic operation `op`, X form (R231). -/
def atomX (op : Nat) (o : AtomX) (s : State) : Out :=
  let g := memSeg s o.mem
  let et := o.et.toNat
  .next (atomAccess s 12 o.d et { reqOf s g 3 with op := .atom op et o.rm.toNat, elems := [atomElem s g (memOff s o.mem) et (src s o.b) 0] })

/-- Atomic operation `op`, literal form (R57, R231). -/
def atomL (op : Nat) (o : AtomL) (s : State) : Out :=
  let g := lmemSeg s o.mem
  let et := o.et.toNat
  .next (atomAccess s 20 o.d et { reqOf s g 3 with op := .atom op et o.rm.toNat, elems := [atomElem s g (lmemOff s o.mem) et (src s o.b) 0] })

/-- AADD, X form (R231). -/
def execAadd (o : AtomX) (s : State) : Out := atomX 0 o s
/-- AADD, literal form. -/
def execAaddXl (o : AtomL) (s : State) : Out := atomL 0 o s
/-- AMIN, X form. -/
def execAmin (o : AtomX) (s : State) : Out := atomX 1 o s
/-- AMIN, literal form. -/
def execAminXl (o : AtomL) (s : State) : Out := atomL 1 o s
/-- AMAX, X form. -/
def execAmax (o : AtomX) (s : State) : Out := atomX 2 o s
/-- AMAX, literal form. -/
def execAmaxXl (o : AtomL) (s : State) : Out := atomL 2 o s
/-- AAND, X form. -/
def execAand (o : AtomX) (s : State) : Out := atomX 3 o s
/-- AAND, literal form. -/
def execAandXl (o : AtomL) (s : State) : Out := atomL 3 o s
/-- AOR, X form. -/
def execAor (o : AtomX) (s : State) : Out := atomX 4 o s
/-- AOR, literal form. -/
def execAorXl (o : AtomL) (s : State) : Out := atomL 4 o s
/-- AXOR, X form. -/
def execAxor (o : AtomX) (s : State) : Out := atomX 5 o s
/-- AXOR, literal form. -/
def execAxorXl (o : AtomL) (s : State) : Out := atomL 5 o s
/-- AXCHG, X form. -/
def execAxchg (o : AtomX) (s : State) : Out := atomX 6 o s
/-- AXCHG, literal form. -/
def execAxchgXl (o : AtomL) (s : State) : Out := atomL 6 o s
/-- ACAS, X form (R232). -/
def execAcas (o : CasX) (s : State) : Out :=
  let g := memSeg s o.mem
  let et := o.et.toNat
  .next (atomAccess s 12 o.d et { reqOf s g 3 with op := .cas, elems := [atomElem s g (memOff s o.mem) et (src s o.b) (src s o.c)] })
/-- ACAS, literal form (R232). -/
def execAcasXl (o : CasL) (s : State) : Out :=
  let g := lmemSeg s o.mem
  let et := o.et.toNat
  .next (atomAccess s 20 o.d et { reqOf s g 3 with op := .cas, elems := [atomElem s g (lmemOff s o.mem) et (src s o.b) (src s o.c)] })

/-! ### Events: accesses and wet stores (R89, R207, R216, R219, R230) -/

/-- An element of an access reaches its home (R89). -/
def execDirectAccess (id elem : Nat) (s : State) : Out := .next (arrive s id elem (.directAccess id elem))
/-- A wet store reaches its home (R207). -/
def execWetStoreFirstTrip (id : Nat) (s : State) : Out := .next (firstTrip s id (.wetStoreFirstTrip id))
/-- The home's answer to a first trip (R207): `freed` tells that a thread row took the store; the entry's bytes were given up there. -/
def execWetTripReply (id : Nat) (_freed : Bool) (s : State) : Out := .next (tripReply s id)
/-- An entry dries (R216). -/
def execEntryDries (id : Nat) (s : State) : Out :=
  .next (match wetOf s id with
    | some w => if w.stage < 2 then sendDry s w false else s
    | none => s)
/-- A dried store is applied (R219). -/
def execDriedStoreApply (id : Nat) (s : State) : Out := .next (applyDry s id (.driedStoreApply id))
/-- The home has acknowledged a dried store (R209, R216). -/
def execDryAcknowledgement (id : Nat) (s : State) : Out := .next (dryAcked s id)
/-- A watched word has changed (R230). -/
def execWatchAnswer (id : Nat) (s : State) : Out :=
  .next (match tabGet s.ms.reqs id with
    | some q => finishReq s id q
    | none => s)
/-- A polled watch looks (R230). -/
def execWatchPoll (id : Nat) (s : State) : Out := .next (pollWatch s id)

/-! ### Events: the lower-bound network (R210, R213, R215) -/

/-- The contexts whose scopes the network samples (R215): those of the bound partitions, and whichever else has thread rows, wet entries,
notes in flight or figures that were delivered: (partition, context). -/
def networkContexts (s : State) : List (Nat × Nat) :=
  ((((List.range 32).filter fun p => slotSet s p != 0).flatMap fun p => (List.range 8).map fun c => (p, c)) ++
    s.rows.kinds.map (fun r => (partOf s r, ctxOf s r)) ++ s.ms.wet.map (fun (w : Wet) => (w.part, w.ctx)) ++
    s.msg.fly.map (fun (f : FlyNote) => (partOf s f.row, ctxOf s f.row)) ++
    s.ms.views.map fun (e : Nat × View) => (e.1 / 17 / 8, e.1 / 17 % 8)).eraseDups.filter fun x => x.1 < 32

/-- Sample one scope: the floor rises, the figures leave for the executors (R213, R215). -/
def sampleScope (s : State) (p c σ : Nat) : State :=
  match scopeRect s p σ with
  | none => s
  | some q =>
    let k := scopeKey p c σ
    let lb := lbNow s p c σ
    let s := match lb with
      | none => s
      | some v => { s with ms := { s.ms with floors := tabSet s.ms.floors k (phMax (floorOf s p c σ) v) } }
    postIn s (2 * (q.x1 - q.x0 + (q.y1 - q.y0))) { part := p, ctx := c } (.lbDelivery k lb (dbNow s p c σ) (nbNow s p c σ))

/-- Whether no dried store of lower precedence can reach a byte any more (R219): no entry for its line stands, and the floor of the whole
partition has passed the tag in every context that has rows there, or in the writer's own by so much that no tag below it is still
lower (R214). -/
def precSpent (s : State) (e : Nat × Prec) : Bool :=
  let p := partOf s e.2.row
  let f := floorOf s p (ctxOf s e.2.row) 0
  !(s.ms.wet.any fun w => movedTo s (64 * w.line) / 64 == e.1 / 64) && phGt f e.2.tag &&
  ((s.rows.kinds.all fun r => partOf s r != p || phGt (floorOf s p (ctxOf s r) 0) e.2.tag) ||
    decide (2 ^ 30 ≤ (f + 2 ^ 32 - e.2.tag) % 2 ^ 32))

/-- Bytes give up a precedence that nothing can undercut any more (R219). -/
def dropPrec (s : State) : State :=
  if s.ms.prec.isEmpty then s else { s with ms := { s.ms with prec := s.ms.prec.filter fun e => !precSpent s e } }

/-- LB, DB and NB of every scope are sampled (R215). -/
def execLbSample (s : State) : Out :=
  .next (dropPrec ((networkContexts s).foldl (fun s x => (List.range 17).foldl (fun s σ => sampleScope s x.1 x.2 σ) s) s))

/-- Entries in drying order: increasing tag, then program order (R216). -/
def wetIns (l : List Wet) (w : Wet) : List Wet :=
  let before := fun (x : Wet) => phGt w.tag x.tag || (x.tag == w.tag && x.pos < w.pos)
  l.takeWhile before ++ w :: l.dropWhile before

/-- Entries whose executor's view of their row's own scope stands above their tag are sent to dry: those of a delivery, and those that are
made, or whose row changes its scope, under such a view (R216). -/
def dryDue (s : State) : State :=
  let due := s.ms.wet.filter fun w => w.stage < 2 && figGt (rowView s w.row (ownScope s w.row).1).lb w.tag
  (due.foldl wetIns []).foldl (fun s w => sendDry s w false) s

/-- Sampled figures arrive (R215): the view changes, and entries of lower tags dry (R216). -/
def execLbDelivery (key : Nat) (lb db nb : Option Nat) (s : State) : Out :=
  let σ := key % 17
  let c := key / 17 % 8
  let p := key / 17 / 8
  let s := { s with ms := { s.ms with views := tabSet s.ms.views key ⟨lb, db, nb⟩ } }
  let due := s.ms.wet.filter fun w => w.part == p && w.ctx == c && w.stage < 2 && (ownScope s w.row).1 == σ && figGt lb w.tag
  .next ((due.foldl wetIns []).foldl (fun s w => postIn s 0 { row := w.row, part := p, ctx := c } (.entryDries w.id)) s)

/-- A row joins at the root (R213): VT rises to the floors and is clamped under R214. -/
def execRowJoin (row : Nat) (s : State) : Out :=
  .next (if !joinUnderWay s row then s
    else
      let p := partOf s row
      let c := ctxOf s row
      let σs := countedScopes s row
      let vt := σs.foldl (fun v σ => phMax v (floorOf s p c σ)) (getF s row fPhase)
      let vt := match phLeast (σs.filterMap fun σ => lbNow s p c σ) with
        | none => vt
        | some lb => if phGt vt ((lb + 2 ^ 30 - 1) % 2 ^ 32) then (lb + 2 ^ 30 - 1) % 2 ^ 32 else vt
      let s := setF s row fPhase vt
      let s := { s with rows := { s.rows with joining := setAdd (setDel s.rows.joining row) (row + 2 ^ 28) } }
      postIn s (4 + hubWay (exOf row) true) { row := row, part := p, ctx := c } (.joinAnswer row vt))

/-- The root's answer reaches the row (R213). -/
def execJoinAnswer (row phase : Nat) (s : State) : Out :=
  .next (if !s.rows.joining.contains (row + 2 ^ 28) then s
    else setF { s with rows := { s.rows with joining := setDel s.rows.joining (row + 2 ^ 28) } } row fPhase phase)

/-- A write to a rectangle word (R210). -/
def execRectangleWrite (p i : Nat) (value : Word) (s : State) : Out := .next (writeRect s p i value.toNat)

end Sys2Proof.Machine
end

