-- ==== Sys2Proof/Machine/Sweep.lean ====
section
/-!
DEFINITION. SWEEP (SWEEP entry, R401): the sweep latch of an executor, one step at a time, one line a cycle.
-/
namespace Sys2Proof.Machine

/-- Weight of a line of a SWEEP step (R113). -/
def sweepWeight (o : SweepX) : Nat :=
  match o.sub.toNat with
  | 4 => 3
  | 5 => 1
  | 0 => 1
  | _ => if fmtIsLaneFp o.et.toNat then 2 else 1

/-- Offset of the row of a step. -/
def sweepOff (s : State) (r : Nat) (o : SweepX) (step : Nat) : Int :=
  ((getS s r o.a.toNat).toNat : Int) + signedOf 32 o.disp.toNat + (4096 * step : Nat)

/-- The checks of a step for its row (SWEEP faults): the address of the row, or the fault. -/
def sweepCheck (s : State) (r : Nat) (o : SweepX) (step : Nat) : Except FaultRec Nat :=
  let g := getSeg s r o.sg.toNat
  let off := sweepOff s r o step
  let fill := o.sub = 5
  let bad := fun c d => FaultRec.mk c d (segAddr r g off 4096) g.kind
  match segChecks s r g off { kinds := 0x0E, size := 4096, align := 4096 } with
  | .error f => .error f
  | .ok a =>
    if placeOf a ≠ .hbm ∨ homeOf (a / 4096) ≠ homeOf r then .error (bad cSEG 0x03)
    else if (fill ∧ !g.canW) ∨ (!fill ∧ !g.canR) ∨ isThread s (a / 4096) then .error (bad cRIGHTS 0x10)
    else match dpaChecks s (partOf s r) (isPriv s r) fill a with
      | some (c, d) => .error (bad c d)
      | none => .ok a

/-- Change a row's step record. -/
def updSweep (s : State) (r : Nat) (f : StepRun → StepRun) : State :=
  match tabGet s.eng.sweep r with
  | none => s
  | some x => { s with eng := { s.eng with sweep := tabSet s.eng.sweep r (f x) } }

/-- Whether the latch of an executor is taken by a step. -/
def latchTaken (s : State) (ex : Nat) : Bool := s.eng.sweep.any fun e => homeOf e.1 == ex && e.2.begun

/-- Give the free latch to the first row that waits for it (R401): its step's checks are made, and a step that fails them ends
the instruction and leaves the latch to the next. A step takes 48 cycles before its lines unless it directly follows a step of the
same SWEEP (`direct`). A row whose context stops is passed over (R347). -/
def grantLatch (s : State) (ex direct : Nat) : Nat → State
  | 0 => s
  | fuel + 1 =>
    if latchTaken s ex then s
    else match takeFirst (fun r => !stepStops s r) (tabGetD s.eng.sweepQ ex []) with
      | none => s
      | some (r, rest) =>
        let s := { s with eng := { s.eng with sweepQ := tabSet s.eng.sweepQ ex rest } }
        match tabGet s.eng.sweep r with
        | none => grantLatch s ex direct fuel
        | some run =>
          match run.instr with
          | .sweep o =>
            (match sweepCheck s r o run.step with
             | .error f => grantLatch (faultLong s r f) ex direct fuel
             | .ok a =>
               let s := (touch s a).1
               updSweep s r fun x => { x with begun := true, ended := false, left := 64, fl := 0, tmp := getV s r o.d.toNat, at_ := a,
                                              startAt := enabledCycles s ex + (if direct = r then 0 else 48) })
          | _ => grantLatch s ex direct fuel

/-- A row asks for the latch for step `k`; `direct` is the row whose step has just ended, 2^28 for none. -/
def askLatch (s : State) (r : Nat) (i : Stepped) (k direct : Nat) : State :=
  let ex := homeOf r
  let run : StepRun := { row := r, instr := i, step := k, left := 64, startAt := 0, begun := false, ended := false, tmp := 0, fl := 0 }
  let s := { s with eng := { s.eng with
    sweep := tabSet s.eng.sweep r run, sweepQ := tabUpd s.eng.sweepQ ex [] fun l => l ++ [r] } }
  grantLatch s ex direct 64

/-- The first step a stepped instruction of this major makes (R82). -/
def firstStep (s : State) (r major : Nat) : Nat :=
  if getF s r fValid = 1 ∧ getF s r fMajor = major then getF s r fStep else 0

/-- SWEEP (SWEEP entry). -/
def execSweep (o : SweepX) (s : State) : Out :=
  let r := s.clk.cur
  let k := firstStep s r 0xBA
  .next (if src s o.b ≤ k then finish (setF s r fValid 0) r 12
    else askLatch (beginLong s r 2 12) r (.sweep o) k (2 ^ 28))

/-- One line `l` of a step gathered into the latch's copy of V[d] (SWEEP entry). -/
def sweepGather (s : State) (r : Nat) (o : SweepX) (run : StepRun) (line : Nat) : StepRun :=
  if o.sub = 5 then run
  else
    let w := fmtWidth o.et.toNat
    let c := getV s r o.c.toNat
    let x := mapLanes w (getK s r o.k.toNat) false run.tmp fun j =>
      sweepLane o.sub.toNat o.et.toNat o.rm.toNat (elemAt w run.tmp j) (elemAt w line j) (elemAt w c j)
    { run with tmp := x.1, fl := run.fl ||| flagsToNat x.2 }

/-- One engine cycle of the row that holds the latch: a line is charged and taken, or it stalls (R114). The step's address and checks
were settled when it began. -/
def sweepCycle (s : State) (r : Nat) : State :=
  match tabGet s.eng.sweep r with
  | none => s
  | some run =>
    match run.instr with
    | .sweep o =>
      let at_ := movedTo s (run.at_ + 64 * (64 - run.left))
      if !run.begun ∨ run.ended ∨ enabledCycles s (homeOf r) < run.startAt ∨ run.left = 0 ∨ (stackHeld s at_).isSome then s
      else
        let x := engineCharge s (homeOf r) r (sweepWeight o)
        if !x.2 then x.1
        else
          let y := if o.sub = 5 then (x.1, none) else consumePoison (meetLines x.1 at_ 64) (partOf s r) (ctxOf s r) at_ 64
          match y.2 with
          | some (c, d) =>
            let g := getSeg s r o.sg.toNat
            let off := sweepOff s r o run.step + (64 * (64 - run.left) : Nat)
            grantLatch (faultLong y.1 r ⟨c, d, segAddr r g off 64, g.kind⟩) (homeOf r) (2 ^ 28) 64
          | none =>
            let s := y.1
            let run := sweepGather s r o run (mergeOwn s r at_ 64 (memNat s.mem at_ 64))
            let s := updSweep s r fun _ => { run with left := run.left - 1 }
            if run.left = 1 then postIn s 1 { row := r, path := .S, flow := 2 ^ 61 + r, request := true } (.sweepStep r) else s
    | _ => s

/-- The bytes that fill writes of every line: V[c] in the active lanes, nothing in the others (SWEEP entry). -/
def fillBytes (s : State) (r : Nat) (o : SweepX) : Tab Byte :=
  let w := fmtWidth o.et.toNat
  let v := bytesOf 64 (getV s r o.c.toNat)
  (v.zipIdx.filter fun b => bitAt (getK s r o.k.toNat) (b.2 / (w / 8))).map fun b => (b.2, b.1)

/-- What a step leaves when its last line is taken: V[d] with its masked-off lanes, flags, the filled row, PROGRESS. The sentence on
z = 1 names every op, so fill zeroes masked-off lanes of V[d] too, though its line of the op table leaves V[d] unchanged: the sentence
is taken for the masked-off lanes, the table for the active ones (DEDUCED, log 48). -/
def sweepApply (s : State) (r : Nat) (o : SweepX) (run : StepRun) : State :=
  let w := fmtWidth o.et.toNat
  let v := (mapLanes w (getK s r o.k.toNat) o.z run.tmp fun j => plainLane (elemAt w run.tmp j)).1
  let s := orFlags (setV s r o.d.toNat v) r run.fl
  let s := if o.sub = 5 then
      (List.range 64).foldl (fun s l => writeSome s (movedTo s (run.at_ + 64 * l)) (fillBytes s r o) false (partOf s r) (ctxOf s r)) s
    else s
  setF s r fProgress (run.step + 1 + 0xBA * 2 ^ 32 + 2 ^ 40)

/-- A SWEEP step ends (SWEEP entry, R88, R89, R401): its results, then held writes and PEEKs, which stand first in the agenda, then
what lands at the boundary; then the next step, or completion. -/
def sweepEnd (s : State) (r : Nat) : State :=
  match tabGet s.eng.sweep r with
  | none => s
  | some run =>
    match run.instr with
    | .sweep o =>
      let ex := homeOf r
      if run.begun ∧ run.left ≠ 0 then s
      else
        let s := if run.begun then updSweep (sweepApply s r o run) r fun x => { x with begun := false, ended := true } else s
        if s.rows.stepHeld.any fun h => h.1 == r then releaseStep (postIn s 0 { row := r } (.sweepStep r)) r
        else if run.begun = false ∧ run.ended = false then s
        else
          let k := run.step + 1
          if (getS s r o.b.toNat).toNat ≤ k then grantLatch (completeLong s r) ex (2 ^ 28) 64
          else
            let s := boundary s r
            if codeOf s r ≠ 4 then grantLatch { s with eng := { s.eng with sweep := tabDel s.eng.sweep r } } ex (2 ^ 28) 64
            else
              let alone := (tabGetD s.eng.sweepQ ex []).isEmpty
              askLatch s r run.instr k (if alone then r else 2 ^ 28)
    | _ => s

/-- The end of a SWEEP step as an event. -/
def execSweepStep (row : Nat) (s : State) : Out := .next (sweepEnd s row)

end Sys2Proof.Machine
end

