-- ==== Sys2Proof/Machine/RowOps.lean ====
section
/-!
DEFINITION. Row instructions and row events (R83 to R103): CTL, WAKE, ARM, DISARM, SELF, PEEK, SPAWN, QUIT, PARK, YIELD; the
commands of R84 as they reach their row; opening, holding and aging (R95 to R100).
-/
namespace Sys2Proof.Machine

/-! ### Row-address operands (R103) -/

/-- A row-address operand: the row, or the fault ALIGN, SEG or RIGHTS. -/
def rowOperand (s : State) (r : Nat) (v : Word) : Except FaultRec Nat :=
  let a := v.toNat
  let f := fun c d => FaultRec.mk c d (a % 2 ^ 48) 2
  if a % 4096 ≠ 0 then .error (f cALIGN 0)
  else if placeOf a ≠ .hbm then .error (f cSEG 0x03)
  else match dpaChecks s (partOf s r) (isPriv s r) true a with
    | some (c, d) => .error (f c d)
    | none => .ok (a / 4096)

/-- A direct access to a target row that carries an act (R84, R103, R396). -/
def rowAccess (s : State) (at_ len : Nat) (op : DirectOp) (dest : Dest) (wait : Bool) : State :=
  let r := s.clk.cur
  let id := s.clk.ids
  let q := { reqOf s rowSeg 5 with
    op := op, elems := [{ addr := at_, va := at_, size := 8 }], dest := dest, wait := wait,
    seg := { rowSeg with kind := 2 } }
  let s := sendReq (if wait then beginLong (freshId s) r 1 len else freshId s) id q 0
  if wait then s else finish s r len

/-- CTL and WAKE: a command word for a row (R84, R103). -/
def sendCommand (s : State) (d a : Reg) (w : Word) : State :=
  match rowOperand s s.clk.cur (getS s s.clk.cur a.toNat) with
  | .error f => faultNow s s.clk.cur f
  | .ok t => rowAccess s (rowDpa t) 4 (.ctl w) (.status d.toNat) (d != 0)

/-- CTL. -/
def execCtl (d a b : Reg) (s : State) : Out := .next (sendCommand s d a (getS s s.clk.cur b.toNat))
/-- WAKE. -/
def execWake (d a : Reg) (s : State) : Out := .next (sendCommand s d a 7)

/-- ARM, privileged. -/
def execArm (d a b : Reg) (s : State) : Out :=
  let r := s.clk.cur
  .next (if !isPriv s r then faultInstr s r cPRIV 0
    else match rowOperand s r (getS s r a.toNat) with
      | .error f => faultNow s r f
      | .ok t => rowAccess s (rowDpa t) 4 (.arm (getS s r b.toNat)) (.status d.toNat) (d != 0))
/-- DISARM, privileged. -/
def execDisarm (d a : Reg) (s : State) : Out :=
  let r := s.clk.cur
  .next (if !isPriv s r then faultInstr s r cPRIV 0
    else match rowOperand s r (getS s r a.toNat) with
      | .error f => faultNow s r f
      | .ok t => rowAccess s (rowDpa t) 4 .disarm (.status d.toNat) (d != 0))

/-- SELF: the row's own names. -/
def selfWord (s : State) (r sel : Nat) : Nat :=
  match sel with
  | 0 => rowDpa r
  | 1 => exX (homeOf r) + exY (homeOf r) * 2 ^ 8
  | 2 => (slotOf s r).getD 0 % 32 + partOf s r * 2 ^ 8 + ctxOf s r * 2 ^ 16
  | _ => r

/-- SELF. -/
def execSelf (d : Reg) (sel : BitVec 7) (s : State) : Out :=
  putReg s d (BitVec.ofNat 64 (selfWord s s.clk.cur sel.toNat)) 4

/-- The address checks of PEEK in their order: ALIGN, SEG, RIGHTS (R103, R400). -/
def peekTarget (s : State) (r : Nat) (v dst : Word) : Except FaultRec Nat :=
  let off := fun c d => FaultRec.mk c d (dst.toNat % 2 ^ 48) 0
  if dst.toNat % 8 ≠ 0 then .error (off cALIGN 0)
  else if v.toNat % 4096 ≠ 0 then rowOperand s r v
  else if dst.toNat < 0x800 ∨ 0xF00 < dst.toNat then .error (off cSEG 0x01)
  else rowOperand s r v

/-- PEEK (R396): a window of 256 bytes as it stood at one boundary of its row, long, with WHY 1. One of the own row copies the latch at once,
and completes in the cycle after (log 29). -/
def execPeek (d a b : Reg) (off : BitVec 32) (s : State) : Out :=
  let r := s.clk.cur
  let o := off.toNat
  let dst := getS s r b.toNat
  .next (if o % 8 ≠ 0 ∨ 0xF00 < o then faultInstr s r cILLOP 0
    else match peekTarget s r (getS s r a.toNat) dst with
      | .error f => faultNow s r f
      | .ok t =>
        if t = r then
          goLong (ownWrite s r dst.toNat (memRead s.mem (rowDpa r + o) 256) (isPriv s r)) r 1 12 1
            ⟨[⟨d.toNat, BitVec.ofNat 64 (rowNat s r 8 8)⟩], 0, none⟩
        else rowAccess s (rowDpa t) 12 (.peek o) (.window d.toNat dst.toNat) true)

/-- SPAWN: takes a row from the spawn pool of the executor that S[a] names. -/
def execSpawn (d a b c : Reg) (sub : BitVec 3) (s : State) : Out :=
  let r := s.clk.cur
  let v := src s a
  let own := homeOf r
  let ex := if bitAt v 16 then exAt (exX own + bitsAt v 0 5) (exY own + bitsAt v 8 5) else exAt (bitsAt v 0 5) (bitsAt v 8 5)
  let args := (List.range 4).map fun i => getS s r (c.toNat + i)
  .next (if v &&& (2 ^ 64 - 1 - 0x11F1F) ≠ 0 then faultInstr s r cILLOP 0
    else rowAccess s (exPage ex) 12 (.spawn (src s b % 2 ^ 40) args (sub == 0)) (.status d.toNat) true)

/-! ### Giving up the slot -/

/-- Another row of the partition that is READY in the executor's activation queue (R83, R95). -/
def readyElse (s : State) (r : Nat) : Bool :=
  (tabGetD s.rows.queue (queueKey (exOf r) (partOf s r)) []).any fun x => x != r

/-- What a row that has just closed itself meets at its boundary: the end of a STEP, a pending command judged on the state it
reached (R84, R86), or its block's kill (R336). -/
def settleClosed (s : State) (r : Nat) : State :=
  let m := cmdOfWord r true (BitVec.ofNat 64 (getF s r fCmd))
  if s.rows.stepping.contains r then
    let s := { s with rows := { s.rows with stepping := setDel s.rows.stepping r } }
    releaseHeld (clearPending (setCode (dequeue s r) r 7 0) r) r
  else if getF s r fPend = 1 then
    let s0 := s
    let s := clearPending s r
    let s := match pendingCode s0 r with
      | 2 => if tabGet s0.rows.budgetStops r = some 0 then stopNow s r else cmdStop s m
      | 3 => cmdRedirect s m
      | 5 => cmdKill s m
      | _ => s
    releaseHeld (stopAfter s0 s r) r
  else if isKilled s r then retire s r
  else s

/-- QUIT: the row retires with PC on the QUIT (R84, R275). -/
def execQuit (s : State) : Out := .next (retire s s.clk.cur)

/-- PARK: commits, closes, and waits for START or WAKE. -/
def execPark (s : State) : Out :=
  let r := s.clk.cur
  let s := closeRow (resolvePc s r (getF s r fPc + 4) false none) r
  .next (settleClosed (releaseStep (setCode s r 1 10) r) r)

/-- YIELD: closes when another row waits in the queue. -/
def execYield (s : State) : Out :=
  let r := s.clk.cur
  .next (if !readyElse s r then finish s r 4
    else
      let s := closeRow (resolvePc s r (getF s r fPc + 4) false none) r
      settleClosed (makeReady (releaseStep s r) r) r)

/-! ### Commands that reach their row (R84 to R88) -/

/-- A command waits behind one that is pending (R86); when it acts, a WATCH on CMD sees what it leaves (R230). -/
def commandAt (s : State) (m : CmdMsg) (ev : Instr) (act : State → State) : State :=
  if !isThread s m.row then s
  else if getF s m.row fPend = 1 then holdCommand s m.row ev
  else checkWatches (act s) (rowDpa m.row) 8

/-- START (R84). -/
def execStart (m : CmdMsg) (s : State) : Out :=
  .next (if !isThread s m.row ∧ m.priv then (startAt s m.row (BitVec.ofNat 64 (cmdWord 1 m))).1
    else commandAt s m (.start m) fun s => cmdStart s m)
/-- STOP (R84). -/
def execStop (m : CmdMsg) (s : State) : Out := .next (commandAt s m (.stop m) fun s => cmdStop s m)
/-- REDIRECT (R84). -/
def execRedirect (m : CmdMsg) (s : State) : Out := .next (commandAt s m (.redirect m) fun s => cmdRedirect s m)
/-- RESUME (R84): the return from a fault. -/
def execResume (m : CmdMsg) (s : State) : Out := .next (commandAt s m (.resume m) fun s => cmdResume s m)
/-- KILL (R84). -/
def execKill (m : CmdMsg) (s : State) : Out := .next (commandAt s m (.kill m) fun s => cmdKill s m)
/-- STEP (R84). -/
def execStep (m : CmdMsg) (s : State) : Out := .next (commandAt s m (.step m) fun s => cmdStep s m)
/-- WAKE (R84). -/
def execWakeCommand (m : CmdMsg) (s : State) : Out := .next (commandAt s m (.wakeCommand m) fun s => cmdWake s m)
/-- PRIORITY (R84). -/
def execPriority (m : CmdMsg) (s : State) : Out := .next (commandAt s m (.priority m) fun s => cmdPriority s m)
/-- A code that is no command (R85). -/
def execBadcode (code : BitVec 8) (m : CmdMsg) (s : State) : Out :=
  .next (commandAt s m (.badcode code m) fun s => cmdUnknown s code.toNat m)
/-- A pending command meets a boundary of its open row (R84, R88). -/
def execCommandLands (row : Nat) (s : State) : Out :=
  .next (if isOpen s row ∧ getF s row fPend = 1 then boundary s row else s)

/-! ### Opening, holding, aging (R97 to R100) -/

/-- The opening of a slot ends (R98): the row runs, unless its block was killed or its context went out meanwhile. -/
def execRowOpen (ex slot : Nat) (s : State) : Out :=
  .next (match tabGet s.rows.slots (ex * 32 + slot) with
    | none => s
    | some x =>
      if !x.opening ∨ codeOf s x.row ≠ 2 ∨ s.clk.now < x.openedAt + 48 then s
      else if isKilled s x.row then retire s x.row
      -- the open is extended until the root's answer has come (R213)
      else if joinPending s x.row then postIn s 1 {} (.rowOpen ex slot)
      -- nor does it end while the stack's sequencer is under reset (R393)
      else if (stackHeld s (rowDpa x.row)).isSome then postIn s 1 {} (.rowOpen ex slot)
      else
        let s := { s with rows := { s.rows with
          slots := tabSet s.rows.slots (ex * 32 + slot) { x with opening := false, openedAt := s.clk.now } } }
        let s := startWindow (setF s x.row fEprio 0) x.row
        let s := if (tabGet s.rows.oldCode x.row).isSome then s else freshCode s x.row
        if ctxActive s x.row then runRow s x.row else retainRow s x.row)

/-- A row that has waited beyond its hold time, in enabled cycles of its executor, while another is READY is closed in such a cycle (R99,
R100, R360). -/
def closeSleeping (s : State) (r : Nat) : State :=
  match tabGet s.rows.waits r with
  | none => s
  | some w =>
    if codeOf s r = 4 ∧ !w.bounded ∧ w.since + holdOf s r ≤ enabledCycles s (exOf r) ∧ clockOn s (exOf r) ∧ readyElse s r then
      freeSlot (setCode s r 5 w.why) r
    else s

/-- A hold expires (R100). -/
def execHoldExpiry (row since : Nat) (s : State) : Out :=
  .next (match tabGet s.rows.waits row with
    | some w => if w.since = since then closeSleeping s row else s
    | none => s)

/-- A queued row ages (R97): one level up, at the back of it, never above its ceiling as it now stands. -/
def execPriorityAging (row since : Nat) (s : State) : Out :=
  .next (if tabGet s.rows.queuedAt row ≠ some since then s
    else
      let e := getF s row fEprio
      let again := fun (s : State) => postClock s (exOf row) (2 ^ 20) {} (.priorityAging row since)
      if (effCeil s row).getD 63 ≤ e then again s
      else
        let k := queueKey (exOf row) (partOf s row)
        let s := setF s row fEprio (e + 1)
        let s := { s with rows := { s.rows with queue := tabUpd s.rows.queue k [] fun l => queueIns s (setDel l row) row } }
        again s)

end Sys2Proof.Machine
end

