-- ==== Sys2Proof/Machine/Fetch.lean ====
section
/-!
DEFINITION. Fetching an instruction (R48 to R51), the hash check before a first fetch (R67, R68), and what stands in the way of an
issue: the watchdog and the faults of the fetch.
-/
namespace Sys2Proof.Machine

/-- What fetching at a row's PC finds. -/
inductive FetchRes where
  | go (i : Instr) (len : Nat)
  | illegal (weight : Nat)
  | walk (va : Nat)
  | page (va level : Nat)
  | fault (f : FaultRec)
  deriving DecidableEq, Repr

/-- A fetch fault names sg0's base plus PC (R50). -/
def fetchRec (s : State) (r : Nat) (f : FaultRec) : FaultRec :=
  ⟨f.cause, f.detail, (instrAddr s r).1, (instrAddr s r).2⟩

/-- `n` words of code from offset `off`, each where its own page lies, as the row fetches them (R51); or what ends the fetch. -/
def codeWords (s : State) (r off : Nat) : Nat → Except FetchRes (List Nat)
  | 0 => .ok []
  | n + 1 =>
    match codeAddr s r off 4 false with
    | .fault f => .error (.fault (fetchRec s r f))
    | .walk va => .error (.walk va)
    | .page va l => .error (.page va l)
    | .at_ a =>
      match codeWords s r (off + 4) n with
      | .error x => .error x
      | .ok l => .ok (codeNat s r (movedTo s a) 4 :: l)

/-- The length in words that the first word at a row's PC gives, looked at before the x right is asked for, so that a segment without it
still faults SEG where the instruction leaves the limit (R50, R64); 1 where that word cannot be read at all (DEDUCED, log 18). -/
def peekLength (s : State) (r pc : Nat) : Nat :=
  match codePlace s r pc 4 true false with
  | .at_ a => lengthWords (codeNat s r (movedTo s a) 4)
  | _ => 1

/-- The SEG checks of an instruction of `n` words at PC (R50): every byte from offset 8 and below the limit, the kind, the range. -/
def fetchSeg (s : State) (r pc n : Nat) : Option FaultRec :=
  match segChecks s r (getSeg s r 0) pc { kinds := 0x1F, size := 4 * n } with
  | .error f => some (fetchRec s r f)
  | .ok _ => none

/-- The words of the instruction at a row's PC (R50, R51): ALIGN, then SEG for the whole instruction, then RIGHTS (R64). A fetch below
offset 8 carries DETAIL 0x01, that of an offset outside the segment: R184 names none for it (DEDUCED, log 18). -/
def fetchWords (s : State) (r : Nat) : Except FetchRes (List Nat) :=
  let pc := getF s r fPc
  if pc % 4 ≠ 0 then .error (.fault (fetchRec s r ⟨cALIGN, 0, 0, 0⟩))
  else if pc < 8 then .error (.fault (fetchRec s r ⟨cSEG, 0x01, 0, 0⟩))
  else match fetchSeg s r pc 1 with
  | some f => .error (.fault f)
  | none =>
    if !(getSeg s r 0).canX then
      .error (.fault ((fetchSeg s r pc (peekLength s r pc)).getD (fetchRec s r ⟨cRIGHTS, 0x10, 0, 0⟩)))
    else match codeWords s r pc 1 with
    | .error x => .error x
    | .ok ws =>
      let n := lengthWords (ws.headD 0)
      match fetchSeg s r pc n with
      | some f => .error (.fault f)
      | none => codeWords s r pc n

/-- A fetch that finds its translation in a cache brings it to the front, and into the executor's cache (R190). -/
def renewCode (s : State) (r off : Nat) : State :=
  let g := getSeg s r 0
  if g.kind ≠ 4 then s
  else match cachedTrans s (exOf r) (partOf s r) (ctxOf s r) ((g.base + off) % 2 ^ 48) 2 with
    | some (_, e, _) => fillTlb s (exOf r) e
    | none => s

/-- The words of code at offset `off` of sg0, each with the place it is read at. -/
def codeLines (s : State) (r off n : Nat) (now : Bool) : List (Nat × Nat) :=
  (List.range n).filterMap fun i => match codeAddr s r (off + 4 * i) 4 now with
    | .at_ a => some (off + 4 * i, movedTo s a)
    | _ => none

/-- Whether a line is poisoned, or will be when its error is met (R388). -/
def lineBad (s : State) (l : Nat) : Bool := s.lines.poison.contains l || tabGet s.lines.latent l == some 2

/-- A word of code in a poisoned line (R389). -/
def codePoison (s : State) (r off n : Nat) (now : Bool) : Option (Nat × Nat) :=
  (codeLines s r off n now).find? fun x => lineBad s (x.2 / 64)

/-- A fetch takes its words from their lines (R389): errors in them are met (R388), and poison is consumed, which ends the owner's context
or faults the row BUS 0x21 at the word. False when the row may not go on. -/
def readCode (s : State) (r off n : Nat) (now : Bool) : State × Bool :=
  let s := renewCode s r off
  let s := (codeLines s r off n now).foldl (fun s x => meetError s (x.2 / 64)) s
  match codePoison s r off n now with
  | none => (s, true)
  | some (o, a) =>
    let x := consumePoison s (partOf s r) (ctxOf s r) a 4
    match x.2 with
    | none => (x.1, false)
    | some (c, d) => (takeFault x.1 r ⟨c, d, ((getSeg s r 0).base + o) % 2 ^ 48, (getSeg s r 0).kind⟩ 0, false)

/-- How many words the fetch of a row's instruction takes. -/
def codeCount (s : State) (r : Nat) : Nat :=
  match fetchWords s r with
  | .ok ws => ws.length
  | _ => 0

/-- Whether a row's fetch is held: code outside its own latch, at a stack whose sequencer is under reset (R393). -/
def codeHeld (s : State) (r : Nat) : Bool :=
  !s.hub.seqReset.isEmpty && (getSeg s r 0).kind != 0 &&
  ((codeLines s r (getF s r fPc) (codeCount s r) false) ++ (if s.rows.recheck.contains r then codeLines s r 0 2 true else [])).any fun x =>
    (stackHeld s x.2).isSome

/-- Fetch and decode the instruction at a row's PC (R50, R51, R63). -/
noncomputable def fetchPlan (s : State) (r : Nat) : FetchRes :=
  match fetchWords s r with
  | .error x => x
  | .ok ws =>
    match decodeWords ws with
    | some i => .go i (4 * ws.length)
    | none => .illegal (weightOfWords ws)

/-- The hash check before the first fetch after sg0 changed, or after a postponed check (R67, R68): the row may fetch, or what
became of it. -/
def checkBeforeFetch (s : State) (r : Nat) : State × Bool :=
  if !s.rows.recheck.contains r then (s, true)
  else
    let x := readCode s r 0 2 true
    let s := x.1
    if !x.2 then (s, false) else
    let done := { s with rows := { s.rows with recheck := setDel s.rows.recheck r } }
    match hashCheck s r with
    | .good => (done, true)
    | .bad f => (takeFault done r f 0, false)
    | .later va l => (pageFault s r va l 2 0, false)

/-- Whether the next instruction would pass the instruction limit (R342). -/
def limitReached (s : State) (r : Nat) : Bool :=
  let n := (effIlimit s r).getD 0
  getF s r fPersist == 0 && n != 0 && n ≤ tabGetD s.rows.icount r 0

/-- A fetch that faults (R50): the cycle takes the fault and charges nothing (R113). -/
def execFetchFault (_cause : Nat) (s : State) : Out :=
  let r := s.clk.cur
  .next (match fetchWords s r with
    | .error (.fault f) => takeFault s r f 0
    | .error (.page va l) => pageFault s r va l 2 0
    | .error (.walk va) => addWalk (waitOn s r 1 true .event) (exOf r) r (partOf s r) (ctxOf s r) va 2 (.reissue r va)
    | _ => s)

/-- An instruction that does not decode (R63). -/
def execIllegalInstruction (s : State) : Out := .next (faultInstr s s.clk.cur cILLOP 0)

/-- The end of a watchdog window (R341, R343). A row inside a bounded instruction meets it at its next boundary. -/
def execWatchdogWindowEnd (row since : Nat) (s : State) : Out :=
  .next (match tabGet s.rows.windowAt row with
    | none => s
    | some c =>
      let w := (effWpers s row).getD 0
      if !isOpen s row ∨ c ≠ since ∨ getF s row fPersist = 0 ∨ w = 0 ∨ enabledCycles s (exOf row) < c + w then s
      else if getF s row fBeats ≠ 0 then startWindow s row
      else if atBoundary s row then watchdogFires s row 1
      else
        let s := startWindow s row
        { s with rows := { s.rows with fired := setAdd s.rows.fired row } })

/-- The instruction limit is reached (R342, R343). -/
def execInstructionLimit (row : Nat) (s : State) : Out := .next (if limitReached s row then watchdogFires s row 2 else s)

end Sys2Proof.Machine
end

