-- ==== Sys2Proof/Machine/IssueOps.lean ====
section
/-!
DEFINITION. The slot table, the governor's registers and priorities (R104, R112 to R118): SLOTW, SLOTR, BUDGET, PRIO, and the cycles
in which nothing issues (R108).
-/
namespace Sys2Proof.Machine

/-- The default table (R104). -/
def defaultTable : List Nat := (List.range 64).map fun i => i % 32

/-- The slot table of an executor. -/
def slotTable (s : State) (ex : Nat) : List Nat := tabGetD s.iss.tables ex defaultTable

/-- The partition that owns entry `i` (R104). -/
def entryOwner (s : State) (i : Nat) : Nat := slotOwner s (i % 32)

/-- An image laid over a table: 0x3E keeps (SLOTW). -/
def overlay (t image : List Nat) : List Nat := (t.zip image).map fun e => if e.2 = 0x3E then e.1 else e.2

/-- The table as the installs that wait leave it. -/
def tableAfter (s : State) (ex : Nat) : List Nat :=
  (s.iss.installs.filter fun x => x.ex == ex).foldl (fun t x => overlay t x.image) (slotTable s ex)

/-- Whether some slot stands in two entries closer than 8 (R107, SLOTW). -/
def badSpacing (t : List Nat) : Bool :=
  (List.range 64).any fun i => (List.range 7).any fun d =>
    let a := t.getD i 0
    a != 0x3F && a == t.getD ((i + d + 1) % 64) 0

/-- The first failure of an image, or 0 DONE (SLOTW). -/
def imageStatus (s : State) (ex p : Nat) (image : List Nat) : Nat :=
  let pairs := image.zipIdx
  if image.any fun b => 32 ≤ b && b != 0x3E && b != 0x3F then 3
  else if pairs.any fun b => (entryOwner s b.2 != p && b.1 != 0x3E) || (b.1 < 32 && slotOwner s b.1 != p) then 2
  else if badSpacing (overlay (tableAfter s ex) image) then 1
  else 0

/-- SLOTW, privileged. -/
def execSlotw (d a : Reg) (s : State) : Out :=
  let r := s.clk.cur
  let v := src s a
  let ex := exOf r
  let f := fun c x => FaultRec.mk c x (v % 2 ^ 48) 0
  .next (if !isPriv s r then faultInstr s r cPRIV 0
    else if v % 64 ≠ 0 then faultNow s r (f cALIGN 0)
    else if v < 0x800 ∨ 0xFC0 < v then faultNow s r (f cSEG 0x01)
    else
      let image := (memRead s.mem (rowDpa r + v) 64).map BitVec.toNat
      let st := imageStatus s ex (partOf s r) image
      if st ≠ 0 then goLong s r 2 4 1 ⟨[⟨d.toNat, BitVec.ofNat 64 st⟩], 0, none⟩
      else
        let s := beginLong s r 2 4
        { s with iss := { s.iss with installs := s.iss.installs ++ [⟨r, ex, d.toNat, image⟩] } })

/-- Tables that wait at an executor are installed, in issue order, and their SLOTWs complete (SLOTW). -/
def execSlotTableInstall (ex : Nat) (s : State) : Out :=
  let mine := s.iss.installs.filter fun x => x.ex == ex
  let t := tableAfter s ex
  let s := { s with iss := { s.iss with
    installs := s.iss.installs.filter fun x => x.ex != ex
    tables := if mine.isEmpty then s.iss.tables else tabSet s.iss.tables ex t } }
  .next (mine.foldl (fun s x => answerRow s x.row [⟨x.d, 0⟩] 0) s)

/-- The word of R118 that `sel` names; ACC and MSTALL as they stood at the start of the cycle. -/
def slotrWord (s : State) (ex p sel v : Nat) : Nat :=
  let g := govOf s ex p
  match sel with
  | 0 => if entryOwner s (v % 64) = p then (slotTable s ex).getD (v % 64) 0 else 0x3E
  | 1 => budgetOf s ex p + ceilOf s ex p * 2 ^ 16 + effOf s ex * 2 ^ 32
  | 2 => if g.chargedAt = s.clk.now then g.accBefore else g.acc
  | 3 => dutyOf s ex
  | 4 => g.issued
  | 5 => g.lent
  | 6 => g.gblock
  | 7 => g.forfeit
  | 8 => (g.mstall + 2 ^ 64 - (if g.stalledAt = s.clk.now then g.stalled else 0)) % 2 ^ 64
  | _ => g.gated

/-- SLOTR. -/
def execSlotr (d a : Reg) (sel : BitVec 7) (s : State) : Out :=
  putReg s d (BitVec.ofNat 64 (slotrWord s (exOf s.clk.cur) (partOf s s.clk.cur) sel.toNat (src s a))) 4

/-- BUDGET, privileged: in force from the next window start. -/
def execBudget (d a : Reg) (s : State) : Out :=
  let r := s.clk.cur
  let nb := min (max (src s a) 16) (ceilOf s (exOf r) (partOf s r))
  if !isPriv s r then .next (faultInstr s r cPRIV 0)
  else putReg (updGov s (exOf r) (partOf s r) fun g => { g with pending := some nb }) d (BitVec.ofNat 64 nb) 4

/-- PRIO, fn 0. -/
def execPrio (d a : Reg) (s : State) : Out :=
  let r := s.clk.cur
  if src s a ≤ 63 then putReg (setF s r fPrio (src s a)) d (BitVec.ofNat 64 (getF s r fPrio)) 4
  else putReg s d (BitVec.ofNat 64 (2 ^ 64 - 1)) 4

/-- PRIO, fn 1. -/
def execPrioRead (d : Reg) (s : State) : Out :=
  putReg s d (BitVec.ofNat 64 (getF s s.clk.cur fPrio + getF s s.clk.cur fEprio * 2 ^ 6)) 4

/-- A window starts at an executor (R112, R114). -/
def execGovernorWindow (ex : Nat) (s : State) : Out := .next (windowStart s ex)

/-- A cycle in which nothing issues at an executor (R108, R117, R118): 1 gated, 2 IDLE, 3 blocked, 4 forfeit. -/
def execIssueCycle (ex why : Nat) (s : State) : Out :=
  let p := entryOwner s (enabledCycles s ex % 64)
  .next (if 32 ≤ p then s
    else match why with
      | 1 => updGov s ex p fun g => { g with gated := (g.gated + 1) % 2 ^ 64 }
      | 3 => updGov s ex p fun g => { g with gblock := (g.gblock + 1) % 2 ^ 64 }
      | 4 => updGov s ex p fun g => { g with forfeit := (g.forfeit + 1) % 2 ^ 64 }
      | _ => s)

end Sys2Proof.Machine
end

