-- ==== Sys2Proof/Machine/Notes.lean ====
section
/-!
DEFINITION. Notes, channels, racks and diffusing termination (R234 to R256, R398): one meaning per instruction and event.
-/
namespace Sys2Proof.Machine

/-! ### NOTE (R240, R382) -/

/-- The range of the host endpoints' addresses (R382). -/
def inHostRange (a : Nat) : Bool := 0x0C0080000000 ≤ a && a < 0x0C0080800000

/-- NOTE's target: a row address or a host endpoint of the own partition (R103, R382). -/
def noteTarget (s : State) (r : Nat) (v : Word) : Except FaultRec Nat :=
  let a := v.toNat
  if !inHostRange a then (rowOperand s r v).map rowDpa
  else if a % 4096 ≠ 0 then .error ⟨cALIGN, 0, a, 2⟩
  else if (a - 0x0C0080000000) / 0x40000 ≠ partOf s r then .error ⟨cRIGHTS, 0x11, a, 2⟩
  else .ok a

/-- NOTE of three data words (R240). -/
def sendNote (s : State) (d a : Reg) (w1 w2 w3 : Word) (engage : Bool) (len : Nat) : State :=
  let r := s.clk.cur
  match noteTarget s r (getS s r a.toNat) with
  | .error f => faultNow s r f
  | .ok t =>
    if engage ∧ getF s r fDeficit = 63 then finish (setS s r d.toNat 2) r len
    else
      let hdr := noteHeader (getF s r fPhase) r (if engage then 2 else 1)
      let s := if engage then setF s r fDeficit (getF s r fDeficit + 1) else s
      let id := s.clk.ids
      let q := { reqOf s rowSeg 5 with
        path := .N, op := .note hdr w1 w2 w3 engage, elems := [{ addr := t + 0x700, va := t, size := 32 }],
        dest := .noteStatus d.toNat engage, wait := d != 0, left := 1, seg := { rowSeg with kind := 2 } }
      let s := putReq (freshId s) id q
      let s := { s with msg := { s.msg with fly := s.msg.fly ++ [⟨id, r, getF s r fPhase⟩] } }
      let s := if q.wait then beginLong s r 1 len else s
      let s := sendIn s (oneWay q.ex (t + 0x700)) (rowTag s r .N (t + 0x700)) (.noteLanding id)
      if q.wait then s else finish s r len

/-- NOTE, X form. -/
def execNote (o : SendX) (s : State) : Out :=
  let r := s.clk.cur
  let w := fun i => getS s r (o.b.toNat + i)
  .next (sendNote s o.d o.a (w 0) (w 1) (if bitAt o.sub.toNat 0 then o.imm.signExtend 64 else w 2) (bitAt o.sub.toNat 1) 12)
/-- NOTE, literal form. -/
def execNoteXl (o : SendL) (s : State) : Out :=
  let r := s.clk.cur
  .next (sendNote s o.d o.a (getS s r o.b.toNat) (getS s r (o.b.toNat + 1)) o.lit (bitAt o.sub.toNat 1) 20)

/-- A note for a host endpoint reaches the hub (R382): 0 LANDED, 1 FULL, 4 NOTROW. -/
def hostLanding (s : State) (id : Nat) (q : Req) (a : Nat) (ws : List Word) : State :=
  let k := (a - 0x0C0080000000) / 0x1000 % 64
  let e := regWord s (0x0C0000500000 + 0x400 * q.part + 16 * k + 8)
  let s' := { s with clk := { s.clk with draws := s.clk.draws + 1 } }
  let x := if bitsAt e 5 2 ≠ 1 then (s, 4)
    else if Config.hostHasBuffer s.clk.draws then (sendPacket s' q.part false k 1 (ws.map BitVec.toNat), 0) else (s', 1)
  replyFrom (setGot x.1 id 0 x.2) id q a 0

/-- A note reaches its target (R235, R237, R239): it is in flight until it lands or bounces. -/
def noteArrives (s : State) (id : Nat) : State :=
  match tabGet s.ms.reqs id with
  | none => s
  | some q =>
    let a := (q.elems.headD {}).addr
    let s := match q.op with
      | .note h w1 w2 w3 _ => if inHostRange a then hostLanding s id q a [h, w1, w2, w3] else arrive s id 0 (.noteLanding id)
      | _ => s
    let got := match tabGet s.ms.reqs id with
      | some q => (q.elems.headD {}).got.isSome
      | none => true
    if !got then s
    else
      let s := { s with msg := { s.msg with fly := s.msg.fly.filter fun f => f.id != id } }
      if inHostRange a then s else checkWatches (checkWatches s a 256) (a / 4096 * 4096 + 0x68) 8

/-- A note lands (R235). -/
def execNoteLanding (id : Nat) (s : State) : Out := .next (noteArrives s id)

/-- A system note is offered (R238); a pending command of its target holds it (R86). -/
def execSystemNoteRetry (id : Nat) (s : State) : Out :=
  .next (match s.msg.system.find? fun n => n.id == id with
    | none => s
    | some n =>
      if pendHolds s (2 ^ 28) n.target then
        { s with rows := { s.rows with held := s.rows.held ++ [(n.target, ⟨s.clk.now, 0, { part := n.part, path := .N }, .systemNoteRetry id⟩)] } }
      else checkWatches (checkWatches (offerSystem s n) (rowDpa n.target + 0x700) 256) (rowDpa n.target + 0x68) 8)

/-! ### RECV, RECVQ (R115, R237, R241) -/

/-- Move the note at position `m` to position 0 (R237). -/
def raiseNote (s : State) (r m : Nat) : State :=
  let get := fun i => rowNat s r (inboxAt s r i) 32
  (List.range (m + 1)).foldl (fun t i => setRowNat t r (inboxAt s r i) 32 (if i = 0 then get m else get (i - 1))) s

/-- Deliver the note at position `m` to S[d..d+3] (R241). -/
def deliver (s : State) (r d m : Nat) : State :=
  let s := raiseNote s r m
  let at_ := inboxAt s r 0
  let w := fun i => BitVec.ofNat 64 (rowNat s r (at_ + 8 * i) 8)
  let s' := (List.range 4).foldl (fun t i => setS t r (d + i) (w i)) s
  beat (setF s' r fHead (getF s r fHead + 1)) r

/-- A privileged row that finds its inbox empty loses EXEMPT (R115). -/
def emptyInbox (s : State) (r : Nat) : State :=
  if isPriv s r ∧ inboxCount s r = 0 then setF s r fExempt 0 else s

/-- RECV. -/
def execRecv (d : Reg) (s : State) : Out :=
  let r := s.clk.cur
  .next (match choosePos s r with
    | some m => finish (deliver s r d.toNat m) r 4
    | none => waitOn (emptyInbox s r) r 3 false .note)
/-- RECVQ. -/
def execRecvq (d : Reg) (s : State) : Out :=
  let r := s.clk.cur
  .next (match choosePos s r with
    | some m => finish (deliver s r d.toNat m) r 4
    | none => finish (setS (emptyInbox s r) r d.toNat 0) r 4)

/-! ### Channels (R121, R242 to R245) -/

/-- Free the endpoints whose FIFOs are empty and whose row is closed or has CHAN clear (R242); words in motion hold none. -/
def pruneEnds (s : State) : State :=
  let free := fun (e : Endpoint) =>
    { e with bound := e.bound && !(e.out.isEmpty && e.inp.isEmpty && !(isOpen s e.row && chanOn s e.row) && !s.rows.pushDue.contains e.row) }
  let keep := fun (e : Endpoint) => e.bound || !e.moving.isEmpty || e.sending
  { s with msg := { s.msg with ends := (s.msg.ends.map free).filter keep } }

/-- Words under way to a row. -/
def movingTo (s : State) (t : Nat) : Nat := s.msg.ends.foldl (fun n e => n + (e.moving.filter fun w => w.1 == t).length) 0

/-- The output FIFO sends its oldest word when the downstream FIFO has room for it (R243). -/
def execChannelWordSend (row : Nat) (s : State) : Out :=
  .next (match endOf s row with
    | none => s
    | some e =>
      match e.out with
      | [] => updEnd s row fun e => { e with sending := false }
      | w :: rest =>
        let dead := !isThread s w.1 || codeOf s w.1 == 8
        if !dead ∧ (!endRoom s w.1 ∨ 16 ≤ ((endOf s w.1).map fun x => x.inp.length).getD 0 + movingTo s w.1) then
          postIn s 1 {} (.channelWordSend row)
        else
          let s := updEnd s row fun e => { e with out := rest, moving := e.moving ++ [w], sending := !rest.isEmpty }
          let tag : MsgTag :=
            { row := row, part := partOf s row, ctx := ctxOf s row, path := .N, home := homeOf w.1, flow := 2 ^ 62 + row, request := true }
          let s := sendIn s (4 * hops (homeOf row) (homeOf w.1)) tag (.channelWordArrival row)
          if rest.isEmpty then s else postIn s 1 {} (.channelWordSend row))

/-- A word of a row has arrived: each FENCEX that waits for one waits for one less (R228); words arrive in the order pushed (R243). -/
def wordPerformed (s : State) (row : Nat) : State :=
  { s with ms := { s.ms with fencex := s.ms.fencex.map fun f => if f.row == row then { f with words := f.words - 1 } else f } }

/-- A channel word arrives and binds the receiver's endpoint (R242, R243), waiting while no endpoint is free; a retired row's is
discarded and counted (R245). -/
def execChannelWordArrival (row : Nat) (s : State) : Out :=
  .next (match endOf s row with
    | none => s
    | some e =>
      match e.moving with
      | [] => s
      | w :: rest =>
        let dead := !isThread s w.1 || codeOf s w.1 == 8
        if !dead ∧ !endRoom s w.1 then postIn s 1 { row := row, path := .N } (.channelWordArrival row)
        else
          let s := wordPerformed (updEnd s row fun e => { e with moving := rest }) row
          if dead then regAdd s (rackWord (exOf w.1) (partOf s row) 0x30) 1
          else updEnd s w.1 fun e => { e with bound := true, inp := e.inp ++ [w.2] })

/-! ### Racks (R246 to R253) -/

/-- The sketch of KPUSH: four registers, ARG replaced when given (R250). -/
def sketchOf (s : State) (r b : Nat) (arg : Option Nat) : List Word :=
  let w := (List.range 4).map fun i => getS s r (b + i)
  match arg with
  | none => w
  | some v => w.take 3 ++ [BitVec.ofNat 64 (setBits (w.getD 3 0).toNat 16 48 v)]

/-- KPUSH (R250). -/
def pushSketch (s : State) (d a : Reg) (sk : List Word) (engage : Bool) (len : Nat) : State :=
  let r := s.clk.cur
  let p := partOf s r
  let ex := exOf r
  match (if a = 0 then some (ex, 0) else rackName ex (src s a)) with
  | none => faultInstr s r cILLOP 0
  | some (t, lvl) =>
    if sketchBad sk then faultInstr s r cILLOP 0
    else if sketchCode sk = 0 then finish (setS s r d.toNat 2) r len
    else if engage ∧ getF s r fDeficit = 63 then finish (setS s r d.toNat 3) r len
    else
      let s := if engage then setF s r fDeficit (getF s r fDeficit + 1) else s
      let e : RackEntry := { sketch := sk, ctx := ctxOf s r, order := 0, engager := if engage then some r else none }
      let own := t = ex ∧ lvl = 0
      let o : RackOp := { id := 0, row := r, part := p, ctx := ctxOf s r, rack := rackAtLevel t lvl p, d := d.toNat, push := some e,
                          fromLast := false, wait := false, delay := if own then 0 else rackWay ex t lvl }
      if own then
        let x := pushAt s o.rack e
        if x.2 = 2 then
          let s := beginLong x.1 r 1 len
          { s with msg := { s.msg with rackOps := s.msg.rackOps ++ [{ o with wait := true }] } }
        else
          let s := if x.2 = 1 ∧ engage then setF x.1 r fDeficit (getF x.1 r fDeficit - 1) else x.1
          let s := if x.2 = 1 ∧ d = 0 then regAdd s (rackWord ex p 0x20) 1 else s
          finish (setS s r d.toNat (BitVec.ofNat 64 x.2)) r len
      else if d = 0 then finish (sendRackOp s o) r len
      else sendRackOp (beginLong s r 1 len) o

/-- KPUSH, X form. -/
def execKpush (o : SendX) (s : State) : Out :=
  .next (pushSketch s o.d o.a (sketchOf s s.clk.cur o.b.toNat (if bitAt o.sub.toNat 0 then some o.imm.toNat else none)) (bitAt o.sub.toNat 1) 12)
/-- KPUSH, literal form. -/
def execKpushXl (o : SendL) (s : State) : Out :=
  .next (pushSketch s o.d o.a (sketchOf s s.clk.cur o.b.toNat (some (o.lit.toNat % 2 ^ 48))) (bitAt o.sub.toNat 1) 20)

/-- TAKE (R251). -/
def execTake (d a : Reg) (s : State) : Out :=
  let r := s.clk.cur
  let p := partOf s r
  let ex := exOf r
  let short := fun (x : State × Option RackEntry) =>
    let y := takeGot x.1 r d.toNat x.2
    finish (y.2.foldl (fun s w => setS s r w.reg w.val) y.1) r 4
  let o : RackOp := { id := 0, row := r, part := p, ctx := ctxOf s r, rack := rackKey 0 ex p, d := d.toNat, push := none,
                      fromLast := false, wait := false, delay := 0 }
  .next (if a = 0 then
      let x := takeAt s o.rack o.ctx false
      match x.2 with
      | some _ => short x
      | none =>
        match pullDown s o.ctx 3 o.rack with
        | none => short (s, none)
        | some s =>
          let s := beginLong s r 1 4
          { s with msg := { s.msg with rackOps := s.msg.rackOps ++ [{ o with wait := true }] } }
    else match rackName ex (src s a) with
      | none => faultInstr s r cILLOP 0
      | some (t, lvl) =>
        if t = ex ∧ lvl = 0 then short (takeAt s o.rack o.ctx true)
        else sendRackOp (beginLong s r 1 4) { o with rack := rackAtLevel t lvl p, fromLast := true, delay := rackWay ex t lvl })

/-- A rack operation reaches its rack (R250, R251, R398). -/
def execRemoteRackOperation (id : Nat) (s : State) : Out :=
  .next (match s.msg.rackOps.find? fun o => o.id == id && !o.wait with
    | none => s
    | some o => rackAct { s with msg := { s.msg with rackOps := s.msg.rackOps.filter fun x => !(x.id == id && !x.wait) } } o)

/-- A block lands (R248). -/
def execBlockMoveLands (id : Nat) (s : State) : Out := .next (landMove s id)
/-- A lateral shipment lands (R249). -/
def execShipmentLands (id : Nat) (s : State) : Out := .next (landMove s id)
/-- Lateral balancing at an executor (R249), for every partition. -/
def execLateralBalancing (ex : Nat) (s : State) : Out :=
  .next (((List.range 32).filter fun p => slotSet s p != 0).foldl (balance (rackCount s) ex) s)
/-- A continuation is offered to its rack (R252). -/
def execContinuationRetry (id : Nat) (s : State) : Out :=
  .next (match s.msg.heldPush.find? fun h => h.id == id with
    | none => s
    | some h => offerPush { s with msg := { s.msg with heldPush := s.msg.heldPush.filter fun x => x.id != id } } h)

/-- BALSET (R253). -/
def execBalset (d a : Reg) (s : State) : Out :=
  let r := s.clk.cur
  let v := src s a
  let p := partOf s r
  let old := balOf s (exOf r) p
  if v / 2 ^ 17 ≠ 0 then .next (faultInstr s r cILLOP 0)
  else putReg (setRegWord s (rackWord (exOf r) p 0x18)
    (bitsAt v 0 8 + max (blockSize s p) (bitsAt v 8 8) * 2 ^ 8 + bitsAt v 16 1 * 2 ^ 16)) d (BitVec.ofNat 64 old) 4

/-! ### JDEC and DONE (R252, R254, R255) -/

/-- JDEC's checks of S[a]; whether the word is CMD of a thread row is judged at its home (R87, R90). -/
def jdecCheck (s : State) (r a : Nat) : Option FaultRec :=
  let f := fun c d => some (FaultRec.mk c d (a % 2 ^ 48) 2)
  if a % 8 ≠ 0 then f cALIGN 0
  else if placeOf a ≠ .hbm ∧ placeOf a ≠ .palette then f cSEG 0x03
  else match dpaChecks s (partOf s r) (isPriv s r) true a with
    | some (c, d) => f c d
    | none => none

/-- JDEC: a progress beat and a reset of the instruction count (R341, R342), a FENCE, then the decrement. -/
def execJdec (d a b : Reg) (s : State) : Out :=
  let r := s.clk.cur
  let at_ := src s a
  let cont := if b = 0 then [] else (List.range 4).map fun i => getS s r (b.toNat + i)
  .next (match if sketchBad cont then some (instrFault s r cILLOP 0) else jdecCheck s r at_ with
    | some f => faultNow s r f
    | none =>
      let id := s.clk.ids
      let q := { reqOf s rowSeg 3 with
        op := .jdec cont, elems := [{ addr := at_, va := at_, size := 8 }], dest := .scalar d.toNat 64 true, wait := d != 0,
        seg := { rowSeg with kind := 2 } }
      let s := resetCount (beat s r) r
      startFence (putReq (freshId s) id q) r 4 0 false (.access id) fun s => actPlan s id 4 q false (planReq s q))

/-- Whether an ENGAGE note is present in the inbox (R255). -/
def engageWaits (s : State) (r : Nat) : Bool :=
  (List.range (min 8 (inboxCount s r))).any fun m => bitsAt (inboxHdr s r m) 60 3 == 2

/-- Whether a row is a root (R254). -/
def isRoot (s : State) (r : Nat) : Bool := getF s r fEng == 1 && getF s r fParent == r

/-- The completion store of a root (R255): a direct store of CVAL to CADDR. -/
def completionStore (s : State) (r : Nat) : State :=
  let a := (effCaddr s r).getD 0
  if a = 0 then s
  else
    let id := s.clk.ids
    let q : Req := { row := r, part := partOf s r, ctx := ctxOf s r, priv := isPriv s r, ex := exOf r, op := .write true, need := 1,
                     elems := [{ addr := a, va := a, size := 8, data := (effCval s r).getD 0 }], seg := { rowSeg with kind := 2 } }
    sendReq (freshId s) id q 0

/-- DONE's step at the own home (R255): the state and the value for S[d]. -/
def doneStep (s : State) (r : Nat) : State × Nat :=
  if getF s r fDeficit ≠ 0 ∨ engageWaits s r then (s, 5)
  else
    let root := isRoot s r
    let s := setF s r fEng 0
    if root then (completionStore (setTstate s r 2) r, 0) else (sendAck s r (getF s r fParent), 0)

/-- DONE (R255). -/
def execDone (d : Reg) (s : State) : Out :=
  let r := s.clk.cur
  .next (if getF s r fEng = 0 then finish (setS s r d.toNat 1) r 4
    else
      let bad := if !isRoot s r then none
        else match effCaddr s r with
          | none => some (instrFault s r cILLOP 0)
          | some 0 => none
          | some a => (dpaChecks s (partOf s r) (isPriv s r) true a).map fun x => FaultRec.mk x.1 x.2 a 2
      match bad with
      | some f => faultNow s r f
      | none => startFence s r 4 0 false (.done d.toNat) fun s =>
          let x := doneStep s r
          finish (setS x.1 r d.toNat (BitVec.ofNat 64 x.2)) r 4)

/-- An acknowledgement is applied at the parent (R254); a pending command holds it (R86). -/
def execAcknowledgement (row : Nat) (s : State) : Out :=
  .next (if pendHolds s (2 ^ 28) row then
      { s with rows := { s.rows with held := s.rows.held ++ [(row, ⟨s.clk.now, 0, {}, .acknowledgement row⟩)] } }
    else acknowledge s row)

end Sys2Proof.Machine
end

