-- ==== Sys2Proof/Machine/CopyPot.lean ====
section
/-!
DEFINITION. Copies and pots (R257 to R273): one meaning per instruction and event.
-/
namespace Sys2Proof.Machine

/-! ### CPY (R268, R272) -/

/-- The copy that a descriptor describes; its destination pot's key when it has one, and 0 for a name that fails R260. -/
def copyOfDesc (s : State) (r group : Nat) (ws : List Word) : Copy :=
  let w := fun i => (ws.getD i 0).toNat
  let seg := fun (row : Bool) n => if row then rowSegWords else segWords s r n
  let pot := match potName s r (BitVec.ofNat 64 (bitsAt (w 1) 0 48)) false with
    | .ok k => (k, 0)
    | .error _ => (0, 0)
  { id := s.clk.ids, row := r, part := partOf s r, ctx := ctxOf s r, ex := exOf r, group := group, desc := ws,
    sseg := seg (bitAt (w 0) 51) (bitsAt (w 0) 48 3),
    dseg := if bitAt (w 1) 52 then pot else seg (bitAt (w 1) 51) (bitsAt (w 1) 48 3),
    readPos := 0, writePos := 0, fly := [], err := 0, state := 0, readAt := s.clk.now + 1 }

/-- The pot name in a descriptor under R260. -/
def cpyPotName (s : State) (r : Nat) (c : Copy) : Except FaultRec Nat := potName s r (BitVec.ofNat 64 (bitsAt (cpyW c 1) 0 48)) false

/-- Whether the descriptor is malformed (R272); the length of a pot stream is looked at where the name gives a pot. -/
def descBad (s : State) (c : Copy) : Bool :=
  let w := cpyW c
  let slots := match cpyPotName s c.row c with
    | .ok k => potSlot s k != 0 && cpyTotal c % (64 * potSlot s k) != 0
    | .error _ => false
  bitsAt (w 0) 52 12 != 0 || bitsAt (w 1) 53 11 != 0 || bitsAt (w 5) 16 48 != 0 ||
  (bitAt (w 0) 51 && bitsAt (w 0) 48 3 != 0) || (bitAt (w 1) 51 && bitsAt (w 1) 48 3 != 0) ||
  cpyLen c == 0 || cpyRows c == 0 || cpyPlanes c == 0 || decide (2 ^ 40 < cpyTotal c) ||
  (cpyPot c && (bitsAt (w 1) 48 4 != 0 || bitsAt (w 3) 32 32 != 0 || bitsAt (w 4) 32 32 != 0 || cpyPeer c != 0)) ||
  (cpyPeer c != 0 && bitsAt (w 1) 48 4 != 0) ||
  (cpyPot c && slots)

/-- The least and the greatest byte of a shape with offsets `off` (R272). -/
def shapeEnds (c : Copy) (off : Nat → Int) : Int × Int :=
  let l := cpyLen c
  let xs := [off (l * (cpyRows c - 1)), off (l * cpyRows c * (cpyPlanes c - 1)), off (cpyTotal c - l)]
  (xs.foldl (fun m x => if x < m then x else m) (off 0), xs.foldl (fun m x => if m < x then x else m) (off 0) + l - 1)

/-- One byte of a shape under R183; a VIRT byte is translated piece by piece later. -/
def shapeByte (s : State) (r : Nat) (g : Seg) (o : Int) (write : Bool) : Option FaultRec :=
  match segChecks s r g o { rd := !write, wr := write, size := 1 } with
  | .error f => some f
  | .ok a =>
    if g.kind = 4 then none
    else (dpaChecks s (partOf s r) (isPriv s r) write a).map fun x => ⟨x.1, x.2, segAddr r g o 1, g.kind⟩

/-- Both ends of a shape under R183. -/
def shapeCheck (s : State) (r : Nat) (g : Seg) (e : Int × Int) (write : Bool) : Option FaultRec :=
  match shapeByte s r g e.1 write with
  | some f => some f
  | none => shapeByte s r g e.2 write

/-- The checks of CPY in their order (R272). -/
def cpyCheck (s : State) (r at_ : Nat) (c : Copy) : Option FaultRec :=
  let f := fun x d => some (FaultRec.mk x d (at_ % 2 ^ 48) 0)
  if at_ % 16 ≠ 0 then f cALIGN 0
  else if at_ < 0x800 ∨ 0xFD0 < at_ then f cSEG 0x01
  else if descBad s c then some (instrFault s r cILLOP 0)
  else match shapeCheck s r (cpySseg c) (shapeEnds c (cpySrcOff c)) false with
    | some x => some x
    | none =>
      if cpyPot c then
        (match cpyPotName s r c with
         | .error x => some x
         | .ok _ => none)
      else if cpyPeer c ≠ 0 then none
      else shapeCheck s r (cpyDseg c) (shapeEnds c (cpyDstOff c)) true

/-- CPY. -/
def execCpy (d a : Reg) (sub : BitVec 3) (s : State) : Out :=
  let r := s.clk.cur
  let at_ := src s a
  let c := copyOfDesc s r sub.toNat ((List.range 6).map fun i => BitVec.ofNat 64 (rowNat s r (at_ + 8 * i) 8))
  .next (match cpyCheck s r at_ c with
    | some f => faultNow s r f
    | none =>
      if !copyRoom s r then waitOn s r 9 false .copyRecord
      else
        let s := freshId { s with eng := { s.eng with copies := s.eng.copies ++ [c] } }
        finish (setS s r d.toNat (BitVec.ofNat 64 (copiesLeft s r (2 ^ sub.toNat)))) r 12)

/-- OR of the error bits of a row's failed records in the masked groups (R273). -/
def copyErrors (s : State) (r mask : Nat) : Nat :=
  s.eng.copies.foldl (fun n c => if c.row == r && bitAt mask c.group && c.state == 2 then n ||| c.err else n) 0

/-- The word of CPYQ. -/
def copyWord (s : State) (r mask : Nat) : Nat := copiesLeft s r mask % 2 ^ 16 + copyErrors s r mask * 2 ^ 16

/-- CPYQ (R273). -/
def execCpyq (d a : Reg) (s : State) : Out :=
  let r := s.clk.cur
  if 256 ≤ src s a then .next (faultInstr s r cILLOP 0) else putReg s d (BitVec.ofNat 64 (copyWord s r (src s a))) 4

/-- CPYW (R273). -/
def execCpyw (d a : Reg) (s : State) : Out :=
  let r := s.clk.cur
  let m := src s a
  if 256 ≤ m then .next (faultInstr s r cILLOP 0)
  else if copiesLeft s r m ≠ 0 then .next (waitOn s r 9 false (.copies m))
  else
    let free := { s with eng := { s.eng with copies := s.eng.copies.filter fun c => !(c.row == r && bitAt m c.group) } }
    putReg free d (BitVec.ofNat 64 (copyWord s r m)) 4

/-- What held a piece's read at its home lets it go (R86, R308, R393): it is made at once when a piece slot of the cycle is left, else it takes
one of a later cycle (R270). -/
def execCopyPieceRead (id : Nat) (s : State) : Out :=
  let s := updCopy s id fun c => { c with gate := if c.gate = 2 then 0 else c.gate }
  .next (match copyOf s id with
    | none => s
    | some c => if pieceReady s c ∧ slotsLeft s (studioOf c.ex) ≠ 0 then pieceRead s id else s)
/-- What held a piece's write at its home lets it go (R269). -/
def execCopyPieceWrite (id : Nat) (s : State) : Out := .next (pieceWrite (updCopy s id fun c => { c with writeHeld := false }) id)
/-- A copy ends (R271). -/
def execCopyFinish (id : Nat) (s : State) : Out := .next (copyReport s id)

/-! ### Pots (R260 to R267) -/

/-- Issue a pot operation that names pot `a`. -/
def potIssue (s : State) (d a : Reg) (kind len : Nat) (own wait : Bool) (line : List Byte) (args : List Nat) : State :=
  let r := s.clk.cur
  match potName s r (getS s r a.toNat) own with
  | .error f => faultNow s r f
  | .ok k =>
    let q : PotReq := { id := 0, kind := kind, row := r, part := partOf s r, ctx := ctxOf s r, pot := k, d := d.toNat, wait := wait,
                        line := line, args := args }
    if wait then sendPot (beginLong s r 8 len) q else finish (sendPot s q) r len

/-- POTSET, sub 0 (R265). -/
def execPotset (d a b : Reg) (imm : BitVec 32) (s : State) : Out :=
  .next (potIssue s d a 3 12 true true [] [0, src s b, bitsAt imm.toNat 0 16, bitsAt imm.toNat 16 8])
/-- POTSET, sub 1. -/
def execPotsetClear (d a : Reg) (s : State) : Out := .next (potIssue s d a 3 12 true true [] [1, 0, 0, 0])
/-- POTPUT (R267). -/
def execPotput (d a : Reg) (b : VReg) (s : State) : Out :=
  .next (potIssue s d a 0 4 false true (bytesOf 64 (getV s s.clk.cur b.toNat)) [src s a])
/-- POTGET (R267). -/
def execPotget (d a : Reg) (s : State) : Out := .next (potIssue s d a 1 4 true true [] [src s a])
/-- POTREL (R267): with d = s0 it does not wait. -/
def execPotrel (d a : Reg) (s : State) : Out := .next (potIssue s d a 2 4 true (d != 0) [] [src s a])
/-- Whether an event is an earlier access that a POTREL comes after: one of its row to the pot's slots (R264), or a pot operation on the
same pot (R262). -/
def potBefore (s : State) (q : PotReq) (ev : Instr) : Bool :=
  match ev with
  | .directAccess id _ =>
    q.kind == 2 && ((tabGet s.ms.reqs id).map fun x => x.row == q.row && x.elems.any fun e =>
      spans (movedTo s e.addr) e.size (potSlotAt s q.pot 0 0) (64 * potSlot s q.pot * potCount s q.pot)).getD false
  | .potOperation id => s.eng.pots.any fun x => x.id == id && x.pot == q.pot
  | _ => false

/-- The rule engine that holds a pot operation (R308): its line would touch what the engine keeps, or the engine still holds what comes before
it. -/
def potHolder (s : State) (q : PotReq) : Option Nat :=
  let st := q.pot / 128
  let behind := match tabGet s.eng.rules st with
    | some e => e.held.any fun h => match h with
      | .event t => potBefore s q t.ev
      | .line _ _ => false
    | none => false
  if behind then some st
  else if q.kind = 0 ∧ potActive s q.pot then
    (potReserve s q.pot).bind fun s => ruleHolder s (potLineAt s q.pot) 64
  else none

/-- A pot operation is applied at its studio (R262); a rule engine at work on its line, or on what comes before it, holds it (R264, R308). -/
def execPotOperation (id : Nat) (s : State) : Out :=
  .next (match s.eng.pots.find? fun q => q.id == id with
    | none => s
    | some q =>
      match potHolder s q with
      | some st => holdPot s q st
      | none => potApply s id)

end Sys2Proof.Machine
end

