-- ==== Sys2Proof/Machine/MatrixOps.lean ====
section
/-!
DEFINITION. The matrix unit's instructions (R289 to R296), BSUM and BRED (R297, R298), and their events: one meaning each.
-/
namespace Sys2Proof.Machine

/-! ### MOWN, MREL, MCFG, MZERO -/

/-- The checks of MOWN in their order (R289); the reserved area comes with R363 and a join area with R315 (log 32). -/
def mownCheck (s : State) (r v : Nat) : Option FaultRec :=
  let f := fun c d => some (FaultRec.mk c d (v % 2 ^ 48) 2)
  let rows := (List.range 10).map (v / 4096 + ·)
  if getF s r fMxe = 0 then some (instrFault s r cMXOWN 0)
  else if v % 4096 ≠ 0 then f cALIGN 0
  else if placeOf v ≠ .hbm ∨ 8182 < bitsAt v 12 13 then f cSEG 0x03
  else if !bitAt (bankSet s (partOf s r)) (v / 2 ^ 25 % 32) then f cRIGHTS 0x11
  else if rows.any (isReservedRow s) then f cRIGHTS 0x16
  else if meetsJoinArea s v (10 * 4096) then f cRIGHTS 0x15
  else if rows.any (isThread s) then f cRIGHTS 0x10
  else none

/-- MOWN (R289). It is a matrix instruction as well: a spilled owner's unit is restored before it acts (R288). -/
def execMown (d a : Reg) (s : State) : Out :=
  let r := s.clk.cur
  let v := src s a
  let ex := exOf r
  let p := partOf s r
  let c := ctxOf s r
  match mownCheck s r v with
  | some f => .next (faultNow s r f)
  | none =>
    match recordAt s ex p c with
    | some m =>
      if spilledOwner s r then .next (askRestore s r)
      else if m.valid ∧ m.owner = r then putReg (setRecord s ex p c { m with spill := v / 4096 }) d 1 4
      else putReg s d 5 4
    | none =>
      if (unitAt s ex).holder.isSome then putReg s d 5 4
      else
        let s := setRecord s ex p c { owner := r, valid := true, spilled := false, spill := v / 4096, cfg := 0 }
        putReg (updUnit s ex fun _ => { freeUnit with holder := some r, part := p, ctx := c }) d 0 4

/-- MREL (R290): a spilled owner's accumulators are not read back. -/
def execMrel (s : State) : Out :=
  let r := s.clk.cur
  .next (if holdsUnit s r || spilledOwner s r then finish (releaseUnit s r) r 4 else faultInstr s r cMXOWN 0)

/-- Output formats of R277. -/
def ofmtOk (f : Nat) : Bool := [0x00, 0x03, 0x09, 0x0A, 0x0B, 0x0D, 0x0E, 0x0F, 0x10].contains f

/-- Whether MCFG refuses a value (R31, R291). -/
def mcfgBad (v : Nat) : Bool :=
  let rm := bitsAt v 2 3
  let f := bitsAt v 5 5
  4 < rm || !ofmtOk f || (rm == 4 && (f == 0x00 || f == 0x03 || f == 0x0B))

/-- MCFG, sub 0 (R291). -/
def execMcfg (d a : Reg) (s : State) : Out :=
  let r := s.clk.cur
  let v := src s a
  .next (withUnit s r fun s =>
    let old := (unitAt s (exOf r)).mcfg
    if mcfgBad v then faultInstr s r cILLOP 0
    else finish (setS (updUnit s (exOf r) fun u => { u with mcfg := v &&& 0x7BFF }) r d.toNat (BitVec.ofNat 64 old)) r 12)

/-- MCFG, sub 1 (R291). -/
def execMcfgRead (d : Reg) (s : State) : Out :=
  let r := s.clk.cur
  .next (withUnit s r fun s => finish (setS s r d.toNat (BitVec.ofNat 64 (unitAt s (exOf r)).mcfg)) r 12)

/-- MZERO (R292). -/
def execMzero (a : Reg) (s : State) : Out :=
  let r := s.clk.cur
  let v := getS s r a.toNat
  .next (withUnit s r fun s =>
    if a = 0 then finish (updUnit s (exOf r) clearAll) r 4
    else match bandOf v with
      | some (i0, nr, 0) => finish (updUnit s (exOf r) fun u => clearRows u i0 nr) r 4
      | _ => faultInstr s r cILLOP 0)

/-! ### MMA (R293, R294) -/

/-- MMA: its checks, then its first step 24 cycles after the issue. -/
def execMma (o : MmaX) (s : State) : Out :=
  let r := s.clk.cur
  .next (withUnit s r fun s =>
    let k := firstStep s r 0xDC
    match mmaCheck s r o k with
    | some f => faultNow s r f
    | none =>
      if o.n = 0 then finish (setF s r fValid 0) r 12
      else if o.n.toNat ≤ k then goLong s r 2 12 24 ⟨[], 0, none⟩
      else queueStep (beginLong s r 2 12) r (.mma o) o k (enabledCycles s (exOf r) + 24) none)

/-- A step of an MMA ends (R293). -/
def execMmaStep (ex : Nat) (s : State) : Out := .next (mmaStepEnd s ex)
/-- A restore of a spilled unit ends (R288). -/
def execAccumulatorRestore (row : Nat) (s : State) : Out := .next (restoreUnit s row)

/-! ### MST and MLD (R295, R296) -/

/-- Bytes of an accumulator row in a format; 0x00 is the raw image (R39). -/
def accRowBytes (fmt : Nat) : Nat := if fmt = 0 then 640 else 8 * fmtWidth fmt

/-- The pieces, as offset and length, into which a run of `n` bytes at `a` falls by 64-byte lines (R258). -/
def linePieces (a n : Nat) : List (Nat × Nat) :=
  (List.range ((a % 64 + n + 63) / 64)).map fun j =>
    let lo := 64 * j - a % 64
    (lo, min n (64 * (j + 1) - a % 64) - lo)

/-- The elements of a band: lane 1,024·row + byte offset in the row. -/
def bandElems (s : State) (r : Nat) (g : Seg) (o : Int) (nr pitch w : Nat) (wr : Bool) : List Elem :=
  (List.range nr).flatMap fun i =>
    let oi := o + (i * pitch : Nat)
    (linePieces (g.base + oi).toNat w).map fun p =>
      mkElem s r g (oi + (p.1 : Nat)) { rd := !wr, wr := wr, size := p.2 } (1024 * i + p.1) 0 0

/-- The band operand of MST and MLD, checked (R295): first row, rows, elements. -/
def bandOperand (s : State) (r : Nat) (mem : XMem) (v : Word) (w : Nat) (wr : Bool) : Except FaultRec (Nat × Nat × List Elem) :=
  let g := memSeg s mem
  let o := memOff s mem
  match bandOf v with
  | none => .error (instrFault s r cILLOP 0)
  | some (i0, nr, pitch) =>
    if pitch % 16 ≠ 0 ∨ pitch < w ∨ g.bad then .error (instrFault s r cILLOP 0)
    else if o % 16 ≠ 0 then .error ⟨cALIGN, 0, segAddr r g o 1, g.kind⟩
    else
      let last := o + (((nr - 1) * pitch + w - 1 : Nat) : Int)
      match segChecks s r g o { rd := !wr, wr := wr, size := 1 }, segChecks s r g last { rd := !wr, wr := wr, size := 1 } with
      | .error f, _ => .error f
      | _, .error f => .error f
      | .ok _, .ok _ =>
        if g.kind = 0 ∧ (g.base + o) < 0x100 then .error ⟨cSEG, 0x03, segAddr r g o 1, g.kind⟩
        else .ok (i0, nr, bandElems s r g o nr pitch w wr)

/-- One accumulator row converted (R44, R35): packed elements, flags, the SR state after it. -/
def mstRow (u : MatUnit) (i st : Nat) : Nat × Flags × Nat :=
  let f := ofmtOf u
  let rm := mcfgRm u
  if f = 0 then (packElems 80 ((List.range 64).map fun j => accToNat (accAt u i j)), flagsNone, st)
  else if f = 0x10 then
    (List.range 32).foldl (fun x j =>
      let y := x4Encode rm x.2.2 (accVal (accAt u i (2 * j))) (accVal (accAt u i (2 * j + 1)))
      (setElem 8 x.1 j y.1, flagsOr x.2.1 y.2.1, y.2.2)) (0, flagsNone, st)
  else
    (List.range 64).foldl (fun x j =>
      let n := if rm = 4 then srNext x.2.2 else x.2.2
      let y := convertVal f rm n (accVal (accAt u i j))
      (setElem (fmtWidth f) x.1 j y.1, flagsOr x.2.1 y.2, n)) (0, flagsNone, st)

/-- Rows `i0 .. i0+nr-1` converted in order. -/
def mstRows (u : MatUnit) (i0 nr st : Nat) : List Nat × Flags × Nat :=
  (List.range nr).foldl (fun x i =>
    let y := mstRow u (i0 + i) x.2.2
    (x.1 ++ [y.1], flagsOr x.2.1 y.2.1, y.2.2)) ([], flagsNone, st)

/-- The instant of MST (R295): its rows are converted, MCFG's flags raised, the stored rows reset with `clear`; the elements get
their bytes, and the status holds the SR state to write back (bit 32 set) under SR. -/
def mstInstant (s : State) (q : Req) (es : List Elem) : State × Req :=
  let u := unitAt s (exOf q.row)
  let band := match q.dest with
    | .acc _ b => b
    | _ => 0
  let x := mstRows u (band % 64) (band / 64 % 128) (getF s q.row fSrst)
  let s := updUnit s (exOf q.row) fun u =>
    let u := mRaise u x.2.1
    if bitAt band 13 then clearRows u (band % 64) (band / 64 % 128) else u
  (s, { q with
    elems := es.map fun e => { e with data := bitsAt (x.1.getD (e.lane / 1024) 0) (8 * (e.lane % 1024)) (8 * e.size) }
    status := if mcfgRm u = 4 then x.2.2 + 2 ^ 32 else 0 })

/-- Whether an element lies in the own row below 0x100 (R295). -/
def ownGround (r : Nat) (e : Elem) : Bool :=
  rowDpa r < strip e.addr + e.size && strip e.addr < rowDpa r + 0x100 && placeOf (strip e.addr) == .hbm

/-- A band moves (R295, R296): within the own row at once, else on path M, a row of accumulators a cycle; the pieces that MST writes into one
64-byte line go together, with the last of its rows (R258). -/
def bandGo (s : State) (id : Nat) (q : Req) (es : List Elem) (extra : Nat) (hits : List TlbEntry) (out : Bool) : State :=
  let r := q.row
  let s := hits.foldl (fun s e => fillTlb s q.ex e) s
  match es.find? (ownGround r) with
  | some e => faultNow (dropReq s id) r ⟨cSEG, 0x03, e.va, q.seg.kind⟩
  | none =>
    let nr := match q.dest with
      | .acc _ b => b / 64 % 128
      | _ => 0
    let s := if out then s else beginLong s r 2 12
    let x := if q.need = 1 then mstInstant s q es else (s, { q with elems := es })
    let s := x.1
    let q := x.2
    let tag : MsgTag := { rowTag s r .M (rowDpa r) with flow := 2 ^ 50 + flowKey r (rowDpa r) }
    if q.seg.kind = 0 then
      if q.need = 1 then
        postClock (putReq (ownStores s q q.elems) id { q with elems := [], left := 1 }) q.ex (nr + 24) tag (.memoryReply id)
      else
        let y := ownReads s q q.elems
        match y.2.2 with
        | some f => faultNow (dropReq y.1 id) r f
        | none => postClock (putReq y.1 id { q with elems := y.2.1, left := 1 }) q.ex (nr + 24) tag (.memoryReply id)
    else
      let s := putReq s id { q with left := q.groups.length }
      q.groups.foldl (fun s g =>
        let x := g.headD ({}, 0)
        let a := x.1.addr
        let last := ((g.getLast?.map fun y => y.1.lane).getD 0) / 1024
        let tag : MsgTag := { rowTag s r .M a with flow := 2 ^ 50 + flowKey r a }
        sendIn s (oneWay q.ex a + extra + last + 1) tag (.directAccess id x.2)) s

/-- What MST and MLD do with their plan (R191, R192, R295). -/
def bandAct (s : State) (id : Nat) (q : Req) (out : Bool) (res : PlanRes) : State :=
  match res with
  | .go es x hits => bandGo s id q es x hits out
  | .fault f => faultNow (dropReq s id) q.row f
  | .page va l => pageFault (dropReq s id) q.row va l q.need (majorAt s q.row)
  | .walk va => addWalk (putReq (if out then s else beginLong s q.row 2 12) id q) q.ex q.row q.part q.ctx va q.need (.access id)

/-- Issue MST (`wr`) or MLD of a format. -/
def bandIssue (s : State) (mem : XMem) (v : Word) (fmt : Nat) (wr clear : Bool) : State :=
  let r := s.clk.cur
  match bandOperand s r mem v (accRowBytes fmt) wr with
  | .error f => faultNow s r f
  | .ok (i0, nr, es) =>
    let id := s.clk.ids
    let q := { reqOf s (memSeg s mem) (if wr then 1 else 0) with
      path := .M, op := if wr then .write false else .read, elems := es, wait := true, whole := wr,
      dest := .acc fmt (i0 + 64 * nr + flag01 clear * 2 ^ 13) }
    bandAct (freshId s) id q false (planReq s q)

/-- MST (R295). -/
def execMst (o : MstX) (s : State) : Out :=
  let r := s.clk.cur
  let v := getS s r o.b.toNat
  .next (withUnit s r fun s => bandIssue s o.mem v (ofmtOf (unitAt s (exOf r))) true o.clear)

/-- MLD (R296). -/
def execMld (o : MldX) (s : State) : Out :=
  let r := s.clk.cur
  let v := getS s r o.b.toNat
  .next (withUnit s r fun s => bandIssue s o.mem v o.et.toNat false false)

/-- An accumulator as MLD takes it from memory (R296), and whether it sets INVALID (R27 for a signalling NaN). -/
def mldAcc (fmt v j : Nat) : Acc80 × Bool :=
  match fmt with
  | 0 =>
    let a := accOfNat (elemAt 80 v j)
    if (a.e = -32768 ∧ a.s ≠ 0 ∧ a.s ≠ 1 ∧ a.s ≠ -1) ∨ (a.e = -32767 ∧ a.s ≠ 0) then (accNan, true) else (a, false)
  | 0x03 => (⟨signedOf 32 (elemAt 32 v j), 0⟩, false)
  | _ => (accOfF32 (elemAt 32 v j), fvIsSnan (decodeFloat f32Fmt (elemAt 32 v j)))

/-- The rows that MLD's elements brought. -/
def mldRows (q : Req) (nr : Nat) : List Nat :=
  (List.range nr).map fun i =>
    q.elems.foldl (fun n e => if e.lane / 1024 = i then n + e.value * 2 ^ (8 * (e.lane % 1024)) else n) 0

/-- MST or MLD has moved its last piece: SRST is written back, or the accumulators are set; then the instruction completes. -/
def bandDone (s : State) (id : Nat) (q : Req) : State :=
  let r := q.row
  let s := dropReq s id
  if codeOf s r ≠ 4 ∧ codeOf s r ≠ 5 then s
  else match q.fault with
    | some f => faultLong s r f
    | none =>
      match q.dest with
      | .acc fmt band =>
        let i0 := band % 64
        let nr := band / 64 % 128
        if q.need = 1 then completeLong (if 2 ^ 32 ≤ q.status then setF s r fSrst q.status else s) r
        -- an MLD caught by a switch (R349) whose accumulators have been spilled meanwhile issues again (log 13)
        else if !holdsUnit s r then resumeRow s r
        else
          let rows := mldRows q nr
          let bad := rows.any fun v => (List.range 64).any fun j => (mldAcc fmt v j).2
          let s := updUnit s (exOf r) fun u =>
            let u := setAccs u fun i j => if i0 ≤ i ∧ i < i0 + nr then (mldAcc fmt (rows.getD (i - i0) 0) j).1 else accAt u i j
            mRaise u { invalid := bad }
          completeLong s r
      | _ => completeLong s r

/-! ### BSUM (R297) -/

/-- A cell name: its key 16·executor + cell and its peer; none when a reserved bit is set. -/
def cellName (own v : Nat) : Option (Nat × Nat) :=
  if bitsAt v 5 3 ≠ 0 ∨ bitsAt v 13 3 ≠ 0 ∨ bitsAt v 17 3 ≠ 0 ∨ bitsAt v 24 8 ≠ 0 ∨ bitsAt v 48 16 ≠ 0 then none
  else
    let x := bitsAt v 0 5
    let y := bitsAt v 8 5
    let ex := if bitAt v 16 then exAt (exX own + x) (exY own + y) else exAt x y
    some (16 * ex + bitsAt v 20 4, bitsAt v 32 16)

/-- Cycles from an executor to a cell (R297). -/
def cellWay (ex key : Nat) : Nat := 24 + 4 * hops ex (key / 16) + 60 * crossings ex (key / 16)

/-- Send a pair to a cell, or to a peer's (R297, R379). -/
def sendSum (s : State) (d c : Reg) (sum e : Int) : State :=
  let r := s.clk.cur
  let ex := exOf r
  match cellName ex (src s c) with
  | none => faultInstr s r cILLOP 0
  | some (key, peer) =>
    let id := s.clk.ids
    let way := if peer = 0 then cellWay ex key else 600
    let m : List Int := [key, sum, e, (partOf s r : Nat), (r : Nat), d.toNat, way, peer]
    let s := freshId { s with eng := { s.eng with bsums := tabSet s.eng.bsums id m } }
    let s := if d = 0 then s else beginLong s r 1 12
    let tag : MsgTag :=
      { rowTag s r .M (rowDpa r) with
        home := key / 16, flow := 2 ^ 55 + (if peer = 0 then r * 16384 + key else 2 ^ 50 + r) }
    let s := sendIn s way tag (.bsumArrival id)
    if d = 0 then finish s r 12 else s

/-- BSUM, sub 0 (R297). -/
def execBsum (d a b c : Reg) (s : State) : Out := .next (sendSum s d c (signedOf 64 (src s a)) (signedOf 16 (src s b)))

/-- BSUM, sub 1 (R297): accumulator (i, j). -/
def execBsumAcc (d a c : Reg) (s : State) : Out :=
  let r := s.clk.cur
  let v := src s a
  .next (withUnit s r fun s =>
    if v / 4096 ≠ 0 then faultInstr s r cILLOP 0
    else
      let x := accAt (unitAt s (exOf r)) (bitsAt v 6 6) (bitsAt v 0 6)
      sendSum s d c x.s x.e)

/-- A pair applied to a cell (R45, R297): overflow is recorded by the value only. What an empty cell holds after a pair that R43 would
leave there and R39 never produces is free among the pairs that are produced (log 31). -/
def cellApply (x : RedCell) (sum e : Int) : RedCell :=
  if e = -32767 ∧ sum ≠ 0 ∧ x.acc.e = -32767 then
    { x with acc := freePair sum, inexact := x.inexact || (Config.reservedPair sum).2.2 }
  else
    let c : Contrib := if e = -32768 then (if sum = 1 then .inf false else if sum = -1 then .inf true else .nan) else .fin sum e
    let y := accAdd x.acc c
    { x with acc := y.1, inexact := x.inexact || y.2.inexact }

/-- A pair reaches its cell or its peer (R297, R383): the status for the sender. -/
def sumArrives (s : State) (id : Nat) : State :=
  match tabGet s.eng.bsums id with
  | none => s
  | some m =>
    let get := fun i => (m.getD i 0).toNat
    let key := get 0
    let p := get 3
    let s := { s with eng := { s.eng with bsums := tabDel s.eng.bsums id } }
    let x :=
      if get 7 = 0 then
        match tabGet s.eng.cells key with
        | some c =>
          if c.part = p then
            ({ s with eng := { s.eng with cells := tabSet s.eng.cells key (cellApply c (m.getD 1 0) (m.getD 2 0)) } }, 0)
          else (s, 1)
        | none => (s, 1)
      else if !peerUsable s p (get 7) then
        (if regBits s (0x0C0010000000 + 0x10000 * p + 16 * get 7 + 8) 6 1 = 1 then regAdd s (0x0C0000600000 + 0x40 * p + 0x20) 1 else s, 1)
      else
        let s' := { s with clk := { s.clk with draws := s.clk.draws + 1 } }
        if Config.peerAccepts s.clk.draws then
          (sendPacket s' p true (get 7) 3 [key, lowBits 64 (m.getD 1 0), lowBits 16 (m.getD 2 0)], 0)
        else (s', 1)
    if get 8 ≠ 0 then sendPacket x.1 p true (get 8) 10 [x.2]
    else if get 5 = 0 then x.1 else answerRow x.1 (get 4) [⟨get 5, BitVec.ofNat 64 x.2⟩] (get 6)

/-- A pair arrives (R297). -/
def execBsumArrival (id : Nat) (s : State) : Out := .next (sumArrives s id)

/-! ### BRED (R298) -/

/-- BRED's results: S, and the word of E, INEXACT, claimed and outcome. -/
def bredWords (s : State) (d : Reg) (sum : Int) (e inexact claimed out : Nat) : Out :=
  let r := s.clk.cur
  let s := setS s r d.toNat (BitVec.ofInt 64 sum)
  .next (finish (setS s r (d.toNat + 1) (BitVec.ofNat 64 (e + inexact * 2 ^ 16 + claimed * 2 ^ 17 + out * 2 ^ 18))) r 12)

/-- What BRED gives of a cell. -/
def bredGive (s : State) (d : Reg) (c : RedCell) (claimed : Nat) : Out :=
  bredWords s d c.acc.s (lowBits 16 c.acc.e) (flag01 c.inexact) claimed 0

/-- BRED at a cell of the own executor (R298): `own` acts on a cell of the own partition, `fresh` on an unclaimed one. -/
def bredAt (s : State) (d a : Reg) (own : State → Nat → RedCell → Out) (fresh : State → Nat → Out) : Out :=
  let r := s.clk.cur
  let v := src s a
  if v / 16 ≠ 0 then .next (faultInstr s r cILLOP 0)
  else
    let key := 16 * exOf r + v
    match tabGet s.eng.cells key with
    | none => fresh s key
    | some c =>
      if c.part = partOf s r then own s key c
      else
        let w := Config.busyCell s.clk.draws
        bredWords { s with clk := { s.clk with draws := s.clk.draws + 1 } } d 0 (w % 2 ^ 16) (w / 2 ^ 16 % 2) 0 1

/-- Set a cell. -/
def setCell (s : State) (key : Nat) (c : RedCell) : State := { s with eng := { s.eng with cells := tabSet s.eng.cells key c } }

/-- An empty cell of the acting row's partition. -/
def emptyCell (s : State) : RedCell := { part := partOf s s.clk.cur, acc := accEmpty, inexact := false }

/-- BRED read. -/
def execBredRead (d a : Reg) (s : State) : Out :=
  bredAt s d a (fun s _ c => bredGive s d c 1) fun s _ => bredGive s d (emptyCell s) 0
/-- BRED clear: returns the cell, then empties it. -/
def execBredClear (d a : Reg) (s : State) : Out :=
  bredAt s d a (fun s k c => bredGive (setCell s k (emptyCell s)) d c 1) fun s _ => bredGive s d (emptyCell s) 0
/-- BRED claim. -/
def execBredClaim (d a : Reg) (s : State) : Out :=
  bredAt s d a (fun s k _ => bredGive (setCell s k (emptyCell s)) d (emptyCell s) 1) fun s k =>
    bredGive (setCell s k (emptyCell s)) d (emptyCell s) 1
/-- BRED release. -/
def execBredRelease (d a : Reg) (s : State) : Out :=
  bredAt s d a (fun s k _ => bredGive { s with eng := { s.eng with cells := tabDel s.eng.cells k } } d (emptyCell s) 0) fun s _ =>
    bredGive s d (emptyCell s) 0

end Sys2Proof.Machine
end

