-- ==== Sys2Proof/Machine/Rules.lean ====
section
/-!
DEFINITION. The rule engine (R299 to R312): tile headers, the step of a generation, tables and halo strips; the engine's queue;
GTBL, GEN and GHALO, and their events.
-/
namespace Sys2Proof.Machine

/-! ### Tile headers (R299 to R301) -/

/-- A tile's header as it stands, with the studio and the palette offset where it lies. -/
structure Tile where
  st : Nat
  at_ : Nat
  w : Nat
  h : Nat
  cb : Nat
  halo : Nat
  wrap : Bool
  cheq : Bool
  total : Bool
  vn : Bool
  data : Nat
  pitch : Nat
  table : Nat
  tlen : Nat
  gen : Nat
  ph : Nat
  plane : Nat
  vd : Nat
  hrecv : Nat
  nb : List Nat
  rsv : Bool
  deriving DecidableEq, Repr

/-- Read the header at palette offset `at_` of a studio. -/
def tileAt (s : State) (st at_ : Nat) : Tile :=
  let a := studioPalette st + at_
  let w0 := memNat s.mem a 8
  let w1 := memNat s.mem (a + 0x08) 8
  let w2 := memNat s.mem (a + 0x10) 8
  let w3 := memNat s.mem (a + 0x18) 8
  let nb := (List.range 8).map fun k => memNat s.mem (a + 0x20 + 4 * k) 4
  { st := st, at_ := at_, w := bitsAt w0 0 11, h := bitsAt w0 16 11, cb := bitsAt w0 32 2, halo := bitsAt w0 36 4, wrap := bitAt w0 40,
    cheq := bitAt w0 41, total := bitAt w0 42, vn := bitAt w0 43, data := bitsAt w1 0 23, pitch := bitsAt w1 32 16,
    table := bitsAt w2 0 23, tlen := bitsAt w2 32 11, gen := bitsAt w3 0 32, ph := bitsAt w3 32 1, plane := bitsAt w3 33 1,
    vd := bitsAt w3 34 4, hrecv := bitsAt w3 40 8, nb := nb,
    rsv := bitsAt w0 11 5 != 0 || bitsAt w0 27 5 != 0 || bitsAt w0 34 2 != 0 || bitsAt w0 44 20 != 0 || bitsAt w1 23 9 != 0 ||
      bitsAt w1 48 16 != 0 || bitsAt w2 23 9 != 0 || bitsAt w2 43 21 != 0 || bitsAt w3 38 2 != 0 || bitsAt w3 48 16 != 0 ||
      nb.any fun n => bitsAt n 26 6 != 0 }

/-- Cell bits. -/
def Tile.bits (t : Tile) : Nat := 2 ^ t.cb
/-- Neighbours counted. -/
def Tile.nbs (t : Tile) : Nat := if t.vn then 4 else 8
/-- Stored rows. -/
def Tile.rows (t : Tile) : Nat := t.h + 2 * t.halo
/-- Whether the halo depth rules the steps (R306). -/
def Tile.haloed (t : Tile) : Bool := t.halo != 0 && !t.wrap
/-- Table entries (R303). -/
def Tile.entries (t : Tile) : Nat :=
  if t.total then 2 ^ t.bits * (t.nbs * (2 ^ t.bits - 1) + 1) else 2 ^ (t.bits * (1 + t.nbs))
/-- Bytes of the table. -/
def Tile.tableBytes (t : Tile) : Nat := (t.entries * t.bits + 7) / 8
/-- Bytes of the planes. -/
def Tile.planeBytes (t : Tile) : Nat := (if t.cheq then 1 else 2) * t.pitch * t.rows
/-- Whether neighbour `k` exists. -/
def Tile.present (t : Tile) (k : Nat) : Bool := bitAt (t.nb.getD k 0) 25
/-- Palette DPA of neighbour `k`'s header. -/
def Tile.nbAt (t : Tile) (k : Nat) : Nat := studioPalette (bitsAt (t.nb.getD k 0) 17 8) + 64 * bitsAt (t.nb.getD k 0) 0 17

/-- Whether a header is malformed (R301). -/
def Tile.bad (t : Tile) : Bool :=
  t.rsv || t.cb == 3 || t.w == 0 || decide (1024 < t.w) || t.h == 0 || decide (1024 < t.h) || decide (8 < t.halo) ||
  decide (t.w < t.halo) || decide (t.h < t.halo) || (t.wrap && (t.halo != 0 || t.nb.any (· != 0))) ||
  (t.cheq && (t.w % 2 == 1 || t.h % 2 == 1)) || decide (t.pitch < ((t.w + 2 * t.halo) * t.bits + 7) / 8) || t.pitch % 16 != 0 ||
  (!t.total && decide (10 < t.bits * (1 + t.nbs))) || t.data % 64 != 0 || t.table % 64 != 0

/-- Whether every bank of a palette range is the partition's. -/
def banksOwned (s : State) (p a n : Nat) : Bool :=
  (List.range ((a + n - 1) / 2 ^ 18 + 1 - a / 2 ^ 18)).all fun i => bitAt (bankSet s p) (a / 2 ^ 18 + i)

/-- The checks of a header for partition `p` (R301). -/
def tileCheck (s : State) (r p : Nat) (t : Tile) : Option FaultRec :=
  if t.bad then some (instrFault s r cILLOP 0)
  else if 2 ^ 23 < t.data + t.planeBytes ∨ 2 ^ 23 < t.table + t.tableBytes then some ⟨cSEG, 0x03, t.at_, 5⟩
  else if !banksOwned s p t.data t.planeBytes || !banksOwned s p t.table t.tableBytes then some ⟨cRIGHTS, 0x11, t.at_, 5⟩
  else none

/-- The checks of S[a] (Instructions of the rule engine), then of its header. -/
def headerCheck (s : State) (r : Nat) (v : Nat) : Except FaultRec Tile :=
  if v / 2 ^ 23 ≠ 0 then .error (instrFault s r cILLOP 0)
  else if v % 64 ≠ 0 then .error ⟨cALIGN, 0, v, 5⟩
  else if !bitAt (bankSet s (partOf s r)) (v / 2 ^ 18) then .error ⟨cRIGHTS, 0x11, v, 5⟩
  else
    let t := tileAt s (studioOf (exOf r)) v
    match tileCheck s r (partOf s r) t with
    | some f => .error f
    | none => .ok t

/-- The lines that an engine reads for a row: their errors are met (R388), and poison among them is consumed (R389). The fault names the
poisoned line (R335): its palette offset in the row's own studio, and its DPA elsewhere. -/
def rulePoison (s : State) (r : Nat) (ranges : List (Nat × Nat)) : State × Option FaultRec :=
  ranges.foldl (fun x g =>
    if g.2 = 0 then x
    else
      let s := meetLines x.1 g.1 g.2
      let l := (poisonedLine s g.1 g.2).getD 0
      let y := consumePoison s (partOf s r) (ctxOf s r) g.1 g.2
      let own := (64 * l - paletteBase) / 0x800000 == studioOf (exOf r)
      (y.1, match x.2, y.2 with
        | some f, _ => some f
        | none, some (c, d) => some (if own then ⟨c, d, (64 * l - paletteBase) % 0x800000, 5⟩ else ⟨c, d, 64 * l, 2⟩)
        | none, none => none)) (s, none)

/-- The header at S[a] is read and checked for a row (R301, R389); when its poison ends the row's own context, the row runs no more. -/
def readHeader (s : State) (r v : Nat) : State × Except FaultRec Tile :=
  if v / 2 ^ 23 ≠ 0 ∨ v % 64 ≠ 0 ∨ !bitAt (bankSet s (partOf s r)) (v / 2 ^ 18) then (s, headerCheck s r v)
  else
    let x := rulePoison s r [(studioPalette (studioOf (exOf r)) + v, 64)]
    match x.2 with
    | some f => (x.1, .error f)
    | none => (x.1, headerCheck x.1 r v)

/-- DPA ranges an operation on the tile keeps to itself (R308). -/
def Tile.ranges (t : Tile) : List (Nat × Nat) :=
  let p := studioPalette t.st
  [(p + t.at_, 64), (p + t.data, t.planeBytes), (p + t.table, t.tableBytes)]

/-- Write the header's word 0x18. -/
def setGenWord (s : State) (p c : Nat) (t : Tile) : State :=
  let v := t.gen % 2 ^ 32 + t.ph * 2 ^ 32 + t.plane * 2 ^ 33 + t.vd * 2 ^ 34 + t.hrecv * 2 ^ 40
  writeHome s (studioPalette t.st + t.at_ + 0x18) (bytesOf 8 v) false p c

/-! ### Cells (R300, R303 to R305) -/

/-- The vector of direction `k` (R299). -/
def dirVec (k : Nat) : Int × Int :=
  match k with
  | 0 => (0, -1) | 1 => (1, -1) | 2 => (1, 0) | 3 => (1, 1) | 4 => (0, 1) | 5 => (-1, 1) | 6 => (-1, 0) | _ => (-1, -1)

/-- The DPA of stored row `j` of plane `pl`. -/
def Tile.rowAt (t : Tile) (pl j : Nat) : Nat := studioPalette t.st + t.data + pl * t.pitch * t.rows + j * t.pitch

/-- The code at stored column `i`, row `j` of a plane (R300). -/
def storedCell (s : State) (t : Tile) (pl i j : Nat) : Nat :=
  bitsAt (memNat s.mem (t.rowAt pl j + i * t.bits / 8) 1) (i * t.bits % 8) t.bits

/-- The code at interior or halo place (x, y) of a plane; places outside the stored halo are free (log 33). -/
def placeCell (s : State) (t : Tile) (pl : Nat) (x y : Int) : Nat :=
  let h : Int := t.halo
  if t.wrap then storedCell s t pl (x % (t.w : Int)).toNat (y % (t.h : Int)).toNat
  else if x + h < 0 ∨ (t.w : Int) + h ≤ x ∨ y + h < 0 ∨ (t.h : Int) + h ≤ y then
    (if t.halo = 0 then 0 else Config.strayCell x y % 2 ^ t.bits)
  else storedCell s t pl (x + h).toNat (y + h).toNat

/-- A cell's new code (R303). -/
def newCell (s : State) (t : Tile) (pl : Nat) (x y : Int) : Nat :=
  let dirs := if t.vn then [0, 2, 4, 6] else List.range 8
  let o := placeCell s t pl x y
  let cs := dirs.map fun k => placeCell s t pl (x + (dirVec k).1) (y + (dirVec k).2)
  let i := if t.total then o * (t.nbs * (2 ^ t.bits - 1) + 1) + cs.foldl (· + ·) 0 else o + 2 ^ t.bits * packElems t.bits cs
  bitsAt (memNat s.mem (studioPalette t.st + t.table + i * t.bits / 8) 1) (i * t.bits % 8) t.bits

/-- The sign of an overshoot beyond `0 .. n-1`. -/
def overshoot (x : Int) (n : Nat) : Int := if x < 0 then -1 else if (n : Int) ≤ x then 1 else 0

/-- How far beyond `0 .. n-1`. -/
def beyond (x : Int) (n : Nat) : Int := if x < 0 then -x else if (n : Int) ≤ x then x - n + 1 else 0

/-- Whether a step updates the cell (x, y) (R304). -/
def updates (t : Tile) (x y : Int) : Bool :=
  let d := if beyond x t.w < beyond y t.h then beyond y t.h else beyond x t.w
  let deep := if t.haloed then decide (d ≤ (t.vd : Int) - 1) else d == 0
  let near := d == 0 || (List.range 8).any fun k => dirVec k == (overshoot x t.w, overshoot y t.h) && t.present k
  let colour := !t.cheq || (x + y) % 2 == (t.ph : Int)
  deep && near && colour

/-- The stored rows of a synchronous step (R304). -/
def halfRows (t : Tile) : List Nat :=
  let m := t.halo + t.h / 2
  if t.ph = 0 then List.range m else (List.range (t.rows - m)).map (m + ·)

/-- The stored columns of row `j` that the step updates. -/
def rowUpdates (t : Tile) (j : Nat) : List Nat :=
  (List.range (t.w + 2 * t.halo)).filter fun i => updates t ((i : Int) - t.halo) ((j : Int) - t.halo)

/-- The stored rows a step writes (R307). -/
def stepRows (t : Tile) : List Nat := if t.cheq then (List.range t.rows).filter fun j => !(rowUpdates t j).isEmpty else halfRows t

/-- L of a step (R307). -/
def stepLines (t : Tile) : Nat := ((stepRows t).length * t.pitch + 63) / 64

/-- Stored row `j` after the step (R305). -/
def newRow (s : State) (t : Tile) (j : Nat) : Nat :=
  let pl := if t.cheq then 0 else t.plane
  (rowUpdates t j).foldl (fun v i => setElem t.bits v i (newCell s t pl ((i : Int) - t.halo) ((j : Int) - t.halo)))
    (memNat s.mem (t.rowAt pl j) t.pitch)

/-- The header's count after a step (R304 to R306). -/
def Tile.after (t : Tile) : Tile :=
  let full := t.ph = 1
  { t with
    ph := 1 - t.ph
    gen := if full then (t.gen + 1) % 2 ^ 32 else t.gen
    plane := if full ∧ !t.cheq then 1 - t.plane else t.plane
    vd := if t.haloed ∧ (t.cheq ∨ full) then t.vd - 1 else t.vd }

/-- Make one step (R304, R305): every row from the planes as they stood at its start. -/
def makeStep (s : State) (p c : Nat) (t : Tile) : State :=
  let pl := if t.cheq then 0 else 1 - t.plane
  let rows := (stepRows t).map fun j => (j, newRow s t j)
  let s := rows.foldl (fun s x => writeHome s (t.rowAt pl x.1) (bytesOf t.pitch x.2) false p c) s
  setGenWord s p c t.after

/-- The halo check at a step's start (R306). -/
def haloCheck (t : Tile) : Tile :=
  if t.haloed ∧ t.ph = 0 ∧ (List.range 8).all fun k => !t.present k || bitAt t.hrecv k then { t with vd := t.halo, hrecv := 0 } else t

/-! ### The engine (R307, R308) -/

/-- An idle engine. -/
def ruleIdle : RuleEng := { busy := false, left := 0, ranges := [], queue := [] }
/-- A studio's engine. -/
def ruleOf (s : State) (st : Nat) : RuleEng := tabGetD s.eng.rules st ruleIdle
/-- Change a studio's engine; an idle engine is not listed. -/
def updRule (s : State) (st : Nat) (f : RuleEng → RuleEng) : State :=
  let e := f (ruleOf s st)
  { s with eng := { s.eng with rules := if e = ruleIdle then tabDel s.eng.rules st else tabSet s.eng.rules st e } }
/-- A request enters the queue. -/
def askRule (s : State) (st : Nat) (q : RuleReq) : State := updRule s st fun e => { e with queue := e.queue ++ [q] }
/-- Drop the request at the head; the engine works on nothing. -/
def dropRule (s : State) (st : Nat) : State :=
  updRule s st fun e => { e with queue := e.queue.drop 1, busy := false, left := 0, plan := [] }

/-! ### What an operation holds (R308) -/

/-- The tile at the header that a strip is for. -/
def stripTile (s : State) (x : Strip) : Tile := tileAt s ((x.dst - paletteBase) / 0x800000) ((x.dst - paletteBase) % 0x800000)

/-- Whether the application of a strip would touch ranges that an engine keeps: the header and planes of its tile. -/
def stripMeets (s : State) (x : Strip) (ranges : List (Nat × Nat)) : Bool :=
  (((stripTile s x).ranges.take 2).any fun g => ranges.any fun h => spans g.1 g.2 h.1 h.2)

/-- A strip as an event that an engine holds. -/
def stripEv (s : State) (x : Strip) : Timed :=
  ⟨s.clk.now, 0, { row := x.row, part := partOf s x.row, ctx := ctxOf s x.row, path := .G }, .haloStrip x.id⟩

/-- Change a strip. -/
def updStrip (s : State) (id : Nat) (f : Strip → Strip) : State :=
  { s with eng := { s.eng with strips := s.eng.strips.map fun x => if x.id = id then f x else x } }

/-- An operation keeps a strip of another tile that would touch its ranges. -/
def holdStrip (s : State) (st : Nat) (x : Strip) : State :=
  updStrip (updRule s st fun e => { e with held := e.held ++ [.event (stripEv s x)] }) x.id fun x => { x with held := true }

/-- The strips in a studio's queue that would touch ranges. -/
def queuedStrips (s : State) (st : Nat) (ranges : List (Nat × Nat)) : List Strip :=
  ((ruleOf s st).queue.drop 1).filterMap fun q =>
    if q.kind = 2 then (s.eng.strips.find? fun x => x.id == q.id && stripMeets s x ranges) else none

/-- Begin the operation of the request at the head of the queue on ranges, with the banks that it claims in each of its cycles; strips that
wait in the queue and would touch its ranges are held from here on (R308). -/
def beginRule (s : State) (st : Nat) (plan : List (List Nat)) (ranges : List (Nat × Nat)) : State :=
  let mine := queuedStrips s st ranges
  let s := updRule s st fun e =>
    { e with busy := true, left := plan.length, plan := plan, ranges := ranges ++ (if e.held.isEmpty then [] else e.guard),
             queue := e.queue.take 1 ++ (e.queue.drop 1).filter fun q => !(q.kind == 2 && mine.any fun x => x.id == q.id) }
  mine.foldl (fun s x => holdStrip s st x) s

/-- Whether something held must win a bank before it acts (R259, R270): a piece of a copy, or a matrix unit's line. -/
def RuleHeld.claims (h : RuleHeld) : Bool :=
  match h with
  | .line _ _ => true
  | .event t =>
    match t.ev with
    | .copyPieceRead _ => true
    | .copyPieceWrite _ => true
    | _ => false

/-- Whether something held is a strip, which is an operation of its own. -/
def RuleHeld.strip (h : RuleHeld) : Bool :=
  match h with
  | .event t =>
    (match t.ev with
     | .haloStrip _ => true
     | _ => false)
  | .line _ _ => false

/-- Its event, when it has one, is next among what is due. -/
def repostHeld (s : State) (h : RuleHeld) : State :=
  match h with
  | .event t => repost s t
  | .line _ _ => s

/-- What an operation held is applied in arrival order (R308): accesses at once; a piece of a copy or a matrix unit's line when it has won
its bank, and what came after it waits; a strip as the next operation. Until all is done the ranges of the operation stay guarded, and an event
that follows what is applied now sets the guard again. -/
def drainRule (s : State) (st : Nat) : State :=
  let e := ruleOf s st
  let pre := e.held.takeWhile fun h => !h.claims && !h.strip
  let rest := e.held.drop pre.length
  match rest with
  | [] => pre.foldl repostHeld (updRule s st fun e => { e with ranges := [], guard := [], held := [] })
  | h :: more =>
    let now := if h.strip then pre ++ [h] else pre
    if now.isEmpty then updRule s st fun e => { e with ranges := e.guard }
    else
      let s := now.foldl repostHeld (updRule s st fun e => { e with ranges := [], held := if h.strip then more else rest })
      repost s ⟨s.clk.now, 0, { path := .G }, .gtblOperation st⟩

/-- An operation ends (R308): the engine keeps nothing more to itself, and what it held is applied before anything else starts. -/
def endRule (s : State) (st : Nat) : State :=
  drainRule (updRule s st fun e => { e with busy := false, left := 0, plan := [], guard := e.ranges }) st

/-- Whether something held whose turn it is can still act: a unit may have dropped its step, and a copy may have come to wait for
something else. -/
def heldLives (s : State) (h : RuleHeld) : Bool :=
  match h with
  | .line ex l => ((tabGet s.eng.mma ex).map fun run => run.want.contains l).getD false
  | .event t =>
    match t.ev with
    | .copyPieceRead id => ((copyOf s id).map fun c => c.gate == 2 && pieceReady s { c with gate := 0 }).getD false
    | .copyPieceWrite id => ((copyOf s id).map fun c => c.writeHeld && !c.fly.isEmpty &&
        (!cpyPot c || !potActive s c.dseg.1 || (potReserve s c.dseg.1).isSome)).getD false
    | _ => true

/-- A copy whose held piece is passed over goes on by itself. -/
def skipHeld (s : State) (h : RuleHeld) : State :=
  match h with
  | .line _ _ => s
  | .event t =>
    match t.ev with
    | .copyPieceRead id => updCopy s id fun c => { c with gate := if c.gate = 2 then 0 else c.gate }
    | .copyPieceWrite id => updCopy s id fun c => { c with writeHeld := c.writeHeld && c.state == 5 }
    | _ => s

/-- The turn among what a free engine holds passes on, over whatever can no longer act. -/
def passTurn (s : State) (st : Nat) : State :=
  let e := ruleOf s st
  if e.busy ∨ e.held.isEmpty then s
  else
    let dead := e.held.takeWhile fun h => h.claims && !heldLives s h
    if dead.isEmpty then s
    else drainRule (dead.foldl skipHeld (updRule s st fun e => { e with held := e.held.drop dead.length })) st

/-- What had its turn has acted. -/
def turnTaken (s : State) (st : Nat) (ev : Instr) : State :=
  if ruleTurn s st ev then drainRule (updRule s st fun e => { e with held := e.held.drop 1 }) st else s

/-! ### What an operation claims (R307, R111)

The manual gives an operation's cycles and says that every line read or written claims its bank for one cycle; it does not say in which
cycle which line is touched. The model reads the lines evenly over the operation, writes one line in each of the cycles that L counts,
and lets one claim of a bank serve the read and the write of a cycle. The header's line is read in the first cycle and written in the last
(log 2). -/

/-- The bank of a palette DPA at a studio, as 32·studio + bank. -/
def bankAt (st a : Nat) : Nat := 32 * st + (a - studioPalette st) / 2 ^ 18

/-- The banks of the lines of `n` bytes at `a`, in order. -/
def lineBanks (st a n : Nat) : List Nat := (linePieces a n).map fun x => bankAt st (a + x.1)

/-- A plan of `n` cycles: reads spread evenly, one write in each of the last cycles. -/
def claimPlan (n : Nat) (reads writes : List Nat) : List (List Nat) :=
  (List.range n).map fun i =>
    let lo := i * reads.length / n
    let hi := (i + 1) * reads.length / n
    let w := if n ≤ i + writes.length then [writes.getD (i + writes.length - n) 0] else []
    ((reads.drop lo).take (hi - lo) ++ w).eraseDups

/-- A plan whose first and last cycles also claim the header's bank. -/
def headerPlan (bank : Nat) (plan : List (List Nat)) : List (List Nat) :=
  if plan.isEmpty then [[bank]]
  else plan.zipIdx.map fun x => if x.2 = 0 ∨ x.2 + 1 = plan.length then (bank :: x.1).eraseDups else x.1

/-- The bank of a tile's header. -/
def Tile.bank (t : Tile) : Nat := bankAt t.st (studioPalette t.st + t.at_)

/-- The rows of its plane that a step reads: those it writes and their neighbours. -/
def readRows (t : Tile) : List Nat :=
  let js := stepRows t
  let lo := js.headD 0
  let hi := js.getLastD 0
  let span := (List.range (min (hi + 2) t.rows - (lo - 1))).map (lo - 1 + ·)
  if t.wrap then (if lo = 0 ∧ hi + 1 < t.rows then [t.rows - 1] else []) ++ span ++ (if hi + 1 = t.rows ∧ 0 < lo then [0] else []) else span

/-- The claims of a step (R307). -/
def stepPlan (t : Tile) : List (List Nat) :=
  let pl := if t.cheq then 0 else t.plane
  let dst := if t.cheq then 0 else 1 - t.plane
  let reads := lineBanks t.st (studioPalette t.st + t.table) t.tableBytes ++
    (readRows t).flatMap fun (j : Nat) => lineBanks t.st (t.rowAt pl j) t.pitch
  let first := t.rowAt dst ((stepRows t).headD 0)
  headerPlan t.bank (claimPlan (16 + stepLines t) reads ((List.range (stepLines t)).map fun i => bankAt t.st (first + 64 * i)))

/-- What GEN finds at the top of its loop (R311): the end of the instruction with a status, a fault, or a step to make. -/
inductive GenVerdict where
  | ends (t : Tile) (status : Nat)
  | fault (f : FaultRec)
  | step (t : Tile)
  deriving DecidableEq, Repr

/-- The top of GEN's loop (R311). -/
def genVerdict (s : State) (r : Nat) (a b : Reg) (sub : BitVec 3) (imm : BitVec 32) : GenVerdict :=
  match headerCheck s r (getS s r a.toNat).toNat with
  | .error f => .fault f
  | .ok t =>
    let target := if sub = 1 then imm.toNat else (getS s r b.toNat).toNat % 2 ^ 32
    if target ≤ t.gen ∧ t.ph = 0 then .ends t 0
    else
      let t := haloCheck t
      if t.haloed ∧ t.vd = 0 then .ends t 1
      else if t.tlen ≠ t.entries then .ends t 2
      else .step t

/-- GEN ends with a status (R311). -/
def genEnds (s : State) (r d status : Nat) : State := endLong s r [d] fun s => setS s r d (BitVec.ofNat 64 status)

/-! ### Halo strips (R312) -/

/-- Whether interior cell (x, y) belongs to the strip of direction `k`. -/
def inStrip (t : Tile) (k x y : Nat) : Bool :=
  (match (dirVec k).1 with
   | 1 => decide (t.w ≤ x + t.halo)
   | 0 => true
   | _ => decide (x < t.halo)) &&
  (match (dirVec k).2 with
   | 1 => decide (t.h ≤ y + t.halo)
   | 0 => true
   | _ => decide (y < t.halo))

/-- The cells of the strip, placed in the neighbour's stored rows. -/
def stripCells (s : State) (t : Tile) (k : Nat) : List (Nat × Nat × Nat) :=
  let pl := if t.cheq then 0 else t.plane
  (List.range t.h).flatMap fun y => (List.range t.w).filterMap fun x =>
    if inStrip t k x y then
      some (((x : Int) - t.w * (dirVec k).1 + t.halo).toNat, ((y : Int) - t.h * (dirVec k).2 + t.halo).toNat,
        storedCell s t pl (x + t.halo) (y + t.halo))
    else none

/-- The first interior row of a strip and the number of its rows; the strips of a tile without a halo are empty. -/
def stripRows (t : Tile) (k : Nat) : Nat × Nat :=
  if t.halo = 0 then (0, 0)
  else match (dirVec k).2 with
    | 0 => (0, t.h)
    | 1 => (t.h - t.halo, t.halo)
    | _ => (0, t.halo)

/-- Lines of a strip (R312). -/
def stripLines (t : Tile) (k : Nat) : Nat := ((stripRows t k).2 * t.pitch + 63) / 64

/-- The banks of a strip's lines at the source. -/
def stripBanks (t : Tile) (k : Nat) : List Nat :=
  let first := t.rowAt (if t.cheq then 0 else t.plane) ((stripRows t k).1 + t.halo)
  (List.range (stripLines t k)).map fun i => bankAt t.st (first + 64 * i)

/-- The neighbour's header as a strip of partition `p` finds it: none when it may not be sent to. -/
def neighbour (s : State) (r p : Nat) (t : Tile) (k : Nat) : Option Tile :=
  let n := tileAt s (bitsAt (t.nb.getD k 0) 17 8) (64 * bitsAt (t.nb.getD k 0) 0 17)
  if (tileCheck s r p n).isSome ∨ n.w ≠ t.w ∨ n.h ≠ t.h ∨ n.cb ≠ t.cb ∨ n.halo ≠ t.halo then none else some n

/-- The checks of the present neighbours' banks (R312). -/
def haloBanks (s : State) (r : Nat) (t : Tile) : Option FaultRec :=
  (List.range 8).findSome? fun k =>
    if t.present k ∧ !bitAt (bankSet s (partOf s r)) (64 * bitsAt (t.nb.getD k 0) 0 17 / 2 ^ 18) then
      some ⟨cRIGHTS, 0x11, t.nbAt k, 2⟩
    else none

/-- Write one cell of a stored row. -/
def putCell (p c : Nat) (t : Tile) (pl : Nat) (s : State) (x : Nat × Nat × Nat) : State :=
  let a := t.rowAt pl x.2.1 + x.1 * t.bits / 8
  writeHome s a (bytesOf 1 (setBits (memNat s.mem a 1) (x.1 * t.bits % 8) t.bits x.2.2)) false p c

/-- Whether a strip is written where its neighbour's header stands as it does now (R312). -/
def stripFits (s : State) (x : Strip) : Bool :=
  let n := stripTile s x
  (tileCheck s x.row (partOf s x.row) n).isNone && (x.cells.all fun c => decide (c.1 < n.w + 2 * n.halo) && decide (c.2.1 < n.rows)) &&
    n.ph == 0 && n.gen == x.gen

/-- The claims of a strip's application: a line in each cycle that GHALO counts for it, and the neighbour's header (R307, R312). -/
def applyPlan (s : State) (x : Strip) : List (List Nat) :=
  let n := stripTile s x
  let first := n.rowAt (if n.cheq then 0 else n.plane) ((x.cells.map fun c => c.2.1).foldl min n.rows)
  headerPlan n.bank ((List.range x.lines).map fun i => if stripFits s x then [bankAt n.st (first + 64 * i)] else [])

/-- The application of the strip at the head of its studio's queue begins (R308, R312). -/
def beginStrip (s : State) (st : Nat) (x : Strip) : State := beginRule s st (applyPlan s x) (stripTile s x).ranges

/-- A strip's outcome goes back (R312). -/
def answerStrip (s : State) (x : Strip) (ok : Bool) : State :=
  let r := x.row
  let s := updStrip s x.id fun x => { x with back := true, gen := flag01 ok, cells := [] }
  sendIn s (oneWay (exOf r) x.dst) { row := r, part := partOf s r, ctx := ctxOf s r, path := .G, home := exOf r } (.haloStrip x.id)

/-- Drop a GHALO and its strips. -/
def dropHalo (s : State) (id : Nat) : State :=
  { s with eng := { s.eng with halos := s.eng.halos.filter fun h => h.id != id, strips := s.eng.strips.filter fun x => x.halo != id } }

/-- The application of a strip ends: it is written at its neighbour or discarded (R312). A poisoned header is consumed (R389). -/
def applyStrip (s : State) (st : Nat) (x : Strip) : State :=
  let r := x.row
  let y := rulePoison s r [(x.dst, 64)]
  match y.2 with
  | some f =>
    let s := dropHalo (dropRule (endRule y.1 st) st) x.halo
    if codeOf s r = 4 ∨ codeOf s r = 5 then faultLong s r f else s
  | none =>
    let s := y.1
    let n := stripTile s x
    let p := partOf s r
    let ok := stripFits s x
    let s :=
      if !ok then s
      else
        let s := x.cells.foldl (putCell p (ctxOf s r) n (if n.cheq then 0 else n.plane)) s
        chargeStop (setGenWord s p (ctxOf s r) { n with hrecv := n.hrecv ||| 2 ^ ((x.dir + 4) % 8) }) r x.lines
    answerStrip (dropRule (endRule s st) st) x ok

/-- The lines that GHALO reads for its strips, by their ranges (R312). -/
def stripReads (t : Tile) (k : Nat) : Nat × Nat :=
  (t.rowAt (if t.cheq then 0 else t.plane) ((stripRows t k).1 + t.halo), (stripRows t k).2 * t.pitch)

/-- The directions whose neighbour GHALO looks at: a source with PH = 1 sends nothing (R312). -/
def looksAt (t : Tile) : List Nat := if t.ph = 0 then (List.range 8).filter t.present else []

/-- The directions in which GHALO sends (R312). -/
def sendsTo (s : State) (r : Nat) (t : Tile) : List Nat := (looksAt t).filter fun k => (neighbour s r (partOf s r) t k).isSome

/-- What GHALO reads: the headers of its neighbours, and the lines of its strips (R312, R389). -/
def haloReads (s : State) (r : Nat) (t : Tile) : List (Nat × Nat) :=
  ((looksAt t).map fun k => (t.nbAt k, 64)) ++ (sendsTo s r t).map fun k => stripReads t k

/-- GHALO's strips are read from its tile as it stands (R312): what is sent, and the strips not sent. -/
def makeStrips (s : State) (h : HaloRun) (t : Tile) : State :=
  let send := sendsTo s h.row t
  let no := ((List.range 8).filter t.present).filter fun k => !send.contains k
  let s1 := send.foldl (fun s k =>
    let x : Strip := { id := s.clk.ids, halo := h.id, row := h.row, dir := k, dst := t.nbAt k, gen := t.gen, lines := stripLines t k, back := false,
                       cells := stripCells s t k, leave := ((send.dropWhile (· != k)).map (stripLines t)).foldl (· + ·) 0 }
    freshId { s with eng := { s.eng with strips := s.eng.strips ++ [x] } }) s
  let h' := { h with left := send.length, word := no.foldl (fun n k => n + 2 ^ (16 + k)) 0 }
  { s1 with eng := { s1.eng with halos := s1.eng.halos.map fun x => if x.id = h.id then h' else x } }

/-- The claims of GHALO's sending: its own header and its neighbours' in the first cycle, a line of its strips in each (R307, R312). -/
def haloPlan (s : State) (r : Nat) (t : Tile) : List (List Nat) :=
  let heads := (t.bank :: (looksAt t).map fun k =>
    bankAt (bitsAt (t.nb.getD k 0) 17 8) (t.nbAt k)).eraseDups
  match (sendsTo s r t).flatMap fun k => stripBanks t k with
  | [] => if (looksAt t).isEmpty then [] else [heads]
  | b :: bs => (b :: heads).eraseDups :: bs.map fun q => [q]

/-- A GHALO completes when no strip is out, and at the earliest the way to its farthest neighbour and back after it has read its last
line (R312). -/
def haloDone (s : State) (id : Nat) : State :=
  match s.eng.halos.find? fun h => h.id == id with
  | none => s
  | some h =>
    match h.due with
    | none => s
    | some n =>
      if h.left ≠ 0 then s
      else if s.clk.now < n then postIn s (n - s.clk.now) { row := h.row, path := .G } (.haloStrip id)
      else
        let s := dropHalo s id
        if codeOf s h.row = 4 ∨ codeOf s h.row = 5 then endLong s h.row [h.d] fun s => setS s h.row h.d (BitVec.ofNat 64 h.word) else s

/-- GHALO has read its last line: what is left to go goes. -/
def haloRead (s : State) (h : HaloRun) : State :=
  let far := (s.eng.strips.filter fun x => x.halo == h.id).foldl (fun n x => max n (2 * oneWay (exOf h.row) x.dst)) 0
  haloDone { s with eng := { s.eng with halos := s.eng.halos.map fun y => if y.id = h.id then { y with due := some (s.clk.now + far) } else y } } h.id

/-- Strips of a GHALO leave as their reading begins, `n` cycles before the reading of all of them ends, so that their lines are on their way
while they are read (R312). -/
def sendStrips (s : State) (h : HaloRun) (n d : Nat) : State :=
  (s.eng.strips.filter fun x => x.halo == h.id && !x.sent && x.leave == n).foldl (fun s x =>
    let tag : MsgTag := { rowTag s h.row .G x.dst with flow := 2 ^ 58 + h.row * 1024 + addrHome x.dst }
    sendIn (updStrip s x.id fun x => { x with sent := true }) (d + oneWay (exOf h.row) x.dst) tag (.haloStrip x.id)) s

/-- A GEN whose turn has come (R307, R311): a step begins, or what ends the instruction has been found; the header that says so is read in a
cycle of its own, but for the one that the GEN's own step has just left. -/
def turnGen (s : State) (st r : Nat) (q : RuleReq) (a b : Reg) (sub : BitVec 3) (imm : BitVec 32) : State :=
  match readHeader s r (getS s r a.toNat).toNat with
  | (s, .error f) => if codeOf s r = 4 ∨ codeOf s r = 5 then faultLong (dropRule s st) r f else dropRule s st
  | (s, .ok t) =>
    if codeOf s r ≠ 4 then dropRule s st
    else match genVerdict s r a b sub imm with
      | .fault f => faultLong (dropRule s st) r f
      | .ends t' v =>
        (match q.instr with
         | some (.gen d _ _ _ _) =>
           if q.step ≠ 0 ∧ q.readyAt = s.clk.now ∧ t' = t then genEnds (dropRule s st) r d.toNat v
           else beginRule s st [[t.bank]] [((studioPalette st + t.at_), 64)]
         | _ => dropRule s st)
      | .step _ =>
        let x := rulePoison s r t.ranges
        match x.2 with
        | some f => faultLong (dropRule x.1 st) r f
        | none => if codeOf x.1 r ≠ 4 then dropRule x.1 st else beginRule x.1 st (stepPlan t) t.ranges

/-- A GHALO whose turn has come (R307, R312). -/
def turnHalo (s : State) (st : Nat) (h : HaloRun) : State :=
  let r := h.row
  let stop := fun (s : State) (f : FaultRec) =>
    let s := dropHalo (dropRule s st) h.id
    if codeOf s r = 4 ∨ codeOf s r = 5 then faultLong s r f else s
  match readHeader s r h.hdr with
  | (s, .error f) => stop s f
  | (s, .ok t) =>
    let x := rulePoison s r (haloReads s r t)
    match x.2 with
    | some f => stop x.1 f
    | none =>
      if codeOf x.1 r ≠ 4 ∧ codeOf x.1 r ≠ 5 then dropHalo (dropRule x.1 st) h.id
      else
        let s := makeStrips x.1 h t
        let plan := haloPlan s r t
        if plan.isEmpty then haloRead (dropRule s st) h
        else sendStrips (beginRule s st plan []) h plan.length 0

/-- A GTBL whose source has been read (R307, R310). -/
def turnTable (s : State) (st : Nat) (q : RuleReq) : State :=
  match tabGet s.ms.reqs q.id with
  | some x =>
    (match x.dest with
     | .table _ hdr tab n _ =>
       let t := tileAt s st hdr
       let banks := (List.range ((n + 63) / 64)).map fun i => bankAt st (studioPalette st + tab + 64 * i)
       beginRule s st (headerPlan t.bank (claimPlan banks.length [] banks)) ((studioPalette st + tab, n) :: t.ranges)
     | _ => dropRule s st)
  | none => dropRule s st

/-- Begin requests while the engine is free and has applied what it held (R307, R308): the first that has arrived; no GEN step of a context
that stops (R347). -/
def startRule (s : State) (st : Nat) : Nat → State
  | 0 => s
  | fuel + 1 =>
    let s := passTurn s st
    let e := ruleOf s st
    if e.busy ∨ !e.held.isEmpty then s
    else match takeFirst (fun q => decide (q.readyAt ≤ s.clk.now) && !(q.kind == 0 && stepStops s q.row)) e.queue with
      | none => s
      | some (q, rest) =>
        let s := updRule s st fun e => { e with queue := q :: rest }
        let s :=
          match q.kind with
          | 0 =>
            (match q.instr with
             | some (.gen _ a b sub imm) => if codeOf s q.row ≠ 4 then dropRule s st else turnGen s st q.row q a b sub imm
             | _ => dropRule s st)
          | 1 => if codeOf s q.row ≠ 4 ∧ codeOf s q.row ≠ 5 then dropRule s st else turnTable s st q
          | 2 =>
            (match s.eng.strips.find? fun x => x.id == q.id with
             | some x => beginStrip s st x
             | none => dropRule s st)
          | _ =>
            (match s.eng.halos.find? fun h => h.id == q.id with
             | some h => if codeOf s q.row ≠ 4 ∧ codeOf s q.row ≠ 5 then dropHalo (dropRule s st) h.id else turnHalo s st h
             | none => dropRule s st)
        startRule s st fuel

/-- One cycle's work of a studio's engine with the banks it has been granted (R307): it goes on once every claim of the cycle has been
granted, and its operation ends in the cycle after its last. -/
def ruleWork (s : State) (st : Nat) (granted : List Nat) : State :=
  let e := ruleOf s st
  let need := (e.plan.headD []).filter fun q => !granted.contains q
  if !e.busy ∨ e.left = 0 then s
  else if !need.isEmpty then updRule s st fun e => { e with plan := need :: e.plan.drop 1 }
  else
    let s := updRule s st fun e => { e with left := e.left - 1, plan := e.plan.drop 1 }
    let q := e.queue.headD { kind := 0, row := 0, id := 0, instr := none, step := 0, readyAt := 0 }
    let s := match (if q.kind = 3 then s.eng.halos.find? fun h => h.id == q.id else none) with
      | some h => sendStrips s h (e.left - 1) 1
      | none => s
    if e.left ≠ 1 then s
    else
      let tag : MsgTag := { row := q.row, path := .G, flow := 2 ^ 57 + q.row, request := true }
      postIn s 1 tag (match q.kind with
        | 0 => .genStep st
        | 1 => .gtblOperation st
        | _ => .haloStrip q.id)

/-- A GEN stands between two steps: what lands at the boundary comes, then the GEN goes to the back of the queue, and its next step is judged
when it starts (R306, R307). -/
def genBoundary (s : State) (st : Nat) : State :=
  match (ruleOf s st).edge with
  | none => s
  | some q =>
    let s := updRule s st fun e => { e with edge := none }
    if codeOf s q.row ≠ 4 then s
    else
      let s := boundary s q.row
      if codeOf s q.row ≠ 4 then s else askRule s st { q with step := q.step + 1, readyAt := s.clk.now }

/-- A GEN's operation ends (R304, R308, R311): its step is applied, or the instruction ends as the header says; held accesses come next. What
the header says now is what it said at the start, since nothing else has reached it. -/
def genOpEnd (s : State) (st : Nat) (q : RuleReq) (d a b : Reg) (sub : BitVec 3) (imm : BitVec 32) : State :=
  let r := q.row
  match genVerdict s r a b sub imm with
  | .fault f => (fun s => if codeOf s r = 4 then faultLong s r f else s) (dropRule (endRule s st) st)
  | .ends t v =>
    let s := if t = tileAt s t.st t.at_ ∨ codeOf s r ≠ 4 then s else setGenWord s (partOf s r) (ctxOf s r) t
    (fun s => if codeOf s r = 4 then genEnds s r d.toNat v else s) (dropRule (endRule s st) st)
  | .step t =>
    let s := makeStep s (partOf s r) (ctxOf s r) t
    let s := chargeStop s r (stepLines t)
    let s := if codeOf s r = 4 then setF s r fProgress (q.step + 1 + 0xE1 * 2 ^ 32 + 2 ^ 40) else s
    let s := updRule (dropRule (endRule s st) st) st fun e => { e with edge := some q }
    if s.rows.stepHeld.any fun h => h.1 == r then releaseStep (postIn s 0 { row := r } (.genStep st)) r else genBoundary s st

/-- A GEN's operation ends (R304, R311), or the writes that its boundary held back have been applied (R89). -/
def genStepEnd (s : State) (st : Nat) : State :=
  let e := ruleOf s st
  if e.edge.isSome then genBoundary s st
  else if !e.busy ∨ e.left ≠ 0 then s
  else match e.queue.head?.bind fun q => q.instr.map fun i => (q, i) with
    | some (q, .gen d a b sub imm) => genOpEnd s st q d a b sub imm
    | _ => dropRule (endRule s st) st

/-- The operation of a GTBL ends (R310): the table is written, TLEN set, S[d] := E; what it held comes after. -/
def gtblEnd (s : State) (st : Nat) : State :=
  match (ruleOf s st).queue with
  | [] => endRule s st
  | q :: _ =>
    match tabGet s.ms.reqs q.id with
    | none => dropRule (endRule s st) st
    | some x =>
      match x.dest with
      | .table d hdr tab n e =>
        let bs := x.elems.flatMap fun y => bytesOf y.size y.value
        let pal := studioPalette st
        let s := writeHome s (pal + tab) bs false x.part x.ctx
        let w := memNat s.mem (pal + hdr + 0x10) 8
        let s := writeHome s (pal + hdr + 0x10) (bytesOf 8 (setBits w 32 11 e)) false x.part x.ctx
        let s := dropReq (dropRule (endRule s st) st) q.id
        let s := chargeStop s q.row ((n + 63) / 64)
        if codeOf s q.row = 4 ∨ codeOf s q.row = 5 then endLong s q.row [d] fun s => setS s q.row d (BitVec.ofNat 64 e) else s
      | _ => dropReq (dropRule (endRule s st) st) q.id

/-! ### Instructions -/

/-- GTBL's source has been read: its operation is asked of the studio, 24 cycles later (R310). -/
def tableRead (s : State) (id : Nat) (q : Req) : State :=
  match q.fault with
  | some f => if codeOf s q.row = 4 ∨ codeOf s q.row = 5 then faultLong (dropReq s id) q.row f else dropReq s id
  | none =>
    askRule (putReq s id { q with left := 0 }) (studioOf q.ex)
      { kind := 1, row := q.row, id := id, instr := none, step := 0, readyAt := s.clk.now + 24 }

/-- What GTBL does with the plan of its source (R191, R192, R310). -/
def tableAct (s : State) (id : Nat) (q : Req) (out : Bool) (res : PlanRes) : State :=
  match res with
  | .go es x hits =>
    let s := hits.foldl (fun s e => fillTlb s q.ex e) s
    if q.seg.kind = 0 then
      let y := ownReads s q es
      match y.2.2 with
      | some f => faultNow (dropReq y.1 id) q.row f
      | none => if isOpen y.1 q.row then tableRead (beginLong y.1 q.row 2 12) id { q with elems := y.2.1 } else y.1
    else sendReq (if out then s else beginLong s q.row 2 12) id { q with elems := es } x
  | .fault f => faultNow (dropReq s id) q.row f
  | .page va l => pageFault (dropReq s id) q.row va l 0 (majorAt s q.row)
  | .walk va => addWalk (putReq (if out then s else beginLong s q.row 2 12) id q) q.ex q.row q.part q.ctx va 0 (.access id)

/-- GTBL (R310). -/
def execGtbl (d hdr : Reg) (mem : XMem) (s : State) : Out :=
  let r := s.clk.cur
  let g := memSeg s mem
  let o := memOff s mem
  .next (match readHeader s r (src s hdr) with
    | (s, .error f) => if isOpen s r then faultNow s r f else s
    | (s, .ok t) =>
      if !isOpen s r then s else
      let n := t.tableBytes
      match segChecks s r g o { rd := true, size := n } with
      | .error f => faultNow s r f
      | .ok _ =>
        let es := (linePieces (g.base + o).toNat n).map fun p => mkElem s r g (o + (p.1 : Nat)) { rd := true, size := p.2 } 0 0 0
        let q := { reqOf s g 0 with elems := es, dest := .table d.toNat t.at_ t.table n t.entries, wait := true }
        tableAct (freshId s) s.clk.ids q false (planReq s q))

/-- GEN (R311). -/
def execGen (d a b : Reg) (sub : BitVec 3) (imm : BitVec 32) (s : State) : Out :=
  let r := s.clk.cur
  .next (match readHeader s r (src s a) with
    | (s, .error f) => if isOpen s r then faultNow s r f else s
    | (s, .ok _) =>
      if !isOpen s r then s else
      let id := s.clk.ids
      askRule (beginLong (freshId s) r 2 12) (studioOf (exOf r))
        { kind := 0, row := r, id := id, instr := some (.gen d a b sub imm), step := 0, readyAt := s.clk.now + 24 })

/-- GHALO (R312). -/
def execGhalo (d a : Reg) (s : State) : Out :=
  let r := s.clk.cur
  .next (match readHeader s r (src s a) with
    | (s, .error f) => if isOpen s r then faultNow s r f else s
    | (s, .ok t) =>
      if !isOpen s r then s else
      match haloBanks s r t with
      | some f => faultNow s r f
      | none =>
        let id := s.clk.ids
        let h : HaloRun := { id := id, row := r, d := d.toNat, hdr := t.at_, left := 0, word := 0 }
        let s := beginLong (freshId { s with eng := { s.eng with halos := s.eng.halos ++ [h] } }) r 2 12
        askRule s (studioOf (exOf r)) { kind := 3, row := r, id := id, instr := none, step := 0, readyAt := s.clk.now + 24 })

/-! ### Events -/

/-- The operation of a GTBL ends (R310); while what an operation held is applied, the guard of its ranges is set again (R308). -/
def execGtblOperation (studio : Nat) (s : State) : Out :=
  let e := ruleOf s studio
  .next (if e.busy then (if e.left = 0 ∧ (e.queue.head?.map fun q => q.kind) = some 1 then gtblEnd s studio else s)
    else if e.held.isEmpty then s else drainRule s studio)
/-- The step of a GEN (R311). -/
def execGenStep (studio : Nat) (s : State) : Out := .next (genStepEnd s studio)

/-- A strip has reached its neighbour's studio (R308, R312): an operation on its tile holds it; one that was held is applied next, before
what came after it; else it takes its turn. -/
def stripArrives (s : State) (st : Nat) (x : Strip) : State :=
  let e := ruleOf s st
  let q : RuleReq := { kind := 2, row := x.row, id := x.id, instr := none, step := 0, readyAt := s.clk.now }
  if !(x.held && !e.busy) && stripMeets s x e.ranges then holdStrip s st x
  else if x.held ∧ !e.busy then
    beginStrip (updStrip (updRule s st fun e => { e with queue := q :: e.queue }) x.id fun x => { x with held := false }) st x
  else askRule s st q

/-- A halo strip (R312): the sending of a GHALO ends, a strip reaches its neighbour's studio or is applied there, or its outcome is
back. -/
def execHaloStrip (id : Nat) (s : State) : Out :=
  .next (match s.eng.halos.find? fun h => h.id == id with
    | some h =>
      if h.due.isSome then haloDone s id else haloRead (sendStrips (dropRule s (studioOf (exOf h.row))) h 0 0) h
    | none =>
      match s.eng.strips.find? fun x => x.id == id with
      | none => s
      | some x =>
        let st := (x.dst - paletteBase) / 0x800000
        let e := ruleOf s st
        if x.back then
          let s := { s with eng := { s.eng with strips := s.eng.strips.filter fun z => z.id != id } }
          match s.eng.halos.find? fun h => h.id == x.halo with
          | none => s
          | some h =>
            let h' := { h with left := h.left - 1, word := h.word + 2 ^ ((if x.gen = 1 then 0 else 8) + x.dir) }
            haloDone { s with eng := { s.eng with halos := s.eng.halos.map fun y => if y.id = h.id then h' else y } } h.id
        else if e.busy ∧ e.left = 0 ∧ ((e.queue.head?.map fun q => q.kind == 2 && q.id == id) = some true) then applyStrip s st x
        else stripArrives s st x)

end Sys2Proof.Machine
end

