-- ==== Sys2Proof/Machine/Joins.lean ====
section
/-!
DEFINITION. The join engines (R313 to R333, R399): tables, episodes and orphans; the handling of messages in the order of their
acceptance; completion, deadlines, release and scan; JOPEN, JRWD, JCLOSE, JCFG, JVER, JSTAT, and their events. A table's entries
and actor array are kept in State (their formats are internal, R315); a record's header and steps are bytes of memory.
-/
namespace Sys2Proof.Machine

/-! ### ACTIVE, tables, records -/

/-- A table of a handle. -/
def tableOf (s : State) (h : Nat) : Option JoinTable := tabGet s.join.tables h
/-- Change a table. -/
def updTable (s : State) (h : Nat) (f : JoinTable → JoinTable) : State :=
  match tableOf s h with
  | none => s
  | some t => { s with join := { s.join with tables := tabSet s.join.tables h (f t) } }
/-- Word `i` of a descriptor. -/
def descW (t : JoinTable) (i : Nat) : Nat := (t.desc.getD i 0).toNat
/-- The context that receives releases. -/
def tblCtx (t : JoinTable) : Nat := bitsAt (descW t 0) 55 3
/-- Whether episodes leave in their actor's order. -/
def tblOrder (t : JoinTable) : Bool := bitAt (descW t 0) 54
/-- The engine of a handle (R313). -/
def engOf (h : Nat) : Nat := h % 8
/-- Add to a JSTAT counter, which wraps (R333). -/
def bump (s : State) (h sel n : Nat) : State :=
  updTable s h fun t => { t with counts := tabUpd t.counts sel 0 fun v => (v + n) % 2 ^ 64 }
/-- Change a live episode. -/
def updEp (s : State) (h key : Nat) (f : Episode → Episode) : State :=
  updTable s h fun t => { t with eps := t.eps.map fun e => if e.key = key then f e else e }
/-- The table of a handle that partition `p` has configured; a purge has ended that (R313). -/
def tableFor (s : State) (p h : Nat) : Option JoinTable := (tableOf s h).filter fun t => t.part == p && t.purge.isNone
/-- The live episode of a key. -/
def epOf (t : JoinTable) (key : Nat) : Option Episode := t.eps.find? fun e => e.key == key

/-- A field of a record's header: word offset, lowest bit, width. -/
def recF (s : State) (at_ off lo len : Nat) : Nat := bitsAt (memNat s.mem (at_ + off) 8) lo len
/-- Bytes that the engine writes at a record's home, directly (R317); none where a layout commit has taken the place from the table's
partition (R366, R369). -/
def recPut (s : State) (t : JoinTable) (a n v : Nat) : State :=
  if partMayReach s t.part a then writeEngine (touch s a).1 a (bytesOf n v) t.part (tblCtx t) else s
/-- The engine reads bytes of a record: their errors are met (R388) and poison among them is consumed (R389). No row faults, since the
engine reads for none (log 71). -/
def recRead (s : State) (t : JoinTable) (a n : Nat) : State := (consumePoison (meetLines s a n) t.part (tblCtx t) a n).1
/-- Write a header field. -/
def setRecF (s : State) (t : JoinTable) (at_ off lo len v : Nat) : State :=
  recPut s t (at_ + off) 8 (setBits (memNat s.mem (at_ + off) 8) lo len v)
/-- L of a record. -/
def recLen (s : State) (at_ : Nat) : Nat := recF s at_ 0x08 0 13
/-- The actor of a record. -/
def recActor (s : State) (at_ : Nat) : Nat := recF s at_ 0x08 16 16
/-- SEQ of a record. -/
def recSeq (s : State) (at_ : Nat) : Nat := recF s at_ 0x08 32 32
/-- Address of step `t` of a record (R317). -/
def stepAt (at_ t : Nat) : Nat := at_ + 0x40 + 32 * t

/-! ### Release and discard (R323 to R327) -/

/-- The release that its engine may work on now: the first that is not held and has no held one of its table before it (R327). -/
def nextRelease : List Nat → List Release → Option Release
  | _, [] => none
  | held, x :: r => if x.held then nextRelease (x.table :: held) r else if held.contains x.table then nextRelease held r else some x

/-- Let an engine begin its next release: 512 + 2·L cycles to its push (R399). -/
def kickEngine (s : State) (eng : Nat) : State :=
  let l := tabGetD s.join.releases eng []
  if l.any Release.running then s
  else match nextRelease [] l with
    | none => s
    | some x =>
      let n := match (tableOf s x.table).bind fun t => epOf t x.key with
        | some e => recLen s e.recAt
        | none => 0
      let l := l.map fun y => if y.table = x.table ∧ y.key = x.key then { y with running := true } else y
      let s := { s with join := { s.join with releases := tabSet s.join.releases eng l } }
      postIn s (512 + 2 * n) {} (.releasePush eng)

/-- A stage of an episode: release it from the staleness stage on, or from the order stage (R325). -/
inductive Stage where
  | order
  | stale
  deriving DecidableEq, Repr

/-- An episode leaves its table (R325): STATE, REASON and ENDAT are written, its slot is free; under ORDER 1 the keys of the HELD
episodes whose SEQ its actor's NEXT has now reached, in the order of their JOPENs. -/
def leaveTable (s : State) (h : Nat) (e : Episode) (state reason : Nat) : State × List Nat :=
  match tableOf s h with
  | none => (s, [])
  | some t =>
    let a := e.recAt
    let s := setRecF (setRecF (setRecF s t a 0x20 0 3 state) t a 0x20 3 5 reason) t a 0x30 0 64 (activeNow s)
    let s := updTable s h fun t => { t with eps := t.eps.filter fun x => x.key != e.key }
    let act := recActor s a
    let seq := recSeq s a
    if tblOrder t && seq == tabGetD t.next act 0 then
      let n := (seq + 1) % 2 ^ 32
      let s := updTable s h fun t => { t with next := tabSet t.next act n }
      let heads := (((tableOf s h).map JoinTable.eps).getD []).filter fun x =>
        x.held && recActor s x.recAt == act && recSeq s x.recAt == n
      (s, heads.map Episode.key)
    else (s, [])

/-- An episode goes to release (R325): held for its turn, discarded as stale, or queued for its scan; an episode that leaves lets
the next of its actor go on. -/
def goRelease (s : State) (h key : Nat) (st : Stage) : Nat → State
  | 0 => s
  | fuel + 1 =>
    match (tableOf s h).bind fun t => (epOf t key).map fun e => (t, e) with
    | none => s
    | some (t, e) =>
      let a := e.recAt
      let next := tabGetD t.next (recActor s a) 0
      let seq := recSeq s a
      if st = .order ∧ tblOrder t ∧ seq ≠ next ∧ !phGt next seq then
        setRecF (updEp s h key fun x => { x with held := true }) t a 0x20 0 3 3
      else
        let s := updEp s h key fun x => { x with held := false }
        let lag := (t.lv + 2 ^ 32 - recF s a 0x10 0 32) % 2 ^ 32
        if bitsAt (descW t 2) 0 32 < lag ∧ lag < 2 ^ 31 then
          let x := leaveTable (bump s h 4 1) h e 5 2
          x.2.foldl (fun s k => goRelease s h k .stale fuel) x.1
        else
          let s := updEp s h key fun x => { x with releasing := true }
          let r : Release := { table := h, key := key, running := false, held := false }
          kickEngine { s with join := { s.join with releases := tabUpd s.join.releases (engOf h) [] fun l => l ++ [r] } } (engOf h)

/-- A discard (R324), and what it lets go on. -/
def discard (s : State) (h : Nat) (e : Episode) (reason : Nat) : State :=
  let x := leaveTable s h e 5 reason
  let n := ((tableOf x.1 h).map fun t => t.eps.length).getD 0 + 1
  x.2.foldl (fun s k => goRelease s h k .stale n) x.1

/-- An episode that has become complete goes to release at once (R323). -/
def whenComplete (s : State) (h key : Nat) : State :=
  match (tableOf s h).bind fun t => (epOf t key).map fun e => (t, e) with
  | none => s
  | some (t, e) =>
    if !e.releasing && !e.held && recF s e.recAt 0x20 0 3 == 2 && recF s e.recAt 0x10 32 32 == recLen s e.recAt then
      goRelease s h key .order (t.eps.length + 1)
    else s

/-! ### The scan (R326) -/

/-- What the scan carries from step to step: V and A of the step after, and the flags. -/
structure ScanAcc where
  v : Nat
  a : Nat
  fl : Flags

/-- One step of the backward scan; its ADV and RET are written. -/
def scanStep (t : JoinTable) (at_ : Nat) (s : State) (acc : ScanAcc) (i : Nat) : State × ScanAcc :=
  let g := bitsAt (descW t 1) 0 32
  let p := stepAt at_ i
  let v := memNat s.mem p 4
  let notDone := if memByte s.mem (p + 16) = 0 then 0x3F800000 else 0
  let p1 := fpMul f32Fmt 0 g acc.v
  let p2 := fpMul f32Fmt 0 p1.1 notDone
  let p3 := fpAdd f32Fmt 0 (memNat s.mem (p + 4) 4) p2.1
  let d := fpSub f32Fmt 0 p3.1 v
  let p4 := fpMul f32Fmt 0 t.gl acc.a
  let a := fpAdd f32Fmt 0 d.1 p4.1
  let r := fpAdd f32Fmt 0 a.1 v
  let fl := [p1, p2, p3, d, p4, a, r].foldl (fun f x => flagsOr f x.2) acc.fl
  (recPut (recPut s t (p + 8) 4 a.1) t (p + 12) 4 r.1, ⟨v, a.1, fl⟩)

/-- The scan of a record (R326), charged a unit a step to the table's context (R329). -/
def scanRecord (s : State) (t : JoinTable) (at_ : Nat) : State :=
  let n := recLen s at_
  let v := if recF s at_ 0x18 32 1 = 1 then 0 else recF s at_ 0x18 0 32
  let x := ((List.range n).reverse).foldl (fun y i => scanStep t at_ y.1 y.2 i) (s, (⟨v, 0, flagsNone⟩ : ScanAcc))
  let s := setRecF x.1 t at_ 0x20 9 5 (recF x.1 at_ 0x20 9 5 ||| flagsToNat x.2.fl)
  chargeCtx s t.part (tblCtx t) n

/-- The sketch of a release (R327). -/
def releaseSketch (s : State) (t : JoinTable) (at_ : Nat) : List Word :=
  let w4 := descW t 4
  let rack := descW t 5
  let arg := recLen s at_ + recF s at_ 0x20 8 1 * 2 ^ 13 + recF s at_ 0x10 0 32 * 2 ^ 16
  [ BitVec.ofNat 64 (bitsAt w4 0 40), BitVec.ofNat 64 at_, BitVec.ofNat 64 (descW t 6),
    BitVec.ofNat 64 (bitsAt w4 40 6 + bitsAt rack 0 5 * 2 ^ 6 + bitsAt rack 8 5 * 2 ^ 11 + arg * 2 ^ 16) ]

/-- A purge that lets held pushes complete frees its handle when none is left, and its JCFGs are answered (R333). -/
def endPurge (s : State) (h : Nat) : State :=
  match tableOf s h with
  | none => s
  | some t =>
    match t.purge with
    | none => s
    | some l =>
      if !t.eps.isEmpty then s
      else l.foldl (fun s x => answerRow s x.1 [⟨x.2, 0⟩] 24) { s with join := { s.join with tables := tabDel s.join.tables h } }

/-- Offer the sketch of a release to its rack (R327): placed, the episode leaves as RELEASED; else the push is held. -/
def offerRelease (s : State) (eng : Nat) (x : Release) : State :=
  let drop := fun (s : State) => { s with join := { s.join with
    releases := tabUpd s.join.releases eng [] fun l => l.filter fun y => !(y.table == x.table && y.key == x.key) } }
  match (tableOf s x.table).bind fun t => (epOf t x.key).map fun e => (t, e) with
  | none => kickEngine (drop s) eng
  | some (t, e) =>
    let tgt := (rackName 0 (descW t 5)).getD (0, 0)
    let entry : RackEntry := { sketch := releaseSketch s t e.recAt, ctx := tblCtx t, order := 0, engager := none }
    let y := pushAt s (rackAtLevel tgt.1 tgt.2 t.part) entry
    if y.2 = 0 then
      let missing := recF s e.recAt 0x20 8 1
      let s := bump (bump y.1 x.table 2 1) x.table 5 missing
      let z := leaveTable (drop s) x.table e 4 0
      let s := z.2.foldl (fun s k => goRelease s x.table k .stale (t.eps.length + 1)) z.1
      endPurge (kickEngine s eng) x.table
    else
      let l := (tabGetD y.1.join.releases eng []).map fun z =>
        if z.table = x.table ∧ z.key = x.key then { z with running := false, held := true, offerAt := if y.2 = 2 then 0 else y.1.clk.now + 1024 } else z
      let s := { y.1 with join := { y.1.join with releases := tabSet y.1.join.releases eng l } }
      -- a rack that a block is leaving takes it when the block has landed (R250)
      kickEngine (if y.2 = 2 then s else postIn s 1024 {} (.releasePushRetry eng)) eng

/-! ### Rewards and orphans (R321, R322) -/

/-- Orphans of an engine. -/
def orphansOf (s : State) (eng : Nat) : List Orphan := tabGetD s.join.orphans eng []
/-- Set them. -/
def setOrphans (s : State) (eng : Nat) (l : List Orphan) : State :=
  { s with join := { s.join with orphans := if l.isEmpty then tabDel s.join.orphans eng else tabSet s.join.orphans eng l } }

/-- A reward for a live episode (R321, steps 1 to 3). -/
def rewardLive (s : State) (h : Nat) (e : Episode) (t x : Nat) : State × Nat :=
  match tableOf s h with
  | none => (s, 4)
  | some tb =>
    let p := stepAt e.recAt t
    let s := recRead s tb e.recAt 64
    let s := if t < recLen s e.recAt then recRead s tb p 32 else s
    if recLen s e.recAt ≤ t then (s, 3)
    else if bitAt (memNat s.mem (p + 17) 1) 0 then (bump s h 10 1, 2)
    else
      let s := recPut s tb (p + 4) 4 x
      let s := recPut s tb (p + 17) 1 (memNat s.mem (p + 17) 1 ||| 1)
      (setRecF s tb e.recAt 0x10 32 32 (recF s e.recAt 0x10 32 32 + 1), 0)

/-- A reward (R321). -/
def rewardAt (s : State) (h key step x : Nat) : State × Nat :=
  match tableOf s h with
  | none => (s, 4)
  | some t =>
    if 2 ^ 12 ≤ step then (s, 3)
    else match epOf t key with
      | some e =>
        let y := rewardLive s h e step x
        (whenComplete y.1 h key, y.2)
      | none =>
        let l := orphansOf s (engOf h)
        if l.any fun o => o.table == h && o.key == key && o.step == step then (bump s h 10 1, 2)
        else if bitsAt (descW t 2) 32 13 ≤ (l.filter fun o => o.table == h).length then (bump s h 9 1, 3)
        else
          let o : Orphan := { table := h, key := key, step := step, val := x, expiry := activeNow s + bitsAt (descW t 3) 32 32 * 1024 }
          (setOrphans s (engOf h) (l ++ [o]), 1)

/-- JOPEN takes the orphans of its key (R322): how many. -/
def matchOrphans (s : State) (h key : Nat) (e : Episode) : State × Nat :=
  let l := orphansOf s (engOf h)
  let mine := l.filter fun o => o.table == h && o.key == key
  let s := setOrphans s (engOf h) (l.filter fun o => !(o.table == h && o.key == key))
  let s := mine.foldl (fun s o =>
    let y := rewardLive s h e o.step o.val
    if y.2 = 3 then bump y.1 h 9 1 else y.1) s
  (bump s h 7 mine.length, mine.length)

/-- Drop the orphans of an engine that have expired, and count them (R322). -/
def expireOrphans (s : State) (eng : Nat) : State :=
  let now := activeNow s
  let l := orphansOf s eng
  let dead := l.filter fun o => o.expiry ≤ now
  let s := setOrphans s eng (l.filter fun o => !(o.expiry ≤ now))
  dead.foldl (fun s o => bump s o.table 8 1) s

/-! ### Opening and closing (R330, R332) -/

/-- Whether a record's range is refused (R316, R320): it lies whole in HBM or whole in the second tier, in places of the partition, and
in no table's area, whose bytes only its own engine may touch (R315, log 38). -/
def recBad (s : State) (p at_ n : Nat) : Bool :=
  let len := 64 + 32 * n
  let ok := fun a => (placeOf a == .hbm || isTier2 a) && partMayReach s p a && !inReserved s a
  n = 0 || decide (4096 < n) || at_ % 64 != 0 || isTier2 at_ != isTier2 (at_ + len - 1) || !ok (at_ + len - 1) ||
  meetsJoinArea s at_ len ||
  !((List.range ((at_ % 4096 + len + 4095) / 4096)).all fun i => ok (if i = 0 then at_ else (at_ / 4096 + i) * 4096))

/-- The slot a key takes among its 64 probes (R315). -/
def probe (t : JoinTable) (key : Nat) : Option Nat :=
  let lg := bitsAt (descW t 0) 48 5
  let home := key * 0x9E3779B97F4A7C15 % 2 ^ 64 / 2 ^ (64 - lg)
  ((List.range 64).map fun i => (home + i) % 2 ^ lg).find? fun q => !(t.eps.any fun e => e.slot == q)

/-- Write a new record (R316, R317, R330). -/
def writeRecord (s : State) (t : JoinTable) (at_ key lw ver deadline : Nat) : State :=
  let put := fun (s : State) off v => recPut s t (at_ + off) 8 v
  let s := put (put (put (put s 0x00 key) 0x08 lw) 0x10 ver) 0x18 0
  let s := put (put (put (put s 0x20 1) 0x28 deadline) 0x30 0) 0x38 0
  (List.range (bitsAt lw 0 13)).foldl (fun s i => recPut (recPut s t (stepAt at_ i + 4) 12 0) t (stepAt at_ i + 17) 1 0) s

/-- JOPEN at its engine (R330): status, orphans matched in [31:16]. -/
def openAt (s : State) (h key at_ lw ver : Nat) : State × Nat :=
  match tableOf s h with
  | none => (s, 4)
  | some t =>
    if recBad s t.part at_ (bitsAt lw 0 13) then (s, 7)
    else if (epOf t key).isSome then (s, 5)
    else match probe t key with
      | none => (s, 6)
      | some q =>
        let ttl := bitsAt (descW t 3) 0 32
        let dl := if ttl = 0 then none else some (activeNow s + ttl * 1024)
        let e : Episode := { key := key, recAt := at_, order := s.join.orders, slot := q, deadline := dl, held := false, releasing := false }
        let s := updTable { s with join := { s.join with orders := s.join.orders + 1 } } h fun t => { t with eps := t.eps ++ [e] }
        let s := writeRecord s t at_ key (lw &&& 0xFFFFFFFFFFFF1FFF) ver (dl.getD (2 ^ 64 - 1))
        let x := matchOrphans s h key e
        (x.1, x.2 % 2 ^ 16 * 2 ^ 16)

/-- JCLOSE at its engine (R332). -/
def closeAt (s : State) (h key boot : Nat) (terminal : Bool) : State × Nat :=
  match tableOf s h with
  | none => (s, 4)
  | some t =>
    match epOf t key with
    | none => (s, 8)
    | some e =>
      let s := recRead s t e.recAt 64
      if recF s e.recAt 0x20 0 3 ≠ 1 then (s, 9)
      else
        let s := setRecF s t e.recAt 0x18 0 33 (boot % 2 ^ 32 + flag01 terminal * 2 ^ 32)
        (whenComplete (setRecF s t e.recAt 0x20 0 3 2) h key, 0)

/-! ### Deadlines (R324) -/

/-- Whether an episode's deadline has come and it still waits for it. -/
def overdue (now : Nat) (e : Episode) : Bool :=
  !e.releasing && (match e.deadline with
    | some d => d ≤ now
    | none => false)

/-- Place an overdue episode of a handle in the order of DEADLINE, then of JOPEN (R324). -/
def overdueIns (x : Nat × Episode) : List (Nat × Episode) → List (Nat × Episode)
  | [] => [x]
  | y :: r =>
    let dl := fun (e : Episode) => e.deadline.getD 0
    if dl x.2 < dl y.2 ∨ (dl x.2 = dl y.2 ∧ x.2.order < y.2.order) then x :: y :: r else y :: overdueIns x r

/-- The overdue episodes of an engine, with their handles, in the order in which a tick acts on them (R324). -/
def overdueEps (s : State) (eng now : Nat) : List (Nat × Episode) :=
  ((s.join.tables.filter fun t => engOf t.1 == eng).flatMap fun t =>
    (t.2.eps.filter (overdue now)).map fun e => (t.1, e)).foldl (fun l x => overdueIns x l) []

/-- Steps without a reward are zero-filled and marked missing (R324). -/
def fillMissing (s : State) (t : JoinTable) (at_ : Nat) : State :=
  let s := recRead s t (at_ + 64) (32 * recLen s at_)
  let s := (List.range (recLen s at_)).foldl (fun s i =>
    if bitAt (memNat s.mem (stepAt at_ i + 17) 1) 0 then s
    else recPut (recPut s t (stepAt at_ i + 4) 4 0) t (stepAt at_ i + 17) 1 2) s
  setRecF s t at_ 0x20 8 1 1

/-- The actor's NEXT is set to a held episode's SEQ (R324): the held episodes that are now behind NEXT go on, in the order of their JOPENs,
since none behind it is held (R325), and then those whose SEQ NEXT has reached, the episode itself among them (log 71). -/
def skipTo (s : State) (h : Nat) (e : Episode) (fuel : Nat) : State :=
  let act := recActor s e.recAt
  let n := recSeq s e.recAt
  let s := bump (updTable s h fun t => { t with next := tabSet t.next act n }) h 11 1
  let held := (((tableOf s h).map JoinTable.eps).getD []).filter fun x => x.held && recActor s x.recAt == act
  let behind := held.filter fun x => phGt n (recSeq s x.recAt)
  let reached := held.filter fun x => recSeq s x.recAt == n
  (behind ++ reached).foldl (fun s x => goRelease s h x.key .stale fuel) s

/-- Act on one overdue episode (R324). A CLOSED one whose rewards were filled in and that is then HELD keeps its deadline, and stops waiting
at the next tick. One whose record's stack is under sequencer reset waits for the next tick (R393). -/
def actOverdue (s : State) (h : Nat) (e : Episode) : State :=
  match tableOf s h with
  | none => s
  | some t =>
    let a := e.recAt
    let fuel := t.eps.length + 1
    if (stackHeld s a).isSome then s else
    let s := recRead s t a 64
    if e.held then skipTo s h e fuel
    else if recF s a 0x20 0 3 = 1 then discard (bump s h 3 1) h e 4
    else if bitAt (descW t 0) 53 then discard (bump s h 3 1) h e 1
    else
      goRelease (fillMissing s t a) h e.key .order fuel

/-- The deadlines of a tick (R324): each episode that is overdue, and still is when its turn comes, is acted on once. -/
def actDeadlines (s : State) (eng now : Nat) : State :=
  (overdueEps s eng now).foldl (fun s x =>
    match (tableOf s x.1).bind fun t => epOf t x.2.key with
    | some e => if overdue now e then actOverdue s x.1 e else s
    | none => s) s

/-! ### Tables (R333) -/

/-- Discard a table's live episodes but those whose push is held, and drop its orphans (R333). -/
def emptyTable (s : State) (h : Nat) : State :=
  match tableOf s h with
  | none => s
  | some t =>
    let eng := engOf h
    let l := tabGetD s.join.releases eng []
    let stays := fun (e : Episode) => l.any fun x => x.table == h && x.key == e.key && x.held
    let s := setOrphans s eng ((orphansOf s eng).filter fun o => o.table != h)
    let go := t.eps.filter fun e => !stays e
    let s := go.foldl (fun s e => setRecF (setRecF s t e.recAt 0x20 0 8 (5 + 3 * 8)) t e.recAt 0x30 0 64 (activeNow s)) s
    let s := updTable s h fun t => { t with eps := t.eps.filter stays }
    let gone := l.any fun x => x.table == h && x.running
    let l := l.filter fun x => x.table != h || x.held
    let s := { s with join := { s.join with releases := tabSet s.join.releases eng l } }
    let s := if gone then { s with agenda := s.agenda.filter fun t => match t.ev with
      | .releasePush e => e != eng
      | _ => true } else s
    kickEngine s eng

/-- Purge a table for the JCFGs `who` (R333): its handle is free now, or once its held pushes have completed. -/
def purgeTable (s : State) (h : Nat) (who : List (Nat × Nat)) : State :=
  let s := emptyTable s h
  if ((tableOf s h).map fun t => t.eps.isEmpty).getD true then { s with join := { s.join with tables := tabDel s.join.tables h } }
  else updTable s h fun t => { t with purge := some (t.purge.getD [] ++ who) }

/-- Whether a descriptor is refused as BADCFG (R314, R333). -/
def descRefused (d : List Word) : Bool :=
  let w := fun i => (d.getD i 0).toNat
  let lg := bitsAt (w 0) 48 5
  lg < 10 || 20 < lg || bitsAt (w 0) 0 12 != 0 || bitsAt (w 0) 58 6 != 0 || bitsAt (w 2) 45 19 != 0 || bitsAt (w 4) 46 18 != 0 ||
  bitsAt (w 4) 0 40 == 0 || bitAt (w 5) 16 || (rackName 0 (w 5)).isNone || w 7 != 0

/-- Whether an area or the quotas are refused as RANGE (R315, R333). -/
def areaRefused (s : State) (p eng : Nat) (d : List Word) : Bool :=
  let a := bitsAt ((d.getD 0 0).toNat) 0 48
  let n := areaBytes d
  let quota := fun (d : List Word) => bitsAt ((d.getD 2 0).toNat) 32 13
  let sum := (s.join.tables.filter fun t => engOf t.1 == eng).foldl (fun n t => n + quota t.2.desc) (quota d)
  !((List.range ((a + n - 1) / 4096 + 1 - a / 4096)).all fun i =>
    let b := a + 4096 * i
    placeOf b == .hbm && partMayReach s p b && !inReserved s b) || 4096 < sum

/-- JCFG at its engine (R333): operation 1 set, 2 clear, 3 purge; the status, or none when the answer comes later. -/
def configAt (s : State) (m : JoinMsg) : State × Option Nat :=
  let h := m.handle
  let op := m.words.getD 0 0
  let d := (m.words.drop 1).map fun v => BitVec.ofNat 64 v
  match op, tableOf s h with
  | 1, some _ => (s, some 1)
  | 1, none =>
    if descRefused d then (s, some 3)
    else if areaRefused s m.part (engOf h) d then (s, some 2)
    else
      let w1 := (d.getD 1 0).toNat
      let a := bitsAt ((d.getD 0 0).toNat) 0 48
      let t : JoinTable := { part := m.part, desc := d, gl := (fpMul f32Fmt 0 (bitsAt w1 0 32) (bitsAt w1 32 32)).1, lv := 0, eps := [],
                             next := [], counts := [], purge := none }
      let s := clearPrec (keepCode s a (areaBytes d)) a (areaBytes d)
      let s := stampLines { s with mem := memClear s.mem a (areaBytes d) } a (areaBytes d) m.part (tblCtx t)
      ({ s with join := { s.join with tables := tabSet s.join.tables h t } }, some 0)
  | _, none => (s, some 4)
  | 2, some t =>
    if t.part ≠ m.part then (s, some 4)
    else if !t.eps.isEmpty || (orphansOf s (engOf h)).any (fun o => o.table == h) then (s, some 1)
    else ({ s with join := { s.join with tables := tabDel s.join.tables h } }, some 0)
  | _, some t =>
    if t.part ≠ m.part then (s, some 4)
    else
      let s := purgeTable s h [(m.row, m.d)]
      (s, if (tableOf s h).isSome then none else some 0)

/-- What JSTAT reads (R333); none for another partition's handle. A handle under purge belongs to none (R313). -/
def statAt (s : State) (p h sel : Nat) : Option Nat :=
  match (tableOf s h).filter fun t => t.purge.isNone with
  | none => some (if sel = 13 then activeNow s else 0)
  | some t =>
    if t.part ≠ p then none
    else match sel with
      | 0 => some t.eps.length
      | 1 => some (t.eps.filter Episode.held).length
      | 6 => some ((orphansOf s (engOf h)).filter fun o => o.table == h).length
      | 12 => some t.lv
      | 13 => some (activeNow s)
      | _ => some (tabGetD t.counts sel 0)

/-! ### Messages (R319, R320) -/

/-- One way from an executor to an engine's hub along its mesh row (R319). -/
def joinWay (ex h : Nat) : Nat :=
  let x := exX ex
  if engOf h < 4 then 24 + 4 * x + 60 * (x / 8) else 24 + 4 * (31 - x) + 60 * ((31 - x) / 8)

/-- The event that carries a message of kind 0 JOPEN, 1 JRWD, 2 JCLOSE, 3 JVER or JCFG, 4 JSTAT. -/
def joinEvent (kind id : Nat) : Instr :=
  match kind with
  | 0 => .jopenMessage id
  | 1 => .reward id
  | 2 => .jcloseMessage id
  | 3 => .jverMessage id
  | _ => .jstatRequest id

/-- The tag of a message on path J; one that came from peer entry `row - 2^28` is of no context. -/
def joinTag (s : State) (m : JoinMsg) : MsgTag :=
  if 2 ^ 28 ≤ m.row then
    { row := 2 ^ 28, part := m.part, ctx := 8, path := .J, flow := 2 ^ 56 + 2 ^ 33 + m.part * 4096 + (m.row - 2 ^ 28) }
  else
    { row := m.row, part := m.part, ctx := ctxOf s m.row, path := .J, home := 0, request := true,
      flow := 2 ^ 56 + m.row * 16 + (match m.peer with
        | none => engOf m.handle
        | some _ => 8) }

/-- Send message `m` of a kind. -/
def sendJoinMsg (s : State) (kind : Nat) (m : JoinMsg) : State :=
  let id := s.clk.ids
  let m := { m with id := id }
  sendIn (freshId { s with join := { s.join with msgs := s.join.msgs ++ [m] } }) m.back (joinTag s m) (joinEvent kind id)

/-- A message of the acting row to the engine of a handle. -/
def joinMsg (s : State) (h : Nat) (d : Reg) (words : List Nat) : JoinMsg :=
  let r := s.clk.cur
  { id := 0, row := r, part := partOf s r, d := d.toNat, handle := h, words := words, wait := d != 0, back := joinWay (exOf r) h,
    peer := none }

/-- Send a message and wait for its reply, or go on (R320). -/
def joinIssue (s : State) (kind why len : Nat) (m : JoinMsg) : State :=
  if m.wait then sendJoinMsg (beginLong s m.row why len) kind m else finish (sendJoinMsg s kind m) m.row len

/-- Where a message makes its engine read or write memory: the record of its episode, or the area of a table that is set. -/
def messageAt (s : State) (m : JoinMsg) (kind : Nat) : List Nat :=
  match kind with
  | 0 => [m.words.getD 1 0]
  | 1 => (((tableOf s m.handle).bind fun t => epOf t (m.words.getD 0 0)).map Episode.recAt).toList
  | 2 => (((tableOf s m.handle).bind fun t => epOf t (m.words.getD 0 0)).map Episode.recAt).toList
  | 3 => if m.words.getD 0 0 = 1 then [m.words.getD 1 0 % 2 ^ 48] else []
  | _ => []

/-- How long an engine stands still before a message whose memory is at a stack under sequencer reset (R393). -/
def messageWait (s : State) (m : JoinMsg) (kind : Nat) : Option Nat :=
  if m.peer.isSome then none else stackWait s (messageAt s m kind)

/-- An engine takes a message (R319): one in 4 cycles, in the order of arrival; the message acts when it is accepted. While its memory
is held, so are the engine and the messages behind it (R393). -/
def accept (s : State) (id kind : Nat) (act : State → JoinMsg → State) : State :=
  match s.join.msgs.find? fun m => m.id == id with
  | none => s
  | some m =>
    let eng := engOf m.handle
    let free := match tabGet s.join.accepted eng with
      | some c => c + 4
      | none => 0
    if m.peer = none ∧ s.clk.now < free then tryLater s (free - s.clk.now) ⟨s.clk.now, 0, joinTag s m, joinEvent kind id⟩
    else match messageWait s m kind with
    | some d =>
      tryLater { s with join := { s.join with accepted := tabSet s.join.accepted eng (s.clk.now + d - 4) } } d
        ⟨s.clk.now, 0, joinTag s m, joinEvent kind id⟩
    | none =>
      let s := { s with join := { s.join with
        msgs := s.join.msgs.filter fun x => x.id != id
        accepted := if m.peer = none then tabSet s.join.accepted eng s.clk.now else s.join.accepted } }
      act s m

/-- The reply to a message's row, after the time back, or to the peer that sent it. -/
def joinReply (s : State) (m : JoinMsg) (v : Nat) : State :=
  if 2 ^ 28 ≤ m.row then sendPacket s m.part true (m.row - 2 ^ 28) 10 [v]
  else if m.wait then answerRow s m.row [⟨m.d, BitVec.ofNat 64 v⟩] m.back else s

/-- A message acts when its handle is configured by the sender's partition (R313). -/
def forTable (s : State) (m : JoinMsg) (act : State → State × Nat) : State × Nat :=
  match tableFor s m.part m.handle with
  | some _ => act s
  | none => (s, 4)

/-- JOPEN's message (R330). -/
def execJopenMessage (id : Nat) (s : State) : Out :=
  .next (accept s id 0 fun s m =>
    let w := fun i => m.words.getD i 0
    let x := forTable s m fun s => openAt s m.handle (w 0) (w 1) (w 2) (w 3)
    joinReply x.1 m x.2)

/-- A reward for peer entry `k` reaches the hub and leaves, or is refused; it is outstanding until its answer, the time back later
(R320, R383). -/
def rewardLeaves (s : State) (m : JoinMsg) (k : Nat) : State :=
  match m.answer with
  | some v => joinReply s { m with back := 0 } v
  | none =>
    let n := s.clk.draws
    if !peerUsable s m.part k then joinReply s m 10
    else
      let s := { s with clk := { s.clk with draws := n + 1 } }
      if Config.peerAccepts n then
        let s := sendPacket s m.part true k 4 (m.handle :: m.words)
        let m := { m with answer := some (Config.peerReply n % 10) }
        sendIn { s with join := { s.join with msgs := s.join.msgs ++ [m] } } m.back (joinTag s m) (.reward m.id)
      else joinReply s m 10

/-- A reward (R321, R331); one for a peer module leaves through the hub (R379, R383). -/
def execReward (id : Nat) (s : State) : Out :=
  .next (accept s id 1 fun s m =>
    let w := fun i => m.words.getD i 0
    match m.peer with
    | none =>
      let x := forTable s m fun s => rewardAt s m.handle (w 0) (w 1) (w 2)
      joinReply x.1 m x.2
    | some k => rewardLeaves s m k)

/-- JCLOSE's message (R332). -/
def execJcloseMessage (id : Nat) (s : State) : Out :=
  .next (accept s id 2 fun s m =>
    let w := fun i => m.words.getD i 0
    let x := forTable s m fun s => closeAt s m.handle (w 0) (w 1) (w 2 == 1)
    joinReply x.1 m x.2)

/-- A JVER's or JCFG's message (R333). -/
def execJverMessage (id : Nat) (s : State) : Out :=
  .next (accept s id 3 fun s m =>
    if m.words.getD 0 0 = 0 then
      let old := match tableFor s m.part m.handle with
        | some t => t.lv
        | none => 2 ^ 63 + 4
      let s := if old < 2 ^ 63 then updTable s m.handle fun t => { t with lv := m.words.getD 1 0 } else s
      joinReply s m old
    else
      let x := configAt s m
      let lg := bitsAt (m.words.getD 1 0) 48 5
      match x.2 with
      | none => x.1
      | some v => answerRow x.1 m.row [⟨m.d, BitVec.ofNat 64 v⟩] (24 + (if m.words.getD 0 0 = 1 ∧ v = 0 then 2 ^ lg else 0)))

/-- A JSTAT's request (R333). -/
def execJstatRequest (id : Nat) (s : State) : Out :=
  .next (accept s id 4 fun s m =>
    match statAt s m.part m.handle (m.words.getD 0 0) with
    | some v => answerRow s m.row [⟨m.d, BitVec.ofNat 64 v⟩] m.back
    | none =>
      if codeOf s m.row ≠ 4 ∧ codeOf s m.row ≠ 5 then s
      else
        let c : Completion := ⟨[], 0, some ⟨cRIGHTS, 0x11, m.handle, 0⟩⟩
        postIn { s with rows := { s.rows with longs := tabSet s.rows.longs m.row c } } m.back { row := m.row, part := m.part, path := .J }
          (.longInstructionComplete m.row))

/-! ### Events of the engines -/

/-- A tick drops expired orphans (R322). -/
def execOrphanExpiry (eng : Nat) (s : State) : Out := .next (expireOrphans s eng)
/-- A tick acts on deadlines (R324). -/
def execEpisodeDeadline (eng : Nat) (s : State) : Out := .next (actDeadlines s eng (activeNow s))

/-- A release has made its scan and pushes its sketch (R326, R327); while its record is held it waits (R393). -/
def execReleasePush (eng : Nat) (s : State) : Out :=
  .next (match (tabGetD s.join.releases eng []).find? Release.running with
    | none => s
    | some x =>
      match (tableOf s x.table).bind fun t => (epOf t x.key).map fun e => (t, e) with
      | none => offerRelease s eng x
      | some (t, e) =>
        match stackWait s [e.recAt] with
        | some d => postIn s d {} (.releasePush eng)
        | none =>
        let s := recRead s t e.recAt (64 + 32 * recLen s e.recAt)
        offerRelease (scanRecord s t e.recAt) eng x)

/-- The held pushes of an engine whose 1,024 cycles have passed are offered again, the oldest first (R327). -/
def execReleasePushRetry (eng : Nat) (s : State) : Out :=
  let due := (tabGetD s.join.releases eng []).filter fun x => x.held && x.offerAt ≤ s.clk.now
  .next (due.foldl (fun s x => if (tabGetD s.join.releases eng []).contains x then offerRelease s eng x else s) s)

/-! ### Instructions -/

/-- JOPEN (R330). -/
def joinOpen (s : State) (h : BitVec 7) (d : Reg) (key : Nat) (b c e : Reg) (len : Nat) : State :=
  let lw := src s c
  if bitsAt lw 13 3 ≠ 0 then faultInstr s s.clk.cur cILLOP 0
  else joinIssue s 0 1 len (joinMsg s h.toNat d [key, src s b, lw, src s e % 2 ^ 32])

/-- The key of an X form: a register, or the extended immediate (JOPEN). -/
def joinKey (s : State) (sub : BitVec 3) (a : Reg) (imm : BitVec 32) : Nat :=
  if bitAt sub.toNat 0 then (imm.signExtend 64).toNat else src s a

/-- JOPEN, X form. -/
def execJopen (o : JopenX) (s : State) : Out := .next (joinOpen s o.h o.d (joinKey s o.sub o.a o.imm) o.b o.c o.e 12)
/-- JOPEN, literal form. -/
def execJopenXl (o : JopenL) (s : State) : Out := .next (joinOpen s o.h o.d o.lit.toNat o.b o.c o.e 20)

/-- JRWD (R331): local, or to the peer that S[e] names. -/
def joinReward (s : State) (h : BitVec 7) (d : Reg) (key : Nat) (b c e : Reg) (len : Nat) : State :=
  let m := joinMsg s h.toNat d [key, src s b, src s c % 2 ^ 32]
  if e = 0 then joinIssue s 1 1 len m
  else if src s e / 2 ^ 16 ≠ 0 then faultInstr s s.clk.cur cILLOP 0
  else joinIssue s 1 1 len { m with peer := some (src s e), back := 600 }

/-- JRWD, X form. -/
def execJrwd (o : JopenX) (s : State) : Out := .next (joinReward s o.h o.d (joinKey s o.sub o.a o.imm) o.b o.c o.e 12)
/-- JRWD, literal form. -/
def execJrwdXl (o : JopenL) (s : State) : Out := .next (joinReward s o.h o.d o.lit.toNat o.b o.c o.e 20)

/-- JCLOSE's message leaves once its fence is complete (R328). -/
def joinLeave (s : State) (m : JoinMsg) (out : Bool) (len : Nat) : State :=
  let s := sendJoinMsg s 2 m
  if m.wait then s else if out then completeLong s m.row else finish s m.row len

/-- JCLOSE (R328, R332). -/
def joinClose (s : State) (h : BitVec 7) (d : Reg) (key : Nat) (b : Reg) (terminal : Bool) (len : Nat) : State :=
  let r := s.clk.cur
  let id := s.clk.ids
  let m : JoinMsg := { joinMsg s h.toNat d [key, src s b % 2 ^ 32, flag01 terminal] with id := id }
  let kept := freshId { s with join := { s.join with msgs := s.join.msgs ++ [m] } }
  startFence kept r len 0 false (.join id) fun s =>
    let s := { s with join := { s.join with msgs := s.join.msgs.filter fun x => x.id != id } }
    joinLeave (if m.wait then beginLong s r 1 len else s) m false len

/-- JCLOSE, X form. -/
def execJclose (o : JcloseX) (s : State) : Out :=
  .next (joinClose s o.h o.d (joinKey s o.sub o.a o.imm) o.b (bitAt o.sub.toNat 1) 12)
/-- JCLOSE, literal form. -/
def execJcloseXl (o : JcloseL) (s : State) : Out := .next (joinClose s o.h o.d o.lit.toNat o.b o.terminal 20)

/-- A handle operand (R313). -/
def handleOf (s : State) (a : Reg) : Option Nat := if src s a < 128 then some (src s a) else none

/-- JCFG (R333): operation 1 set, 2 clear, 3 purge, applied at the engine 24 cycles later (R399). -/
def joinConfig (s : State) (op : Nat) (d a b : Reg) : State :=
  let r := s.clk.cur
  let off := src s b
  let f := fun c x => FaultRec.mk c x (off % 2 ^ 48) 0
  if !isPriv s r then faultInstr s r cPRIV 0
  else match handleOf s a with
    | none => faultInstr s r cILLOP 0
    | some h =>
      if off % 64 ≠ 0 then faultNow s r (f cALIGN 0)
      else if off < 0x800 ∨ 0xFC0 < off then faultNow s r (f cSEG 0x01)
      else
        let words := (List.range 8).map fun i => rowNat s r (off + 8 * i) 8
        sendJoinMsg (beginLong s r 2 12) 3 { joinMsg s h d (op :: words) with wait := true, back := 24 }

/-- JCFG set. -/
def execJcfgSet (d a b : Reg) (s : State) : Out := .next (joinConfig s 1 d a b)
/-- JCFG clear. -/
def execJcfgClear (d a b : Reg) (s : State) : Out := .next (joinConfig s 2 d a b)
/-- JCFG purge. -/
def execJcfgPurge (d a b : Reg) (s : State) : Out := .next (joinConfig s 3 d a b)

/-- JVER (R333), privileged. -/
def execJver (d a b : Reg) (s : State) : Out :=
  let r := s.clk.cur
  .next (if !isPriv s r then faultInstr s r cPRIV 0
    else match handleOf s a with
      | none => faultInstr s r cILLOP 0
      | some h => joinIssue s 3 1 12 (joinMsg s h d [0, src s b % 2 ^ 32]))

/-- JSTAT (R333). -/
def execJstat (d a : Reg) (sel : BitVec 32) (s : State) : Out :=
  let r := s.clk.cur
  .next (match handleOf s a with
    | none => faultInstr s r cILLOP 0
    | some h =>
      if 13 < sel.toNat then faultInstr s r cILLOP 0
      else joinIssue s 4 1 12 { joinMsg s h d [sel.toNat] with wait := true })

end Sys2Proof.Machine
end

