-- ==== Sys2Proof/Machine/Arrivals.lean ====
section
/-!
DEFINITION. Answers that come back to rows: replies of accesses, ends of long instructions, ends of page walks, lines of a
migration (R110, R185, R190 to R192, R206, R396).
-/
namespace Sys2Proof.Machine

/-! ### Replies (R110, R186, R396) -/

/-- A reply of an access has come; the last one completes it. -/
def replyArrives (s : State) (id : Nat) : State :=
  match tabGet s.ms.reqs id with
  | none => s
  | some q =>
    if 1 < q.left then replyCome s id q
    else match q.dest with
      | .acc _ _ => bandDone s id q
      | .table _ _ _ _ _ => tableRead s id q
      | _ => replyCome s id q

/-- MEMORY_REPLY. -/
def execMemoryReply (id : Nat) (s : State) : Out := .next (replyArrives s id)

/-- A long instruction ends (R110): its results and flags are written, or it faults. -/
def execLongInstructionComplete (row : Nat) (s : State) : Out :=
  .next (if codeOf s row ≠ 4 ∧ codeOf s row ≠ 5 then s
    else match tabGet s.rows.longs row with
      | none => s
      | some c =>
        match c.fault with
        | some f => faultLong s row f
        | none => endLong s row (c.writes.map RowWrite.reg) fun s => orFlags (c.writes.foldl (fun s w => setS s row w.reg w.val) s) row c.fl)

/-! ### Walks (R190 to R192) -/

/-- An access goes on by what it is: a band of accumulators, a rule table, or a plain access. -/
def actOf (q : Req) : State → Nat → Req → Bool → PlanRes → State :=
  match q.dest with
  | .acc _ _ => bandAct
  | .table _ _ _ _ _ => tableAct
  | _ => planAct

/-- What an ended walk served goes on (R191). -/
def serveOne (w : Walk) (s : State) (x : WalkFor) : State :=
  match x with
  | .access id =>
    (match tabGet s.ms.reqs id with
     | none => s
     | some q =>
       -- a PREF whose checks fail does nothing (R203); its address stands in `status`
       let s := match w.entry with
         | some e => if q.elems.isEmpty ∧ q.need = 4 ∧ !prefUses s q.part q.ctx q.status e then s else fillTlb s q.ex e
         | none => s
       serveAccess s w id (actOf q))
  | .reissue r va => serveFetch s w r va
  | .copy id va need => serveCopy s w id va need
  | .query r d rights va => serveQuery s w r d rights va
  | .migrate r d gpa va => serveMigrate s w r d gpa va

/-- Drop what a walk brought that a TLBINV has passed (R205). -/
def dropStale (s : State) (w : Walk) : State :=
  if !w.stale then s
  else
    let keep := fun (l : List TlbEntry) => l.filter fun e => some e != w.entry
    { s with ms := { s.ms with tlb := s.ms.tlb.map fun e => (e.1, keep e.2), tlb2 := s.ms.tlb2.map fun e => (e.1, keep e.2) } }

/-- Whether an ended walk fills the caches (R190, R203, R205): none does that a TLBINV has passed, and one that serves nothing but PREFs
only when the checks of R183 hold. -/
def walkFills (s : State) (w : Walk) : Bool :=
  let idle := fun (x : WalkFor) => match x with
    | .access id => (tabGet s.ms.reqs id).any fun q => q.elems.isEmpty && q.need == 4 && !w.entry.any (prefUses s q.part q.ctx q.status)
    | _ => false
  !w.stale && (w.serves.isEmpty || !w.serves.all idle)

/-- A walk ends (R190, R191), unless a read of it is still held (R393): the caches are filled, what it served goes on in arrival order, the next of the queue begins. -/
def execWalkComplete (id : Nat) (s : State) : Out :=
  .next (match s.ms.walks.find? fun w => w.id == id with
    | none => s
    | some w =>
      match walkWait s w with
      | some d => postIn (setWalk s (readWalk s w)) d { part := w.part, ctx := w.ctx } (.walkComplete id)
      | none =>
      let s := { s with ms := { s.ms with walks := s.ms.walks.filter fun x => x.id != id } }
      let s := if w.stale then s else fillS2 s w.studio w.fills
      let s := match w.entry with
        | some e => if walkFills s w then fillTlb s w.ex e else s
        | none => s
      let s := startWalks s w.studio 64
      dropStale (w.serves.foldl (serveOne w) s) w)

/-- One line of a migration (R196, R206). -/
def execMigrationLineCopy (id : Nat) (s : State) : Out := .next (migrateLine s id)

end Sys2Proof.Machine
end

