-- ==== Sys2Proof/Machine/Waits.lean ====
section
/-!
DEFINITION. The end of a wait whose condition has come to hold (R100, R110, R224, R226, R227, R397): PHASE and WAITLB end in place,
an instruction that first acted as a FENCE goes on, any other instruction issues again.
-/
namespace Sys2Proof.Machine

/-- A waiting PHASE or WAITLB ends in place (R224, R226): its channel pop is committed first (R121), its push waits for room (R243), or
faults (R244). A closed row issues it again. -/
def endInPlace (s : State) (r d : Nat) (done : State → State) : State :=
  if codeOf s r ≠ 4 then resumeRow s r
  else if d = 31 ∧ chanOn s r ∧ condTrue s r .chanOut = false then s
  else match pushStops s r [d] with
  | some f => faultLong s r f
  | none =>
    let s := if s.rows.popDue.contains r then updEnd s r fun e => { e with inp := e.inp.drop 1 } else s
    done (runRow (withdraw s r) r)

/-- What follows a row's completed FENCE (R227, R229, R255, R328). -/
def afterFence (s : State) (r : Nat) (a : After) : State :=
  match a with
  | .finish => completeLong s r
  | .access id =>
    (match tabGet s.ms.reqs id with
     | none => completeLong s r
     | some q =>
       match q.op with
       | .jdec _ => actPlan s id 4 q true (planReq s q)
       | _ => resumeAccess s r id)
  | .join id =>
    (match s.join.msgs.find? fun m => m.id == id with
     | none => completeLong s r
     | some m =>
       joinLeave { s with join := { s.join with msgs := s.join.msgs.filter fun x => x.id != id } } m true (tabGetD s.rows.lens r 4))
  | .done d =>
    endLong s r [d] fun s =>
      let x := doneStep s r
      setS x.1 r d (BitVec.ofNat 64 x.2)

/-- The condition of a row's wait holds: the wait ends. -/
def endWait (s : State) (r : Nat) (w : Wait) : State :=
  match w.cond with
  | .phase d _ _ => endInPlace s r d fun s => phaseEnd s r d
  | .lower d σ _ => endInPlace s r d fun s => waitlbEnd s r d σ
  | .wetRoom =>
    (match w.after with
     | .access id => resumeAccess s r id
     | _ => completeLong s r)
  | .fence _ _ => afterFence { s with rows := { s.rows with waits := tabDel s.rows.waits r } } r w.after
  | .walks _ _ => completeLong s r
  | _ => resumeRow s r

/-- Every wait whose condition holds ends, in the order of the rows, in an enabled cycle of the row's executor (R100, R110, R360). -/
def endWaits (s : State) : State :=
  s.rows.waits.foldl (fun s e =>
    match tabGet s.rows.waits e.1 with
    | none => s
    | some w =>
      if clockOn s (exOf e.1) && (codeOf s e.1 == 4 || codeOf s e.1 == 5) && condTrue s e.1 w.cond then endWait s e.1 w else s) s

end Sys2Proof.Machine
end

