-- ==== Sys2Proof/Machine/Supervision.lean ====
section
/-!
DEFINITION. Supervision (R334 to R357): TRAP, BEAT, GTIME, SWITCH; the gang switch, suspend and resume, and the end of a context by
order. Taking a fault itself is `takeFault`.
-/
namespace Sys2Proof.Machine

/-! ### Instructions (R354 to R357) -/

/-- TRAP (R354): the fault TRAP with S[a] as detail and address. -/
def execTrap (a : Reg) (s : State) : Out :=
  let r := s.clk.cur
  .next (faultNow s r ⟨cTRAP, src s a % 256, src s a % 2 ^ 48, 0⟩)

/-- BEAT (R355). -/
def execBeat (s : State) : Out := commit (beat s s.clk.cur) 4

/-- GTIME (R356): the executor's view of global time. -/
def execGtime (d : Reg) (s : State) : Out := putReg s d (BitVec.ofNat 64 (gtimeAt s (exOf s.clk.cur))) 4

/-- Whether a scheduled switch has reached its T cycle at some executor (R346). -/
def tAnywhere (s : State) (p : Nat) : Bool := (List.range 1024).any fun ex => tReached s p ex

/-- SWITCH's status and effect (R357); a held partition answers BUSY (R366). -/
def switchAct (s : State) (p ex v t : Nat) : State × Nat :=
  let pend := switchPending s p
  if v &&& (2 ^ 64 - 1 - 0x107) ≠ 0 then (s, 4)
  else if bitAt v 8 then
    if pend && !tAnywhere s p then (setRegBits (setRegBits s (supAt p) 3 1 0) (supAt p) 8 3 2, 0) else (s, 5)
  else if pend || s.hub.heldParts.contains p then (s, 1)
  else if v % 8 = activeCtx s p then (s, 3)
  else if t < gtimeAt s ex + 10000 then (s, 2)
  else (setRegBits (setRegBits (setRegWord s (supAt p + 8) t) (supAt p) 4 3 (v % 8)) (supAt p) 3 1 1, 0)

/-- SWITCH, privileged (R357). -/
def execSwitch (d a b : Reg) (s : State) : Out :=
  let r := s.clk.cur
  .next (if !isPriv s r then faultInstr s r cPRIV 0
    else
      let x := switchAct s (partOf s r) (exOf r) (src s a) (src s b)
      finish (setS x.1 r d.toNat (BitVec.ofNat 64 x.2)) r 4)

/-! ### Needs of the save engine (R345) -/

/-- Wet entries of a context, held or spilled. -/
def wetOfCtx (s : State) (p c : Nat) : List Wet := s.ms.wet.filter fun w => w.part == p && w.ctx == c

/-- Copies of a context. -/
def copiesOfCtx (s : State) (p c : Nat) : List Copy := s.eng.copies.filter fun x => x.part == p && x.ctx == c

/-- Messages of a partition in flight, replies and pieces of copies included, or already kept in drop cloths. -/
def flyingOf (s : State) (p : Nat) : Nat :=
  (s.agenda.filter fun t => travels t.ev && t.tag.part == p).length +
  s.eng.copies.foldl (fun n c => if c.part = p then n + c.fly.length else n) 0 +
  s.hub.cloths.foldl (fun n e => if e.1 / 8 = p then n + e.2.length else n) 0

/-- Whether a context's wet entries and copy records, and the partition's messages, fit their areas. -/
def switchFits (s : State) (p c : Nat) : Bool :=
  128 * (wetOfCtx s p c).length ≤ regBits s (supAt p + 0x108 + 0x20 * c) 0 40 &&
  (copiesOfCtx s p c).length ≤ regBits s (supAt p + 0x118 + 0x20 * c) 0 24 &&
  160 * flyingOf s p ≤ regBits s (supAt p + 0x20) 0 40

/-- Lines of 64 bytes that the unit state of a partition takes: rack entries, pot descriptors, channel words, watches, cached
translations. -/
def unitLines (s : State) (p : Nat) : Nat :=
  s.msg.racks.foldl (fun n e => if e.1 % 32 = p then n + e.2.length else n) 0 +
  s.msg.moves.foldl (fun n m => if m.part = p then n + m.entries.length else n) 0 +
  (s.regs.filter fun e => (List.range 8).any fun c => isPotOf s p c e.1).length +
  s.msg.ends.foldl (fun n e => if partOf s e.row = p then n + e.out.length + e.moving.length + e.inp.length else n) 0 +
  (s.ms.watches.filter fun w => partOf s w.row == p && !w.polled).length +
  s.ms.tlb.foldl (fun n e => n + (e.2.filter fun x => x.part == p).length) 0 +
  s.ms.tlb2.foldl (fun n e => n + (e.2.filter fun x => x.part == p).length) 0

/-- Whether everything a suspend saves of a partition fits. -/
def suspendFits (s : State) (p : Nat) : Bool :=
  (List.range 8).all (fun c => switchFits s p c) &&
  2 ^ 26 * popCount 32 (bankSet s p) ≤ regBits s (supAt p + 0x30) 0 40 &&
  64 * unitLines s p + 4096 * 1024 ≤ regBits s (supAt p + 0x40) 0 40

/-! ### Out (R347 to R349) -/

/-- The row that waits for the answer of a message in flight. -/
def awaitsEvent (s : State) (ev : Instr) : Option Nat :=
  let req := fun id => (tabGet s.ms.reqs id).bind fun q => if q.wait then some q.row else none
  let msg := fun id => (s.join.msgs.find? fun m => m.id == id && m.wait).map JoinMsg.row
  match ev with
  | .directAccess id _ => req id
  | .noteLanding id => req id
  | .potOperation id => (s.eng.pots.find? fun q => q.id == id).map PotReq.row
  | .remoteRackOperation id =>
    (s.msg.rackOps.find? fun o => o.id == id && !o.wait && (o.push.isNone || o.d != 0)).map RackOp.row
  | .jopenMessage id => msg id
  | .reward id => msg id
  | .jcloseMessage id => msg id
  | .jverMessage id => msg id
  | .jstatRequest id => msg id
  | .bsumArrival id => (tabGet s.eng.bsums id).bind fun m => if m.getD 5 0 = 0 then none else some (m.getD 4 0).toNat
  | .haloStrip id => (s.eng.strips.find? fun x => x.id == id && !x.back).map Strip.row
  | _ => none

/-- Whether a drop cloth catches a message of an outgoing context (R349): requests, notes and control messages of its rows on every path, and
no reply. -/
def caught (p c : Nat) (t : Timed) : Bool :=
  t.tag.request && t.tag.part == p && t.tag.ctx == c && travels t.ev && !isReply t.ev

/-- A row of the outgoing context sleeps where it stands, its latch retained and its watchdog window at its end (R341, R347, R348). -/
def sleepOut (s : State) (r why : Nat) : State :=
  setF (setCode (updSlot (endWindow s r) r fun x => { x with retained := true }) r 5 why) r fCtxOut 1

/-- The paths that an outstanding FENCEX of a row looks at before (R228). -/
def fencexPaths (s : State) (r n : Nat) : List Path :=
  match s.ms.fencex.find? fun f => f.row == r && f.n == n with
  | none => []
  | some f => (([Path.T, .C, .M, .G, .J, .S, .N]).zipIdx.filter fun x => bitAt f.before x.2).map Prod.fst

/-- Rows whose awaited message, or messages of the FENCE or FENCEX for which they wait, a drop cloth caught (R347). -/
def caughtRows (s : State) (l : List Timed) : List Nat :=
  let fenced := fun (t : Timed) => match tabGet s.rows.waits t.tag.row with
    | some w => (match w.cond with
      | .fence _ _ => if t.tag.path = .T then some t.tag.row else none
      | .fencex n => if (fencexPaths s t.tag.row n).contains t.tag.path then some t.tag.row else none
      | _ => none)
    | none => none
  ((l.filterMap fun t => awaitsEvent s t.ev) ++ l.filterMap fenced).eraseDups.filter fun r => codeOf s r == 4

/-- The messages of an outgoing context drop into cloths, each with the time it still has to go (R349); what the routers' buffers do not
hold spills, a free number of lines (log 13). -/
def catchAll (s : State) (p c : Nat) : State :=
  let mine := s.agenda.filter (caught p c)
  let rows := caughtRows s mine
  let kept := mine.map fun t => { t with due := t.due - s.clk.now }
  let k := p * 8 + c
  let cloths := if mine.isEmpty then s.hub.cloths else tabUpd s.hub.cloths k [] fun l => l ++ kept
  let spill := if mine.isEmpty then s.hub.clothLines
    else tabUpd s.hub.clothLines k 0 fun n => n + min (Config.clothSpill s.clk.draws) ((160 * mine.length + 63) / 64)
  let s := { s with
    clk := { s.clk with draws := s.clk.draws + 1 }
    agenda := s.agenda.filter fun t => !caught p c t, hub := { s.hub with cloths := cloths, clothLines := spill } }
  rows.foldl (fun s r => sleepOut s r 1) s

/-- READY rows of an outgoing context leave the activation queues for the wake lists, in their order (R350, log 13). -/
def queueOut (s : State) (p c : Nat) : State :=
  let qs := s.rows.queue.filter fun e => e.1 % 32 == p
  qs.foldl (fun s e =>
    let mine := e.2.filter fun r => ctxOf s r == c
    let s := mine.foldl (fun s r => setF s r fCtxOut 1) s
    let k := wakeKey (e.1 / 32) p c
    { s with rows := { s.rows with
        queue := tabSet s.rows.queue e.1 (e.2.filter fun r => ctxOf s r != c)
        queuedAt := mine.foldl (fun t r => tabDel t r) s.rows.queuedAt
        wakes := if mine.isEmpty then s.rows.wakes else tabUpd s.rows.wakes k [] fun l => l ++ mine } }) s

/-- Open rows of an outgoing context that wait on an unbounded event sleep at once; watches are withdrawn (R347, R349). A WATCH whose page
is still being walked is bounded so far and goes on to its boundary. -/
def waitersOut (s : State) (p c : Nat) : State :=
  let rows := s.rows.slots.filterMap fun e =>
    if partOf s e.2.row = p ∧ ctxOf s e.2.row = c ∧ codeOf s e.2.row = 4 then
      (match tabGet s.rows.waits e.2.row with
       | some w => if w.bounded then none else some (e.2.row, w.why)
       | none => none)
    else none
  let s := rows.foldl (fun s x => sleepOut s x.1 x.2) s
  let watching := fun (q : Req) => q.isWatch && q.part == p && q.ctx == c && codeOf s q.row != 4
  let ids := (s.ms.reqs.filter fun e => watching e.2).map Prod.fst
  { s with ms := { s.ms with
      watches := s.ms.watches.filter fun w => !ids.contains w.req
      reqs := s.ms.reqs.filter fun e => !watching e.2 } }

/-- A context goes out at the hub's decision (R347 to R349); `pay` charges the lines that the save engine writes (R353). -/
def switchOut (s : State) (p c : Nat) (pay : State → Nat → State) : State :=
  let s := catchAll (waitersOut (queueOut s p c) p c) p c
  let wets := (wetOfCtx s p c).filter fun w => !w.spilled
  let cps := (copiesOfCtx s p c).filter fun x => x.state != 4
  let s := { s with
    ms := { s.ms with wet := s.ms.wet.map fun w => if w.part = p ∧ w.ctx = c then { w with spilled := true } else w }
    eng := { s.eng with copies := s.eng.copies.map fun x =>
      if x.part = p ∧ x.ctx = c then { x with out := true } else x } }
  pay s (2 * wets.length + cps.length + tabGetD s.hub.clothLines (p * 8 + c) 0)

/-! ### In (R348 to R350) -/

/-- A context comes back (R349, R350): its messages go on, its copies resume, its wake lists enter the queues, its watches are
issued again. -/
def switchIn (s : State) (p c : Nat) (pay : State → Nat → State) : State :=
  let back := tabGetD s.hub.cloths (p * 8 + c) []
  let lines := tabGetD s.hub.clothLines (p * 8 + c) 0
  let s := { s with hub := { s.hub with cloths := tabDel s.hub.cloths (p * 8 + c), clothLines := tabDel s.hub.clothLines (p * 8 + c) } }
  let s := back.foldl (fun s t => postAt s (s.clk.now + t.due) t.tag t.ev) s
  let cps := (copiesOfCtx s p c).filter fun x => x.out && x.state != 4
  let s : State := { s with eng := { s.eng with copies := s.eng.copies.map fun (x : Copy) =>
    if x.part = p ∧ x.ctx = c then { x with out := false } else x } }
  let mine := s.rows.kinds.filter fun r => partOf s r == p && ctxOf s r == c
  let s := mine.foldl (fun s r => setF s r fCtxOut 0) s
  let lists := s.rows.wakes.filter fun e => e.1 / 8 % 32 == p && e.1 % 8 == c
  let s := { s with rows := { s.rows with wakes := s.rows.wakes.filter fun e => !(e.1 / 8 % 32 == p && e.1 % 8 == c) } }
  let s := lists.foldl (fun s e => e.2.foldl (fun s r => if codeOf s r = 2 then enqueue s r else s) s) s
  let s := mine.foldl (fun s r => if codeOf s r = 5 ∧ getF s r fWhy = 6 then makeReady (withdraw s r) r else s) s
  pay s (cps.length + lines)

/-! ### The gang switch (R346) -/

/-- Enabled cycles of an executor since the decision reached it. -/
def sinceDecision (s : State) (w : Switching) (ex : Nat) : Nat :=
  enabledCycles s ex - (decisionAt s w ex - w.lostAll - tabGetD w.lostStack (stackOf ex) 0)

/-- Whether a slot's entry has passed to the incoming context (R346): it has come up since the decision, or 64 cycles have gone. -/
def slotPassed (s : State) (ex p k : Nat) : Bool :=
  match switchOf s p with
  | none => true
  | some w =>
    if w.short then true
    else if !w.decided || s.clk.now < decisionAt s w ex then false
    else
      let n := sinceDecision s w ex
      let c := enabledCycles s ex
      64 ≤ n || (List.range (n + 1)).any fun i => (tabGetD s.iss.tables ex []).getD ((c - i) % 64) ((c - i) % 64 % 32) == k

/-- The T cycle (R346): the outgoing context stops; the hub decides 256 cycles later. -/
def execSwitchTCycle (p : Nat) (s : State) : Out :=
  .next (if !(switchPending s p && tAnywhere s p) || (switchOf s p).any (fun w => !w.decided) then s
    else
      let w : Switching := { part := p, out := activeCtx s p, at_ := regWord s (supAt p + 8), tAt := s.clk.now, decided := false, short := false, lostAll := 0, lostStack := [] }
      let s := { s with hub := { s.hub with switching := (s.hub.switching.filter fun x => x.part != p) ++ [w] } }
      postIn s 256 {} (.switchDecision p))

/-- The hub's decision (R345, R346): SHORT gives nothing over; DONE passes the partition to the incoming context. It reaches each executor
256 cycles after that executor's own T cycle. -/
def execSwitchDecision (p : Nat) (s : State) : Out :=
  .next (match switchOf s p with
    | none => s
    | some w =>
      if w.decided then s
      else
        let rest := s.hub.switching.filter fun x => x.part != p
        let done := fun (s : State) (v : Nat) => setRegBits (setRegBits s (supAt p) 3 1 0) (supAt p) 8 3 v
        if !switchFits s p w.out then
          done { s with hub := { s.hub with switching := rest ++ [{ w with decided := true, short := true }] } } 1
        else
          let c := regBits s (supAt p) 4 3
          let w := { w with decided := true, lostAll := s.clk.lostAll, lostStack := s.clk.lostStack }
          let s := done (setRegBits { s with hub := { s.hub with switching := rest ++ [w] } } (supAt p) 0 3 c) 0
          let s := switchOut s p w.out fun s n => chargeCtx s p w.out n
          switchIn s p c fun s n => chargeCtx s p c n)

/-- An accumulator set whose holder's context is out spills once no bounded instruction of the holder uses it (R288, R349); its writes wait
for a sequencer under reset (R393). -/
def spillOut (s : State) : State :=
  let out := s.eng.units.filter fun e => match e.2.holder with
    | some r => e.2.spillEnds.isNone && !ctxActive s r && codeOf s r != 4 && (tabGet s.eng.mma e.1).isNone && (s.rows.slots.all fun x => x.2.row != r || x.2.retained)
    | none => false
  let s := out.foldl (fun s e => beginSpill s e.1) s
  let done := s.eng.units.filter fun e => match e.2.spillEnds with
    | some n => decide (n ≤ s.clk.now) && (match recordAt s e.1 e.2.part e.2.ctx with
      | some m => (stackHeld s (spillAt m)).isNone
      | none => true)
    | none => false
  done.foldl (fun s e => spillUnit s e.1) s

/-- RUNNING rows of a context that is out stand at a boundary; each is retained when its entry has passed (R347, R348). -/
def retainOut (s : State) : State :=
  s.rows.slots.foldl (fun s e =>
    if codeOf s e.2.row = 3 ∧ !e.2.retained ∧ !ctxActive s e.2.row ∧ slotPassed s (e.1 / 32) (partOf s e.2.row) (e.1 % 32) then
      retainRow s e.2.row
    else s) s

/-- Rows whose SWEEP, MMA or GEN stands between two steps. -/
def betweenSteps (s : State) : List Nat :=
  ((s.eng.mma.filter fun e => !e.2.begun && !e.2.ended).map fun e => e.2.row) ++ s.eng.sweepQ.flatMap Prod.snd ++
  s.eng.rules.flatMap fun e => ((if e.2.busy then e.2.queue.drop 1 else e.2.queue).filter fun q => q.kind == 0).map RuleReq.row

/-- Those of a context that is out are at a boundary: READY, PROGRESS kept, latch retained (R347). -/
def stepsOut (s : State) : State :=
  ((betweenSteps s).filter fun r => codeOf s r == 4 && !ctxActive s r).foldl (fun s r =>
    retainRow { s with eng := { s.eng with
      mma := s.eng.mma.filter fun e => e.2.row != r
      rules := s.eng.rules.map fun e => (e.1, { e.2 with queue := e.2.queue.filter fun q => !(q.kind == 0 && q.row == r) }) } } r) s

/-- Whether nothing of a context that is out is still under way: no latch that is not retained, no unit, no piece of a copy. -/
def outDone (s : State) (p c : Nat) : Bool :=
  s.rows.slots.all (fun e => e.2.retained || !(partOf s e.2.row == p && ctxOf s e.2.row == c)) &&
  s.eng.units.all (fun e => !(e.2.holder.isSome && e.2.part == p && e.2.ctx == c)) &&
  s.eng.copies.all fun x => !(x.part == p && x.ctx == c) || x.fly.isEmpty

/-- SWDONE is written once every executor has finished a switch (R346); a refused one is forgotten once all executors know. -/
def endSwitches (s : State) : State :=
  let s := { s with hub := { s.hub with switching := s.hub.switching.filter fun w =>
    !(w.short && (List.range 1024).all fun ex => decisionAt s w ex ≤ s.clk.now) } }
  let ended := s.hub.switching.filter fun w => w.decided && !w.short && outDone s w.part w.out &&
    (List.range 1024).all fun ex => 64 ≤ sinceDecision s w ex
  ended.foldl (fun s w =>
    { setRegWord s (supAt w.part + 0x10) (hubTime s) with
      hub := { s.hub with switching := s.hub.switching.filter fun x => x.part != w.part } }) s

/-! ### The end of a context by order (R339) -/

/-- The conservator ends a context on the management endpoint's request. -/
def execContextEndOrder (p c : Nat) (s : State) : Out :=
  .next (if p < 32 ∧ ctxLive s p (c % 8) then contextEnd s p (c % 8) 5 else s)

/-! ### Suspend and resume (R351, R352) -/

/-- The bound partitions. -/
def boundParts (s : State) : List Nat := (List.range 32).filter fun p => slotSet s p != 0

/-- Stages 2 to 7 of a suspend, once every row has come to rest: what is saved is charged to the device; the reduction cells are lost;
the retained latches are written back, each an activation of its row (R392); STILL. -/
def enterStill (s : State) : State :=
  let wets := s.ms.wet.filter fun w => !w.spilled
  let need := s.hub.cloths.map fun (e : Nat × List Timed) => (e.1, (160 * e.2.length + 63) / 64)
  let cloth := need.foldl (fun n e => n + (e.2 - tabGetD s.hub.clothLines e.1 0)) 0
  let units := (boundParts s).foldl (fun n p => n + unitLines s p + 2 ^ 20 * popCount 32 (bankSet s p) + 64 * 1024) 0
  let latched := s.rows.slots.filter fun e => e.2.retained
  let s := { s with
    rows := { s.rows with slots := s.rows.slots.filter fun e => !e.2.retained
                          activations := latched.foldl (fun t e => activation t e.2.row) s.rows.activations }
    ms := { s.ms with wet := s.ms.wet.map fun w => { w with spilled := true } }
    eng := { s.eng with cells := [] }
    hub := { s.hub with suspendAt := none, clothLines := need } }
  setRegBits (chargeDevice s (2 * wets.length + cloth + units + 64 * latched.length)) powerAt 0 3 5

/-- A suspend (R351): the order, its T cycle at each executor, the hub's decision 256 cycles after the first of them, and the wait until
every row is at rest. -/
def execSuspend (t : Nat) (s : State) : Out :=
  .next (if pstate s = 2 then postIn (setRegBits { s with hub := { s.hub with suspendT := some t } } powerAt 0 3 6) 0 {} (.suspend t)
    else if pstate s ≠ 6 then s
    else if !s.hub.suspended.isEmpty then
      (if s.hub.suspended.all fun x => outDone s x.1 x.2 then enterStill s else postIn s 64 {} (.suspend t))
    else match s.hub.suspendAt with
      | none =>
        if !(List.range 1024).any fun ex => t ≤ gtimeAt s ex then postIn s (max 1 (12 * (t - 4 - hubTime s) / 5)) {} (.suspend t)
        else postIn { s with hub := { s.hub with suspendAt := some s.clk.now } } 256 {} (.suspend t)
      | some c =>
        let w : Switching := { part := 32, out := 0, at_ := t, tAt := c, decided := true, short := true, lostAll := 0, lostStack := [] }
        let s := { s with hub := { s.hub with suspendT := none } }
        if !(boundParts s).all fun p => suspendFits s p then
          setRegBits { s with hub := { s.hub with suspendAt := none, switching := s.hub.switching ++ [w] } } powerAt 0 3 2
        else
          let out := (boundParts s).map fun p => (p, activeCtx s p)
          let s := { s with hub := { s.hub with suspended := out } }
          let s := out.foldl (fun s x => switchOut s x.1 x.2 chargeDevice) s
          -- with no partition bound nothing has to come to rest
          if out.isEmpty then enterStill s else postIn s 64 {} (.suspend t))

/-- Resume (R352): power and memory return, and after at most 60 ms each partition's last active context is switched in at the global
time `t`. -/
def execResumeModule (t : Nat) (s : State) : Out :=
  .next (if pstate s = 5 then
      let d := 1 + Config.extraDelay s.clk.draws % 144000000
      postIn (setRegBits { s with clk := { s.clk with draws := s.clk.draws + 1 } } powerAt 0 3 7) d {} (.resumeModule t)
    else if pstate s ≠ 7 then s
    else if hubTime s < t then postIn s ((12 * (t - hubTime s) + 4) / 5) {} (.resumeModule t)
    else
      let back := s.hub.suspended
      let units := (boundParts s).foldl (fun n p => n + unitLines s p + 2 ^ 20 * popCount 32 (bankSet s p) + 64 * 1024) 0
      let s := setRegBits (chargeDevice { s with hub := { s.hub with suspended := [] } } units) powerAt 0 3 2
      back.foldl (fun s x => switchIn s x.1 x.2 chargeDevice) s)

/-- The correction of an executor's replica from the west hub (R356): the model's replicas keep the exact rate of 5 ns in 12 cycles,
so a correction finds nothing to change (log 12). -/
def execGtimeCorrection (_ex : Nat) (s : State) : Out := .next s

end Sys2Proof.Machine
end

