-- ==== Sys2Proof/Machine/Layout.lean ====
section
/-!
DEFINITION. The partition layout and its change in two phases (R361 to R369): PREPARE, COMMIT with its effects, and the conservator's
recovery.
-/
namespace Sys2Proof.Machine

/-! ### What the conservator answers (R385, R395) -/

/-- The conservator acts only once its image has been verified (R386). -/
def conservatorRuns (s : State) : Bool := s.hub.verified.contains 0

/-- An answer of the conservator to the apprentice. -/
def conservatorSays (s : State) (p : Nat) (words : List Nat) : State := hostNote s p 0 9 words

/-- A request is refused: counted and logged to the black box (R385). -/
def refuseRequest (s : State) (p code : Nat) : State :=
  let s := logBox { s with hub := { s.hub with refusals := s.hub.refusals + 1 } } 7 0 p 0 code
  conservatorSays s p [2 ^ 64 - 1, code]

/-! ### The shadow (R362, R365) -/

/-- Word `i` of the record of partition `p` in a proposed layout: words 0 to 7 of the record, then the save-area words DCBASE, DCSIZE,
PSBASE, PSSIZE, USBASE, USSIZE, then WSBASE, WSSIZE, CRBASE, CRSIZE of each context, then S2BASE, S2LEN of each context (log 7). -/
def propWord (layout : List (List Nat)) (p i : Nat) : Nat := (layout.getD p []).getD i 0

/-- The record word the conservator writes: reserved bits zero, context 0 of a bound partition enabled (R362, R364). -/
def recordWord (layout : List (List Nat)) (gen p i : Nat) : Nat :=
  let w := propWord layout p i
  match i with
  | 0 => w % 2 ^ 64
  | 1 => (bitsAt w 0 9 ||| flag01 (propWord layout p 0 % 2 ^ 32 != 0)) + bitsAt w 16 12 * 2 ^ 16
  | 2 => gen % 2 ^ 32
  | 3 => w % 2 ^ 24
  | _ => w % 2 ^ 48

/-- Slots and banks of a proposed record. -/
def propSlots (l : List (List Nat)) (p : Nat) : Nat := propWord l p 0 % 2 ^ 32
/-- Banks. -/
def propBanks (l : List (List Nat)) (p : Nat) : Nat := bitsAt (propWord l p 0) 32 32
/-- Base and size in bytes of extent `e`. -/
def propExtent (l : List (List Nat)) (p e : Nat) : Nat × Nat :=
  (bitsAt (propWord l p (4 + e)) 21 27 * 2 ^ 21, bitsAt (propWord l p (4 + e)) 0 21 * 2 ^ 21)

/-- Whether two spans of bytes meet. -/
def spansMeet (x y : Nat × Nat) : Bool := x.2 != 0 && y.2 != 0 && x.1 < y.1 + y.2 && y.1 < x.1 + x.2

/-- Whether the rules of R361 are broken. -/
def layoutOverlaps (l : List (List Nat)) : Bool :=
  let ps := List.range 32
  ps.any (fun p => (propSlots l p == 0) != (propBanks l p == 0)) ||
  ps.any fun p => ps.any fun q => p < q &&
    (propSlots l p &&& propSlots l q != 0 || propBanks l p &&& propBanks l q != 0 ||
     (List.range 4).any fun e => (List.range 4).any fun f => spansMeet (propExtent l p e) (propExtent l q f))

/-- Bytes of a partition's save areas and second-stage arrays (R188, R344, R363). -/
def areasNeed (l : List (List Nat)) (p : Nat) : Nat :=
  let w := propWord l p
  w 9 % 2 ^ 40 + w 11 % 2 ^ 40 + w 13 % 2 ^ 40 +
  (List.range 8).foldl (fun n c => n + w (15 + 4 * c) % 2 ^ 40 + 64 * (w (17 + 4 * c) % 2 ^ 24) + 8 * (w (47 + 2 * c) % 2 ^ 23)) 0

/-- Whether some reserved area cannot hold its partition's save areas, or RSV is above 2,048 (R362, R363, R365). -/
def areasFail (l : List (List Nat)) : Bool :=
  (List.range 32).any fun p =>
    let rsv := bitsAt (propWord l p 1) 16 12
    2048 < rsv || rsv * 4096 * 1024 * popCount 32 (propBanks l p) < areasNeed l p

/-- Whether some extent lies outside installed second-tier memory (R365). -/
def extentFails (l : List (List Nat)) : Bool :=
  (List.range 32).any fun p => (List.range 4).any fun e =>
    let x := propExtent l p e
    x.2 != 0 && !(isTier2 x.1 && isTier2 (x.1 + x.2 - 1))

/-- Words of the 32 records of a kind, for the hash of R365 and R386. -/
def recordsOf (s : State) (base : Nat → Nat) : List Nat :=
  (List.range 32).flatMap fun p => (List.range 8).map fun i => regWord s (base p + 8 * i)

/-- LAYOUTGEN and SHADOWGEN (R372). -/
def layoutGen (s : State) : Nat := regBits s (powerAt + 8) 0 32
/-- SHADOWGEN. -/
def shadowGen (s : State) : Nat := regBits s (powerAt + 8) 32 32

/-- The conservator writes a journal record (R365, R366). -/
def journal (s : State) (kind gen hash : Nat) : State :=
  logBox { s with hub := { s.hub with journal := (kind, gen, hash) :: s.hub.journal } } 2 0 0 0 (kind + 4 * gen)

/-- Whether the life-cycle state lets partitions be bound (R387). -/
def mayBind (s : State) : Bool := s.hub.lifeCycle == 0 || s.hub.lifeCycle == 2

/-- A layout that breaks a rule is refused (R365, R385): its status is the answer, and the refusal is counted and logged. -/
def refuseLayout (s : State) (status : Nat) : State :=
  conservatorSays (logBox { s with hub := { s.hub with refusals := s.hub.refusals + 1 } } 7 0 0 0 (12 + 256 * status)) 0 [0, status]

/-- Whether the apprentice's image runs, and with it whatever asks the conservator for something (R385, R386). -/
def apprenticeRuns (s : State) : Bool := s.hub.verified.contains 1

/-- PREPARE (R365), a request of number 12 (R385, log 7): the shadow is written and checked; 0 DONE, 1 OVERLAP, 2 AREAS, 3 EXTENT. While a
COMMIT is under way, or where the conservator's own limits do not allow it, it is refused. -/
def execPrepare (layout : List (List Nat)) (s : State) : Out :=
  let busy := match s.hub.journal with
    | (1, _, _) :: _ => true
    | _ => false
  .next (if !conservatorRuns s ∨ !apprenticeRuns s then s
    else if !Config.conservatorAllows 12 0 || busy || (!mayBind s && (List.range 32).any fun p => propSlots layout p != 0) then refuseRequest s 0 12
    else
      let gen := layoutGen s + 1
      let s := setRegBits s (powerAt + 8) 32 32 0
      let s := (List.range 32).foldl (fun s p => (List.range 8).foldl (fun s i =>
        setRegWord s (shadowAt p + 8 * i) (recordWord layout gen p i)) s) s
      let s := { s with hub := { s.hub with areas := (List.range 32).map fun p => (p, (layout.getD p []).drop 8) } }
      if layoutOverlaps layout then refuseLayout s 1
      else if areasFail layout then refuseLayout s 2
      else if extentFails layout then refuseLayout s 3
      else
        let s := setRegBits s (powerAt + 8) 32 32 gen
        conservatorSays (journal s 0 gen (digestWords (recordsOf s shadowAt))) 0 [0, 0])

/-! ### COMMIT (R366, R368) -/

/-- Whether committed and shadow records of a partition differ in SLOTS, BANKS, RSV or extents (R366). -/
def partChanged (s : State) (p : Nat) : Bool :=
  regWord s (layoutAt p) != regWord s (shadowAt p) ||
  regBits s (layoutAt p + 8) 16 12 != regBits s (shadowAt p + 8) 16 12 ||
  (List.range 4).any fun e => regWord s (layoutAt p + 0x20 + 8 * e) != regWord s (shadowAt p + 0x20 + 8 * e)

/-- Step 1 and 2 (R366): the contexts of changed partitions end; COMMIT is journalled; the partitions are held. -/
def commitBegin (s : State) (gen : Nat) : State :=
  let ps := (List.range 32).filter (partChanged s)
  let s := ps.foldl (fun s p => (List.range 8).foldl (fun s c => contextEnd s p c 4) s) s
  journal { s with hub := { s.hub with heldParts := ps } } 1 gen (digestWords (recordsOf s shadowAt))

/-- The save-area words of a partition, and where its contexts' second-stage arrays lie, are set with the layout (R181, R188, R344). -/
def setAreas (s : State) (p : Nat) : State :=
  match tabGet s.hub.areas p with
  | none => s
  | some ws =>
    let w := fun i => ws.getD i 0
    let base := fun v => bitsAt v 12 36 * 4096
    let s := setRegWord s (supAt p + 0x18) (base (w 0))
    let s := setRegWord s (supAt p + 0x20) (w 1 % 2 ^ 40)
    let s := setRegWord s (supAt p + 0x28) (base (w 2))
    let s := setRegWord s (supAt p + 0x30) (w 3 % 2 ^ 40)
    let s := setRegWord s (supAt p + 0x38) (base (w 4))
    let s := setRegWord s (supAt p + 0x40) (w 5 % 2 ^ 40)
    (List.range 8).foldl (fun s c =>
      let at_ := supAt p + 0x100 + 0x20 * c
      let s := setRegWord s at_ (base (w (6 + 4 * c)))
      let s := setRegWord s (at_ + 8) (w (7 + 4 * c) % 2 ^ 40)
      let s := setRegWord s (at_ + 0x10) (base (w (8 + 4 * c)))
      let s := setRegBits s (at_ + 0x18) 0 24 (w (9 + 4 * c))
      let s := setRegWord s (transAt p c + 8) (bitsAt (w (38 + 2 * c)) 3 45 * 8)
      setRegWord s (transAt p c + 0x10) (w (39 + 2 * c) % 2 ^ 23)) s

/-- Forget what a set of rows and lines held (R92, R368, R369): they read as zero, are not wiped, hold no thread. -/
def unwipe (s : State) (row : Nat → Bool) (line : Nat → Bool) (byte : Nat → Bool) : State :=
  { s with
    mem := s.mem.filter fun c => !byte c.1
    rows := { s.rows with
      kinds := s.rows.kinds.filter fun r => !row r
      wiped := s.rows.wiped.filter fun r => !row r
      wipedLines := s.rows.wipedLines.filter fun l => !line l
      icount := s.rows.icount.filter fun e => !row e.1
      recheck := s.rows.recheck.filter fun r => !row r
      pools := s.rows.pools.map fun e => (e.1, e.2.filter fun r => !row r) }
    lines := {
      poison := s.lines.poison.filter fun l => !line l
      owner := s.lines.owner.filter fun e => !line e.1
      latent := s.lines.latent.filter fun e => !line e.1 }
    ms := { s.ms with prec := s.ms.prec.filter fun e => !byte e.1 } }

/-- The join tables whose area loses a bank to the shadow layout (R329, R368). -/
def tablesLosing (s : State) : List Nat :=
  let lost := fun (p q : Nat) => bitAt (bankSet s p) q && !bitAt (regBits s (shadowAt p) 32 32) q
  (s.join.tables.filter fun t =>
    let a := bitsAt (descW t.2 0) 0 48
    (List.range ((a + areaBytes t.2.desc - 1) / 2 ^ 25 + 1 - a / 2 ^ 25)).any fun i => lost t.2.part ((a / 2 ^ 25 + i) % 32)).map Prod.fst

/-- Step 3 and 4 (R366, R368): the flip, and its effects on the held partitions. -/
def commitFlip (s : State) (gen : Nat) : State :=
  let old := s
  let ps := s.hub.heldParts
  -- the flip: every record, in one hardware write
  let s := (List.range 32).foldl (fun s p => (List.range 8).foldl (fun s i => setRegWord s (layoutAt p + 8 * i) (regWord s (shadowAt p + 8 * i))) s) s
  let s := setRegBits s (powerAt + 8) 0 32 gen
  let s := (List.range 32).foldl setAreas s
  -- the effects
  let mine := fun (i : Nat) => ps.contains (slotOwner old (i % 32)) || ps.contains (slotOwner s (i % 32))
  let bank := fun (q : Nat) => bankOwner old q != bankOwner s q
  let extOwner := fun (x : State) (a : Nat) => (List.range 32).find? fun p => inExtent x p a
  let moved := fun (a : Nat) =>
    match placeOf a with
    | .hbm => bank (a / 2 ^ 25 % 32)
    | .palette => bank (a / 2 ^ 18 % 32)
    | _ => isTier2 a && extOwner old a != extOwner s a
  let n := s
  let s := unwipe s (fun r => bank (bankOf r)) (fun l => moved (64 * l)) moved
  let s := { s with
    iss := { s.iss with
      tables := n.iss.tables.map fun e => (e.1, (e.2.zipIdx).map fun b => if mine b.2 then b.2 % 32 else b.1)
      installs := n.iss.installs.filter fun x => !ps.contains (partOf old x.row)
      gov := n.iss.gov.map fun g => (g.1, if ps.contains (g.1 % 32) then { govReset with demand := g.2.demand } else g.2) }
    eng := { s.eng with
      units := n.eng.units.filter fun u => !(u.2.holder.isSome && ps.contains u.2.part)
      records := n.eng.records.filter fun r => !ps.contains (r.1 % 256 / 8)
      cells := [] }
    -- floors and views of a changed partition begin anew (R213, R215), and its racks are empty (log 72)
    agenda := s.agenda.filter fun t => match t.ev with
      | .lbDelivery k _ _ _ => !ps.contains (k / 17 / 8)
      | _ => true
    -- migrations of changed partitions end where they stand, and nothing forwards to what was theirs (R369, log 72)
    ms := { s.ms with
      floors := s.ms.floors.filter fun e => !ps.contains (e.1 / 17 / 8)
      views := s.ms.views.filter fun e => !ps.contains (e.1 / 17 / 8)
      migrations := s.ms.migrations.filter fun m => !ps.contains m.part
      forwards := s.ms.forwards.filter fun f => !ps.contains f.part }
    msg := { s.msg with racks := s.msg.racks.filter fun e => !ps.contains (rackPart e.1) } }
  let s := if (List.range 32).any bank then chargeHousekeeping s else s
  ps.foldl (fun s p => (List.range 8).foldl (fun s c => setRegWord s (meterAt p c) 0) s) s

/-- COMMIT of generation `gen` (R366), in its steps; each but the last leaves the next to follow, as a recovery finds it (R367). -/
def commitStep (s : State) (gen : Nat) : State :=
  let prep := fun (j : Nat × Nat × Nat) => j.1 == 0 && j.2.1 == gen
  let since := s.hub.journal.takeWhile fun j => !prep j
  if gen = 0 ∨ shadowGen s ≠ gen ∨ !s.hub.journal.any prep then refuseRequest s 0 1
  else if !since.any fun j => j.1 == 1 then postIn (commitBegin s gen) (1 + Config.extraDelay s.clk.draws) {} (.commit gen)
  else if layoutGen s ≠ gen then
    -- the flip waits until these tables are purged, held pushes and all (R329, log 72)
    let s := (tablesLosing s).foldl (fun s h => purgeTable s h []) s
    if !(tablesLosing s).isEmpty then postIn s 1 {} (.commit gen) else
    postIn (commitFlip s gen) (1 + Config.extraDelay s.clk.draws) {} (.commit gen)
  else
    let s := journal (setRegBits s (powerAt + 8) 32 32 0) 2 gen (digestWords (recordsOf s layoutAt))
    conservatorSays { s with hub := { s.hub with heldParts := [] } } 0 [1, 0]

/-- COMMIT. -/
def execCommit (gen : Nat) (s : State) : Out :=
  .next (if conservatorRuns s then commitStep { s with clk := { s.clk with draws := s.clk.draws + 1 } } gen else s)

/-- The conservator after its own watchdog reset (R367, R395): the ring goes to flash, its pending acts are gone, and the journal decides
whether a layout change is discarded or completed. -/
def execConservatorRecovery (s : State) : Out :=
  let s := { s with
    agenda := s.agenda.filter fun t => match t.ev with
      | .commit _ => false
      | _ => true
    hub := { s.hub with flash := s.hub.blackBox :: s.hub.flash } }
  .next (match s.hub.journal with
    | (0, _, _) :: _ => setRegBits s (powerAt + 8) 32 32 0
    | (1, g, _) :: _ => postIn s 0 {} (.commit g)
    | _ => s)

end Sys2Proof.Machine
end

