-- ==== Sys2Proof/Machine/Power.lean ====
section
/-!
DEFINITION. Power (R358, R359, R370 to R377): the budget tree, alarms and power-kills, gating, clock hops.
-/
namespace Sys2Proof.Machine

/-! ### The budget tree (R370, R371) -/

/-- The greatest λ below 2^b for which the shares min(w, λ) stay within `a`, above `x`. -/
def fairLevel (ws : List Nat) (a : Nat) : Nat → Nat → Nat
  | 0, x => x
  | b + 1, x =>
    let y := x + 2 ^ b
    fairLevel ws a b (if ws.foldl (fun n w => n + min w y) 0 ≤ a then y else x)

/-- Shares of an allowance among children of demands `ws`, by max-min fairness (R371). -/
def fairShare (ws : List Nat) (a : Nat) : List Nat :=
  if ws.foldl (· + ·) 0 ≤ a then ws
  else
    let l := fairLevel ws a 64 0
    ws.map fun w => min w l

/-- Demand of each executor in the period: charged, blocked and stalled units of its partitions (R370). -/
def demandOf (s : State) (ex : Nat) : Nat := s.iss.gov.foldl (fun n g => if g.1 / 32 = ex then n + g.2.demand else n) 0

/-- Studios of a stack. -/
def stackStudios (st : Nat) : List Nat := (List.range 16).map fun i => studioOf (exAt (8 * (st % 4) + 2 * (i % 4)) (8 * (st / 4) + 2 * (i / 4)))

/-- Executors of a studio. -/
def studioExs (sd : Nat) : List Nat := (List.range 4).map (studioMember sd)

/-- D for a demand and an allotment (R371). -/
def dutyFor (demand a : Nat) : Nat := if demand ≤ a then 16 else max 1 (16 * a / demand)

/-- An executor's power word at the end of a period (R373). -/
def setPower (s : State) (ex duty demand : Nat) : State :=
  let w := regWord s (exPower ex)
  let v := setBits (setBits w 16 5 duty) 32 32 (min demand (2 ^ 32 - 1))
  if v = w then s else setRegWord s (exPower ex) v

/-- Allot a studio's share among its executors. -/
def allotStudio (s : State) (dem : Nat → Nat) (sd a : Nat) : State :=
  let exs := studioExs sd
  (exs.zip (fairShare (exs.map dem) a)).foldl (fun s x => setPower s x.1 (dutyFor (dem x.1) x.2) (dem x.1)) s

/-- Allot a stack's share among its studios. -/
def allotStack (s : State) (dem : Nat → Nat) (st a : Nat) : State :=
  let sds := stackStudios st
  let ds := sds.map fun sd => ((studioExs sd).map dem).foldl (· + ·) 0
  (sds.zip (fairShare ds a)).foldl (fun s x => allotStudio s dem x.1 x.2) s

/-- Demand of a stack. -/
def stackDemand (dem : Nat → Nat) (st : Nat) : Nat :=
  (stackStudios st).foldl (fun n sd => n + ((studioExs sd).map dem).foldl (· + ·) 0) 0

/-- The power-kill of R375: the live context of lowest PPRIO, then of the higher partition and the higher context. -/
def killVictim (s : State) : Option (Nat × Nat) :=
  let live := (List.range 32).flatMap fun p => (List.range 8).filterMap fun c => if ctxLive s p c then some (p, c) else none
  let prio := fun (x : Nat × Nat) => regBits s (layoutAt x.1 + 0x18) (3 * x.2) 3
  match live with
  | [] => none
  | x :: rest => some (rest.foldl (fun m y => if prio y ≤ prio m then y else m) x)

/-- Kill one context (R375); none when no live context remains. -/
def powerKill (s : State) : Option State :=
  (killVictim s).map fun x =>
    let s := contextEnd s x.1 x.2 3
    sendPacket (regAdd s (powerAt + 0xA0) 1) x.1 false 0 0 [2 ^ 64 - 2, x.2, 0, 0]

/-- ALARM (R372). -/
def alarmOn (s : State) : Bool := regBits s powerAt 4 1 == 1

/-- Engage the gating by 4 (R374): counted once until it ends. -/
def engageGate (s : State) : State :=
  if regBits s powerAt 3 1 = 1 then s else regAdd (setRegBits s powerAt 3 1 1) (powerAt + 0x98) 1

/-- Gating by 4 engages, once a hop under way has completed (R359). -/
def gateSoon (s : State) : State := if s.hub.hops.isEmpty then engageGate s else s

/-- Whether alarms are answered by power-kills (R375). -/
def killState (s : State) : Bool := pstate s == 1 || pstate s == 3 || pstate s == 4

/-- The end of a period (R370, R371, R375): demands are taken, duties written, ballast set, and a persisting alarm kills once more. -/
def execBudgetTreePeriod (s : State) : Out :=
  let dem := demandOf s
  let sts := List.range 16
  let caps := sts.map fun st => min (stackDemand dem st) (regWord s (powerAt + 0x18 + 8 * st))
  let shares := fairShare caps (regWord s (powerAt + 0x10))
  let total := sts.foldl (fun n st => n + stackDemand dem st) 0
  let s := (sts.zip shares).foldl (fun s x => allotStack s dem x.1 x.2) s
  let fall := s.iss.lastDemand - total
  let ballast := decide (s.iss.lastDemand < 4 * fall)
  let s := { s with iss := { s.iss with
    gov := s.iss.gov.map fun g => (g.1, { g.2 with demand := 0 }), lastDemand := total, ballast := ballast } }
  let s := if ballast then chargeDevice s (fall / 2) else s
  -- in-field tests are the device's overhead (R377); their units are free (log 6)
  let s := if pstate s = 3 then chargeHousekeeping s else s
  .next (if alarmOn s ∧ killState s then (powerKill s).getD (gateSoon s) else s)

/-! ### Alarms (R374, R375) -/

/-- An alarm: gating, which a hop under way puts off to its end (R359), or a power-kill. -/
def execAlarm (s : State) : Out :=
  let fresh := !alarmOn s
  let s := setRegBits { s with hub := { s.hub with alarmClear := none } } powerAt 4 1 1
  let s := if fresh then logBox s 4 0 0 0 0 else s
  .next (if pstate s = 0 ∨ pstate s = 5 then s
    else if killState s then (if fresh then (powerKill s).getD (gateSoon s) else s)
    else gateSoon s)

/-- The alarm deasserts (R374): gating may end at the first cycle of 64 after 100 µs. -/
def execAlarmCleared (s : State) : Out :=
  let s := setRegBits { s with hub := { s.hub with alarmClear := some s.clk.now } } powerAt 4 1 0
  .next (postAt s ((s.clk.now + 240000 + 63) / 64 * 64) {} .gatingEnd)

/-- Gating ends when the alarm has been clear for 100 µs (R374). -/
def execGatingEnd (s : State) : Out :=
  .next (match s.hub.alarmClear with
    | some c => if !alarmOn s ∧ c + 240000 ≤ s.clk.now ∧ s.clk.now % 64 = 0 then setRegBits s powerAt 3 1 0 else s
    | none => s)

/-! ### Clock hops (R359) -/

/-- A stack begins to hop (R359): one at a time, never while gating is in force; it ends within 200 ns. -/
def execClockHop (stack : Nat) (s : State) : Out :=
  .next (if regBits s powerAt 3 1 = 1 ∨ !s.hub.hops.isEmpty ∨ 16 ≤ stack then s
    else
      let d := 1 + Config.extraDelay s.clk.draws % 480
      let s := { s with clk := { s.clk with draws := s.clk.draws + 1 }, hub := { s.hub with hops := [(stack, s.clk.now)] } }
      postIn s d {} (.clockHopEnd stack))

/-- The hop ends: the stack runs on its other source (R359, R373). -/
def execClockHopEnd (stack : Nat) (s : State) : Out :=
  .next (match s.hub.hops.find? fun h => h.1 == stack with
    | none => s
    | some h =>
      let s := { s with hub := { s.hub with hops := s.hub.hops.filter fun h => h.1 != stack } }
      let exs := (List.range 1024).filter fun e => stackOf e == stack
      let s := regAdd (exs.foldl (fun s e => setRegBits s (exPower e) 25 1 (1 - regBits s (exPower e) 25 1)) s) (powerAt + 0xB0) 1
      let met := alarmOn s || (s.hub.alarmClear.any fun c => h.2 ≤ c)
      if met ∧ (!killState s ∨ (killVictim s).isNone) ∧ pstate s ≠ 0 ∧ pstate s ≠ 5 then engageGate s else s)

end Sys2Proof.Machine
end

