-- ==== Sys2Proof/Machine/Hosts.lean ====
section
/-!
DEFINITION. Hosts and links (R378 to R384): RMA operations and tagged sends as the hub starts them, refusals, failed links. The hub
starts the operations of an ordered flow one after another (R381): an event here is an operation that it starts (log 8).
-/
namespace Sys2Proof.Machine

/-- The second word of the entry that names a remote party (R379): host entry `k` below 64, peer entry `k - 64` above. -/
def hostWordAt (p k : Nat) : Nat :=
  if k < 64 then 0x0C0000500000 + 0x400 * p + 16 * k + 8 else 0x0C0010000000 + 0x10000 * p + 16 * (k - 64) + 8

/-- Whether an entry names the remote party of an operation: VALID and not DOWN; peer entry 0 is unused (R379). -/
def hostUsable (s : State) (p k : Nat) : Bool := p < 32 && k < 64 + 4096 && k != 64 && regBits s (hostWordAt p k) 5 2 == 1

/-- SUP: a host entry's privilege (R380); a peer has none. -/
def hostPriv (s : State) (p k : Nat) : Bool := k < 64 && regBits s (hostWordAt p k) 7 1 == 1

/-- An operation is refused: 6 access denied, 7 unsupported (R378, R379). -/
def hostRefuse (s : State) (p k kind : Nat) : State := answerRemote (regAdd s (linkAt p 0x10) 1) p k kind []

/-- An operation is answered retry (R366, R382, R393). -/
def hostRetry (s : State) (p k : Nat) : State := answerRemote (regAdd s (linkAt p 0x18) 1) p k 8 []

/-- The pieces of a span, one to a line of 64 bytes: offset and size. -/
def lineSpans (a n : Nat) : List (Nat × Nat) := linePieces a n

/-- The elements of a host's access. -/
def hostElems (a : Nat) (bs : List Byte) : List Elem :=
  (lineSpans a bs.length).map fun x => { va := a + x.1, addr := a + x.1, size := x.2, data := natOfBytes ((bs.drop x.1).take x.2) }

/-- A remote party's operation is accepted (R380, R381, R384). DESIGN CHOICE (log 8): through whichever of the eight ports its packets
came (R15), it enters the mesh at the west edge of its home's mesh row; the manual does not say where an RMA operation or a send does. -/
def hostSend (s : State) (p k mode : Nat) (op : DirectOp) (es : List Elem) (data : Bool) : State :=
  let id := s.clk.ids
  let q : Req := { row := 2 ^ 28, part := p, ctx := 0, priv := hostPriv s p k, ex := exAt 0 (exY (addrHome (es.headD {}).addr)),
                   path := .N, op := op, elems := es, left := es.length, dest := .host k data (mode == 0),
                   seg := { rowSeg with kind := 2 } }
  hostStart (regAdd (freshId s) (linkAt p 8) 1) id q

/-- The checks of a remote party's operation before it acts (R378 to R380, R366), and what it does then. `mode` is its delivery mode: 0
ROD, 1 RUD, 2 RUDI; any other is unsupported. -/
def hostGate (s : State) (p k mode a n : Nat) (write : Bool) (act : State → State) : State :=
  if !hostUsable s p k then hostRefuse s p k 6
  else if n = 0 ∨ 4096 < n ∨ 2 < mode then hostRefuse s p k 7
  else if s.hub.heldParts.contains p then hostRetry s p k
  else if (lineSpans a n).any fun x => (dpaChecks s p (hostPriv s p k) write (a + x.1)).isSome then hostRefuse s p k 6
  else act s

/-- An RMA write (R380): 8 bytes that fill the CMD word of a thread row are a command (R87). -/
def execHostRmaWrite (p : Nat) (f : RemoteFlow) (addr : Nat) (bytes : List (BitVec 8)) (s : State) : Out :=
  .next (hostGate s p f.entry f.mode addr bytes.length true fun s =>
    hostSend s p f.entry f.mode (.write (bytes.length == 8 && addr % 8 == 0)) (hostElems addr bytes) false)

/-- An RMA read (R380): a direct read. -/
def execHostRmaRead (p : Nat) (f : RemoteFlow) (addr n : Nat) (s : State) : Out :=
  .next (hostGate s p f.entry f.mode addr n false fun s => hostSend s p f.entry f.mode .read (hostElems addr (List.replicate n 0)) true)

/-- The integer type and the operation of a fabric atomic (R378): 0 sum, 1 min, 2 max, 3 unsigned min, 4 unsigned max, 5 and, 6 or,
7 xor, 8 swap, 9 compare and swap; none for any other. -/
def hostAtom (op size : Nat) : Option (DirectOp) :=
  if size ≠ 4 ∧ size ≠ 8 then none
  else
    let i := if size = 4 then 3 else 4
    let n := if size = 4 then 7 else 8
    match op with
    | 0 => some (.atom 0 n 0)
    | 1 => some (.atom 1 i 0)
    | 2 => some (.atom 2 i 0)
    | 3 => some (.atom 1 n 0)
    | 4 => some (.atom 2 n 0)
    | 5 => some (.atom 3 n 0)
    | 6 => some (.atom 4 n 0)
    | 7 => some (.atom 5 n 0)
    | 8 => some (.atom 6 n 0)
    | 9 => some .cas
    | _ => none

/-- An RMA atomic (R378, R380): a direct atomic on an aligned word. -/
def execHostRmaAtomic (p : Nat) (f : RemoteFlow) (addr op size : Nat) (val cmp : Word) (s : State) : Out :=
  .next (match hostAtom op size with
    | none => if hostUsable s p f.entry then hostRefuse s p f.entry 7 else hostRefuse s p f.entry 6
    | some act => hostGate s p f.entry f.mode addr size true fun s =>
      if addr % size ≠ 0 ∨ isReg addr then hostRefuse s p f.entry 6
      else
        let m := 2 ^ (8 * size)
        hostSend s p f.entry f.mode act [{ va := addr, addr := addr, size := size, data := val.toNat % m, cmp := cmp.toNat % m }] true)

/-- A tagged send (R382): it lands in a row as a HOST note, with the number of its entry as SENDER. -/
def execHostTaggedSend (p : Nat) (f : RemoteFlow) (row : Nat) (w1 w2 w3 : Word) (s : State) : Out :=
  .next (if !hostUsable s p f.entry then hostRefuse s p f.entry 6
    else if 2 < f.mode then hostRefuse s p f.entry 7
    else if s.hub.heldParts.contains p ∨ (stackHeld s (rowDpa row)).isSome then hostRetry s p f.entry
    else if 2 ^ 28 ≤ row ∨ partOf s row ≠ p ∨ isReservedRow s row ∨ inJoinArea s (rowDpa row + 0x700) then hostRefuse s p f.entry 6
    else
      let a := rowDpa row + 0x700
      hostSend s p f.entry f.mode (.note (noteHeader 0 f.entry 6) w1 w2 w3 false) [{ va := a, addr := a, size := 32 }] true)

/-- A peer's reward for handle `h` of a partition arrives (R319, R331, R379): it is accepted as a message of the partition is, in the order
of the peer's sending, and its status goes back to the peer. -/
def execPeerReward (p e h key t x : Nat) (s : State) : Out :=
  .next (if !hostUsable s p (64 + e) then hostRefuse s p (64 + e) 6
    else
      let id := s.clk.ids
      let m : JoinMsg := { id := id, row := 2 ^ 28 + e, part := p, d := 0, handle := h % 128,
                           words := [lowBits 64 key, lowBits 12 t, lowBits 32 x], wait := true, back := 0, peer := none }
      let s := regAdd { freshId s with join := { s.join with msgs := s.join.msgs ++ [m] } } (linkAt p 8) 1
      sendIn s 0 (joinTag s m) (.reward id))

/-- A peer's pair for a reduction cell arrives (R45, R297, R379); its status goes back to the peer. -/
def execPeerSum (p e key : Nat) (sum pow : Int) (s : State) : Out :=
  .next (if !hostUsable s p (64 + e) then hostRefuse s p (64 + e) 6
    else
      let id := s.clk.ids
      let s := freshId { s with eng := { s.eng with
        bsums := tabSet s.eng.bsums id [(key : Int), signedOf 64 (lowBits 64 sum), signedOf 16 (lowBits 16 pow), (p : Int), 0, 0, 0, 0, (e : Int)] } }
      sendIn (regAdd s (linkAt p 8) 1) 0 { row := 2 ^ 28, part := p, ctx := 8, path := .M, flow := 2 ^ 54 + p * 8192 + 4160 + e } (.bsumArrival id))

/-- A fabric operation outside the supported set (R378). -/
def execUnsupportedOperation (p k : Nat) (s : State) : Out := .next (if p < 32 then hostRefuse s p k 7 else s)

/-- A flow to peer entry `peer`, or to host entry `peer - 4096`, has failed (R383): DOWN is set and every operation outstanding on it
ends with its PEER status; what a remote party had under way through it ends unanswered and is counted. -/
def execLinkFailure (p peer : Nat) (s : State) : Out :=
  .next (if 32 ≤ p then s
    else
      let toPeer := peer < 4096
      let k := if toPeer then 64 + peer else (peer - 4096) % 64
      let flow := p * 8192 + k
      let s := logBox (setRegBits s (hostWordAt p k) 6 1 1) 6 0 p 0 peer
      let mine := fun (q : Req) => q.part == p && (match q.dest with
        | .host j _ _ => j == k
        | _ => false)
      let ops := (s.ms.reqs.filter fun e => mine e.2).length
      let cps := s.eng.copies.filter fun c => toPeer && c.part == p && cpyPeer c == peer && peer != 0 && c.state != 2 && c.state != 4
      let msgs := s.join.msgs.filter fun m => toPeer && m.part == p && m.peer == some peer
      let sums := s.eng.bsums.filter fun b => toPeer && b.2.getD 3 0 == (p : Int) && b.2.getD 7 0 == (peer : Int) && peer != 0
      let s := regAdd s (linkAt p 0x20) (ops + cps.length + msgs.length + sums.length)
      let s := cps.foldl (fun s c => copyFail (updCopy s c.id fun c => { c with fly := [] }) c.id 2) s
      let s := { s with
        ms := { s.ms with reqs := s.ms.reqs.filter fun e => !mine e.2 }
        hub := { s.hub with
          hostQueue := s.hub.hostQueue.filter fun x => x.1 != flow
          unacked := tabDel s.hub.unacked (p * 8192 + (if toPeer then peer else 4096 + k)) }
        join := { s.join with msgs := s.join.msgs.filter fun m => !(toPeer && m.part == p && m.peer == some peer) }
        eng := { s.eng with bsums := s.eng.bsums.filter fun b => !(sums.any fun x => x.1 == b.1) } }
      let s := msgs.foldl (fun s m => joinReply s { m with back := 1 } 10) s
      sums.foldl (fun s b =>
        if b.2.getD 5 0 = 0 then s else answerRow s (b.2.getD 4 0).toNat [⟨(b.2.getD 5 0).toNat, 1⟩] 1) s)

/-- At a tick of ACTIVE each flow that waits for an acknowledgement gets it, or does not (a free value); one that has waited 500 ms has
failed (R383, log 8). -/
def linkTick (s : State) : State :=
  s.hub.unacked.foldl (fun s e =>
    let s' := { s with clk := { s.clk with draws := s.clk.draws + 1 } }
    if Config.linkAcks s.clk.draws then
      copiesAcked { s' with hub := { s'.hub with unacked := tabDel s'.hub.unacked e.1 } } (e.1 / 8192) (e.1 % 8192)
    else if e.2 + 500000000 ≤ activeNow s then
      (match execLinkFailure (e.1 / 8192) (e.1 % 8192) s' with
       | .next t => t
       | _ => s')
    else s') s

end Sys2Proof.Machine
end

