-- ==== Sys2Proof/Machine/Firmware.lean ====
section
/-!
DEFINITION. Brodesh, the life cycle, and what keeps memory sound (R385 to R395): mailbox requests, firmware images, attestation, reset,
scrubbing, refresh, sequencer resets, the black box. The encodings of requests are the model's own (log 7).
-/
namespace Sys2Proof.Machine

/-! ### The conservator (R385, R386) -/

/-- Whether both images have been verified (R386). -/
def imagesVerified (s : State) : Bool := s.hub.verified.contains 0 && s.hub.verified.contains 1

/-- The conservator writes second-stage entry `g` of a context (R188): V, W, X and FRAME, within the array that S2BASE and S2LEN give,
which lies in the partition's reserved area (R363). None when it is refused. -/
def writeStage2 (s : State) (p c g w : Nat) : Option State :=
  let a := regBits s (transAt p c + 8) 3 45 * 8 + 8 * g
  if p < 32 ∧ c < 8 ∧ g < regBits s (transAt p c + 0x10) 0 23 ∧ placeOf a = .hbm ∧ partMayReach s p a ∧ inReserved s a then
    some (writeHome (touch s a).1 a (bytesOf 8 (bitsAt w 0 3 + bitsAt w 21 27 * 2 ^ 21)) false p c)
  else none

/-- A mailbox request (R385), checked and acted on: 0 host-table entry, 1 DEVBUDGET, 2 STKCAP, 3 EBUDGET, 4 wipe of a bank, 5 clock hop,
6 power state, 7 end of a context, 8 clear CEND, 9 clear DOWN, 10 commit, 11 second-stage entry. The new state, or none when it is
refused. -/
def actRequest (s : State) (code p : Nat) (args : List Nat) : Option State :=
  let a := fun i => args.getD i 0
  match code with
  | 0 =>
    if p < 32 ∧ a 0 < 64 ∧ mayBind s then
      let sup := flag01 (bitAt (a 2) 7 && regBits s (layoutAt p + 8) 8 1 == 1)
      let w := bitsAt (a 2) 5 1 * 2 ^ 5 + sup * 2 ^ 7
      some (setRegWord (setRegWord s (hostWordAt p (a 0) - 8) (a 1)) (hostWordAt p (a 0)) w)
    else none
  | 1 => some (setRegWord s (powerAt + 0x10) (a 0))
  | 2 => if a 0 < 16 then some (setRegWord s (powerAt + 0x18 + 8 * a 0) (a 1)) else none
  | 3 => if a 0 < 1024 ∧ 512 ≤ a 1 ∧ a 1 ≤ 8191 then some (setRegBits s (exPower (a 0)) 0 13 (a 1)) else none
  | 4 =>
    if a 0 < 32 ∧ s.rows.slots.all fun e => bankOf e.2.row != a 0 then
      let at_ := fun (x : Nat) => decide (placeOf x = .hbm) && x / 2 ^ 25 % 32 == a 0
      some (logBox (chargeHousekeeping (unwipe s (fun r => bankOf r == a 0) (fun l => at_ (64 * l)) at_)) 3 0 p 0 (a 0))
    else none
  | 5 => some (postIn s 0 {} (.clockHop (a 0)))
  | 6 =>
    if (a 0 = 2 ∨ a 0 = 3) ∧ imagesVerified s ∧ pstate s ≤ 4 ∧ pstate s ≠ 0 then some (setRegBits s powerAt 0 3 (a 0))
    else if a 0 = 0 then some (setRegBits s powerAt 0 3 0)
    else if a 0 = 5 ∧ pstate s = 2 then some (postIn s 0 {} (.suspend (a 1)))
    else if a 0 = 7 ∧ pstate s = 5 then some (postIn s 0 {} (.resumeModule (a 1)))
    else none
  | 7 => some (postIn s 0 {} (.contextEndOrder p (a 0)))
  | 8 => if p < 32 ∧ a 0 < 8 then some (setRegBits s (supAt p + 0x118 + 0x20 * a 0) 24 3 0) else none
  | 9 =>
    if p < 32 then
      some (if 4096 ≤ a 0 then setRegBits s (hostWordAt p ((a 0 - 4096) % 64)) 6 1 0
        else setRegBits s (0x0C0010000000 + 0x10000 * p + 16 * a 0 + 8) 6 1 0)
    else none
  | 10 => some (postIn s 0 {} (.commit (a 0)))
  | 11 => writeStage2 s p (a 0) (a 1) (a 2)
  | _ => none

/-- MAILBOX_REQUEST (R385): what the conservator's own limits allow is a free value. The requests are the apprentice's, and one whose image has
not been verified does not run (R386). -/
def execMailboxRequest (code p : Nat) (args : List Nat) (s : State) : Out :=
  .next (if !conservatorRuns s ∨ !apprenticeRuns s then s
    else if !Config.conservatorAllows code p then refuseRequest s p code
    else match actRequest s code p args with
      | none => refuseRequest s p code
      | some s => conservatorSays s p [3, code])

/-- A firmware image is measured, and runs when its signature verifies (R386): 0 the conservator's, by the boot ROM; 1 the apprentice's.
One that fails does not run. -/
def execFirmwareVerification (which : Nat) (image sig : List Nat) (s : State) : Out :=
  let ok := signatureOk which image sig && (which == 0 || s.hub.verified.contains 0)
  let s := { s with hub := { s.hub with
    measured := s.hub.measured ++ [digest (asBytes image)]
    verified := if ok then setAdd s.hub.verified which else setDel s.hub.verified which } }
  .next (logBox s 8 0 0 0 (which + 2 * flag01 ok))

/-- An attestation (R386): the log, LAYOUTGEN, the committed layout's hash, the life-cycle state and the nonce, signed. -/
def execAttestationRequest (nonce : Nat) (s : State) : Out :=
  let body := s.hub.measured ++ [layoutGen s, digestWords (recordsOf s layoutAt), s.hub.lifeCycle, nonce]
  .next (if !conservatorRuns s then s
    else if s.hub.identityKey then conservatorSays { s with clk := { s.clk with draws := s.clk.draws + 1 } } 0 (4 :: attestationSignature s.clk.draws body ++ body) else refuseRequest s 0 32)

/-! ### Reset and the life cycle (R387) -/

/-- The module starts afresh: everything at its reset value but the life cycle, the key, the black box, and flash; global time goes on
(log 5). -/
def restart (s : State) (life : Nat) (key : Bool) : State :=
  { State.reset with
    clk := { Clock.reset with draws := s.clk.draws, ids := s.clk.ids }
    hub := { Hub.reset with
      lifeCycle := life, identityKey := key, blackBox := s.hub.blackBox, flash := s.hub.flash, journal := s.hub.journal,
      gtimeBase := hubTime s } }

/-- RESET. -/
def execReset (s : State) : Out := .next (restart s s.hub.lifeCycle s.hub.identityKey)

/-- A life-cycle transition, in the order of R387: MANUFACTURE, PROVISIONED, DEPLOYED, RETURNED. -/
def execLifeCycleTransition (s : State) : Out :=
  let n := s.hub.lifeCycle + 1
  .next (if 3 < n then refuseRequest s 0 33 else restart (logBox s 9 0 0 0 n) n (n == 1 || n == 2))

/-! ### Scrubbing, refresh, disturbance (R388, R390, R392) -/

/-- The patrol scrubber visits a line (R390): a corrected error is counted, an uncorrectable one poisons the line, and an unwiped row
is wiped. -/
def execPatrolScrub (line : Nat) (s : State) : Out :=
  let e := Config.lineError line s.clk.draws
  let s := chargeHousekeeping s
  let s := meetError (if e = 0 then s else { s with lines := { s.lines with latent := tabSet s.lines.latent line (min e 2) } }) line
  .next (match placeOf (64 * line) with
    | .hbm => if s.rows.wiped.contains (line / 64) then s else { s with rows := { s.rows with wiped := setAdd s.rows.wiped (line / 64) } }
    | .lpddr => { s with rows := { s.rows with wipedLines := setAdd s.rows.wipedLines line } }
    | .cxl => { s with rows := { s.rows with wipedLines := setAdd s.rows.wipedLines line } }
    | _ => s)

/-- A refresh window ends (R392): rows activated within it needed no refresh; the count begins anew. The lines in which errors have
arisen since the last one are free values (R388, log 73). -/
def execRefreshWindow (s : State) : Out :=
  let new := Config.upsets s.clk.draws
  .next { chargeHousekeeping s with
    rows := { s.rows with activations := [] }
    lines := { s.lines with latent := new.foldl (fun t e => tabSet t e.1 (if e.2 = 1 then 1 else 2)) s.lines.latent } }

/-- A row's neighbours are refreshed (R392). -/
def execNeighbourRefresh (row : Nat) (s : State) : Out :=
  .next (regAdd { chargeHousekeeping s with rows := { s.rows with activations := tabDel s.rows.activations row } } 0x0C0000680020 1)

/-! ### Sequencer resets (R393) -/

/-- A stack's sequencer is reset (R393): accesses to the stack are held until it is back, or until 50 µs have gone. -/
def execSequencerReset (stack : Nat) (s : State) : Out :=
  .next (if 16 ≤ stack ∨ (s.hub.seqReset.any fun h => h.1 == stack) then s
    else
      let d := 1 + Config.sequencerBack s.clk.draws
      let s := { s with
        clk := { s.clk with draws := s.clk.draws + 1 }
        hub := { s.hub with seqReset := s.hub.seqReset ++ [(stack, s.clk.now, s.clk.now + d)] } }
      postIn (regAdd (logBox s 5 stack 0 0 0) 0x0C0000680018 1) (min d 120000) {} (.sequencerHoldTimeout stack))

/-- A host's operation that a held event carries. -/
def hostOf (s : State) (t : Timed) : Option (Nat × Req) :=
  let req := fun id => (tabGet s.ms.reqs id).bind fun q => match q.dest with
    | .host _ _ _ => some (id, q)
    | _ => none
  match t.ev with
  | .directAccess id _ => req id
  | .noteLanding id => req id
  | _ => none

/-- A held access is answered RETRY (R393): its unit issues it again 1,024 cycles later; a host gets retry. -/
def answerRetry (s : State) (t : Timed) : State :=
  match hostOf s t with
  | some (id, q) =>
    (match q.dest with
     | .host k _ _ =>
       let s := hostRetry (dropReq s id) q.part k
       (match hostFlow q with
        | some flow => hostPump s flow
        | none => s)
     | _ => s)
  | none =>
    let id := s.clk.ids
    postIn { freshId s with hub := { s.hub with retries := s.hub.retries ++ [(id, t)] } } 1024 {} (.retryReissue id)

/-- The sequencer is back: what its stack held is answered in arrival order; or 50 µs have gone: what is still held is answered
RETRY (R393). -/
def execSequencerHoldTimeout (stack : Nat) (s : State) : Out :=
  .next (match s.hub.seqReset.find? fun h => h.1 == stack with
    | none => s
    | some h =>
      let mine := s.hub.seqHeld.filter fun x => x.1 == stack
      let s := { s with hub := { s.hub with seqHeld := s.hub.seqHeld.filter fun x => x.1 != stack } }
      if h.2.2 ≤ s.clk.now then
        let s := { s with hub := { s.hub with seqReset := s.hub.seqReset.filter fun x => x.1 != stack } }
        mine.foldl (fun s x => repost s x.2) s
      else postAt (mine.foldl (fun s x => answerRetry s x.2) s) h.2.2 {} (.sequencerHoldTimeout stack))

/-- An access answered RETRY is issued again (R393). -/
def execRetryReissue (id : Nat) (s : State) : Out :=
  .next (match s.hub.retries.find? fun x => x.1 == id with
    | none => s
    | some x => repost { s with hub := { s.hub with retries := s.hub.retries.filter fun y => y.1 != id } } x.2)

/-! ### Recovery and the black box (R376, R395) -/

/-- The ring is copied to flash (R395). -/
def copyRing (s : State) : State := { s with hub := { s.hub with flash := s.hub.blackBox :: s.hub.flash } }

/-- A power-loss warning (R395). -/
def execPowerLossWarning (s : State) : Out := .next (copyRing s)

/-- A stack or hub recovery (R376, R395): RECOVER, and for a hub's the ring goes to flash; a module in BRINGUP stays there while an image of its firmware has not been verified
(R386). -/
def execStackOrHubRecovery (stack : Option Nat) (s : State) : Out :=
  .next ((if stack.isNone then copyRing else id) (if pstate s = 0 ∨ pstate s = 5 ∨ (pstate s = 1 ∧ !imagesVerified s) then s else setRegBits s powerAt 0 3 4))

/-- A software store to a register word applies its access codes (R5, R6). -/
def execRegisterWrite (addr : Nat) (priv : Bool) (value : Word) (s : State) : Out := .next (writeReg s addr priv value.toNat)

end Sys2Proof.Machine
end

