-- ==== Sys2Proof/Machine/Poll.lean ====
section
/-!
DEFINITION. What every module cycle does besides its events and its issues (R97 to R100, R104, R106, R112, R215, R248, R318, R341,
R346, R370, R390, R392): waits that end, rows that close and open, governor windows, engine cycles, samples and periods, in this order.
-/
namespace Sys2Proof.Machine

/-- The state an act leaves; every act of a cycle answers a next state. -/
def after (s : State) (o : Out) : State :=
  match o with
  | .next t => t
  | _ => s

/-- Whether rows issue and open in the module's power state (R376). -/
def serving (s : State) : Bool :=
  let p := pstate s
  p == 2 || p == 3 || p == 4 || (p == 6 && s.hub.suspended.isEmpty)

/-! ### Closing and opening (R97 to R100, R348) -/

/-- Waiting rows beyond their hold are closed when another row is READY (R100). -/
def closeHeld (s : State) : State := s.rows.waits.foldl (fun s e => closeSleeping s e.1) s

/-- The lowest empty slot of a partition at an executor; a latch that is retained leaves its slot empty for others (R348, R397). -/
def emptySlot (s : State) (ex p : Nat) : Option Nat :=
  (List.range 32).find? fun k => bitAt (slotSet s p) k && slotPassed s ex p k &&
    (match tabGet s.rows.slots (ex * 32 + k) with
     | none => true
     | some x => x.retained)

/-- A row whose latch is still in its slot runs again at once (R348). -/
def reopen (s : State) (r : Nat) : State :=
  let s := updSlot (dequeue s r) r fun x => { x with retained := false, opening := false, openedAt := s.clk.now }
  runRow (startWindow (setF s r fEprio 0) r) r

/-- A row is opened into an empty slot: 48 cycles (R98); a retained latch there is written back, charged to its context (R348, R353). -/
def openInto (s : State) (ex k r : Nat) : State :=
  let s := match tabGet s.rows.slots (ex * 32 + k) with
    | some x => chargeCtx { s with rows := { s.rows with activations := activation s.rows.activations x.row } } (partOf s x.row) (ctxOf s x.row) 64
    | none => s
  let s := dequeue s r
  let s := { s with rows := { s.rows with
    slots := tabSet s.rows.slots (ex * 32 + k) { row := r, opening := true, openedAt := s.clk.now }
    activations := activation s.rows.activations r } }
  postClock s ex 48 {} (.rowOpen ex k)

/-- Open what can be opened of one activation queue, from its head on. -/
def openQueue (s : State) (ex p : Nat) : Nat → State
  | 0 => s
  | n + 1 =>
    match tabGetD s.rows.queue (queueKey ex p) [] with
    | [] => s
    | r :: _ =>
      if isKilled s r then openQueue (retire s r) ex p n
      else match slotOf s r with
        | some k => if slotPassed s ex p (k % 32) then openQueue (reopen s r) ex p n else s
        | none =>
          match emptySlot s ex p with
          | none => s
          | some k => openQueue (openInto s ex k r) ex p n

/-- Every queue opens its rows in an enabled cycle of its executor; none of a held partition, nor while a switch is undecided (R346, R360,
R366). -/
def openAll (s : State) : State :=
  if !serving s then s
  else s.rows.queue.foldl (fun s e =>
    let ex := e.1 / 32
    let p := e.1 % 32
    if e.2.isEmpty ∨ s.hub.heldParts.contains p ∨ heldForSwitch s p ex ∨ !clockOn s ex then s else openQueue s ex p e.2.length) s

/-! ### What runs on executors' clocks -/

/-- Executors whose governor or fetch duty stands off its reset value. -/
def governed (s : State) : List Nat :=
  let power := s.regs.filter fun (e : Nat × Word) => placeOf e.1 == .exPage && e.1 % 0x10000 == 0x1000
  let a := s.iss.gov.map fun (g : Nat × Gov) => g.1 / 32
  let b := power.map fun (e : Nat × Word) => addrHome e.1
  (a ++ s.iss.duty.map Prod.fst ++ s.iss.effE.map Prod.fst ++ b).eraseDups

/-- Window and group starts (R106, R112, R114, R117). -/
def clocks (s : State) : State :=
  (governed s).foldl (fun s ex =>
    if !clockOn s ex then s
    else
      let c := enabledCycles s ex
      let s := if c % 32 = 0 then after s (execGovernorWindow ex s) else s
      if c % 16 = 0 then groupStart s ex else s) s

/-- Slot tables that wait are installed at their next rotation (SLOTW). -/
def installs (s : State) : State :=
  ((s.iss.installs.map Install.ex).eraseDups).foldl (fun s ex =>
    if clockOn s ex ∧ enabledCycles s ex % 64 = 0 then after s (execSlotTableInstall ex s) else s) s

/-- Watchdog windows that have ended; cycles in which the row's context is switched out do not count (R341). -/
def watchdogs (s : State) : State :=
  s.rows.windowAt.foldl (fun s e =>
    if !clockOn s (exOf e.1) then s
    else if ctxActive s e.1 then after s (execWatchdogWindowEnd e.1 e.2 s)
    else { s with rows := { s.rows with windowAt := s.rows.windowAt.map fun x => if x.1 = e.1 then (x.1, x.2 + 1) else x } }) s

/-- Sweep latches that are free go to rows that wait for them: a row is passed over while its partition is held (R347, R401). -/
def latches (s : State) : State :=
  s.eng.sweepQ.foldl (fun s e => if e.2.isEmpty then s else grantLatch s e.1 (2 ^ 28) 64) s

/-- One cycle of the matrix units, then of the sweeps; rule engines that are free start what has come (R114, R286, R307, R401). -/
def engines (s : State) : State :=
  let s := s.eng.mma.foldl (fun s e => if clockOn s e.1 then (match tabGet s.eng.mma e.1 with
    | some run => mmaCycle s e.1 run
    | none => s) else s) s
  let s := latches s
  let s := s.eng.sweep.foldl (fun s e => if clockOn s (exOf e.1) then sweepCycle s e.1 else s) s
  s.eng.rules.foldl (fun s e => if clockOn s (studioMember e.1 0) then startRule s e.1 64 else s) s

/-! ### What runs on module time -/

/-- The join engines' tick of 1,024 ns of ACTIVE (R318): orphans expire, then deadlines act. -/
def joinTicks (s : State) : State :=
  let t := activeNow s / 1024
  (List.range 8).foldl (fun s eng =>
    let used := (s.join.tables.any fun e => engOf e.1 == eng) || !(orphansOf s eng).isEmpty
    if !used ∨ t ≤ tabGetD s.join.ticked eng 0 then s
    else
      let s := { s with join := { s.join with ticked := tabSet s.join.ticked eng t } }
      let s := after s (execOrphanExpiry eng s)
      after s (execEpisodeDeadline eng s)) s

/-- The links' tick of 1,024 ns of ACTIVE (R383). -/
def linkTicks (s : State) : State :=
  let t := activeNow s / 1024
  if s.hub.unacked.isEmpty ∨ t ≤ tabGetD s.join.ticked 8 0 then s
  else linkTick { s with join := { s.join with ticked := tabSet s.join.ticked 8 t } }

/-- Executors whose own rack holds entries. -/
def rackHolders (s : State) : List Nat :=
  ((s.msg.racks.filter fun e => rackLevel e.1 == 0 && !e.2.isEmpty).map fun e => rackUnit e.1).eraseDups

/-- The number among `n` lines that a scrubber with an even pace over `t` cycles visits in this cycle, if any (R390, log 74). -/
def scrubTurn (now n t : Nat) : Option Nat := if n * (now + 1) / t = n * now / t then none else some (n * now / t % n)

/-- The lines that the patrol scrubber visits in this cycle (R390): HBM in 12 hours, the second tier in 24, palettes and latches in a
second. -/
def scrubLines (s : State) : List Nat :=
  let hour := 3600 * 2400000000
  let cxl := min Config.cxlInstalled (2 ^ 42) / 64
  let row := fun (i : Nat) => (tabGet s.rows.slots (i / 64)).map fun x => x.row * 64 + i % 64
  ((scrubTurn s.clk.now (2 ^ 34) (12 * hour)).toList ++
   ((scrubTurn s.clk.now (2 ^ 35 + cxl) (24 * hour)).toList.map fun i => 0x020000000000 / 64 + i) ++
   ((scrubTurn s.clk.now (2 ^ 25) 2400000000).toList.map fun i => paletteBase / 64 + i) ++
   (scrubTurn s.clk.now (2 ^ 21) 2400000000).toList.filterMap row)

/-- A request that reaches a stack whose sequencer has been out for 50 µs is answered RETRY as well (R393). -/
def lateRetries (s : State) : State :=
  let late := s.hub.seqHeld.filter fun x => s.hub.seqReset.any fun h => h.1 == x.1 && decide (h.2.1 + 120000 ≤ s.clk.now)
  if late.isEmpty then s
  else
    let s := { s with hub := { s.hub with
      seqHeld := s.hub.seqHeld.filter fun x => !(s.hub.seqReset.any fun h => h.1 == x.1 && decide (h.2.1 + 120000 ≤ s.clk.now)) } }
    late.foldl (fun s x => answerRetry s x.2) s

/-- Housekeeping of memory in a cycle: the scrubber's lines (R390), and the neighbours of rows activated 4,096 times (R392). -/
def housekeeping (s : State) : State :=
  let s := (scrubLines s).foldl (fun s l => after s (execPatrolScrub l s)) s
  (s.rows.activations.filter fun e => 4096 ≤ e.2).foldl (fun s e => after s (execNeighbourRefresh e.1 s)) s

/-- Lateral balancing is decided as a cycle begins, before any operation that reaches a rack in it (R249, R398): each executor that holds
entries compares them with its neighbours' as they stand now. -/
def balanceAll (s : State) : State :=
  if s.clk.now % 1024 ≠ 0 then s
  else ((rackHolders s).filter (clockOn s)).foldl (fun t ex =>
    ((List.range 32).filter fun p => slotSet t p != 0).foldl (balance (rackCount s) ex) t) s

/-- Samples and periods of module time (R215, R370, R392). -/
def periods (s : State) : State :=
  let n := s.clk.now
  let s := if n % 64 = 0 then after s (execLbSample s) else s
  let s := if n ≠ 0 ∧ n % 24000 = 0 then after s (execBudgetTreePeriod s) else s
  if n ≠ 0 ∧ n % 76800000 = 0 then after s (execRefreshWindow s) else s

/-- Gang switches that reach their T cycle, go on and end (R346 to R349). -/
def switches (s : State) : State :=
  let s := ((List.range 32).filter fun p => switchPending s p && !(switchOf s p).any fun w => !w.decided).foldl (fun s p => after s (execSwitchTCycle p s)) s
  endSwitches (spillOut (retainOut (stepsOut s)))

/-- One module cycle, before its issues. -/
def pollCycle (s : State) : State :=
  let s := clocks (installs (periods (linkTicks (joinTicks (housekeeping (lateRetries s))))))
  let s := engines (watchdogs (endWaits s))
  let s := dryDue (openAll (closeHeld (switches s)))
  if s.msg.ends.isEmpty then s else pruneEnds s

end Sys2Proof.Machine
end

