-- ==== Sys2Proof/Machine/Banks.lean ====
section
/-!
DEFINITION. Palette banks (R111, R119, R257, R259): who claims a bank in a cycle, whom its round robin grants it, and what the engines of
a studio do with the banks they were granted (R270, R286, R307).
-/
namespace Sys2Proof.Machine

/-- A claim in one cycle: the requester of R111 (0 to 3 rows, 4 to 7 matrix units, by member, 8 the copy engine, 9 the rule engine), the
key under which its lost tries are counted, the bank it contends at, and the banks it needs with it. -/
structure Claim where
  who : Nat
  key : Nat
  bank : Nat
  others : List Nat := []
  deriving DecidableEq, Repr

/-- The key of an engine's claim. -/
def engineKey (st q who : Nat) : Nat := 2 ^ 28 + (st * 32 + q) * 16 + who

/-- Every bank a claim needs. -/
def Claim.banks (c : Claim) : List Nat := c.bank :: c.others

/-- Tries a claim has lost in a row (R119). -/
def lostTries (s : State) (c : Claim) : Nat := tabGetD s.eng.tries c.key 0

/-- How far a claim's requester stands behind the last winner of its bank (R111). -/
def roundPlace (s : State) (st : Nat) (c : Claim) : Nat := (c.who + 9 - tabGetD s.eng.winners (st * 32 + c.bank) 9) % 10

/-- The first of some claims in an order. -/
def firstClaim (before : Claim → Claim → Bool) : List Claim → Option Claim
  | [] => none
  | c :: r => some (r.foldl (fun m x => if before x m then x else m) c)

/-- Whether a claim needs a bank that others have taken. -/
def meets (won : List Claim) (c : Claim) : Bool := won.any fun w => w.banks.any fun q => c.banks.contains q

/-- Claims that are due, those that have lost most tries first (R119). The manual states the bound of twenty tries and no means to it beyond the
round robin; a claim that has lost nine, which the round robin alone would now grant, goes ahead of it with every bank it needs (log 69). -/
def dueGrants (s : State) (st : Nat) : List Claim → Nat → List Claim → List Claim
  | _, 0, won => won
  | cs, n + 1, won =>
    let before := fun (x y : Claim) => lostTries s y < lostTries s x || (lostTries s y == lostTries s x && roundPlace s st x < roundPlace s st y)
    match firstClaim before cs with
    | none => won
    | some c => dueGrants s st (cs.filter (· != c)) n (if meets won c then won else won ++ [c])

/-- The claim that a bank grants by itself (R111): round robin after its last winner. -/
def pickClaim (s : State) (st q : Nat) (cs : List Claim) : Option Claim :=
  firstClaim (fun x y => roundPlace s st x < roundPlace s st y) (cs.filter fun c => c.bank == q)

/-- The claims granted in one cycle (R111): those that are due, then each bank's own winner; of these an access that spans banks takes the
others ahead of their own winners. -/
def grantClaims (s : State) (st : Nat) (cs : List Claim) : List Claim :=
  let due := cs.filter fun c => 9 ≤ lostTries s c
  let won := dueGrants s st due due.length []
  let rest := cs.filter fun c => !won.contains c && !meets won c
  let own := (List.range 32).filterMap fun q => pickClaim s st q rest
  let wide := (own.filter fun c => !c.others.isEmpty).foldl (fun l c => if meets l c then l else l ++ [c]) []
  won ++ wide ++ own.filter fun c => c.others.isEmpty && !meets wide c

/-- Note the winners of a cycle and the tries that the others have lost. -/
def noteGrants (s : State) (st : Nat) (cs won : List Claim) : State :=
  let s := won.foldl (fun s c => { s with eng := { s.eng with winners := tabSet s.eng.winners (st * 32 + c.bank) c.who } }) s
  cs.foldl (fun s c => { s with eng := { s.eng with
    tries := if won.contains c then tabDel s.eng.tries c.key else tabUpd s.eng.tries c.key 0 (· + 1) } }) s

/-! ### What the engines claim -/

/-- Whether it is the turn of a unit's line among what a rule engine held (R308): lines that were held next to one another go together. -/
def lineTurn (s : State) (st ex l : Nat) : Bool :=
  match tabGet s.eng.rules st with
  | some e => !e.busy && (e.held.takeWhile fun h => match h with
      | .line _ _ => true
      | .event _ => false).contains (.line ex l)
  | none => false

/-- The lines that a studio's matrix units would read in this cycle, one for each bank (R286). -/
def matrixLines (s : State) (st : Nat) : List (Nat × Nat) :=
  (List.range 4).flatMap fun (m : Nat) =>
    match tabGet s.eng.mma (studioMember st m) with
    | none => []
    | some run =>
      if !clockOn s (studioMember st m) then []
      else
        let free := run.want.filter fun l => !ruleHolds s (studioPalette st + 64 * l) 64 || lineTurn s st (studioMember st m) l
        (List.range 32).filterMap fun q => (free.find? fun l => l / 4096 == q).map fun l => (m, l)

/-- The lines that a studio's units want of what its rule engine keeps to itself are held among the other accesses (R308). -/
def noteLines (s : State) (st : Nat) : State :=
  match tabGet s.eng.rules st with
  | none => s
  | some e =>
    let want := (List.range 4).flatMap fun (m : Nat) =>
      let ex := studioMember st m
      match tabGet s.eng.mma ex with
      | some run => if clockOn s ex then run.want.map fun l => (ex, l) else []
      | none => []
    let new := want.filter fun x =>
      (e.ranges.any fun g => spans (studioPalette st + 64 * x.2) 64 g.1 g.2) && !e.held.contains (.line x.1 x.2)
    if new.isEmpty then s else updRule s st fun e => { e with held := e.held ++ new.map fun x => .line x.1 x.2 }

/-- Lines that were held have been read; what came after them goes on. -/
def linesTaken (s : State) (st : Nat) (read : List (Nat × Nat)) : State :=
  let e := ruleOf s st
  let left := e.held.filter fun h => match h with
    | .line ex l => !read.contains (ex, l)
    | .event _ => true
  if e.busy ∨ left.length = e.held.length then s
  else
    let s := updRule s st fun e => { e with held := left }
    match left.head? with
    | some (.line _ _) => s
    | _ => drainRule s st

/-- One move of a copy: its name, whether the piece is written, and the palette line it touches. -/
structure Move where
  id : Nat
  write : Bool
  line : Option Nat
  deriving DecidableEq, Repr

/-- The palette line at an address. -/
def paletteLine (a : Nat) : Option Nat := if placeOf a = .palette then some (a / 64) else none

/-- The write that a copy has due in this cycle. -/
def dueWrite (s : State) (c : Copy) : Option Move :=
  match c.fly with
  | [] => none
  | f :: _ =>
    let turn := s.eng.rules.any fun e => ruleTurn s e.1 (.copyPieceWrite c.id)
    if s.clk.now < f.due || (c.writeHeld && !turn) then none
    else
      let a := if cpyPot c then potLineAt ((potReserve s c.dseg.1).getD s) c.dseg.1 else movedTo s f.at_
      some ⟨c.id, true, if cpyPeer c = 0 then paletteLine a else none⟩

/-- The read of a copy that is ready for a piece slot. -/
def dueRead (s : State) (c : Copy) : Option Move :=
  let turn := c.gate == 2 && s.eng.rules.any fun e => ruleTurn s e.1 (.copyPieceRead c.id)
  if !pieceReady s (if turn then { c with gate := 0 } else c) then none
  else some ⟨c.id, false, match (nextPiece s c).src with
    | .at_ a _ => paletteLine a
    | _ => none⟩

/-- Copies of a studio, round robin after the one served last (R270). -/
def turnCopies (s : State) (st : Nat) : List Copy :=
  let mine := s.eng.copies.filter fun c => studioOf c.ex == st
  let last := tabGetD s.eng.copyTurn st 0
  mine.filter (fun c => decide (last < c.id)) ++ mine.filter fun c => decide (c.id ≤ last)

/-- Whether two moves need one bank. -/
def sameBank (x y : Move) : Bool :=
  match x.line, y.line with
  | some a, some b => a / 4096 == b / 4096
  | _, _ => false

/-- The moves of a studio's copies in this cycle: every write that is due, and up to four reads, one move to a bank (R259, R270). The four
pieces of a cycle are counted at their reads (log 68). -/
def studioMoves (s : State) (st : Nat) : List Move :=
  if !clockOn s (studioMember st 0) then []
  else
    let take := fun (l : List Move) (m : Move) => if l.any (sameBank m) then l else l ++ [m]
    let writes := ((s.eng.copies.filter fun c => studioOf c.ex == st).filterMap fun c => dueWrite s c).foldl take []
    let free := ((turnCopies s st).filterMap fun c => dueRead s c).foldl (fun (l : List Move) m =>
      if (writes ++ l).any (sameBank m) then l else l ++ [m]) []
    writes ++ free.take (slotsLeft s st)

/-- The moves of every studio, one to a bank. -/
def allMoves (s : State) : List Move :=
  ((s.eng.copies.map fun c => studioOf c.ex).eraseDups.flatMap fun (st : Nat) => studioMoves s st).foldl (fun (l : List Move) m =>
    if l.any (sameBank m) then l else l ++ [m]) []

/-- The studio of a palette line. -/
def lineStudio (l : Nat) : Nat := (64 * l - paletteBase) / 0x800000

/-- The bank of a palette line. -/
def lineBank (l : Nat) : Nat := l % 2 ^ 17 / 4096

/-- The banks, as 32·studio + bank, that a studio's rule engine claims in this cycle (R307). -/
def ruleClaims (s : State) (st : Nat) : List Nat :=
  if clockOn s (studioMember st 0) then (ruleOf s st).plan.headD [] else []

/-- The banks of a studio that rule engines claim: its own, and another's for the headers of its tiles' neighbours (R312, log 2). -/
def ruleBanks (s : State) (st : Nat) : List Nat :=
  ((s.eng.rules.flatMap fun e => ruleClaims s e.1).filter fun q => q / 32 == st).eraseDups.map (· % 32)

/-- Every engine's claim at a studio's palette, given the moves of all copies. -/
def engineClaims (s : State) (st : Nat) (moves : List Move) : List Claim :=
  let unit := (matrixLines s st).map fun (x : Nat × Nat) => (⟨4 + x.1, engineKey st (x.2 / 4096) (4 + x.1), x.2 / 4096, []⟩ : Claim)
  let here := moves.filterMap fun m => m.line.bind fun l => if lineStudio l = st then some (lineBank l) else none
  unit ++ (here.eraseDups.map fun (q : Nat) => (⟨8, engineKey st q 8, q, []⟩ : Claim)) ++
    (ruleBanks s st).map fun (q : Nat) => (⟨9, engineKey st q 9, q, []⟩ : Claim)

/-- Studios whose banks some engine may claim. -/
def busyStudios (s : State) (moves : List Move) : List Nat :=
  (s.eng.mma.map fun (e : Nat × StepRun) => studioOf e.1) ++ (s.eng.rules.flatMap fun (e : Nat × RuleEng) => (ruleClaims s e.1).map (· / 32)) ++
    moves.filterMap fun m => m.line.map lineStudio

/-- What a studio's matrix units do with the banks they have won; a unit that has lost stalls for the cycle (R111). -/
def useGrants (s : State) (st : Nat) (won : List Claim) : State :=
  let lines := (matrixLines s st).filter fun x => won.any fun c => c.who == 4 + x.1 && c.bank == x.2 / 4096
  let s := lines.foldl (fun s x =>
    let ex := studioMember st x.1
    match tabGet s.eng.mma ex with
    | some run => readLine s ex run x.2
    | none => s) s
  linesTaken s st (lines.map fun x => (studioMember st x.1, x.2))

/-- What the rule engines do with the banks they have won (R307): one that reads a neighbour's header in another studio goes first. -/
def useRuleGrants (s : State) (won : List Nat) : State :=
  let far := s.eng.rules.filter fun e => (ruleClaims s e.1).any fun q => q / 32 != e.1
  let near := s.eng.rules.filter fun e => !far.any fun f => f.1 == e.1
  ((far ++ near).foldl (fun (x : State × List Nat) e =>
    let mine := (ruleClaims x.1 e.1).filter fun q => x.2.contains q
    (if clockOn x.1 (studioMember e.1 0) then ruleWork x.1 e.1 mine else x.1, x.2.filter fun q => !mine.contains q)) (s, won)).1

/-- A copy's move: its piece is written or read; the studio serves the copies behind it next (R270). Whatever held the piece until now, its
turn is over. -/
def makeMove (s : State) (m : Move) : State :=
  if m.write then
    let s := pieceWrite (updCopy s m.id fun c => { c with writeHeld := false }) m.id
    (m.line.map lineStudio).elim s fun st => turnTaken s st (.copyPieceWrite m.id)
  else
    let st := studioOf (((copyOf s m.id).map Copy.ex).getD 0)
    let s := { s with eng := { s.eng with copyTurn := tabSet s.eng.copyTurn st m.id } }
    let s := pieceRead (updCopy s m.id fun c => { c with gate := if c.gate = 2 then 0 else c.gate }) m.id
    (m.line.map lineStudio).elim s fun st => turnTaken s st (.copyPieceRead m.id)

/-- The banks of a cycle (R111): the rows' claims, each with its studio, and the engines' are arbitrated; the engines do their work, and
the rows' claims that are granted come back. -/
def shareBanks (s : State) (rows : List (Nat × Claim)) : State × List Claim :=
  let s := s.eng.rules.foldl (fun s e => noteLines s e.1) s
  let moves := allMoves s
  let x := ((rows.map fun (r : Nat × Claim) => r.1) ++ busyStudios s moves).eraseDups.foldl (fun (x : State × List (Nat × Claim)) st =>
    let cs := ((rows.filter fun r => r.1 == st).map fun (r : Nat × Claim) => r.2) ++ engineClaims x.1 st moves
    let won := grantClaims x.1 st cs
    (useGrants (noteGrants x.1 st cs won) st won, x.2 ++ won.map fun c => (st, c))) (s, [])
  let s := useRuleGrants x.1 ((x.2.filter fun w => w.2.who == 9).map fun w => 32 * w.1 + w.2.bank)
  let free := fun (m : Move) => match m.line with
    | none => true
    | some l => x.2.any fun w => w.1 == lineStudio l && w.2.who == 8 && w.2.bank == lineBank l
  ((moves.filter free).foldl makeMove s, (x.2.map fun (w : Nat × Claim) => w.2).filter fun c => c.who < 4)

end Sys2Proof.Machine
end

