-- ==== Sys2Proof/Machine/Control.lean ====
section
/-!
DEFINITION. Branches, jumps, hardware loops and NOP (R140 to R147): one meaning per instruction.
-/
namespace Sys2Proof.Machine

/-- BEQ (R140). -/
def execBeq (o : Branch) (s : State) : Out := branchIf s (getS s s.clk.cur o.a.toNat == getS s s.clk.cur o.b.toNat) o.off
/-- BNE (R140). -/
def execBne (o : Branch) (s : State) : Out := branchIf s (getS s s.clk.cur o.a.toNat != getS s s.clk.cur o.b.toNat) o.off
/-- BLT, signed (R140). -/
def execBlt (o : Branch) (s : State) : Out :=
  branchIf s ((getS s s.clk.cur o.a.toNat).slt (getS s s.clk.cur o.b.toNat)) o.off
/-- BGE, signed (R140). -/
def execBge (o : Branch) (s : State) : Out :=
  branchIf s (!(getS s s.clk.cur o.a.toNat).slt (getS s s.clk.cur o.b.toNat)) o.off
/-- BLTN, unsigned (R140). -/
def execBltn (o : Branch) (s : State) : Out := branchIf s (src s o.a < src s o.b) o.off
/-- BGEN, unsigned (R140). -/
def execBgen (o : Branch) (s : State) : Out := branchIf s (src s o.b ≤ src s o.a) o.off
/-- BZ (R140). -/
def execBz (o : BranchZ) (s : State) : Out := branchIf s (getS s s.clk.cur o.a.toNat == 0) o.off
/-- BNZ (R140). -/
def execBnz (o : BranchZ) (s : State) : Out := branchIf s (getS s s.clk.cur o.a.toNat != 0) o.off

/-- J, short form (R141). -/
def execJ (off : BitVec 22) (s : State) : Out := .next (jumpTo s s.clk.cur (branchTarget s 22 off.toNat))
/-- J, literal form: an absolute PC (R141). -/
def execJSl (lit : Word) (s : State) : Out :=
  .next (if lit.toNat % 4 ≠ 0 ∨ 2 ^ 40 ≤ lit.toNat then faultInstr s s.clk.cur cILLOP 0 else jumpTo s s.clk.cur lit.toNat)
/-- JAL, short form: s29 := PC + 4 (R141). -/
def execJal (off : BitVec 22) (s : State) : Out :=
  .next (jumpTo (setS s s.clk.cur 29 (codeOffset s 4)) s.clk.cur (branchTarget s 22 off.toNat))
/-- JAL, literal form: s29 := PC + 12 (R141). -/
def execJalSl (lit : Word) (s : State) : Out :=
  .next (if lit.toNat % 4 ≠ 0 ∨ 2 ^ 40 ≤ lit.toNat then faultInstr s s.clk.cur cILLOP 0
    else jumpTo (setS s s.clk.cur 29 (codeOffset s 12)) s.clk.cur lit.toNat)

/-- JR (R142). -/
def execJr (o : ImmI) (s : State) : Out :=
  let r := s.clk.cur
  let t : Int := (src s o.a : Int) + signedOf 12 o.imm.toNat
  let g := getSeg s r 0
  let fa := (g.base + lowBits 40 t) % 2 ^ 48
  .next (if t < 0 ∨ 2 ^ 40 ≤ t then faultNow s r ⟨cSEG, 0x03, fa, g.kind⟩
    else if t % 4 ≠ 0 then faultNow s r ⟨cALIGN, 0, fa, g.kind⟩
    else jumpTo (setS s r o.d.toNat (codeOffset s 4)) r t.toNat)

/-- Arming of level `l` by LOOP or LOOPX (R144): `len` bytes long, `off` words to the end label, count `c`. -/
def armLoop (s : State) (l len off c : Nat) : Out :=
  let r := s.clk.cur
  let pc := getF s r fPc
  let e := (pc + 4 * off) % 2 ^ 40
  let span := off - len / 4
  let skip := if l = 1 then some 1 else some 0
  .next (if span = 0 then finishAt s r e true skip
    else
      let s := setF (setF (setF s r (fLoopEnd l) e) r (fLoopSpan l) span) r (fCount l) (c % 2 ^ 32)
      if c % 2 ^ 32 = 0 then finishAt (setF s r (fLoopArmed l) 0) r e true skip
      else finishAt (setF s r (fLoopArmed l) 1) r ((pc + len) % 2 ^ 40) true skip)

/-- LOOP (R144). -/
def execLoop (l a : Reg) (imm : BitVec 12) (s : State) : Out := armLoop s l.toNat 4 imm.toNat (src s a)
/-- LOOPX (R144). -/
def execLoopx (o : LoopX) (s : State) : Out :=
  armLoop s o.l.toNat 12 o.dist.toNat (if o.immCount then o.count.toNat else src s o.a)
/-- NOP (R147). -/
def execNop (s : State) : Out := .next (finish s s.clk.cur 4)

end Sys2Proof.Machine
end

