-- ==== Sys2Proof/Machine/Float.lean ====
section
/-!
DEFINITION. Scalar floating point (R152 to R159): one meaning per instruction.
-/
namespace Sys2Proof.Machine

/-- FADD (R153). -/
def execFadd (o : FpR) (s : State) : Out := fpR fpAdd o s
/-- FSUB (R153). -/
def execFsub (o : FpR) (s : State) : Out := fpR fpSub o s
/-- FMUL (R153). -/
def execFmul (o : FpR) (s : State) : Out := fpR fpMul o s
/-- FDIV, long (R153). -/
def execFdiv (o : FpR) (s : State) : Out :=
  let c := ftypeCode o.t
  putFLong s o.t o.d (fpDiv (layoutOf c) o.m.toNat (fsrc s c o.a) (fsrc s c o.b))
/-- FSQRT, long (R153). -/
def execFsqrt (o : FpU) (s : State) : Out :=
  let c := ftypeCode o.t
  putFLong s o.t o.d (fpSqrt (layoutOf c) o.m.toNat (fsrc s c o.a))
/-- FMIN (R154). -/
def execFmin (o : FpC) (s : State) : Out := fpC (fun f a b => fpMinMax f false a b) o s
/-- FMAX (R154). -/
def execFmax (o : FpC) (s : State) : Out := fpC (fun f a b => fpMinMax f true a b) o s
/-- FSGN (R155). -/
def execFsgn (o : FpS) (s : State) : Out :=
  let c := ftypeCode o.t
  putF s o.d (fpSign (layoutOf c) o.op.toNat (fsrc s c o.a) (fsrc s c o.b), flagsNone) 4
/-- A scalar comparison (R156). -/
def fcmp (rel : FRel) (f : FloatFmt) (a b : Nat) : Nat × Flags := (flag01 (fpCompare f rel a b).1, (fpCompare f rel a b).2)
/-- FCEQ (R156). -/
def execFceq (o : FpC) (s : State) : Out := fpC (fcmp .eq) o s
/-- FCLT (R156). -/
def execFclt (o : FpC) (s : State) : Out := fpC (fcmp .lt) o s
/-- FCLE (R156). -/
def execFcle (o : FpC) (s : State) : Out := fpC (fcmp .le) o s
/-- FCLASS (R157). -/
def execFclass (o : FpK) (s : State) : Out :=
  let c := ftypeCode o.t
  putF s o.d (2 ^ fpClass (layoutOf c) (fsrc s c o.a), flagsNone) 4
/-- FMA (R158). -/
def execFma (o : FmaX) (s : State) : Out :=
  let c := o.et.toNat
  putF s o.d (fpFma (layoutOf c) o.rm.toNat false false (fsrc s c o.a) (fsrc s c o.b) (fsrc s c o.c)) 12
/-- FMS (R158). -/
def execFms (o : FmaX) (s : State) : Out :=
  let c := o.et.toNat
  putF s o.d (fpFma (layoutOf c) o.rm.toNat false true (fsrc s c o.a) (fsrc s c o.b) (fsrc s c o.c)) 12
/-- FCVT (R159): SR consumes one state; an integer result is extended by its signedness. -/
def execFcvt (o : CvtX) (s : State) : Out :=
  let r := s.clk.cur
  let et := o.et.toNat
  let x := convertElem o.src.toNat et o.rm.toNat (getF s r fSrst) false (src s o.a) 0
  let s := if o.rm = 4 then setF s r fSrst x.2.2 else s
  let v := if fmtIsInt et then extendTo (fmtWidth et) (fmtIsSigned et) x.1 else BitVec.ofNat 64 x.1
  putReg (orFlags s r (flagsToNat x.2.1)) o.d v 12

end Sys2Proof.Machine
end

