-- ==== Sys2Proof/Machine/Integer.lean ====
section
/-!
DEFINITION. Integer arithmetic, logic, shifts, bit counts, constants and bit fields (R120 to R139): one meaning per instruction.
-/
namespace Sys2Proof.Machine

/-- The result of ADD (R125) at width `n`. -/
def opAdd : Nat → Bool → Nat → Nat → Nat := fun n sgn a b => intAdd n sgn a b
/-- ADD (R125), register form. -/
def execAdd (o : AluR) (s : State) : Out := aluR opAdd o s
/-- ADD (R125), literal form. -/
def execAddSl (o : AluL) (s : State) : Out := aluL opAdd o s
/-- The result of SUB (R125) at width `n`. -/
def opSub : Nat → Bool → Nat → Nat → Nat := fun n sgn a b => intSub n sgn a b
/-- SUB (R125), register form. -/
def execSub (o : AluR) (s : State) : Out := aluR opSub o s
/-- SUB (R125), literal form. -/
def execSubSl (o : AluL) (s : State) : Out := aluL opSub o s
/-- The result of MUL (R125) at width `n`. -/
def opMul : Nat → Bool → Nat → Nat → Nat := fun n sgn a b => intMul n sgn a b
/-- MUL (R125), register form. -/
def execMul (o : AluR) (s : State) : Out := aluR opMul o s
/-- MUL (R125), literal form. -/
def execMulSl (o : AluL) (s : State) : Out := aluL opMul o s
/-- The result of ADD.sat (R125) at width `n`. -/
def opAddSat : Nat → Bool → Nat → Nat → Nat := fun n sgn a b => intAddSat n sgn a b
/-- ADD.sat (R125), register form. -/
def execAddSat (o : AluR) (s : State) : Out := aluR opAddSat o s
/-- ADD.sat (R125), literal form. -/
def execAddSatSl (o : AluL) (s : State) : Out := aluL opAddSat o s
/-- The result of SUB.sat (R125) at width `n`. -/
def opSubSat : Nat → Bool → Nat → Nat → Nat := fun n sgn a b => intSubSat n sgn a b
/-- SUB.sat (R125), register form. -/
def execSubSat (o : AluR) (s : State) : Out := aluR opSubSat o s
/-- SUB.sat (R125), literal form. -/
def execSubSatSl (o : AluL) (s : State) : Out := aluL opSubSat o s
/-- The result of MUL.sat (R125) at width `n`. -/
def opMulSat : Nat → Bool → Nat → Nat → Nat := fun n sgn a b => intMulSat n sgn a b
/-- MUL.sat (R125), register form. -/
def execMulSat (o : AluR) (s : State) : Out := aluR opMulSat o s
/-- MUL.sat (R125), literal form. -/
def execMulSatSl (o : AluL) (s : State) : Out := aluL opMulSat o s
/-- The result of MULH (R126) at width `n`. -/
def opMulh : Nat → Bool → Nat → Nat → Nat := fun n _ a b => intMulh n true a b
/-- MULH (R126), register form. -/
def execMulh (o : AluR) (s : State) : Out := aluR opMulh o s
/-- MULH (R126), literal form. -/
def execMulhSl (o : AluL) (s : State) : Out := aluL opMulh o s
/-- The result of MULHN (R126) at width `n`. -/
def opMulhn : Nat → Bool → Nat → Nat → Nat := fun n _ a b => intMulh n false a b
/-- MULHN (R126), register form. -/
def execMulhn (o : AluR) (s : State) : Out := aluR opMulhn o s
/-- MULHN (R126), literal form. -/
def execMulhnSl (o : AluL) (s : State) : Out := aluL opMulhn o s
/-- The result of DIV (R127) at width `n`. -/
def opDiv : Nat → Bool → Nat → Nat → Nat := fun n _ a b => intDiv n true a b
/-- DIV (R127), register form. -/
def execDiv (o : AluR) (s : State) : Out := aluLong opDiv o s
/-- DIV (R127), literal form. -/
def execDivSl (o : AluL) (s : State) : Out := aluLongL opDiv o s
/-- The result of DIVN (R127) at width `n`. -/
def opDivn : Nat → Bool → Nat → Nat → Nat := fun n _ a b => intDiv n false a b
/-- DIVN (R127), register form. -/
def execDivn (o : AluR) (s : State) : Out := aluLong opDivn o s
/-- DIVN (R127), literal form. -/
def execDivnSl (o : AluL) (s : State) : Out := aluLongL opDivn o s
/-- The result of REM (R127) at width `n`. -/
def opRem : Nat → Bool → Nat → Nat → Nat := fun n _ a b => intRem n true a b
/-- REM (R127), register form. -/
def execRem (o : AluR) (s : State) : Out := aluLong opRem o s
/-- REM (R127), literal form. -/
def execRemSl (o : AluL) (s : State) : Out := aluLongL opRem o s
/-- The result of REMN (R127) at width `n`. -/
def opRemn : Nat → Bool → Nat → Nat → Nat := fun n _ a b => intRem n false a b
/-- REMN (R127), register form. -/
def execRemn (o : AluR) (s : State) : Out := aluLong opRemn o s
/-- REMN (R127), literal form. -/
def execRemnSl (o : AluL) (s : State) : Out := aluLongL opRemn o s
/-- The result of AND (R128) at width `n`. -/
def opAnd : Nat → Bool → Nat → Nat → Nat := fun n _ a b => intAnd n a b
/-- AND (R128), register form. -/
def execAnd (o : AluR) (s : State) : Out := aluR opAnd o s
/-- AND (R128), literal form. -/
def execAndSl (o : AluL) (s : State) : Out := aluL opAnd o s
/-- The result of ANDN (R128) at width `n`. -/
def opAndn : Nat → Bool → Nat → Nat → Nat := fun n _ a b => intAndn n a b
/-- ANDN (R128), register form. -/
def execAndn (o : AluR) (s : State) : Out := aluR opAndn o s
/-- ANDN (R128), literal form. -/
def execAndnSl (o : AluL) (s : State) : Out := aluL opAndn o s
/-- The result of OR (R128) at width `n`. -/
def opOr : Nat → Bool → Nat → Nat → Nat := fun n _ a b => intOr n a b
/-- OR (R128), register form. -/
def execOr (o : AluR) (s : State) : Out := aluR opOr o s
/-- OR (R128), literal form. -/
def execOrSl (o : AluL) (s : State) : Out := aluL opOr o s
/-- The result of XOR (R128) at width `n`. -/
def opXor : Nat → Bool → Nat → Nat → Nat := fun n _ a b => intXor n a b
/-- XOR (R128), register form. -/
def execXor (o : AluR) (s : State) : Out := aluR opXor o s
/-- XOR (R128), literal form. -/
def execXorSl (o : AluL) (s : State) : Out := aluL opXor o s
/-- The result of SHL (R130) at width `n`. -/
def opShl : Nat → Bool → Nat → Nat → Nat := fun n _ a b => intShl n a (b % 64)
/-- SHL (R130), register form. -/
def execShl (o : AluR) (s : State) : Out := aluR opShl o s
/-- SHL (R130), literal form. -/
def execShlSl (o : AluL) (s : State) : Out := aluL opShl o s
/-- The result of SHR (R130) at width `n`. -/
def opShr : Nat → Bool → Nat → Nat → Nat := fun n _ a b => intShr n a (b % 64)
/-- SHR (R130), register form. -/
def execShr (o : AluR) (s : State) : Out := aluR opShr o s
/-- SHR (R130), literal form. -/
def execShrSl (o : AluL) (s : State) : Out := aluL opShr o s
/-- The result of SRA (R130) at width `n`. -/
def opSra : Nat → Bool → Nat → Nat → Nat := fun n _ a b => intSra n a (b % 64)
/-- SRA (R130), register form. -/
def execSra (o : AluR) (s : State) : Out := aluR opSra o s
/-- SRA (R130), literal form. -/
def execSraSl (o : AluL) (s : State) : Out := aluL opSra o s
/-- The result of ROTL (R130) at width `n`. -/
def opRotl : Nat → Bool → Nat → Nat → Nat := fun n _ a b => intRotl n a (b % 64)
/-- ROTL (R130), register form. -/
def execRotl (o : AluR) (s : State) : Out := aluR opRotl o s
/-- ROTL (R130), literal form. -/
def execRotlSl (o : AluL) (s : State) : Out := aluL opRotl o s
/-- The result of ROTR (R130) at width `n`. -/
def opRotr : Nat → Bool → Nat → Nat → Nat := fun n _ a b => intRotr n a (b % 64)
/-- ROTR (R130), register form. -/
def execRotr (o : AluR) (s : State) : Out := aluR opRotr o s
/-- ROTR (R130), literal form. -/
def execRotrSl (o : AluL) (s : State) : Out := aluL opRotr o s
/-- The result of MIN (R135) at width `n`. -/
def opMin : Nat → Bool → Nat → Nat → Nat := fun n _ a b => intMinOf n true a b
/-- MIN (R135), register form. -/
def execMin (o : AluR) (s : State) : Out := aluR opMin o s
/-- MIN (R135), literal form. -/
def execMinSl (o : AluL) (s : State) : Out := aluL opMin o s
/-- The result of MAX (R135) at width `n`. -/
def opMax : Nat → Bool → Nat → Nat → Nat := fun n _ a b => intMaxOf n true a b
/-- MAX (R135), register form. -/
def execMax (o : AluR) (s : State) : Out := aluR opMax o s
/-- MAX (R135), literal form. -/
def execMaxSl (o : AluL) (s : State) : Out := aluL opMax o s
/-- The result of MINN (R135) at width `n`. -/
def opMinn : Nat → Bool → Nat → Nat → Nat := fun n _ a b => intMinOf n false a b
/-- MINN (R135), register form. -/
def execMinn (o : AluR) (s : State) : Out := aluR opMinn o s
/-- MINN (R135), literal form. -/
def execMinnSl (o : AluL) (s : State) : Out := aluL opMinn o s
/-- The result of MAXN (R135) at width `n`. -/
def opMaxn : Nat → Bool → Nat → Nat → Nat := fun n _ a b => intMaxOf n false a b
/-- MAXN (R135), register form. -/
def execMaxn (o : AluR) (s : State) : Out := aluR opMaxn o s
/-- MAXN (R135), literal form. -/
def execMaxnSl (o : AluL) (s : State) : Out := aluL opMaxn o s
/-- The result of CEQ (R136) at width `n`. -/
def opCeq : Nat → Bool → Nat → Nat → Nat := fun n _ a b => flag01 (intEq n a b)
/-- CEQ (R136), register form. -/
def execCeq (o : AluR) (s : State) : Out := aluR opCeq o s
/-- CEQ (R136), literal form. -/
def execCeqSl (o : AluL) (s : State) : Out := aluL opCeq o s
/-- The result of CNE (R136) at width `n`. -/
def opCne : Nat → Bool → Nat → Nat → Nat := fun n _ a b => flag01 (!intEq n a b)
/-- CNE (R136), register form. -/
def execCne (o : AluR) (s : State) : Out := aluR opCne o s
/-- CNE (R136), literal form. -/
def execCneSl (o : AluL) (s : State) : Out := aluL opCne o s
/-- The result of CLT (R136) at width `n`. -/
def opClt : Nat → Bool → Nat → Nat → Nat := fun n _ a b => flag01 (intLt n true a b)
/-- CLT (R136), register form. -/
def execClt (o : AluR) (s : State) : Out := aluR opClt o s
/-- CLT (R136), literal form. -/
def execCltSl (o : AluL) (s : State) : Out := aluL opClt o s
/-- The result of CLE (R136) at width `n`. -/
def opCle : Nat → Bool → Nat → Nat → Nat := fun n _ a b => flag01 (intLe n true a b)
/-- CLE (R136), register form. -/
def execCle (o : AluR) (s : State) : Out := aluR opCle o s
/-- CLE (R136), literal form. -/
def execCleSl (o : AluL) (s : State) : Out := aluL opCle o s
/-- The result of CLTN (R136) at width `n`. -/
def opCltn : Nat → Bool → Nat → Nat → Nat := fun n _ a b => flag01 (intLt n false a b)
/-- CLTN (R136), register form. -/
def execCltn (o : AluR) (s : State) : Out := aluR opCltn o s
/-- CLTN (R136), literal form. -/
def execCltnSl (o : AluL) (s : State) : Out := aluL opCltn o s
/-- The result of CLEN (R136) at width `n`. -/
def opClen : Nat → Bool → Nat → Nat → Nat := fun n _ a b => flag01 (intLe n false a b)
/-- CLEN (R136), register form. -/
def execClen (o : AluR) (s : State) : Out := aluR opClen o s
/-- CLEN (R136), literal form. -/
def execClenSl (o : AluL) (s : State) : Out := aluL opClen o s
/-- CLZ (R133). -/
def execClz (o : AluU) (s : State) : Out := aluU intClz o s
/-- CTZ (R133). -/
def execCtz (o : AluU) (s : State) : Out := aluU intCtz o s
/-- POPC (R133). -/
def execPopc (o : AluU) (s : State) : Out := aluU intPopc o s
/-- BREV (R133). -/
def execBrev (o : AluU) (s : State) : Out := aluU intBrev o s
/-- LI, short form: the sign-extended immediate (R138). -/
def execLi (d : Reg) (imm : BitVec 12) (s : State) : Out := putReg s d (imm.signExtend 64) 4
/-- LI, literal form (R138). -/
def execLiSl (d : Reg) (lit : Word) (s : State) : Out := putReg s d lit 12
/-- LA, short form: PC plus a byte offset, modulo 2^40 (R139). -/
def execLa (d : Reg) (imm : BitVec 12) (s : State) : Out := putReg s d (codeOffset s (imm.signExtend 64)) 4
/-- LA, literal form (R139). -/
def execLaSl (d : Reg) (lit : Word) (s : State) : Out := putReg s d (codeOffset s lit) 12
/-- ADDI (R125), short form. -/
def execAddi (o : ImmI) (s : State) : Out := immI (fun a b => a + b) o s
/-- ADDI (R125), literal form. -/
def execAddiSl (o : ImmL) (s : State) : Out := immL (fun a b => a + b) o s
/-- ANDI (R128), short form. -/
def execAndi (o : ImmI) (s : State) : Out := immI (fun a b => a &&& b) o s
/-- ANDI (R128), literal form. -/
def execAndiSl (o : ImmL) (s : State) : Out := immL (fun a b => a &&& b) o s
/-- ORI (R128), short form. -/
def execOri (o : ImmI) (s : State) : Out := immI (fun a b => a ||| b) o s
/-- ORI (R128), literal form. -/
def execOriSl (o : ImmL) (s : State) : Out := immL (fun a b => a ||| b) o s
/-- XORI (R128), short form. -/
def execXori (o : ImmI) (s : State) : Out := immI (fun a b => a ^^^ b) o s
/-- XORI (R128), literal form. -/
def execXoriSl (o : ImmL) (s : State) : Out := immL (fun a b => a ^^^ b) o s
/-- SHL by an immediate (R131). -/
def execShlImm (o : ShiftI) (s : State) : Out := shiftI intShl o s
/-- SHR by an immediate (R131). -/
def execShrImm (o : ShiftI) (s : State) : Out := shiftI intShr o s
/-- SRA by an immediate (R131). -/
def execSraImm (o : ShiftI) (s : State) : Out := shiftI intSra o s
/-- ROTL by an immediate (R131). -/
def execRotlImm (o : ShiftI) (s : State) : Out := shiftI intRotl o s
/-- ROTR by an immediate (R131). -/
def execRotrImm (o : ShiftI) (s : State) : Out := shiftI intRotr o s
/-- EXT (R134). -/
def execExt (o : FieldI) (s : State) : Out :=
  putReg s o.d (fieldSigned (getS s s.clk.cur o.a.toNat) o.pos.toNat (o.len1.toNat + 1)) 4
/-- EXTN (R134). -/
def execExtn (o : FieldI) (s : State) : Out :=
  putReg s o.d (fieldUnsigned (getS s s.clk.cur o.a.toNat) o.pos.toNat (o.len1.toNat + 1)) 4
/-- INS (R134). -/
def execIns (o : FieldI) (s : State) : Out :=
  putReg s o.d (fieldInsert (getS s s.clk.cur o.d.toNat) (getS s s.clk.cur o.a.toNat) o.pos.toNat (o.len1.toNat + 1)) 4
/-- FSHL by an immediate amount (R132). -/
def execFshl (o : FunnelI) (s : State) : Out :=
  putReg s o.d (funnelLeft (getS s s.clk.cur o.a.toNat) (getS s s.clk.cur o.b.toNat) o.n.toNat) 4
/-- FSHR by an immediate amount (R132). -/
def execFshr (o : FunnelI) (s : State) : Out :=
  putReg s o.d (funnelRight (getS s s.clk.cur o.a.toNat) (getS s s.clk.cur o.b.toNat) o.n.toNat) 4
/-- FSHL by the low six bits of a register (R132). -/
def execFshlReg (o : Quad) (s : State) : Out :=
  putReg s o.d (funnelLeft (getS s s.clk.cur o.a.toNat) (getS s s.clk.cur o.b.toNat) ((getS s s.clk.cur o.c.toNat).toNat % 64)) 12
/-- FSHR by the low six bits of a register (R132). -/
def execFshrReg (o : Quad) (s : State) : Out :=
  putReg s o.d (funnelRight (getS s s.clk.cur o.a.toNat) (getS s s.clk.cur o.b.toNat) ((getS s s.clk.cur o.c.toNat).toNat % 64)) 12
/-- LUT3 (R129). -/
def execLut3 (o : Lut) (s : State) : Out :=
  putReg s o.d (BitVec.ofNat 64 (lutBits o.table.toNat (getS s s.clk.cur o.a.toNat).toNat (getS s s.clk.cur o.b.toNat).toNat
    (getS s s.clk.cur o.c.toNat).toNat 64)) 12
/-- SEL (R137). -/
def execSel (o : Quad) (s : State) : Out :=
  putReg s o.d (if getS s s.clk.cur o.c.toNat ≠ 0 then getS s s.clk.cur o.a.toNat else getS s s.clk.cur o.b.toNat) 12

end Sys2Proof.Machine
end

