-- ==== Sys2Proof/Machine/Vector.lean ====
section
/-!
DEFINITION. Vector lanes and masks (R148 to R151, R160 to R176): one meaning per instruction.
-/
namespace Sys2Proof.Machine

/-- The lane operation of VADD (R161). -/
def laneVaddOp : Nat → Nat → Bool → Nat → Nat → Nat × Flags := fun et rm sat a b => laneAdd et rm sat a b
/-- VADD (R161), X form. -/
def execVadd (o : VBin) (s : State) : Out := vbinX laneVaddOp o s
/-- VADD (R161), literal form. -/
def execVaddXl (o : VBinL) (s : State) : Out := vbinL laneVaddOp o s
/-- The lane operation of VSUB (R161). -/
def laneVsubOp : Nat → Nat → Bool → Nat → Nat → Nat × Flags := fun et rm sat a b => laneSub et rm sat a b
/-- VSUB (R161), X form. -/
def execVsub (o : VBin) (s : State) : Out := vbinX laneVsubOp o s
/-- VSUB (R161), literal form. -/
def execVsubXl (o : VBinL) (s : State) : Out := vbinL laneVsubOp o s
/-- The lane operation of VMUL (R161). -/
def laneVmulOp : Nat → Nat → Bool → Nat → Nat → Nat × Flags := fun et rm sat a b => laneMul et rm sat a b
/-- VMUL (R161), X form. -/
def execVmul (o : VBin) (s : State) : Out := vbinX laneVmulOp o s
/-- VMUL (R161), literal form. -/
def execVmulXl (o : VBinL) (s : State) : Out := vbinL laneVmulOp o s
/-- The lane operation of VMULH (R161). -/
def laneVmulhOp : Nat → Nat → Bool → Nat → Nat → Nat × Flags := fun et _ _ a b => laneMulh et a b
/-- VMULH (R161), X form. -/
def execVmulh (o : VBin) (s : State) : Out := vbinX laneVmulhOp o s
/-- VMULH (R161), literal form. -/
def execVmulhXl (o : VBinL) (s : State) : Out := vbinL laneVmulhOp o s
/-- The lane operation of VMIN (R161). -/
def laneVminOp : Nat → Nat → Bool → Nat → Nat → Nat × Flags := fun et _ _ a b => laneMin et a b
/-- VMIN (R161), X form. -/
def execVmin (o : VBin) (s : State) : Out := vbinX laneVminOp o s
/-- VMIN (R161), literal form. -/
def execVminXl (o : VBinL) (s : State) : Out := vbinL laneVminOp o s
/-- The lane operation of VMAX (R161). -/
def laneVmaxOp : Nat → Nat → Bool → Nat → Nat → Nat × Flags := fun et _ _ a b => laneMax et a b
/-- VMAX (R161), X form. -/
def execVmax (o : VBin) (s : State) : Out := vbinX laneVmaxOp o s
/-- VMAX (R161), literal form. -/
def execVmaxXl (o : VBinL) (s : State) : Out := vbinL laneVmaxOp o s
/-- The lane operation of VAND (R161). -/
def laneVandOp : Nat → Nat → Bool → Nat → Nat → Nat × Flags := fun et _ _ a b => plainLane (intAnd (fmtWidth et) a b)
/-- VAND (R161), X form. -/
def execVand (o : VBin) (s : State) : Out := vbinX laneVandOp o s
/-- VAND (R161), literal form. -/
def execVandXl (o : VBinL) (s : State) : Out := vbinL laneVandOp o s
/-- The lane operation of VOR (R161). -/
def laneVorOp : Nat → Nat → Bool → Nat → Nat → Nat × Flags := fun et _ _ a b => plainLane (intOr (fmtWidth et) a b)
/-- VOR (R161), X form. -/
def execVor (o : VBin) (s : State) : Out := vbinX laneVorOp o s
/-- VOR (R161), literal form. -/
def execVorXl (o : VBinL) (s : State) : Out := vbinL laneVorOp o s
/-- The lane operation of VXOR (R161). -/
def laneVxorOp : Nat → Nat → Bool → Nat → Nat → Nat × Flags := fun et _ _ a b => plainLane (intXor (fmtWidth et) a b)
/-- VXOR (R161), X form. -/
def execVxor (o : VBin) (s : State) : Out := vbinX laneVxorOp o s
/-- VXOR (R161), literal form. -/
def execVxorXl (o : VBinL) (s : State) : Out := vbinL laneVxorOp o s
/-- The lane operation of VSHL (R161). -/
def laneVshlOp : Nat → Nat → Bool → Nat → Nat → Nat × Flags := fun et _ _ a b => plainLane (intShl (fmtWidth et) a (b % 64))
/-- VSHL (R161), X form. -/
def execVshl (o : VBin) (s : State) : Out := vbinX laneVshlOp o s
/-- VSHL (R161), literal form. -/
def execVshlXl (o : VBinL) (s : State) : Out := vbinL laneVshlOp o s
/-- The lane operation of VSHR (R161). -/
def laneVshrOp : Nat → Nat → Bool → Nat → Nat → Nat × Flags := fun et _ _ a b => plainLane (intShr (fmtWidth et) a (b % 64))
/-- VSHR (R161), X form. -/
def execVshr (o : VBin) (s : State) : Out := vbinX laneVshrOp o s
/-- VSHR (R161), literal form. -/
def execVshrXl (o : VBinL) (s : State) : Out := vbinL laneVshrOp o s
/-- The lane operation of VSRA (R161). -/
def laneVsraOp : Nat → Nat → Bool → Nat → Nat → Nat × Flags := fun et _ _ a b => plainLane (intSra (fmtWidth et) a (b % 64))
/-- VSRA (R161), X form. -/
def execVsra (o : VBin) (s : State) : Out := vbinX laneVsraOp o s
/-- VSRA (R161), literal form. -/
def execVsraXl (o : VBinL) (s : State) : Out := vbinL laneVsraOp o s
/-- VFMA (R162): sub[1] negates the product, sub[0] the addend. -/
def execVfma (o : VFma) (s : State) : Out :=
  let c := o.et.toNat
  let w := fmtWidth c
  putV s o.d w (kmask s o.k) o.z fun j =>
    fpFma (layoutOf c) o.rm.toNat (bitAt o.sub.toNat 1) (bitAt o.sub.toNat 0) (vlane s w o.a j) (vlane s w o.b j) (vlane s w o.c j)
/-- VLUT3 on 64 byte lanes (R163). -/
def execVlut3 (o : VLut) (s : State) : Out :=
  putV s o.d 8 (kmask s o.k) o.z fun j =>
    plainLane (lutBits o.table.toNat (vlane s 8 o.a j) (vlane s 8 o.b j) (vlane s 8 o.c j) 8)
/-- The relation of VCMP in a lane (R164). -/
def vcmpLane (et sub a b : Nat) : Bool × Flags :=
  let w := fmtWidth et
  match floatFmt et with
  | some f => fpCompare f (match sub with
      | 0 => .eq
      | 1 => .ne
      | 2 => .lt
      | 3 => .le
      | _ => .un) a b
  | none => (match sub with
      | 0 => intEq w a b
      | 1 => !intEq w a b
      | 2 => intLt w (fmtIsSigned et) a b
      | 3 => intLe w (fmtIsSigned et) a b
      | 4 => intLt w false a b
      | _ => intLe w false a b, flagsNone)
/-- VCMP (R164): bits of K[d] by active lane; every bit at or above L is cleared. -/
def execVcmp (o : VCmp) (s : State) : Out :=
  let r := s.clk.cur
  let w := fmtWidth o.et.toNat
  let k := kmask s o.k
  let old := getK s r o.d.toNat
  let l := (List.range (laneCount w)).map fun j =>
    if bitAt k j then vcmpLane o.et.toNat o.sub.toNat (vlane s w o.a j) (vlane s w o.b j)
    else (!o.z && bitAt old j, flagsNone)
  let fl := l.foldl (fun a x => flagsOr a x.2) flagsNone
  commit (orFlags (setK s r o.d.toNat (packElems 1 (l.map fun x => flag01 x.1))) r (flagsToNat fl)) 12
/-- VSEL (R165). -/
def execVsel (o : VSel) (s : State) : Out :=
  let w := fmtWidth o.et.toNat
  let k := kmask s o.k
  putV s o.d w (2 ^ 64 - 1) false fun j => plainLane (if bitAt k j then vlane s w o.a j else vlane s w o.b j)
/-- VBC (R166). -/
def execVbc (o : VBc) (s : State) : Out :=
  let w := fmtWidth o.et.toNat
  let v := if o.sub = 0 then src s o.a % 2 ^ w else elemAt w (getV s s.clk.cur (o.a.toNat % 16)) o.imm.toNat
  putV s o.d w (kmask s o.k) o.z fun _ => plainLane v
/-- VXT (R167). -/
def execVxt (o : VXt) (s : State) : Out :=
  let et := o.et.toNat
  let w := fmtWidth et
  putReg s o.d (extendTo w (fmtIsSigned et) (vlane s w o.a (src s o.b % laneCount w))) 12
/-- VIN (R167). -/
def execVin (o : VIn) (s : State) : Out :=
  let r := s.clk.cur
  let w := fmtWidth o.et.toNat
  commit (setV s r o.d.toNat (setElem w (getV s r o.d.toNat) (src s o.b % laneCount w) (src s o.a % 2 ^ w))) 12
/-- VPERM (R168). -/
def execVperm (o : VPerm) (s : State) : Out :=
  let w := fmtWidth o.et.toNat
  let n := laneCount w
  putV s o.d w (kmask s o.k) o.z fun j =>
    let i := vlane s w o.c j % (2 * n)
    plainLane (if i < n then vlane s w o.a i else vlane s w o.b (i - n))
/-- VRED (R170). -/
def execVred (o : VRed) (s : State) : Out :=
  let r := s.clk.cur
  let et := o.et.toNat
  let x := redRoot (redOpOf o.sub.toNat) et o.rm.toNat (kmask s o.k) (getV s r o.a.toNat)
  putReg (orFlags s r (flagsToNat x.2)) o.d (extendTo (fmtWidth et) (fmtIsSigned et) x.1) 12
/-- VSCAN (R171). -/
def execVscan (o : VScan) (s : State) : Out :=
  let et := o.et.toNat
  let k := kmask s o.k
  let v := getV s s.clk.cur o.a.toNat
  putV s o.d (fmtWidth et) k o.z fun j => scanLane (redOpOf o.sub.toNat) et o.rm.toNat k v j
/-- VCVT (R172); under SR the state moves with every element converted. -/
def execVcvt (o : VCvt) (s : State) : Out :=
  let r := s.clk.cur
  let x := cvtLanes o.src.toNat o.et.toNat o.rm.toNat o.sat o.z (kmask s o.k) o.sub.toNat (getV s r o.a.toNat)
    (getV s r o.d.toNat) (getF s r fSrst)
  let s := if o.rm = 4 then setF s r fSrst x.st else s
  commit (orFlags (setV s r o.d.toNat x.dst) r (flagsToNat x.fl)) 12
/-- VDOT (R174). -/
def execVdot (o : VDot) (s : State) : Out :=
  let r := s.clk.cur
  let a := getV s r o.a.toNat
  let b := getV s r o.b.toNat
  let old := getV s r o.d.toNat
  let sf := o.sf.toNat
  putV s o.d 32 (kmask s o.k) o.z fun j =>
    if fmtIsInt sf then plainLane (dotInt sf o.sat a b (elemAt 32 old j) j) else dotFp sf o.rm.toNat a b (elemAt 32 old j) j

/-! ### Masks (R175, R176) -/

/-- Write a mask register and commit. -/
def putK (s : State) (d : KReg) (v : Nat) : Out := commit (setK s s.clk.cur d.toNat v) 4
/-- KAND (R175). -/
def execKand (d a b : KReg) (s : State) : Out := putK s d (kmask s a &&& kmask s b)
/-- KOR (R175). -/
def execKor (d a b : KReg) (s : State) : Out := putK s d (kmask s a ||| kmask s b)
/-- KXOR (R175). -/
def execKxor (d a b : KReg) (s : State) : Out := putK s d (kmask s a ^^^ kmask s b)
/-- KNOT (R175). -/
def execKnot (d a : KReg) (s : State) : Out := putK s d (2 ^ 64 - 1 - kmask s a)
/-- KMOV (R175). -/
def execKmov (d a : KReg) (s : State) : Out := putK s d (kmask s a)
/-- KPOP (R176). -/
def execKpop (d : Reg) (a : KReg) (s : State) : Out := putReg s d (BitVec.ofNat 64 (popCount 64 (kmask s a))) 4
/-- KFIND (R176). -/
def execKfind (d : Reg) (a : KReg) (b : Reg) (s : State) : Out :=
  let i := src s b % 64
  putReg s d (BitVec.ofNat 64 (lowestFrom (kmask s a) (64 - i) i)) 4

end Sys2Proof.Machine
end

