-- ==== Sys2Proof/Machine/Dispatch.lean ====
section
/-!
DEFINITION. One arm for every instruction and event: the meaning it calls.
-/
namespace Sys2Proof.Machine

/-- Execute one instruction, or one event of the machine. -/
def exec (i : Instr) (s : State) : Host.Outcome State Fault Refusal :=
  match i with
  | .illegalInstruction => Sys2Proof.Machine.execIllegalInstruction s
  | .sweepStep row => Sys2Proof.Machine.execSweepStep row s
  | .slotTableInstall ex => Sys2Proof.Machine.execSlotTableInstall ex s
  | .mmaStep ex => Sys2Proof.Machine.execMmaStep ex s
  | .accumulatorRestore row => Sys2Proof.Machine.execAccumulatorRestore row s
  | .bsumArrival id => Sys2Proof.Machine.execBsumArrival id s
  | .gtblOperation studio => Sys2Proof.Machine.execGtblOperation studio s
  | .genStep studio => Sys2Proof.Machine.execGenStep studio s
  | .haloStrip id => Sys2Proof.Machine.execHaloStrip id s
  | .jopenMessage id => Sys2Proof.Machine.execJopenMessage id s
  | .reward id => Sys2Proof.Machine.execReward id s
  | .jcloseMessage id => Sys2Proof.Machine.execJcloseMessage id s
  | .jverMessage id => Sys2Proof.Machine.execJverMessage id s
  | .jstatRequest id => Sys2Proof.Machine.execJstatRequest id s
  | .orphanExpiry eng => Sys2Proof.Machine.execOrphanExpiry eng s
  | .episodeDeadline eng => Sys2Proof.Machine.execEpisodeDeadline eng s
  | .releasePush eng => Sys2Proof.Machine.execReleasePush eng s
  | .releasePushRetry eng => Sys2Proof.Machine.execReleasePushRetry eng s
  | .start m => Sys2Proof.Machine.execStart m s
  | .stop m => Sys2Proof.Machine.execStop m s
  | .redirect m => Sys2Proof.Machine.execRedirect m s
  | .resume m => Sys2Proof.Machine.execResume m s
  | .kill m => Sys2Proof.Machine.execKill m s
  | .step m => Sys2Proof.Machine.execStep m s
  | .wakeCommand m => Sys2Proof.Machine.execWakeCommand m s
  | .priority m => Sys2Proof.Machine.execPriority m s
  | .badcode code m => Sys2Proof.Machine.execBadcode code m s
  | .commandLands row => Sys2Proof.Machine.execCommandLands row s
  | .directAccess id elem => Sys2Proof.Machine.execDirectAccess id elem s
  | .rowOpen ex slot => Sys2Proof.Machine.execRowOpen ex slot s
  | .holdExpiry row since => Sys2Proof.Machine.execHoldExpiry row since s
  | .priorityAging row since => Sys2Proof.Machine.execPriorityAging row since s
  | .governorWindow ex => Sys2Proof.Machine.execGovernorWindow ex s
  | .memoryReply id => Sys2Proof.Machine.execMemoryReply id s
  | .longInstructionComplete row => Sys2Proof.Machine.execLongInstructionComplete row s
  | .walkComplete id => Sys2Proof.Machine.execWalkComplete id s
  | .migrationLineCopy id => Sys2Proof.Machine.execMigrationLineCopy id s
  | .wetStoreFirstTrip id => Sys2Proof.Machine.execWetStoreFirstTrip id s
  | .wetTripReply id freed => Sys2Proof.Machine.execWetTripReply id freed s
  | .entryDries id => Sys2Proof.Machine.execEntryDries id s
  | .driedStoreApply id => Sys2Proof.Machine.execDriedStoreApply id s
  | .dryAcknowledgement id => Sys2Proof.Machine.execDryAcknowledgement id s
  | .lbSample => Sys2Proof.Machine.execLbSample s
  | .lbDelivery key lb db nb => Sys2Proof.Machine.execLbDelivery key lb db nb s
  | .rowJoin row => Sys2Proof.Machine.execRowJoin row s
  | .joinAnswer row phase => Sys2Proof.Machine.execJoinAnswer row phase s
  | .watchAnswer id => Sys2Proof.Machine.execWatchAnswer id s
  | .watchPoll id => Sys2Proof.Machine.execWatchPoll id s
  | .rectangleWrite p n value => Sys2Proof.Machine.execRectangleWrite p n value s
  | .noteLanding id => Sys2Proof.Machine.execNoteLanding id s
  | .systemNoteRetry id => Sys2Proof.Machine.execSystemNoteRetry id s
  | .acknowledgement row => Sys2Proof.Machine.execAcknowledgement row s
  | .channelWordSend row => Sys2Proof.Machine.execChannelWordSend row s
  | .channelWordArrival row => Sys2Proof.Machine.execChannelWordArrival row s
  | .remoteRackOperation id => Sys2Proof.Machine.execRemoteRackOperation id s
  | .blockMoveLands id => Sys2Proof.Machine.execBlockMoveLands id s
  | .lateralBalancing ex => Sys2Proof.Machine.execLateralBalancing ex s
  | .shipmentLands id => Sys2Proof.Machine.execShipmentLands id s
  | .continuationRetry id => Sys2Proof.Machine.execContinuationRetry id s
  | .potOperation id => Sys2Proof.Machine.execPotOperation id s
  | .copyPieceRead id => Sys2Proof.Machine.execCopyPieceRead id s
  | .copyPieceWrite id => Sys2Proof.Machine.execCopyPieceWrite id s
  | .copyFinish id => Sys2Proof.Machine.execCopyFinish id s
  | .watchdogWindowEnd row since => Sys2Proof.Machine.execWatchdogWindowEnd row since s
  | .instructionLimit row => Sys2Proof.Machine.execInstructionLimit row s
  | .switchTCycle p => Sys2Proof.Machine.execSwitchTCycle p s
  | .switchDecision p => Sys2Proof.Machine.execSwitchDecision p s
  | .contextEndOrder p c => Sys2Proof.Machine.execContextEndOrder p c s
  | .suspend t => Sys2Proof.Machine.execSuspend t s
  | .resumeModule t => Sys2Proof.Machine.execResumeModule t s
  | .prepare layout => Sys2Proof.Machine.execPrepare layout s
  | .commit gen => Sys2Proof.Machine.execCommit gen s
  | .conservatorRecovery => Sys2Proof.Machine.execConservatorRecovery s
  | .budgetTreePeriod => Sys2Proof.Machine.execBudgetTreePeriod s
  | .alarm => Sys2Proof.Machine.execAlarm s
  | .gatingEnd => Sys2Proof.Machine.execGatingEnd s
  | .clockHop stack => Sys2Proof.Machine.execClockHop stack s
  | .clockHopEnd stack => Sys2Proof.Machine.execClockHopEnd stack s
  | .gtimeCorrection ex => Sys2Proof.Machine.execGtimeCorrection ex s
  | .hostRmaWrite p f addr bytes => Sys2Proof.Machine.execHostRmaWrite p f addr bytes s
  | .hostRmaRead p f addr n => Sys2Proof.Machine.execHostRmaRead p f addr n s
  | .hostRmaAtomic p f addr op size val cmp => Sys2Proof.Machine.execHostRmaAtomic p f addr op size val cmp s
  | .hostTaggedSend p f row w1 w2 w3 => Sys2Proof.Machine.execHostTaggedSend p f row w1 w2 w3 s
  | .peerReward p e h key t x => Sys2Proof.Machine.execPeerReward p e h key t x s
  | .peerSum p e key sum pow => Sys2Proof.Machine.execPeerSum p e key sum pow s
  | .unsupportedOperation p k => Sys2Proof.Machine.execUnsupportedOperation p k s
  | .linkFailure p peer => Sys2Proof.Machine.execLinkFailure p peer s
  | .mailboxRequest code p args => Sys2Proof.Machine.execMailboxRequest code p args s
  | .firmwareVerification which image sig => Sys2Proof.Machine.execFirmwareVerification which image sig s
  | .attestationRequest nonce => Sys2Proof.Machine.execAttestationRequest nonce s
  | .lifeCycleTransition => Sys2Proof.Machine.execLifeCycleTransition s
  | .reset => Sys2Proof.Machine.execReset s
  | .patrolScrub line => Sys2Proof.Machine.execPatrolScrub line s
  | .refreshWindow => Sys2Proof.Machine.execRefreshWindow s
  | .neighbourRefresh row => Sys2Proof.Machine.execNeighbourRefresh row s
  | .sequencerReset stack => Sys2Proof.Machine.execSequencerReset stack s
  | .sequencerHoldTimeout stack => Sys2Proof.Machine.execSequencerHoldTimeout stack s
  | .retryReissue id => Sys2Proof.Machine.execRetryReissue id s
  | .powerLossWarning => Sys2Proof.Machine.execPowerLossWarning s
  | .registerWrite addr priv value => Sys2Proof.Machine.execRegisterWrite addr priv value s
  | .fetchFault cause => Sys2Proof.Machine.execFetchFault cause s
  | .issueCycle ex why => Sys2Proof.Machine.execIssueCycle ex why s
  | .alarmCleared => Sys2Proof.Machine.execAlarmCleared s
  | .stackOrHubRecovery stack => Sys2Proof.Machine.execStackOrHubRecovery stack s
  | .add o => Sys2Proof.Machine.execAdd o s
  | .addSl o => Sys2Proof.Machine.execAddSl o s
  | .sub o => Sys2Proof.Machine.execSub o s
  | .subSl o => Sys2Proof.Machine.execSubSl o s
  | .mul o => Sys2Proof.Machine.execMul o s
  | .mulSl o => Sys2Proof.Machine.execMulSl o s
  | .addSat o => Sys2Proof.Machine.execAddSat o s
  | .addSatSl o => Sys2Proof.Machine.execAddSatSl o s
  | .subSat o => Sys2Proof.Machine.execSubSat o s
  | .subSatSl o => Sys2Proof.Machine.execSubSatSl o s
  | .mulSat o => Sys2Proof.Machine.execMulSat o s
  | .mulSatSl o => Sys2Proof.Machine.execMulSatSl o s
  | .mulh o => Sys2Proof.Machine.execMulh o s
  | .mulhSl o => Sys2Proof.Machine.execMulhSl o s
  | .mulhn o => Sys2Proof.Machine.execMulhn o s
  | .mulhnSl o => Sys2Proof.Machine.execMulhnSl o s
  | .div o => Sys2Proof.Machine.execDiv o s
  | .divSl o => Sys2Proof.Machine.execDivSl o s
  | .divn o => Sys2Proof.Machine.execDivn o s
  | .divnSl o => Sys2Proof.Machine.execDivnSl o s
  | .rem o => Sys2Proof.Machine.execRem o s
  | .remSl o => Sys2Proof.Machine.execRemSl o s
  | .remn o => Sys2Proof.Machine.execRemn o s
  | .remnSl o => Sys2Proof.Machine.execRemnSl o s
  | .and o => Sys2Proof.Machine.execAnd o s
  | .andSl o => Sys2Proof.Machine.execAndSl o s
  | .andn o => Sys2Proof.Machine.execAndn o s
  | .andnSl o => Sys2Proof.Machine.execAndnSl o s
  | .or o => Sys2Proof.Machine.execOr o s
  | .orSl o => Sys2Proof.Machine.execOrSl o s
  | .xor o => Sys2Proof.Machine.execXor o s
  | .xorSl o => Sys2Proof.Machine.execXorSl o s
  | .shl o => Sys2Proof.Machine.execShl o s
  | .shlSl o => Sys2Proof.Machine.execShlSl o s
  | .shr o => Sys2Proof.Machine.execShr o s
  | .shrSl o => Sys2Proof.Machine.execShrSl o s
  | .sra o => Sys2Proof.Machine.execSra o s
  | .sraSl o => Sys2Proof.Machine.execSraSl o s
  | .rotl o => Sys2Proof.Machine.execRotl o s
  | .rotlSl o => Sys2Proof.Machine.execRotlSl o s
  | .rotr o => Sys2Proof.Machine.execRotr o s
  | .rotrSl o => Sys2Proof.Machine.execRotrSl o s
  | .min o => Sys2Proof.Machine.execMin o s
  | .minSl o => Sys2Proof.Machine.execMinSl o s
  | .max o => Sys2Proof.Machine.execMax o s
  | .maxSl o => Sys2Proof.Machine.execMaxSl o s
  | .minn o => Sys2Proof.Machine.execMinn o s
  | .minnSl o => Sys2Proof.Machine.execMinnSl o s
  | .maxn o => Sys2Proof.Machine.execMaxn o s
  | .maxnSl o => Sys2Proof.Machine.execMaxnSl o s
  | .ceq o => Sys2Proof.Machine.execCeq o s
  | .ceqSl o => Sys2Proof.Machine.execCeqSl o s
  | .cne o => Sys2Proof.Machine.execCne o s
  | .cneSl o => Sys2Proof.Machine.execCneSl o s
  | .clt o => Sys2Proof.Machine.execClt o s
  | .cltSl o => Sys2Proof.Machine.execCltSl o s
  | .cle o => Sys2Proof.Machine.execCle o s
  | .cleSl o => Sys2Proof.Machine.execCleSl o s
  | .cltn o => Sys2Proof.Machine.execCltn o s
  | .cltnSl o => Sys2Proof.Machine.execCltnSl o s
  | .clen o => Sys2Proof.Machine.execClen o s
  | .clenSl o => Sys2Proof.Machine.execClenSl o s
  | .clz o => Sys2Proof.Machine.execClz o s
  | .ctz o => Sys2Proof.Machine.execCtz o s
  | .popc o => Sys2Proof.Machine.execPopc o s
  | .brev o => Sys2Proof.Machine.execBrev o s
  | .li d imm => Sys2Proof.Machine.execLi d imm s
  | .liSl d lit => Sys2Proof.Machine.execLiSl d lit s
  | .la d imm => Sys2Proof.Machine.execLa d imm s
  | .laSl d lit => Sys2Proof.Machine.execLaSl d lit s
  | .addi o => Sys2Proof.Machine.execAddi o s
  | .addiSl o => Sys2Proof.Machine.execAddiSl o s
  | .andi o => Sys2Proof.Machine.execAndi o s
  | .andiSl o => Sys2Proof.Machine.execAndiSl o s
  | .ori o => Sys2Proof.Machine.execOri o s
  | .oriSl o => Sys2Proof.Machine.execOriSl o s
  | .xori o => Sys2Proof.Machine.execXori o s
  | .xoriSl o => Sys2Proof.Machine.execXoriSl o s
  | .shlImm o => Sys2Proof.Machine.execShlImm o s
  | .shrImm o => Sys2Proof.Machine.execShrImm o s
  | .sraImm o => Sys2Proof.Machine.execSraImm o s
  | .rotlImm o => Sys2Proof.Machine.execRotlImm o s
  | .rotrImm o => Sys2Proof.Machine.execRotrImm o s
  | .ext o => Sys2Proof.Machine.execExt o s
  | .extn o => Sys2Proof.Machine.execExtn o s
  | .ins o => Sys2Proof.Machine.execIns o s
  | .fshl o => Sys2Proof.Machine.execFshl o s
  | .fshr o => Sys2Proof.Machine.execFshr o s
  | .fshlReg o => Sys2Proof.Machine.execFshlReg o s
  | .fshrReg o => Sys2Proof.Machine.execFshrReg o s
  | .lut3 o => Sys2Proof.Machine.execLut3 o s
  | .sel o => Sys2Proof.Machine.execSel o s
  | .beq o => Sys2Proof.Machine.execBeq o s
  | .bne o => Sys2Proof.Machine.execBne o s
  | .blt o => Sys2Proof.Machine.execBlt o s
  | .bge o => Sys2Proof.Machine.execBge o s
  | .bltn o => Sys2Proof.Machine.execBltn o s
  | .bgen o => Sys2Proof.Machine.execBgen o s
  | .bz o => Sys2Proof.Machine.execBz o s
  | .bnz o => Sys2Proof.Machine.execBnz o s
  | .j off => Sys2Proof.Machine.execJ off s
  | .jSl lit => Sys2Proof.Machine.execJSl lit s
  | .jal off => Sys2Proof.Machine.execJal off s
  | .jalSl lit => Sys2Proof.Machine.execJalSl lit s
  | .jr o => Sys2Proof.Machine.execJr o s
  | .loop l a imm => Sys2Proof.Machine.execLoop l a imm s
  | .loopx o => Sys2Proof.Machine.execLoopx o s
  | .nop => Sys2Proof.Machine.execNop s
  | .fadd o => Sys2Proof.Machine.execFadd o s
  | .fsub o => Sys2Proof.Machine.execFsub o s
  | .fmul o => Sys2Proof.Machine.execFmul o s
  | .fdiv o => Sys2Proof.Machine.execFdiv o s
  | .fsqrt o => Sys2Proof.Machine.execFsqrt o s
  | .fmin o => Sys2Proof.Machine.execFmin o s
  | .fmax o => Sys2Proof.Machine.execFmax o s
  | .fsgn o => Sys2Proof.Machine.execFsgn o s
  | .fceq o => Sys2Proof.Machine.execFceq o s
  | .fclt o => Sys2Proof.Machine.execFclt o s
  | .fcle o => Sys2Proof.Machine.execFcle o s
  | .fclass o => Sys2Proof.Machine.execFclass o s
  | .fma o => Sys2Proof.Machine.execFma o s
  | .fms o => Sys2Proof.Machine.execFms o s
  | .fcvt o => Sys2Proof.Machine.execFcvt o s
  | .vadd o => Sys2Proof.Machine.execVadd o s
  | .vaddXl o => Sys2Proof.Machine.execVaddXl o s
  | .vsub o => Sys2Proof.Machine.execVsub o s
  | .vsubXl o => Sys2Proof.Machine.execVsubXl o s
  | .vmul o => Sys2Proof.Machine.execVmul o s
  | .vmulXl o => Sys2Proof.Machine.execVmulXl o s
  | .vmulh o => Sys2Proof.Machine.execVmulh o s
  | .vmulhXl o => Sys2Proof.Machine.execVmulhXl o s
  | .vmin o => Sys2Proof.Machine.execVmin o s
  | .vminXl o => Sys2Proof.Machine.execVminXl o s
  | .vmax o => Sys2Proof.Machine.execVmax o s
  | .vmaxXl o => Sys2Proof.Machine.execVmaxXl o s
  | .vand o => Sys2Proof.Machine.execVand o s
  | .vandXl o => Sys2Proof.Machine.execVandXl o s
  | .vor o => Sys2Proof.Machine.execVor o s
  | .vorXl o => Sys2Proof.Machine.execVorXl o s
  | .vxor o => Sys2Proof.Machine.execVxor o s
  | .vxorXl o => Sys2Proof.Machine.execVxorXl o s
  | .vshl o => Sys2Proof.Machine.execVshl o s
  | .vshlXl o => Sys2Proof.Machine.execVshlXl o s
  | .vshr o => Sys2Proof.Machine.execVshr o s
  | .vshrXl o => Sys2Proof.Machine.execVshrXl o s
  | .vsra o => Sys2Proof.Machine.execVsra o s
  | .vsraXl o => Sys2Proof.Machine.execVsraXl o s
  | .vfma o => Sys2Proof.Machine.execVfma o s
  | .vlut3 o => Sys2Proof.Machine.execVlut3 o s
  | .vcmp o => Sys2Proof.Machine.execVcmp o s
  | .vsel o => Sys2Proof.Machine.execVsel o s
  | .vbc o => Sys2Proof.Machine.execVbc o s
  | .vxt o => Sys2Proof.Machine.execVxt o s
  | .vin o => Sys2Proof.Machine.execVin o s
  | .vperm o => Sys2Proof.Machine.execVperm o s
  | .vred o => Sys2Proof.Machine.execVred o s
  | .vscan o => Sys2Proof.Machine.execVscan o s
  | .vcvt o => Sys2Proof.Machine.execVcvt o s
  | .vdot o => Sys2Proof.Machine.execVdot o s
  | .kand d a b => Sys2Proof.Machine.execKand d a b s
  | .kor d a b => Sys2Proof.Machine.execKor d a b s
  | .kxor d a b => Sys2Proof.Machine.execKxor d a b s
  | .knot d a => Sys2Proof.Machine.execKnot d a s
  | .kmov d a => Sys2Proof.Machine.execKmov d a s
  | .kpop d a => Sys2Proof.Machine.execKpop d a s
  | .kfind d a b => Sys2Proof.Machine.execKfind d a b s
  | .ld o => Sys2Proof.Machine.execLd o s
  | .ldX o => Sys2Proof.Machine.execLdX o s
  | .st o => Sys2Proof.Machine.execSt o s
  | .stX o => Sys2Proof.Machine.execStX o s
  | .vld o => Sys2Proof.Machine.execVld o s
  | .vst o => Sys2Proof.Machine.execVst o s
  | .vlds o => Sys2Proof.Machine.execVlds o s
  | .vsts o => Sys2Proof.Machine.execVsts o s
  | .vgat o => Sys2Proof.Machine.execVgat o s
  | .vsct o => Sys2Proof.Machine.execVsct o s
  | .pref mem => Sys2Proof.Machine.execPref mem s
  | .fmtq d mem => Sys2Proof.Machine.execFmtq d mem s
  | .tlbinv a b sub => Sys2Proof.Machine.execTlbinv a b sub s
  | .migrate d b mem => Sys2Proof.Machine.execMigrate d b mem s
  | .migrateRelease d b => Sys2Proof.Machine.execMigrateRelease d b s
  | .phase d a => Sys2Proof.Machine.execPhase d a s
  | .tick d a => Sys2Proof.Machine.execTick d a s
  | .waitlb d a b => Sys2Proof.Machine.execWaitlb d a b s
  | .fence a => Sys2Proof.Machine.execFence a s
  | .fencex a sets => Sys2Proof.Machine.execFencex a sets s
  | .stDry o => Sys2Proof.Machine.execStDry o s
  | .watch o => Sys2Proof.Machine.execWatch o s
  | .aadd o => Sys2Proof.Machine.execAadd o s
  | .aaddXl o => Sys2Proof.Machine.execAaddXl o s
  | .amin o => Sys2Proof.Machine.execAmin o s
  | .aminXl o => Sys2Proof.Machine.execAminXl o s
  | .amax o => Sys2Proof.Machine.execAmax o s
  | .amaxXl o => Sys2Proof.Machine.execAmaxXl o s
  | .aand o => Sys2Proof.Machine.execAand o s
  | .aandXl o => Sys2Proof.Machine.execAandXl o s
  | .aor o => Sys2Proof.Machine.execAor o s
  | .aorXl o => Sys2Proof.Machine.execAorXl o s
  | .axor o => Sys2Proof.Machine.execAxor o s
  | .axorXl o => Sys2Proof.Machine.execAxorXl o s
  | .axchg o => Sys2Proof.Machine.execAxchg o s
  | .axchgXl o => Sys2Proof.Machine.execAxchgXl o s
  | .acas o => Sys2Proof.Machine.execAcas o s
  | .acasXl o => Sys2Proof.Machine.execAcasXl o s
  | .ctl d a b => Sys2Proof.Machine.execCtl d a b s
  | .wake d a => Sys2Proof.Machine.execWake d a s
  | .arm d a b => Sys2Proof.Machine.execArm d a b s
  | .disarm d a => Sys2Proof.Machine.execDisarm d a s
  | .self d sel => Sys2Proof.Machine.execSelf d sel s
  | .peek d a b off => Sys2Proof.Machine.execPeek d a b off s
  | .spawn d a b c sub => Sys2Proof.Machine.execSpawn d a b c sub s
  | .quit => Sys2Proof.Machine.execQuit s
  | .park => Sys2Proof.Machine.execPark s
  | .yield => Sys2Proof.Machine.execYield s
  | .sweep o => Sys2Proof.Machine.execSweep o s
  | .slotw d a => Sys2Proof.Machine.execSlotw d a s
  | .slotr d a sel => Sys2Proof.Machine.execSlotr d a sel s
  | .budget d a => Sys2Proof.Machine.execBudget d a s
  | .prio d a => Sys2Proof.Machine.execPrio d a s
  | .prioRead d => Sys2Proof.Machine.execPrioRead d s
  | .trap a => Sys2Proof.Machine.execTrap a s
  | .beat => Sys2Proof.Machine.execBeat s
  | .gtime d => Sys2Proof.Machine.execGtime d s
  | .switch d a b => Sys2Proof.Machine.execSwitch d a b s
  | .note o => Sys2Proof.Machine.execNote o s
  | .noteXl o => Sys2Proof.Machine.execNoteXl o s
  | .recv d => Sys2Proof.Machine.execRecv d s
  | .recvq d => Sys2Proof.Machine.execRecvq d s
  | .kpush o => Sys2Proof.Machine.execKpush o s
  | .kpushXl o => Sys2Proof.Machine.execKpushXl o s
  | .take d a => Sys2Proof.Machine.execTake d a s
  | .jdec d a b => Sys2Proof.Machine.execJdec d a b s
  | .done d => Sys2Proof.Machine.execDone d s
  | .balset d a => Sys2Proof.Machine.execBalset d a s
  | .cpy d a sub => Sys2Proof.Machine.execCpy d a sub s
  | .cpyw d a => Sys2Proof.Machine.execCpyw d a s
  | .cpyq d a => Sys2Proof.Machine.execCpyq d a s
  | .potset d a b imm => Sys2Proof.Machine.execPotset d a b imm s
  | .potsetClear d a => Sys2Proof.Machine.execPotsetClear d a s
  | .potput d a b => Sys2Proof.Machine.execPotput d a b s
  | .potget d a => Sys2Proof.Machine.execPotget d a s
  | .potrel d a => Sys2Proof.Machine.execPotrel d a s
  | .mown d a => Sys2Proof.Machine.execMown d a s
  | .mrel => Sys2Proof.Machine.execMrel s
  | .mcfg d a => Sys2Proof.Machine.execMcfg d a s
  | .mcfgRead d => Sys2Proof.Machine.execMcfgRead d s
  | .mzero a => Sys2Proof.Machine.execMzero a s
  | .mma o => Sys2Proof.Machine.execMma o s
  | .mst o => Sys2Proof.Machine.execMst o s
  | .mld o => Sys2Proof.Machine.execMld o s
  | .bsum d a b c => Sys2Proof.Machine.execBsum d a b c s
  | .bsumAcc d a c => Sys2Proof.Machine.execBsumAcc d a c s
  | .bredRead d a => Sys2Proof.Machine.execBredRead d a s
  | .bredClear d a => Sys2Proof.Machine.execBredClear d a s
  | .bredClaim d a => Sys2Proof.Machine.execBredClaim d a s
  | .bredRelease d a => Sys2Proof.Machine.execBredRelease d a s
  | .gtbl d hdr mem => Sys2Proof.Machine.execGtbl d hdr mem s
  | .gen d a b sub imm => Sys2Proof.Machine.execGen d a b sub imm s
  | .ghalo d a => Sys2Proof.Machine.execGhalo d a s
  | .jopen o => Sys2Proof.Machine.execJopen o s
  | .jopenXl o => Sys2Proof.Machine.execJopenXl o s
  | .jrwd o => Sys2Proof.Machine.execJrwd o s
  | .jrwdXl o => Sys2Proof.Machine.execJrwdXl o s
  | .jclose o => Sys2Proof.Machine.execJclose o s
  | .jcloseXl o => Sys2Proof.Machine.execJcloseXl o s
  | .jcfgSet d a b => Sys2Proof.Machine.execJcfgSet d a b s
  | .jcfgClear d a b => Sys2Proof.Machine.execJcfgClear d a b s
  | .jcfgPurge d a b => Sys2Proof.Machine.execJcfgPurge d a b s
  | .jver d a b => Sys2Proof.Machine.execJver d a b s
  | .jstat d a sel => Sys2Proof.Machine.execJstat d a sel s

end Sys2Proof.Machine
end

