-- ==== Sys2Proof/Machine/Issue.lean ====
section
/-!
DEFINITION. Which rows issue in a cycle (R104 to R117) and one issue from fetch to commit (R48 to R51, R63, R67, R113 to R118, R121,
R228, R342). What fetches is `noncomputable` only because compiled code cannot build every constructor of `Instr`; Lean's kernel
evaluates it.
-/
namespace Sys2Proof.Machine

/-! ### Slots and lending (R107 to R109) -/

/-- Whether slot `k` of an executor may issue in enabled cycle `c` for partition `p` (R107, R108). -/
def slotReady (s : State) (ex p k c : Nat) : Bool :=
  match tabGet s.rows.slots (ex * 32 + k) with
  | none => false
  | some x =>
    !x.opening && !x.retained && codeOf s x.row == 3 && decide (x.readyAt < s.clk.now) && ctxActive s x.row && partOf s x.row == p &&
    !joinPending s x.row && slotPassed s ex p k && !heldForSwitch s p ex && !s.hub.heldParts.contains p &&
    !codeHeld s x.row && (match tabGet s.rows.lastIssue (ex * 32 + k) with
     | none => true
     | some l => decide (l + 8 ≤ c))

/-- The slots of a partition in increasing number, modulo 32, from `k`. -/
def slotsFrom (s : State) (p k : Nat) : List Nat :=
  ((List.range 32).map fun i => (k + i) % 32).filter fun i => bitAt (slotSet s p) i

/-- lend(p, c): the slot, and the pointer after it (R109). -/
def lendSlot (s : State) (ex p c : Nat) : Option (Nat × Nat) :=
  match (slotsFrom s p (govOf s ex p).lend).find? fun k => slotReady s ex p k c with
  | none => none
  | some k => some (k, (slotsFrom s p ((k + 1) % 32)).headD k)

/-- The row in a slot. -/
def slotRow (s : State) (ex k : Nat) : Nat := ((tabGet s.rows.slots (ex * 32 + k)).map Slot.row).getD 0

/-- Executors that have something to decide in a cycle. -/
def issuers (s : State) : List Nat :=
  ((s.rows.slots.map fun (e : Nat × Slot) => e.1 / 32) ++ s.iss.duty.map Prod.fst).eraseDups

/-! ### Palette claims (R111, R257, R259) -/

/-- The banks of an access through a PAL segment: that of its first byte, and that of its last when it is another. An access that its checks
refuse reaches no palette and claims none: bytes outside the palette, and banks of another partition (R105, R183, R257). -/
def palBanks (s : State) (g : Seg) (o : Int) (n : Nat) : Option (Nat × List Nat) :=
  let a : Int := g.base + o
  if g.kind ≠ 5 ∨ a < 0 ∨ 0x800000 < a + n then none
  else
    let first := a.toNat / 2 ^ 18
    let last := (a.toNat + n - 1) / 2 ^ 18
    let own := bankSet s (partOf s s.clk.cur)
    if !bitAt own first || !bitAt own last then none else some (first, if last = first then [] else [last])

/-- The banks of an access of several parts: it contends at the first part's, and takes every other bank that it touches with it (log 54);
none when one of its parts is refused. -/
def partBanks (xs : List (Option (Nat × List Nat))) : Option (Nat × List Nat) :=
  if xs.any Option.isNone then none
  else match xs.filterMap id with
    | [] => none
    | x :: r => some (x.1, ((x :: r).flatMap fun (y : Nat × List Nat) => y.1 :: y.2).eraseDups.filter fun q => q != x.1)

/-- The banks of an access with one element of `n` bytes per active lane. -/
def laneBanks (s : State) (g : Seg) (w k n : Nat) (off : Nat → Int) : Option (Nat × List Nat) :=
  partBanks ((activeLanes w k).map fun j => palBanks s g (off j) n)

/-- The banks of a decoding VLD whose stored format is not its lane type (R194, R195): its span and, in a block format, its scale byte. -/
def spanBanks (s : State) (g : Seg) (o : Int) (et : Nat) : Option (Nat × List Nat) :=
  if !loadAccepts et g.fmt then none
  else
    let span := palBanks s g o (max 1 (laneCount (fmtWidth et) * fmtWidth g.fmt / 8))
    let po := o.toNat % 2 ^ 16
    partBanks (span :: if fmtIsBlock g.fmt then [palBanks s g (o + (((scalePlace g.fmt (2 ^ 16) po).1 : Int) - po)) 1] else [])

/-- The bank of a pot of the own studio. -/
def potBank (s : State) (a : Reg) : Option (Nat × List Nat) :=
  match potName s s.clk.cur (getS s s.clk.cur a.toNat) true with
  | .ok k => some (k % 128 / 4, [])
  | .error _ => none

/-- The banks an instruction claims at its issue (R111); the state has the row as the acting one. -/
def claimOf (s : State) (i : Instr) : Option (Nat × List Nat) :=
  let r := s.clk.cur
  let km := fun (k : KReg) => kmask s k
  match i with
  | .ld o => palBanks s (getSeg s r 1) ((src s o.a : Int) + signedOf 12 o.imm.toNat) (itypeWidth o.t / 8)
  | .ldX o => palBanks s (memSeg s o.mem) (memOff s o.mem) (itypeWidth o.t / 8)
  | .st o => palBanks s (getSeg s r 1) ((src s o.a : Int) + signedOf 12 o.off.toNat) (2 ^ o.w.toNat)
  | .stX o => palBanks s (memSeg s o.mem) (memOff s o.mem) (2 ^ o.w.toNat)
  | .stDry o => palBanks s (memSeg s o.mem) (memOff s o.mem) (2 ^ o.w.toNat)
  | .vld o =>
    let g := memSeg s o.mem
    let w := fmtWidth o.et.toNat
    if (activeLanes w (km o.k)).isEmpty then none
    else if o.dec && !loadIsRaw o.et.toNat g.fmt then spanBanks s g (memOff s o.mem) o.et.toNat
    else laneBanks s g w (km o.k) (w / 8) fun (j : Nat) => memOff s o.mem + (w / 8 * j : Nat)
  | .vst o =>
    let w := fmtWidth o.et.toNat
    laneBanks s (memSeg s o.mem) w (km o.k) (w / 8) fun (j : Nat) => memOff s o.mem + (w / 8 * j : Nat)
  | .vlds o =>
    let g := memSeg s o.mem
    let w := fmtWidth o.et.toNat
    laneBanks s g w (km o.k) (if o.dec && strideAccepts o.et.toNat g.fmt then loadBytes o.et.toNat g.fmt else w / 8) fun (j : Nat) =>
      memOff s o.mem + j * signedOf 64 (src s o.b)
  | .vsts o =>
    let w := fmtWidth o.et.toNat
    laneBanks s (memSeg s o.mem) w (km o.k) (w / 8) fun (j : Nat) => memOff s o.mem + j * signedOf 64 (src s o.b)
  | .vgat o =>
    let w := fmtWidth o.et.toNat
    laneBanks s (memSeg s o.mem) w (km o.k) (w / 8) fun j => memOff s o.mem + signedOf w (vlane s w o.b j) * (2 ^ o.sh.toNat : Nat)
  | .vsct o =>
    let w := fmtWidth o.et.toNat
    laneBanks s (memSeg s o.mem) w (km o.k) (w / 8) fun j => memOff s o.mem + signedOf w (vlane s w o.b j) * (2 ^ o.sh.toNat : Nat)
  | .potput _ a _ => potBank s a
  | .potget _ a => potBank s a
  | .potrel _ a => potBank s a
  | _ => none

/-- A choice of the cycle with the banks it claims. -/
structure Choice where
  todo : Todo
  claim : Option (Nat × List Nat)
  deriving DecidableEq, Repr

/-- A choice's claim, with its studio. -/
def Choice.claims (c : Choice) : Option (Nat × Claim) :=
  c.claim.map fun b => (studioOf c.todo.ex, ⟨memberOf c.todo.ex, c.todo.row, b.1, b.2⟩)

/-- The palette is shared out; a row that loses its bank forfeits the cycle (R111). -/
def arbitrate (s : State) (cs : List Choice) : State × List Todo :=
  let x := shareBanks s (cs.filterMap Choice.claims)
  (x.1, cs.map fun c =>
    if c.claim.isSome && !(x.2.any fun w => w.key == c.todo.row) then { c.todo with why := 4 } else c.todo)

/-! ### The decision of a cycle (R108) -/

/-- The state as an instruction finds it: the row is the acting one, and the word it pops from its channel is at hand (R121). -/
def acting (s : State) (r : Nat) (i : Instr) : State :=
  let head := if chanOn s r && (scalarReads i).contains 30 then ((endOf s r).bind fun e => e.inp.head?) else none
  { s with clk := { s.clk with cur := r, popped := head } }

/-- Whether the row's next issue is a fault of the fetch, of the check before it, or of the instruction limit: it claims nothing and is
never blocked (R113). -/
def fetchFirst (s : State) (r : Nat) : Bool :=
  (s.rows.recheck.contains r && ((codePoison s r 0 2 true).isSome || hashCheck s r != .good)) || limitReached s r ||
  (codePoison s r (getF s r fPc) (codeCount s r) false).isSome

/-- What the governor and the palette say of the instruction at a row's PC (R111, R113, R114). -/
noncomputable def judge (s : State) (ex p k r : Nat) (lent : Bool) : State × Choice :=
  let t : Todo := { ex := ex, slot := k, row := r, lent := lent, why := 0 }
  if fetchFirst s r then (s, ⟨t, none⟩)
  else
    let tooMuch := fun (w : Nat) => overCap s ex p w && getF s r fExempt == 0
    let block := fun (w : Nat) => (updGov s ex p fun g => { g with demand := g.demand + w }, (⟨{ t with why := 3 }, none⟩ : Choice))
    match fetchPlan s r with
    | .go i _ => if tooMuch (weightOf i) then block (weightOf i) else (s, ⟨t, claimOf (acting s r i) i⟩)
    | .illegal w => if tooMuch w then block w else (s, ⟨t, none⟩)
    | _ => (s, ⟨t, none⟩)

/-- One executor's choice in a cycle (R108, R109, R117); a cycle in which fetch is not allowed is counted whether or not rows issue in
the module's power state. -/
noncomputable def choose (s : State) (ex : Nat) : State × Option Choice :=
  let c := enabledCycles s ex
  let n := (slotTable s ex).getD (c % 64) 0
  let p := entryOwner s (c % 64)
  if !clockOn s ex then (s, none)
  else if !fetchAllowed (dutyOf s ex) c then (s, some ⟨{ ex := ex, slot := 0, row := 0, lent := false, why := 1 }, none⟩)
  else if !serving s ∨ n = 0x3F ∨ 32 ≤ p then (s, none)
  else if slotReady s ex p n c then
    let x := judge s ex p n (slotRow s ex n) false
    (x.1, some x.2)
  else match lendSlot s ex p c with
    | none => (s, none)
    | some (k, next) =>
      let x := judge (updGov s ex p fun g => { g with lend := next }) ex p k (slotRow s ex k) true
      (x.1, some x.2)

/-- What every executor issues in this cycle, and what the engines do with the palette meanwhile. -/
noncomputable def decideAll (s : State) : State × List Todo :=
  let x := (issuers s).foldl (fun (x : State × List Choice) ex =>
    let y := choose x.1 ex
    (y.1, x.2 ++ y.2.toList)) (s, [])
  arbitrate x.1 x.2

/-! ### One issue -/

/-- Why an instruction may not act yet: it waits, or faults, for its channel (R121, R243, R244) or a FENCEX (R228). -/
inductive Gate where
  | open
  | fault (f : FaultRec)
  | waits (why : Nat) (bounded : Bool) (c : Cond)
  deriving DecidableEq, Repr

/-- Instructions that first of all need privilege (R96): without it they fault before they touch a channel. -/
def needsPriv (i : Instr) : Bool :=
  match i with
  | .slotw _ _ => true | .budget _ _ => true | .tlbinv _ _ _ => true | .arm _ _ _ => true | .disarm _ _ => true
  | .switch _ _ _ => true | .jcfgSet _ _ _ => true | .jcfgClear _ _ _ => true | .jcfgPurge _ _ _ => true
  | .jver _ _ _ => true
  | _ => false

/-- What the channel asks (R121, R243, R244). -/
def chanGate (s : State) (r : Nat) (i : Instr) : Gate :=
  if !chanOn s r then .open
  else if (scalarReads i).contains 30 ∧ condTrue s r .chanIn = false then .waits 7 false .chanIn
  else if (scalarWrites i).contains 31 then
    match pushCheck s r with
    | some f => .fault f
    | none => if condTrue s r .chanOut then .open else .waits 7 false .chanOut
  else .open

/-- What an outstanding FENCEX asks (R228); a push to a channel starts an access on path N (R243). -/
def fenceGate (s : State) (r : Nat) (i : Instr) : Gate :=
  match fencexHolds s r ((if chanOn s r && (scalarWrites i).contains 31 then [6] else []) ++ startsPath i) with
  | none => .open
  | some n => .waits 1 true (.fencex n)

/-- Instructions that first of all need the matrix unit (R64, R274). -/
def needsUnit (i : Instr) : Bool :=
  match i with
  | .mrel => true | .mcfg _ _ => true | .mcfgRead _ => true | .mzero _ => true | .mma _ => true | .mst _ => true | .mld _ => true
  | .bsumAcc _ _ _ => true
  | _ => false

/-- The first gate that is not open; a fault that stands before it in the order of R64 is left to the instruction. -/
def gateOf (s : State) (r : Nat) (i : Instr) : Gate :=
  if (needsPriv i ∧ !isPriv s r) ∨ (needsUnit i ∧ !holdsUnit s r ∧ !spilledOwner s r) then .open
  else match chanGate s r i with
    | .open => fenceGate s r i
    | g => g

/-- Charge an issue, note its cycle and count the instruction (R107, R113, R116, R342). -/
def chargeIssue (s : State) (t : Todo) (w : Nat) : State :=
  let s := chargeRow (addCharge s t.ex (partOf s t.row) w) t.row w
  { s with rows := { s.rows with
      lastIssue := tabSet s.rows.lastIssue (t.ex * 32 + t.slot) (enabledCycles s t.ex)
      icount := tabUpd s.rows.icount t.row 0 (· + 1) } }

/-- Count an issue in ISSUED and LENT (R118). -/
def countIssue (s : State) (t : Todo) (p : Nat) : State :=
  updGov s t.ex p fun g =>
    { g with issued := (g.issued + 1) % 2 ^ 64, lent := (g.lent + if t.lent then 1 else 0) % 2 ^ 64 }

/-- What follows the act of an instruction: the counters, the end of the popped word's life, the energy budget (R101, R118). -/
def afterIssue (s0 : State) (t : Todo) (w : Nat) (o : Out) : Out :=
  match o with
  | .next s =>
    let s := countIssue s t (partOf s0 t.row)
    let s := { s with clk := { s.clk with popped := none } }
    .next (budgetStop s t.row (eusedOf s0 t.row) (eusedOf s0 t.row + w))
  | o => o

/-- A long instruction that will write s31 of a channel row binds the row's endpoint when it has gone under way, so that its push finds
one (R242, R243, log 53). -/
def bindEnd (r : Nat) (i : Instr) (o : Out) : Out :=
  match o with
  | .next s =>
    let goes := codeOf s r == 4 && (match tabGet s.rows.waits r with
      | some w => w.bounded
      | none => true)
    .next (if chanOn s r && (scalarWrites i).contains 31 && goes then
      (fun (s : State) => { s with rows := { s.rows with pushDue := setAdd s.rows.pushDue r } }) (updEnd s r fun e => { e with bound := true }) else s)
  | o => o

/-- An instruction whose fetch has succeeded acts (R48, R113, R121, R228). -/
def runInstr (s : State) (t : Todo) (i : Instr) : Out :=
  let s' := acting (chargeIssue s t (weightOf i)) t.row i
  afterIssue s t (weightOf i) (match gateOf s' t.row i with
    | .open => bindEnd t.row i (exec i s')
    | .fault f => .next (faultNow s' t.row f)
    | .waits why bounded c => .next (waitOn s' t.row why bounded c))

/-- Whether a chosen row still stands where it was chosen. -/
def stillThere (s : State) (t : Todo) : Bool :=
  (match tabGet s.rows.slots (t.ex * 32 + t.slot) with
   | some x => x.row == t.row && !x.opening && !x.retained
   | none => false) && codeOf s t.row == 3 && ctxActive s t.row

/-- One chosen issue. -/
noncomputable def issueOne (s : State) (t : Todo) : Out :=
  let s := { s with clk := { s.clk with cur := t.row, popped := none } }
  if t.why ≠ 0 then exec (.issueCycle t.ex t.why) s
  else if !stillThere s t then .next s
  else
    let x := checkBeforeFetch s t.row
    if !x.2 then .next x.1
    else if limitReached x.1 t.row then exec (.instructionLimit t.row) x.1
    else match fetchPlan x.1 t.row with
      | .go i _ =>
        let y := readCode x.1 t.row (getF x.1 t.row fPc) (codeCount x.1 t.row) false
        if y.2 then runInstr y.1 t i else .next y.1
      | .illegal w =>
        let y := readCode x.1 t.row (getF x.1 t.row fPc) (codeCount x.1 t.row) false
        if y.2 then afterIssue y.1 t w (exec .illegalInstruction (chargeIssue y.1 t w)) else .next y.1
      | .walk _ => exec (.fetchFault 0) x.1
      | .page _ _ => exec (.fetchFault 0) x.1
      | .fault f => exec (.fetchFault f.cause) x.1

end Sys2Proof.Machine
end

