-- ==== Sys2Proof/Machine/Cycle.lean ====
section
/-!
DEFINITION. What one step of the machine is made of (R106, R351, R352, R376): an event that is due, the work of a module cycle with
its decisions, one chosen issue, or the next cycle; what still acts in OFF and STILL; and how an instruction is placed for the next
step.
-/
namespace Sys2Proof.Machine

/-- An event of the agenda acts: no row's instruction is under way. -/
def actEvent (s : State) (t : Timed) (rest : List Timed) : Out :=
  exec t.ev { s with agenda := rest, clk := { s.clk with popped := none } }

/-- The executor whose enabled cycles an event waits for (R106, R358, R360): a row takes a reply, what its executor counts comes to its end,
and the units of an executor or a studio act, in such a cycle only. The units of a stack or a hub are not gated. -/
def eventEx (s : State) (i : Instr) : Option Nat :=
  let issuer := fun id => (tabGet s.ms.reqs id).bind fun q => match q.dest with
    | .host _ _ _ => none
    | _ => some q.ex
  let rack := fun (k : Nat) => match rackLevel k with
    | 0 => some (rackUnit k)
    | 1 => some (studioMember (rackUnit k) 0)
    | _ => none
  let lands := fun id => (s.msg.moves.find? fun m => m.id == id).bind fun m => rack m.dst
  match i with
  | .memoryReply id => issuer id
  | .watchAnswer id => issuer id
  | .wetTripReply id _ => issuer id
  | .dryAcknowledgement id => (wetOf s id).map Wet.ex
  | .entryDries id => (wetOf s id).map Wet.ex
  | .walkComplete id => (s.ms.walks.find? fun w => w.id == id).map Walk.ex
  | .potOperation id => (s.eng.pots.find? fun q => q.id == id).map fun q => studioMember (q.pot / 128) 0
  | .copyFinish id => (copyOf s id).map Copy.ex
  | .remoteRackOperation id => (s.msg.rackOps.find? fun o => o.id == id).bind fun o => rack o.rack
  | .continuationRetry id => (s.msg.heldPush.find? fun h => h.id == id).bind fun h => rack h.rack
  | .blockMoveLands id => lands id
  | .shipmentLands id => lands id
  | .channelWordSend r => some (exOf r)
  | .channelWordArrival r => ((endOf s r).bind fun e => e.moving.head?).map fun w => exOf w.1
  | .haloStrip id =>
    (match s.eng.strips.find? fun x => x.id == id with
     | some x => some (if x.back then exOf x.row else addrHome x.dst)
     | none => (s.eng.halos.find? fun h => h.id == id).map fun h => exOf h.row)
  | .longInstructionComplete r => some (exOf r)
  | .rowOpen ex _ => some ex
  | .mmaStep ex => some ex
  | .sweepStep r => some (exOf r)
  | .accumulatorRestore r => some (exOf r)
  | .holdExpiry r _ => some (exOf r)
  | .priorityAging r _ => some (exOf r)
  | .commandLands r => some (exOf r)
  | .joinAnswer r _ => some (exOf r)
  | .genStep st => some (studioMember st 0)
  | .gtblOperation st => some (studioMember st 0)
  | _ => none

/-- Whether an event that is due waits for a clock (R360). -/
def waitsClock (s : State) (t : Timed) : Bool :=
  match eventEx s t.ev with
  | none => false
  | some ex => !clockOn s ex || enabledCycles s ex < t.tag.upto

/-- Put such an event off to the earliest cycle in which it can act. -/
def putOff (s : State) (t : Timed) (rest : List Timed) : State :=
  let n := match eventEx s t.ev with
    | none => 0
    | some ex => t.tag.upto - enabledCycles s ex
  { s with agenda := agendaIns rest { t with due := s.clk.now + max 1 n } }

/-- The next module cycle begins; cycles in which a clock stood still are counted (R106, R359, R374), and balancing is decided (R398). -/
def nextCycle (s : State) : State :=
  let idle := regBits s powerAt 3 1 == 1 && s.clk.now % 4 != 0
  let lost := if idle then s.clk.lostStack
    else (s.hub.hops.map Prod.fst).eraseDups.foldl (fun t st => tabUpd t st 0 (· + 1)) s.clk.lostStack
  balanceAll { s with clk := { s.clk with
      now := s.clk.now + 1, todo := none, popped := none, lostAll := s.clk.lostAll + (if idle then 1 else 0), lostStack := lost } }

/-- The work of a cycle that no event and no issue does, and the cycle's decisions (R108). -/
noncomputable def beginCycle (s : State) : State :=
  let x := decideAll (pollCycle s)
  { x.1 with clk := { x.1.clk with todo := some x.2 } }

/-- One step of a powered module. -/
noncomputable def stepOn (s : State) : Out :=
  match s.clk.todo with
  | some (t :: rest) => issueOne { s with clk := { s.clk with todo := some rest } } t
  | some [] => .next (nextCycle s)
  | none =>
    match s.agenda with
    | [] => .next (beginCycle s)
    | t :: rest => if t.due ≤ s.clk.now then (if waitsClock s t then .next (putOff s t rest) else actEvent s t rest) else .next (beginCycle s)

/-- What reaches a module without clocks: a resume order in STILL (R352), and a reset (R387). -/
def wakes (still : Bool) (t : Timed) : Bool :=
  match t.ev with
  | .resumeModule _ => still
  | .reset => true
  | _ => false

/-- One step in STILL (R352, R376): no module cycle passes. The first order of the agenda that a module in STILL obeys acts at its
time; without one, time goes on. -/
def stepStill (s : State) : Out :=
  match takeFirst (wakes true) s.agenda with
  | none => .next { s with hub := { s.hub with gtimeBase := s.hub.gtimeBase + 1 } }
  | some (t, rest) =>
    actEvent { s with hub := { s.hub with gtimeBase := s.hub.gtimeBase + 5 * (t.due - s.clk.now) / 12 } } t rest

/-- One step in OFF (R376): only a reset reaches it; without one the machine stops. -/
def stepOff (s : State) : Out :=
  match takeFirst (wakes false) s.agenda with
  | none => .fault .poweredOff
  | some (t, rest) => actEvent s t rest

/-! ### An instruction placed for the next step -/

/-- The bytes of an instruction whose bits are `w` (R3, R48): as many words as its LEN asks for, the bits above the given ones zero. -/
def codeBytes (nbits w : Nat) : List Byte :=
  bytesOf (lengthBytes (w % 2 ^ nbits % 2 ^ 32)) (w % 2 ^ nbits)

/-- Store an instruction where the next step fetches it: SERVICE; partition 0 owns every slot and bank; row 1 is a thread row RUNNING
in slot 0 of executor 0, chosen to issue, with the code segment [0x800, 0x900) of its own row and PC 8, behind the stepping's hash
(log 11). -/
def placeInstr (s : State) (nbits w : Nat) : State :=
  let s := setRegBits (setRegWord (setRegBits s powerAt 0 3 2) (layoutAt 0) (2 ^ 64 - 1)) (supAt 0) 0 3 0
  let mem := memClear s.mem 0x1000 0x100
  let mem := memSetNat mem 0x1008 8 3
  let mem := memSetNat mem 0x1010 8 8
  let mem := memSetNat mem 0x1080 8 (0x800 + 2 ^ 53)
  let mem := memSetNat mem 0x1088 8 0x100
  let mem := memSetNat mem 0x1800 8 Config.encodingHash.toNat
  let mem := memWrite mem 0x1808 (codeBytes nbits w)
  { s with
    mem := mem
    rows := { s.rows with
      kinds := setAdd s.rows.kinds 1
      recheck := setDel s.rows.recheck 1
      slots := tabSet (s.rows.slots.filter fun e => e.2.row != 1) 0 { row := 1 } }
    ms := { s.ms with fencex := s.ms.fencex.filter fun f => f.row != 1 }
    hub := { s.hub with suspended := s.hub.suspended.filter fun x => x.1 != 0 }
    clk := { s.clk with todo := some [{ ex := 0, slot := 0, row := 1, lent := false, why := 0 }] } }

end Sys2Proof.Machine
end

