-- ==== Sys2Proof/Machine/Step.lean ====
section
/-!
DEFINITION. One step of the machine. Events of one cycle act before its issues; the issues of a cycle act one after another, in
the order of the executors (log 9).
-/
namespace Sys2Proof.Machine

/-- One step. -/
noncomputable def step (s : State) : Host.Outcome State Fault Refusal :=
  if pstate s = 0 then stepOff s
  else if pstate s = 5 then stepStill s
  else stepOn s

/-- `s` with the instruction of bits `w` stored where the next step fetches. -/
def State.withFetchWord (s : State) (nbits w : Nat) : State := placeInstr s nbits w

end Sys2Proof.Machine
end

