-- ==== Sys2Proof/Safety.lean ====
section
/-!
DEFINITION. The terms of the statements: the invariant of every state, a calm row, and what an instruction writes and leaves.
-/
namespace Sys2Proof.Machine

/-- The invariant of every state: memory in canonical form (addresses strictly rising, no listed byte zero). -/
def State.Inv (s : State) : Prop := Memory.wf s.mem = true

/-! ### What stands -/

/-- Nothing outside memory and the metadata of its lines (R388) has changed. -/
def OnlyMem (s u : State) : Prop := { u with mem := s.mem, lines := s.lines } = s

/-- Nothing outside memory, the metadata of its lines and the code that rows have kept (R51) has changed. -/
def OnlyMemCode (s u : State) : Prop :=
  { u with mem := s.mem, lines := s.lines, rows := { u.rows with oldCode := s.rows.oldCode } } = s

/-- The lines of `n` bytes at offset `off` of row `r` name the row's partition and context as their last writer, a line written whole is
neither poisoned nor in error, and no other line's metadata has changed (R388). -/
def Stamped (s u : State) (r off n : Nat) : Prop := u.lines = s.lines.stamp (rowDpa r + off) n (partOf s r) (ctxOf s r)

/-- Every byte outside `a .. a+n-1` reads as before. -/
def BytesKept (s u : State) (a n : Nat) : Prop := ∀ x, x < a ∨ a + n ≤ x → memByte u.mem x = memByte s.mem x

/-- Every byte outside two ranges reads as before. -/
def BytesKept2 (s u : State) (a n b m : Nat) : Prop :=
  ∀ x, (x < a ∨ a + n ≤ x) → (x < b ∨ b + m ≤ x) → memByte u.mem x = memByte s.mem x

/-! ### What an instruction writes (R120, R121, R148, R149) -/

/-- The word of a push stands in the output FIFO with the row it goes to, and in s31's own word, which later reads of s31 give (R120, R121,
R242); no other byte, and nothing outside memory, the metadata of its lines, the messages, the agenda and the clock's counters, has changed. -/
def Pushed (s u : State) (r : Nat) (v : Word) : Prop :=
  (endOf u r).map Endpoint.out = some (((endOf s r).map Endpoint.out).getD [] ++ [(getF s r fDown, v)]) ∧
  rawS u r 31 = v ∧ { u with mem := s.mem, lines := s.lines, msg := s.msg, agenda := s.agenda, clk := s.clk } = s ∧
  BytesKept s u (rowDpa r + 0x1F8) 8 ∧ Stamped s u r 0x1F8 8

/-- `u` is `s` with scalar register `d` of row `r` written (R120, R121): s0 discards; with MISC.CHAN set s30 discards and s31
pushes; any other register takes the value and no other byte and no other part of the state changes. -/
def WritesS (s u : State) (r d : Nat) (v : Word) : Prop :=
  if d = 0 ∨ (d = 30 ∧ chanOn s r = true) then u = s
  else if d = 31 ∧ chanOn s r = true then Pushed s u r v
  else rawS u r d = v ∧ OnlyMem s u ∧ BytesKept s u (rowDpa r + (0x100 + 8 * d)) 8 ∧ Stamped s u r (0x100 + 8 * d) 8

/-- The flags `fl` are ORed into MISC.FLAGS; no other bit of the row and no other part of the state changes (R28). -/
def RaisesFlags (s u : State) (r fl : Nat) : Prop :=
  getF u r fFlags = (getF s r fFlags ||| fl) ∧
  (∀ g : Fld, Fld.off g = 0x70 → g.lo + g.len ≤ 32 ∨ (37 ≤ g.lo ∧ g.lo + g.len ≤ 64) → getF u r g = getF s r g) ∧
  OnlyMem s u ∧ BytesKept s u (rowDpa r + 0x70) 8 ∧ u.lines = s.lines

/-- `u` is `s` with vector register `d` of row `r` holding `v` and nothing else changed. -/
def WritesV (s u : State) (r d v : Nat) : Prop :=
  getV u r d = v ∧ OnlyMem s u ∧ BytesKept s u (rowDpa r + (0x200 + 64 * d)) 64 ∧ Stamped s u r (0x200 + 64 * d) 64

/-- `u` is `s` with mask register `d` of row `r` holding `v` and nothing else changed; k0 discards (R149). -/
def WritesK (s u : State) (r d v : Nat) : Prop :=
  if d = 0 then u = s else getK u r d = v ∧ OnlyMem s u ∧ BytesKept s u (rowDpa r + (0x600 + 8 * d)) 8 ∧ Stamped s u r (0x600 + 8 * d) 8

/-! ### Completion -/

/-- Instruction `i`, `len` bytes long, has the effect `act` on the acting row and commits: PC and loops are resolved and the row
meets its boundary (R48, R88, R145). -/
def Completes (i : Instr) (s : State) (len : Nat) (act : State → State → Prop) : Prop :=
  ∃ u, exec i s = .next (finish u s.clk.cur len) ∧ act s u

/-- `i` writes `v` to scalar register `d` and commits. -/
def Gives (i : Instr) (s : State) (d : Reg) (v : Word) (len : Nat) : Prop :=
  Completes i s len fun s u => WritesS s u s.clk.cur d.toNat v

/-- `i` raises the flags of `x`, writes its value to scalar register `d` and commits (R152). -/
def GivesF (i : Instr) (s : State) (d : Reg) (x : Nat × Flags) (len : Nat) : Prop :=
  Completes i s len fun s u => ∃ m, RaisesFlags s m s.clk.cur (flagsToNat x.2) ∧ WritesS m u s.clk.cur d.toNat (BitVec.ofNat 64 x.1)

/-- The flags that the active lanes of `f` raise together (R149). -/
def laneFlags (w k : Nat) (f : Nat → Nat × Flags) : Flags :=
  (List.range (laneCount w)).foldl (fun x j => if bitAt k j then flagsOr x (f j).2 else x) flagsNone

/-- `i` writes vector register `d` lane by lane (R149): an active lane takes `f`, an inactive one is kept or, with `z`, zeroed; the
active lanes' flags are raised; then it commits. -/
def GivesV (i : Instr) (s : State) (d : VReg) (w k : Nat) (z : Bool) (f : Nat → Nat × Flags) (len : Nat) : Prop :=
  Completes i s len fun s u => ∃ m v, WritesV s m s.clk.cur d.toNat v ∧
    (∀ j < laneCount w, elemAt w v j =
      if bitAt k j then (f j).1 % 2 ^ w else if z then 0 else elemAt w (getV s s.clk.cur d.toNat) j) ∧
    RaisesFlags m u s.clk.cur (flagsToNat (laneFlags w k f))

/-- `i` is long: the acting row waits with cause `why` (R110), and its completion, `d` cycles from now, will write `c` and commit
`len` bytes. No byte outside the row's STATE word changes. -/
def GoesLong (i : Instr) (s : State) (why len d : Nat) (c : Completion) : Prop :=
  ∃ t, exec i s = .next t ∧
    getF t s.clk.cur fWhy = why ∧ tabGet t.rows.longs s.clk.cur = some c ∧ tabGet t.rows.lens s.clk.cur = some len ∧
    (∃ e ∈ t.agenda, e.due = s.clk.now + d ∧ e.ev = .longInstructionComplete s.clk.cur) ∧
    getF t s.clk.cur fCode = 4 ∧ BytesKept s t (rowDpa s.clk.cur + 0x08) 8 ∧ t.regs = s.regs

/-- `i` faults: the row takes the fault `f` (R334, R335). -/
def Traps (i : Instr) (s : State) (f : FaultRec) : Prop :=
  exec i s = .next (takeFault s s.clk.cur f (majorAt s s.clk.cur))

/-- A row that stands at a boundary at which nothing is due (R84, R88, R336, R341, R347): open, with no command pending, no STEP, no
region block, in the active context, both loop levels disarmed, no pop to commit and no watchdog that has fired. -/
def Calm (s : State) (r : Nat) : Prop :=
  isOpen s r = true ∧ s.rows.stepping.contains r = false ∧ getF s r fPend = 0 ∧ getF s r fRegion = 0 ∧
  ctxActive s r = true ∧ getF s r (fLoopArmed 0) = 0 ∧ getF s r (fLoopArmed 1) = 0 ∧ s.clk.popped = none ∧ s.rows.fired.contains r = false

/-! ### Loops (R145) -/

/-- One loop level after a commit, and the PC and the kind of commit that the next level sees. -/
structure LoopOut where
  armed : Nat
  count : Nat
  pc : Int
  transfer : Bool
  deriving DecidableEq, Repr

/-- The rule of R145 for one level: `skip` when the instruction is a LOOP or LOOPX of this level. The start and the next PC are exact (R77). -/
def loopRule (armed end_ span count : Nat) (skip : Bool) (n : Int) (transfer : Bool) : LoopOut :=
  let st : Int := (end_ : Int) - 4 * (span : Int)
  if armed = 0 ∨ skip then ⟨armed, count, n, transfer⟩
  else if transfer then ⟨if n < st ∨ end_ ≤ n then 0 else armed, count, n, true⟩
  else if n = end_ then (if 1 < count then ⟨armed, count - 1, st, true⟩ else ⟨0, 0, n, false⟩)
  else ⟨if n < st ∨ end_ < n then 0 else armed, count, n, false⟩

/-! ### Accesses of the own row, accesses that leave, and waits -/

/-- An access of the acting row of `n` bytes at offset `o` of own-row segment `g` meets none of the conditions of R183, R315, R363 and
R389 that would stop it: the segment is well formed and grants the right, the offset lies within limit and row, the address is aligned
to `al`, the partition reaches the row, no reserved area, no join table area, no poison; nor does a store meet the header of a live
episode's record (R316). -/
def OwnSpan (s : State) (g : Seg) (o : Int) (n al : Nat) (wr : Bool) : Prop :=
  g.kind = 0 ∧ g.bad = false ∧ (if wr then g.canW else g.canR) = true ∧ 0 ≤ o ∧ o + n ≤ g.limit ∧
  (g.base + o) % al = 0 ∧ g.base + o.toNat + n ≤ 0x1000 ∧
  dpaChecks s (partOf s s.clk.cur) (isPriv s s.clk.cur) wr (rowDpa s.clk.cur + (g.base + o.toNat)) = none ∧
  (wr = true ∨ poisonedLine s (rowDpa s.clk.cur + (g.base + o.toNat)) n = none) ∧
  (wr = false ∨ inHeader s (rowDpa s.clk.cur + (g.base + o.toNat)) n = false)

/-- Where `OwnSpan` reaches. -/
def ownAddr (s : State) (g : Seg) (o : Int) : Nat := rowDpa s.clk.cur + (g.base + o.toNat)

/-- `i` leaves rotation (R110): the acting row waits with cause `why`, `len` bytes stand to be committed, no byte outside the row's
STATE word changes, and `P` holds of the state. -/
def Leaves (i : Instr) (s : State) (why len : Nat) (P : State → Prop) : Prop :=
  ∃ t, exec i s = .next t ∧ getF t s.clk.cur fCode = 4 ∧ getF t s.clk.cur fWhy = why ∧ tabGet t.rows.lens s.clk.cur = some len ∧
    BytesKept s t (rowDpa s.clk.cur + 0x08) 8 ∧ P t

/-- A direct access of the acting row stands recorded under the name `id` with its act, its destination and its one address, and the
message that carries it is on its way, no sooner than the unloaded time to its home (R185, R396). -/
def Asked (s t : State) (id : Nat) (op : DirectOp) (dest : Dest) (wait : Bool) (a : Nat) : Prop :=
  (∃ q, tabGet t.ms.reqs id = some q ∧ q.row = s.clk.cur ∧ q.op = op ∧ q.dest = dest ∧ q.wait = wait ∧
    q.elems.map Elem.addr = [a]) ∧
  ∃ e ∈ t.agenda, e.ev = .directAccess id 0 ∧ s.clk.now + oneWay (exOf s.clk.cur) a ≤ e.due

/-- The region block that a row names does not lie in the row itself. -/
def BlockApart (s : State) (r : Nat) : Prop :=
  getF s r fRegion = 0 ∨ blockOf s r + 128 ≤ rowDpa r ∨ rowDpa r + 0x1000 ≤ blockOf s r

/-! ### Commands (R84, R85) -/

/-- The outcome that the table of R84 gives command `cmd` on a row in state `c`: 0 DONE, 1 NOCHANGE, 2 REFUSED. -/
def cmdOutcome (cmd c : Nat) : Nat :=
  match cmd, c with
  | 1, 1 => 0 | 1, 2 => 1 | 1, 3 => 1 | 1, 4 => 1 | 1, 5 => 1
  | 2, 6 => 1 | 2, 7 => 1 | 2, 8 => 2 | 2, _ => 0
  | 3, 8 => 2 | 3, _ => 0
  | 4, 1 => 2 | 4, 6 => 0 | 4, 7 => 0 | 4, 8 => 2 | 4, _ => 1
  | 5, 8 => 1 | 5, _ => 0
  | 6, 6 => 0 | 6, 7 => 0
  | 7, 1 => 0 | 7, 5 => 0 | 7, 8 => 2 | 7, _ => 1
  | 8, 8 => 2 | 8, _ => 0
  | _, _ => 2

/-- The states that the table of R84 gives a row in state `c` other than RUNNING and WAITING after command `cmd`: READY is 2, STOPPED 7,
RETIRED 8; a command that checks the encoding hash may freeze the row, 6 (R68). -/
def cmdState (cmd c : Nat) : List Nat :=
  match cmd, c with
  | 1, 1 => [2, 6] | 7, 1 => [2, 6] | 7, 5 => [2]
  | 2, 1 => [7] | 2, 2 => [7] | 2, 5 => [7]
  | 3, 8 => [8] | 3, _ => [2, 6]
  | 4, 6 => [2, 6] | 4, 7 => [2, 6]
  | 6, 6 => [2, 6] | 6, 7 => [2, 6]
  | 5, _ => [8]
  | _, c => [c]

/-- `i` answers a next state of which `P` holds. -/
def Yields (i : Instr) (s : State) (P : State → Prop) : Prop := ∃ t, exec i s = .next t ∧ P t

/-- Four scalar registers from `d` on are written in turn (R241, R251). -/
def WritesS4 (s u : State) (r d : Nat) (w : Nat → Word) : Prop :=
  ∃ a b c, WritesS s a r d (w 0) ∧ WritesS a b r (d + 1) (w 1) ∧ WritesS b c r (d + 2) (w 2) ∧ WritesS c u r (d + 3) (w 3)

/-- An event is to act no sooner than cycle `c`. -/
def Due (t : State) (ev : Instr) (c : Nat) : Prop := ∃ e ∈ t.agenda, e.ev = ev ∧ c ≤ e.due

/-- Row `r` waits with cause `why`, and `len` bytes stand to be committed when its instruction ends (R110). -/
def Out_ (t : State) (r why len : Nat) : Prop :=
  getF t r fCode = 4 ∧ getF t r fWhy = why ∧ tabGet t.rows.lens r = some len

/-- Register word `a` is the only one that may differ. -/
def OnlyReg (s t : State) (a : Nat) : Prop := { t with regs := s.regs } = s ∧ ∀ b, b ≠ a → regWord t b = regWord s b

end Sys2Proof.Machine
end

