-- ==== Sys2Proof/Certificates/Slice0/Obligations.lean ====
section
/-!
DEFINITION. The statements about the Paluk: what its instructions, its events and its steps do, rule by rule. The terms are those of
Safety.lean; a statement that rests on a choice of the model says so and names its log entry.
-/

open Sys2Proof Sys2Proof.Machine

/-! ### Integer instructions (R120 to R139) -/

/-- R125: ADD, SUB and MUL compute on the operands read at the type's width and signedness and keep the low N bits; with `.sat` the
exact value is clamped to the type's range. Register and literal forms. -/
def Claim.IntegerArithmetic : Prop :=
  ∀ (s : State) (t : IType) (d a b : Reg) (l : Word),
    let n := itypeWidth t
    let x := readN n (itypeSigned t) (src s a)
    let y := readN n (itypeSigned t) (src s b)
    let z := readN n (itypeSigned t) l.toNat
    let sat := fun i => putT t (lowBits n (clampInt (intMin (itypeSigned t) n) (intMax (itypeSigned t) n) i))
    Gives (.add ⟨t, d, a, b⟩) s d (putT t (lowBits n (x + y))) 4 ∧ Gives (.addSl ⟨t, d, a, l⟩) s d (putT t (lowBits n (x + z))) 12 ∧
    Gives (.sub ⟨t, d, a, b⟩) s d (putT t (lowBits n (x - y))) 4 ∧ Gives (.subSl ⟨t, d, a, l⟩) s d (putT t (lowBits n (x - z))) 12 ∧
    Gives (.mul ⟨t, d, a, b⟩) s d (putT t (lowBits n (x * y))) 4 ∧ Gives (.mulSl ⟨t, d, a, l⟩) s d (putT t (lowBits n (x * z))) 12 ∧
    Gives (.addSat ⟨t, d, a, b⟩) s d (sat (x + y)) 4 ∧ Gives (.addSatSl ⟨t, d, a, l⟩) s d (sat (x + z)) 12 ∧
    Gives (.subSat ⟨t, d, a, b⟩) s d (sat (x - y)) 4 ∧ Gives (.subSatSl ⟨t, d, a, l⟩) s d (sat (x - z)) 12 ∧
    Gives (.mulSat ⟨t, d, a, b⟩) s d (sat (x * y)) 4 ∧ Gives (.mulSatSl ⟨t, d, a, l⟩) s d (sat (x * z)) 12

/-- R126, R128: MULH and MULHN give the high half of the exact product, signed and unsigned; AND, ANDN, OR and XOR act bit by bit.
Register and literal forms, at every width. -/
def Claim.HighProductsAndLogic : Prop :=
  ∀ (s : State) (t : IType) (d a b : Reg) (l : Word),
    let n := itypeWidth t
    let x := src s a
    let y := src s b
    let hi := fun (sgn : Bool) (u v : Nat) => putT t (lowBits n (readN n sgn u * readN n sgn v / (2 ^ n : Nat)))
    let inv := fun (v : Nat) => 2 ^ n - 1 - v % 2 ^ n
    Gives (.mulh ⟨t, d, a, b⟩) s d (hi true x y) 4 ∧ Gives (.mulhSl ⟨t, d, a, l⟩) s d (hi true x l.toNat) 12 ∧
    Gives (.mulhn ⟨t, d, a, b⟩) s d (hi false x y) 4 ∧ Gives (.mulhnSl ⟨t, d, a, l⟩) s d (hi false x l.toNat) 12 ∧
    Gives (.and ⟨t, d, a, b⟩) s d (putT t (x &&& y)) 4 ∧ Gives (.andSl ⟨t, d, a, l⟩) s d (putT t (x &&& l.toNat)) 12 ∧
    Gives (.andn ⟨t, d, a, b⟩) s d (putT t (x &&& inv y)) 4 ∧ Gives (.andnSl ⟨t, d, a, l⟩) s d (putT t (x &&& inv l.toNat)) 12 ∧
    Gives (.or ⟨t, d, a, b⟩) s d (putT t (x ||| y)) 4 ∧ Gives (.orSl ⟨t, d, a, l⟩) s d (putT t (x ||| l.toNat)) 12 ∧
    Gives (.xor ⟨t, d, a, b⟩) s d (putT t (x ^^^ y)) 4 ∧ Gives (.xorSl ⟨t, d, a, l⟩) s d (putT t (x ^^^ l.toNat)) 12

/-- R130, R131: shifts by the low six bits of the amount; a left shift drops what leaves the N bits, SHR brings in zeros, SRA the
sign, rotations turn the N bits by the amount modulo N. The immediate forms act on 64 bits. -/
def Claim.Shifts : Prop :=
  ∀ (s : State) (t : IType) (d a b : Reg) (l : Word) (k : BitVec 6),
    let n := itypeWidth t
    let x := src s a
    let y := src s b % 64
    let z := l.toNat % 64
    let low := x % 2 ^ n
    let left := fun (n v k : Nat) => ((v % 2 ^ n) <<< (k % n) ||| (v % 2 ^ n) >>> (n - k % n)) % 2 ^ n
    let right := fun (n v k : Nat) => ((v % 2 ^ n) >>> (k % n) ||| (v % 2 ^ n) <<< (n - k % n)) % 2 ^ n
    Gives (.shl ⟨t, d, a, b⟩) s d (putT t (x * 2 ^ y)) 4 ∧ Gives (.shlSl ⟨t, d, a, l⟩) s d (putT t (x * 2 ^ z)) 12 ∧
    Gives (.shr ⟨t, d, a, b⟩) s d (putT t (low / 2 ^ y)) 4 ∧ Gives (.shrSl ⟨t, d, a, l⟩) s d (putT t (low / 2 ^ z)) 12 ∧
    Gives (.sra ⟨t, d, a, b⟩) s d (putT t (lowBits n (signedOf n x / (2 ^ y : Nat)))) 4 ∧
    Gives (.sraSl ⟨t, d, a, l⟩) s d (putT t (lowBits n (signedOf n x / (2 ^ z : Nat)))) 12 ∧
    Gives (.rotl ⟨t, d, a, b⟩) s d (putT t (left n x y)) 4 ∧ Gives (.rotlSl ⟨t, d, a, l⟩) s d (putT t (left n x z)) 12 ∧
    Gives (.rotr ⟨t, d, a, b⟩) s d (putT t (right n x y)) 4 ∧ Gives (.rotrSl ⟨t, d, a, l⟩) s d (putT t (right n x z)) 12 ∧
    Gives (.shlImm ⟨d, a, k⟩) s d (BitVec.ofNat 64 (x * 2 ^ k.toNat)) 4 ∧
    Gives (.shrImm ⟨d, a, k⟩) s d (BitVec.ofNat 64 (x / 2 ^ k.toNat)) 4 ∧
    Gives (.sraImm ⟨d, a, k⟩) s d (BitVec.ofInt 64 ((BitVec.ofNat 64 x).toInt / (2 ^ k.toNat : Nat))) 4 ∧
    Gives (.rotlImm ⟨d, a, k⟩) s d (BitVec.ofNat 64 (left 64 x k.toNat)) 4 ∧
    Gives (.rotrImm ⟨d, a, k⟩) s d (BitVec.ofNat 64 (right 64 x k.toNat)) 4

/-- R135, R136: MIN and MAX pick the smaller and the larger operand, the comparisons write 1 or 0; the N forms compare unsigned, the
others signed, on the low N bits. Register and literal forms. -/
def Claim.MinMaxAndCompares : Prop :=
  ∀ (s : State) (t : IType) (d a b : Reg) (l : Word),
    let n := itypeWidth t
    let x := src s a
    let y := src s b
    let z := l.toNat
    let lt := fun (sgn : Bool) (u v : Nat) => decide (readN n sgn u < readN n sgn v)
    let le := fun (sgn : Bool) (u v : Nat) => decide (readN n sgn u ≤ readN n sgn v)
    let pick := fun (c : Bool) (u v : Nat) => putT t (if c then u else v)
    let truth := fun (c : Bool) => putT t (if c then 1 else 0)
    Gives (.min ⟨t, d, a, b⟩) s d (pick (lt true y x) y x) 4 ∧ Gives (.minSl ⟨t, d, a, l⟩) s d (pick (lt true z x) z x) 12 ∧
    Gives (.max ⟨t, d, a, b⟩) s d (pick (lt true x y) y x) 4 ∧ Gives (.maxSl ⟨t, d, a, l⟩) s d (pick (lt true x z) z x) 12 ∧
    Gives (.minn ⟨t, d, a, b⟩) s d (pick (lt false y x) y x) 4 ∧ Gives (.minnSl ⟨t, d, a, l⟩) s d (pick (lt false z x) z x) 12 ∧
    Gives (.maxn ⟨t, d, a, b⟩) s d (pick (lt false x y) y x) 4 ∧ Gives (.maxnSl ⟨t, d, a, l⟩) s d (pick (lt false x z) z x) 12 ∧
    Gives (.ceq ⟨t, d, a, b⟩) s d (truth (x % 2 ^ n == y % 2 ^ n)) 4 ∧ Gives (.ceqSl ⟨t, d, a, l⟩) s d (truth (x % 2 ^ n == z % 2 ^ n)) 12 ∧
    Gives (.cne ⟨t, d, a, b⟩) s d (truth (x % 2 ^ n != y % 2 ^ n)) 4 ∧ Gives (.cneSl ⟨t, d, a, l⟩) s d (truth (x % 2 ^ n != z % 2 ^ n)) 12 ∧
    Gives (.clt ⟨t, d, a, b⟩) s d (truth (lt true x y)) 4 ∧ Gives (.cltSl ⟨t, d, a, l⟩) s d (truth (lt true x z)) 12 ∧
    Gives (.cle ⟨t, d, a, b⟩) s d (truth (le true x y)) 4 ∧ Gives (.cleSl ⟨t, d, a, l⟩) s d (truth (le true x z)) 12 ∧
    Gives (.cltn ⟨t, d, a, b⟩) s d (truth (lt false x y)) 4 ∧ Gives (.cltnSl ⟨t, d, a, l⟩) s d (truth (lt false x z)) 12 ∧
    Gives (.clen ⟨t, d, a, b⟩) s d (truth (le false x y)) 4 ∧ Gives (.clenSl ⟨t, d, a, l⟩) s d (truth (le false x z)) 12

/-- R129, R132 to R134, R137: bit counts on the low N bits, bit reversal, bit fields, funnel shifts of the pair S[a]:S[b], LUT3 and
SEL. EXT sign-extends its field, EXTN zero-extends it, INS replaces it in S[d]. -/
def Claim.BitOperations : Prop :=
  ∀ (s : State) (t : IType) (d a b c : Reg) (k : BitVec 6) (f : FieldI) (tab : BitVec 8),
    let n := itypeWidth t
    let x := src s a
    let pair := x * 2 ^ 64 + src s b
    let len := f.len1.toNat + 1
    Gives (.clz ⟨t, d, a⟩) s d (putT t (leadingZeros (x % 2 ^ n) n)) 4 ∧
    Gives (.ctz ⟨t, d, a⟩) s d (putT t (lowestFrom (x % 2 ^ n) n 0)) 4 ∧
    Gives (.popc ⟨t, d, a⟩) s d (putT t (popCount n x)) 4 ∧ Gives (.brev ⟨t, d, a⟩) s d (putT t (reverseBits n x)) 4 ∧
    Gives (.ext f) s f.d (sx64 len (bitsAt (src s f.a) f.pos.toNat len)) 4 ∧
    Gives (.extn f) s f.d (BitVec.ofNat 64 (bitsAt (src s f.a) f.pos.toNat len)) 4 ∧
    Gives (.ins f) s f.d (BitVec.ofNat 64 (setBits (src s f.d) f.pos.toNat len (src s f.a))) 4 ∧
    Gives (.fshl ⟨d, a, b, k⟩) s d (BitVec.ofNat 64 (pair / 2 ^ (64 - k.toNat))) 4 ∧
    Gives (.fshr ⟨d, a, b, k⟩) s d (BitVec.ofNat 64 (pair / 2 ^ k.toNat)) 4 ∧
    Gives (.fshlReg ⟨d, a, b, c⟩) s d (BitVec.ofNat 64 (pair / 2 ^ (64 - src s c % 64))) 12 ∧
    Gives (.fshrReg ⟨d, a, b, c⟩) s d (BitVec.ofNat 64 (pair / 2 ^ (src s c % 64))) 12 ∧
    (∃ v : Word, Gives (.lut3 ⟨d, a, b, c, tab⟩) s d v 12 ∧ ∀ i < 64,
      v.getLsbD i = bitAt tab.toNat (4 * flag01 (bitAt x i) + 2 * flag01 (bitAt (src s b) i) + flag01 (bitAt (src s c) i))) ∧
    Gives (.sel ⟨d, a, b, c⟩) s d (if src s c ≠ 0 then BitVec.ofNat 64 x else BitVec.ofNat 64 (src s b)) 12

/-- R53, R57, R138, R139: constants and the immediate forms. Short immediates are sign-extended; LA adds to PC modulo 2^40. -/
def Claim.ConstantsAndImmediates : Prop :=
  ∀ (s : State) (d a : Reg) (m : BitVec 12) (l : Word),
    let x := getS s s.clk.cur a.toNat
    let pc := getF s s.clk.cur fPc
    Gives (.li d m) s d (m.signExtend 64) 4 ∧ Gives (.liSl d l) s d l 12 ∧
    Gives (.la d m) s d (BitVec.ofNat 64 ((pc + (m.signExtend 64).toNat) % 2 ^ 40)) 4 ∧
    Gives (.laSl d l) s d (BitVec.ofNat 64 ((pc + l.toNat) % 2 ^ 40)) 12 ∧
    Gives (.addi ⟨d, a, m⟩) s d (x + m.signExtend 64) 4 ∧ Gives (.addiSl ⟨d, a, l⟩) s d (x + l) 12 ∧
    Gives (.andi ⟨d, a, m⟩) s d (x &&& m.signExtend 64) 4 ∧ Gives (.andiSl ⟨d, a, l⟩) s d (x &&& l) 12 ∧
    Gives (.ori ⟨d, a, m⟩) s d (x ||| m.signExtend 64) 4 ∧ Gives (.oriSl ⟨d, a, l⟩) s d (x ||| l) 12 ∧
    Gives (.xori ⟨d, a, m⟩) s d (x ^^^ m.signExtend 64) 4 ∧ Gives (.xoriSl ⟨d, a, l⟩) s d (x ^^^ l) 12

/-- R127: a divide leaves rotation with WHY 2 for 16 cycles, 24 at 64 bits, and then writes the quotient truncated toward zero or
the remainder; division by zero gives all ones and the dividend. Register and literal forms. -/
def Claim.Divides : Prop :=
  ∀ (s : State) (t : IType) (d a b : Reg) (l : Word),
    let n := itypeWidth t
    let x := src s a
    let time := if n = 64 then 24 else 16
    let quo := fun (sgn : Bool) (v : Nat) =>
      putT t (if v % 2 ^ n = 0 then 2 ^ n - 1 else lowBits n (Int.tdiv (readN n sgn x) (readN n sgn v)))
    let rem := fun (sgn : Bool) (v : Nat) =>
      putT t (if v % 2 ^ n = 0 then x % 2 ^ n else lowBits n (Int.tmod (readN n sgn x) (readN n sgn v)))
    let w := fun (v : Word) => (⟨[⟨d.toNat, v⟩], 0, none⟩ : Completion)
    GoesLong (.div ⟨t, d, a, b⟩) s 2 4 time (w (quo true (src s b))) ∧ GoesLong (.divSl ⟨t, d, a, l⟩) s 2 12 time (w (quo true l.toNat)) ∧
    GoesLong (.divn ⟨t, d, a, b⟩) s 2 4 time (w (quo false (src s b))) ∧ GoesLong (.divnSl ⟨t, d, a, l⟩) s 2 12 time (w (quo false l.toNat)) ∧
    GoesLong (.rem ⟨t, d, a, b⟩) s 2 4 time (w (rem true (src s b))) ∧ GoesLong (.remSl ⟨t, d, a, l⟩) s 2 12 time (w (rem true l.toNat)) ∧
    GoesLong (.remn ⟨t, d, a, b⟩) s 2 4 time (w (rem false (src s b))) ∧ GoesLong (.remnSl ⟨t, d, a, l⟩) s 2 12 time (w (rem false l.toNat))

/-! ### Commit, loops and transfers of control (R48, R140 to R147) -/

/-- R48, R51, R88, R145, for a row at rest: committing writes PC and nothing else. Every other bit of the row, every other byte and the
rest of the state stay, but for the old code that a row lets go of at a taken transfer which is no LOOP (R51). -/
def Claim.CommitWritesPc : Prop :=
  ∀ (s : State) (r n : Nat) (t : Bool) (k : Option Nat), Calm s r →
    let u := finishAt s r n t k
    getF u r fPc = n % 2 ^ 40 ∧ OnlyMemCode s u ∧
    (tabGet u.rows.oldCode r = if t ∧ k = none then (tabGet s.rows.oldCode r).map fun _ => [] else tabGet s.rows.oldCode r) ∧ BytesKept s u (rowDpa r + 0x10) 8 ∧
    bitsAt (rowNat u r 0x10 8) 40 24 = bitsAt (rowNat s r 0x10 8) 40 24

/-- R145: both loop levels are resolved in the order 1, 0 by the rule of the spec's pseudo-code (`loopRule`), then PC is written. -/
def Claim.LoopLevelsResolve : Prop :=
  ∀ (s : State) (r n : Nat) (transfer : Bool) (skip : Option Nat),
    let lvl := fun (l : Nat) (n : Int) (tr : Bool) =>
      loopRule (getF s r (fLoopArmed l)) (getF s r (fLoopEnd l)) (getF s r (fLoopSpan l)) (getF s r (fCount l)) (skip == some l) n tr
    let a := lvl 1 n transfer
    let b := lvl 0 a.pc a.transfer
    let u := resolvePc s r n transfer skip
    getF u r fPc = lowBits 40 b.pc ∧
    getF u r (fLoopArmed 1) = a.armed ∧ getF u r (fCount 1) = a.count ∧
    getF u r (fLoopArmed 0) = b.armed ∧ getF u r (fCount 0) = b.count ∧
    OnlyMemCode s u ∧ (tabGet u.rows.oldCode r = if b.transfer ∧ skip = none then (tabGet s.rows.oldCode r).map fun _ => [] else tabGet s.rows.oldCode r) ∧
    BytesKept2 s u (rowDpa r + 0x10) 8 (rowDpa r + 0x28) 24

/-- R140: the branches compare full 64-bit registers; a taken one transfers to PC + 4·off12 modulo 2^40, an untaken one goes on. -/
def Claim.Branches : Prop :=
  ∀ (s : State) (a b : Reg) (off : BitVec 12),
    let r := s.clk.cur
    let x := getS s r a.toNat
    let y := getS s r b.toNat
    let target := (((getF s r fPc : Int) + 4 * off.toInt) % 2 ^ 40).toNat
    let goes := fun (c : Prop) [Decidable c] =>
      (Host.Outcome.next (if c then finishAt s r target true none else finish s r 4) : Host.Outcome State Fault Refusal)
    exec (.beq ⟨a, b, off⟩) s = goes (x = y) ∧ exec (.bne ⟨a, b, off⟩) s = goes (x ≠ y) ∧
    exec (.blt ⟨a, b, off⟩) s = goes (x.toInt < y.toInt) ∧ exec (.bge ⟨a, b, off⟩) s = goes (y.toInt ≤ x.toInt) ∧
    exec (.bltn ⟨a, b, off⟩) s = goes (x.toNat < y.toNat) ∧ exec (.bgen ⟨a, b, off⟩) s = goes (y.toNat ≤ x.toNat) ∧
    exec (.bz ⟨a, off⟩) s = goes (x.toNat = 0) ∧ exec (.bnz ⟨a, off⟩) s = goes (x.toNat ≠ 0)

/-- R141, R147: J and JAL transfer to PC + 4·off22 or to the literal; JAL writes the PC that follows to s29; a literal that is
misaligned or at or above 2^40 faults ILLOP. NOP only goes on. -/
def Claim.Jumps : Prop :=
  ∀ (s : State) (off : BitVec 22) (l : Word),
    let r := s.clk.cur
    let pc := getF s r fPc
    let target := (((pc : Int) + 4 * off.toInt) % 2 ^ 40).toNat
    let good := l.toNat % 4 = 0 ∧ l.toNat < 2 ^ 40
    let link := fun (i : Instr) (len n : Nat) =>
      ∃ u, exec i s = .next (finishAt u r n true none) ∧ WritesS s u r 29 (BitVec.ofNat 64 ((pc + len) % 2 ^ 40))
    exec (.j off) s = .next (finishAt s r target true none) ∧
    (good → exec (.jSl l) s = .next (finishAt s r l.toNat true none)) ∧ (¬ good → Traps (.jSl l) s (instrFault s r 0x01 0)) ∧
    link (.jal off) 4 target ∧ (good → link (.jalSl l) 12 l.toNat) ∧ (¬ good → Traps (.jalSl l) s (instrFault s r 0x01 0)) ∧
    exec .nop s = .next (finish s r 4)

/-- R142: JR computes S[a] + imm exactly (S[a] read unsigned, log 21); outside [0, 2^40) it faults SEG, misaligned it faults ALIGN,
both with FAULTADDR at the target in sg0; otherwise S[d] takes PC + 4 and the row goes to the target. -/
def Claim.JumpsToRegister : Prop :=
  ∀ (s : State) (d a : Reg) (m : BitVec 12),
    let r := s.clk.cur
    let t := (src s a : Int) + m.toInt
    let g := getSeg s r 0
    let f := fun (c d : Nat) => FaultRec.mk c d ((g.base + (t % 2 ^ 40).toNat) % 2 ^ 48) g.kind
    (t < 0 ∨ 2 ^ 40 ≤ t → Traps (.jr ⟨d, a, m⟩) s (f 0x02 0x03)) ∧
    (0 ≤ t → t < 2 ^ 40 → t % 4 ≠ 0 → Traps (.jr ⟨d, a, m⟩) s (f 0x04 0)) ∧
    (0 ≤ t → t < 2 ^ 40 → t % 4 = 0 → ∃ u, exec (.jr ⟨d, a, m⟩) s = .next (finishAt u r t.toNat true none) ∧
      WritesS s u r d.toNat (BitVec.ofNat 64 ((getF s r fPc + 4) % 2 ^ 40)))

/-- R144: LOOP and LOOPX. An empty body goes to END and arms nothing; otherwise END, SPAN and the low 32 bits of the count are
written, and a count of 0 disarms the level and goes to END while any other arms it and goes to the body's start. -/
def Claim.LoopsArm : Prop :=
  ∀ (s : State) (l a : Reg) (imm : BitVec 12) (ic : Bool) (cnt dist : BitVec 16), l.toNat < 2 →
    let r := s.clk.cur
    let pc := getF s r fPc
    let arms := fun (i : Instr) (len off count : Nat) =>
      let e := (pc + 4 * off) % 2 ^ 40
      let c := count % 2 ^ 32
      if off ≤ len / 4 then exec i s = .next (finishAt s r e true (some l.toNat))
      else ∃ u, exec i s = .next (finishAt u r (if c = 0 then e else (pc + len) % 2 ^ 40) true (some l.toNat)) ∧
        getF u r (fLoopEnd l.toNat) = e ∧ getF u r (fLoopSpan l.toNat) = (off - len / 4) % 2 ^ 12 ∧
        getF u r (fCount l.toNat) = c ∧ getF u r (fLoopArmed l.toNat) = (if c = 0 then 0 else 1) ∧
        OnlyMem s u ∧ BytesKept2 s u (rowDpa r + (0x28 + 8 * l.toNat)) 8 (rowDpa r + (0x38 + 4 * l.toNat)) 4
    arms (.loop l a imm) 4 imm.toNat (src s a) ∧
    arms (.loopx ⟨l, a, ic, cnt, dist⟩) 12 dist.toNat (if ic then cnt.toNat else src s a)

/-! ### Scalar floating point (R152 to R159) -/

/-- R152, R153, R158: FADD, FSUB and FMUL round the exact result of the operands' low N bits once by the mode, FMA and FMS round the
exact A·B ± C once; the exact step's flags and the rounding's are raised and S[d] takes the result, zero above N bits. -/
def Claim.FloatArithmetic : Prop :=
  ∀ (s : State) (t : FType) (m : BitVec 3) (d a b c : Reg) (et : BitVec 5),
    let f := layoutOf (ftypeCode t)
    let n := fmtWidth (ftypeCode t)
    let x := decodeFloat f (src s a % 2 ^ n)
    let y := decodeFloat f (src s b % 2 ^ n)
    let g := layoutOf et.toNat
    let w := fmtWidth et.toNat
    let low := fun (q : Reg) => decodeFloat g (src s q % 2 ^ w)
    let p := fvMul (low a) (low b)
    let once := fun (z : FVal × Flags) => roundWith g m.toNat (z.1, flagsOr p.2 z.2)
    GivesF (.fadd ⟨t, m, d, a, b⟩) s d (roundWith f m.toNat (fvAdd m.toNat x y)) 4 ∧
    GivesF (.fsub ⟨t, m, d, a, b⟩) s d (roundWith f m.toNat (fvAdd m.toNat x (fvNeg y))) 4 ∧
    GivesF (.fmul ⟨t, m, d, a, b⟩) s d (roundWith f m.toNat (fvMul x y)) 4 ∧
    GivesF (.fma ⟨d, a, b, c, et, m⟩) s d (once (fvAdd m.toNat p.1 (low c))) 12 ∧
    GivesF (.fms ⟨d, a, b, c, et, m⟩) s d (once (fvAdd m.toNat p.1 (fvNeg (low c)))) 12

/-- R153: FDIV and FSQRT leave rotation with WHY 2 for 16 cycles, 24 for f64; result and flags stand ready for the completion. -/
def Claim.FloatDividesAndRoots : Prop :=
  ∀ (s : State) (t : FType) (m : BitVec 3) (d a b : Reg),
    let f := layoutOf (ftypeCode t)
    let n := fmtWidth (ftypeCode t)
    let x := src s a % 2 ^ n
    let time := if t = .f64 then 24 else 16
    let c := fun (q : Nat × Flags) => (⟨[⟨d.toNat, BitVec.ofNat 64 q.1⟩], flagsToNat q.2, none⟩ : Completion)
    GoesLong (.fdiv ⟨t, m, d, a, b⟩) s 2 4 time (c (fpDiv f m.toNat x (src s b % 2 ^ n))) ∧
    GoesLong (.fsqrt ⟨t, m, d, a⟩) s 2 4 time (c (fpSqrt f m.toNat x))

/-- R154: FMIN and FMAX order −0 below +0; one NaN gives the other operand, two give the canonical NaN; a signalling NaN raises
INVALID and nothing else is raised. -/
def Claim.FloatMinMax : Prop :=
  ∀ (s : State) (t : FType) (d a b : Reg),
    let f := layoutOf (ftypeCode t)
    let n := fmtWidth (ftypeCode t)
    let xb := src s a % 2 ^ n
    let yb := src s b % 2 ^ n
    let nx := fvIsNan (decodeFloat f xb)
    let ny := fvIsNan (decodeFloat f yb)
    let fl : Flags := { invalid := fvIsSnan (decodeFloat f xb) || fvIsSnan (decodeFloat f yb) }
    let rank := fun (v : Nat) => if signBit f v then -((magBits f v : Int) + 1) else (magBits f v : Int)
    let pick := fun (less : Prop) [Decidable less] =>
      if nx ∧ ny then f.nanBits else if nx then yb else if ny then xb else if less then xb else yb
    GivesF (.fmin ⟨t, d, a, b⟩) s d (pick (rank xb < rank yb), fl) 4 ∧
    GivesF (.fmax ⟨t, d, a, b⟩) s d (pick (rank yb ≤ rank xb), fl) 4

/-- R155 to R157: FSGN joins A's magnitude with a sign; the comparisons give 1 or 0 with −0 = +0 and 0 for a NaN, FCEQ raising INVALID
for a signalling NaN, FCLT and FCLE for any; FCLASS sets the one bit of A's class. -/
def Claim.FloatComparesAndClasses : Prop :=
  ∀ (s : State) (t : FType) (op : BitVec 3) (d a b : Reg),
    let f := layoutOf (ftypeCode t)
    let n := fmtWidth (ftypeCode t)
    let xb := src s a % 2 ^ n
    let yb := src s b % 2 ^ n
    let x := decodeFloat f xb
    let y := decodeFloat f yb
    let num := fun (v : Nat) => if signBit f v then -(magBits f v : Int) else (magBits f v : Int)
    let un := fvIsNan x || fvIsNan y
    let sn := fvIsSnan x || fvIsSnan y
    let sign := match op.toNat with
      | 0 => signBit f yb
      | 1 => !signBit f yb
      | _ => signBit f xb != signBit f yb
    let truth := fun (c : Prop) [Decidable c] => if c then 1 else 0
    let top := signBit f xb
    let cls := match x with
      | .nan sg => if sg then 8 else 9
      | .inf _ => if top then 0 else 7
      | .fin _ m _ =>
        if m = 0 then (if top then 3 else 4)
        else if bitsAt xb f.fbits f.ebits = 0 then (if top then 2 else 5)
        else if top then 1 else 6
    GivesF (.fsgn ⟨t, op, d, a, b⟩) s d (magBits f xb + (if sign then 2 ^ (n - 1) else 0), flagsNone) 4 ∧
    GivesF (.fceq ⟨t, d, a, b⟩) s d (truth (un = false ∧ num xb = num yb), { invalid := sn }) 4 ∧
    GivesF (.fclt ⟨t, d, a, b⟩) s d (truth (un = false ∧ num xb < num yb), { invalid := un }) 4 ∧
    GivesF (.fcle ⟨t, d, a, b⟩) s d (truth (un = false ∧ num xb ≤ num yb), { invalid := un }) 4 ∧
    GivesF (.fclass ⟨t, d, a⟩) s d (2 ^ cls, flagsNone) 4

/-- R159: FCVT reads the low N bits of S[a] by the source format and converts the exact value once to the destination; an integer
result is extended by its signedness, any other is zero above its width; only under rm 4 does MISC.SRST take the state that the
conversion reached. For every form the
spec gives (R31, R159). -/
def Claim.FloatConverts : Prop :=
  ∀ (s : State) (d a : Reg) (sf et : BitVec 5) (m : BitVec 3), wellFormed (.fcvt ⟨d, a, sf, et, m⟩) = true →
    let r := s.clk.cur
    let u := if m = 4 then srNext (getF s r fSrst) else 0
    let x := convertVal et.toNat m.toNat u (elemVal sf.toNat (src s a % 2 ^ fmtWidth sf.toNat))
    Completes (.fcvt ⟨d, a, sf, et, m⟩) s 12 fun s t => ∃ p q,
      (if m = 4 then getF p r fSrst = u ∧ OnlyMem s p ∧ BytesKept s p (rowDpa r + 0x70) 4 else p = s) ∧
      RaisesFlags p q r (flagsToNat x.2) ∧
      WritesS q t r d.toNat (if fmtIsInt et.toNat then extendTo (fmtWidth et.toNat) (fmtIsSigned et.toNat) x.1 else BitVec.ofNat 64 x.1)

/-- R27: when an operand is a NaN the sum, the difference, the product and the quotient are the canonical NaN of the format, INVALID is
raised exactly for a signalling operand, and no other flag is raised. -/
def Claim.NanInCanonicalNanOut : Prop :=
  ∀ (f : FloatFmt) (rm a b : Nat), f.nanBits ≠ 0 →
    fvIsNan (decodeFloat f a) = true ∨ fvIsNan (decodeFloat f b) = true →
    let z : Nat × Flags := (f.nanBits, { invalid := fvIsSnan (decodeFloat f a) || fvIsSnan (decodeFloat f b) })
    fpAdd f rm a b = z ∧ fpSub f rm a b = z ∧ fpMul f rm a b = z ∧ fpDiv f rm a b = z

/-! ### Vectors and masks (R148 to R176) -/

/-- R149, R160, R161: VADD, VSUB, VMUL, VMIN and VMAX in X form (B a lane, a broadcast scalar or the immediate) and in literal form.
FP lanes round the exact result once by the mode, integer lanes wrap, or clamp with sat, and compare by their signedness. -/
def Claim.VectorArithmetic : Prop :=
  ∀ (s : State) (o : VBin) (lit : Word),
    let r := s.clk.cur
    let et := o.et.toNat
    let w := fmtWidth et
    let sgn := fmtIsSigned et
    let k := getK s r o.k.toNat
    let A := fun (j : Nat) => elemAt w (getV s r o.a.toNat) j
    let B := fun (j : Nat) =>
      if o.sub = 0 then elemAt w (getV s r (o.b.toNat % 16)) j
      else if o.sub = 1 then src s o.b % 2 ^ w else (o.imm.signExtend 64).toNat % 2 ^ w
    let p : VBinL := ⟨o.d, o.a, o.k, o.z, o.et, o.rm, o.sat, lit⟩
    let both := fun (x xl : Instr) (f : Nat → Nat → Nat × Flags) =>
      GivesV x s o.d w k o.z (fun j => f (A j) (B j)) 12 ∧ GivesV xl s o.d w k o.z (fun j => f (A j) (lit.toNat % 2 ^ w)) 20
    let lane := fun (fp : FloatFmt → Nat → Nat → Nat × Flags) (int : Int → Int → Int) (a b : Nat) =>
      match floatFmt et with
      | some f => fp f a b
      | none =>
        let i := int (readN w sgn a) (readN w sgn b)
        (lowBits w (if o.sat then clampInt (intMin sgn w) (intMax sgn w) i else i), flagsNone)
    let pick := fun (max : Bool) (a b : Nat) =>
      match floatFmt et with
      | some f => fpMinMax f max a b
      | none => (if (if max then readN w sgn a < readN w sgn b else readN w sgn b < readN w sgn a) then b else a, flagsNone)
    let rm := o.rm.toNat
    both (.vadd o) (.vaddXl p) (lane (fun f a b => roundWith f rm (fvAdd rm (decodeFloat f a) (decodeFloat f b))) (· + ·)) ∧
    both (.vsub o) (.vsubXl p) (lane (fun f a b => roundWith f rm (fvAdd rm (decodeFloat f a) (fvNeg (decodeFloat f b)))) (· - ·)) ∧
    both (.vmul o) (.vmulXl p) (lane (fun f a b => roundWith f rm (fvMul (decodeFloat f a) (decodeFloat f b))) (· * ·)) ∧
    both (.vmin o) (.vminXl p) (pick false) ∧ both (.vmax o) (.vmaxXl p) (pick true)

/-- R149, R160, R161: VMULH keeps the high half of the exact product by the type's signedness; VAND, VOR and VXOR act bit by bit; VSHL,
VSHR and VSRA shift by the low six bits of B. No flag is raised. X form and literal form. -/
def Claim.VectorBitsAndShifts : Prop :=
  ∀ (s : State) (o : VBin) (lit : Word),
    let r := s.clk.cur
    let et := o.et.toNat
    let w := fmtWidth et
    let k := getK s r o.k.toNat
    let A := fun (j : Nat) => elemAt w (getV s r o.a.toNat) j
    let B := fun (j : Nat) =>
      if o.sub = 0 then elemAt w (getV s r (o.b.toNat % 16)) j
      else if o.sub = 1 then src s o.b % 2 ^ w else (o.imm.signExtend 64).toNat % 2 ^ w
    let p : VBinL := ⟨o.d, o.a, o.k, o.z, o.et, o.rm, o.sat, lit⟩
    let both := fun (x xl : Instr) (f : Nat → Nat → Nat) =>
      GivesV x s o.d w k o.z (fun j => (f (A j) (B j), flagsNone)) 12 ∧
      GivesV xl s o.d w k o.z (fun j => (f (A j) (lit.toNat % 2 ^ w), flagsNone)) 20
    let rd := readN w (fmtIsSigned et)
    both (.vmulh o) (.vmulhXl p) (fun a b => lowBits w (rd a * rd b / (2 ^ w : Nat))) ∧
    both (.vand o) (.vandXl p) (fun a b => a &&& b) ∧ both (.vor o) (.vorXl p) (fun a b => a ||| b) ∧
    both (.vxor o) (.vxorXl p) (fun a b => a ^^^ b) ∧
    both (.vshl o) (.vshlXl p) (fun a b => a * 2 ^ (b % 64)) ∧ both (.vshr o) (.vshrXl p) (fun a b => a / 2 ^ (b % 64)) ∧
    both (.vsra o) (.vsraXl p) (fun a b => lowBits w (signedOf w a / (2 ^ (b % 64) : Nat)))

/-- R162, R163, R165, R168: VFMA rounds ±(A·B) ± C once; VLUT3 looks up every bit of its bytes; VSEL takes each lane of V[a] or V[b] by
K[k], of every form the spec gives, and keeps none; VPERM takes lanes of V[a] and V[b] by V[c] modulo 2L. -/
def Claim.VectorSelectsAndPermutes : Prop :=
  ∀ (s : State) (f : VFma) (l : VLut) (q : VSel) (p : VPerm),
    let r := s.clk.cur
    let lane := fun (w : Nat) (v : VReg) (j : Nat) => elemAt w (getV s r v.toNat) j
    let w := fmtWidth p.et.toNat
    let i := fun (j : Nat) => lane w p.c j % (2 * (512 / w))
    let g := layoutOf f.et.toNat
    let fw := fmtWidth f.et.toNat
    let fma := fun (j : Nat) =>
      let x := fvMul (decodeFloat g (lane fw f.a j)) (decodeFloat g (lane fw f.b j))
      let c := decodeFloat g (lane fw f.c j)
      let y := fvAdd f.rm.toNat (if f.sub.getLsbD 1 then fvNeg x.1 else x.1) (if f.sub.getLsbD 0 then fvNeg c else c)
      roundWith g f.rm.toNat (y.1, flagsOr x.2 y.2)
    GivesV (.vfma f) s f.d fw (getK s r f.k.toNat) f.z fma 12 ∧
    (∃ v : Nat → Nat, GivesV (.vlut3 l) s l.d 8 (getK s r l.k.toNat) l.z (fun j => (v j, flagsNone)) 12 ∧
      ∀ j n, n < 8 → bitAt (v j) n = bitAt l.table.toNat
        (4 * flag01 (bitAt (lane 8 l.a j) n) + 2 * flag01 (bitAt (lane 8 l.b j) n) + flag01 (bitAt (lane 8 l.c j) n))) ∧
    (wellFormed (.vsel q) = true →
     let n := fmtWidth q.et.toNat
     Completes (.vsel q) s 12 fun s u => ∃ v, WritesV s u r q.d.toNat v ∧
      ∀ j < 512 / n, elemAt n v j = if bitAt (getK s r q.k.toNat) j then lane n q.a j else lane n q.b j) ∧
    GivesV (.vperm p) s p.d w (getK s r p.k.toNat) p.z
      (fun j => (if i j < 512 / w then lane w p.a (i j) else lane w p.b (i j - 512 / w), flagsNone)) 12

/-- R166, R167: VBC writes S[a], or lane imm32 of V[a], to every active lane; VXT extends lane S[b] mod L of V[a] into S[d]; VIN replaces
that lane of V[d] by the low bits of S[a] and keeps the others. -/
def Claim.VectorLanesAndScalars : Prop :=
  ∀ (s : State) (o : VBc) (x : VXt) (i : VIn),
    let r := s.clk.cur
    let w := fmtWidth o.et.toNat
    let xw := fmtWidth x.et.toNat
    let iw := fmtWidth i.et.toNat
    let v := if o.sub = 0 then src s o.a % 2 ^ w else elemAt w (getV s r (o.a.toNat % 16)) o.imm.toNat
    GivesV (.vbc o) s o.d w (getK s r o.k.toNat) o.z (fun _ => (v, flagsNone)) 12 ∧
    Gives (.vxt x) s x.d (extendTo xw (fmtIsSigned x.et.toNat) (elemAt xw (getV s r x.a.toNat) (src s x.b % (512 / xw)))) 12 ∧
    (0 < iw → Completes (.vin i) s 12 fun s u => ∃ v, WritesV s u r i.d.toNat v ∧
      ∀ j < 512 / iw, elemAt iw v j = if j = src s i.b % (512 / iw) then src s i.a % 2 ^ iw else elemAt iw (getV s r i.d.toNat) j)

/-- R164: VCMP sets the bit of each active lane by the relation that sub names (NaN unordered, quiet for eq and ne, signalling for lt and
le), keeps an inactive lane's bit or clears it with z, and clears every bit at or above L; a write to k0 is discarded. -/
def Claim.VectorCompares : Prop :=
  ∀ (s : State) (o : VCmp), wellFormed (.vcmp o) = true →
    let r := s.clk.cur
    let et := o.et.toNat
    let w := fmtWidth et
    let k := getK s r o.k.toNat
    let rel := fun (j : Nat) =>
      let a := elemAt w (getV s r o.a.toNat) j
      let b := elemAt w (getV s r o.b.toNat) j
      match floatFmt et with
      | some f =>
        let num := fun (v : Nat) => if signBit f v then -(magBits f v : Int) else (magBits f v : Int)
        let un := fvIsNan (decodeFloat f a) || fvIsNan (decodeFloat f b)
        let sn := fvIsSnan (decodeFloat f a) || fvIsSnan (decodeFloat f b)
        (match o.sub.toNat with
          | 0 => (!un && decide (num a = num b), ({ invalid := sn } : Flags))
          | 1 => (un || decide (num a ≠ num b), { invalid := sn })
          | 2 => (!un && decide (num a < num b), { invalid := un })
          | 3 => (!un && decide (num a ≤ num b), { invalid := un })
          | _ => (un, { invalid := sn }))
      | none =>
        let sgn := fmtIsSigned et && decide (o.sub.toNat ≤ 3)
        (match o.sub.toNat with
          | 0 => decide (a % 2 ^ w = b % 2 ^ w)
          | 1 => decide (a % 2 ^ w ≠ b % 2 ^ w)
          | 2 => decide (readN w sgn a < readN w sgn b)
          | 3 => decide (readN w sgn a ≤ readN w sgn b)
          | 4 => decide (readN w sgn a < readN w sgn b)
          | _ => decide (readN w sgn a ≤ readN w sgn b), flagsNone)
    Completes (.vcmp o) s 12 fun s u => ∃ m v, WritesK s m r o.d.toNat v ∧
      (∀ j < 64, bitAt v j = (decide (j < 512 / w) && if bitAt k j then (rel j).1 else !o.z && bitAt (getK s r o.d.toNat) j)) ∧
      RaisesFlags m u r (flagsToNat (laneFlags w k fun j => (0, (rel j).2)))

/-- R169 to R171: VRED reduces the active lanes by the fixed binary tree and extends the root into S[d]; VSCAN gives each active lane
the combination of the tree's nodes that cover the lanes up to it. -/
def Claim.VectorReductions : Prop :=
  ∀ (s : State) (o : VRed) (p : VScan),
    let r := s.clk.cur
    let et := o.et.toNat
    let x := redRoot (redOpOf o.sub.toNat) et o.rm.toNat (getK s r o.k.toNat) (getV s r o.a.toNat)
    GivesF (.vred o) s o.d ((extendTo (fmtWidth et) (fmtIsSigned et) x.1).toNat, x.2) 12 ∧
    GivesV (.vscan p) s p.d (fmtWidth p.et.toNat) (getK s r p.k.toNat) p.z
      (fun j => scanLane (redOpOf p.sub.toNat) p.et.toNat p.rm.toNat (getK s r p.k.toNat) (getV s r p.a.toNat) j) 12

/-- R169, R171: the tree is fixed: a node of one active child is that child, unrounded; a node of none is empty; and the last lane of a
scan is the root of the reduction, at every lane count that the lane types give. -/
def Claim.ReductionTree : Prop :=
  ∀ (op : RedOp) (et rm k v : Nat),
    (∀ m i, (redNode op et rm k v m i).1 = none ↔ ∀ j, i * 2 ^ m ≤ j → j < (i + 1) * 2 ^ m → bitAt k j = false) ∧
    (∀ m i, (∀ j, (2 * i + 1) * 2 ^ m ≤ j → j < (2 * i + 2) * 2 ^ m → bitAt k j = false) →
      redNode op et rm k v (m + 1) i = redNode op et rm k v m (2 * i)) ∧
    (fmtWidth et ∈ [8, 16, 32, 64] → scanLane op et rm k v (512 / fmtWidth et - 1) = redRoot op et rm k v)

/-- R172, R28, R32: VCVT writes V[d] lane by lane from its source lanes, raises the active lanes' flags and, under rm 4 alone, leaves in
MISC.SRST the state that its last element reached. -/
def Claim.VectorConverts : Prop :=
  ∀ (s : State) (o : VCvt),
    let r := s.clk.cur
    let x := cvtLanes o.src.toNat o.et.toNat o.rm.toNat o.sat o.z (getK s r o.k.toNat) o.sub.toNat (getV s r o.a.toNat)
      (getV s r o.d.toNat) (getF s r fSrst)
    Completes (.vcvt o) s 12 fun s t => ∃ p q,
      (if o.rm = 4 then getF p r fSrst = x.st % 2 ^ 32 ∧ OnlyMem s p ∧ BytesKept s p (rowDpa r + 0x70) 4 else p = s) ∧
      WritesV p q r o.d.toNat (x.dst % 2 ^ 512) ∧ RaisesFlags q t r (flagsToNat x.fl)

/-- R172 on integers: a VCVT from one integer format to another takes, in every active lane j of the wider of the two widths, the source
element part·n + j or j, extended by the source's signedness and wrapped or clamped to the destination's range; no flag is raised and
every other destination lane is kept, or an inactive one zeroed with z. -/
def Claim.IntegerConversionLanes : Prop :=
  ∀ (sf df rm : Nat) (sat z : Bool) (k part v old st : Nat), fmtIsInt sf = true → fmtIsInt df = true →
    part < max (fmtWidth sf) (fmtWidth df) / min (fmtWidth sf) (fmtWidth df) →
    let ws := fmtWidth sf
    let wd := fmtWidth df
    let n := 512 / max ws wd
    let x := cvtLanes sf df rm sat z k part v old st
    x.fl = flagsNone ∧ x.st = st ∧
    ∀ i < 512 / wd, elemAt wd x.dst i =
      let j := if wd < ws then i - part * n else i
      let mine := if wd < ws then decide (part * n ≤ i ∧ i < part * n + n) else decide (i < n)
      if !mine then elemAt wd old i
      else if bitAt k j then
        let e := readN ws (fmtIsSigned sf) (elemAt ws v (if ws < wd then part * n + j else j))
        lowBits wd (if sat then clampInt (intMin (fmtIsSigned df) wd) (intMax (fmtIsSigned df) wd) e else e)
      else if z then 0 else elemAt wd old i

/-- R174: VDOT adds to each active 32-bit lane the dot product of its group: exact sums of integer products, wrapped or clamped; for FP
sources products rounded to f32, the tree over them, and one more rounding with the lane. -/
def Claim.VectorDots : Prop :=
  ∀ (s : State) (o : VDot),
    let r := s.clk.cur
    let a := getV s r o.a.toNat
    let b := getV s r o.b.toNat
    let sf := o.sf.toNat
    let w := fmtWidth sf
    let g := 32 / w
    let lane := fun (j : Nat) => elemAt 32 (getV s r o.d.toNat) j
    let rd := fun (v i : Nat) => readN w (fmtIsSigned sf) (elemAt w v i)
    let int := fun (j : Nat) =>
      let t := (List.range g).foldl (fun acc i => acc + rd a (g * j + i) * rd b (g * j + i)) (signedOf 32 (lane j))
      (lowBits 32 (if o.sat then clampInt (-(2 ^ 31)) (2 ^ 31 - 1) t else t), flagsNone)
    let fp := fun (j : Nat) =>
      let x := dotNode sf o.rm.toNat a b (Nat.log2 g) j
      let y := fpAdd f32Fmt o.rm.toNat (lane j) x.1
      (y.1, flagsOr x.2 y.2)
    GivesV (.vdot o) s o.d 32 (getK s r o.k.toNat) o.z (fun j => if fmtIsInt sf then int j else fp j) 12

/-- R175, R176: the mask operations on 64-bit masks with k0 reading as all ones, a write to k0 discarded; KPOP counts set bits; KFIND finds
the lowest set bit at or above S[b] mod 64, or gives 64. -/
def Claim.Masks : Prop :=
  ∀ (s : State) (d a b : KReg) (x y : Reg),
    let r := s.clk.cur
    let ones := 2 ^ 64 - 1
    let m := fun (q : KReg) => if q.toNat = 0 then ones else rowNat s r (0x600 + 8 * q.toNat) 8
    let puts := fun (i : Instr) (v : Nat) => Completes i s 4 fun s u => WritesK s u r d.toNat v
    puts (.kand d a b) (m a &&& m b) ∧ puts (.kor d a b) (m a ||| m b) ∧ puts (.kxor d a b) (m a ^^^ m b) ∧
    puts (.knot d a) (ones ^^^ m a) ∧ puts (.kmov d a) (m a) ∧
    Gives (.kpop x a) s x (BitVec.ofNat 64 (((List.range 64).filter fun i => bitAt (m a) i).length)) 4 ∧
    ∃ p, Gives (.kfind x a y) s x (BitVec.ofNat 64 p) 4 ∧
      let i := src s y % 64
      (p = 64 ∧ ∀ j, i ≤ j → j < 64 → bitAt (m a) j = false) ∨
      (i ≤ p ∧ p < 64 ∧ bitAt (m a) p = true ∧ ∀ j, i ≤ j → j < p → bitAt (m a) j = false)

/-! ### Loads, stores, translation (R177 to R206) -/

/-- R93, R183, R198, R199, own row: a load extends the bytes at BASE + S[a] + displacement by its type; a store puts the low bytes of
S[b] there, above the control words, and leaves every other byte and every register word of the module as they were. -/
def Claim.OwnRowScalarAccesses : Prop :=
  ∀ (s : State) (o : LdS) (x : LdX) (p : StS) (q : StX), isOpen s s.clk.cur = true →
    let r := s.clk.cur
    let g1 := getSeg s r 1
    let seg := fun (m : XMem) => if m.rowm then rowSeg else getSeg s r m.sg.toNat
    let load := fun (i : Instr) (len : Nat) (g : Seg) (off : Int) (t : IType) (d : Reg) =>
      let n := itypeWidth t / 8
      OwnSpan s g off n n false → Gives i s d (extendTo (8 * n) (itypeSigned t) (memNat s.mem (ownAddr s g off) n)) len
    let store := fun (i : Instr) (len : Nat) (g : Seg) (off : Int) (n v : Nat) =>
      OwnSpan s g off n n true → 0x100 ≤ g.base + off.toNat → g.base + off.toNat < 0x640 ∨ 0x700 ≤ g.base + off.toNat →
      Completes i s len fun s u => memNat u.mem (ownAddr s g off) n = v % 2 ^ (8 * n) ∧ BytesKept s u (ownAddr s g off) n ∧ u.regs = s.regs
    load (.ld o) 4 g1 ((src s o.a : Int) + o.imm.toInt) o.t o.d ∧
    load (.ldX x) 12 (seg x.mem) ((src s x.mem.a : Int) + x.mem.disp.toInt) x.t x.d ∧
    store (.st p) 4 g1 ((src s p.a : Int) + p.off.toInt) (2 ^ p.w.toNat) (src s p.b) ∧
    store (.stX q) 12 (seg q.mem) ((src s q.mem.a : Int) + q.mem.disp.toInt) (2 ^ q.w.toNat) (src s q.b)

/-- R149, R200 to R202, own row: VLD, VLDS and VGAT load each active lane from its own address — one after the other, a stride apart, or
at a shifted signed index — and V[d]'s other lanes are kept or zeroed; no flag is raised. -/
def Claim.OwnRowVectorLoads : Prop :=
  ∀ (s : State) (o : VLd) (p : VLds) (q : VGat), isOpen s s.clk.cur = true →
    let r := s.clk.cur
    let seg := fun (m : XMem) => if m.rowm then rowSeg else getSeg s r m.sg.toNat
    let base := fun (m : XMem) => (src s m.a : Int) + m.disp.toInt
    let load := fun (i : Instr) (m : XMem) (d : VReg) (k : KReg) (z : Bool) (et : BitVec 5) (off : Nat → Int) =>
      let w := fmtWidth et.toNat
      let mask := getK s r k.toNat
      let g := seg m
      wellFormed i = true → (∀ j < 512 / w, bitAt mask j = true → OwnSpan s g (off j) (w / 8) (w / 8) false) →
      GivesV i s d w mask z (fun j => (memNat s.mem (ownAddr s g (off j)) (w / 8), flagsNone)) 12
    let qw := fmtWidth q.et.toNat
    ((o.dec = false ∨ (seg o.mem).fmt = 0 ∨ (seg o.mem).fmt = o.et.toNat) →
      load (.vld o) o.mem o.d o.k o.z o.et fun (j : Nat) => base o.mem + (j * (fmtWidth o.et.toNat / 8) : Nat)) ∧
    ((p.dec = false ∨ (seg p.mem).fmt = 0 ∨ (seg p.mem).fmt = p.et.toNat) →
      load (.vlds p) p.mem p.d p.k p.z p.et fun (j : Nat) => base p.mem + j * (BitVec.ofNat 64 (src s p.b)).toInt) ∧
    load (.vgat q) q.mem q.d q.k q.z q.et fun (j : Nat) =>
      base q.mem + signedOf qw (elemAt qw (getV s r q.b.toNat) j) * (2 ^ q.sh.toNat : Nat)

/-- R173, R194, R201, own row: a VLDS that decodes loads from each active lane's address an element of the segment's stored format and
writes its exact value into the lane, rounded once to nearest even, an integer extended by its format's signedness; the active lanes'
flags are raised. -/
def Claim.DecodingStrides : Prop :=
  ∀ (s : State) (p : VLds), isOpen s s.clk.cur = true → wellFormed (.vlds p) = true → p.dec = true →
    let r := s.clk.cur
    let et := p.et.toNat
    let w := fmtWidth et
    let k := getK s r p.k.toNat
    let g := if p.mem.rowm then rowSeg else getSeg s r p.mem.sg.toNat
    let fw := fmtWidth g.fmt
    let off := fun (j : Nat) => (src s p.mem.a : Int) + p.mem.disp.toInt + j * (BitVec.ofNat 64 (src s p.b)).toInt
    strideAccepts et g.fmt = true → g.fmt ≠ 0 → g.fmt ≠ et →
    (∀ j < 512 / w, bitAt k j = true → OwnSpan s g (off j) (fw / 8) (fw / 8) false) →
    GivesV (.vlds p) s p.d w k p.z (fun j =>
      let v := memNat s.mem (ownAddr s g (off j)) (fw / 8)
      if fmtIsInt g.fmt ∧ fmtIsInt et then (lowBits w (readN fw (fmtIsSigned g.fmt) v), flagsNone)
      else convertVal et 0 0 (elemVal g.fmt v)) 12

/-- R173, R194, R195, R200: a decoding VLD, its stored format neither 0 nor the lane type. In the own row, where a block's scale area is out of
reach, it reads the span of all L elements, whatever the mask, and gives each active lane its element's exact value, rounded once to nearest
even, an integer extended by its format's signedness; the active lanes' flags are raised. In a block format, through a segment of another kind
that is not translated, it waits with WHY 1 and asks for the bytes of the span and then for the block's scale, which lies in the tail of the 64 KiB
unit counted from BASE; and the last reply of a decoding VLD gives each active lane the value of its element, under the scale in a block format
(that a scale of 0xFF makes a quiet NaN also of an element that is a signalling one is log 77, the model's choice). -/
def Claim.DecodingLoads : Prop :=
  ∀ (s : State) (o : VLd) (id : Nat) (q : Req), wellFormed (.vld o) = true → o.dec = true →
    let r := s.clk.cur
    let et := o.et.toNat
    let w := fmtWidth et
    let lanes := 512 / w
    let k := getK s r o.k.toNat
    let g := if o.mem.rowm then rowSeg else getSeg s r o.mem.sg.toNat
    let off := (src s o.mem.a : Int) + o.mem.disp.toInt
    let decoded := fun (f v sc j : Nat) =>
      if fmtIsInt f ∧ fmtIsInt et then (lowBits w (readN (fmtWidth f) (fmtIsSigned f) (elemAt (fmtWidth f) v j)), flagsNone)
      else convertVal et 0 0 (if fmtIsBlock f then blockVal f sc v j else elemValAt f v j)
    let fw := fmtWidth g.fmt
    let n := lanes * fw / 8
    let po := off.toNat % 2 ^ 16
    let place := 2 ^ 16 - 2 ^ 16 / (4 * fw) + po / (4 * fw)
    (isOpen s r = true → loadAccepts et g.fmt = true → g.fmt ≠ 0 → g.fmt ≠ et → fmtIsBlock g.fmt = false → (g.base + off) % (max 1 (fw / 8) : Nat) = 0 →
      (∀ i < n, OwnSpan s g (off + (i : Nat)) 1 1 false) →
      GivesV (.vld o) s o.d w k o.z (decoded g.fmt (memNat s.mem (ownAddr s g off) n) 0) 12) ∧
    (∀ a b : Nat, loadAccepts et g.fmt = true → fmtIsBlock g.fmt = true → (∃ j < lanes, bitAt k j = true) → g.kind ≠ 0 → g.kind ≠ 4 →
      (g.base + off) % (n : Nat) = 0 → segAddr r g off 1 % n = 0 →
      segChecks s r g off { rd := true, size := n, align := n } = .ok a → (∀ i < n, segChecks s r g (off + (i : Nat)) { rd := true, size := 1 } = .ok (a + i)) →
      segChecks s r g (off - (po : Nat) + (place : Nat)) { rd := true, size := 1 } = .ok b →
      (∀ x, (a ≤ x ∧ x < a + n) ∨ x = b → dpaChecks s (partOf s r) (isPriv s r) false x = none) →
      po + n ≤ 2 ^ 16 - 2 ^ 16 / (4 * fw) → po / (4 * fw) = (po + n - 1) / (4 * fw) →
      Leaves (.vld o) s 1 12 fun t => t.regs = s.regs ∧ ∃ x, tabGet t.ms.reqs s.clk.ids = some x ∧ x.row = r ∧ x.op = .read ∧
        x.dest = .vector o.d.toNat et k o.z ∧ x.elems.map Elem.addr = (List.range n).map (a + ·) ++ [b]) ∧
    (∀ es sc f m, tabGet s.ms.reqs id = some q → q.dest = .vector o.d.toNat et m o.z → q.decode = 1 → q.wait = true → q.fault = none → q.left ≤ 1 →
      q.elems = es ++ [sc] → sc.lane = 64 → es ≠ [] → (∀ e ∈ es, e.fmt = f ∧ e.size = 1 ∧ e.lane < 64) → fmtIsBlock f = true → q.fl = 0 → q.row < 2 ^ 28 →
      getF s q.row fCode = 4 → Calm s q.row → s.rows.popDue.contains q.row = false →
      let v := packElems 8 (es.map fun e => e.got.getD 0)
      Yields (.memoryReply id) s fun t =>
        (∀ j < lanes, elemAt w (getV t q.row o.d.toNat) j =
          if bitAt m j then (decoded f v (sc.got.getD 0) j).1 % 2 ^ w else if o.z then 0 else elemAt w (getV s q.row o.d.toNat) j) ∧
        getF t q.row fFlags = (getF s q.row fFlags ||| flagsToNat (laneFlags w m (decoded f v (sc.got.getD 0)))) ∧
        getF t q.row fPc = (getF s q.row fPc + tabGetD s.rows.lens q.row 4) % 2 ^ 40 ∧ getF t q.row fCode = 3)

/-- R149, R200 to R202, own row: VST, VSTS and VSCT store the active lanes at their addresses; with lanes apart from each other and above
the control words every stored lane reads back, and every byte outside the stored lanes is kept. -/
def Claim.OwnRowVectorStores : Prop :=
  ∀ (s : State) (o : VSt) (p : VSts) (q : VSct), isOpen s s.clk.cur = true →
    let r := s.clk.cur
    let seg := fun (m : XMem) => if m.rowm then rowSeg else getSeg s r m.sg.toNat
    let base := fun (m : XMem) => (src s m.a : Int) + m.disp.toInt
    let store := fun (i : Instr) (m : XMem) (v : VReg) (k : KReg) (et : BitVec 5) (off : Nat → Int) =>
      let w := fmtWidth et.toNat
      let g := seg m
      let on := fun (j : Nat) => j < 512 / w ∧ bitAt (getK s r k.toNat) j = true
      wellFormed i = true →
      (∀ j, on j → OwnSpan s g (off j) (w / 8) (w / 8) true ∧ 0x100 ≤ g.base + (off j).toNat ∧
        (g.base + (off j).toNat < 0x640 ∨ 0x700 ≤ g.base + (off j).toNat)) →
      (∀ j l, on j → on l → j ≠ l → off j + (w / 8 : Nat) ≤ off l ∨ off l + (w / 8 : Nat) ≤ off j) →
      Completes i s 12 fun s u =>
        (∀ j, on j → memNat u.mem (ownAddr s g (off j)) (w / 8) = elemAt w (getV s r v.toNat) j) ∧
        (∀ x, (∀ j, on j → x < ownAddr s g (off j) ∨ ownAddr s g (off j) + w / 8 ≤ x) → memByte u.mem x = memByte s.mem x) ∧
        u.regs = s.regs
    let qw := fmtWidth q.et.toNat
    (store (.vst o) o.mem o.b o.k o.et fun (j : Nat) => base o.mem + (j * (fmtWidth o.et.toNat / 8) : Nat)) ∧
    (store (.vsts p) p.mem p.c p.k p.et fun (j : Nat) => base p.mem + j * (BitVec.ofNat 64 (src s p.b)).toInt) ∧
    store (.vsct q) q.mem q.c q.k q.et fun (j : Nat) =>
      base q.mem + signedOf qw (elemAt qw (getV s r q.b.toNat) j) * (2 ^ q.sh.toNat : Nat)

/-- R183 for LD and ST, whose address no cache translates: the first failing check in the order segment, alignment, limit, kind of reach,
rights stops the access with its cause, detail and address; nothing else of the row is written. The offset is S[a], read unsigned (log 21), plus
the displacement. -/
def Claim.SegmentChecksInOrder : Prop :=
  ∀ (s : State) (o : LdX) (q : StX),
    let r := s.clk.cur
    let check := fun (i : Instr) (m : XMem) (n : Nat) (right : Seg → Bool) =>
      let g := if m.rowm then rowSeg else getSeg s r m.sg.toNat
      let off := (src s m.a : Int) + m.disp.toInt
      let fa := segAddr r g off n
      let stops := fun (f : FaultRec) => ∃ u, exec i s = .next (takeFault u r f (majorAt u r)) ∧ { u with clk := s.clk, ms := s.ms } = s
      if g.bad = true then stops (instrFault s r 0x01 0)
      else if (g.base + off) % n ≠ 0 then stops ⟨0x04, 0, fa, g.kind⟩
      else if off < 0 ∨ g.limit < off + n then stops ⟨0x02, 0x01, fa, g.kind⟩
      else if segReach r g off.toNat n = none then stops ⟨0x02, 0x03, fa, g.kind⟩
      else right g = false → stops ⟨0x03, 0x10, fa, g.kind⟩
    check (.ldX o) o.mem (itypeWidth o.t / 8) Seg.canR ∧ check (.stX q) q.mem (2 ^ q.w.toNat) Seg.canW

/-- R110, R185, R198: a load through a segment of another kind that is not translated leaves rotation with WHY 1, and one message asks
its home for the bytes. -/
def Claim.SentLoads : Prop :=
  ∀ (s : State) (o : LdX),
    let r := s.clk.cur
    let g := memSeg s o.mem
    let n := itypeWidth o.t / 8
    let off := (src s o.mem.a : Int) + o.mem.disp.toInt
    g.kind ≠ 0 → g.kind ≠ 4 → ∀ a, segChecks s r g off { rd := true, size := n, align := n } = .ok a →
    dpaChecks s (partOf s r) (isPriv s r) false a = none →
    Leaves (.ldX o) s 1 12 fun t =>
      Asked s t s.clk.ids .read (.scalar o.d.toNat (8 * n) (itypeSigned o.t)) true a ∧ t.regs = s.regs

/-- R199, R207, R208: a store to HBM that passes its checks, with room in the wet buffer, commits at once and changes no byte of memory:
its bytes stand in a wet entry of the row under the row's phase, and a first trip to the home is on its way. -/
def Claim.StoresAreWet : Prop :=
  ∀ (s : State) (o : StX) (a : Nat),
    let r := s.clk.cur
    let g := memSeg s o.mem
    let n := 2 ^ o.w.toNat
    let off := (src s o.mem.a : Int) + o.mem.disp.toInt
    g.kind ≠ 0 → g.kind ≠ 4 → segChecks s r g off { wr := true, size := n, align := n } = .ok a →
    dpaChecks s (partOf s r) (isPriv s r) true a = none → placeOf a = .hbm →
    wetHeld s (exOf r) (partOf s r) < 32 * slotCount s (partOf s r) → (s.ms.wet.all fun w => w.row != r) = true →
    Completes (.stX o) s 12 fun s u =>
      (∃ w ∈ u.ms.wet, w.row = r ∧ w.tag = getF s r fPhase ∧ w.line = a / 64 ∧
        (∀ i < n, tabGet w.bytes (a % 64 + i) = some (BitVec.ofNat 8 (src s o.b / 2 ^ (8 * i)))) ∧
        ∃ e ∈ u.agenda, ∃ id, e.ev = .wetStoreFirstTrip id ∧ (tabGet u.ms.reqs id).map Req.status = some w.id) ∧
      u.mem = s.mem ∧ u.regs = s.regs

/-- R203, R204, R205: PREF through a segment that is not VIRT only goes on, whatever its checks find but ILLOP, which faults; FMTQ there answers one
cycle later with format, rights and page and V set only when the partition reaches the address; TLBINV is privileged, and once issued
no cache of the module holds a translation it names (that its entries go at the issue is log 42). -/
def Claim.TranslationInstructions : Prop :=
  ∀ (s : State) (m : XMem) (d a b : Reg) (op : BitVec 3),
    let r := s.clk.cur
    let g := memSeg s m
    let off := (src s m.a : Int) + m.disp.toInt
    (g.kind ≠ 4 → g.bad = false → exec (.pref m) s = .next (finish s r 12)) ∧ (g.bad = true → Traps (.pref m) s (instrFault s r 0x01 0)) ∧
    (g.kind ≠ 4 → ∀ x, segChecks s r g off { size := 1 } = .ok x →
      GoesLong (.fmtq d m) s 1 12 1 ⟨[⟨d.toNat, BitVec.ofNat 64 (g.fmt +
        (if partMayReach s (partOf s r) x then 2 ^ 7 + bitsAt x 12 36 * 2 ^ 16 else 0) +
        (flag01 g.canR + 2 * flag01 g.canW + 4 * flag01 g.canX) * 2 ^ 8)⟩], 0, none⟩) ∧
    (∀ f, segChecks s r g off { size := 1 } = .error f → Traps (.fmtq d m) s f) ∧
    (isPriv s r = false → Traps (.tlbinv a b op) s (instrFault s r 0x05 0)) ∧
    (isPriv s r = true → Leaves (.tlbinv a b op) s 2 12 fun t => ∀ ex e,
      e ∈ tabGetD t.ms.tlb ex [] ∨ e ∈ tabGetD t.ms.tlb2 ex [] → tlbHit op.toNat (partOf s r) (src s a) (src s b) e = false)

/-- R206: MIGRATE through a VIRT segment with W begins with a walk of the page and waits with WHY 2 (R206's figure, R186 says 1: log 67); MIGRATE with release of a
frame that no record names answers 5, and of one that a record names drops the record and answers 0. -/
def Claim.Migrations : Prop :=
  ∀ (s : State) (d b : Reg) (m : XMem),
    let r := s.clk.cur
    let off := (src s m.a : Int) + m.disp.toInt
    let gpa := src s b
    let mine := fun (f : Forward) => f.part = partOf s r ∧ f.oldGpa ≤ gpa ∧ gpa < f.oldGpa + f.size
    (∀ va, segChecks s r (memSeg s m) off { kinds := 0x10, wr := true, size := 1 } = .ok va →
      Leaves (.migrate d b m) s 2 12 fun t =>
        ∃ w ∈ t.ms.walks, w.part = partOf s r ∧ w.ctx = ctxOf s r ∧ w.va / 2 ^ 21 = va / 2 ^ 21 ∧ WalkFor.migrate r d.toNat gpa va ∈ w.serves) ∧
    (∀ f, segChecks s r (memSeg s m) off { kinds := 0x10, wr := true, size := 1 } = .error f → Traps (.migrate d b m) s f) ∧
    ((∀ f ∈ s.ms.forwards, ¬ mine f) → Leaves (.migrateRelease d b) s 2 12 fun t =>
      tabGet t.rows.longs r = some ⟨[⟨d.toNat, 5⟩], 0, none⟩ ∧ t.ms = s.ms ∧ t.regs = s.regs) ∧
    ((∃ f ∈ s.ms.forwards, mine f) → Leaves (.migrateRelease d b) s 2 12 fun t =>
      tabGet t.rows.longs r = some ⟨[⟨d.toNat, 0⟩], 0, none⟩ ∧ t.regs = s.regs ∧
      (∃ f, mine f ∧ f ∈ s.ms.forwards ∧ ∀ g, g ∈ t.ms.forwards ↔ g ∈ s.ms.forwards ∧ g.oldBase ≠ f.oldBase))

/-! ### Atomics, watches, phases and fences (R207 to R233) -/

/-- R231, R232, own row: an atomic reads and writes its word within the instruction. Memory takes the new value (for ACAS only when the
word equals S[c] in N bits), every other byte is kept, S[d] receives the old value extended by the type, and with d other than s0 the
flags of the operation are raised. X form and literal form. -/
def Claim.OwnRowAtomics : Prop :=
  ∀ (s : State) (d b c : Reg) (et : BitVec 5) (rm : BitVec 3) (m : XMem) (l : LMem), isOpen s s.clk.cur = true → s.clk.cur < 2 ^ 28 →
    et.toNat ∈ [3, 4, 7, 8, 0xB, 0xC] →
    let r := s.clk.cur
    let t := et.toNat
    let w := fmtWidth t
    let n := w / 8
    let B := src s b % 2 ^ w
    let sgn := fmtIsSigned t
    let at_ := fun (g : Seg) (off : Int) (i : Instr) (len : Nat) (f : Nat → Nat × Flags) =>
      let a := ownAddr s g off
      let old := memNat s.mem a n
      OwnSpan s g off n n false → OwnSpan s g off n n true → 0x100 ≤ g.base + off.toNat →
      g.base + off.toNat < 0x640 ∨ 0x700 ≤ g.base + off.toNat →
      Completes i s len fun s u => ∃ p q, memNat p.mem a n = (f old).1 % 2 ^ w ∧ BytesKept s p a n ∧ p.regs = s.regs ∧
        (if d = 0 then q = p else RaisesFlags p q r (flagsToNat (f old).2)) ∧ WritesS q u r d.toNat (extendTo w sgn old)
    let both := fun (i : AtomX → Instr) (j : AtomL → Instr) (f : Nat → Nat × Flags) =>
      at_ (memSeg s m) (memOff s m) (i ⟨d, b, et, rm, m⟩) 12 f ∧ at_ (lmemSeg s l) (lmemOff s l) (j ⟨d, b, et, rm, l⟩) 20 f
    let num := fun (fp : FloatFmt → Nat → Nat × Flags) (int : Nat → Nat) (old : Nat) =>
      match floatFmt t with
      | some f => fp f old
      | none => (int old, flagsNone)
    let bits := fun (f : Nat → Nat) (old : Nat) => (f old, flagsNone)
    let cas := fun (old : Nat) => (if old = src s c % 2 ^ w then B else old, flagsNone)
    both .aadd .aaddXl (num (fun f old => roundWith f rm.toNat (fvAdd rm.toNat (decodeFloat f old) (decodeFloat f B))) fun old => old + B) ∧
    both .amin .aminXl (num (fun f old => fpMinMax f false old B) fun old => if readN w sgn B < readN w sgn old then B else old) ∧
    both .amax .amaxXl (num (fun f old => fpMinMax f true old B) fun old => if readN w sgn old < readN w sgn B then B else old) ∧
    both .aand .aandXl (bits fun old => old &&& B) ∧ both .aor .aorXl (bits fun old => old ||| B) ∧
    both .axor .axorXl (bits fun old => old ^^^ B) ∧ both .axchg .axchgXl (bits fun _ => B) ∧
    at_ (memSeg s m) (memOff s m) (.acas ⟨d, b, c, et, m⟩) 12 cas ∧ at_ (lmemSeg s l) (lmemOff s l) (.acasXl ⟨d, b, c, et, l⟩) 20 cas

/-- R230, own row: a WATCH on a word that differs from S[b] completes with the word in S[d]; one on an equal word waits with WHY 6 and
stands registered on that word. -/
def Claim.Watches : Prop :=
  ∀ (s : State) (o : WatchX), isOpen s s.clk.cur = true → o.et.toNat ∈ [3, 4, 7, 8] →
    let r := s.clk.cur
    let w := fmtWidth o.et.toNat
    let n := w / 8
    let g := memSeg s o.mem
    let off := memOff s o.mem
    let v := memNat s.mem (ownAddr s g off) n
    OwnSpan s g off n n false →
    (v ≠ src s o.b % 2 ^ w → Gives (.watch o) s o.d (extendTo w (fmtIsSigned o.et.toNat) v) 12) ∧
    (v = src s o.b % 2 ^ w → getF s r fPend = 0 → ctxActive s r = true → BlockApart s r → Leaves (.watch o) s 6 12 fun t =>
      ∃ x ∈ t.ms.watches, x.row = r ∧ x.addr = ownAddr s g off ∧ x.size = n ∧ x.old = src s o.b % 2 ^ w)

/-- R211: a scope operand names slot 0 by the whole rectangle, and slot i + 1 by the word of a valid rectangle that holds the row's own
executor; bits above 31 or a word that no rectangle holds fault SCOPE 1, a rectangle elsewhere SCOPE 2. -/
def Claim.ScopeOperands : Prop :=
  ∀ (s : State) (r : Nat) (v : Word),
    let named := fun (i : Nat) => i < 16 ∧ regBits s (rectAt (partOf s r) i) 32 1 = 1 ∧ regBits s (rectAt (partOf s r) i) 0 32 = v.toNat
    let f := fun (d : Nat) => (Except.error ⟨0x06, d, v.toNat % 2 ^ 48, 0⟩ : Except FaultRec Nat)
    (v = 0x1F1F0000 → scopeOperand s r v = .ok 0) ∧
    (v ≠ 0x1F1F0000 → 2 ^ 32 ≤ v.toNat → scopeOperand s r v = f 1) ∧
    (v ≠ 0x1F1F0000 → v.toNat < 2 ^ 32 → (∀ i, ¬ named i) → scopeOperand s r v = f 1) ∧
    (v ≠ 0x1F1F0000 → v.toNat < 2 ^ 32 → (∃ i, named i) → (rectOf v.toNat).has (homeOf r) = false → scopeOperand s r v = f 2) ∧
    (v ≠ 0x1F1F0000 → v.toNat < 2 ^ 32 → ∀ i, named i → (∀ j < i, ¬ named j) → (rectOf v.toNat).has (homeOf r) = true →
      scopeOperand s r v = .ok (i + 1))

/-- R214, R224 to R226: PHASE at a scope raises VT.PHASE by one and, once LB and DB of the scope as the row sees them stand above the phase it
left, ends with the new phase in S[d], a beat and PROGRESS invalid; otherwise it waits with WHY 4 at the raised phase. TICK raises the
phase by the least of S[a] and what LEAD and R214 allow and gives the amount. WAITLB ends with LB in S[d] once LB is above S[b].
A scope operand that faults stops PHASE and WAITLB; an own scope that does not hold stops TICK with SCOPE 3. -/
def Claim.Phases : Prop :=
  ∀ (s : State) (d a b : Reg) (σ : Nat),
    let r := s.clk.cur
    let op := scopeOperand s r (getS s r a.toNat)
    let p := getF s r fPhase
    let next := (p + 1) % 2 ^ 32
    let above := fun (x : Option Nat) (v : Nat) => ∀ y, x = some y → 0 < (y + 2 ^ 32 - v) % 2 ^ 32 ∧ (y + 2 ^ 32 - v) % 2 ^ 32 < 2 ^ 31
    let view := rowView s r σ
    (∀ f, op = .error f → Traps (.phase d a) s f ∧ Traps (.waitlb d a b) s f) ∧
    (op = .ok σ → ¬ (getF s r fValid = 1 ∧ getF s r fMajor = 0xA0) → mayRaise s r p = true → BlockApart s r →
      (above view.lb p ∧ above view.db p → Completes (.phase d a) s 4 fun s u => ∃ m k,
        getF m r fPhase = next ∧ getF m r fValid = 0 ∧ OnlyMem s m ∧ BytesKept2 s m (rowDpa r + 0x20) 8 (rowDpa r + 0x40) 8 ∧
        WritesS m k r d.toNat (BitVec.ofNat 64 next) ∧ getF u r fBeats = min (getF k r fBeats + 1) 255 ∧ OnlyMem k u ∧
        BytesKept k u (rowDpa r + 0x70) 8) ∧
      (¬ (above view.lb p ∧ above view.db p) → getF s r fPend = 0 → ctxActive s r = true →
        ∃ t, exec (.phase d a) s = .next t ∧ getF t r fCode = 4 ∧ getF t r fWhy = 4 ∧ getF t r fPhase = next ∧
          getF t r fValid = 1 ∧ getF t r fMajor = 0xA0 ∧ getF t r fStep = next ∧ BytesKept s t (rowDpa r + 0x08) 0x40 ∧ t.regs = s.regs)) ∧
    (ownScope s r = (σ, true) →
      let cap := fun (lb ahead : Nat) => (lb + ahead + 2 ^ 32 - p) % 2 ^ 32
      let own := min (src s a) (cap (view.lb.getD p) (if getF s r fLead = 0 then 15 else getF s r fLead))
      let n := ((countedScopes s r).filterMap fun τ => (rowView s r τ).lb).foldl (fun m lb => min m (cap lb (2 ^ 30 - 1))) own
      Completes (.tick d a) s 4 fun s u => ∃ m, getF m r fPhase = (p + n) % 2 ^ 32 ∧ OnlyMem s m ∧ BytesKept s m (rowDpa r + 0x20) 4 ∧
        WritesS m u r d.toNat (BitVec.ofNat 64 n)) ∧
    ((ownScope s r).2 = false → Traps (.tick d a) s ⟨0x06, 0x03, getF s r fVt % 2 ^ 48, 0⟩) ∧
    (op = .ok σ → above view.lb (src s b % 2 ^ 32) →
      Gives (.waitlb d a b) s d (BitVec.ofNat 64 (view.lb.getD (2 ^ 32))) 4)

/-- R218, R227, R228: FENCE of a row that has no wet entry and no unanswered direct access with a home in the scope commits at once. With an
entry whose home lies in the scope, or an unanswered access there, it waits with WHY 1, bounded; each entry there that has not been sent to
dry is dried early: it stands as sent, and is on its way to its home. FENCEX with fewer than eight outstanding commits at once and records its
sets. -/
def Claim.Fences : Prop :=
  ∀ (s : State) (a : Reg) (sets : BitVec 32) (σ : Nat),
    let r := s.clk.cur
    scopeOperand s r (getS s r a.toNat) = .ok σ →
    let q := (scopeRect s (partOf s r) σ).getD wholeRect
    let mine := fun (w : Wet) => w ∈ s.ms.wet ∧ w.row = r ∧ homeIn (w.line * 64) q = true
    ((∀ w, ¬ mine w) → (∀ e ∈ s.ms.reqs, e.2.row = r → e.2.path = .T → ∀ x ∈ e.2.elems, homeIn x.addr q = false) →
      exec (.fence a) s = .next (finish s r 4)) ∧
    ((∃ w, mine w ∧ w.id < s.clk.ids) →
      Leaves (.fence a) s 1 4 fun t => (tabGet t.rows.waits r).map Wait.bounded = some true ∧ t.regs = s.regs ∧ t.mem = (setCode s r 4 1).mem ∧
        ∀ w, mine w → w.stage < 2 → { w with stage := 2, early := true } ∈ t.ms.wet ∧
          Due t (.driedStoreApply w.id) (s.clk.now + oneWay w.ex (w.line * 64))) ∧
    ((∃ e ∈ s.ms.reqs, e.2.row = r ∧ e.1 < s.clk.ids ∧ e.2.path = .T ∧ ∃ x ∈ e.2.elems, homeIn x.addr q = true) →
      Leaves (.fence a) s 1 4 fun t => (tabGet t.rows.waits r).map Wait.bounded = some true ∧ t.regs = s.regs) ∧
    ((fencexOpen s r).length < 8 → Completes (.fencex a sets) s 12 fun s u =>
      (∃ f ∈ u.ms.fencex, f.row = r ∧ f.scope = σ ∧ f.before = sets.toNat % 2 ^ 7 ∧ f.after = sets.toNat / 2 ^ 8 % 2 ^ 7) ∧
      u.mem = s.mem ∧ u.regs = s.regs)

/-- R229, own row: ST.DRY of a row with nothing outstanding stores the low bytes of S[b] and commits; with a wet entry whose home lies in the
scope it waits first, with WHY 1, as FENCE does. -/
def Claim.DryStores : Prop :=
  ∀ (s : State) (o : StDry) (σ : Nat), isOpen s s.clk.cur = true →
    let r := s.clk.cur
    let n := 2 ^ o.w.toNat
    let g := memSeg s o.mem
    let off := memOff s o.mem
    scopeOperand s r (getS s r o.c.toNat) = .ok σ →
    OwnSpan s g off n n true → 0x100 ≤ g.base + off.toNat → g.base + off.toNat < 0x640 ∨ 0x700 ≤ g.base + off.toNat →
    ((∀ w ∈ s.ms.wet, w.row ≠ r) → (∀ e ∈ s.ms.reqs, e.2.row ≠ r) →
      Completes (.stDry o) s 12 fun s u =>
        memNat u.mem (ownAddr s g off) n = src s o.b % 2 ^ (8 * n) ∧ BytesKept s u (ownAddr s g off) n ∧ u.regs = s.regs) ∧
    ((∃ w ∈ s.ms.wet, w.row = r ∧ w.id < s.clk.ids ∧ homeIn (w.line * 64) ((scopeRect s (partOf s r) σ).getD wholeRect) = true) →
      Leaves (.stDry o) s 1 12 fun t => (tabGet t.rows.waits r).map Wait.bounded = some true ∧ t.regs = s.regs)

/-! ### Rows: commands, row instructions, slots (R83 to R103) -/

/-- R84, R85: on a row of no region with nothing pending and in a context that is in use, every well-formed command has the outcome of the
table in STATE.LSTAT; CMD and ATAG take it for DONE and NOCHANGE alone; a row that is neither RUNNING nor WAITING goes to the
table's state, and WAKE makes a row of an unbounded wait RUNNING. -/
def Claim.CommandTable : Prop :=
  ∀ (s : State) (m : CmdMsg) (k : Nat),
    let r := m.row
    let c := getF s r fCode
    let i := ([Instr.start m, .stop m, .redirect m, .resume m, .kill m, .step m, .wakeCommand m, .priority m].getD (k - 1) .nop)
    1 ≤ k → k ≤ 8 → isThread s r = true → 1 ≤ c → c ≤ 8 → getF s r fPend = 0 → getF s r fRegion = 0 → s.rows.stepping = [] →
    tabGet s.rows.budgetStops r = none → ctxLive s (partOf s r) 0 = true → m.rsv = 0 →
    (if k = 8 then m.arg.toNat < 64 else m.arg = 0) →
    let unbounded := (tabGet s.rows.waits r).map Wait.bounded = some false
    let out := if k = 7 ∧ c = 4 ∧ unbounded then 0 else cmdOutcome k c
    ∃ t, exec i s = .next t ∧ getF t r fLstat = out ∧
      (if out ≤ 1 then getF t r fAtag = m.tag.toNat ∧ getF t r fCmd = k + m.arg.toNat * 2 ^ 8 + m.tag.toNat * 2 ^ 32
       else getF t r fAtag = getF s r fAtag ∧ getF t r fCmd = getF s r fCmd) ∧
      (c ≠ 3 → c ≠ 4 → getF t r fCode ∈ cmdState k c) ∧ (k = 7 → c = 4 → unbounded → getF t r fCode = 3) ∧ (k = 8 → c ≠ 8 → getF t r fPrio = m.arg.toNat)

/-- R85, R86: with a command pending, a further one is held behind it and changes nothing else; without, one with reserved bits or a bad
argument, or of an unknown code, is BADCODE, and one that needs a malformed region chain is BADREGION: only LSTAT changes, and a WATCH on CMD
looks at what the command leaves (R230). -/
def Claim.CommandsTurnedAway : Prop :=
  ∀ (s : State) (m : CmdMsg) (k : Nat) (code : BitVec 8),
    let r := m.row
    let c := codeOf s r
    let i := ([Instr.start m, .stop m, .redirect m, .resume m, .kill m, .step m, .wakeCommand m, .priority m, .badcode code m].getD (k - 1) .nop)
    let only := fun (out : Nat) => ∃ t, exec i s = .next (checkWatches t (rowDpa r) 8) ∧ getF t r fLstat = out ∧ OnlyMem s t ∧ BytesKept s t (rowDpa r + 0x08) 8 ∧
      getF t r fCode = getF s r fCode ∧ getF t r fPend = getF s r fPend ∧ getF t r fAtag = getF s r fAtag
    1 ≤ k → k ≤ 9 → isThread s r = true →
    (getF s r fPend = 1 → ∃ t e, exec i s = .next t ∧ e.ev = i ∧ t = { s with rows := { s.rows with held := s.rows.held ++ [(r, e)] } }) ∧
    (getF s r fPend = 0 →
      (k = 9 ∨ m.rsv ≠ 0 ∨ (k ≠ 8 ∧ m.arg ≠ 0) ∨ (k = 8 ∧ 64 ≤ m.arg.toNat) → only 3) ∧
      (m.rsv = 0 → (if k = 8 then m.arg.toNat < 64 else m.arg = 0) → chainOf s r = none →
        (k, c) ∈ [(1, 1), (3, 1), (3, 5), (3, 6), (3, 7), (4, 6), (4, 7), (6, 6), (6, 7), (7, 1), (7, 5), (8, 2)] → only 6))

/-- R84, R88: a pending STOP, REDIRECT or KILL meets the boundary of an open row of no region: STOPPED and closed, RUNNING at
TARGET with PROGRESS, COUNTS and both armed bits clear, or RETIRED; PEND is clear. -/
def Claim.CommandsLand : Prop :=
  ∀ (s : State) (r : Nat), isOpen s r = true → getF s r fPend = 1 → getF s r fRegion = 0 → s.rows.stepping.contains r = false →
    (∀ h ∈ s.rows.stepHeld, h.1 ≠ r) → tabGet s.rows.budgetStops r = none → tabGet s.rows.hashFault r = none →
    ∃ t, exec (.commandLands r) s = .next t ∧ getF t r fPend = 0 ∧
      (getF s r fCmdCode = 2 → getF t r fCode = 7 ∧ slotOf t r = none) ∧
      (getF s r fCmdCode = 3 → getF t r fCode = 3 ∧ getF t r fPc = getF s r fTarget ∧ getF t r fProgress = 0 ∧ getF t r fCounts = 0 ∧
        getF t r (fLoopArmed 0) = 0 ∧ getF t r (fLoopArmed 1) = 0) ∧
      (getF s r fCmdCode = 5 → getF t r fCode = 8 ∧ slotOf t r = none)

/-- R103: CTL, WAKE and the privileged ARM and DISARM send one direct access to CMD of the row they name, whose act is the command
word, WAKE, arming or disarming; with d other than s0 they wait with WHY 1 for the outcome, with s0 they go on at once. -/
def Claim.RowInstructionsReachRows : Prop :=
  ∀ (s : State) (d a b : Reg) (t : Nat),
    let r := s.clk.cur
    let word := getS s r b.toNat
    let sends := fun (i : Instr) (op : DirectOp) =>
      (d ≠ 0 → Leaves i s 1 4 fun u => Asked s u s.clk.ids op (.status d.toNat) true (rowDpa t) ∧ u.regs = s.regs) ∧
      (d = 0 → Completes i s 4 fun s u => Asked s u s.clk.ids op (.status 0) false (rowDpa t) ∧ u.mem = s.mem ∧ u.regs = s.regs)
    rowOperand s r (getS s r a.toNat) = .ok t →
    sends (.ctl d a b) (.ctl word) ∧ sends (.wake d a) (.ctl 7) ∧
    (isPriv s r = true → sends (.arm d a b) (.arm word) ∧ sends (.disarm d a) .disarm)

/-- R103, R400: a row operand must be aligned to 4,096, name a row of HBM and lie in the partition: ALIGN, SEG 0x03, and R183's causes
otherwise, FAULTADDR the operand; ARM and DISARM need PRIV first. -/
def Claim.RowOperandFaults : Prop :=
  ∀ (s : State) (d a b : Reg),
    let r := s.clk.cur
    let v := (getS s r a.toNat).toNat
    let at_ := fun (c x : Nat) => FaultRec.mk c x (v % 2 ^ 48) 2
    let all := fun (f : FaultRec) => Traps (.ctl d a b) s f ∧ Traps (.wake d a) s f ∧
      (isPriv s r = true → Traps (.arm d a b) s f ∧ Traps (.disarm d a) s f)
    (v % 4096 ≠ 0 → all (at_ 0x04 0)) ∧ (v % 4096 = 0 → placeOf v ≠ .hbm → all (at_ 0x02 0x03)) ∧
    (v % 4096 = 0 → placeOf v = .hbm → ∀ c x, dpaChecks s (partOf s r) (isPriv s r) true v = some (c, x) → all (at_ c x)) ∧
    (isPriv s r = false → Traps (.arm d a b) s (instrFault s r 0x05 0) ∧ Traps (.disarm d a) s (instrFault s r 0x05 0))

/-- SELF gives the row's DPA, its mesh place, its slot with partition and context, or its number (R103 and the SELF entry); SPAWN sends one
message to the executor that S[a] names, with the PC, four arguments and whether the row starts, and waits; undefined bits of S[a]
fault ILLOP. -/
def Claim.SelfAndSpawn : Prop :=
  ∀ (s : State) (d a b c : Reg) (sel : BitVec 7) (sub : BitVec 3),
    let r := s.clk.cur
    let own := homeOf r
    let v := src s a
    let x := v % 32
    let y := v / 256 % 32
    let ex := if (getS s r a.toNat).getLsbD 16 then exAt (exX own + x) (exY own + y) else exAt x y
    let args := [0, 1, 2, 3].map fun i => getS s r (c.toNat + i)
    (sel = 0 → Gives (.self d sel) s d (BitVec.ofNat 64 (r * 4096)) 4) ∧
    (sel = 1 → Gives (.self d sel) s d (BitVec.ofNat 64 (exX own + 256 * exY own)) 4) ∧
    (sel = 2 → Gives (.self d sel) s d (BitVec.ofNat 64 ((slotOf s r).getD 0 % 32 + 256 * partOf s r + 65536 * ctxOf s r)) 4) ∧
    (sel = 3 → Gives (.self d sel) s d (BitVec.ofNat 64 r) 4) ∧
    (v &&& (2 ^ 64 - 1 - 0x11F1F) ≠ 0 → Traps (.spawn d a b c sub) s (instrFault s r 0x01 0)) ∧
    (v &&& (2 ^ 64 - 1 - 0x11F1F) = 0 → Leaves (.spawn d a b c sub) s 1 12 fun u =>
      Asked s u s.clk.ids (.spawn (src s b % 2 ^ 40) args (sub == 0)) (.status d.toNat) true (exPage ex) ∧ u.regs = s.regs)

/-- PEEK (R91, R103, R400): a window offset that is misaligned or past 0xF00 faults ILLOP; a destination misaligned or outside 0x800 to 0xF00
faults ALIGN or SEG 0x01; a window of the row itself is copied at once, and the PEEK waits with WHY 1 as every PEEK does (R396) and completes in the
cycle after (log 29) with STATE as it was in S[d]; one of another row is asked for. -/
def Claim.Peeks : Prop :=
  ∀ (s : State) (d a b : Reg) (off : BitVec 32) (t : Nat), isOpen s s.clk.cur = true →
    let r := s.clk.cur
    let o := off.toNat
    let dst := src s b
    (o % 8 ≠ 0 ∨ 0xF00 < o → Traps (.peek d a b off) s (instrFault s r 0x01 0)) ∧
    (o % 8 = 0 → o ≤ 0xF00 →
      (dst % 8 ≠ 0 → Traps (.peek d a b off) s ⟨0x04, 0, dst % 2 ^ 48, 0⟩) ∧
      (dst % 8 = 0 → rowOperand s r (getS s r a.toNat) = .ok t →
        (dst < 0x800 ∨ 0xF00 < dst → Traps (.peek d a b off) s ⟨0x02, 0x01, dst % 2 ^ 48, 0⟩) ∧
        (0x800 ≤ dst → dst ≤ 0xF00 →
          (t = r → inHeader s (rowDpa r + dst) 256 = false → Yields (.peek d a b off) s fun u =>
            (∀ i < 256, memByte u.mem (rowDpa r + dst + i) = memByte s.mem (rowDpa r + o + i)) ∧ Out_ u r 1 12 ∧
            BytesKept2 s u (rowDpa r + dst) 256 (rowDpa r + 8) 8 ∧ u.regs = s.regs ∧
            tabGet u.rows.longs r = some ⟨[⟨d.toNat, BitVec.ofNat 64 (rowNat s r 8 8)⟩], 0, none⟩ ∧
            ∃ e ∈ u.agenda, e.ev = .longInstructionComplete r ∧ e.due = s.clk.now + 1) ∧
          (t ≠ r → Leaves (.peek d a b off) s 1 12 fun u =>
            Asked s u s.clk.ids (.peek o) (.window d.toNat dst) true (rowDpa t) ∧ u.regs = s.regs))))

/-- QUIT, PARK and YIELD of an open row of no region with nothing pending and both loop levels disarmed (R84, R99, R275): QUIT retires it, PC on
the QUIT; PARK commits and leaves it PARKED with WHY 10, in no slot; YIELD goes on when no other row of the partition waits in the
executor's queue, and otherwise commits and makes the row READY, in no slot. -/
def Claim.GivingUpTheSlot : Prop :=
  ∀ (s : State),
    let r := s.clk.cur
    isOpen s r = true → getF s r fPend = 0 → getF s r fRegion = 0 → s.rows.stepping.contains r = false →
    getF s r (fLoopArmed 0) = 0 → getF s r (fLoopArmed 1) = 0 →
    (∃ t, exec .quit s = .next t ∧ getF t r fCode = 8 ∧ getF t r fPc = getF s r fPc ∧ slotOf t r = none ∧
      r ∈ tabGetD t.rows.pools (queueKey (exOf r) (partOf s r)) []) ∧
    (∃ t, exec .park s = .next t ∧ getF t r fCode = 1 ∧ getF t r fWhy = 10 ∧ getF t r fPc = (getF s r fPc + 4) % 2 ^ 40 ∧ slotOf t r = none) ∧
    (readyElse s r = false → exec .yield s = .next (finish s r 4)) ∧
    (readyElse s r = true → ∃ t, exec .yield s = .next t ∧ getF t r fCode = 2 ∧ getF t r fPc = (getF s r fPc + 4) % 2 ^ 40 ∧ slotOf t r = none)

/-- R97 to R100, R360: an opening ends after its 48 cycles with the row RUNNING and EPRIO 0; a hold that expires, in enabled cycles of the row's
executor, for a row of an unbounded wait, with another READY, makes it SLEEPING in no slot; an aging row that has not reached its ceiling goes up one level. -/
def Claim.OpeningHoldingAging : Prop :=
  ∀ (s : State) (ex k r since : Nat) (x : Slot) (w : Wait), isThread s r = true → getF s r fRegion = 0 →
    (tabGet s.rows.slots (ex * 32 + k) = some x → x.row = r → x.opening = true → x.openedAt + 48 ≤ s.clk.now → getF s r fCode = 2 →
      joinPending s r = false → stackHeld s (rowDpa r) = none → ctxActive s r = true →
      ∃ t, exec (.rowOpen ex k) s = .next t ∧ getF t r fCode = 3 ∧ getF t r fEprio = 0 ∧ getF t r fBeats = 0 ∧ t.regs = s.regs) ∧
    (tabGet s.rows.waits r = some w → w.since = since → w.bounded = false → since + holdOf s r ≤ enabledCycles s (exOf r) →
      clockOn s (exOf r) = true → getF s r fCode = 4 →
      readyElse s r = true → w.why < 16 →
      ∃ t, exec (.holdExpiry r since) s = .next t ∧ getF t r fCode = 5 ∧ getF t r fWhy = w.why ∧ slotOf t r = none ∧
        BytesKept s t (rowDpa r + 8) 8) ∧
    (tabGet s.rows.queuedAt r = some since → getF s r fEprio < 63 →
      ∃ t, exec (.priorityAging r since) s = .next t ∧ getF t r fEprio = getF s r fEprio + 1 ∧ BytesKept s t (rowDpa r + 0x58) 8 ∧
        (∃ e ∈ t.agenda, e.due = s.clk.now + 2 ^ 20 ∧ e.ev = .priorityAging r since))

/-! ### Faults, supervision, issue (R104 to R118, R334 to R357) -/

/-- R334 to R336 for an open row of no region with nothing pending, which POLICY 0 freezes: CAUSE, DETAIL, the saturating count and
FAULTADDR are written, the row is FROZEN and in no slot, PC stays on the instruction, the partition's FAULTS counts it, and every other byte
and register word is kept. -/
def Claim.FaultsFreezeTheRow : Prop :=
  ∀ (s : State) (r : Nat) (f : FaultRec) (major : Nat), isOpen s r = true → getF s r fPend = 0 → getF s r fRegion = 0 →
    f.cause < 256 → f.detail < 256 →
    let t := takeFault s r f major
    let a := supAt (partOf s r) + 0x48
    getF t r fCause = f.cause ∧ getF t r fDetail = f.detail ∧ getF t r fFaultNum = min (getF s r fFaultNum + 1) (2 ^ 32 - 1) ∧
    getF t r fFaultAddr = f.addr % 2 ^ 48 + f.space % 8 * 2 ^ 48 ∧ getF t r fCode = 6 ∧ getF t r fPc = getF s r fPc ∧ slotOf t r = none ∧
    regWord t a = (regWord s a + 1) % 2 ^ 64 ∧ (∀ b, b ≠ a → regWord t b = regWord s b) ∧
    BytesKept2 s t (rowDpa r + 0x08) 8 (rowDpa r + 0x48) 16

/-- R336, R337: under a POLICY of 2 or 3 with a supervisor a note leaves for it: header KIND 3 with the row as SENDER, the FAULT and
FAULTADDR words, and PC with the major opcode, the context and the policy; without a supervisor the words go to the partition's management
endpoint, as one packet of TXPKT (R384). The row's own bytes do not change. -/
def Claim.FaultNotes : Prop :=
  ∀ (s : State) (r major q : Nat), effPolicy s r = some q → 2 ≤ q →
    let t := faultPolicy s r major
    let tx := linkAt (partOf s r) 0
    let words := [BitVec.ofNat 64 (r * 2 ^ 32 + 3 * 2 ^ 60), BitVec.ofNat 64 (getF s r fFault), BitVec.ofNat 64 (getF s r fFaultAddr),
      BitVec.ofNat 64 (getF s r fPc + major % 256 * 2 ^ 40 + ctxOf s r * 2 ^ 48 + q * 2 ^ 51)]
    t.mem = s.mem ∧
    (supervisorOf s r ≠ 0 → t.regs = s.regs ∧ ∃ n ∈ t.msg.system, n.target = supervisorOf s r ∧ n.words = words ∧ n.part = partOf s r ∧
      ∃ e ∈ t.agenda, e.ev = .systemNoteRetry n.id) ∧
    (supervisorOf s r = 0 → regWord t tx = (regWord s tx + 1) % 2 ^ 64 ∧ (∀ b, b ≠ tx → regWord t b = regWord s b) ∧
      ∃ o ∈ t.hub.outputs, o.part = partOf s r ∧ o.words.drop 1 = (words.drop 1).map BitVec.toNat)

/-- R84, R338: the return from a fault. RESUME of a FROZEN row of no region with nothing pending that comes out READY has changed no byte of
the row beyond CMD, STATE and SCHED.EPRIO: PC, PROGRESS, the loop state and every register are kept. -/
def Claim.ResumeKeepsTheRow : Prop :=
  ∀ (s : State) (m : CmdMsg), isThread s m.row = true → getF s m.row fCode = 6 → getF s m.row fPend = 0 → getF s m.row fRegion = 0 →
    m.rsv = 0 → m.arg = 0 →
    Yields (.resume m) s fun t => getF t m.row fLstat = 0 ∧ (getF t m.row fCode = 2 ∨ getF t m.row fCode = 6) ∧
      (getF t m.row fCode = 2 → BytesKept2 s t (rowDpa m.row) 16 (rowDpa m.row + 0x58) 8)

/-- R354 to R356: TRAP faults with S[a] as detail and address; BEAT adds one to MISC.BEATS, which stays at 255; GTIME gives the hub's global
time, ahead of it by less than 5 ns whatever the free skew of log 12 is. -/
def Claim.TrapsBeatsAndTime : Prop :=
  ∀ (s : State) (d a : Reg),
    let r := s.clk.cur
    Traps (.trap a) s ⟨0x0B, src s a % 256, src s a % 2 ^ 48, 0⟩ ∧
    Completes .beat s 4 (fun s u => getF u r fBeats = min (getF s r fBeats + 1) 255 ∧ OnlyMem s u ∧ BytesKept s u (rowDpa r + 0x75) 1) ∧
    ∃ k < 5, Gives (.gtime d) s d (BitVec.ofNat 64 (s.hub.gtimeBase + 5 * s.clk.now / 12 + k)) 4

/-- R357: SWITCH, privileged: its status for every operand, a schedule's three fields, a cancellation's two. -/
def Claim.SwitchStatuses : Prop :=
  ∀ (s : State) (d a b : Reg),
    let r := s.clk.cur
    let p := partOf s r
    let v := src s a
    let t := src s b
    let pend := regBits s (supAt p) 3 1 = 1
    let tells := fun (n : Nat) => Gives (.switch d a b) s d (BitVec.ofNat 64 n) 4
    let undefined := v &&& (2 ^ 64 - 1 - 0x107) ≠ 0
    let cancel := v.testBit 8 = true
    let early := t < gtimeAt s (exOf r) + 10000
    let held := s.hub.heldParts.contains p = true
    (isPriv s r = false → Traps (.switch d a b) s (instrFault s r 0x05 0)) ∧
    (isPriv s r = true →
      (undefined → tells 4) ∧
      (¬ undefined → cancel → ¬ (pend ∧ tAnywhere s p = false) → tells 5) ∧
      (¬ undefined → cancel → pend → tAnywhere s p = false → Completes (.switch d a b) s 4 fun s u => ∃ m,
        OnlyReg s m (supAt p) ∧ regBits m (supAt p) 3 1 = 0 ∧ regBits m (supAt p) 8 3 = 2 ∧ WritesS m u r d.toNat 0) ∧
      (¬ undefined → ¬ cancel → (pend ∨ held) → tells 1) ∧
      (¬ undefined → ¬ cancel → ¬ pend → ¬ held → v % 8 = activeCtx s p → tells 3) ∧
      (¬ undefined → ¬ cancel → ¬ pend → ¬ held → v % 8 ≠ activeCtx s p → early → tells 2) ∧
      (¬ undefined → ¬ cancel → ¬ pend → ¬ held → v % 8 ≠ activeCtx s p → ¬ early → Completes (.switch d a b) s 4 fun s u => ∃ m,
        { m with regs := s.regs } = s ∧ (∀ x, x ≠ supAt p → x ≠ supAt p + 8 → regWord m x = regWord s x) ∧
        regWord m (supAt p + 8) = t ∧ regBits m (supAt p) 4 3 = v % 8 ∧ regBits m (supAt p) 3 1 = 1 ∧ WritesS m u r d.toNat 0))

/-- R104, R118 and the SLOTW, SLOTR entries: SLOTW is privileged and checks its operand; an image that breaks a rule answers its status one cycle
later (log 46), an entry above 31 that is neither 0x3E nor 0x3F always 3; a good one waits, and the install lays it over the table in force. SLOTR
reads the table and the governor's words, A_p and MSTALL as they stood when the cycle began. -/
def Claim.SlotTables : Prop :=
  ∀ (s : State) (d a : Reg) (ex : Nat),
    let r := s.clk.cur
    let v := src s a
    let p := partOf s r
    let image := (memRead s.mem (rowDpa r + v) 64).map BitVec.toNat
    let st := imageStatus s (exOf r) p image
    let bad := fun (c x : Nat) => FaultRec.mk c x (v % 2 ^ 48) 0
    let mine := s.iss.installs.filter fun x => x.ex == ex
    let g := govOf s (exOf r) p
    let word := fun (n : BitVec 7) (x : Nat) => Gives (.slotr d a n) s d (BitVec.ofNat 64 x) 4
    (isPriv s r = false → Traps (.slotw d a) s (instrFault s r 0x05 0)) ∧
    (isPriv s r = true → v % 64 ≠ 0 → Traps (.slotw d a) s (bad 0x04 0)) ∧
    (isPriv s r = true → v % 64 = 0 → v < 0x800 ∨ 0xFC0 < v → Traps (.slotw d a) s (bad 0x02 0x01)) ∧
    (isPriv s r = true → v % 64 = 0 → 0x800 ≤ v → v ≤ 0xFC0 →
      ((∃ e ∈ image, 32 ≤ e ∧ e ≠ 0x3E ∧ e ≠ 0x3F) → st = 3) ∧
      (st ≠ 0 → GoesLong (.slotw d a) s 2 4 1 ⟨[⟨d.toNat, BitVec.ofNat 64 st⟩], 0, none⟩) ∧
      (st = 0 → Leaves (.slotw d a) s 2 4 fun t => t.iss.installs = s.iss.installs ++ [⟨r, exOf r, d.toNat, image⟩] ∧ t.regs = s.regs)) ∧
    (mine ≠ [] → ∃ u, exec (.slotTableInstall ex) s = .next (mine.foldl (fun s x => answerRow s x.row [⟨x.d, 0⟩] 0) u) ∧
      tabGet u.iss.tables ex = some (tableAfter s ex) ∧ (∀ x ∈ u.iss.installs, x.ex ≠ ex) ∧ { u with iss := s.iss } = s) ∧
    word 0 (if entryOwner s (v % 64) = p then (slotTable s (exOf r)).getD (v % 64) 0 else 0x3E) ∧
    word 1 (budgetOf s (exOf r) p + ceilOf s (exOf r) p * 2 ^ 16 + effOf s (exOf r) * 2 ^ 32) ∧
    word 2 (if g.chargedAt = s.clk.now then g.accBefore else g.acc) ∧
    word 8 ((g.mstall + 2 ^ 64 - (if g.stalledAt = s.clk.now then g.stalled else 0)) % 2 ^ 64) ∧
    word 3 (dutyOf s (exOf r)) ∧ word 4 g.issued ∧ word 5 g.lent ∧ word 6 g.gblock ∧ word 7 g.forfeit ∧ word 9 g.gated

/-- R97, R112, R114, R118: BUDGET, privileged, clamps S[a] between 16 and C_p, sets it for the next window and gives it; PRIO writes a
priority up to 63 and gives the old one, or all ones for a greater operand; PRIO.r gives both priorities; a window start takes the new
budget and drains the accumulator by it, and a blocked, forfeited or gated cycle is counted. -/
def Claim.BudgetsAndPriorities : Prop :=
  ∀ (s : State) (d a : Reg) (ex : Nat),
    let r := s.clk.cur
    let p := partOf s r
    let nb := min (max (src s a) 16) (ceilOf s (exOf r) p)
    let q := entryOwner s (enabledCycles s ex % 64)
    let counts := fun (why : Nat) (f : Gov → Nat) =>
      q < 32 → f (govOf s ex q) < 2 ^ 64 - 1 → Yields (.issueCycle ex why) s fun t => f (govOf t ex q) = f (govOf s ex q) + 1 ∧
        { t with iss := s.iss } = s ∧ ∀ k, k ≠ ex * 32 + q → tabGet t.iss.gov k = tabGet s.iss.gov k
    (isPriv s r = false → Traps (.budget d a) s (instrFault s r 0x05 0)) ∧
    (isPriv s r = true → Completes (.budget d a) s 4 fun s u => ∃ m, (govOf m (exOf r) p).pending = some nb ∧ { m with iss := s.iss } = s ∧
      WritesS m u r d.toNat (BitVec.ofNat 64 nb)) ∧
    (src s a ≤ 63 → Completes (.prio d a) s 4 fun s u => ∃ m, getF m r fPrio = src s a ∧ getF m r fEprio = getF s r fEprio ∧ OnlyMem s m ∧
      BytesKept s m (rowDpa r + 0x58) 1 ∧ WritesS m u r d.toNat (BitVec.ofNat 64 (getF s r fPrio))) ∧
    (63 < src s a → Gives (.prio d a) s d (BitVec.ofNat 64 (2 ^ 64 - 1)) 4) ∧
    Gives (.prioRead d) s d (BitVec.ofNat 64 (getF s r fPrio + getF s r fEprio * 64)) 4 ∧
    (∀ g, s.iss.gov = [(ex * 32 + p, g)] → p < 32 → Yields (.governorWindow ex) s fun t =>
      effOf t ex = regBits s (exPower ex) 0 13 ∧
      (govOf t ex p).budget = ((if g.pending.isSome then g.pending else g.budget).map fun b => min b (ceilOf t ex p)) ∧
      (govOf t ex p).pending = none ∧ (govOf t ex p).acc = g.acc - budgetOf t ex p ∧ { t with iss := s.iss } = s) ∧
    counts 1 Gov.gated ∧ counts 3 Gov.gblock ∧ counts 4 Gov.forfeit

/-- R341 to R343: a persistent open row whose window has ended without a beat takes WATCHDOG 1 on the instruction about to issue, one that has
made a beat begins a new window; a row at its instruction limit takes WATCHDOG 2, another is left alone. -/
def Claim.Watchdogs : Prop :=
  ∀ (s : State) (r since w : Nat),
    let fires := fun (d : Nat) => Host.Outcome.next (takeFault s r ⟨0x0A, d, (instrAddr s r).1, (instrAddr s r).2⟩ (majorAt s r))
    let ended := isOpen s r = true ∧ tabGet s.rows.windowAt r = some since ∧ getF s r fPersist = 1 ∧ effWpers s r = some w ∧ w ≠ 0 ∧
      since + w ≤ enabledCycles s (exOf r)
    (ended → getF s r fBeats = 0 → codeOf s r = 3 → exec (.watchdogWindowEnd r since) s = fires 1) ∧
    (ended → getF s r fBeats ≠ 0 → Yields (.watchdogWindowEnd r since) s fun t =>
      getF t r fBeats = 0 ∧ tabGet t.rows.windowAt r = some (enabledCycles s (exOf r)) ∧ BytesKept s t (rowDpa r + 0x75) 1) ∧
    (effIlimit s r = some w → getF s r fPersist = 0 → w ≠ 0 → w ≤ tabGetD s.rows.icount r 0 → exec (.instructionLimit r) s = fires 2) ∧
    (effIlimit s r = some w → getF s r fPersist = 1 ∨ w = 0 ∨ tabGetD s.rows.icount r 0 < w → exec (.instructionLimit r) s = .next s)

/-- R339, R344 to R352, R356: a scheduled switch that reaches its time is taken to the hub's decision 256 cycles later; a
decision whose areas are too small is SHORT, gives nothing over and clears PEND. One whose areas suffice is DONE: ACTIVE := NEXT, PEND := 0,
LAST := 0, SWT kept; the outgoing context's wet entries move to the spill area, its copies stop with their records out, and its messages
in flight drop into its cloths; the incoming context's copies have their records back, its rows lose CTXOUT and the READY ones of its wake lists
enter the queues (of an incoming context with no row that sleeps on a WATCH and no message in a cloth). A context ends by order with code 5; a
suspend begins only in SERVICE, a resume only in STILL; the replicas' correction changes nothing (log 12). -/
def Claim.SwitchesAndSuspends : Prop :=
  ∀ (s : State) (p c t ex : Nat) (w : Switching),
    (switchPending s p = true → tAnywhere s p = true → switchOf s p = none → Yields (.switchTCycle p) s fun u =>
      (switchOf u p).map Switching.out = some (activeCtx s p) ∧ (∃ e ∈ u.agenda, e.due = s.clk.now + 256 ∧ e.ev = .switchDecision p) ∧
      u.mem = s.mem ∧ u.regs = s.regs) ∧
    (switchOf s p = some w → w.decided = false → switchFits s p w.out = false → Yields (.switchDecision p) s fun u =>
      regBits u (supAt p) 3 1 = 0 ∧ regBits u (supAt p) 8 3 = 1 ∧ activeCtx u p = activeCtx s p ∧ u.mem = s.mem ∧
      (∀ a, a ≠ supAt p → regWord u a = regWord s a) ∧ (switchOf u p).map Switching.short = some true) ∧
    (let next := regBits s (supAt p) 4 3
     let coming := fun (r : Nat) => r ∈ s.rows.kinds ∧ partOf s r = p ∧ ctxOf s r = next
     switchOf s p = some w → w.decided = false → switchFits s p w.out = true → p < 32 → w.out < 8 → w.out ≠ next → s.hub.suspended = [] →
     (∀ r, coming r → ¬ (getF s r fCode = 5 ∧ getF s r fWhy = 6)) → tabGetD s.hub.cloths (p * 8 + next) [] = [] →
     Yields (.switchDecision p) s fun u =>
      activeCtx u p = next ∧ regBits u (supAt p) 3 1 = 0 ∧ regBits u (supAt p) 8 3 = 0 ∧ regWord u (supAt p + 8) = regWord s (supAt p + 8) ∧
      (switchOf u p).map (fun x => (x.decided, x.short)) = some (true, false) ∧
      (∀ e ∈ s.ms.wet, e.part = p → e.ctx = w.out → { e with spilled := true } ∈ u.ms.wet) ∧
      (∀ x ∈ u.eng.copies, x.part = p → (x.ctx = w.out → x.out = true) ∧ (x.ctx = next → x.out = false)) ∧
      (∀ e ∈ s.agenda, caught p w.out e = true → ∃ x ∈ tabGetD u.hub.cloths (p * 8 + w.out) [], x.ev = e.ev) ∧
      (∀ e ∈ u.agenda, caught p w.out e = false) ∧
      (∀ r, coming r → getF u r fCtxOut = 0) ∧
      (∀ e ∈ s.rows.wakes, e.1 / 8 % 32 = p → e.1 % 8 = next → ∀ r ∈ e.2, coming r → getF s r fCode = 2 →
        r ∈ tabGetD u.rows.queue (queueKey (exOf r) p) [])) ∧
    (p < 32 → ctxLive s p (c % 8) = true → exec (.contextEndOrder p c) s = .next (contextEnd s p (c % 8) 5)) ∧
    (p < 32 → ctxLive s p (c % 8) = false → exec (.contextEndOrder p c) s = .next s) ∧
    (pstate s = 2 → Yields (.suspend t) s fun u => pstate u = 6 ∧ OnlyReg { s with agenda := u.agenda, clk := u.clk, hub := { s.hub with suspendT := some t } } u powerAt ∧
      ∃ e ∈ u.agenda, e.due = s.clk.now ∧ e.ev = .suspend t) ∧
    (pstate s ≠ 2 → pstate s ≠ 6 → exec (.suspend t) s = .next s) ∧
    (pstate s = 5 → Yields (.resumeModule t) s fun u => pstate u = 7 ∧
      ∃ e ∈ u.agenda, s.clk.now < e.due ∧ e.due ≤ s.clk.now + 144000000 ∧ e.ev = .resumeModule t) ∧
    (pstate s ≠ 5 → pstate s ≠ 7 → exec (.resumeModule t) s = .next s) ∧
    exec (.gtimeCorrection ex) s = .next s

/-! ### Notes, channels, racks, diffusing termination (R234 to R256) -/

/-- R103, R240, R382: NOTE to a row or to a host endpoint of the own partition. An engaging note at DEFICIT 63 answers 2; otherwise the
header with the row's phase, number and kind and the three data words leave for the target's inbox, an engaging one takes a unit of
DEFICIT, and the row waits with WHY 1 unless d is s0. X form, with its sign-extended immediate or S[b+2] as the third word, and literal form. -/
def Claim.NotesLeave : Prop :=
  ∀ (s : State) (o : SendX) (p : SendL) (t : Nat),
    let r := s.clk.cur
    let send := fun (i : Instr) (a d : Reg) (w1 w2 w3 : Word) (eng : Bool) (len : Nat) =>
      let full := eng = true ∧ getF s r fDeficit = 63
      let sent := fun (u : State) =>
        (∃ q, tabGet u.ms.reqs s.clk.ids = some q ∧ q.elems.map Elem.addr = [t + 0x700] ∧
          q.op = .note (BitVec.ofNat 64 (getF s r fPhase + r * 2 ^ 32 + (if eng then 2 else 1) * 2 ^ 60)) w1 w2 w3 eng) ∧
        (∃ f ∈ u.msg.fly, f.id = s.clk.ids ∧ f.row = r ∧ f.stamp = getF s r fPhase) ∧
        Due u (.noteLanding s.clk.ids) (s.clk.now + oneWay (exOf r) (t + 0x700)) ∧
        getF u r fDeficit = getF s r fDeficit + flag01 eng ∧ u.regs = s.regs
      (∀ f, noteTarget s r (getS s r a.toNat) = .error f → Traps i s f) ∧
      (noteTarget s r (getS s r a.toNat) = .ok t →
        (full → Gives i s d 2 len) ∧
        (¬ full → d = 0 → Completes i s len fun s u => sent u ∧ BytesKept s u (rowDpa r + 0x60) 8) ∧
        (¬ full → d ≠ 0 → Yields i s fun u => Out_ u r 1 len ∧ sent u ∧ BytesKept2 s u (rowDpa r + 0x08) 8 (rowDpa r + 0x60) 8))
    let w := fun (b : Reg) (i : Nat) => getS s r (b.toNat + i)
    send (.note o) o.a o.d (w o.b 0) (w o.b 1) (if bitAt o.sub.toNat 0 then o.imm.signExtend 64 else w o.b 2) (bitAt o.sub.toNat 1) 12 ∧
    send (.noteXl p) p.a p.d (w p.b 0) (w p.b 1) p.lit (bitAt p.sub.toNat 1) 20

/-- R235, R236, R239: a note for a row, which nothing holds, lands in the ring of its inbox when that row has room, and TAIL advances
by one; the answer is 0 LANDED, 1 FULL when eight notes stand there, 3 GONE for a retired row, 4 NOTROW for a data row. -/
def Claim.NotesLand : Prop :=
  ∀ (s : State) (r : Nat) (w : List Word), w.length = 4 →
    let hdr := (w.getD 0 0).toNat
    let kind := bitsAt hdr 60 3
    let x := landNote s r w
    (isThread s r = false → x = (s, 4)) ∧ (isThread s r = true → getF s r fCode = 8 → x = (s, 3)) ∧
    (isThread s r = true → getF s r fCode ≠ 8 → 8 ≤ inboxCount s r → x = (s, 1)) ∧
    (isThread s r = true → getF s r fCode ≠ 8 → inboxCount s r < 8 →
      let t := x.1
      let at_ := 0x700 + 32 * (getF s r fTail % 8)
      x.2 = 0 ∧ getF t r fTail = (getF s r fTail + 1) % 16 ∧ getF t r fHead = getF s r fHead ∧
      rowNat t r at_ 8 = (if noteGated s r (bitsAt hdr 32 28) kind then setBits hdr 63 1 1 else hdr) ∧
      (∀ i, 1 ≤ i → i ≤ 3 → rowNat t r (at_ + 8 * i) 8 = (w.getD i 0).toNat) ∧
      (kind = 2 → getF s r fEng = 0 → bitsAt hdr 32 28 ≠ r → getF t r fEng = 1 ∧ getF t r fParent = bitsAt hdr 32 28) ∧
      (kind ≠ 2 → t.agenda = s.agenda) ∧ t.regs = s.regs)

/-- R235: the event of a landing applies the note at its target as one access, answers, and takes the note out of those in flight. -/
def Claim.NoteLandingActs : Prop :=
  ∀ (s : State) (id : Nat) (q : Req) (e : Elem) (h w1 w2 w3 : Word) (g : Bool),
    tabGet s.ms.reqs id = some q → q.elems = [e] → q.whole = false → q.op = .note h w1 w2 w3 g → placeOf e.addr = .hbm →
    s.ms.forwards = [] → placeLost s q e.addr = false → s.lines.latent = [] →
    holdFor s q e e.addr = .free → s.ms.watches = [] → s.rows.wiped.contains (e.addr / 4096) = true →
    tabGetD s.rows.activations (e.addr / 4096) 0 < 4095 →
    Yields (.noteLanding id) s fun t =>
      t.mem = (landNote s (e.addr / 4096) [h, w1, w2, w3]).1.mem ∧ (∀ f ∈ t.msg.fly, f.id ≠ id) ∧
      (∃ p, tabGet t.ms.reqs id = some p ∧ p.elems.map Elem.got = [some (landNote s (e.addr / 4096) [h, w1, w2, w3]).2]) ∧
      Due t (.memoryReply id) (s.clk.now + oneWay q.ex e.addr)

/-- R238: a system note lands as any note does when its target row of the same partition has room; with a full inbox, or while the stack of its target is
under sequencer reset (R393; that it is then offered as to a full inbox is log 75), it stays and is offered again 1,024 cycles later; with a command pending
at the row it is held behind that (R86); with a data row, a retired row or a row of another partition it goes to the management endpoint. -/
def Claim.SystemNotes : Prop :=
  ∀ (s : State) (id : Nat) (n : SysNote), (s.msg.system.find? fun n => n.id == id) = some n → n.id = id → s.ms.watches = [] →
    let r := n.target
    (isThread s r = true → getF s r fPend = 1 → Yields (.systemNoteRetry id) s fun t => ∃ x, x.ev = .systemNoteRetry id ∧
      t = { s with rows := { s.rows with held := s.rows.held ++ [(r, x)] } }) ∧
    (getF s r fPend = 0 →
    (isThread s r = true → getF s r fCode ≠ 8 → partOf s r = n.part → inboxCount s r < 8 → stackHeld s (rowDpa r) = none →
      Yields (.systemNoteRetry id) s fun t => t.mem = (landNote s r n.words).1.mem ∧ ∀ m ∈ t.msg.system, m.id ≠ id) ∧
    (isThread s r = true → getF s r fCode ≠ 8 → partOf s r = n.part → 8 ≤ inboxCount s r ∨ stackHeld s (rowDpa r) ≠ none →
      Yields (.systemNoteRetry id) s fun t => t.mem = s.mem ∧ n ∈ t.msg.system ∧ Due t (.systemNoteRetry id) (s.clk.now + 1024)) ∧
    (isThread s r = false ∨ getF s r fCode = 8 ∨ partOf s r ≠ n.part →
      Yields (.systemNoteRetry id) s fun t => t.mem = s.mem ∧ (∀ m ∈ t.msg.system, m.id ≠ id) ∧
        ∃ o ∈ t.hub.outputs, o.part = n.part ∧ o.entry = 0 ∧ o.kind = 0 ∧ o.words.tail = (n.words.drop 1).map BitVec.toNat))

/-- R115, R237, R241: RECV and RECVQ deliver the chosen note: those before it move one place back, its four words go to S[d..d+3], HEAD
advances and a beat is counted. With none deliverable RECV waits, unbounded, with WHY 3, and RECVQ writes 0 to S[d]; a privileged row with an empty inbox
loses EXEMPT (that its inbox must be empty, and not only hold no deliverable note, is log 20). -/
def Claim.Receiving : Prop :=
  ∀ (s : State) (d : Reg),
    let r := s.clk.cur
    let both := fun (P : Instr → Prop) => P (.recv d) ∧ P (.recvq d)
    let exempt := if isPriv s r = true ∧ inboxCount s r = 0 then 0 else getF s r fExempt
    (∀ m, choosePos s r = some m → both fun i => Completes i s 4 fun s u => ∃ q k,
      (∀ j ≤ m, ∀ b < 32, memByte q.mem (rowDpa r + inboxAt s r j + b) =
        memByte s.mem (rowDpa r + inboxAt s r (if j = 0 then m else j - 1) + b)) ∧
      OnlyMem s q ∧ BytesKept s q (rowDpa r + 0x700) 256 ∧
      WritesS4 q k r d.toNat (fun j => BitVec.ofNat 64 (rowNat s r (inboxAt s r m + 8 * j) 8)) ∧
      getF u r fHead = (getF k r fHead + 1) % 16 ∧ getF u r fBeats = min (getF k r fBeats + 1) 255 ∧ OnlyMem k u ∧
      BytesKept2 k u (rowDpa r + 0x68) 8 (rowDpa r + 0x70) 8) ∧
    (choosePos s r = none → Completes (.recvq d) s 4 fun s u => ∃ m, getF m r fExempt = exempt ∧ OnlyMem s m ∧
      BytesKept s m (rowDpa r + 0x70) 8 ∧ WritesS m u r d.toNat 0) ∧
    (choosePos s r = none → getF s r fPend = 0 → ctxActive s r = true → BlockApart s r →
      Yields (.recv d) s fun t => getF t r fCode = 4 ∧ getF t r fWhy = 3 ∧ getF t r fExempt = exempt ∧
        (∃ w, tabGet t.rows.waits r = some w ∧ w.bounded = false ∧ w.cond = .note) ∧
        BytesKept2 s t (rowDpa r + 0x08) 8 (rowDpa r + 0x70) 8 ∧ t.regs = s.regs)

/-- R242, R243, R245: the oldest word of an output FIFO leaves for the row DOWN named when it was pushed, once that row's input FIFO
has room; with none it tries again a cycle later. An arriving word binds the receiver's endpoint and joins its input FIFO, waits while no
endpoint of that executor is free, or is counted and dropped when the row has retired (counted in CHDROP of the receiver's executor: log 49). -/
def Claim.ChannelWords : Prop :=
  ∀ (s : State) (r t : Nat) (v : Word) (rest : List (Nat × Word)) (e : Endpoint), endOf s r = some e →
    let live := isThread s t = true ∧ getF s t fCode ≠ 8
    let room := endRoom s t = true ∧ ((endOf s t).map fun x => x.inp.length).getD 0 + movingTo s t < 16
    (e.out = (t, v) :: rest → live → ¬ room → Yields (.channelWordSend r) s fun u =>
      endOf u r = some e ∧ (∃ x ∈ u.agenda, x.ev = .channelWordSend r ∧ x.due = s.clk.now + 1) ∧ u.mem = s.mem) ∧
    (e.out = (t, v) :: rest → room ∨ ¬ live → Yields (.channelWordSend r) s fun u =>
      (∃ f, endOf u r = some f ∧ f.out = rest ∧ f.moving = e.moving ++ [(t, v)] ∧ f.inp = e.inp ∧ f.bound = e.bound) ∧
      Due u (.channelWordArrival r) (s.clk.now + 4 * hops (homeOf r) (homeOf t)) ∧ u.mem = s.mem ∧ u.regs = s.regs) ∧
    (e.moving = (t, v) :: rest → live → endRoom s t = false → Yields (.channelWordArrival r) s fun u =>
      endOf u r = some e ∧ (∃ x ∈ u.agenda, x.ev = .channelWordArrival r ∧ x.due = s.clk.now + 1) ∧ u.mem = s.mem ∧ u.regs = s.regs) ∧
    (e.moving = (t, v) :: rest → t ≠ r → live → endRoom s t = true → Yields (.channelWordArrival r) s fun u =>
      (endOf u t).map Endpoint.inp = some (((endOf s t).map Endpoint.inp).getD [] ++ [v]) ∧ (endOf u t).map Endpoint.bound = some true ∧
      (endOf u r).map Endpoint.moving = some rest ∧ u.mem = s.mem ∧ u.regs = s.regs) ∧
    (e.moving = (t, v) :: rest → ¬ live → Yields (.channelWordArrival r) s fun u =>
      (endOf u r).map Endpoint.moving = some rest ∧ u.mem = s.mem ∧
      regWord u (rackWord (exOf t) (partOf s r) 0x30) = (regWord s (rackWord (exOf t) (partOf s r) 0x30) + 1) % 2 ^ 64)

/-- R246, R247: a sketch pushed into a rack whose entries stand in rack order, PRIO highest first and then newest first, leaves the rack in that
order, with all it held. -/
def Claim.RackOrder : Prop :=
  ∀ (l : List RackEntry) (e : RackEntry), l.Pairwise (fun x y => leads x y = true) → (∀ x ∈ l, x.order < e.order) →
    (rackIns l e).Pairwise (fun x y => leads x y = true) ∧ (rackIns l e).Perm (e :: l)

/-- R250: KPUSH to the own executor's rack. A sketch of CODE 0 answers 2 and an engaging one at DEFICIT 63 answers 3, placing nothing. With room the
sketch enters in rack order and the answer is 0, an engaging one taking a unit of DEFICIT. With no room here and none that a block could make in
the racks above, the answer is 1 and the unit is returned. A rack of another executor, studio or stack is asked by a message; a name with reserved bits or LEVEL 3,
and a sketch with reserved bits, fault ILLOP. X form, with ARG replaced by the immediate or not, and literal form. -/
def Claim.SketchPushes : Prop :=
  ∀ (s : State) (o : SendX) (p : SendL),
    let r := s.clk.cur
    let ex := exOf r
    let k := rackKey 0 ex (partOf s r)
    let push := fun (i : Instr) (d a : Reg) (sk : List Word) (eng : Bool) (len : Nat) =>
      let name := if a = 0 then some (ex, 0) else rackName ex (src s a)
      let bad := bitsAt (sk.getD 0 0).toNat 40 24 ≠ 0
      let ok := ¬ bad ∧ bitsAt (sk.getD 0 0).toNat 0 40 ≠ 0 ∧ ¬ (eng = true ∧ getF s r fDeficit = 63)
      let e : RackEntry := ⟨sk, ctxOf s r, s.msg.pushes, if eng then some r else none⟩
      (name = none ∨ bad → Traps i s (instrFault s r 0x01 0)) ∧
      (name ≠ none → ¬ bad → bitsAt (sk.getD 0 0).toNat 0 40 = 0 → Gives i s d 2 len) ∧
      (name ≠ none → ¬ bad → bitsAt (sk.getD 0 0).toNat 0 40 ≠ 0 → eng = true → getF s r fDeficit = 63 → Gives i s d 3 len) ∧
      (name = some (ex, 0) → ok → rackCount s k + 1 + blockSize s (partOf s r) ≤ rackShare s k → Completes i s len fun s u => ∃ m,
        tabGetD m.msg.racks k [] = rackIns (tabGetD s.msg.racks k []) e ∧ getF m r fDeficit = getF s r fDeficit + flag01 eng ∧
        BytesKept s m (rowDpa r + 0x60) 8 ∧ m.regs = s.regs ∧ m.agenda = s.agenda ∧ WritesS m u r d.toNat 0) ∧
      (name = some (ex, 0) → ok → rackShare s k ≤ rackCount s k → moveUp s (ctxOf s r) 3 k = none → (∀ m ∈ s.msg.moves, m.src ≠ k) →
        Completes i s len fun s u => ∃ m, m.msg = s.msg ∧ m.agenda = s.agenda ∧ getF m r fDeficit = getF s r fDeficit ∧
          BytesKept s m (rowDpa r + 0x60) 8 ∧ WritesS m u r d.toNat 1) ∧
      (∀ t lvl, name = some (t, lvl) → (t, lvl) ≠ (ex, 0) → ok →
        let asked := fun (u : State) => (∃ q ∈ u.msg.rackOps, q.id = s.clk.ids ∧ q.row = r ∧ q.rack = rackAtLevel t lvl (partOf s r) ∧ q.d = d.toNat ∧
            q.push.map RackEntry.sketch = some sk ∧ q.wait = false) ∧
          Due u (.remoteRackOperation s.clk.ids) (s.clk.now + rackWay ex t lvl) ∧ getF u r fDeficit = getF s r fDeficit + flag01 eng ∧ u.regs = s.regs
        (d = 0 → Completes i s len fun s u => asked u ∧ BytesKept s u (rowDpa r + 0x60) 8) ∧
        (d ≠ 0 → Yields i s fun u => Out_ u r 1 len ∧ asked u ∧ BytesKept2 s u (rowDpa r + 0x08) 8 (rowDpa r + 0x60) 8))
    let w := fun (b : Reg) (i : Nat) => getS s r (b.toNat + i)
    let arg := fun (b : Reg) (v : Nat) => BitVec.ofNat 64 (setBits (w b 3).toNat 16 48 v)
    push (.kpush o) o.d o.a [w o.b 0, w o.b 1, w o.b 2, if bitAt o.sub.toNat 0 then arg o.b o.imm.toNat else w o.b 3] (bitAt o.sub.toNat 1) 12 ∧
    push (.kpushXl p) p.d p.a [w p.b 0, w p.b 1, w p.b 2, arg p.b (p.lit.toNat % 2 ^ 48)] (bitAt p.sub.toNat 1) 20

/-- R247, R251: TAKE of the own rack takes the first entry of the row's context with s0, the last one when S[a] names the rack, into S[d..d+3],
counts a beat and engages the row; with none there, and with s0 none in the racks above, it gives 0. A rack elsewhere is asked for its last entry; a bad name
faults ILLOP. -/
def Claim.SketchTakes : Prop :=
  ∀ (s : State) (d a : Reg),
    let r := s.clk.cur
    let ex := exOf r
    let k := rackKey 0 ex (partOf s r)
    let mine := rackOf s k (ctxOf s r)
    let named := a ≠ 0 ∧ rackName ex (src s a) = some (ex, 0)
    (∀ e, (a = 0 ∧ mine.head? = some e) ∨ (named ∧ mine.getLast? = some e) → Completes (.take d a) s 4 fun s u => ∃ m,
      (∀ x ∈ tabGetD m.msg.racks k [], x.order ≠ e.order) ∧ m.regs = s.regs ∧
      getF m r fBeats = min (getF s r fBeats + 1) 255 ∧ BytesKept2 s m (rowDpa r + 0x60) 8 (rowDpa r + 0x70) 8 ∧
      (∀ g, e.engager = some g → getF s r fEng = 0 → g ≠ r → getF m r fEng = 1 ∧ getF m r fParent = g % 2 ^ 28) ∧
      WritesS4 m u r d.toNat (fun i => e.sketch.getD i 0)) ∧
    (mine = [] → (a = 0 ∧ pullDown s (ctxOf s r) 3 k = none) ∨ named → Gives (.take d a) s d 0 4) ∧
    (mine = [] → a = 0 → pullDown s (ctxOf s r) 3 k ≠ none → Yields (.take d a) s fun t => Out_ t r 1 4) ∧
    (a ≠ 0 → rackName ex (src s a) = none → Traps (.take d a) s (instrFault s r 0x01 0)) ∧
    (∀ t lvl, a ≠ 0 → rackName ex (src s a) = some (t, lvl) → (t, lvl) ≠ (ex, 0) → Leaves (.take d a) s 1 4 fun u =>
      (∃ q ∈ u.msg.rackOps, q.id = s.clk.ids ∧ q.row = r ∧ q.rack = rackAtLevel t lvl (partOf s r) ∧ q.push = none ∧ q.fromLast = true) ∧
      Due u (.remoteRackOperation s.clk.ids) (s.clk.now + rackWay ex t lvl) ∧ u.regs = s.regs)

/-- R248, R249, R250 to R252: a push that reaches its rack and is not awaited is spent; an awaited one is answered 0 when it is placed and 1, FULL,
with an engaging one's unit of DEFICIT returned, when no level has room; a TAKE that reaches its rack is answered with the last entry of its context, which
leaves the rack, and a beat, or with 0; each answer completes its row the way back later. A block that lands joins its rack, which passes nothing on
while it has room for a block. A continuation that finds room at its rack enters it; one that meets a full rack waits there while a block
moves out of it, as a push does (R250), and one that no level has room for is offered again 1,024 cycles later. -/
def Claim.RackEvents : Prop :=
  ∀ (s : State) (id : Nat),
    (∀ o, (s.msg.rackOps.find? fun o => o.id == id && !o.wait) = some o → ∀ e, o.push = some e →
      rackCount s o.rack + 1 + blockSize s (rackPart o.rack) ≤ rackShare s o.rack → o.d = 0 → o.delay ≠ 0 →
      Yields (.remoteRackOperation id) s fun t => tabGetD t.msg.racks o.rack [] = rackIns (tabGetD s.msg.racks o.rack []) ⟨e.sketch, e.ctx, s.msg.pushes, e.engager⟩ ∧
        (∀ q ∈ t.msg.rackOps, ¬ (q.id = id ∧ q.wait = false)) ∧ t.mem = s.mem ∧ t.regs = s.regs) ∧
    (∀ o, (s.msg.rackOps.find? fun o => o.id == id && !o.wait) = some o → o.row < 2 ^ 28 → getF s o.row fCode = 4 → o.delay ≠ 0 →
      let answers := fun (ws : List RowWrite) (P : State → Prop) => Yields (.remoteRackOperation id) s fun t =>
        tabGet t.rows.longs o.row = some ⟨ws, 0, none⟩ ∧ (∃ e ∈ t.agenda, e.ev = .longInstructionComplete o.row ∧ e.due = s.clk.now + o.delay) ∧
        (∀ q ∈ t.msg.rackOps, ¬ (q.id = id ∧ q.wait = false)) ∧ t.regs = s.regs ∧ P t
      (∀ e, o.push = some e → o.d ≠ 0 →
        (rackCount s o.rack + 1 + blockSize s (rackPart o.rack) ≤ rackShare s o.rack → answers [⟨o.d, 0⟩] fun t =>
          tabGetD t.msg.racks o.rack [] = rackIns (tabGetD s.msg.racks o.rack []) ⟨e.sketch, e.ctx, s.msg.pushes, e.engager⟩ ∧ t.mem = s.mem) ∧
        (rackShare s o.rack ≤ rackCount s o.rack → (∀ m ∈ s.msg.moves, m.src ≠ o.rack) → moveUp s e.ctx 3 o.rack = none → answers [⟨o.d, 1⟩] fun t =>
          t.msg.racks = s.msg.racks ∧ (e.engager.isSome = true → isThread s o.row = true → getF t o.row fDeficit = getF s o.row fDeficit - 1))) ∧
      (o.push = none → o.fromLast = true →
        (∀ e, (rackOf s o.rack o.ctx).getLast? = some e → answers ((List.range 4).map fun i => ⟨o.d + i, e.sketch.getD i 0⟩) fun t =>
          (∀ x ∈ tabGetD t.msg.racks o.rack [], x.order ≠ e.order) ∧ getF t o.row fBeats = min (getF s o.row fBeats + 1) 255 ∧
          (∀ g, e.engager = some g → getF s o.row fEng = 0 → g ≠ o.row → getF t o.row fEng = 1 ∧ getF t o.row fParent = g % 2 ^ 28)) ∧
        (rackOf s o.rack o.ctx = [] → answers [⟨o.d, 0⟩] fun t => t.msg.racks = s.msg.racks ∧ t.mem = s.mem))) ∧
    (∀ m, (s.msg.moves.find? fun m => m.id == id) = some m → id < s.clk.ids →
      (rackLevel m.dst = 0 ∨ rackCount s m.dst + m.entries.length + blockSize s m.part ≤ rackShare s m.dst) → (∀ o ∈ s.msg.rackOps, o.wait = false) →
      let landed := fun (t : State) => tabGetD t.msg.racks m.dst [] = m.entries.foldl rackIns (tabGetD s.msg.racks m.dst []) ∧
        (∀ x ∈ t.msg.moves, x.id ≠ id) ∧ t.mem = s.mem ∧ t.regs = s.regs
      Yields (.blockMoveLands id) s landed ∧ Yields (.shipmentLands id) s landed) ∧
    (∀ h, (s.msg.heldPush.find? fun h => h.id == id) = some h →
      (rackCount s h.rack + 1 + blockSize s (rackPart h.rack) ≤ rackShare s h.rack → Yields (.continuationRetry id) s fun t =>
        (∃ e ∈ tabGetD t.msg.racks h.rack [], e.sketch = h.entry.sketch ∧ e.ctx = h.entry.ctx) ∧ (∀ x ∈ t.msg.heldPush, x.id ≠ id) ∧ t.mem = s.mem) ∧
      (rackShare s h.rack ≤ rackCount s h.rack →
        let u := { s with msg := { s.msg with heldPush := s.msg.heldPush.filter fun x => x.id != id } }
        let leaves := (∃ m ∈ s.msg.moves, m.src = h.rack) ∨ (moveUp u h.entry.ctx 3 h.rack).isSome = true
        (leaves → Yields (.continuationRetry id) s fun t => (∃ o ∈ t.msg.rackOps, o.wait = true ∧ o.rack = h.rack ∧ o.push = some h.entry) ∧
          (∀ x ∈ t.msg.heldPush, x.id ≠ id) ∧ t.mem = s.mem) ∧
        (¬ leaves → Yields (.continuationRetry id) s fun t => ∃ x ∈ t.msg.heldPush, x.rack = h.rack ∧ x.part = h.part ∧ x.entry = h.entry ∧
          Due t (.continuationRetry x.id) (s.clk.now + 1024) ∧ t.mem = s.mem)))

/-- R249: at an executor at which one partition alone is bound and its interval is due, the last block of its context goes to the neighbour with
the fewest entries when that one holds MARGIN fewer and has room for it; without an interval nothing changes. -/
def Claim.LateralShipments : Prop :=
  ∀ (s : State) (ex p n : Nat), p < 32 → slotSet s p ≠ 0 → (∀ q < 32, q ≠ p → slotSet s q = 0) →
    let w := balOf s ex p
    let k := rackKey 0 ex p
    let dk := rackKey 0 n p
    let near := (neighbours ex).filter fun x => bitAt w 16 || stackOf x == stackOf ex
    let es := lastN (blockSize s p) (rackOf s k (activeCtx s p))
    (bitsAt w 0 8 = 0 → exec (.lateralBalancing ex) s = .next s) ∧
    (bitsAt w 0 8 ≠ 0 → s.clk.now % (1024 * bitsAt w 0 8) = 0 → n ∈ near →
      (∀ x ∈ near, x ≠ n → rackCount s dk < rackCount s (rackKey 0 x p)) →
      rackCount s dk + bitsAt w 8 8 ≤ rackCount s k → rackCount s dk + blockSize s p ≤ rackShare s dk → es ≠ [] →
      Yields (.lateralBalancing ex) s fun t =>
        (∃ m ∈ t.msg.moves, m.id = s.clk.ids ∧ m.src = k ∧ m.dst = dk ∧ m.entries = es) ∧
        (∀ x ∈ tabGetD t.msg.racks k [], ∀ e ∈ es, x.order ≠ e.order) ∧
        Due t (.shipmentLands s.clk.ids) (s.clk.now + (if stackOf n = stackOf ex then 4 else 64)) ∧
        regWord t (rackWord ex p 0x28) = (regWord s (rackWord ex p 0x28) + 1) % 2 ^ 64 ∧ t.mem = s.mem)

/-- R253: BALSET gives the old balancing word and sets the new one, MARGIN raised to the block size; bits above 16 fault ILLOP. -/
def Claim.BalancingWords : Prop :=
  ∀ (s : State) (d a : Reg),
    let r := s.clk.cur
    let p := partOf s r
    let w := rackWord (exOf r) p 0x18
    let v := src s a
    let old := if regWord s w = 0 then 8 + 2 * max 1 (slotCount s p / 4) * 256 + 2 ^ 16 else regWord s w
    (2 ^ 17 ≤ v → Traps (.balset d a) s (instrFault s r 0x01 0)) ∧
    (v < 2 ^ 17 → Completes (.balset d a) s 4 fun s u => ∃ m, OnlyReg s m w ∧
      regWord m w = v % 2 ^ 8 + max (max 1 (slotCount s p / 4)) (v / 2 ^ 8 % 2 ^ 8) * 2 ^ 8 + v / 2 ^ 16 * 2 ^ 16 ∧
      WritesS m u r d.toNat (BitVec.ofNat 64 old))

/-- R252, R227: JDEC of a row with nothing outstanding counts a beat and sends the decrement with its continuation to the counter's home; a counter that is
misaligned, in no row and no palette, or out of reach faults, and so does a continuation with reserved bits. Whether the word is CMD of a thread row is
judged at its home, where it is SEG 0x03 as for any atomic (R87, R90, AccessesHeld); a decrement that is sent to such a word is waited for even with d = s0,
so that the fault finds the row at its JDEC (log 50). -/
def Claim.JoinDecrements : Prop :=
  ∀ (s : State) (d a b : Reg),
    let r := s.clk.cur
    let at_ := src s a
    let cont := if b = 0 then [] else [0, 1, 2, 3].map fun i => getS s r (b.toNat + i)
    let f := fun (c x : Nat) => FaultRec.mk c x (at_ % 2 ^ 48) 2
    let homed := placeOf at_ = .hbm ∨ placeOf at_ = .palette
    let bad := bitsAt (cont.getD 0 0).toNat 40 24 ≠ 0
    (bad → Traps (.jdec d a b) s (instrFault s r 0x01 0)) ∧
    (¬ bad →
    (at_ % 8 ≠ 0 → Traps (.jdec d a b) s (f 0x04 0)) ∧ (at_ % 8 = 0 → ¬ homed → Traps (.jdec d a b) s (f 0x02 0x03)) ∧
    (at_ % 8 = 0 → homed → ∀ c x, dpaChecks s (partOf s r) (isPriv s r) true at_ = some (c, x) → Traps (.jdec d a b) s (f c x)) ∧
    (at_ % 8 = 0 → homed → dpaChecks s (partOf s r) (isPriv s r) true at_ = none →
      ((∀ w ∈ s.ms.wet, w.row ≠ r) → (∀ e ∈ s.ms.reqs, e.2.row ≠ r) →
        let waits := d ≠ 0 ∨ touchesCmd s at_ 8 = true
        let sent := fun (u : State) => Asked s u s.clk.ids (.jdec cont) (.scalar d.toNat 64 true) (d != 0 || touchesCmd s at_ 8) at_ ∧
          getF u r fBeats = min (getF s r fBeats + 1) 255 ∧ u.regs = s.regs
        (waits → Yields (.jdec d a b) s fun u => Out_ u r 1 4 ∧ sent u ∧ BytesKept2 s u (rowDpa r + 0x08) 8 (rowDpa r + 0x70) 8) ∧
        (¬ waits → Completes (.jdec d a b) s 4 fun s u => sent u ∧ BytesKept s u (rowDpa r + 0x70) 8))))

/-- R254, R255: DONE of a row that is not engaged gives 1; of an engaged one with nothing outstanding 5 while DEFICIT is not 0 or an
engaging note waits; otherwise ENG is cleared, a row that is no root sends one acknowledgement to its parent, a root ends its task and
stores CVAL at CADDR, and it gives 0. An
acknowledgement that reaches a row with no command pending takes one unit of DEFICIT. -/
def Claim.Termination : Prop :=
  ∀ (s : State) (d : Reg) (w : Nat),
    let r := s.clk.cur
    let idle := (∀ x ∈ s.ms.wet, x.row ≠ r) ∧ (∀ e ∈ s.ms.reqs, e.2.row ≠ r)
    let busy := getF s r fDeficit ≠ 0 ∨ engageWaits s r = true
    (getF s r fEng = 0 → Gives (.done d) s d 1 4) ∧
    (getF s r fEng = 1 → getF s r fParent ≠ r → idle → busy → Gives (.done d) s d 5 4) ∧
    (getF s r fEng = 1 → getF s r fParent ≠ r → idle → ¬ busy → Completes (.done d) s 4 fun s u => ∃ m,
      getF m r fEng = 0 ∧ BytesKept s m (rowDpa r + 0x60) 8 ∧ m.regs = s.regs ∧
      Due m (.acknowledgement (getF s r fParent)) (s.clk.now + oneWay (exOf r) (rowDpa (getF s r fParent))) ∧ WritesS m u r d.toNat 0) ∧
    (getF s r fEng = 1 → getF s r fParent = r → getF s r fRegion = 0 → idle → ¬ busy → Completes (.done d) s 4 fun s u => ∃ m,
      getF m r fEng = 0 ∧ BytesKept s m (rowDpa r + 0x60) 8 ∧ m.agenda = s.agenda ∧ WritesS m u r d.toNat 0) ∧
    (∀ at_ v, getF s r fEng = 1 → getF s r fParent = r → getF s r fRegion ≠ 0 → effCaddr s r = some at_ → effCval s r = some v → at_ ≠ 0 →
      dpaChecks s (partOf s r) (isPriv s r) true at_ = none → idle → ¬ busy → Completes (.done d) s 4 fun s u => ∃ m,
        getF m r fEng = 0 ∧ tstateOf m r = 2 ∧ BytesKept2 s m (rowDpa r + 0x60) 8 (blockOf s r + 0x30) 8 ∧
        (∃ q, tabGet m.ms.reqs s.clk.ids = some q ∧ q.op = .write true ∧ q.elems.map (fun e => (e.addr, e.size, e.data)) = [(at_, 8, v)]) ∧
        Due m (.directAccess s.clk.ids 0) (s.clk.now + oneWay (exOf r) at_) ∧ WritesS m u r d.toNat 0) ∧
    (getF s w fPend = 0 → isThread s w = true → getF s w fCode ≠ 8 → Yields (.acknowledgement w) s fun t =>
      getF t w fDeficit = getF s w fDeficit - 1 ∧ OnlyMem s t ∧ BytesKept s t (rowDpa w + 0x60) 8)

/-! ### Copies and pots (R257 to R273) -/

/-- R268, R272: CPY. A descriptor that is misaligned, outside 0x800 to 0xFD0, or malformed, and a shape or pot that fails its checks, fault; with a
free record the copy is recorded, its first piece to be read from the next cycle on, and S[d] receives the copies of its group that have not
ended; without one the row waits, unbounded, with WHY 9. -/
def Claim.CopyStarts : Prop :=
  ∀ (s : State) (d a : Reg) (sub : BitVec 3),
    let r := s.clk.cur
    let at_ := src s a
    let c := copyOfDesc s r sub.toNat ((List.range 6).map fun i => BitVec.ofNat 64 (rowNat s r (at_ + 8 * i) 8))
    (at_ % 16 ≠ 0 → Traps (.cpy d a sub) s ⟨0x04, 0, at_ % 2 ^ 48, 0⟩) ∧
    (at_ % 16 = 0 → at_ < 0x800 ∨ 0xFD0 < at_ → Traps (.cpy d a sub) s ⟨0x02, 0x01, at_ % 2 ^ 48, 0⟩) ∧
    (at_ % 16 = 0 → 0x800 ≤ at_ → at_ ≤ 0xFD0 → descBad s c = true → Traps (.cpy d a sub) s (instrFault s r 0x01 0)) ∧
    (∀ f, cpyCheck s r at_ c = some f → Traps (.cpy d a sub) s f) ∧
    (cpyCheck s r at_ c = none → copyRoom s r = true → Completes (.cpy d a sub) s 12 fun s u => ∃ m,
      m.eng.copies = s.eng.copies ++ [c] ∧ c.readAt = s.clk.now + 1 ∧ c.state = 0 ∧ m.mem = s.mem ∧ m.regs = s.regs ∧
      WritesS m u r d.toNat (BitVec.ofNat 64 (copiesLeft s r (2 ^ sub.toNat) + 1))) ∧
    (cpyCheck s r at_ c = none → copyRoom s r = false → getF s r fPend = 0 → ctxActive s r = true → BlockApart s r →
      Yields (.cpy d a sub) s fun t => getF t r fCode = 4 ∧ getF t r fWhy = 9 ∧
        (tabGet t.rows.waits r).map Wait.cond = some .copyRecord ∧ BytesKept s t (rowDpa r + 0x08) 8 ∧ t.eng = s.eng ∧ t.regs = s.regs)

/-- R273: CPYQ gives the copies of the masked groups that have not ended and the errors of those that failed; CPYW waits, unbounded, with WHY 9
while one has not ended, and then gives the same word and frees the records; a mask above 255 faults ILLOP. -/
def Claim.CopyQueries : Prop :=
  ∀ (s : State) (d a : Reg),
    let r := s.clk.cur
    let m := src s a
    let mine := fun (c : Copy) => c.row = r ∧ bitAt m c.group = true
    let word := BitVec.ofNat 64 (copiesLeft s r m % 2 ^ 16 + copyErrors s r m * 2 ^ 16)
    (256 ≤ m → Traps (.cpyq d a) s (instrFault s r 0x01 0) ∧ Traps (.cpyw d a) s (instrFault s r 0x01 0)) ∧
    (m < 256 → Gives (.cpyq d a) s d word 4) ∧
    (m < 256 → (∀ c ∈ s.eng.copies, mine c → c.state = 2) → Completes (.cpyw d a) s 4 fun s u => ∃ k,
      (∀ c, c ∈ k.eng.copies ↔ c ∈ s.eng.copies ∧ ¬ mine c) ∧ k.mem = s.mem ∧ k.regs = s.regs ∧ WritesS k u r d.toNat word) ∧
    (m < 256 → (∃ c ∈ s.eng.copies, mine c ∧ c.state ≠ 2) → getF s r fPend = 0 → ctxActive s r = true → BlockApart s r →
      Yields (.cpyw d a) s fun t => getF t r fCode = 4 ∧ getF t r fWhy = 9 ∧ (tabGet t.rows.waits r).map Wait.bounded = some false ∧
        BytesKept s t (rowDpa r + 0x08) 8 ∧ t.eng = s.eng ∧ t.regs = s.regs)

/-- R269, R270, R271, R397: a copy between plain memory. A piece that is ready (its turn of the copy, both lines in place, a piece slot of the
studio left in this cycle), that resolves within one line and that nothing holds is read, and its write is due
after the way there and the load's way less the 24 cycles of R397; the write puts the piece at its place and leaves every other byte, and after the last one the copy
ends and is reported 12 cycles later; the report frees the record of a copy without errors and keeps the other for CPYW. -/
def Claim.CopyPieces : Prop :=
  ∀ (s : State) (id a b : Nat) (c : Copy), copyOf s id = some c → s.lines.latent = [] →
    let n := pieceLen c c.readPos
    let o := cpySrcOff c c.readPos
    (c.state = 0 → c.err = 0 → c.out = false → c.readPos < cpyTotal c → c.fly = [] → (∀ x ∈ s.eng.copies, x.id = id) → cpyPot c = false →
      cpyPeer c = 0 → isReg a = false → (c.gate = 0 ∨ c.gate = 2) → c.readAt ≤ s.clk.now → slotsLeft s (studioOf c.ex) ≠ 0 → forwardOf s a ≠ .busy →
      cpyReach s c (cpySseg c) o 0 = .at_ a 0 → cpyReach s c (cpyDseg c) (cpyDstOff c c.readPos) 1 = .at_ b 0 →
      n ≤ 64 - ((cpySseg c).base + o).toNat % 64 →
      holdFor s { row := 2 ^ 28, part := c.part, ctx := c.ctx, priv := false, ex := c.ex, path := .C } { size := n } a = .free →
      ∃ t due, exec (.copyPieceRead id) s = .next t ∧ s.clk.now + max 1 (2 * oneWay c.ex a + 2 * oneWay c.ex b - 24) ≤ due ∧
        copyOf t id = some { c with readPos := c.readPos + n, readAt := s.clk.now + 1, gate := 0,
                                    fly := [⟨b, c.readPos, bytesOf n (readHome s a n), (poisonedLine s a n).isSome, due⟩] }) ∧
    (c.state = 0 → c.err = 0 → c.readPos < cpyTotal c → slotsLeft s (studioOf c.ex) = 0 → (c.gate = 0 ∨ c.gate = 2) →
      Yields (.copyPieceRead id) s fun t => copyOf t id = some { c with gate := 0 } ∧ t.mem = s.mem ∧ t.agenda = s.agenda) ∧
    (∀ pos bs bad due rest, c.fly = ⟨b, pos, bs, bad, due⟩ :: rest → cpyPot c = false → cpyPeer c = 0 → s.ms.forwards = [] → s.ms.watches = [] →
      placeOf b = .hbm → isThread s (b / 4096) = false → isBlock s b = false → isBlock s (b + bs.length - 1) = false → inHeader s b bs.length = false →
      holdFor s { row := 2 ^ 28, part := c.part, ctx := c.ctx, priv := isPriv s c.row, ex := c.ex, path := .C, op := .write false } { size := bs.length } b = .free →
      ∃ t, exec (.copyPieceWrite id) s = .next t ∧
        (∀ i < bs.length, memByte t.mem (b + i) = bs.getD i 0) ∧ BytesKept s t b bs.length ∧
        (∃ c', copyOf t id = some c' ∧ c'.writePos = c.writePos + bs.length ∧ c'.fly = rest ∧ c'.err = c.err) ∧
        (rest = [] → c.err = 0 → c.state = 0 → cpyTotal c ≤ c.writePos + bs.length →
          ∃ e ∈ t.agenda, e.ev = .copyFinish id ∧ e.due = s.clk.now + 12)) ∧
    (c.err = 0 → Yields (.copyFinish id) s fun t => (∀ x ∈ t.eng.copies, x.id ≠ id) ∧ t.mem = s.mem ∧ t.regs = s.regs) ∧
    (c.err ≠ 0 → Yields (.copyFinish id) s fun t => copyOf t id = some { c with state := 2 } ∧ t.mem = s.mem ∧ t.regs = s.regs)

/-- R260, R265, R267: POTSET, its clear form, POTPUT, POTGET and POTREL check the pot's name, then wait with WHY 8 while the operation goes to
the pot's studio; POTREL with s0 does not wait. -/
def Claim.PotInstructions : Prop :=
  ∀ (s : State) (d a b : Reg) (v : VReg) (imm : BitVec 32) (k : Nat),
    let r := s.clk.cur
    let x := getS s r a.toNat
    let send := fun (i : Instr) (own : Bool) (len kind : Nat) (line : List Byte) (args : List Nat) =>
      let sent := fun (u : State) => (∃ q ∈ u.eng.pots, q.id = s.clk.ids ∧ q.row = r ∧ q.kind = kind ∧ q.pot = k ∧ q.d = d.toNat ∧ q.line = line ∧
        q.args = args ∧ q.held = false) ∧ Due u (.potOperation s.clk.ids) (s.clk.now + oneWay (exOf r) (studioPalette (k / 128))) ∧ u.regs = s.regs
      (∀ f, potName s r x own = .error f → Traps i s f) ∧
      (potName s r x own = .ok k → (kind = 2 ∧ d = 0 → Completes i s len fun s u => sent u ∧ u.mem = s.mem) ∧
        (¬ (kind = 2 ∧ d = 0) → Leaves i s 8 len sent))
    send (.potset d a b imm) true 12 3 [] [0, src s b, bitsAt imm.toNat 0 16, bitsAt imm.toNat 16 8] ∧
    send (.potsetClear d a) true 12 3 [] [1, 0, 0, 0] ∧
    send (.potput d a v) false 4 0 (bytesOf 64 (getV s r v.toNat)) [src s a] ∧
    send (.potget d a) true 4 1 [] [src s a] ∧ send (.potrel d a) true 4 2 [] [src s a]

/-- The row of a pot operation gets its answer after the way back, and the operation is gone (R267). -/
def Claim.PotAnswered (s t : State) (q : PotReq) (v : Nat) (f : Option FaultRec) : Prop :=
  tabGet t.rows.longs q.row = some ⟨[⟨q.d, BitVec.ofNat 64 v⟩], 0, f⟩ ∧
  Due t (.longInstructionComplete q.row) (s.clk.now + oneWay (exOf q.row) (studioPalette (q.pot / 128))) ∧ ∀ x ∈ t.eng.pots, x.id ≠ q.id

/-- R262, R263, R267: POTPUT, POTGET and POTREL at their pot, for a row that waits. A pot of another context answers RIGHTS 0x13, an inactive one
INACTIVE or 1. A put takes the open slot, or reserves a free one, and writes its line there; the last line publishes the slot, and FILLPOS stays at SLOT. A get
takes the slot at RD; a release frees the oldest taken one. A put without a free slot and a get without a filled one stay, and are counted; a row
whose block has been killed, or whose watchdog window has ended, meets that first (R88). What a rule engine keeps from the pot waits there (R308). -/
def Claim.PotOperations : Prop :=
  ∀ (s : State) (id : Nat) (q : PotReq), (s.eng.pots.find? fun q => q.id == id) = some q → getF s q.row fCode = 4 → q.wait = true → q.row < 2 ^ 28 →
    let k := q.pot
    let mine := potActive s k = true ∧ potCtx s k = q.ctx
    let done := fun (v : Nat) (P : State → Prop) => Yields (.potOperation id) s fun t => Claim.PotAnswered s t q v none ∧ P t
    let stays := fun (P : State → Prop) => getF s q.row fPend = 0 → isKilled s q.row = false → watchdogDue s q.row = false → Yields (.potOperation id) s fun t => (∃ x ∈ t.eng.pots, x.id = id ∧ x.held = true) ∧ P t
    let line := potLineAt s k
    let first := potSlotAt s k (potF s k 0x10 0 8) 0
    q.kind ≤ 2 → potHolder s q = none → (∀ x ∈ s.eng.pots, x.held = false) → s.eng.copies = [] → s.ms.watches = [] →
    (potActive s k = true → potCtx s k ≠ q.ctx → Yields (.potOperation id) s fun t =>
      Claim.PotAnswered s t q 0 (some ⟨0x03, 0x13, q.args.getD 0 0 % 2 ^ 48, 0⟩) ∧ t.mem = s.mem ∧ t.regs = s.regs) ∧
    (potActive s k = false → done (if q.kind = 2 then 1 else 2 ^ 63 + 3) fun t => t.mem = s.mem ∧ t.regs = s.regs) ∧
    (mine → q.kind = 0 → potOpen s k = true → potFillPos s k + 1 < potSlot s k → placeOf line = .palette → q.line.length = 64 →
      isBlock s line = false → isBlock s (line + 63) = false → inHeader s line 64 = false → done (potFillPos s k + 1) fun t =>
        potFillPos t k = potFillPos s k + 1 ∧ (∀ i < 64, memByte t.mem (line + i) = q.line.getD i 0) ∧ BytesKept s t line 64) ∧
    (mine → q.kind = 0 → potOpen s k = true → potFillPos s k + 1 = potSlot s k → placeOf line = .palette → q.line.length = 64 →
      isBlock s line = false → isBlock s (line + 63) = false → inHeader s line 64 = false → done 0 fun t =>
        potOpen t k = false ∧ potFilled t k = (potFilled s k + 1) % 2 ^ 9 ∧ potFillPos t k = potSlot s k ∧
        (∀ i < 64, memByte t.mem (line + i) = q.line.getD i 0) ∧ BytesKept s t line 64) ∧
    (mine → q.kind = 0 → potOpen s k = false → potFree s k ≠ 0 → 1 < potSlot s k → placeOf first = .palette → q.line.length = 64 →
      isBlock s first = false → isBlock s (first + 63) = false → inHeader s first 64 = false → done 1 fun t =>
        potOpen t k = true ∧ potFree t k = potFree s k - 1 ∧ potFillPos t k = 1 ∧ potFilled t k = potFilled s k ∧
        (∀ i < 64, memByte t.mem (first + i) = q.line.getD i 0) ∧ BytesKept s t first 64) ∧
    (mine → q.kind = 0 → potOpen s k = false → potFree s k ≠ 0 → potSlot s k = 1 → placeOf first = .palette → q.line.length = 64 →
      isBlock s first = false → isBlock s (first + 63) = false → inHeader s first 64 = false → done 0 fun t =>
        potOpen t k = false ∧ potFree t k = potFree s k - 1 ∧ potFillPos t k = 1 ∧ potFilled t k = (potFilled s k + 1) % 2 ^ 9 ∧
        (∀ i < 64, memByte t.mem (first + i) = q.line.getD i 0) ∧ BytesKept s t first 64) ∧
    (mine → q.kind = 0 → potOpen s k = false → potFree s k = 0 → stays fun t =>
      potF t k 0x18 32 32 = (potF s k 0x18 32 32 + 1) % 2 ^ 32 ∧ BytesKept s t (rowDpa q.row + 0x08) 8) ∧
    (mine → q.kind = 1 → potFilled s k ≠ 0 → done (potBase s k + 64 * potSlot s k * potF s k 0x10 8 8) fun t =>
      potFilled t k = potFilled s k - 1 ∧ potTaken t k = (potTaken s k + 1) % 2 ^ 9 ∧
      potF t k 0x10 8 8 = (potF s k 0x10 8 8 + 1) % potCount s k % 2 ^ 8 ∧ t.mem = s.mem) ∧
    (mine → q.kind = 1 → potFilled s k = 0 → stays fun t =>
      potF t k 0x18 0 32 = (potF s k 0x18 0 32 + 1) % 2 ^ 32 ∧ BytesKept s t (rowDpa q.row + 0x08) 8) ∧
    (mine → q.kind = 2 → potTaken s k = 0 → done 1 fun t => t.mem = s.mem ∧ t.regs = s.regs) ∧
    (mine → q.kind = 2 → potTaken s k ≠ 0 → done 0 fun t =>
      potTaken t k = potTaken s k - 1 ∧ potFree t k = (potFree s k + 1) % 2 ^ 9 ∧ t.mem = s.mem)

/-- R265, log 30 (the ALIGN with SPACE 5): POTSET at its pot, for a row that waits and no POTGET registered. A pot with a slot open, filled or taken answers 1; sub 1 makes it inactive; a base that
is no multiple of 64 faults ALIGN; a pot outside the studio's palette or the partition's banks answers 2; otherwise the pot is set, active in the row's
context, with every slot free. -/
def Claim.PotSettings : Prop :=
  ∀ (s : State) (id base slot cnt clear : Nat) (q : PotReq), (s.eng.pots.find? fun q => q.id == id) = some q → getF s q.row fCode = 4 →
    q.wait = true → q.row < 2 ^ 28 → q.kind = 3 → q.args = [clear, base, slot, cnt] → (∀ x ∈ s.eng.pots, x.held = false) → s.eng.copies = [] →
    let k := q.pot
    let busy := potActive s k = true ∧ (potOpen s k = true ∨ potFilled s k ≠ 0 ∨ potTaken s k ≠ 0)
    let size := 64 * slot * (cnt + 1)
    let inside := base + size ≤ 2 ^ 23 ∧ ∀ i, base / 2 ^ 18 ≤ i → i ≤ (base + size - 1) / 2 ^ 18 → bitAt (bankSet s q.part) i = true
    let done := fun (v : Nat) (f : Option FaultRec) (P : State → Prop) => Yields (.potOperation id) s fun t =>
      Claim.PotAnswered s t q v f ∧ t.mem = s.mem ∧ P t
    (busy → done 1 none fun t => t.regs = s.regs) ∧
    (¬ busy → clear = 1 → done 0 none fun t => potActive t k = false) ∧
    (¬ busy → clear ≠ 1 → base % 64 ≠ 0 → done 0 (some ⟨0x04, 0, base % 2 ^ 48, 5⟩) fun t => t.regs = s.regs) ∧
    (¬ busy → clear ≠ 1 → base % 64 = 0 → ¬ inside → done 2 none fun t => t.regs = s.regs) ∧
    (¬ busy → clear ≠ 1 → base % 64 = 0 → inside → base < 2 ^ 23 → slot < 2 ^ 11 → cnt < 2 ^ 8 → q.ctx < 8 → done 0 none fun t =>
      potActive t k = true ∧ potCtx t k = q.ctx ∧ potBase t k = base ∧ potSlot t k = slot ∧ potCount t k = cnt + 1 ∧
      potFree t k = cnt + 1 ∧ potFilled t k = 0 ∧ potTaken t k = 0 ∧ potOpen t k = false ∧ potFillPos t k = 0)

/-! ### The matrix unit and the reduction cells (R274 to R298) -/

/-- R64, R274, R276, R289: MOWN takes a free unit for a row with MXE, empty and with OFMT 0x0B, when its context has no record and answers 0; the record's
owner, whose unit is not spilled, only moves its spill area and gets 1; any other row gets 5. Without MXE, and with an address that is misaligned, outside HBM or too high, in a
foreign bank, in a reserved area, in a configured join area or in a thread row, it faults (the area checks: log 32). -/
def Claim.TakingTheUnit : Prop :=
  ∀ (s : State) (d a : Reg),
    let r := s.clk.cur
    let v := src s a
    let ex := exOf r
    let rec_ := recordAt s ex (partOf s r) (ctxOf s r)
    let f := fun (c x : Nat) => FaultRec.mk c x (v % 2 ^ 48) 2
    (getF s r fMxe = 0 → Traps (.mown d a) s (instrFault s r 0x07 0)) ∧
    (getF s r fMxe = 1 → v % 4096 ≠ 0 → Traps (.mown d a) s (f 0x04 0)) ∧
    (getF s r fMxe = 1 → v % 4096 = 0 → placeOf v ≠ .hbm ∨ 8182 < v / 4096 % 2 ^ 13 → Traps (.mown d a) s (f 0x02 0x03)) ∧
    (∀ x, mownCheck s r v = some x → Traps (.mown d a) s x) ∧
    (mownCheck s r v = none → rec_ = none → (unitAt s ex).holder = none → Completes (.mown d a) s 4 fun s u => ∃ m,
      recordAt m ex (partOf s r) (ctxOf s r) = some ⟨r, true, false, v / 4096, 0⟩ ∧
      unitAt m ex = ⟨some r, partOf s r, ctxOf s r, 0x0B * 2 ^ 5, accEmpty, [], none⟩ ∧ m.mem = s.mem ∧ m.regs = s.regs ∧ WritesS m u r d.toNat 0) ∧
    (∀ x, mownCheck s r v = none → rec_ = some x → x.valid = true → x.owner = r → x.spilled = false → Completes (.mown d a) s 4 fun s u => ∃ m,
      recordAt m ex (partOf s r) (ctxOf s r) = some { x with spill := v / 4096 } ∧ m.eng.units = s.eng.units ∧ m.mem = s.mem ∧
      WritesS m u r d.toNat 1) ∧
    (mownCheck s r v = none → (rec_ = none ∧ (unitAt s ex).holder ≠ none) ∨ (∃ x, rec_ = some x ∧ ¬ (x.valid = true ∧ x.owner = r)) →
      Gives (.mown d a) s d 5 4)

/-- R64, R274, R277, R290 to R292: MREL frees the unit and drops the row's record; MCFG sets MCFG and gives the old word, refusing a reserved rounding mode or format; its
read form gives MCFG; MZERO empties every accumulator or those of a band. A row that neither holds the unit nor is its context's
spilled owner faults MXOWN on each of them, and on MMA, MST, MLD and BSUM of an accumulator. -/
def Claim.UnitRegisters : Prop :=
  ∀ (s : State) (d a c : Reg) (o : MmaX) (t : MstX) (l : MldX),
    let r := s.clk.cur
    let ex := exOf r
    let un := unitAt s ex
    let held := un.holder = some r ∧ un.spillEnds = none
    let v := src s a
    let zeroed := fun (i : Instr) (lo n : Nat) => Completes i s 4 fun s u =>
      (∀ i < 64, ∀ j < 64, accAt (unitAt u ex) i j = if lo ≤ i ∧ i < lo + n then initialAcc (un.mcfg % 4) else accAt un i j) ∧
      (unitAt u ex).mcfg = un.mcfg ∧ (unitAt u ex).holder = some r ∧ u.mem = s.mem ∧ u.regs = s.regs
    (un.holder ≠ some r → spilledOwner s r = false → ∀ i ∈ [Instr.mrel, .mcfg d a, .mcfgRead d, .mzero a, .mma o, .mst t, .mld l, .bsumAcc d a c],
      Traps i s (instrFault s r 0x07 0)) ∧
    (un.holder = some r ∨ spilledOwner s r = true → Completes .mrel s 4 fun s u => (unitAt u ex).holder ≠ some r ∧
      (∀ e ∈ u.eng.records, e.1 / 256 = ex → e.2.owner ≠ r) ∧ u.mem = s.mem ∧ u.regs = s.regs) ∧
    (held → mcfgBad v = true → Traps (.mcfg d a) s (instrFault s r 0x01 0)) ∧
    (held → mcfgBad v = false → Completes (.mcfg d a) s 12 fun s u => ∃ m, unitAt m ex = { un with mcfg := v &&& 0x7BFF } ∧
      m.mem = s.mem ∧ m.regs = s.regs ∧ WritesS m u r d.toNat (BitVec.ofNat 64 un.mcfg)) ∧
    (held → Gives (.mcfgRead d) s d (BitVec.ofNat 64 un.mcfg) 12) ∧
    (held → a = 0 → zeroed (.mzero a) 0 64) ∧
    (held → a ≠ 0 → ∀ lo n, bandOf (getS s r a.toNat) = some (lo, n, 0) → zeroed (.mzero a) lo n) ∧
    (held → a ≠ 0 → (∀ lo n, bandOf (getS s r a.toNat) ≠ some (lo, n, 0)) → Traps (.mzero a) s (instrFault s r 0x01 0))

/-- R288: a matrix instruction of a spilled owner waits, bounded, with WHY 2, until the unit is free, and then until its restore has read the spill area; one of a
holder whose unit is being spilled waits in the same way. The restore's end sets every accumulator and MCFG from what was saved, makes the row the holder and lets its
instruction issue again. -/
def Claim.UnitRestores : Prop :=
  ∀ (s : State) (r : Nat) (x : MRecord) (d a c : Reg) (o : MmaX) (p : MstX) (l : MldX),
    let ex := exOf r
    let base := x.spill * 4096
    let all := [Instr.mcfg d a, .mcfgRead d, .mzero a, .mma o, .mst p, .mld l, .bsumAcc d a c]
    let waits := fun (t : State) => getF t r fCode = 4 ∧ getF t r fWhy = 2 ∧ (tabGet t.rows.waits r).map Wait.bounded = some true ∧
      t.eng.units = s.eng.units ∧ BytesKept s t (rowDpa r + 0x08) 8 ∧ t.regs = s.regs
    (s.clk.cur = r → (unitAt s ex).holder = some r → (unitAt s ex).spillEnds ≠ none → ∀ i ∈ all, Yields i s waits) ∧
    (ownRecord s r = some x → x.valid = true → x.spilled = true → x.owner = r →
      let restored := fun (t : State) => waits t ∧ ((unitAt s ex).holder = none →
        Due t (.accumulatorRestore r) (s.clk.now + 320 + 2 * oneWay ex base))
      (s.clk.cur = r → (unitAt s ex).holder ≠ some r → ∀ i ∈ all, Yields i s restored) ∧
      (s.clk.cur = r → mownCheck s r (src s a) = none → Yields (.mown d a) s restored) ∧
      (getF s r fCode = 4 → (unitAt s ex).holder = none → stackHeld s base = none → s.lines.latent = [] → poisonedLine s base 40960 = none → Yields (.accumulatorRestore r) s fun t =>
        (∀ i < 64, ∀ j < 64, accAt (unitAt t ex) i j = accOfNat (memNat s.mem (base + 10 * (64 * i + j)) 10)) ∧
        (unitAt t ex).mcfg = x.cfg ∧ (unitAt t ex).holder = some r ∧ (recordAt t ex (partOf s r) (ctxOf s r)).map MRecord.spilled = some false ∧
        getF t r fCode = 3 ∧ BytesKept s t (rowDpa r + 0x08) 8))

/-- R280 to R282, R286, R293: MMA of the holder. A descriptor or format pair that is not listed faults; no step is no work; otherwise the row waits with
WHY 2, its first step that PROGRESS does not already count coming no sooner than 24 enabled cycles later, and MMA ends 24 cycles after its last. The end of a step
records it in PROGRESS and starts the next at once. -/
def Claim.MatrixSteps : Prop :=
  ∀ (s : State) (o : MmaX) (ex : Nat) (x : StepRun),
    let r := s.clk.cur
    let k := if getF s r fValid = 1 ∧ getF s r fMajor = 0xDC then getF s r fStep else 0
    let n := o.n.toNat
    let held := (unitAt s (exOf r)).holder = some r ∧ (unitAt s (exOf r)).spillEnds = none
    (held → ∀ f, mmaCheck s r o k = some f → Traps (.mma o) s f) ∧
    (held → mmaCheck s r o k = none → n = 0 → Completes (.mma o) s 12 fun s u => getF u r fValid = 0 ∧ OnlyMem s u ∧
      BytesKept s u (rowDpa r + 0x40) 8) ∧
    (held → mmaCheck s r o k = none → n ≠ 0 → n ≤ k → GoesLong (.mma o) s 2 12 24 ⟨[], 0, none⟩) ∧
    (held → mmaCheck s r o k = none → k < n → Leaves (.mma o) s 2 12 fun t => t.regs = s.regs ∧
      ∃ y, tabGet t.eng.mma (exOf r) = some y ∧ y.row = r ∧ y.step = k ∧ y.instr = .mma o ∧ y.startAt = enabledCycles s (exOf r) + 24 ∧ y.begun = false ∧ y.got = [] ∧
        (chanOn s r = false → y.left = (stepCycles ((unitAt s (exOf r)).mcfg % 4) (mmaFmtA s r o) (mmaFmtB s r o)).getD 1)) ∧
    (tabGet s.eng.mma ex = some x → x.instr = .mma o → (∀ h ∈ s.rows.stepHeld, h.1 ≠ x.row) →
      let counted := fun (t : State) => getF t x.row fStep = (x.step + 1) % 2 ^ 32 ∧ getF t x.row fMajor = 0xDC ∧ getF t x.row fValid = 1
      x.step < 2 ^ 32 - 1 →
      (x.step + 1 = n → Yields (.mmaStep ex) s fun t => counted t ∧ tabGet t.eng.mma ex = none ∧
        (∃ e ∈ t.agenda, e.ev = .longInstructionComplete x.row ∧ e.due = s.clk.now + 24) ∧ BytesKept s t (rowDpa x.row + 0x40) 8) ∧
      (x.step + 1 ≠ n → Calm s x.row → watchdogDue s x.row = false → getF s x.row fCode = 4 → ex = exOf x.row →
        mmaCheck (setF s x.row fProgress (x.step + 1 + 0xDC * 2 ^ 32 + 2 ^ 40)) x.row o (x.step + 1) = none →
        Yields (.mmaStep ex) s fun t => counted t ∧ (tabGet t.eng.mma ex).map StepRun.step = some (x.step + 1) ∧
          BytesKept s t (rowDpa x.row + 0x40) 8))

/-- R281, R283: a step gives each accumulator of its output set what its cell computes and leaves the others; for i32 operands under SEMI 0 an
accumulator that is empty or counts in units and whose sum fits in 64 bits grows by the sum of the 32 products, and no flag is raised. -/
def Claim.MatrixArithmetic : Prop :=
  (∀ (u : MatUnit) (o : MmaX) (d : StepData) (i j : Nat), i < 64 → j < 64 → accAt (applyStep u o d) i j =
    if inBand o i j then (cellStep (u.mcfg % 4) d i j (accAt u i j)).1 else accAt u i j) ∧
  (∀ (d : StepData) (i j : Nat) (old : Acc80), d.fa = 0x03 → old.e = 0 ∨ old = ⟨0, -32767⟩ →
    let sum := ((List.range 32).map fun k => signedOf 32 (elemAt 32 (aElem d i k).1 (aElem d i k).2) *
      signedOf 32 (elemAt 32 (bElem d j k).1 (bElem d j k).2)).foldl (· + ·) (0 : Int)
    (-(2 ^ 63) ≤ sum ∧ sum < 2 ^ 63) → -(2 ^ 63) ≤ old.s + sum → old.s + sum < 2 ^ 63 → sum ≠ 0 →
    cellStep 0 d i j old = (⟨old.s + sum, 0⟩, flagsNone))

/-- R295, R296: MST and MLD of the holder through a segment of HBM that is not the own row. A bad operand faults; otherwise the row waits with WHY 2 and
one access on path M goes to each piece of the band, those of a store that lie in one 64-byte line together (R258); MST's pieces carry the accumulators converted to OFMT as they stood, and with clear the stored rows are emptied
in the same instant; MLD's last reply sets the rows of its band and no other accumulator. -/
def Claim.AccumulatorRows : Prop :=
  ∀ (s : State) (o : MstX) (l : MldX) (lo n : Nat) (es : List Elem),
    let r := s.clk.cur
    let ex := exOf r
    let un := unitAt s ex
    let rows := (mstRows un lo n (getF s r fSrst)).1
    let clean := fun (m : XMem) (wr : Bool) => (memSeg s m).kind ≠ 0 ∧ (memSeg s m).kind ≠ 4 ∧ (∀ e ∈ es, ownGround r e = false ∧ e.pre = none ∧
      dpaChecks s (partOf s r) (isPriv s r) wr e.addr = none ∧
      ∀ i < e.size, dpaChecks s (partOf s r) (isPriv s r) wr (e.addr + i) = none) ∧ es ≠ []
    let sent := fun (t : State) (pieces : List (Nat × Nat × Nat)) => (∃ q, tabGet t.ms.reqs s.clk.ids = some q ∧ q.path = .M ∧ q.wait = true ∧
      q.elems.map (fun e => (e.addr, e.size, e.data)) = pieces ∧ q.groups ≠ [] ∧
      ∀ g ∈ q.groups, ∃ e ∈ t.agenda, e.ev = .directAccess s.clk.ids (g.headD ({}, 0)).2) ∧ t.regs = s.regs
    let fmt := un.mcfg / 2 ^ 5 % 2 ^ 5
    un.holder = some r → un.spillEnds = none → lo < 64 → n < 128 →
    (∀ f, bandOperand s r o.mem (getS s r o.b.toNat) (accRowBytes fmt) true = .error f → Traps (.mst o) s f) ∧
    (∀ f, bandOperand s r l.mem (getS s r l.b.toNat) (accRowBytes l.et.toNat) false = .error f → Traps (.mld l) s f) ∧
    (bandOperand s r o.mem (getS s r o.b.toNat) (accRowBytes fmt) true = .ok (lo, n, es) → clean o.mem true →
      Leaves (.mst o) s 2 12 fun t => sent t (es.map fun e =>
          (e.addr, e.size, (rows.getD (e.lane / 1024) 0 / 2 ^ (8 * (e.lane % 1024))) % 2 ^ (8 * e.size))) ∧
        ∀ i < 64, ∀ j < 64, accAt (unitAt t ex) i j = if o.clear = true ∧ lo ≤ i ∧ i < lo + n then initialAcc (un.mcfg % 4) else accAt un i j) ∧
    (bandOperand s r l.mem (getS s r l.b.toNat) (accRowBytes l.et.toNat) false = .ok (lo, n, es) → clean l.mem false →
      Leaves (.mld l) s 2 12 fun t => sent t (es.map fun e => (e.addr, e.size, e.data)) ∧ t.eng = s.eng) ∧
    (∀ id q et, tabGet s.ms.reqs id = some q → q.row = r → q.left ≤ 1 → q.fault = none → q.need = 0 → q.dest = .acc et (lo + 64 * n) →
      getF s r fCode = 4 → Calm s r → watchdogDue s r = false → Yields (.memoryReply id) s fun t =>
        ∀ i < 64, ∀ j < 64, accAt (unitAt t ex) i j =
          if lo ≤ i ∧ i < lo + n then (mldAcc et ((mldRows q n).getD (i - lo) 0) j).1 else accAt un i j)

/-- R45, R297: BSUM sends its pair, or an accumulator of the own unit, to the cell that S[c] names, and waits with WHY 1 unless d is s0; a bad cell name
or accumulator faults ILLOP. At a cell of the sender's partition the pair is accumulated and the answer is 0; at any other cell nothing changes and it is 1. -/
def Claim.ReductionSums : Prop :=
  ∀ (s : State) (d a b c : Reg) (key : Nat),
    let r := s.clk.cur
    let ex := exOf r
    let v := src s a
    let held := (unitAt s ex).holder = some r ∧ (unitAt s ex).spillEnds = none
    let x := accAt (unitAt s ex) (v / 64 % 64) (v % 64)
    let send := fun (i : Instr) (sum e : Int) =>
      let sent := fun (t : State) => tabGet t.eng.bsums s.clk.ids = some [(key : Int), sum, e, (partOf s r : Int), (r : Int), (d.toNat : Int), (cellWay ex key : Int), 0] ∧
        Due t (.bsumArrival s.clk.ids) (s.clk.now + cellWay ex key) ∧ t.regs = s.regs
      (d = 0 → Completes i s 12 fun s u => sent u ∧ u.mem = s.mem) ∧ (d ≠ 0 → Leaves i s 1 12 sent)
    (cellName ex (src s c) = none → Traps (.bsum d a b c) s (instrFault s r 0x01 0)) ∧
    (held → 4096 ≤ v ∨ cellName ex (src s c) = none → Traps (.bsumAcc d a c) s (instrFault s r 0x01 0)) ∧
    (cellName ex (src s c) = some (key, 0) → send (.bsum d a b c) (signedOf 64 v) (signedOf 16 (src s b)) ∧
      (held → v < 4096 → send (.bsumAcc d a c) x.s x.e)) ∧
    (∀ (id p n k way : Nat) (sum e : Int), tabGet s.eng.bsums id = some [(key : Int), sum, e, (p : Int), (n : Int), (k : Int), (way : Int), 0] →
      let answered := fun (t : State) (st : Nat) => (k ≠ 0 → getF s n fCode = 4 → 0 < way →
        tabGet t.rows.longs n = some ⟨[⟨k, BitVec.ofNat 64 st⟩], 0, none⟩ ∧
        ∃ x ∈ t.agenda, x.ev = .longInstructionComplete n ∧ x.due = s.clk.now + way)
      (∀ y, tabGet s.eng.cells key = some y → y.part = p → k = 0 ∨ 0 < way → Yields (.bsumArrival id) s fun t =>
        tabGet t.eng.cells key = some (cellApply y sum e) ∧ tabGet t.eng.bsums id = none ∧ t.mem = s.mem ∧ answered t 0) ∧
      ((∀ y, tabGet s.eng.cells key = some y → y.part ≠ p) → k = 0 ∨ 0 < way → Yields (.bsumArrival id) s fun t =>
        t.eng.cells = s.eng.cells ∧ tabGet t.eng.bsums id = none ∧ t.mem = s.mem ∧ answered t 1))

/-- R39, R298: BRED at a cell of the own executor gives S to S[d] and E, INEXACT, claimed and outcome to S[d+1]. Read returns a cell of the own
partition or an empty, unclaimed one; clear empties it after; claim leaves it the own partition's and empty; release unclaims it. At a
cell of another partition nothing changes and the outcome is 1 with S 0; a cell number above 15 faults ILLOP. The words that claim, release and
an empty cell answer are log 36. -/
def Claim.ReductionCells : Prop :=
  ∀ (s : State) (d a : Reg) (c : RedCell),
    let r := s.clk.cur
    let v := src s a
    let key := 16 * exOf r + v
    let all := [Instr.bredRead d a, .bredClear d a, .bredClaim d a, .bredRelease d a]
    let empty := RedCell.mk (partOf s r) ⟨0, -32767⟩ false
    let gives := fun (i : Instr) (x : RedCell) (claimed : Nat) (after : Option RedCell) => Completes i s 12 fun s u => ∃ m n,
      tabGet m.eng.cells key = after ∧ (∀ k, k ≠ key → tabGet m.eng.cells k = tabGet s.eng.cells k) ∧ m.mem = s.mem ∧ m.regs = s.regs ∧
      WritesS m n r d.toNat (BitVec.ofInt 64 x.acc.s) ∧
      WritesS n u r (d.toNat + 1) (BitVec.ofNat 64 (lowBits 16 x.acc.e + flag01 x.inexact * 2 ^ 16 + claimed * 2 ^ 17))
    (16 ≤ v → ∀ i ∈ all, Traps i s (instrFault s r 0x01 0)) ∧
    (v < 16 → tabGet s.eng.cells key = none → gives (.bredRead d a) empty 0 none ∧ gives (.bredClear d a) empty 0 none ∧
      gives (.bredClaim d a) empty 1 (some empty) ∧ gives (.bredRelease d a) empty 0 none) ∧
    (v < 16 → tabGet s.eng.cells key = some c → c.part = partOf s r → gives (.bredRead d a) c 1 (some c) ∧ gives (.bredClear d a) c 1 (some empty) ∧
      gives (.bredClaim d a) empty 1 (some empty) ∧ gives (.bredRelease d a) empty 0 none) ∧
    (v < 16 → tabGet s.eng.cells key = some c → c.part ≠ partOf s r → ∀ i ∈ all, Completes i s 12 fun s u => ∃ m n w,
      m.eng = s.eng ∧ m.mem = s.mem ∧ m.regs = s.regs ∧ WritesS m n r d.toNat 0 ∧ WritesS n u r (d.toNat + 1) (BitVec.ofNat 64 w) ∧ w / 2 ^ 17 = 2)

/-! ### The rule engine and SWEEP (R299 to R312, R401) -/

/-- R301, R307, R310 to R312: GTBL, GEN and GHALO of an open row check the header that S[a] names, first (at issue: log 37), where its line is neither poisoned
nor in error. Then GEN and GHALO wait with WHY 2 and a request stands in the queue of the
studio's engine that begins no sooner than 24 cycles later; GHALO checks the neighbours' banks before. GTBL checks its source and, through a
segment that is not the own row, reads it, waiting with WHY 2. -/
def Claim.RuleInstructions : Prop :=
  ∀ (s : State) (d a b : Reg) (sub : BitVec 3) (imm : BitVec 32) (m : XMem) (t : Tile),
    let r := s.clk.cur
    let st := studioOf (exOf r)
    let v := src s a
    let asks := fun (u : State) (kind : Nat) (i : Option Stepped) => u.regs = s.regs ∧
      (ruleOf u st).queue = (ruleOf s st).queue ++ [⟨kind, r, s.clk.ids, i, 0, s.clk.now + 24⟩]
    let g := memSeg s m
    let off := memOff s m
    isOpen s r = true → s.lines.latent = [] → poisonedLine s (studioPalette st + v) 64 = none →
    (2 ^ 23 ≤ v → headerCheck s r v = .error (instrFault s r 0x01 0)) ∧
    (v < 2 ^ 23 → v % 64 ≠ 0 → headerCheck s r v = .error ⟨0x04, 0, v, 5⟩) ∧
    (∀ f, headerCheck s r v = .error f → Traps (.gtbl d a m) s f ∧ Traps (.gen d a b sub imm) s f ∧ Traps (.ghalo d a) s f) ∧
    (headerCheck s r v = .ok t →
      Leaves (.gen d a b sub imm) s 2 12 (fun u => asks u 0 (some (.gen d a b sub imm))) ∧
      (∀ f, haloBanks s r t = some f → Traps (.ghalo d a) s f) ∧
      (haloBanks s r t = none → Leaves (.ghalo d a) s 2 12 fun u => asks u 3 none ∧
        u.eng.halos = s.eng.halos ++ [⟨s.clk.ids, r, d.toNat, t.at_, 0, 0, none⟩]) ∧
      (∀ f, segChecks s r g off { rd := true, size := t.tableBytes } = .error f → Traps (.gtbl d a m) s f) ∧
      (∀ x es, segChecks s r g off { rd := true, size := t.tableBytes } = .ok x → g.kind ≠ 0 → g.kind ≠ 4 → es ≠ [] →
        let dest := Dest.table d.toNat t.at_ t.table t.tableBytes t.entries
        planReq s { reqOf s g 0 with
          elems := (linePieces (g.base + off).toNat t.tableBytes).map fun p => mkElem s r g (off + (p.1 : Nat)) { rd := true, size := p.2 } 0 0 0
          dest := dest
          wait := true } = .go es 0 [] →
        Leaves (.gtbl d a m) s 2 12 fun u => u.regs = s.regs ∧ (∃ q, tabGet u.ms.reqs s.clk.ids = some q ∧ q.elems = es ∧ q.dest = dest) ∧
          ∃ e ∈ u.agenda, e.ev = .directAccess s.clk.ids 0))

/-- R303 to R305: one step of a tile without CHEQ writes into the other plane the new code of every cell that the step updates and the old code
of every other cell of its rows, all read from the plane as it stood; it counts PH and GEN, and leaves every byte outside that plane and the header's count. -/
def Claim.GenerationSteps : Prop :=
  ∀ (s : State) (p c : Nat) (t : Tile), t.bad = false → t.cheq = false → t.st < 256 → t.data + t.planeBytes ≤ 2 ^ 23 → t.at_ + 64 ≤ 2 ^ 23 →
    t.at_ + 64 ≤ t.data ∨ t.data + t.planeBytes ≤ t.at_ → t.plane < 2 → t.ph < 2 → t.vd < 16 → t.hrecv < 256 →
    s.ms.watches = [] → (∀ a, isBlock s a = false) → (∀ a n, inHeader s a n = false) → (∀ r ∈ s.rows.kinds, r < 2 ^ 28) →
    let u := makeStep s p c t
    let pal := studioPalette t.st
    let half := t.halo + t.h / 2
    let mine := fun (j : Nat) => j < t.h + 2 * t.halo ∧ (if t.ph = 0 then j < half else half ≤ j)
    (∀ i j, i < t.w + 2 * t.halo → mine j →
      let x := (i : Int) - t.halo
      let y := (j : Int) - t.halo
      storedCell u t (1 - t.plane) i j = if updates t x y then newCell s t t.plane x y % 2 ^ t.bits else storedCell s t t.plane i j) ∧
    (∀ a, (a < pal + t.at_ + 0x18 ∨ pal + t.at_ + 0x20 ≤ a) →
      (∀ j, mine j → a < t.rowAt (1 - t.plane) j ∨ t.rowAt (1 - t.plane) j + t.pitch ≤ a) → memByte u.mem a = memByte s.mem a) ∧
    memNat u.mem (pal + t.at_ + 0x18) 8 =
      (if t.ph = 1 then (t.gen + 1) % 2 ^ 32 else t.gen % 2 ^ 32) + (1 - t.ph) * 2 ^ 32 + (if t.ph = 1 then 1 - t.plane else t.plane) * 2 ^ 33 +
      (if t.halo ≠ 0 ∧ t.wrap = false ∧ t.ph = 1 then t.vd - 1 else t.vd) * 2 ^ 34 + t.hrecv * 2 ^ 40

/-- R304, R308, R310, R311, R312: the events of the engine for a row of no region with nothing due at its boundary, while the engine holds nothing. The end of a GEN's
operation makes the step that the header asks for, counts it in PROGRESS and puts the GEN at the back of the queue, or ends the GEN with its status; the end of a GTBL's
writes the table and TLEN and gives the entries; when GHALO has read its last line the strips that are left leave; a strip that reaches its
neighbour's studio joins that engine's queue, or is held there by an operation on its tile; and the outcome of the last one completes the GHALO with its word, no sooner
than its time. -/
def Claim.RuleEvents : Prop :=
  ∀ (s : State) (st : Nat) (q : RuleReq) (rest : List RuleReq), Calm s q.row → getF s q.row fCode = 4 → q.row < 2 ^ 28 →
    let r := q.row
    let pal := studioPalette st
    let e := ruleOf s st
    let ends := e.queue = q :: rest ∧ e.busy = true ∧ e.left = 0 ∧ e.edge = none ∧ e.held = []
    let quiet := s.ms.watches = [] ∧ (∀ a, isBlock s a = false) ∧ (∀ a n, inHeader s a n = false) ∧ ∀ r ∈ s.rows.kinds, r < 2 ^ 28
    (∀ d a b sub imm t, ends → q.instr = some (.gen d a b sub imm) → q.step < 2 ^ 32 - 1 → (∀ h ∈ s.rows.stepHeld, h.1 ≠ r) → quiet →
      genVerdict s r a b sub imm = .step t → Yields (.genStep st) s fun u => getF u r fStep = q.step + 1 ∧ getF u r fMajor = 0xE1 ∧
        (∀ x, 2 ^ 43 ≤ x → memByte u.mem x = memByte (makeStep s (partOf s r) (ctxOf s r) t).mem x) ∧
        (ruleOf u st).queue = rest ++ [{ q with step := q.step + 1, readyAt := s.clk.now }]) ∧
    (∀ d a b sub imm t v, ends → q.instr = some (.gen d a b sub imm) → quiet → 0 < d.toNat → d.toNat < 30 →
      genVerdict s r a b sub imm = .ends t v → t = tileAt s t.st t.at_ → Yields (.genStep st) s fun u =>
        rawS u r d.toNat = BitVec.ofNat 64 v ∧ getF u r fCode = 3 ∧ (ruleOf u st).queue = rest ∧ ∀ x, 2 ^ 43 ≤ x → memByte u.mem x = memByte s.mem x) ∧
    (∀ x d hdr tab n w, ends → q.kind = 1 → tabGet s.ms.reqs q.id = some x → x.dest = .table d hdr tab n w → 0 < d → d < 30 →
      let bs := x.elems.flatMap fun y => bytesOf y.size y.value
      hdr + 0x18 ≤ tab ∨ tab + bs.length ≤ hdr + 0x10 → tab + bs.length ≤ 2 ^ 23 → hdr + 64 ≤ 2 ^ 23 → st < 256 → quiet →
      Yields (.gtblOperation st) s fun u => rawS u r d = BitVec.ofNat 64 w ∧ getF u r fCode = 3 ∧
        (∀ i < bs.length, memByte u.mem (pal + tab + i) = bs.getD i 0) ∧ bitsAt (memNat u.mem (pal + hdr + 0x10) 8) 32 11 = w % 2 ^ 11 ∧
        tabGet u.ms.reqs q.id = none) ∧
    (∀ h, (s.eng.halos.find? fun h => h.id == q.id) = some h → h.row = r → h.left ≠ 0 → h.due = none → Yields (.haloStrip q.id) s fun u =>
      u.mem = s.mem ∧ (∀ x ∈ s.eng.strips, x.halo = h.id → x.sent = false → x.leave = 0 → Due u (.haloStrip x.id) (s.clk.now + oneWay (exOf r) x.dst)) ∧
      ∃ n, (u.eng.halos.find? fun h => h.id == q.id) = some { h with due := some n } ∧
        ∀ x ∈ s.eng.strips, x.halo = h.id → s.clk.now + 2 * oneWay (exOf r) x.dst ≤ n) ∧
    (∀ x, (∀ h ∈ s.eng.halos, h.id ≠ q.id) → (s.eng.strips.find? fun x => x.id == q.id) = some x → x.back = false → x.held = false →
      let n := (x.dst - paletteBase) / 0x800000
      let o := ruleOf s n
      o.queue.head?.map RuleReq.id ≠ some q.id → Yields (.haloStrip q.id) s fun u => u.mem = s.mem ∧
        if stripMeets s x o.ranges then (ruleOf u n).held = o.held ++ [.event (stripEv s x)] ∧ (ruleOf u n).queue = o.queue
        else (ruleOf u n).queue = o.queue ++ [⟨2, x.row, q.id, none, 0, s.clk.now⟩] ∧ (ruleOf u n).held = o.held) ∧
    (∀ x h n, (∀ h ∈ s.eng.halos, h.id ≠ q.id) → (s.eng.strips.find? fun x => x.id == q.id) = some x → x.back = true → x.halo = h.id →
      s.eng.halos = [h] → h.row = r → h.left = 1 → h.due = some n → 0 < h.d → h.d < 30 →
      let word := h.word + 2 ^ ((if x.gen = 1 then 0 else 8) + x.dir)
      (n ≤ s.clk.now → Yields (.haloStrip q.id) s fun u => u.eng.halos = [] ∧ getF u r fCode = 3 ∧ rawS u r h.d = BitVec.ofNat 64 word) ∧
      (s.clk.now < n → Yields (.haloStrip q.id) s fun u => u.eng.halos = [{ h with left := 0, word := word }] ∧ Due u (.haloStrip h.id) n ∧
        u.mem = s.mem))

/-- R88, R401: SWEEP whose steps PROGRESS already counts completes with VALID clear; otherwise it waits with WHY 2 for the sweep latch, behind the rows that
wait already; with the latch free and none waiting its step begins, after 48 enabled cycles. The end of a step that is no fill writes V[d], flags and PROGRESS, and the SWEEP
goes on with its next step or completes; a fill has written V[c] into the active lanes of every line of the row (with z, V[d]'s other lanes become zero, and
no other lane of a line is written: log 48). -/
def Claim.Sweeps : Prop :=
  ∀ (s : State) (o : SweepX),
    let r := s.clk.cur
    let ex := homeOf r
    let k := if getF s r fValid = 1 ∧ getF s r fMajor = 0xBA then getF s r fStep else 0
    let n := src s o.b
    let w := fmtWidth o.et.toNat
    let queue := tabGetD s.eng.sweepQ ex []
    (n ≤ k → Completes (.sweep o) s 12 fun s u => getF u r fValid = 0 ∧ OnlyMem s u ∧ BytesKept s u (rowDpa r + 0x40) 8) ∧
    (k < n → latchTaken { s with eng := { s.eng with sweep := tabDel s.eng.sweep r } } ex = true → Leaves (.sweep o) s 2 12 fun t =>
      tabGetD t.eng.sweepQ ex [] = queue ++ [r] ∧ (∃ x, tabGet t.eng.sweep r = some x ∧ x.step = k ∧ x.instr = .sweep o ∧ x.begun = false) ∧ t.regs = s.regs) ∧
    (∀ a, k < n → latchTaken { s with eng := { s.eng with sweep := tabDel s.eng.sweep r } } ex = false → queue = [] →
      (o.a = 30 → chanOn s r = false) → r < 2 ^ 28 → stepStops s r = false → sweepCheck s r o k = .ok a → Leaves (.sweep o) s 2 12 fun t =>
        ∃ x, tabGet t.eng.sweep r = some x ∧ x.step = k ∧ x.begun = true ∧ x.left = 64 ∧ x.startAt = enabledCycles s ex + 48 ∧ x.at_ = a ∧ x.tmp = getV s r o.d.toNat) ∧
    (∀ q x, tabGet s.eng.sweep q = some x → x.instr = .sweep o → x.begun = true → x.left = 0 → x.fl < 32 → x.step < 2 ^ 32 - 1 → Calm s q →
      getF s q fCode = 4 → (∀ h ∈ s.rows.stepHeld, h.1 ≠ q) → tabGetD s.eng.sweepQ (homeOf q) [] = [] →
      let mask := getK s q o.k.toNat
      let done := x.step + 1
      let ends := (getS s q o.b.toNat).toNat ≤ done
      let goes := fun (t : State) => (∀ j < laneCount w, elemAt w (getV t q o.d.toNat) j =
          if bitAt mask j ∨ o.z = false then elemAt w x.tmp j else 0) ∧
        getF t q fFlags = (getF s q fFlags ||| x.fl) ∧ getF t q fStep = done ∧
        (ends → getF t q fCode = 3 ∧ tabGet t.eng.sweep q = none) ∧ (¬ ends → (tabGet t.eng.sweep q).map StepRun.step = some done)
      w ∈ [8, 16, 32, 64] →
      (o.sub ≠ 5 → ends ∨ (∃ a, sweepCheck s q o done = .ok a) → Yields (.sweepStep q) s goes) ∧
      (o.sub = 5 → placeOf x.at_ = .hbm → x.at_ % 4096 = 0 → isThread s (x.at_ / 4096) = false → ends ∨ (∃ a, sweepCheck s q o done = .ok a) →
        x.at_ / 4096 ≠ q → s.ms.forwards = [] → s.ms.watches = [] → (∀ a, isBlock s a = false) → (∀ a n, inHeader s a n = false) →
        Yields (.sweepStep q) s fun t => goes t ∧
          ∀ l < 64, ∀ j < laneCount w, elemAt w (memNat t.mem (x.at_ + 64 * l) 64) j =
            if bitAt mask j then elemAt w (getV t q o.c.toNat) j else elemAt w (memNat s.mem (x.at_ + 64 * l) 64) j))

/-! ### Joins (R313 to R333, R399) -/

/-- R319, R320, R328 to R332: JOPEN, JRWD and JCLOSE, X form with a register or the extended immediate as key and literal form, send one message to the engine of
their handle, a JRWD with e other than s0 to a peer (600 cycles away: log 8); they wait with WHY 1 unless d is s0. JCLOSE is shown for a row with nothing outstanding before it.
Reserved bits of S[c] of a JOPEN, and a peer above 65,535, fault ILLOP. -/
def Claim.JoinMessages : Prop :=
  ∀ (s : State) (o : JopenX) (p : JopenL) (q : JcloseX) (t : JcloseL),
    let r := s.clk.cur
    let key := fun (sub : BitVec 3) (a : Reg) (imm : BitVec 32) => if bitAt sub.toNat 0 then (imm.signExtend 64).toNat else src s a
    let send := fun (i : Instr) (len id : Nat) (h : BitVec 7) (d : Reg) (words : List Nat) (peer : Option Nat) (ev : Nat → Instr) =>
      let way := if peer = none then joinWay (exOf r) h.toNat else 600
      let sent := fun (u : State) => (∃ m ∈ u.join.msgs, m.id = id ∧ m.row = r ∧ m.part = partOf s r ∧ m.d = d.toNat ∧ m.handle = h.toNat ∧ m.words = words ∧
        m.wait = (d != 0) ∧ m.back = way ∧ m.peer = peer) ∧ Due u (ev id) (s.clk.now + way) ∧ u.regs = s.regs
      (d = 0 → Completes i s len fun s u => sent u ∧ u.mem = s.mem) ∧ (d ≠ 0 → Leaves i s 1 len sent)
    let jopen := fun (i : Instr) (len : Nat) (h : BitVec 7) (d b c e : Reg) (k : Nat) =>
      (src s c / 2 ^ 13 % 8 ≠ 0 → Traps i s (instrFault s r 0x01 0)) ∧
      (src s c / 2 ^ 13 % 8 = 0 → send i len s.clk.ids h d [k, src s b, src s c, src s e % 2 ^ 32] none .jopenMessage)
    let jrwd := fun (i : Instr) (len : Nat) (h : BitVec 7) (d b c e : Reg) (k : Nat) =>
      let words := [k, src s b, src s c % 2 ^ 32]
      (e = 0 → send i len s.clk.ids h d words none .reward) ∧
      (e ≠ 0 → 2 ^ 16 ≤ src s e → Traps i s (instrFault s r 0x01 0)) ∧
      (e ≠ 0 → src s e < 2 ^ 16 → send i len s.clk.ids h d words (some (src s e)) .reward)
    let jclose := fun (i : Instr) (len : Nat) (h : BitVec 7) (d b : Reg) (k : Nat) (terminal : Bool) =>
      (∀ w ∈ s.ms.wet, w.row ≠ r) → (∀ e ∈ s.ms.reqs, e.2.row ≠ r) → (∀ m ∈ s.join.msgs, m.id ≠ s.clk.ids) →
        send i len (s.clk.ids + 1) h d [k, src s b % 2 ^ 32, flag01 terminal] none .jcloseMessage
    jopen (.jopen o) 12 o.h o.d o.b o.c o.e (key o.sub o.a o.imm) ∧ jopen (.jopenXl p) 20 p.h p.d p.b p.c p.e p.lit.toNat ∧
    jrwd (.jrwd o) 12 o.h o.d o.b o.c o.e (key o.sub o.a o.imm) ∧ jrwd (.jrwdXl p) 20 p.h p.d p.b p.c p.e p.lit.toNat ∧
    jclose (.jclose q) 12 q.h q.d q.b (key q.sub q.a q.imm) (bitAt q.sub.toNat 1) ∧ jclose (.jcloseXl t) 20 t.h t.d t.b t.lit.toNat t.terminal

/-- R333, R399: JCFG and JVER are privileged; a handle above 127 faults ILLOP, and so does a counter above 13 of JSTAT; JCFG's descriptor must be aligned to 64 and lie at 0x800 to
0xFC0. JCFG waits with WHY 2 and is applied 24 cycles later (log 38); JVER waits with WHY 1 unless d is s0; JSTAT always waits with WHY 1. -/
def Claim.JoinTablesAsked : Prop :=
  ∀ (s : State) (d a b : Reg) (sel : BitVec 32),
    let r := s.clk.cur
    let h := src s a
    let off := src s b
    let words := (List.range 8).map fun i => rowNat s r (off + 8 * i) 8
    let sent := fun (u : State) (w : List Nat) (wait : Bool) (way : Nat) (ev : Instr) =>
      (∃ m ∈ u.join.msgs, m.id = s.clk.ids ∧ m.row = r ∧ m.part = partOf s r ∧ m.d = d.toNat ∧ m.handle = h ∧ m.words = w ∧ m.wait = wait) ∧
      Due u ev (s.clk.now + way) ∧ u.regs = s.regs
    let cfgs := [(Instr.jcfgSet d a b, 1), (.jcfgClear d a b, 2), (.jcfgPurge d a b, 3)]
    (isPriv s r = false → (∀ i ∈ cfgs, Traps i.1 s (instrFault s r 0x05 0)) ∧ Traps (.jver d a b) s (instrFault s r 0x05 0)) ∧
    (isPriv s r = true → 128 ≤ h → (∀ i ∈ cfgs, Traps i.1 s (instrFault s r 0x01 0)) ∧ Traps (.jver d a b) s (instrFault s r 0x01 0)) ∧
    (isPriv s r = true → h < 128 → ∀ i ∈ cfgs,
      (off % 64 ≠ 0 → Traps i.1 s ⟨0x04, 0, off % 2 ^ 48, 0⟩) ∧
      (off % 64 = 0 → off < 0x800 ∨ 0xFC0 < off → Traps i.1 s ⟨0x02, 0x01, off % 2 ^ 48, 0⟩) ∧
      (off % 64 = 0 → 0x800 ≤ off → off ≤ 0xFC0 → Leaves i.1 s 2 12 fun u => sent u (i.2 :: words) true 24 (.jverMessage s.clk.ids))) ∧
    (isPriv s r = true → h < 128 →
      (d = 0 → Completes (.jver d a b) s 12 fun s u => sent u [0, off % 2 ^ 32] false (joinWay (exOf r) h) (.jverMessage s.clk.ids) ∧ u.mem = s.mem) ∧
      (d ≠ 0 → Leaves (.jver d a b) s 1 12 fun u => sent u [0, off % 2 ^ 32] true (joinWay (exOf r) h) (.jverMessage s.clk.ids))) ∧
    (128 ≤ h ∨ 13 < sel.toNat → Traps (.jstat d a sel) s (instrFault s r 0x01 0)) ∧
    (h < 128 → sel.toNat ≤ 13 → Leaves (.jstat d a sel) s 1 12 fun u => sent u [sel.toNat] true (joinWay (exOf r) h) (.jstatRequest s.clk.ids))

/-- A record of `n` steps at `a` lies in plain memory of HBM that partition `p` reaches, in no thread row; nothing watches memory, no line is in
error, and its stack is under no sequencer reset. -/
def Claim.PlainRecord (s : State) (p a n : Nat) : Prop :=
  s.ms.watches = [] ∧ s.lines.poison = [] ∧ s.lines.latent = [] ∧ stackHeld s a = none ∧ (∀ x, isBlock s x = false) ∧
  (∀ x, a ≤ x → x < a + 64 + 32 * n → placeOf x = .hbm ∧ isThread s (x / 4096) = false ∧ partMayReach s p x = true)

/-- A message that waits for its reply is answered after the time back. -/
def Claim.JoinAnswer (s t : State) (m : JoinMsg) (v : Nat) : Prop :=
  m.wait = true → getF s m.row fCode = 4 → 0 < m.back → tabGet t.rows.longs m.row = some ⟨[⟨m.d, BitVec.ofNat 64 v⟩], 0, none⟩ ∧
    ∃ e ∈ t.agenda, e.ev = .longInstructionComplete m.row ∧ e.due = s.clk.now + m.back

/-- The message of a name stands at its engine, which may take it (R319), and its memory is at no stack under sequencer reset (R393). -/
def Claim.JoinTaken (s : State) (id : Nat) (m : JoinMsg) : Prop :=
  (s.join.msgs.find? fun m => m.id == id) = some m ∧ m.peer = none ∧ m.row < 2 ^ 28 ∧ (m.wait = false ∨ 0 < m.back) ∧
  (∀ kind < 5, messageWait s m kind = none) ∧ ∀ c, tabGet s.join.accepted (engOf m.handle) = some c → c + 4 ≤ s.clk.now

/-- R319: an engine takes one message in 4 cycles; one that comes sooner acts when the 4 cycles are over. R313, R320: a message for a handle that its sender's partition
has not configured changes no table and answers 4. -/
def Claim.JoinMessagesTaken : Prop :=
  ∀ (s : State) (id c : Nat) (m : JoinMsg), (s.join.msgs.find? fun m => m.id == id) = some m → m.peer = none →
    (tabGet s.join.accepted (engOf m.handle) = some c → s.clk.now < c + 4 →
      ∀ i ∈ [Instr.jopenMessage id, .reward id, .jcloseMessage id, .jverMessage id, .jstatRequest id], Yields i s fun t =>
        t.join = s.join ∧ t.mem = s.mem ∧ ∃ e ∈ t.agenda, e.ev = i ∧ e.due = c + 4) ∧
    (Claim.JoinTaken s id m → (∀ t, tableOf s m.handle = some t → t.part ≠ m.part) →
      ∀ i ∈ [Instr.jopenMessage id, .reward id, .jcloseMessage id], Yields i s fun t =>
        t.join.tables = s.join.tables ∧ t.mem = s.mem ∧ Claim.JoinAnswer s t m 4 ∧ ∀ x ∈ t.join.msgs, x.id ≠ id)

/-- R316, R317, R330: JOPEN at its engine. A bad range answers 7, a live key 5, a full table 6, and nothing changes; otherwise the episode takes
the first free of its probes, its record is written with its key, L, actor, SEQ, VERSION and STATE OPEN and every step without a reward, and with no orphan of the key it answers 0. -/
def Claim.EpisodesOpen : Prop :=
  ∀ (s : State) (id key at_ lw ver : Nat) (m : JoinMsg) (t : JoinTable), Claim.JoinTaken s id m → m.words = [key, at_, lw, ver] →
    tableOf s m.handle = some t → t.part = m.part → t.purge = none → (∀ o ∈ orphansOf s (engOf m.handle), ¬ (o.table = m.handle ∧ o.key = key)) →
    let n := lw % 2 ^ 13
    let same := fun (v : Nat) => Yields (.jopenMessage id) s fun u => u.join.tables = s.join.tables ∧ u.mem = s.mem ∧ Claim.JoinAnswer s u m v
    (recBad s t.part at_ n = true → same 7) ∧ (recBad s t.part at_ n = false → epOf t key ≠ none → same 5) ∧
    (recBad s t.part at_ n = false → epOf t key = none → probe t key = none → same 6) ∧
    (∀ slot, recBad s t.part at_ n = false → epOf t key = none → probe t key = some slot → Claim.PlainRecord s t.part at_ n → (∀ r ∈ s.rows.kinds, r < 2 ^ 28) →
      m.row * 4096 + 4096 ≤ at_ ∨ at_ + 64 + 32 * n ≤ m.row * 4096 →
      Yields (.jopenMessage id) s fun u => Claim.JoinAnswer s u m 0 ∧
        (∃ t', tableOf u m.handle = some t' ∧ ∃ e ∈ t'.eps, e.key = key ∧ e.recAt = at_ ∧ e.slot = slot ∧ e.held = false ∧ e.releasing = false ∧
          ∀ x ∈ t.eps, x ∈ t'.eps) ∧
        memNat u.mem at_ 8 = key % 2 ^ 64 ∧ memNat u.mem (at_ + 8) 8 = (lw &&& 0xFFFFFFFFFFFF1FFF) % 2 ^ 64 ∧ memNat u.mem (at_ + 0x10) 8 = ver % 2 ^ 64 ∧
        memNat u.mem (at_ + 0x20) 8 = 1 ∧ (∀ i < n, memNat u.mem (at_ + 0x40 + 32 * i + 4) 12 = 0 ∧ memByte u.mem (at_ + 0x40 + 32 * i + 17) = 0))

/-- R321: a reward at its engine, for an episode that this reward does not complete. Of a step at or past 4,096 or L it answers 3, and no counter changes (log 41); of one that has its reward 2, and is
counted; otherwise it is written, the step is marked and GOT counts it, and the answer is 0. A reward whose key is not live becomes an orphan and answers 1, while the table has room for
orphans; a second one of the same step answers 2, and one without room 3. -/
def Claim.RewardsLand : Prop :=
  ∀ (s : State) (id key step v : Nat) (m : JoinMsg) (t : JoinTable), Claim.JoinTaken s id m → m.words = [key, step, v] →
    tableOf s m.handle = some t → t.part = m.part → t.purge = none → s.lines.poison = [] → s.lines.latent = [] →
    let mine := fun (o : Orphan) => o.table = m.handle ∧ o.key = key ∧ o.step = step
    let orphans := orphansOf s (engOf m.handle)
    let count := (orphans.filter fun o => o.table == m.handle).length
    let gives := fun (x : Nat) (P : State → Prop) => Yields (.reward id) s fun u => Claim.JoinAnswer s u m x ∧ P u
    let counted := fun (u : State) (sel : Nat) => ∃ t', tableOf u m.handle = some t' ∧ t'.eps = t.eps ∧ tabGetD t'.counts sel 0 = (tabGetD t.counts sel 0 + 1) % 2 ^ 64
    (2 ^ 12 ≤ step → gives 3 fun u => u.mem = s.mem ∧ u.join.tables = s.join.tables) ∧
    (∀ e, step < 2 ^ 12 → epOf t key = some e →
      let n := recLen s e.recAt
      let p := e.recAt + 0x40 + 32 * step
      let got := recF s e.recAt 0x10 32 32
      recF s e.recAt 0x20 0 3 = 1 →
      (n ≤ step → gives 3 fun u => u.mem = s.mem ∧ u.join.tables = s.join.tables) ∧
      (step < n → bitAt (memNat s.mem (p + 17) 1) 0 = true → gives 2 fun u => u.mem = s.mem ∧ counted u 10) ∧
      (step < n → bitAt (memNat s.mem (p + 17) 1) 0 = false → Claim.PlainRecord s t.part e.recAt n → (∀ r ∈ s.rows.kinds, r < 2 ^ 28) →
        m.row * 4096 + 4096 ≤ e.recAt ∨ e.recAt + 64 + 32 * n ≤ m.row * 4096 → gives 0 fun u =>
          memNat u.mem (p + 4) 4 = v % 2 ^ 32 ∧ bitAt (memNat u.mem (p + 17) 1) 0 = true ∧ recF u e.recAt 0x10 32 32 = (got + 1) % 2 ^ 32)) ∧
    (step < 2 ^ 12 → epOf t key = none →
      ((∃ o ∈ orphans, mine o) → gives 2 fun u => u.mem = s.mem ∧ counted u 10) ∧
      ((∀ o ∈ orphans, ¬ mine o) → descW t 2 / 2 ^ 32 % 2 ^ 13 ≤ count → gives 3 fun u => u.mem = s.mem ∧ counted u 9) ∧
      ((∀ o ∈ orphans, ¬ mine o) → count < descW t 2 / 2 ^ 32 % 2 ^ 13 → gives 1 fun u => u.mem = s.mem ∧
        orphansOf u (engOf m.handle) = orphans ++ [⟨m.handle, key, step, v, activeNow s + descW t 3 / 2 ^ 32 % 2 ^ 32 * 1024⟩]))

/-- R323, R325, R332, R399: JCLOSE at its engine. An unknown key answers 8 and an episode that is not OPEN 9; otherwise BOOT and the terminal mark are written and STATE is
CLOSED, and the answer is 0; an episode whose rewards have all come, in a table without ORDER and not stale, goes to release at once, 512 + 2L cycles before its push when the engine
has no other. -/
def Claim.EpisodesClose : Prop :=
  ∀ (s : State) (id key boot term : Nat) (m : JoinMsg) (t : JoinTable), Claim.JoinTaken s id m → m.words = [key, boot, term] →
    tableOf s m.handle = some t → t.part = m.part → t.purge = none → s.lines.poison = [] → s.lines.latent = [] →
    let same := fun (v : Nat) => Yields (.jcloseMessage id) s fun u => u.join.tables = s.join.tables ∧ u.mem = s.mem ∧ Claim.JoinAnswer s u m v
    (epOf t key = none → same 8) ∧
    (∀ e, epOf t key = some e → recF s e.recAt 0x20 0 3 ≠ 1 → same 9) ∧
    (∀ e, epOf t key = some e → recF s e.recAt 0x20 0 3 = 1 → Claim.PlainRecord s t.part e.recAt (recLen s e.recAt) → (∀ r ∈ s.rows.kinds, r < 2 ^ 28) →
      m.row * 4096 + 4096 ≤ e.recAt ∨ e.recAt + 64 + 32 * recLen s e.recAt ≤ m.row * 4096 →
      let closed := fun (u : State) => recF u e.recAt 0x18 0 33 = boot % 2 ^ 32 + (if term = 1 then 2 ^ 32 else 0) ∧ recF u e.recAt 0x20 0 3 = 2 ∧
        Claim.JoinAnswer s u m 0
      let lag := (t.lv + 2 ^ 32 - recF s e.recAt 0x10 0 32) % 2 ^ 32
      (recF s e.recAt 0x10 32 32 ≠ recLen s e.recAt → Yields (.jcloseMessage id) s fun u => closed u ∧ u.join.tables = s.join.tables) ∧
      (recF s e.recAt 0x10 32 32 = recLen s e.recAt → e.held = false → e.releasing = false → tblOrder t = false → lag ≤ descW t 2 % 2 ^ 32 ∨ 2 ^ 31 ≤ lag →
        tabGetD s.join.releases (engOf m.handle) [] = [] → Yields (.jcloseMessage id) s fun u => closed u ∧
          tabGetD u.join.releases (engOf m.handle) [] = [⟨m.handle, key, true, false, 0⟩] ∧
          ∃ x ∈ u.agenda, x.ev = .releasePush (engOf m.handle) ∧ x.due = s.clk.now + 512 + 2 * recLen s e.recAt))

/-- R326: the scan of a record of `n` steps in plain memory writes into each step its advantage and return, from the last step back: with G and GL of the table, V and R of the steps,
NOTDONE, and what stands after the last step (BOOT, or 0 for a terminal one). -/
def Claim.RecordsScan : Prop :=
  ∀ (s : State) (t : JoinTable) (a : Nat),
    let n := recLen s a
    let u := scanRecord s t a
    let step := fun (i : Nat) => a + 0x40 + 32 * i
    let val := fun (i : Nat) => if i < n then memNat s.mem (step i) 4
      else if recF s a 0x18 32 1 = 1 then 0 else recF s a 0x18 0 32
    let adv := fun (i : Nat) => if i < n then memNat u.mem (step i + 8) 4 else 0
    Claim.PlainRecord s t.part a n → (∀ r ∈ s.rows.kinds, r < 2 ^ 28) → ∀ i < n,
      let live := if memByte s.mem (step i + 16) = 0 then 0x3F800000 else 0
      let next := (fpMul f32Fmt 0 (fpMul f32Fmt 0 (descW t 1 % 2 ^ 32) (val (i + 1))).1 live).1
      let delta := (fpSub f32Fmt 0 (fpAdd f32Fmt 0 (memNat s.mem (step i + 4) 4) next).1 (val i)).1
      adv i = (fpAdd f32Fmt 0 delta (fpMul f32Fmt 0 t.gl (adv (i + 1))).1).1 % 2 ^ 32 ∧
      memNat u.mem (step i + 12) 4 = (fpAdd f32Fmt 0 (adv i) (val i)).1 % 2 ^ 32 ∧
      memNat u.mem (step i) 8 = memNat s.mem (step i) 8

/-- R325 to R327: the push of a release scans the record, whose steps then have the advantages and returns of `scanRecord` (the scan is made at the push: log 41); with room
in the rack that the table names the sketch is placed there and the episode leaves its table
with STATE RELEASED; without, and with no room that a block could make, the push is held (log 40) and offered again 1,024 cycles later, and a retry that finds none stays held;
where a block is leaving the rack it is held until the block has landed (R250). A retry does not scan again, and before any
held push is due it changes nothing. -/
def Claim.ReleasesPush : Prop :=
  ∀ (s : State) (eng : Nat) (x : Release) (t : JoinTable) (e : Episode), tableOf s x.table = some t → epOf t x.key = some e →
    tblOrder t = false → t.purge = none → Claim.PlainRecord s t.part e.recAt (recLen s e.recAt) → (∀ r ∈ s.rows.kinds, r < 2 ^ 28) →
    let tgt := (rackName 0 (descW t 5)).getD (0, 0)
    let k := rackAtLevel tgt.1 tgt.2 t.part
    let room := rackCount s k + 1 + blockSize s t.part ≤ rackShare s k
    let full := rackShare s k ≤ rackCount s k ∧ moveUp s (tblCtx t) 3 k = none ∧ ∀ m ∈ s.msg.moves, m.src ≠ k
    let placed := fun (u : State) => (∃ y ∈ tabGetD u.msg.racks k [], y.ctx = tblCtx t ∧ y.engager = none ∧
        y.sketch.head? = some (BitVec.ofNat 64 (descW t 4 % 2 ^ 40)) ∧ y.sketch.getD 1 0 = BitVec.ofNat 64 e.recAt) ∧
      recF u e.recAt 0x20 0 3 = 4 ∧ (∀ t', tableOf u x.table = some t' → epOf t' x.key = none) ∧
      ∀ y ∈ tabGetD u.join.releases eng [], ¬ (y.table = x.table ∧ y.key = x.key)
    let kept := fun (u : State) (at_ : Nat) => (∃ y ∈ tabGetD u.join.releases eng [], y.table = x.table ∧ y.key = x.key ∧ y.held = true ∧ y.offerAt = at_) ∧
      tableOf u x.table = some t
    let stays := fun (u : State) => kept u (s.clk.now + 1024) ∧ ∃ v ∈ u.agenda, v.ev = .releasePushRetry eng ∧ v.due = s.clk.now + 1024
    let leaving := rackShare s k ≤ rackCount s k ∧ ∃ m ∈ s.msg.moves, m.src = k
    let scanned := fun (u : State) => ∀ i < recLen s e.recAt, let p := e.recAt + 0x40 + 32 * i
      memNat u.mem (p + 8) 8 = memNat (scanRecord s t e.recAt).mem (p + 8) 8 ∧ memNat u.mem p 8 = memNat s.mem p 8
    (((tabGetD s.join.releases eng []).find? Release.running) = some x → rackPart k = t.part → x.table % 8 = eng →
      (room → Yields (.releasePush eng) s fun u => placed u ∧ scanned u) ∧ (full → Yields (.releasePush eng) s fun u => stays u ∧ scanned u) ∧
      (leaving → Yields (.releasePush eng) s fun u => kept u 0 ∧ scanned u)) ∧
    ((∀ y ∈ tabGetD s.join.releases eng [], y.held = true → s.clk.now < y.offerAt) → exec (.releasePushRetry eng) s = .next s) ∧
    ((tabGetD s.join.releases eng []).filter (fun y => y.held && decide (y.offerAt ≤ s.clk.now)) = [x] → rackPart k = t.part → x.table % 8 = eng →
      (room → Yields (.releasePushRetry eng) s fun u => placed u ∧ BytesKept s u e.recAt 0x40) ∧
      (full → Yields (.releasePushRetry eng) s fun u => stays u ∧ u.mem = s.mem))

/-- R314, R315, R333: JCFG and JVER at the engine, and JSTAT. Set answers 1 for a configured handle, 3 and 2 for a bad descriptor or area, and otherwise configures the handle
with an empty, cleared area; clear answers 4, 1 while anything is live, or frees the handle; purge of a table with no push held discards what is live and frees it; JVER of an own
table gives the old LV and sets it, JSTAT gives its counter, and faults RIGHTS for the table of another partition. JCFG's answer comes 24 cycles after its part, and one cycle
later for each entry of a new area (log 38). -/
def Claim.JoinTablesAct : Prop :=
  ∀ (s : State) (id op : Nat) (desc : List Nat) (m : JoinMsg), Claim.JoinTaken s id m → m.wait = true → getF s m.row fCode = 4 →
    let h := m.handle
    let words := desc.map (BitVec.ofNat 64)
    let area := words.headD 0
    let gives := fun (i : Instr) (v way : Nat) (P : State → Prop) => Yields i s fun u =>
      tabGet u.rows.longs m.row = some ⟨[⟨m.d, BitVec.ofNat 64 v⟩], 0, none⟩ ∧
      (∃ e ∈ u.agenda, e.ev = .longInstructionComplete m.row ∧ e.due = s.clk.now + way) ∧ P u
    let mine := fun (t : JoinTable) => tableOf s h = some t ∧ t.part = m.part
    let same := fun (u : State) => u.mem = s.mem ∧ u.join.tables = s.join.tables
    m.words = op :: desc →
    (op = 1 → tableOf s h ≠ none → gives (.jverMessage id) 1 24 same) ∧
    (op = 1 → tableOf s h = none → descRefused words = true → gives (.jverMessage id) 3 24 same) ∧
    (op = 1 → tableOf s h = none → descRefused words = false → areaRefused s m.part (engOf h) words = true → gives (.jverMessage id) 2 24 same) ∧
    (op = 1 → tableOf s h = none → descRefused words = false → areaRefused s m.part (engOf h) words = false →
      m.row * 4096 + 4096 ≤ bitsAt area.toNat 0 48 ∨ bitsAt area.toNat 0 48 + areaBytes words ≤ m.row * 4096 →
      gives (.jverMessage id) 0 (24 + 2 ^ bitsAt (desc.getD 0 0) 48 5) fun u =>
        (∃ t, tableOf u h = some t ∧ t.part = m.part ∧ t.desc = words ∧ t.eps = [] ∧ t.lv = 0) ∧
        (∀ x, bitsAt area.toNat 0 48 ≤ x → x < bitsAt area.toNat 0 48 + areaBytes words → memByte u.mem x = 0)) ∧
    (op = 2 ∨ op = 3 → (∀ t, ¬ mine t) → gives (.jverMessage id) 4 24 same) ∧
    (∀ t, op = 2 → mine t → t.eps ≠ [] ∨ (∃ o ∈ orphansOf s (engOf h), o.table = h) → gives (.jverMessage id) 1 24 same) ∧
    (∀ t, op = 2 → mine t → t.eps = [] → (∀ o ∈ orphansOf s (engOf h), o.table ≠ h) → gives (.jverMessage id) 0 24 fun u => tableOf u h = none) ∧
    (∀ t, op = 3 → mine t → (∀ x ∈ tabGetD s.join.releases (engOf h) [], x.held = false) →
      (∀ e ∈ t.eps, placeOf e.recAt = .hbm ∧ placeOf (e.recAt + 63) = .hbm ∧ (m.row * 4096 + 4096 ≤ e.recAt ∨ e.recAt + 64 ≤ m.row * 4096)) → gives (.jverMessage id) 0 24 fun u =>
        tableOf u h = none ∧ ∀ o ∈ orphansOf u (engOf h), o.table ≠ h) ∧
    (∀ t lv, op = 0 → desc = [lv] → mine t → t.purge = none → t.lv < 2 ^ 63 → gives (.jverMessage id) t.lv m.back fun u =>
      tableOf u h = some { t with lv := lv } ∧ u.mem = s.mem) ∧
    (op = 0 → (∀ t, mine t → t.purge ≠ none) → gives (.jverMessage id) (2 ^ 63 + 4) m.back same) ∧
    (∀ v, op ≤ 13 → statAt s m.part h op = some v → gives (.jstatRequest id) v m.back same) ∧
    (statAt s m.part h op = none → Yields (.jstatRequest id) s fun u => same u ∧
      tabGet u.rows.longs m.row = some ⟨[], 0, some ⟨0x03, 0x11, h, 0⟩⟩)

/-- R318, R322, R324: a tick drops the orphans that have expired and no other; with one episode of one table overdue and not releasing, an OPEN one is discarded with REASON 4 and
counted, a closed one that does not wait (EARLY clear) goes to release with its missing steps zero-filled and marked; with none overdue a tick changes nothing. -/
def Claim.JoinTicks : Prop :=
  ∀ (s : State) (eng h : Nat) (t : JoinTable) (e : Episode),
    (Yields (.orphanExpiry eng) s fun u => orphansOf u eng = (orphansOf s eng).filter (fun o => !decide (o.expiry ≤ activeNow s)) ∧ u.mem = s.mem ∧
      u.agenda = s.agenda) ∧
    ((∀ x ∈ s.join.tables, engOf x.1 = eng → ∀ y ∈ x.2.eps, overdue (activeNow s) y = false) → exec (.episodeDeadline eng) s = .next s) ∧
    (s.join.tables = [(h, t)] → engOf h = eng → t.eps = [e] → overdue (activeNow s) e = true → e.held = false → tblOrder t = false →
      Claim.PlainRecord s t.part e.recAt (recLen s e.recAt) → (∀ r ∈ s.rows.kinds, r < 2 ^ 28) → recLen s e.recAt ≤ 4096 →
      (recF s e.recAt 0x20 0 3 = 1 → Yields (.episodeDeadline eng) s fun u => recF u e.recAt 0x20 0 3 = 5 ∧ recF u e.recAt 0x20 3 5 = 4 ∧
        (∃ t', tableOf u h = some t' ∧ t'.eps = [] ∧ tabGetD t'.counts 3 0 = (tabGetD t.counts 3 0 + 1) % 2 ^ 64)) ∧
      (recF s e.recAt 0x20 0 3 = 2 → bitAt (descW t 0) 53 = true → Yields (.episodeDeadline eng) s fun u =>
        recF u e.recAt 0x20 0 3 = 5 ∧ recF u e.recAt 0x20 3 5 = 1 ∧ ∃ t', tableOf u h = some t' ∧ t'.eps = []) ∧
      (recF s e.recAt 0x20 0 3 = 2 → bitAt (descW t 0) 53 = false → t.lv = recF s e.recAt 0x10 0 32 → Yields (.episodeDeadline eng) s fun u =>
        recF u e.recAt 0x20 8 1 = 1 ∧ (∃ x ∈ tabGetD u.join.releases eng [], x.table = h ∧ x.key = e.key) ∧
        ∀ i < recLen s e.recAt, bitAt (memNat s.mem (e.recAt + 0x40 + 32 * i + 17) 1) 0 = false →
          memNat u.mem (e.recAt + 0x40 + 32 * i + 4) 4 = 0 ∧ memNat u.mem (e.recAt + 0x40 + 32 * i + 17) 1 = 2))

/-! ### Accesses at their homes, replies, walks, migrations, wet stores, the lower-bound network (R89, R185 to R233) -/

/-- R89, R185, R196, R208, R230 to R232, R396: a direct access of one element at a data row of HBM that nothing holds and no poison marks, at
its own address or where a migration has moved its line. A load brings the word with its row's own wet stores over it; a store writes
its bytes; an atomic brings the old word and writes the new one; ACAS writes only when the word equals what it compares; a WATCH that
sees another value brings it, and one that sees the same is registered. Nothing else in memory changes, and the reply arrives no sooner
than the unloaded way back. -/
def Claim.AccessesAtHomes : Prop :=
  ∀ (s : State) (id a : Nat) (q : Req) (e : Elem),
    let n := e.size
    let old := memNat s.mem a n
    tabGet s.ms.reqs id = some q → q.elems = [e] → q.whole = false →
    (forwardOf s e.addr = .here ∧ a = e.addr) ∨ forwardOf s e.addr = .moved a →
    placeOf a = .hbm → isThread s (a / 4096) = false → 0 < n → placeLost s q a = false → holdFor s q e a = .free →
    poisonedLine s a n = none → s.lines.latent = [] → isBlock s a = false → isBlock s (a + n - 1) = false → inHeader s a n = false →
    let kept := fun (t : State) => t.mem = s.mem
    let holds := fun (v : Nat) (t : State) => memNat t.mem a n = v % 2 ^ (8 * n) ∧ BytesKept s t a n
    let brings := fun (v : Nat) (P : State → Prop) => ∃ t q', exec (.directAccess id 0) s = .next t ∧ tabGet t.ms.reqs id = some q' ∧
      q'.elems.map Elem.got = [some v] ∧ Due t (.memoryReply id) (s.clk.now + oneWay q.ex a) ∧ P t
    (q.op = .read → q.path = .T →
      brings (natOfBytes ((List.range n).map fun i => ownByte s q.row (a + i) (memByte s.mem (a + i)))) kept) ∧
    (q.op = .read → q.path ≠ .T → brings old kept) ∧
    (∀ b, q.op = .write b → brings 0 (holds e.data)) ∧
    (∀ op et rm, q.op = .atom op et rm → brings old (holds (atomNew op et rm old e.data).1)) ∧
    (q.op = .cas → old = e.cmp % 2 ^ (8 * n) → brings old (holds e.data)) ∧
    (q.op = .cas → old ≠ e.cmp % 2 ^ (8 * n) → brings old kept) ∧
    (∀ et v, q.op = .watch et v → old ≠ v % 2 ^ (8 * n) → brings old kept) ∧
    (∀ et v, q.op = .watch et v → old = v % 2 ^ (8 * n) → ∃ t, exec (.directAccess id 0) s = .next t ∧ kept t ∧
      ∃ w ∈ t.ms.watches, w.req = id ∧ w.row = q.row ∧ w.addr = a ∧ w.size = n ∧ w.old = v)

/-- R86: an access of another row to a row with a command pending is held behind the command and changes nothing else, unless that row's
boundary has held it before (R89); R196: one to a line being copied is held until the line has been copied: it tries again in the next cycle
(log 43, the model's way of holding it). R87, R90: an atomic or a JDEC that finds CMD of a thread row at its home is answered with SEG 0x03 (log 50)
and writes nothing. -/
def Claim.AccessesHeld : Prop :=
  ∀ (s : State) (id : Nat) (q : Req) (e : Elem), tabGet s.ms.reqs id = some q → q.elems = [e] → q.whole = false →
    let a := e.addr
    let ev := Instr.directAccess id 0
    (forwardOf s a = .here → placeOf a = .hbm → isThread s (a / 4096) = true → q.row ≠ a / 4096 → getF s (a / 4096) fPend = 1 → e.past = false →
      placeLost s q a = false → stackHeld s a = none → ruleHolds s a e.size = false →
      ∃ x, x.ev = ev ∧ exec ev s = .next { s with rows := { s.rows with held := s.rows.held ++ [(a / 4096, x)] } }) ∧
    (forwardOf s a = .busy → ∃ t x, exec ev s = .next t ∧ x ∈ t.agenda ∧ x.ev = ev ∧ x.due = s.clk.now + 1 ∧
      { t with agenda := s.agenda } = s) ∧
    (forwardOf s a = .here → placeOf a = .hbm → touchesCmd s a e.size = true → placeLost s q a = false → holdFor s q e a = .free →
      poisonedLine s a e.size = none → s.lines.latent = [] → q.fault = none →
      (∃ op et rm, q.op = .atom op et rm) ∨ q.op = .cas ∨ (∃ c, q.op = .jdec c) →
      ∃ t q', exec ev s = .next t ∧ t.mem = s.mem ∧ tabGet t.ms.reqs id = some q' ∧ q'.fault = some ⟨0x02, 0x03, e.va, q.seg.kind⟩ ∧
        Due t (.memoryReply id) (s.clk.now + oneWay q.ex a))

/-- A scalar result `v` for register `d` of row `r`, with flags `fl`, ends the row's waiting instruction: the register and the flags are
written, the PC goes past the instruction, the row is RUNNING (R110). -/
def Claim.EndsWith (i : Instr) (s : State) (r d fl : Nat) (v : Word) : Prop :=
  ∃ t, exec i s = .next t ∧ rawS t r d = v ∧ getF t r fFlags = (getF s r fFlags ||| fl) ∧
    getF t r fPc = (getF s r fPc + tabGetD s.rows.lens r 4) % 2 ^ 40 ∧ getF t r fCode = 3 ∧ t.regs = s.regs ∧
    ∀ k, 0 < k → k < 32 → k ≠ d → rawS t r k = rawS s r k

/-- R110, R186, R334: a reply that is not the last counts down; the last one of a waiting access writes the scalar result, or takes the
fault; one of an access that nobody waits for only drops the record. A long instruction's end writes its result or takes its fault;
both leave a row that no longer waits as it is. -/
def Claim.RepliesEndAccesses : Prop :=
  ∀ (s : State) (id d w : Nat) (sg : Bool) (q : Req) (c : Completion) (f : FaultRec) (fl : Nat) (v : Word),
    let calm := fun (r : Nat) => r < 2 ^ 28 ∧ getF s r fCode = 4 ∧ Calm s r ∧ s.rows.popDue.contains r = false ∧ 0 < d ∧ d < 30 ∧ fl < 32
    (tabGet s.ms.reqs id = some q →
      (1 < q.left → exec (.memoryReply id) s = .next { s with ms := { s.ms with reqs := tabSet s.ms.reqs id { q with left := q.left - 1 } } }) ∧
      (q.dest = .scalar d w sg → q.wait = true → q.fault = none → q.fl = fl → calm q.row → ∀ i ∈ [Instr.memoryReply id, .watchAnswer id],
        (i = .memoryReply id → q.left ≤ 1) → Claim.EndsWith i s q.row d fl (extendTo w sg (((q.elems.headD {}).got).getD 0))) ∧
      (q.dest = .scalar d w sg → q.wait = true → q.fault = some f → getF s q.row fCode = 4 → isThread s q.row = true → q.left ≤ 1 →
        let u := { s with ms := { s.ms with reqs := tabDel s.ms.reqs id } }
        exec (.memoryReply id) s = .next (takeFault u q.row f (majorAt u q.row))) ∧
      (q.dest = .none → q.wait = false → q.left ≤ 1 →
        exec (.memoryReply id) s = .next { s with ms := { s.ms with reqs := tabDel s.ms.reqs id } })) ∧
    (∀ r, tabGet s.rows.longs r = some c → isThread s r = true →
      (c.writes = [⟨d, v⟩] → c.fl = fl → c.fault = none → calm r → Claim.EndsWith (.longInstructionComplete r) s r d fl v) ∧
      (getF s r fCode = 4 → c.fault = some f → exec (.longInstructionComplete r) s = .next (takeFault s r f (majorAt s r))) ∧
      (getF s r fCode ≠ 4 → getF s r fCode ≠ 5 → exec (.longInstructionComplete r) s = .next s))

/-- R190, R191: a walk ends with its entry at the head of its executor's cache and of its studio's, and a fetch that waited for it makes its
row RUNNING, to issue again. R393: one whose reads are held at a stack under sequencer reset ends later (log 75). -/
def Claim.WalksEnd : Prop :=
  ∀ (s : State) (w : Walk) (e : TlbEntry) (r va : Nat), s.ms.walks = [w] → w.entry = some e → w.stale = false →
    let first := fun (t : State) => (tabGetD t.ms.tlb w.ex []).head? = some e ∧ (tabGetD t.ms.tlb2 (studioOf w.ex) []).head? = some e ∧
      t.ms.walks = [] ∧ t.regs = s.regs
    (∀ d, walkWait s w = some d → ∃ t, exec (.walkComplete w.id) s = .next t ∧ Due t (.walkComplete w.id) (s.clk.now + d) ∧
      t.mem = s.mem ∧ t.regs = s.regs) ∧
    (walkWait s w = none → w.serves = [] → ∃ t, exec (.walkComplete w.id) s = .next t ∧ first t ∧ t.mem = s.mem) ∧
    (walkWait s w = none → w.serves = [.reissue r va] → exOf r = w.ex → isThread s r = true → getF s r fCode = 4 →
      ∃ t, exec (.walkComplete w.id) s = .next t ∧ first t ∧ getF t r fCode = 3 ∧ getF t r fPc = getF s r fPc ∧
        BytesKept s t (rowDpa r + 8) 8)

/-- R196, R206: a line of a migration between frames of data rows is copied, the forwarding record counts it, and the next line
follows 4 cycles later; after the last one the waiting row gets status 0. -/
def Claim.MigrationsCopy : Prop :=
  ∀ (s : State) (m : Migration) (f : Forward), s.ms.migrations = [m] → s.ms.forwards = [f] → f.oldBase = m.oldBase →
    let a := m.oldBase + 64 * m.line
    let b := m.newBase + 64 * m.line
    stackHeld s a = none → stackHeld s b = none → placeOf a = .hbm → placeOf b = .hbm → a % 64 = 0 → b % 64 = 0 → isThread s (b / 4096) = false →
    isBlock s b = false → isBlock s (b + 63) = false → inHeader s b 64 = false →
    (64 * (m.line + 1) < m.size → ∃ t, exec (.migrationLineCopy m.id) s = .next t ∧ memRead t.mem b 64 = memRead s.mem a 64 ∧
      BytesKept s t b 64 ∧ t.ms.forwards = [{ f with copied := m.line + 1, busy := true }] ∧
      ∃ x ∈ t.agenda, x.ev = .migrationLineCopy m.id ∧ x.due = s.clk.now + 4) ∧
    (m.size ≤ 64 * (m.line + 1) → m.leaf < f.oldBase ∨ f.oldBase + f.size ≤ m.leaf → placeOf m.leaf = .hbm → m.leaf % 8 = 0 → isThread s (m.leaf / 4096) = false → isThread s m.row = true →
      getF s m.row fCode = 4 → rowDpa m.row + 0x1000 ≤ b ∨ b + 64 ≤ rowDpa m.row → m.row < 2 ^ 28 →
      ∃ t, exec (.migrationLineCopy m.id) s = .next t ∧ t.ms.migrations = [] ∧ t.ms.forwards = [{ f with copied := m.line + 1, busy := false }] ∧
        tabGet t.rows.longs m.row = some ⟨[⟨m.d, 0⟩], 0, none⟩ ∧
        Due t (.longInstructionComplete m.row) (s.clk.now + oneWay (exOf m.row) m.oldBase))

/-- R207: the first trip of a store to a thread row writes it there; one to a data row changes no memory; the outcome goes back. R207, R209:
the reply ends the trip; an entry whose bytes were all given up is freed, and any other stays wet. -/
def Claim.FirstTrips : Prop :=
  ∀ (s : State) (id : Nat) (q : Req) (e : Elem) (b : Bool), tabGet s.ms.reqs id = some q → q.elems = [e] →
    let a := e.addr
    let n := e.size
    let back := fun (taken : Bool) (P : State → Prop) => ∃ t, exec (.wetStoreFirstTrip id) s = .next t ∧
      Due t (.wetTripReply id taken) (s.clk.now + oneWay q.ex a) ∧ P t
    (forwardOf s a = .here → placeOf a = .hbm → isThread s (a / 4096) = false → back false fun t => t.mem = s.mem ∧ t.regs = s.regs) ∧
    (forwardOf s a = .here → placeOf a = .hbm → isThread s (a / 4096) = true → q.op = .write b → holdFor s q e a = .free → 0 < n →
      0x100 ≤ a % 4096 → a % 4096 + n ≤ 0x640 ∨ 0x700 ≤ a % 4096 → a % 4096 + n ≤ 4096 → inHeader s a n = false →
      back true fun t => memNat t.mem a n = e.data % 2 ^ (8 * n) ∧ BytesKept s t a n) ∧
    ((∀ x ∈ s.ms.reqs, x.1 ≠ id → x.2.status ≠ q.status) → ∃ t, exec (.wetTripReply id b) s = .next t ∧ tabGet t.ms.reqs id = none ∧
      t.mem = s.mem ∧ t.regs = s.regs ∧ ∀ w ∈ s.ms.wet, w.id = q.status → w.stage = 0 →
        w ∉ t.ms.wet ∧ ({ w with stage := 1 } ∈ t.ms.wet ↔ w.bytes ≠ []))

/-- R209, R216, R219: an entry that dries is sent to its home; there each of its bytes is written unless the dried store that last wrote
that byte has precedence (a later tag, or the same tag and a higher row, or of the same row a later place in program order); the
acknowledgement frees the entry. -/
def Claim.EntriesDry : Prop :=
  ∀ (s : State) (w : Wet), wetOf s w.id = some w →
    let a := w.line * 64
    let later := fun (x y : Prec) => phGt x.tag y.tag = true ∨ (x.tag = y.tag ∧ (y.row < x.row ∨ (y.row = x.row ∧ y.pos < x.pos)))
    (w.stage < 2 → ∃ t, exec (.entryDries w.id) s = .next t ∧ { w with stage := 2, early := false } ∈ t.ms.wet ∧ t.mem = s.mem ∧
      t.regs = s.regs ∧ Due t (.driedStoreApply w.id) (s.clk.now + oneWay w.ex a)) ∧
    (placeOf a = .hbm → isThread s (a / 4096) = false → forwardOf s a = .here → stackHeld s a = none → ruleHolds s a 64 = false →
      (∀ i < 64, isBlock s (a + i) = false ∧ inHeader s (a + i) 1 = false) → (w.bytes.map Prod.fst).Nodup → (∀ b ∈ w.bytes, b.1 < 64) →
      ∃ t, exec (.driedStoreApply w.id) s = .next t ∧ BytesKept s t a 64 ∧ Due t (.dryAcknowledgement w.id) (s.clk.now + oneWay w.ex a) ∧
        (∀ b ∈ w.bytes,
          ((∃ p, tabGet s.ms.prec (a + b.1) = some p ∧ later p ⟨w.tag, w.row, w.pos⟩) → memByte t.mem (a + b.1) = memByte s.mem (a + b.1)) ∧
          ((∀ p, tabGet s.ms.prec (a + b.1) = some p → ¬ later p ⟨w.tag, w.row, w.pos⟩) → memByte t.mem (a + b.1) = b.2)) ∧
        (∀ i < 64, (∀ b ∈ w.bytes, b.1 ≠ i) → memByte t.mem (a + i) = memByte s.mem (a + i))) ∧
    (∃ t, exec (.dryAcknowledgement w.id) s = .next t ∧ (∀ x, x ∈ t.ms.wet ↔ x ∈ s.ms.wet ∧ x.id ≠ w.id) ∧
      { t with ms := s.ms } = s)

/-- R212, R213, R215, R216: a sample raises every valid scope's floor to its LB and sends LB, DB and NB, which arrive 2 cycles a hop later; a
delivery changes the view and dries the entries of lower tags whose own scope it is; a row that joins takes the greatest of its phase and
the floors of its scopes, no further ahead of the least LB than R214 allows, and the answer gives it that phase. -/
def Claim.LowerBounds : Prop :=
  ∀ (s : State) (p c σ r v : Nat) (lb db nb : Option Nat), c < 8 → σ < 17 →
    ((∀ x ∈ networkContexts s, x.2 < 8) → ∃ t, exec .lbSample s = .next t ∧ t.mem = s.mem ∧ t.regs = s.regs ∧
      ((p, c) ∈ networkContexts s → ∀ q, scopeRect s p σ = some q →
        Due t (.lbDelivery (scopeKey p c σ) (lbNow s p c σ) (dbNow s p c σ) (nbNow s p c σ)) (s.clk.now + 2 * (q.x1 - q.x0 + (q.y1 - q.y0))) ∧
        floorOf t p c σ = (lbNow s p c σ).elim (floorOf s p c σ) fun x => phMax (floorOf s p c σ) x)) ∧
    (∃ t, exec (.lbDelivery (scopeKey p c σ) lb db nb) s = .next t ∧ viewOf t p c σ = ⟨lb, db, nb⟩ ∧ t.mem = s.mem ∧ t.regs = s.regs ∧
      ∀ w ∈ s.ms.wet, w.part = p → w.ctx = c → w.stage < 2 → (ownScope s w.row).1 = σ → figGt lb w.tag = true →
        ∃ e ∈ t.agenda, e.ev = .entryDries w.id ∧ e.due = s.clk.now) ∧
    (joinUnderWay s r = true →
      let top := (countedScopes s r).foldl (fun x τ => phMax x (floorOf s (partOf s r) (ctxOf s r) τ)) (getF s r fPhase)
      let least := phLeast ((countedScopes s r).filterMap fun τ => lbNow s (partOf s r) (ctxOf s r) τ)
      let vt := least.elim top fun y => if phGt top ((y + 2 ^ 30 - 1) % 2 ^ 32) then (y + 2 ^ 30 - 1) % 2 ^ 32 else top
      ∃ t, exec (.rowJoin r) s = .next t ∧ getF t r fPhase = vt % 2 ^ 32 ∧ BytesKept s t (rowDpa r + 0x20) 8 ∧ t.regs = s.regs ∧
        Due t (.joinAnswer r vt) (s.clk.now + 4 + hubWay (exOf r) true)) ∧
    (s.rows.joining.contains (r + 2 ^ 28) = true → ∃ t, exec (.joinAnswer r v) s = .next t ∧ getF t r fPhase = v % 2 ^ 32 ∧
      (r + 2 ^ 28) ∉ t.rows.joining ∧ BytesKept s t (rowDpa r + 0x20) 8 ∧ t.regs = s.regs)

/-- R197, R230: a watch that the home polls looks every 1,024 cycles, where its page has migrated to, and answers when the word has left its
value. -/
def Claim.WatchesPolled : Prop :=
  ∀ (s : State) (w : Watch) (q : Req), s.ms.watches = [w] → tabGet s.ms.reqs w.req = some q →
    let v := readHome s (movedTo s w.addr) w.size
    (v = w.old % 2 ^ (8 * w.size) → ∃ t, exec (.watchPoll w.id) s = .next t ∧ t.ms = s.ms ∧ t.mem = s.mem ∧
      ∃ e ∈ t.agenda, e.ev = .watchPoll w.id ∧ e.due = s.clk.now + 1024) ∧
    (v ≠ w.old % 2 ^ (8 * w.size) → ∃ t q', exec (.watchPoll w.id) s = .next t ∧ t.ms.watches = [] ∧ t.mem = s.mem ∧
      Due t (.watchAnswer w.req) (s.clk.now + oneWay q.ex w.addr) ∧ tabGet t.ms.reqs w.req = some q' ∧
      ∀ e ∈ q'.elems, e.got = some v)

/-- R210: a write to a rectangle word is refused while the rectangle is BUSY (status 1) and when it is VALID and no rectangle of the mesh
(status 2); otherwise the word takes its 33 bits (status 0). -/
def Claim.RectangleWrites : Prop :=
  ∀ (s : State) (p i : Nat) (v : Word), p < 32 → i < 16 →
    let q := rectOf v.toNat
    let bad := v.getLsbD 32 = true ∧ ¬ (q.x0 ≤ q.x1 ∧ q.y0 ≤ q.y1 ∧ q.x1 < 32 ∧ q.y1 < 32)
    let only := fun (n : Nat) => ∃ t, exec (.rectangleWrite p i v) s = .next t ∧ OnlyReg s t (rectAt p 16) ∧ regBits t (rectAt p 16) 16 2 = n
    (rectBusy s p i = true → only 1) ∧ (rectBusy s p i = false → bad → only 2) ∧
    (rectBusy s p i = false → ¬ bad → ∃ t, exec (.rectangleWrite p i v) s = .next t ∧ t.mem = s.mem ∧
      regWord t (rectAt p i) = v.toNat % 2 ^ 33 ∧ regBits t (rectAt p 16) 16 2 = 0)

/-! ### The module: layout, power, hosts, firmware, storage (R358 to R395) -/

/-- The conservator's last answer to the apprentice (R385; its encoding is the model's, log 7). -/
def Claim.Said (t : State) (words : List Nat) : Prop := t.hub.outputs.getLast? = some ⟨0, 0, 9, words⟩

/-- R365, R387: PREPARE writes the shadow records with the next generation and checks them: OVERLAP, AREAS or EXTENT leave SHADOWGEN 0, else
SHADOWGEN takes the generation and a PREP record is journalled; a layout that breaks a rule is counted and logged as a refusal (R385). PREPARE is request 12: it is refused
during a COMMIT (both the model's reading, log 7), where the life cycle lets nothing be bound, and where the conservator's own limits do not allow it (a free value). Nothing
happens while the conservator's image or the apprentice's has not been verified (R386). -/
def Claim.LayoutsPrepared : Prop :=
  ∀ (s : State) (l : List (List Nat)),
    let busy := ∃ g h rest, s.hub.journal = (1, g, h) :: rest
    let barred := s.hub.lifeCycle ≠ 0 ∧ s.hub.lifeCycle ≠ 2 ∧ ∃ p < 32, propSlots l p ≠ 0
    let gen := layoutGen s + 1
    let wrote := fun (t : State) (g code : Nat) => t.mem = s.mem ∧ shadowGen t = g ∧ Claim.Said t [0, code] ∧
      ∀ p < 32, ∀ i < 8, regWord t (shadowAt p + 8 * i) = recordWord l gen p i
    let runs := conservatorRuns s = true ∧ apprenticeRuns s = true
    let broke := fun (t : State) => t.hub.refusals = s.hub.refusals + 1 ∧ (t.hub.blackBox.head?.map fun x => x.getD 1 0) = some 7
    (¬ runs → exec (.prepare l) s = .next s) ∧
    (runs →
    (busy ∨ barred ∨ Config.conservatorAllows 12 0 = false → Yields (.prepare l) s fun t => t.regs = s.regs ∧ t.mem = s.mem ∧ t.hub.refusals = s.hub.refusals + 1 ∧
      Claim.Said t [2 ^ 64 - 1, 12]) ∧
    (¬ busy → ¬ barred → Config.conservatorAllows 12 0 = true →
      (layoutOverlaps l = true → Yields (.prepare l) s fun t => wrote t 0 1 ∧ broke t) ∧
      (layoutOverlaps l = false → areasFail l = true → Yields (.prepare l) s fun t => wrote t 0 2 ∧ broke t) ∧
      (layoutOverlaps l = false → areasFail l = false → extentFails l = true → Yields (.prepare l) s fun t => wrote t 0 3 ∧ broke t) ∧
      (layoutOverlaps l = false → areasFail l = false → extentFails l = false → Yields (.prepare l) s fun t =>
        wrote t (gen % 2 ^ 32) 0 ∧ ∃ h, t.hub.journal = (0, gen, h) :: s.hub.journal)))

/-- R366, R368: COMMIT of a generation that the shadow does not hold is refused. Else it journals COMMIT and holds the partitions whose
SLOTS, BANKS, RSV or extents change; then every committed record takes the shadow's words, LAYOUTGEN the generation, and memory whose bank
changed owner reads as zero, once no join table loses a bank of its area; then DONE is journalled, SHADOWGEN is 0 and nothing is held. R367, R395: after its own reset the conservator
keeps the ring in flash, discards a PREP and completes a COMMIT. -/
def Claim.LayoutsCommitted : Prop :=
  ∀ (s : State) (gen g h : Nat) (rest : List (Nat × Nat × Nat)),
    let i := Instr.commit gen
    let next := fun (t : State) => Due t i (s.clk.now + 1)
    (conservatorRuns s = false → exec i s = .next s) ∧
    (conservatorRuns s = true → gen = 0 ∨ shadowGen s ≠ gen → Yields i s fun t => t.regs = s.regs ∧ t.mem = s.mem ∧ Claim.Said t [2 ^ 64 - 1, 1]) ∧
    (conservatorRuns s = true → gen ≠ 0 → shadowGen s = gen →
      (s.hub.journal = (0, gen, h) :: rest → Yields i s fun t => next t ∧ (∃ k, t.hub.journal = (1, gen, k) :: s.hub.journal) ∧
        ∀ p, p ∈ t.hub.heldParts ↔ p < 32 ∧ partChanged s p = true) ∧
      (s.hub.journal = (1, gen, g) :: (0, gen, h) :: rest → layoutGen s ≠ gen → tablesLosing s = [] → Yields i s fun t => next t ∧ layoutGen t = gen ∧
        (∀ p < 32, ∀ k < 8, regWord t (layoutAt p + 8 * k) = regWord s (shadowAt p + 8 * k)) ∧
        ∀ a, placeOf a = .hbm → bankOwner s (bankOf (a / 4096)) ≠ bankOwner t (bankOf (a / 4096)) → memByte t.mem a = 0) ∧
      (s.hub.journal = (1, gen, g) :: (0, gen, h) :: rest → layoutGen s = gen → Yields i s fun t => shadowGen t = 0 ∧
        t.hub.heldParts = [] ∧ t.mem = s.mem ∧ (∃ k, t.hub.journal = (2, gen, k) :: s.hub.journal) ∧ Claim.Said t [1, 0])) ∧
    (Yields .conservatorRecovery s fun t => t.hub.flash = s.hub.blackBox :: s.hub.flash ∧ t.mem = s.mem ∧
      (s.hub.journal = (0, g, h) :: rest → shadowGen t = 0) ∧
      (s.hub.journal = (1, g, h) :: rest → t.regs = s.regs ∧ ∃ e ∈ t.agenda, e.ev = .commit g ∧ e.due = s.clk.now) ∧
      (s.hub.journal = (2, g, h) :: rest → t.regs = s.regs))

/-- R371: an allowance shared among demands: each gets its demand when all fit; else each gets the least of its demand and one level, the
greatest for which the shares fit. -/
def Claim.FairShares : Prop :=
  ∀ (ws : List Nat) (a : Nat), (∀ w ∈ ws, w < 2 ^ 64) →
    let sum := fun (l : List Nat) => l.foldl (· + ·) 0
    (sum ws ≤ a → fairShare ws a = ws) ∧
    (a < sum ws → ∃ v, fairShare ws a = ws.map (fun w => min w v) ∧ sum (fairShare ws a) ≤ a ∧ a < sum (ws.map fun w => min w (v + 1)))

/-- R370, R371, R373: at a period's end with no alarm on, when every stack's demand fits its cap and their sum the device's budget, every
executor's duty is 16, its DEMAND is what its partitions asked for, and the count begins anew; the duty for a demand above the allotment
is 16·allotment div demand, at least 1. -/
def Claim.BudgetTree : Prop :=
  ∀ (s : State) (d a : Nat),
    (alarmOn s = false → (∀ st < 16, stackDemand (demandOf s) st ≤ regWord s (powerAt + 0x18 + 8 * st)) →
      (List.range 16).foldl (fun n st => n + stackDemand (demandOf s) st) 0 ≤ regWord s (powerAt + 0x10) →
      Yields .budgetTreePeriod s fun t => t.mem = s.mem ∧ (∀ g ∈ t.iss.gov, g.2.demand = 0) ∧
        ∀ ex < 1024, regBits t (exPower ex) 16 5 = 16 ∧ regBits t (exPower ex) 32 32 = min (demandOf s ex) (2 ^ 32 - 1)) ∧
    dutyFor d a = if d ≤ a then 16 else max 1 (16 * a / d)

/-- R374, R375: in SERVICE, SUSPENDING and RESUMING an alarm gates by 4 and counts once, but waits for a hop; in BRINGUP, TEST and RECOVER it
kills the live context of lowest power priority, of the higher partition and the higher context among equals. Gating ends at a cycle
that 64 divides, 240,000 cycles after the alarm has cleared, and no sooner. R359: a hop begins only without gating and without another,
lasts at most 480 cycles, and then the stack's executors show the other source. -/
def Claim.AlarmsAndHops : Prop :=
  ∀ (s : State) (st p c : Nat),
    let gate := fun (x : State) => regBits x powerAt 3 1
    let droops := powerAt + 0x98
    let live := fun (q k : Nat) => q < 32 ∧ k < 8 ∧ ctxLive s q k = true
    let prio := fun (q k : Nat) => regBits s (layoutAt q + 0x18) (3 * k) 3
    let above := fun (q k : Nat) => prio p c < prio q k ∨ (prio p c = prio q k ∧ (q < p ∨ (q = p ∧ k ≤ c)))
    (pstate s ∈ [2, 6, 7] → s.hub.hops = [] → Yields .alarm s fun t => alarmOn t = true ∧ gate t = 1 ∧ t.mem = s.mem ∧
      regWord t droops = (regWord s droops + (1 - gate s)) % 2 ^ 64) ∧
    (pstate s ∈ [2, 6, 7] → s.hub.hops ≠ [] → Yields .alarm s fun t => alarmOn t = true ∧ gate t = gate s ∧ t.mem = s.mem) ∧
    (pstate s ∈ [1, 3, 4] → alarmOn s = false → live p c → (∀ q k, live q k → above q k) → Yields .alarm s fun t =>
      alarmOn t = true ∧ regBits t (supAt p + 0x118 + 0x20 * c) 24 3 = 3 ∧ regWord t (powerAt + 0xA0) = (regWord s (powerAt + 0xA0) + 1) % 2 ^ 64 ∧
      t.hub.outputs.getLast? = some ⟨p, 0, 0, [2 ^ 64 - 2, c, 0, 0]⟩) ∧
    (pstate s ∈ [0, 5] → Yields .alarm s fun t => alarmOn t = true ∧ gate t = gate s ∧ t.mem = s.mem) ∧
    (Yields .alarmCleared s fun t => alarmOn t = false ∧ t.mem = s.mem ∧
      ∃ e ∈ t.agenda, e.ev = .gatingEnd ∧ e.due % 64 = 0 ∧ s.clk.now + 240000 ≤ e.due ∧ e.due < s.clk.now + 240064) ∧
    (∀ k, s.hub.alarmClear = some k → alarmOn s = false → k + 240000 ≤ s.clk.now → s.clk.now % 64 = 0 →
      Yields .gatingEnd s fun t => gate t = 0 ∧ OnlyReg s t powerAt) ∧
    (s.hub.alarmClear = none ∨ alarmOn s = true ∨ s.clk.now % 64 ≠ 0 → exec .gatingEnd s = .next s) ∧
    (st < 16 → gate s = 0 → s.hub.hops = [] → Yields (.clockHop st) s fun t => t.hub.hops = [(st, s.clk.now)] ∧ t.mem = s.mem ∧ t.regs = s.regs ∧
      ∃ e ∈ t.agenda, e.ev = .clockHopEnd st ∧ s.clk.now < e.due ∧ e.due ≤ s.clk.now + 480) ∧
    (gate s = 1 ∨ s.hub.hops ≠ [] → exec (.clockHop st) s = .next s) ∧
    (st < 16 → s.hub.hops = [(st, p)] → Yields (.clockHopEnd st) s fun t => t.hub.hops = [] ∧ t.mem = s.mem ∧
      ∀ ex < 1024, regBits t (exPower ex) 25 1 = if stackOf ex = st then 1 - regBits s (exPower ex) 25 1 else regBits s (exPower ex) 25 1)

/-- R366, R378 to R382: an operation of a host or a peer whose entry is not VALID, or is DOWN, is denied (6); one on a span of no or more than 4,096
bytes or of a delivery mode that is none of ROD, RUD and RUDI is unsupported (7), as is an atomic outside the set; one on a held partition is answered retry (8); one that
R183 would stop, an unaligned atomic, and a send to a row of another partition, or in a join area, are denied; an atomic is judged at its home (R90; one on CMD of a thread row is denied there, log 50), and none acts on a register word. Each answer leaves as a packet (log 8: the kinds of answers, and peer entry n as entry
64 + n) and is counted. Any other leaves the hub for its
homes as direct accesses; one of an ordered flow whose earlier write or atomic is not answered yet waits in the hub's queue (R381). -/
def Claim.HostOperations : Prop :=
  ∀ (s : State) (p k mode a n op : Nat) (bs : List (BitVec 8)) (w1 w2 w3 v c : Word),
    let counted := fun (t : State) (off : Nat) => regWord t (linkAt p off) = (regWord s (linkAt p off) + 1) % 2 ^ 64
    let tells := fun (i : Instr) (kind : Nat) => Yields i s fun t => t.mem = s.mem ∧
      t.hub.outputs.getLast? = some ⟨p, if k < 64 then k else k - 64, kind, []⟩ ∧ t.ms.reqs = s.ms.reqs ∧
      counted t 0 ∧ counted t (if kind = 8 then 0x18 else 0x10)
    let write := Instr.hostRmaWrite p ⟨k, mode⟩ a bs
    let read := Instr.hostRmaRead p ⟨k, mode⟩ a n
    let atomic := Instr.hostRmaAtomic p ⟨k, mode⟩ a op n v c
    let send := Instr.hostTaggedSend p ⟨k, mode⟩ a w1 w2 w3
    let free := s.hub.heldParts.contains p = false
    let flow := p * 8192 + k
    let waits := mode = 0 ∧ (flowBusy s flow = true ∨ ∃ x ∈ s.hub.hostQueue, x.1 = flow)
    let open_ := fun (b : Nat) (wr : Bool) => ∀ x ∈ lineSpans a b, dpaChecks s p (hostPriv s p k) wr (a + x.1) = none
    let started := fun (i : Instr) (ev : Instr) (Q : Req → Prop) => Yields i s fun t => t.mem = s.mem ∧ counted t 8 ∧
      (∃ q, tabGet t.ms.reqs s.clk.ids = some q ∧ Q q) ∧
      (¬ waits → Due t ev s.clk.now) ∧ (waits → t.hub.hostQueue = s.hub.hostQueue ++ [(flow, s.clk.ids)] ∧ t.agenda = s.agenda)
    let leaves := fun (i : Instr) (o : DirectOp) (first : Nat) => started i (.directAccess s.clk.ids 0) fun q =>
      q.op = o ∧ q.part = p ∧ q.priv = hostPriv s p k ∧ (q.elems.head?).map Elem.addr = some first ∧ q.left = q.elems.length
    (hostUsable s p k = false → tells write 6 ∧ tells read 6 ∧ tells atomic 6 ∧ tells send 6) ∧
    (p < 32 → tells (.unsupportedOperation p k) 7) ∧
    (hostUsable s p k = true → 2 < mode → tells write 7 ∧ tells read 7 ∧ tells atomic 7 ∧ tells send 7) ∧
    (hostUsable s p k = true → mode ≤ 2 →
      (bs.length = 0 ∨ 4096 < bs.length → tells write 7) ∧ (n = 0 ∨ 4096 < n → tells read 7) ∧ (hostAtom op n = none → tells atomic 7) ∧
      (free → 0 < bs.length → bs.length ≤ 4096 → open_ bs.length true → leaves write (.write (bs.length == 8 && a % 8 == 0)) a) ∧
      (free → 0 < n → n ≤ 4096 → open_ n false → leaves read .read a) ∧
      (free → 0 < n → n ≤ 4096 → (∃ x ∈ lineSpans a n, dpaChecks s p (hostPriv s p k) false (a + x.1) ≠ none) → tells read 6) ∧
      (free → 0 < bs.length → bs.length ≤ 4096 → (∃ x ∈ lineSpans a bs.length, dpaChecks s p (hostPriv s p k) true (a + x.1) ≠ none) → tells write 6) ∧
      (∀ o, hostAtom op n = some o →
        (free → (∃ x ∈ lineSpans a n, dpaChecks s p (hostPriv s p k) true (a + x.1) ≠ none) → tells atomic 6) ∧
        (free → open_ n true → a % n ≠ 0 ∨ isReg a = true → tells atomic 6) ∧ (free → open_ n true → a % n = 0 → isReg a = false → leaves atomic o a) ∧
        (¬ free → tells atomic 8)) ∧
      (free → stackHeld s (rowDpa a) = none → 2 ^ 28 ≤ a ∨ partOf s a ≠ p ∨ isReservedRow s a = true ∨ inJoinArea s (rowDpa a + 0x700) = true →
        tells send 6) ∧
      (free → stackHeld s (rowDpa a) = none → a < 2 ^ 28 → partOf s a = p → isReservedRow s a = false → inJoinArea s (rowDpa a + 0x700) = false → started send (.noteLanding s.clk.ids) fun q =>
        q.op = .note (noteHeader 0 k 6) w1 w2 w3 false ∧ q.elems.map Elem.addr = [rowDpa a + 0x700]) ∧
      (¬ free → (0 < n → n ≤ 4096 → tells read 8) ∧ (0 < bs.length → bs.length ≤ 4096 → tells write 8) ∧ tells send 8))

/-- R45, R297, R319, R320, R331, R379, R383: a peer's reward and a peer's pair are denied (6) when its entry is not usable; otherwise the reward stands as a message of the
partition at its handle's engine, and the pair is on its way to its cell, whose outcome goes back to the peer (10): 0 at a claimed cell of the partition, 1 elsewhere. A reward of
the partition for a peer module leaves as a packet, its row waiting for the peer's answer, or is answered 10 when the entry is not usable. What the packets hold
is log 8. -/
def Claim.PeerTraffic : Prop :=
  ∀ (s : State) (p e h key t x id : Nat) (sum pow : Int) (m : JoinMsg),
    let got := fun (u : State) => u.mem = s.mem ∧ regWord u (linkAt p 8) = (regWord s (linkAt p 8) + 1) % 2 ^ 64
    let denied := fun (u : State) => u.mem = s.mem ∧ u.hub.outputs.getLast? = some ⟨p, e, 6, []⟩ ∧ u.join = s.join ∧ u.eng = s.eng
    (hostUsable s p (64 + e) = false → Yields (.peerReward p e h key t x) s denied ∧ Yields (.peerSum p e key sum pow) s denied) ∧
    (hostUsable s p (64 + e) = true → Yields (.peerReward p e h key t x) s fun u => got u ∧
      (∃ y ∈ u.join.msgs, y.id = s.clk.ids ∧ y.part = p ∧ y.handle = h % 128 ∧ y.words = [key % 2 ^ 64, t % 2 ^ 12, x % 2 ^ 32] ∧ y.peer = none) ∧
      Due u (.reward s.clk.ids) s.clk.now) ∧
    (hostUsable s p (64 + e) = true → Yields (.peerSum p e key sum pow) s fun u => got u ∧ Due u (.bsumArrival s.clk.ids) s.clk.now ∧
      ∃ b, tabGet u.eng.bsums s.clk.ids = some b ∧ b.getD 0 0 = key ∧ b.getD 3 0 = p ∧ b.getD 8 0 = e) ∧
    (∀ y, 0 < e → tabGet s.eng.bsums id = some [(key : Int), sum, pow, (p : Int), 0, 0, 0, 0, (e : Int)] → tabGet s.eng.cells key = some y →
      Yields (.bsumArrival id) s fun u => u.mem = s.mem ∧ tabGet u.eng.bsums id = none ∧
        u.hub.outputs.getLast? = some ⟨p, e, 10, [if y.part = p then 0 else 1]⟩ ∧
        tabGet u.eng.cells key = some (if y.part = p then cellApply y sum pow else y)) ∧
    ((s.join.msgs.find? fun m => m.id == id) = some m → m.peer = some x → m.answer = none → m.row < 2 ^ 28 → m.wait = true → getF s m.row fCode = 4 → 0 < m.back →
      (peerUsable s m.part x = false → Yields (.reward id) s fun u => u.mem = s.mem ∧
        tabGet u.rows.longs m.row = some ⟨[⟨m.d, 10⟩], 0, none⟩ ∧ ∃ y ∈ u.agenda, y.ev = .longInstructionComplete m.row ∧ y.due = s.clk.now + m.back) ∧
      (peerUsable s m.part x = true → Config.peerAccepts s.clk.draws = true → Yields (.reward id) s fun u => u.mem = s.mem ∧
        (∃ o ∈ u.hub.outputs, o.part = m.part ∧ o.entry = x ∧ o.kind = 4 ∧ o.words = m.handle :: m.words) ∧
        (∃ v < 10, { m with answer := some v } ∈ u.join.msgs) ∧ Due u (.reward m.id) (s.clk.now + m.back)))

/-- R379, R383, R384: a failed link sets DOWN in its entry of the host table or the peer table and ends what the remote party had outstanding through it, counted in
PEERFAIL; with no copy, message and pair of the partition on it no other register changes. -/
def Claim.LinksFail : Prop :=
  ∀ (s : State) (p x : Nat), p < 32 → s.eng.copies = [] → s.join.msgs = [] → s.eng.bsums = [] →
    let peer := 0x0C0010000000 + 0x10000 * p + 16 * x + 8
    let mine := fun (k : Nat) (q : Req) => q.part == p && (match q.dest with
      | .host j _ _ => j == k
      | _ => false)
    let down := fun (i : Instr) (k at_ : Nat) => Yields i s fun t => regBits t at_ 6 1 = 1 ∧ t.mem = s.mem ∧
      (∀ e, e ∈ t.ms.reqs ↔ e ∈ s.ms.reqs ∧ mine k e.2 = false) ∧
      regWord t (linkAt p 0x20) = (regWord s (linkAt p 0x20) + (s.ms.reqs.filter fun e => mine k e.2).length) % 2 ^ 64 ∧
      (∀ b, b ≠ at_ → b ≠ linkAt p 0x20 → regWord t b = regWord s b)
    (x < 64 → down (.linkFailure p (4096 + x)) x (hostWordAt p x)) ∧ (x < 4096 → down (.linkFailure p x) (64 + x) peer)

/-- R385: the conservator refuses what its own limits do not allow (a free value, log 7: the statement holds whatever it is) and what its
checks stop; what it grants acts; the requests are the apprentice's, whose image runs only once it is verified (R386). The
cases here: DEVBUDGET, a stack's cap, an executor's EBUDGET within 512 and 8,191, a power state from SERVICE to TEST and back
again, clearing CEND, and a second-stage entry (R188). The request codes are the model's (log 7). -/
def Claim.MailboxRequests : Prop :=
  ∀ (s : State) (code p x y g : Nat), (∀ args, conservatorRuns s = false ∨ apprenticeRuns s = false → exec (.mailboxRequest code p args) s = .next s) ∧
    (conservatorRuns s = true → apprenticeRuns s = true →
    let refused := fun (k : Nat) (t : State) => t.hub.refusals = s.hub.refusals + 1 ∧ t.regs = s.regs ∧
      t.hub.outputs.getLast? = some ⟨p, 0, 9, [2 ^ 64 - 1, k]⟩
    let ask := fun (k : Nat) (args : List Nat) (P : State → Prop) => Yields (.mailboxRequest k p args) s fun t =>
      t.mem = s.mem ∧ if Config.conservatorAllows k p then P t else refused k t
    (∀ args, 11 < code → Yields (.mailboxRequest code p args) s fun t => t.mem = s.mem ∧ refused code t) ∧
    ask 1 [x] (fun t => regWord t (powerAt + 0x10) = x % 2 ^ 64 ∧ OnlyReg s { t with hub := s.hub } (powerAt + 0x10)) ∧
    (x < 16 → ask 2 [x, y] fun t => regWord t (powerAt + 0x18 + 8 * x) = y % 2 ^ 64) ∧
    (x < 1024 → 512 ≤ y → y ≤ 8191 → ask 3 [x, y] fun t => regBits t (exPower x) 0 13 = y) ∧
    (y < 512 ∨ 8191 < y → ask 3 [x, y] (refused 3)) ∧
    (x = 2 ∨ x = 3 → pstate s ∈ [1, 2, 3, 4] → ask 6 [x] fun t => pstate t = x) ∧
    (x = 2 ∨ x = 3 → pstate s ∈ [0, 5] → ask 6 [x] (refused 6)) ∧
    (p < 32 → x < 8 → ask 8 [x] fun t => regBits t (supAt p + 0x118 + 0x20 * x) 24 3 = 0) ∧
    (let a := regBits s (transAt p x + 8) 3 45 * 8 + 8 * g
     p < 32 → x < 8 → g < regBits s (transAt p x + 0x10) 0 23 → placeOf a = .hbm → partMayReach s p a = true → inReserved s a = true →
      isThread s (a / 4096) = false → isBlock s a = false → isBlock s (a + 7) = false → inHeader s a 8 = false → s.ms.watches = [] →
      Config.conservatorAllows 11 p = true → Yields (.mailboxRequest 11 p [x, g, y]) s fun t =>
        memNat t.mem a 8 = y % 8 + y / 2 ^ 21 % 2 ^ 27 * 2 ^ 21 ∧ BytesKept s t a 8))

/-- R386, R387: an image is measured, and counts as verified when its signature holds and, for the apprentice's, the conservator's has been
verified; an attestation is signed over the log, LAYOUTGEN, the layout's hash, the life cycle and the nonce (their layout and the 32-byte digest: log 4), and refused without a key; a
reset and a life-cycle step leave memory empty and every register at its reset value, global time going on (what else they keep: log 5); the last state has no next. -/
def Claim.FirmwareAndLifeCycle : Prop :=
  ∀ (s : State) (w nonce : Nat) (image sig : List Nat),
    let ok := signatureOk w image sig = true ∧ (w = 0 ∨ 0 ∈ s.hub.verified)
    let body := s.hub.measured ++ [layoutGen s, digestWords (recordsOf s layoutAt), s.hub.lifeCycle, nonce]
    let afresh := fun (t : State) (life : Nat) => t.mem = [] ∧ t.regs = [] ∧ t.agenda = [] ∧ t.rows = Rows.reset ∧ t.clk.now = 0 ∧ pstate t = 1 ∧
      t.hub.lifeCycle = life ∧ hubTime t = hubTime s
    (Yields (.firmwareVerification w image sig) s fun t => t.mem = s.mem ∧ t.regs = s.regs ∧
      t.hub.measured = s.hub.measured ++ [digest (asBytes image)] ∧ (w ∈ t.hub.verified ↔ ok)) ∧
    (conservatorRuns s = false → exec (.attestationRequest nonce) s = .next s) ∧
    (conservatorRuns s = true → s.hub.identityKey = true → Yields (.attestationRequest nonce) s fun t =>
      Claim.Said t (4 :: attestationSignature s.clk.draws body ++ body) ∧ { t with hub := s.hub, clk := s.clk } = s) ∧
    (conservatorRuns s = true → s.hub.identityKey = false → Yields (.attestationRequest nonce) s fun t => t.hub.refusals = s.hub.refusals + 1 ∧ { t with hub := s.hub } = s) ∧
    (Yields .reset s fun t => afresh t s.hub.lifeCycle ∧ t.hub.identityKey = s.hub.identityKey) ∧
    (s.hub.lifeCycle < 3 → Yields .lifeCycleTransition s fun t => afresh t (s.hub.lifeCycle + 1)) ∧
    (3 ≤ s.hub.lifeCycle → Yields .lifeCycleTransition s fun t => t.mem = s.mem ∧ t.regs = s.regs ∧ t.hub.lifeCycle = s.hub.lifeCycle)

/-- R388, R390 to R395: the scrubber counts a corrected error, poisons an uncorrectable one's line, and wipes an unwiped row; a refresh window
ends every row's count; a neighbour refresh is counted and ends its row's; a sequencer reset is counted and its stack's accesses are
held until it is back, at most 120,000 cycles: then they go on in order, or are answered RETRY and issue again 1,024 cycles later; a power-loss
warning and a hub's recovery keep the ring in flash, and a stack's or hub's recovery leaves RECOVER, but for a module in BRINGUP without verified images. What the scrubber finds is a free value (log 6). -/
def Claim.StorageErrors : Prop :=
  ∀ (s : State) (line r st since till : Nat) (x : Timed),
    let counted := fun (t : State) (a : Nat) => regWord t a = (regWord s a + 1) % 2 ^ 64
    let found := Config.lineError line s.clk.draws
    (Yields (.patrolScrub line) s fun t => t.mem = s.mem ∧ (found = 1 → counted t 0x0C0000680000) ∧
      (2 ≤ found → counted t 0x0C0000680008 ∧ line ∈ t.lines.poison) ∧ (placeOf (64 * line) = .hbm → line / 64 ∈ t.rows.wiped)) ∧
    (Yields .refreshWindow s fun t => t.rows.activations = [] ∧ t.mem = s.mem) ∧
    (Yields (.neighbourRefresh r) s fun t => counted t 0x0C0000680020 ∧ tabGet t.rows.activations r = none ∧ t.mem = s.mem) ∧
    (st < 16 → s.hub.seqReset = [] → Yields (.sequencerReset st) s fun t => counted t 0x0C0000680018 ∧ t.mem = s.mem ∧
      (∃ u, t.hub.seqReset = [(st, s.clk.now, u)] ∧ s.clk.now < u) ∧
      ∃ e ∈ t.agenda, e.ev = .sequencerHoldTimeout st ∧ e.due ≤ s.clk.now + 120000) ∧
    (s.hub.seqReset = [(st, since, till)] → s.hub.seqHeld = [(st, x)] → till ≤ s.clk.now → Yields (.sequencerHoldTimeout st) s fun t =>
      t.hub.seqReset = [] ∧ t.hub.seqHeld = [] ∧ (∃ e ∈ t.agenda, e.ev = x.ev ∧ e.tag = x.tag ∧ e.due = 0) ∧ t.mem = s.mem) ∧
    (s.hub.seqReset = [(st, since, till)] → s.hub.seqHeld = [(st, x)] → s.clk.now < till → hostOf s x = none →
      Yields (.sequencerHoldTimeout st) s fun t => t.hub.seqReset = s.hub.seqReset ∧ t.hub.seqHeld = [] ∧ t.mem = s.mem ∧
        ∃ id, (id, x) ∈ t.hub.retries ∧ ∃ e ∈ t.agenda, e.ev = .retryReissue id ∧ e.due = s.clk.now + 1024) ∧
    (s.hub.retries = [(r, x)] → Yields (.retryReissue r) s fun t => t.hub.retries = [] ∧ (∃ e ∈ t.agenda, e.ev = x.ev ∧ e.tag = x.tag) ∧ t.mem = s.mem) ∧
    (Yields .powerLossWarning s fun t => t.hub.flash = s.hub.blackBox :: s.hub.flash ∧ { t with hub := s.hub } = s) ∧
    (∀ k, Yields (.stackOrHubRecovery k) s fun t => t.hub.flash = (if k = none then s.hub.blackBox :: s.hub.flash else s.hub.flash) ∧ t.mem = s.mem ∧
      pstate t = if pstate s = 0 ∨ pstate s = 5 ∨ (pstate s = 1 ∧ imagesVerified s = false) then pstate s else 4)

/-- R5, R6, R181, R256: a software store to a register word changes only what its map makes writable: a context's ROOT word takes the bits of its
fields from a privileged store and nothing from another; the balancing word takes INTERVAL, MARGIN of at least b and XSTACK; a word of
the supervision, layout and power blocks takes nothing. -/
def Claim.RegisterWrites : Prop :=
  ∀ (s : State) (p c ex i : Nat) (v : Word), p < 32 → c < 8 → ex < 1024 →
    let b := max 1 (slotCount s p / 4)
    (Yields (.registerWrite (transAt p c) true v) s fun t => OnlyReg s t (transAt p c) ∧
      regWord t (transAt p c) = (regWord s (transAt p c) &&& (2 ^ 64 - 1 - 0x7FFFFFFF001)) ||| (v.toNat &&& 0x7FFFFFFF001)) ∧
    exec (.registerWrite (transAt p c) false v) s = .next s ∧
    (Yields (.registerWrite (rackWord ex p 0x18) true v) s fun t => OnlyReg s t (rackWord ex p 0x18) ∧
      regWord t (rackWord ex p 0x18) = v.toNat % 256 + max b (v.toNat / 256 % 256) * 256 + v.toNat / 2 ^ 16 % 2 * 2 ^ 16) ∧
    (i < 64 → ∀ pr, exec (.registerWrite (supAt p + 8 * i) pr v) s = .next s) ∧
    (i < 32 → ∀ pr, exec (.registerWrite (layoutAt p + 8 * i) pr v) s = .next s ∧ exec (.registerWrite (shadowAt p + 8 * i) pr v) s = .next s ∧
      exec (.registerWrite (powerAt + 8 * i) pr v) s = .next s)

/-! ### Reset, steps, fetch, encodings (R48 to R68, R387) -/

/-- R79, R362, R372, R373, R387: right after reset the module is in BRINGUP, no row is a thread row, every byte of memory reads zero, no partition
has slots or banks, EBUDGET is 512 and DUTY 16 at every executor, LAYOUTGEN and SHADOWGEN are 0, no event is to come. -/
def Claim.ResetLeaves : Prop :=
  pstate State.reset = 1 ∧ State.reset.rows.kinds = [] ∧ State.reset.agenda = [] ∧ (∀ a, memByte State.reset.mem a = 0) ∧
  layoutGen State.reset = 0 ∧ shadowGen State.reset = 0 ∧
  (∀ p < 32, slotSet State.reset p = 0 ∧ bankSet State.reset p = 0) ∧
  (∀ ex < 1024, regBits State.reset (exPower ex) 0 13 = 512 ∧ regBits State.reset (exPower ex) 16 5 = 16)

/-- The state after reset meets the invariant. -/
def Claim.ResetMeetsInvariant : Prop := State.reset.Inv

/-- Every step keeps memory in canonical form: from any state in which it is, whatever event or instruction acts. -/
def Claim.StepsKeepMemoryCanonical : Prop := ∀ s t : State, s.Inv → step s = .next t → t.Inv

/-- What the machine adds around an instruction that has issued: ISSUED and LENT count it and the energy budget of its region is looked at
(R101, R118). -/
def Claim.Accounted (s : State) (x : Todo) (w : Nat) (u : State) : State :=
  let p := partOf s x.row
  let v := { (updGov u x.ex p fun g => { g with issued := (g.issued + 1) % 2 ^ 64, lent := (g.lent + if x.lent then 1 else 0) % 2 ^ 64 }) with
    clk := { u.clk with popped := none } }
  budgetStop v x.row (eusedOf s x.row) (eusedOf s x.row + w)

/-- R48, R50, R113, R121, R389: when the words at a chosen row's PC decode to an instruction that no gate holds, the step is that
instruction's meaning on the state in which the fetch has read its lines, the instruction's weight is charged and its channel word is at
hand, with the counters of R118 after it; a long instruction that will push a word has bound its row's endpoint (R242, log 53). The words are those at PC in the row's code segment: with sg0 in the own row, memory's; and where
no line of memory is in error, the fetch from the own row leaves the state as it was. -/
def Claim.StepRunsTheDecodedInstruction : Prop :=
  ∀ (s : State) (x : Todo) (rest : List Todo) (ws : List Nat) (i : Instr),
    let m := { s with clk := { s.clk with todo := some rest, cur := x.row, popped := none } }
    let n := (readCode m x.row (getF m x.row fPc) ws.length false).1
    let a := acting (chargeIssue n x (weightOf i)) x.row i
    (pstate s ≠ 0 → pstate s ≠ 5 → s.clk.todo = some (x :: rest) → x.why = 0 → stillThere m x = true → m.rows.recheck.contains x.row = false →
      limitReached m x.row = false → fetchWords m x.row = .ok ws → (readCode m x.row (getF m x.row fPc) ws.length false).2 = true →
      decodeWords ws = some i → gateOf a x.row i = .open →
      ∀ u v, exec i a = .next u → bindEnd x.row i (.next u) = .next v → step s = .next (Claim.Accounted n x (weightOf i) v)) ∧
    (∀ u : State, chanOn u x.row = false ∨ 31 ∉ scalarWrites i → bindEnd x.row i (.next u) = .next u) ∧
    (∀ r k, s.lines.poison = [] → s.lines.latent = [] → (getSeg s r 0).kind = 0 →
      readCode s r (getF s r fPc) k false = (s, true)) ∧
    (∀ r,
      let g := getSeg s r 0
      let pc := getF s r fPc
      let w := memNat s.mem (movedTo s (rowDpa r + (g.base + pc))) 4
      g.kind = 0 → g.bad = false → g.canX = true → pc % 4 = 0 → 8 ≤ pc → pc + 4 ≤ g.limit → g.base + pc + 4 ≤ 4096 →
      dpaChecks s (partOf s r) (isPriv s r) false (rowDpa r + (g.base + pc)) = none → w % 4 = 0 → fetchWords s r = .ok [w])

/-- R50, R63, R66 to R68: words that decode to nothing fault ILLOP on the instruction; a PC that is no multiple of 4 faults ALIGN, one in the
code descriptor SEG 0x01 (log 18); a page not in the caches is walked for, the row waiting with WHY 1; before the first fetch a descriptor that is not
the stepping's faults ENCHASH. -/
def Claim.FetchesStop : Prop :=
  ∀ (s n : State) (c : Nat) (x : Todo) (rest : List Todo) (f : FaultRec),
    let r := s.clk.cur
    let pc := getF s r fPc
    let at_ := instrAddr s r
    (Traps .illegalInstruction s ⟨0x01, 0, at_.1, at_.2⟩) ∧
    (pc % 4 ≠ 0 → exec (.fetchFault c) s = .next (takeFault s r ⟨0x04, 0, at_.1, at_.2⟩ 0)) ∧
    (pc % 4 = 0 → pc < 8 → exec (.fetchFault c) s = .next (takeFault s r ⟨0x02, 0x01, at_.1, at_.2⟩ 0)) ∧
    (∀ va, pc % 4 = 0 → 8 ≤ pc → codeAddr s r pc 4 false = .walk va → getF s r fPend = 0 → s.ms.walks = [] → isThread s r = true →
      Yields (.fetchFault c) s fun t => getF t r fCode = 4 ∧ getF t r fWhy = 1 ∧ getF t r fPc = pc ∧ ∃ w ∈ t.ms.walks, w.va = va ∧ .reissue r va ∈ w.serves) ∧
    (let m := { s with clk := { s.clk with todo := some rest, cur := x.row, popped := none } }
     pstate s ≠ 0 → pstate s ≠ 5 → s.clk.todo = some (x :: rest) → x.why = 0 → stillThere m x = true → m.rows.recheck.contains x.row = true →
      readCode m x.row 0 2 true = (n, true) → hashCheck n x.row = .bad f →
      step s = .next (takeFault { n with rows := { n.rows with recheck := setDel n.rows.recheck x.row } } x.row f 0)) ∧
    (∀ a, codeAddr s r 0 8 true = .at_ a → memNat s.mem (movedTo s a) 8 ≠ Config.encodingHash.toNat →
      hashCheck s r = .bad ⟨0x08, 0, (getSeg s r 0).base, (getSeg s r 0).kind⟩)

/-- R106, R360, R376, R398: without an event that is due and with nothing left to issue, the step begins the next cycle, with which, every 1,024 cycles, lateral balancing
is decided; a module that is OFF stops until a reset reaches it (log 15); an event that is due acts first (log 9), or, where it waits for an executor's clock, is put off. -/
def Claim.StepsOfTheModule : Prop :=
  ∀ (s : State) (e : Timed) (rest : List Timed),
    (pstate s ≠ 0 → pstate s ≠ 5 → s.clk.todo = some [] → ∃ t, step s = .next t ∧ t.clk.now = s.clk.now + 1 ∧ t.clk.todo = none ∧
      t.mem = s.mem ∧ ((s.clk.now + 1) % 1024 ≠ 0 ∨ s.msg.racks = [] → t.regs = s.regs ∧ t.agenda = s.agenda)) ∧
    (pstate s ≠ 0 → pstate s ≠ 5 → s.clk.todo = none → s.agenda = e :: rest → e.due ≤ s.clk.now → waitsClock s e = false →
      step s = exec e.ev { s with agenda := rest, clk := { s.clk with popped := none } }) ∧
    (pstate s ≠ 0 → pstate s ≠ 5 → s.clk.todo = none → s.agenda = e :: rest → e.due ≤ s.clk.now → waitsClock s e = true →
      ∃ d, s.clk.now < d ∧ step s = .next { s with agenda := agendaIns rest { e with due := d } }) ∧
    (pstate s = 0 → (∀ x ∈ s.agenda, x.ev ≠ .reset) → step s = .fault .poweredOff) ∧
    (pstate s = 0 → s.agenda = e :: rest → e.ev = .reset → ∃ t, step s = .next t ∧ pstate t = 1 ∧ t.mem = [])

/-- R48 to R63: decoding is the left inverse of encoding: for every well-formed instruction, whatever its operands, the decoder reads it back
from the words that encode it. -/
def Claim.DecodingInvertsEncoding : Prop := ∀ i : Instr, wellFormed i = true → decodeWords (encodeWords i) = some i

/-- R52 to R62: words that the manual writes out decode to the instructions they stand for. -/
def Claim.DecodingIsRight : Prop :=
  decodeWords [0x00520C2C] = some (.add ⟨.i64, 3, 4, 5⟩) ∧
  decodeWords [0x02839838] = some (.sub ⟨.n32, 6, 7, 8⟩) ∧
  decodeWords [0xFE62C090] = some (.bltn ⟨5, 6, 0xFF0⟩) ∧
  decodeWords [0x000004B1, 0x20000000, 0x03E80008] = some (.loopx ⟨1, 0, true, 1000, 8⟩) ∧
  decodeWords [0x00520D11, 0x00001606, 0] = some (.fma ⟨3, 4, 5, 6, 0xB, 0⟩) ∧
  decodeWords [0x00310581, 0x00001640, 0] = some (.vadd ⟨1, 2, 3, 2, false, 0xB, 0, false, 0, 0⟩) ∧
  decodeWords [0x00410DC8] = some (.kfind 3 2 4) ∧
  decodeWords [0x06520235, 0x000C0000, 0xFFFFFFF8] = some (.stX ⟨3, 5, ⟨3, false, 4, 0xFFFFFFF8⟩⟩) ∧
  decodeWords [0x00520EA5, 0x00040806, 0] = some (.acas ⟨3, 5, 6, 4, ⟨1, false, 4, 0⟩⟩) ∧
  decodeWords [0x06520EFC] = some (.switch 3 4 5) ∧
  decodeWords [0x00520301, 0x60000000, 7] = some (.note ⟨0, 4, 5, 3, 7⟩) ∧
  decodeWords [0x00620371, 0, 2] = some (.mma ⟨4, 6, 0, 0, 0, 2⟩) ∧
  decodeWords [0x00000000] = none


/-! ### Where forms complete, said plainly -/

/-- R48, R125, R140 to R147, R161, R174: two-operand vector instructions, mask instructions and transfers of control complete in every state, a
literal target where it is aligned and below 2^40, and JR where its target is. -/
def Claim.RegisterFormsComplete : Prop :=
  ∀ (s : State) (o : VBin) (p : VBinL) (a b d : Reg) (k l m : KReg) (off : BitVec 12) (far : BitVec 22) (lit : Word) (ic : Bool) (cnt dist : BitVec 16),
    let r := s.clk.cur
    (∀ i ∈ [Instr.vadd o, .vsub o, .vmul o, .vmulh o, .vmin o, .vmax o, .vand o, .vor o, .vxor o, .vshl o, .vshr o, .vsra o],
      ∃ u, exec i s = .next (finish u r 12)) ∧
    (∀ i ∈ [Instr.vaddXl p, .vsubXl p, .vmulXl p, .vmulhXl p, .vminXl p, .vmaxXl p, .vandXl p, .vorXl p, .vxorXl p, .vshlXl p, .vshrXl p, .vsraXl p],
      ∃ u, exec i s = .next (finish u r 20)) ∧
    (∀ i ∈ [Instr.kand k l m, .kor k l m, .kxor k l m, .knot k l, .kmov k l], ∃ u, exec i s = .next (finish u r 4)) ∧
    (∀ i ∈ [Instr.beq ⟨a, b, off⟩, .bne ⟨a, b, off⟩, .blt ⟨a, b, off⟩, .bge ⟨a, b, off⟩, .bltn ⟨a, b, off⟩, .bgen ⟨a, b, off⟩, .bz ⟨a, off⟩, .bnz ⟨a, off⟩],
      ∃ n x, exec i s = .next (finishAt s r n x none)) ∧
    (∀ i ∈ [Instr.j far, .jal far], ∃ u n, exec i s = .next (finishAt u r n true none)) ∧
    (lit.toNat % 4 = 0 → lit.toNat < 2 ^ 40 → ∀ i ∈ [Instr.jSl lit, .jalSl lit], ∃ u, exec i s = .next (finishAt u r lit.toNat true none)) ∧
    (0 ≤ (src s a : Int) + off.toInt → (src s a : Int) + off.toInt < 2 ^ 40 → ((src s a : Int) + off.toInt) % 4 = 0 →
      ∃ u, exec (.jr ⟨d, a, off⟩) s = .next (finishAt u r ((src s a : Int) + off.toInt).toNat true none)) ∧
    (d.toNat < 2 → ∀ i ∈ [Instr.loop d a off, .loopx ⟨d, a, ic, cnt, dist⟩], ∃ u n, exec i s = .next (finishAt u r n true (some d.toNat))) ∧
    exec .nop s = .next (finish s r 4)

/-- R93, R183, R198 to R202, R229, R231, R232: accesses of the own row complete where nothing that R183 names stops them, a vector access where nothing stops
any of its active lanes, ST.DRY with nothing of the row outstanding. -/
def Claim.OwnRowFormsComplete : Prop :=
  ∀ (s : State) (dry : StDry) (σ : Nat) (ld : LdS) (st : StS) (vl : VLd) (vs : VSt) (vt : VSts) (vg : VGat) (vc : VSct) (at_ : AtomX) (al : AtomL) (ca : CasX) (cl : CasL),
    isOpen s s.clk.cur = true → s.clk.cur < 2 ^ 28 →
    let r := s.clk.cur
    let spans := fun (m : XMem) (w k : Nat) (wr : Bool) (off : Nat → Int) => ∀ j < 512 / w, bitAt k j = true →
      OwnSpan s (memSeg s m) (memOff s m + off j) (w / 8) (w / 8) wr ∧
      (wr = true → 0x100 ≤ (memSeg s m).base + (memOff s m + off j).toNat ∧
        ((memSeg s m).base + (memOff s m + off j).toNat < 0x640 ∨ 0x700 ≤ (memSeg s m).base + (memOff s m + off j).toNat))
    let word := fun (g : Seg) (off : Int) (n : Nat) => OwnSpan s g off n n false ∧ OwnSpan s g off n n true ∧ 0x100 ≤ g.base + off.toNat ∧
      (g.base + off.toNat < 0x640 ∨ 0x700 ≤ g.base + off.toNat)
    (OwnSpan s (getSeg s r 1) ((src s ld.a : Int) + ld.imm.toInt) (itypeWidth ld.t / 8) (itypeWidth ld.t / 8) false →
      ∃ u, exec (.ld ld) s = .next (finish u r 4)) ∧
    (word (getSeg s r 1) ((src s st.a : Int) + st.off.toInt) (2 ^ st.w.toNat) → ∃ u, exec (.st st) s = .next (finish u r 4)) ∧
    (scopeOperand s r (getS s r dry.c.toNat) = .ok σ → word (memSeg s dry.mem) (memOff s dry.mem) (2 ^ dry.w.toNat) → (∀ w ∈ s.ms.wet, w.row ≠ r) →
      (∀ e ∈ s.ms.reqs, e.2.row ≠ r) → ∃ u, exec (.stDry dry) s = .next (finish u r 12)) ∧
    (wellFormed (.vld vl) = true → vl.dec = false →
      spans vl.mem (fmtWidth vl.et.toNat) (getK s r vl.k.toNat) false (fun (j : Nat) => (j * (fmtWidth vl.et.toNat / 8) : Nat)) →
      ∃ u, exec (.vld vl) s = .next (finish u r 12)) ∧
    (wellFormed (.vst vs) = true →
      spans vs.mem (fmtWidth vs.et.toNat) (getK s r vs.k.toNat) true (fun (j : Nat) => (j * (fmtWidth vs.et.toNat / 8) : Nat)) →
      ∃ u, exec (.vst vs) s = .next (finish u r 12)) ∧
    (wellFormed (.vsts vt) = true →
      spans vt.mem (fmtWidth vt.et.toNat) (getK s r vt.k.toNat) true (fun (j : Nat) => j * (BitVec.ofNat 64 (src s vt.b)).toInt) →
      ∃ u, exec (.vsts vt) s = .next (finish u r 12)) ∧
    (wellFormed (.vgat vg) = true →
      spans vg.mem (fmtWidth vg.et.toNat) (getK s r vg.k.toNat) false (fun (j : Nat) =>
        signedOf (fmtWidth vg.et.toNat) (elemAt (fmtWidth vg.et.toNat) (getV s r vg.b.toNat) j) * (2 ^ vg.sh.toNat : Nat)) →
      ∃ u, exec (.vgat vg) s = .next (finish u r 12)) ∧
    (wellFormed (.vsct vc) = true →
      spans vc.mem (fmtWidth vc.et.toNat) (getK s r vc.k.toNat) true (fun (j : Nat) =>
        signedOf (fmtWidth vc.et.toNat) (elemAt (fmtWidth vc.et.toNat) (getV s r vc.b.toNat) j) * (2 ^ vc.sh.toNat : Nat)) →
      ∃ u, exec (.vsct vc) s = .next (finish u r 12)) ∧
    (at_.et.toNat ∈ [3, 4, 7, 8, 0xB, 0xC] → word (memSeg s at_.mem) (memOff s at_.mem) (fmtWidth at_.et.toNat / 8) →
      ∀ i ∈ [Instr.aadd at_, .amin at_, .amax at_, .aand at_, .aor at_, .axor at_, .axchg at_], ∃ u, exec i s = .next (finish u r 12)) ∧
    (al.et.toNat ∈ [3, 4, 7, 8, 0xB, 0xC] → word (lmemSeg s al.mem) (lmemOff s al.mem) (fmtWidth al.et.toNat / 8) →
      ∀ i ∈ [Instr.aaddXl al, .aminXl al, .amaxXl al, .aandXl al, .aorXl al, .axorXl al, .axchgXl al], ∃ u, exec i s = .next (finish u r 20)) ∧
    (ca.et.toNat ∈ [3, 4, 7, 8, 0xB, 0xC] → word (memSeg s ca.mem) (memOff s ca.mem) (fmtWidth ca.et.toNat / 8) →
      ∃ u, exec (.acas ca) s = .next (finish u r 12)) ∧
    (cl.et.toNat ∈ [3, 4, 7, 8, 0xB, 0xC] → word (lmemSeg s cl.mem) (lmemOff s cl.mem) (fmtWidth cl.et.toNat / 8) →
      ∃ u, exec (.acasXl cl) s = .next (finish u r 20))

/-- R103, R227, R228, R235, R240, R250, R260, R265 to R267, R273, R297, R328 to R333: an instruction that asks another unit, with d other than s0, leaves rotation with its cause to
wait for the answer (R110); FENCE and FENCEX of a row with nothing outstanding complete. -/
def Claim.AskingFormsComplete : Prop :=
  ∀ (s : State) (d a b c : Reg) (v : VReg) (imm : BitVec 32) (t k : Nat) (no : SendX) (nl : SendL) (jo : JopenX) (jl : JopenL) (jc : JcloseX) (jt : JcloseL),
    let r := s.clk.cur
    (d ≠ 0 → rowOperand s r (getS s r a.toNat) = .ok t → ∀ i ∈ [Instr.ctl d a b, .wake d a],
      ∃ u, exec i s = .next u ∧ getF u r fCode = 4 ∧ getF u r fWhy = 1 ∧ tabGet u.rows.lens r = some 4) ∧
    (d ≠ 0 → isPriv s r = true → rowOperand s r (getS s r a.toNat) = .ok t → ∀ i ∈ [Instr.arm d a b, .disarm d a],
      ∃ u, exec i s = .next u ∧ getF u r fCode = 4 ∧ getF u r fWhy = 1 ∧ tabGet u.rows.lens r = some 4) ∧
    (no.d ≠ 0 → noteTarget s r (getS s r no.a.toNat) = .ok t → getF s r fDeficit < 63 →
      ∃ u, exec (.note no) s = .next u ∧ getF u r fCode = 4 ∧ getF u r fWhy = 1 ∧ tabGet u.rows.lens r = some 12) ∧
    (nl.d ≠ 0 → noteTarget s r (getS s r nl.a.toNat) = .ok t → getF s r fDeficit < 63 →
      ∃ u, exec (.noteXl nl) s = .next u ∧ getF u r fCode = 4 ∧ getF u r fWhy = 1 ∧ tabGet u.rows.lens r = some 20) ∧
    (no.a = 0 → bitsAt (getS s r no.b.toNat).toNat 0 40 ≠ 0 → bitsAt (getS s r no.b.toNat).toNat 40 24 = 0 → getF s r fDeficit < 63 →
      rackCount s (rackKey 0 (exOf r) (partOf s r)) + 1 + blockSize s (partOf s r) ≤ rackShare s (rackKey 0 (exOf r) (partOf s r)) →
      ∃ u, exec (.kpush no) s = .next (finish u r 12)) ∧
    (nl.a = 0 → bitsAt (getS s r nl.b.toNat).toNat 0 40 ≠ 0 → bitsAt (getS s r nl.b.toNat).toNat 40 24 = 0 → getF s r fDeficit < 63 →
      rackCount s (rackKey 0 (exOf r) (partOf s r)) + 1 + blockSize s (partOf s r) ≤ rackShare s (rackKey 0 (exOf r) (partOf s r)) →
      ∃ u, exec (.kpushXl nl) s = .next (finish u r 20)) ∧
    (d ≠ 0 → potName s r (getS s r a.toNat) true = .ok k →
      (∀ i ∈ [Instr.potset d a b imm, .potsetClear d a], ∃ u, exec i s = .next u ∧ getF u r fCode = 4 ∧ getF u r fWhy = 8 ∧ tabGet u.rows.lens r = some 12) ∧
      ∀ i ∈ [Instr.potget d a, .potrel d a], ∃ u, exec i s = .next u ∧ getF u r fCode = 4 ∧ getF u r fWhy = 8 ∧ tabGet u.rows.lens r = some 4) ∧
    (potName s r (getS s r a.toNat) false = .ok k →
      ∃ u, exec (.potput d a v) s = .next u ∧ getF u r fCode = 4 ∧ getF u r fWhy = 8 ∧ tabGet u.rows.lens r = some 4) ∧
    (d ≠ 0 → cellName (exOf r) (src s c) = some (k, 0) →
      ∃ u, exec (.bsum d a b c) s = .next u ∧ getF u r fCode = 4 ∧ getF u r fWhy = 1 ∧ tabGet u.rows.lens r = some 12) ∧
    (d ≠ 0 → cellName (exOf r) (src s c) = some (k, 0) → (unitAt s (exOf r)).holder = some r → (unitAt s (exOf r)).spillEnds = none → src s a < 4096 →
      ∃ u, exec (.bsumAcc d a c) s = .next u ∧ getF u r fCode = 4 ∧ getF u r fWhy = 1 ∧ tabGet u.rows.lens r = some 12) ∧
    (src s a < 16 → ∀ i ∈ [Instr.bredRead d a, .bredClear d a, .bredClaim d a, .bredRelease d a], ∃ u, exec i s = .next (finish u r 12)) ∧
    ((unitAt s (exOf r)).holder = some r → (unitAt s (exOf r)).spillEnds = none → ∃ u, exec (.mzero 0) s = .next (finish u r 4)) ∧
    (jo.d ≠ 0 → src s jo.c / 2 ^ 13 % 8 = 0 → ∃ u, exec (.jopen jo) s = .next u ∧ getF u r fCode = 4 ∧ getF u r fWhy = 1 ∧ tabGet u.rows.lens r = some 12) ∧
    (jl.d ≠ 0 → src s jl.c / 2 ^ 13 % 8 = 0 → ∃ u, exec (.jopenXl jl) s = .next u ∧ getF u r fCode = 4 ∧ getF u r fWhy = 1 ∧ tabGet u.rows.lens r = some 20) ∧
    (jo.d ≠ 0 → jo.e = 0 → ∃ u, exec (.jrwd jo) s = .next u ∧ getF u r fCode = 4 ∧ getF u r fWhy = 1 ∧ tabGet u.rows.lens r = some 12) ∧
    (jl.d ≠ 0 → jl.e = 0 → ∃ u, exec (.jrwdXl jl) s = .next u ∧ getF u r fCode = 4 ∧ getF u r fWhy = 1 ∧ tabGet u.rows.lens r = some 20) ∧
    (jc.d ≠ 0 → (∀ w ∈ s.ms.wet, w.row ≠ r) → (∀ e ∈ s.ms.reqs, e.2.row ≠ r) →
      ∃ u, exec (.jclose jc) s = .next u ∧ getF u r fCode = 4 ∧ getF u r fWhy = 1 ∧ tabGet u.rows.lens r = some 12) ∧
    (jt.d ≠ 0 → (∀ w ∈ s.ms.wet, w.row ≠ r) → (∀ e ∈ s.ms.reqs, e.2.row ≠ r) →
      ∃ u, exec (.jcloseXl jt) s = .next u ∧ getF u r fCode = 4 ∧ getF u r fWhy = 1 ∧ tabGet u.rows.lens r = some 20) ∧
    (isPriv s r = true → src s a < 128 → src s b % 64 = 0 → 0x800 ≤ src s b → src s b ≤ 0xFC0 →
      ∀ i ∈ [Instr.jcfgSet d a b, .jcfgClear d a b, .jcfgPurge d a b],
        ∃ u, exec i s = .next u ∧ getF u r fCode = 4 ∧ getF u r fWhy = 2 ∧ tabGet u.rows.lens r = some 12) ∧
    (isOpen s r = true → getF s r fPend = 0 → getF s r fRegion = 0 → s.rows.stepping.contains r = false →
      getF s r (fLoopArmed 0) = 0 → getF s r (fLoopArmed 1) = 0 →
      (∃ u, exec .quit s = .next u ∧ getF u r fCode = 8) ∧ (∃ u, exec .park s = .next u ∧ getF u r fCode = 1) ∧
      ∃ u, exec .yield s = .next u ∧ (readyElse s r = true → getF u r fCode = 2)) ∧
    (∀ (σ : Nat) (sets : BitVec 32), scopeOperand s r (getS s r a.toNat) = .ok σ → (∀ w ∈ s.ms.wet, w.row ≠ r) → (∀ e ∈ s.ms.reqs, e.2.row ≠ r) →
      exec (.fence a) s = .next (finish s r 4) ∧ ((fencexOpen s r).length < 8 → ∃ u, exec (.fencex a sets) s = .next (finish u r 12)))

/-- R78, R262 to R267, R325, R327, R342, R346, R356, R366, R378 to R383: events of pots, join engines, rows, links and hosts act: a release at its pot, the push of a finished
episode and its retry where the rack has room, the instruction limit, the correction of the replicas, the end of a layout's commit, the decision of a switch whose areas suffice, operations of hosts that may reach what they name. -/
def Claim.EventsComplete : Prop :=
  ∀ (s : State) (id eng p k n : Nat) (a : Nat) (bs : List (BitVec 8)) (w1 w2 w3 : Word) (q : PotReq) (x : Release) (t : JoinTable) (e : Episode) (lim : Nat),
    ((s.eng.pots.find? fun q => q.id == id) = some q → getF s q.row fCode = 4 → q.wait = true → q.row < 2 ^ 28 → q.kind = 2 → potActive s q.pot = true →
      potCtx s q.pot = q.ctx → potTaken s q.pot ≠ 0 → (∀ y ∈ s.eng.pots, y.held = false) → s.eng.copies = [] →
      potHolder s q = none → ∃ u, exec (.potOperation id) s = .next u ∧ potTaken u q.pot = potTaken s q.pot - 1 ∧ potFree u q.pot = (potFree s q.pot + 1) % 2 ^ 9 ∧
        u.mem = s.mem ∧ ∀ y ∈ u.eng.pots, y.id ≠ id) ∧
    (tableOf s x.table = some t → epOf t x.key = some e → tblOrder t = false → t.purge = none → Claim.PlainRecord s t.part e.recAt (recLen s e.recAt) →
      (∀ r ∈ s.rows.kinds, r < 2 ^ 28) → x.table % 8 = eng → rackName 0 (descW t 5) = some (0, 0) →
      rackCount s (rackKey 0 0 t.part) + 1 + blockSize s t.part ≤ rackShare s (rackKey 0 0 t.part) →
      (((tabGetD s.join.releases eng []).find? Release.running) = some x → ∃ u, exec (.releasePush eng) s = .next u ∧ recF u e.recAt 0x20 0 3 = 4 ∧
        ∀ y ∈ tabGetD u.join.releases eng [], ¬ (y.table = x.table ∧ y.key = x.key)) ∧
      ((tabGetD s.join.releases eng []).filter (fun y => y.held && decide (y.offerAt ≤ s.clk.now)) = [x] → ∃ u, exec (.releasePushRetry eng) s = .next u ∧
        recF u e.recAt 0x20 0 3 = 4 ∧ ∀ y ∈ tabGetD u.join.releases eng [], ¬ (y.table = x.table ∧ y.key = x.key))) ∧
    (effIlimit s id = some lim → getF s id fPersist = 0 → lim ≠ 0 → lim ≤ tabGetD s.rows.icount id 0 →
      ∃ u, exec (.instructionLimit id) s = .next u ∧ u = takeFault s id ⟨0x0A, 2, (instrAddr s id).1, (instrAddr s id).2⟩ (majorAt s id)) ∧
    (∃ u, exec (.gtimeCorrection eng) s = .next u ∧ u = s) ∧
    (∀ w, switchOf s p = some w → w.decided = false → switchFits s p w.out = true → p < 32 →
      ∃ u, exec (.switchDecision p) s = .next u ∧ activeCtx u p = regBits s (supAt p) 4 3 ∧ regBits u (supAt p) 3 1 = 0 ∧
        (switchOf u p).map (fun x => (x.decided, x.short)) = some (true, false)) ∧
    (p < 32 → ∃ u, exec (.contextEndOrder p k) s = .next u ∧ u = if ctxLive s p (k % 8) then contextEnd s p (k % 8) 5 else s) ∧
    (∀ g h rest, conservatorRuns s = true → n ≠ 0 → shadowGen s = n → layoutGen s = n → s.hub.journal = (1, n, g) :: (0, n, h) :: rest →
      ∃ u, exec (.commit n) s = .next u ∧ shadowGen u = 0 ∧ u.hub.heldParts = []) ∧
    (p < 32 → ∃ u, exec (.unsupportedOperation p k) s = .next u ∧ u.mem = s.mem) ∧
    (p < 32 → ∃ u, exec (.linkFailure p (4096 + k % 64)) s = .next u ∧ regBits u (hostWordAt p (k % 64)) 6 1 = 1) ∧
    (hostUsable s p k = true → s.hub.heldParts.contains p = false →
      (0 < bs.length → bs.length ≤ 4096 → (∀ y ∈ lineSpans a bs.length, dpaChecks s p (hostPriv s p k) true (a + y.1) = none) →
        ∃ u y, exec (.hostRmaWrite p ⟨k, 1⟩ a bs) s = .next u ∧ tabGet u.ms.reqs s.clk.ids = some y ∧ Due u (.directAccess s.clk.ids 0) s.clk.now) ∧
      (0 < n → n ≤ 4096 → (∀ y ∈ lineSpans a n, dpaChecks s p (hostPriv s p k) false (a + y.1) = none) →
        ∃ u y, exec (.hostRmaRead p ⟨k, 1⟩ a n) s = .next u ∧ tabGet u.ms.reqs s.clk.ids = some y ∧ Due u (.directAccess s.clk.ids 0) s.clk.now) ∧
      (a % 8 = 0 → isReg a = false → (∀ y ∈ lineSpans a 8, dpaChecks s p (hostPriv s p k) true (a + y.1) = none) →
        ∃ u y, exec (.hostRmaAtomic p ⟨k, 1⟩ a 0 8 w1 w2) s = .next u ∧ tabGet u.ms.reqs s.clk.ids = some y ∧ Due u (.directAccess s.clk.ids 0) s.clk.now) ∧
      (stackHeld s (rowDpa a) = none → a < 2 ^ 28 → partOf s a = p → isReservedRow s a = false → inJoinArea s (rowDpa a + 0x700) = false →
        ∃ u y, exec (.hostTaggedSend p ⟨k, 1⟩ a w1 w2 w3) s = .next u ∧ tabGet u.ms.reqs s.clk.ids = some y ∧ Due u (.noteLanding s.clk.ids) s.clk.now))

/-! ### The obligations -/

/-- Integer sums, products and logic give their results and commit. -/
def Obligations.IntegerArithmeticGivesItsResults : Prop :=
  Claim.IntegerArithmetic ∧ Claim.HighProductsAndLogic

/-- Shifts, rotations, bit counts, bit fields, LUT3 and SEL give their results and commit. -/
def Obligations.ShiftsAndBitOperationsGiveTheirResults : Prop :=
  Claim.Shifts ∧ Claim.BitOperations

/-- MIN, MAX, comparisons, constants and immediate forms give their results and commit. -/
def Obligations.ComparesAndConstantsGiveTheirResults : Prop :=
  Claim.MinMaxAndCompares ∧ Claim.ConstantsAndImmediates

/-- Divides and square roots leave rotation and stand ready with their results. -/
def Obligations.DividesLeaveRotation : Prop :=
  Claim.Divides ∧ Claim.FloatDividesAndRoots

/-- A commit of a row at rest writes PC and nothing else. -/
def Obligations.CommitWritesPc : Prop :=
  Claim.CommitWritesPc

/-- LOOP and LOOPX arm their level; both levels are resolved at every commit. -/
def Obligations.LoopLevelsResolve : Prop :=
  Claim.LoopLevelsResolve ∧ Claim.LoopsArm

/-- Branches, jumps and JR go where the manual says. Clauses rest on readings and choices of the model: log entry 21. -/
def Obligations.TransfersOfControl : Prop :=
  Claim.Branches ∧ Claim.Jumps ∧ Claim.JumpsToRegister

/-- Scalar floating point: arithmetic, FMA, FMIN and FMAX, FCVT, canonical NaNs. -/
def Obligations.FloatArithmeticRoundsOnce : Prop :=
  Claim.FloatArithmetic ∧ Claim.FloatMinMax ∧ Claim.FloatConverts ∧ Claim.NanInCanonicalNanOut

/-- FSGN, FCEQ, FCLT, FCLE and FCLASS. -/
def Obligations.FloatComparesAndClasses : Prop :=
  Claim.FloatComparesAndClasses

/-- Two-operand vector instructions, lane by lane, in X and literal form. -/
def Obligations.VectorArithmetic : Prop :=
  Claim.VectorArithmetic ∧ Claim.VectorBitsAndShifts

/-- VFMA, VLUT3, VSEL and VPERM. -/
def Obligations.VectorSelectsAndPermutes : Prop :=
  Claim.VectorSelectsAndPermutes

/-- VBC, VXT, VIN and VCMP. -/
def Obligations.VectorLanesAndCompares : Prop :=
  Claim.VectorLanesAndScalars ∧ Claim.VectorCompares

/-- VRED and VSCAN over the fixed tree. -/
def Obligations.VectorReductionsAndScans : Prop :=
  Claim.VectorReductions ∧ Claim.ReductionTree

/-- VCVT and VDOT. -/
def Obligations.VectorConvertsAndDots : Prop :=
  Claim.VectorConverts ∧ Claim.IntegerConversionLanes ∧ Claim.VectorDots

/-- KAND, KOR, KXOR, KNOT, KMOV, KPOP and KFIND. -/
def Obligations.MaskInstructions : Prop :=
  Claim.Masks

/-- Scalar loads and stores of the own row, and the checks of a segment in their order. Clauses rest on readings and choices of the model: log entry 21. -/
def Obligations.ScalarAccessesOfTheOwnRow : Prop :=
  Claim.OwnRowScalarAccesses ∧ Claim.SegmentChecksInOrder

/-- Vector loads, decoding loads and vector stores of the own row. Clauses rest on readings and choices of the model: log entry 77. -/
def Obligations.VectorAccessesOfTheOwnRow : Prop :=
  Claim.OwnRowVectorLoads ∧ Claim.DecodingLoads ∧ Claim.DecodingStrides ∧ Claim.OwnRowVectorStores

/-- Loads leave for their homes and wait; stores enter the wet buffer and commit. -/
def Obligations.AccessesLeaveTheRow : Prop :=
  Claim.SentLoads ∧ Claim.StoresAreWet

/-- PREF, FMTQ, TLBINV, MIGRATE, the end of a walk and of a copied line. Clauses rest on readings and choices of the model: log entries 42, 67, 75. -/
def Obligations.TranslationAndMigration : Prop :=
  Claim.TranslationInstructions ∧ Claim.Migrations ∧ Claim.WalksEnd ∧ Claim.MigrationsCopy

/-- Atomics and WATCH on the own row, and watches that the home polls. -/
def Obligations.AtomicsAndWatches : Prop :=
  Claim.OwnRowAtomics ∧ Claim.Watches ∧ Claim.WatchesPolled

/-- Scope operands, PHASE, TICK and WAITLB. -/
def Obligations.PhasesAndScopes : Prop :=
  Claim.ScopeOperands ∧ Claim.Phases

/-- FENCE, FENCEX and ST.DRY. -/
def Obligations.FencesAndDryStores : Prop :=
  Claim.Fences ∧ Claim.DryStores

/-- A direct access at its home: loads, stores, atomics, watches, and what holds it. Clauses rest on readings and choices of the model: log entries 43, 50. -/
def Obligations.DirectAccessesAtTheirHomes : Prop :=
  Claim.AccessesAtHomes ∧ Claim.AccessesHeld

/-- Replies and ends of long instructions complete their rows. -/
def Obligations.RepliesAndCompletions : Prop :=
  Claim.RepliesEndAccesses

/-- First trips of wet stores, drying, precedence and acknowledgement. -/
def Obligations.WetStoresDry : Prop :=
  Claim.FirstTrips ∧ Claim.EntriesDry

/-- Samples, deliveries and joins of the lower-bound network; rectangle words. -/
def Obligations.LowerBoundNetwork : Prop :=
  Claim.LowerBounds ∧ Claim.RectangleWrites

/-- Commands have the outcome and the state of their table. -/
def Obligations.CommandsFollowTheTable : Prop :=
  Claim.CommandTable ∧ Claim.CommandsTurnedAway

/-- Commands land; rows are opened, held and aged; QUIT, PARK and YIELD. -/
def Obligations.RowsOpenCloseAndAge : Prop :=
  Claim.CommandsLand ∧ Claim.OpeningHoldingAging ∧ Claim.GivingUpTheSlot

/-- CTL, WAKE, ARM, DISARM, SELF, SPAWN and PEEK. Clauses rest on readings and choices of the model: log entry 29. -/
def Obligations.RowInstructions : Prop :=
  Claim.RowInstructionsReachRows ∧ Claim.RowOperandFaults ∧ Claim.SelfAndSpawn ∧ Claim.Peeks

/-- Taking a fault and returning from one. -/
def Obligations.FaultsFreezeTheRow : Prop :=
  Claim.FaultsFreezeTheRow ∧ Claim.FaultNotes ∧ Claim.ResumeKeepsTheRow

/-- TRAP, BEAT, GTIME and SWITCH. Clauses rest on readings and choices of the model: log entry 12. -/
def Obligations.TrapsBeatsTimeAndSwitch : Prop :=
  Claim.TrapsBeatsAndTime ∧ Claim.SwitchStatuses

/-- Slot tables, budgets, priorities, windows, watchdogs, context switches and suspends. Clauses rest on readings and choices of the model: log entries 12, 46. -/
def Obligations.GovernorAndWatchdog : Prop :=
  Claim.SlotTables ∧ Claim.BudgetsAndPriorities ∧ Claim.Watchdogs ∧ Claim.SwitchesAndSuspends

/-- NOTE, its landing, gates, engagement and system notes. Clauses rest on readings and choices of the model: log entry 75. -/
def Obligations.NotesTravelAndLand : Prop :=
  Claim.NotesLeave ∧ Claim.NotesLand ∧ Claim.NoteLandingActs ∧ Claim.SystemNotes

/-- RECV and RECVQ, and the words of channels. Clauses rest on readings and choices of the model: log entries 20, 49. -/
def Obligations.ReceivingAndChannels : Prop :=
  Claim.Receiving ∧ Claim.ChannelWords

/-- KPUSH, TAKE, BALSET, blocks in transit and lateral shipments. -/
def Obligations.RacksOfSketches : Prop :=
  Claim.RackOrder ∧ Claim.SketchPushes ∧ Claim.SketchTakes ∧ Claim.RackEvents ∧ Claim.LateralShipments ∧
  Claim.BalancingWords

/-- JDEC and DONE, acknowledgements and the end of an engagement. Clauses rest on readings and choices of the model: log entry 50. -/
def Obligations.JoinsAndTermination : Prop :=
  Claim.JoinDecrements ∧ Claim.Termination

/-- CPY, CPYW, CPYQ and the pieces of a copy. -/
def Obligations.CopiesMoveBytes : Prop :=
  Claim.CopyStarts ∧ Claim.CopyQueries ∧ Claim.CopyPieces

/-- POTSET, POTPUT, POTGET, POTREL and what they do at the pot. Clauses rest on readings and choices of the model: log entry 30. -/
def Obligations.PotsPassSlots : Prop :=
  Claim.PotInstructions ∧ Claim.PotOperations ∧ Claim.PotSettings

/-- MOWN, MREL, MCFG, MZERO and restoring a unit. Clauses rest on readings and choices of the model: log entry 32. -/
def Obligations.MatrixUnitOwnership : Prop :=
  Claim.TakingTheUnit ∧ Claim.UnitRegisters ∧ Claim.UnitRestores

/-- MMA step by step, MST and MLD. -/
def Obligations.MatrixSteps : Prop :=
  Claim.MatrixSteps ∧ Claim.MatrixArithmetic ∧ Claim.AccumulatorRows

/-- BSUM and BRED. Clauses rest on readings and choices of the model: log entry 36. -/
def Obligations.ReductionCells : Prop :=
  Claim.ReductionSums ∧ Claim.ReductionCells

/-- GTBL, GEN, GHALO, their events, and SWEEP. Clauses rest on readings and choices of the model: log entries 37, 48. -/
def Obligations.RulesAndSweeps : Prop :=
  Claim.RuleInstructions ∧ Claim.GenerationSteps ∧ Claim.RuleEvents ∧ Claim.Sweeps

/-- JOPEN, JRWD, JCLOSE, JCFG, JVER and JSTAT send messages that their engine takes. Clauses rest on readings and choices of the model: log entries 8, 38. -/
def Obligations.JoinMessages : Prop :=
  Claim.JoinMessages ∧ Claim.JoinTablesAsked ∧ Claim.JoinMessagesTaken

/-- Episodes open, take rewards and close. Clauses rest on readings and choices of the model: log entry 41. -/
def Obligations.EpisodesAndRewards : Prop :=
  Claim.EpisodesOpen ∧ Claim.RewardsLand ∧ Claim.EpisodesClose

/-- Records are scanned and released to their racks. Clauses rest on readings and choices of the model: log entries 40, 41. -/
def Obligations.RecordsAndReleases : Prop :=
  Claim.RecordsScan ∧ Claim.ReleasesPush

/-- Join tables are set, cleared, purged and read; deadlines and orphans. Clauses rest on readings and choices of the model: log entry 38. -/
def Obligations.JoinTables : Prop :=
  Claim.JoinTablesAct ∧ Claim.JoinTicks

/-- PREPARE, COMMIT and the conservator's recovery. Clauses rest on readings and choices of the model: log entry 7. -/
def Obligations.LayoutChangesInTwoPhases : Prop :=
  Claim.LayoutsPrepared ∧ Claim.LayoutsCommitted

/-- Max-min shares, duties, alarms, gating, power-kills and clock hops. -/
def Obligations.PowerBudgetsAlarmsAndHops : Prop :=
  Claim.FairShares ∧ Claim.BudgetTree ∧ Claim.AlarmsAndHops

/-- Fabric operations of hosts and failed links. Clauses rest on readings and choices of the model: log entries 8, 50. -/
def Obligations.HostOperationsAndLinks : Prop :=
  Claim.HostOperations ∧ Claim.PeerTraffic ∧ Claim.LinksFail

/-- Mailbox requests, firmware images, attestation, reset and life cycle. Clauses rest on readings and choices of the model: log entries 4, 5, 7. -/
def Obligations.FirmwareAndLifeCycle : Prop :=
  Claim.MailboxRequests ∧ Claim.FirmwareAndLifeCycle

/-- Scrubbing, refresh, sequencer resets, recovery, and stores to register words. Clauses rest on readings and choices of the model: log entry 6. -/
def Obligations.StorageErrorsAndRegisterWrites : Prop :=
  Claim.StorageErrors ∧ Claim.RegisterWrites

/-- Forms that need only the row complete: vector, mask, transfer, own-row accesses. -/
def Obligations.FormsOfTheRowComplete : Prop :=
  Claim.RegisterFormsComplete ∧ Claim.OwnRowFormsComplete

/-- Forms that ask another unit leave rotation for its answer, and events act. -/
def Obligations.FormsThatAskAndEventsComplete : Prop :=
  Claim.AskingFormsComplete ∧ Claim.EventsComplete

/-- What reset leaves. -/
def Obligations.ResetLeavesTheModuleEmpty : Prop :=
  Claim.ResetLeaves

/-- Memory is in canonical form after reset. -/
def Obligations.ResetMeetsTheInvariant : Prop :=
  Claim.ResetMeetsInvariant

/-- Every step keeps memory in canonical form. -/
def Obligations.StepsKeepMemoryCanonical : Prop :=
  Claim.StepsKeepMemoryCanonical

/-- A step runs the instruction that the words at PC decode to. Clauses rest on readings and choices of the model: log entry 53. -/
def Obligations.StepRunsTheDecodedInstruction : Prop :=
  Claim.StepRunsTheDecodedInstruction

/-- Faults of the fetch, the encoding hash, and the steps of the module. Clauses rest on readings and choices of the model: log entries 9, 15, 18. -/
def Obligations.FetchesStopAndModuleSteps : Prop :=
  Claim.FetchesStop ∧ Claim.StepsOfTheModule

/-- Decoding inverts encoding for every well-formed instruction. -/
def Obligations.DecodingInvertsEncoding : Prop :=
  Claim.DecodingInvertsEncoding

/-- Words written out in the manual decode to their instructions. -/
def Obligations.ManualsWordsDecode : Prop :=
  Claim.DecodingIsRight
end

