-- ==== Sys2Proof/Laws/Bits.lean ====
section
/-!
SUPPORT. Bit fields of numbers: a field written reads back, other fields and bits stand; elements of packed strings.
-/
namespace Sys2Proof.Machine

theorem testBit_bitsAt (v lo len i : Nat) : (bitsAt v lo len).testBit i = (decide (i < len) && v.testBit (lo + i)) := by
  simp [bitsAt, Nat.testBit_mod_two_pow, Nat.testBit_shiftRight]

/-- The bits of a number with a field replaced. -/
theorem testBit_setBits (v lo len x i : Nat) :
    (setBits v lo len x).testBit i = if lo ≤ i ∧ i < lo + len then x.testBit (i - lo) else v.testBit i := by
  have h : setBits v lo len x = 2 ^ lo * (2 ^ len * (v >>> (lo + len)) + x % 2 ^ len) + v % 2 ^ lo := by
    unfold setBits
    rw [Nat.shiftLeft_eq, Nat.shiftLeft_eq, Nat.pow_add, Nat.mul_add]
    generalize v >>> (lo + len) = y
    generalize x % 2 ^ len = z
    rw [Nat.mul_comm z, Nat.mul_comm y, Nat.mul_assoc]
    omega
  rw [h, Nat.testBit_two_pow_mul_add _ (Nat.mod_lt _ (Nat.two_pow_pos lo))]
  by_cases h1 : i < lo
  · rw [if_pos h1, if_neg (by omega)]; simp [Nat.testBit_mod_two_pow, h1]
  · rw [if_neg h1, Nat.testBit_two_pow_mul_add _ (Nat.mod_lt _ (Nat.two_pow_pos len))]
    by_cases h2 : i < lo + len
    · rw [if_pos (by omega), if_pos (by omega)]; simp [Nat.testBit_mod_two_pow]; intro; omega
    · rw [if_neg (by omega), if_neg (by omega), Nat.testBit_shiftRight]; congr 1; omega

/-- A field written reads back. -/
theorem bitsAt_setBits (v lo len x : Nat) : bitsAt (setBits v lo len x) lo len = x % 2 ^ len := by
  apply Nat.eq_of_testBit_eq
  intro i
  rw [testBit_bitsAt, testBit_setBits, Nat.testBit_mod_two_pow]
  by_cases h : i < len
  · rw [if_pos (by omega)]; simp [h, show lo + i - lo = i by omega]
  · simp [h]

/-- A field beside the one written stands. -/
theorem bitsAt_setBits_ne (v lo len x lo' len' : Nat) (h : lo' + len' ≤ lo ∨ lo + len ≤ lo') :
    bitsAt (setBits v lo len x) lo' len' = bitsAt v lo' len' := by
  apply Nat.eq_of_testBit_eq
  intro i
  rw [testBit_bitsAt, testBit_bitsAt, testBit_setBits]
  by_cases hi : i < len'
  · rw [if_neg (by omega)]
  · simp [hi]

theorem setBits_lt (v lo len x n : Nat) (hv : v < 2 ^ n) (h : lo + len ≤ n) : setBits v lo len x < 2 ^ n := by
  apply Nat.lt_pow_two_of_testBit
  intro i hi
  rw [testBit_setBits, if_neg (by omega)]
  exact Nat.testBit_lt_two_pow (Nat.lt_of_lt_of_le hv (Nat.pow_le_pow_right (by omega) hi))

theorem bitsAt_mod (v n lo len : Nat) (h : lo + len ≤ n) : bitsAt (v % 2 ^ n) lo len = bitsAt v lo len := by
  apply Nat.eq_of_testBit_eq
  intro i
  rw [testBit_bitsAt, testBit_bitsAt, Nat.testBit_mod_two_pow]
  by_cases hi : i < len
  · simp [hi]; intro; omega
  · simp [hi]

theorem bitsAt_lt (v lo len : Nat) : bitsAt v lo len < 2 ^ len := Nat.mod_lt _ (Nat.two_pow_pos len)

/-! ### Packed strings -/

theorem elemAt_zero (w v : Nat) : elemAt w v 0 = v % 2 ^ w := by simp [elemAt, bitsAt]

theorem elemAt_succ (w v i : Nat) : elemAt w v (i + 1) = elemAt w (v / 2 ^ w) i := by
  unfold elemAt bitsAt
  rw [Nat.shiftRight_eq_div_pow, Nat.shiftRight_eq_div_pow, Nat.div_div_eq_div_mul, ← Nat.pow_add,
    show w * (i + 1) = w + w * i by rw [Nat.mul_add]; omega]

/-- Element `i` of a packed string. -/
theorem elemAt_packElems (w : Nat) (l : List Nat) : ∀ i, elemAt w (packElems w l) i = l.getD i 0 % 2 ^ w := by
  induction l with
  | nil => intro i; simp [packElems, elemAt, bitsAt]
  | cons x r ih =>
    intro i
    have hp : 0 < 2 ^ w := Nat.two_pow_pos w
    cases i with
    | zero => rw [elemAt_zero]; simp [packElems]
    | succ i =>
      rw [elemAt_succ, packElems, Nat.add_mul_div_left _ _ hp, Nat.div_eq_of_lt (Nat.mod_lt _ hp), Nat.zero_add, ih]
      simp

theorem packElems_lt (w : Nat) (l : List Nat) : packElems w l < 2 ^ (w * l.length) := by
  induction l with
  | nil => simp [packElems]
  | cons x r ih =>
    have hx : x % 2 ^ w < 2 ^ w := Nat.mod_lt _ (Nat.two_pow_pos w)
    simp only [packElems, List.length_cons]
    rw [show w * (r.length + 1) = w + w * r.length by rw [Nat.mul_add]; omega, Nat.pow_add]
    calc x % 2 ^ w + 2 ^ w * packElems w r < 2 ^ w + 2 ^ w * packElems w r := by omega
      _ = 2 ^ w * (packElems w r + 1) := by rw [Nat.mul_add]; omega
      _ ≤ 2 ^ w * 2 ^ (w * r.length) := Nat.mul_le_mul_left _ ih

end Sys2Proof.Machine
end

