-- ==== Sys2Proof/Laws/Memory.lean ====
section
/-!
SUPPORT. Memory: a read after a write, reads elsewhere, and the canonical form under every memory operation.
-/
namespace Sys2Proof.Machine

/-! ### Reading one byte -/

theorem memByte_memDrop (m : Memory) (a x : Nat) : memByte (memDrop m a) x = if x = a then 0 else memByte m x := by
  induction m with
  | nil => simp [memDrop, memByte]
  | cons c r ih =>
    obtain ⟨i, b⟩ := c
    by_cases h : i = a
    · subst h
      have : memDrop ((i, b) :: r) i = memDrop r i := by simp [memDrop]
      rw [this, ih]
      by_cases hx : x = i
      · simp [hx]
      · simp [hx, memByte, Ne.symm hx]
    · have : memDrop ((i, b) :: r) a = (i, b) :: memDrop r a := by simp [memDrop, h]
      rw [this]
      by_cases hx : i = x
      · subst hx; simp [memByte, h]
      · simp [memByte, hx, ih]

theorem memByte_memIns (m : Memory) (a x : Nat) (b : Byte) (h : ∀ c ∈ m, c.1 ≠ a) :
    memByte (memIns m a b) x = if x = a then b else memByte m x := by
  induction m with
  | nil =>
    by_cases hx : x = a
    · simp [memIns, memByte, hx]
    · simp [memIns, memByte, hx, Ne.symm hx]
  | cons c r ih =>
    obtain ⟨i, d⟩ := c
    have hi : i ≠ a := h (i, d) (by simp)
    have hr : ∀ c ∈ r, c.1 ≠ a := fun c hc => h c (by simp [hc])
    unfold memIns
    by_cases hlt : a < i
    · rw [if_pos hlt]
      by_cases hx : x = a
      · simp [memByte, hx]
      · simp [memByte, hx, Ne.symm hx]
    · rw [if_neg hlt]
      by_cases hx : i = x
      · subst hx; simp [memByte, hi]
      · simp [memByte, hx, ih hr]

theorem memDrop_free (m : Memory) (a : Nat) : ∀ c ∈ memDrop m a, c.1 ≠ a := by
  intro c hc
  simpa [memDrop] using (List.mem_filter.mp hc).2

/-- A byte written reads back, and every other byte reads as before. -/
theorem memByte_memPut (m : Memory) (a x : Nat) (b : Byte) :
    memByte (memPut m a b) x = if x = a then b else memByte m x := by
  unfold memPut
  split
  · rename_i h; simp [memByte_memDrop, h]
  · rw [memByte_memIns _ _ _ _ (memDrop_free m a), memByte_memDrop]
    split <;> simp_all

/-- What a string of written bytes reads as. -/
theorem memByte_memWrite (l : List Byte) : ∀ (m : Memory) (a x : Nat),
    memByte (memWrite m a l) x = if a ≤ x ∧ x < a + l.length then l.getD (x - a) 0 else memByte m x := by
  induction l with
  | nil => intro m a x; rw [if_neg (by simp)]; rfl
  | cons b r ih =>
    intro m a x
    simp only [memWrite, ih, memByte_memPut, List.length_cons]
    by_cases h1 : x = a
    · subst h1
      rw [if_neg (by omega), if_pos rfl, if_pos (by omega)]; simp
    · by_cases h2 : a + 1 ≤ x ∧ x < a + 1 + r.length
      · rw [if_pos h2, if_pos (by omega)]
        obtain ⟨k, hk⟩ : ∃ k, x - a = k + 1 := ⟨x - a - 1, by omega⟩
        rw [hk, show x - (a + 1) = k by omega]; simp
      · rw [if_neg h2, if_neg h1, if_neg (by omega)]

/-- Bytes outside a write read as before. -/
theorem memByte_memWrite_out (l : List Byte) (m : Memory) (a x : Nat) (h : x < a ∨ a + l.length ≤ x) :
    memByte (memWrite m a l) x = memByte m x := by
  rw [memByte_memWrite, if_neg (by omega)]

theorem memByte_memClear (m : Memory) (a n x : Nat) :
    memByte (memClear m a n) x = if a ≤ x ∧ x < a + n then 0 else memByte m x := by
  induction m with
  | nil => simp [memClear, memByte]
  | cons c r ih =>
    obtain ⟨i, b⟩ := c
    by_cases h : a ≤ i ∧ i < a + n
    · have : memClear ((i, b) :: r) a n = memClear r a n := by simp [memClear, h]
      rw [this, ih]
      by_cases hx : i = x
      · subst hx; simp [h]
      · simp [memByte, hx]
    · have : memClear ((i, b) :: r) a n = (i, b) :: memClear r a n := by
        simp only [memClear, List.filter_cons]
        rw [if_pos]; simp only [Bool.not_eq_true', Bool.and_eq_false_iff, decide_eq_false_iff_not]; omega
      rw [this]
      by_cases hx : i = x
      · subst hx; simp [memByte, h]
      · simp [memByte, hx, ih]

/-! ### Numbers in memory -/

@[simp] theorem length_bytesOf (n : Nat) : ∀ v, (bytesOf n v).length = n := by
  induction n with
  | zero => intro v; rfl
  | succ n ih => intro v; simp [bytesOf, ih]

@[simp] theorem length_memRead (m : Memory) (n : Nat) : ∀ a, (memRead m a n).length = n := by
  induction n with
  | zero => intro a; rfl
  | succ n ih => intro a; simp [memRead, ih]

theorem natOfBytes_bytesOf (n : Nat) : ∀ v, natOfBytes (bytesOf n v) = v % 2 ^ (8 * n) := by
  induction n with
  | zero => intro v; simp [bytesOf, natOfBytes, Nat.mod_one]
  | succ n ih =>
    intro v
    simp only [bytesOf, natOfBytes, ih, BitVec.toNat_ofNat]
    rw [show 8 * (n + 1) = 8 + 8 * n by omega, Nat.pow_add, Nat.mod_mul]

/-- Reads depend only on the bytes read. -/
theorem memRead_congr (m m' : Memory) (n : Nat) : ∀ a, (∀ x, a ≤ x → x < a + n → memByte m x = memByte m' x) →
    memRead m a n = memRead m' a n := by
  induction n with
  | zero => intro a _; rfl
  | succ n ih =>
    intro a h
    simp only [memRead]
    rw [h a (Nat.le_refl _) (by omega), ih (a + 1) fun x h1 h2 => h x (by omega) (by omega)]

theorem memNat_congr (m m' : Memory) (a n : Nat) (h : ∀ x, a ≤ x → x < a + n → memByte m x = memByte m' x) :
    memNat m a n = memNat m' a n := by
  unfold memNat; rw [memRead_congr m m' n a h]

theorem memRead_memWrite (l : List Byte) : ∀ (m : Memory) (a : Nat), memRead (memWrite m a l) a l.length = l := by
  induction l with
  | nil => intro m a; rfl
  | cons b r ih =>
    intro m a
    simp only [List.length_cons, memRead, memWrite]
    rw [memByte_memWrite_out _ _ _ _ (Or.inl (by omega)), memByte_memPut, if_pos rfl, ih]

/-- A number written reads back. -/
theorem memNat_memSetNat (m : Memory) (a n v : Nat) : memNat (memSetNat m a n v) a n = v % 2 ^ (8 * n) := by
  unfold memNat memSetNat
  have h := memRead_memWrite (bytesOf n v) m a
  rw [length_bytesOf] at h
  rw [h, natOfBytes_bytesOf]

theorem memByte_memSetNat_out (m : Memory) (a n v x : Nat) (h : x < a ∨ a + n ≤ x) :
    memByte (memSetNat m a n v) x = memByte m x :=
  memByte_memWrite_out _ _ _ _ (by simpa using h)

/-- A number elsewhere reads as before. -/
theorem memNat_memSetNat_out (m : Memory) (a n v b k : Nat) (h : b + k ≤ a ∨ a + n ≤ b) :
    memNat (memSetNat m a n v) b k = memNat m b k :=
  memNat_congr _ _ _ _ fun x _ _ => memByte_memSetNat_out _ _ _ _ _ (by omega)

theorem natOfBytes_lt (l : List Byte) : natOfBytes l < 2 ^ (8 * l.length) := by
  induction l with
  | nil => simp [natOfBytes]
  | cons b r ih =>
    have hb := b.isLt
    simp only [natOfBytes, List.length_cons]
    rw [show 8 * (r.length + 1) = 8 + 8 * r.length by omega, Nat.pow_add]
    omega

theorem memNat_lt (m : Memory) (a n : Nat) : memNat m a n < 2 ^ (8 * n) := by
  have h := natOfBytes_lt (memRead m a n)
  rw [length_memRead] at h
  exact h

/-! ### The canonical form -/

theorem memWfFrom_mono : ∀ (m : Memory) (l k : Option Nat), memWfFrom l m = true →
    (match k with | none => True | some y => match l with | none => False | some x => y ≤ x) → memWfFrom k m = true := by
  intro m
  cases m with
  | nil => intros; rfl
  | cons c r =>
    intro l k h hk
    obtain ⟨i, b⟩ := c
    cases k with
    | none => cases l <;> simp_all [memWfFrom]
    | some y =>
      cases l with
      | none => exact absurd hk id
      | some x =>
        simp only [memWfFrom, Bool.and_eq_true, decide_eq_true_eq] at h ⊢
        exact ⟨⟨by have := h.1.1; simp only at hk; omega, h.1.2⟩, h.2⟩

theorem memWfFrom_filter (p : Host.Cell → Bool) : ∀ (m : Memory) (l : Option Nat), memWfFrom l m = true →
    memWfFrom l (m.filter p) = true := by
  intro m
  induction m with
  | nil => intro l h; exact h
  | cons c r ih =>
    intro l h
    obtain ⟨i, b⟩ := c
    simp only [memWfFrom, Bool.and_eq_true] at h
    rw [List.filter_cons]
    split
    · simp only [memWfFrom, Bool.and_eq_true]; exact ⟨h.1, ih _ h.2⟩
    · refine memWfFrom_mono _ (some i) l (ih _ h.2) ?_
      cases l with
      | none => trivial
      | some x => have := h.1.1; simp only [decide_eq_true_eq] at this; exact Nat.le_of_lt this

theorem memWfFrom_memIns (a : Nat) (b : Byte) (hb : b ≠ 0) : ∀ (m : Memory) (l : Option Nat), memWfFrom l m = true →
    (∀ c ∈ m, c.1 ≠ a) → (match l with | none => True | some x => x < a) → memWfFrom l (memIns m a b) = true := by
  intro m
  induction m with
  | nil => intro l _ _ hl; cases l <;> simp_all [memIns, memWfFrom]
  | cons c r ih =>
    intro l h hm hl
    obtain ⟨i, d⟩ := c
    have hi : i ≠ a := hm (i, d) (by simp)
    have hr : ∀ c ∈ r, c.1 ≠ a := fun c hc => hm c (by simp [hc])
    simp only [memWfFrom, Bool.and_eq_true] at h
    unfold memIns
    split
    · rename_i hlt
      simp only [memWfFrom, Bool.and_eq_true, decide_eq_true_eq]
      refine ⟨⟨?_, by simpa using hb⟩, ⟨⟨hlt, h.1.2⟩, h.2⟩⟩
      cases l with
      | none => trivial
      | some x => simpa using hl
    · rename_i hge
      simp only [memWfFrom, Bool.and_eq_true]
      exact ⟨h.1, ih _ h.2 hr (by simp only; omega)⟩

theorem wf_memDrop (m : Memory) (a : Nat) (h : Memory.wf m = true) : Memory.wf (memDrop m a) = true :=
  memWfFrom_filter _ _ _ h

theorem wf_memPut (m : Memory) (a : Nat) (b : Byte) (h : Memory.wf m = true) : Memory.wf (memPut m a b) = true := by
  unfold memPut
  split
  · exact wf_memDrop m a h
  · rename_i hb
    exact memWfFrom_memIns a b hb _ _ (wf_memDrop m a h) (memDrop_free m a) trivial

theorem wf_memWrite (l : List Byte) : ∀ (m : Memory) (a : Nat), Memory.wf m = true → Memory.wf (memWrite m a l) = true := by
  induction l with
  | nil => intro m a h; exact h
  | cons b r ih => intro m a h; exact ih _ _ (wf_memPut m a b h)

theorem wf_memSetNat (m : Memory) (a n v : Nat) (h : Memory.wf m = true) : Memory.wf (memSetNat m a n v) = true :=
  wf_memWrite _ _ _ h

theorem wf_memClear (m : Memory) (a n : Nat) (h : Memory.wf m = true) : Memory.wf (memClear m a n) = true :=
  memWfFrom_filter _ _ _ h

end Sys2Proof.Machine
end

