-- ==== Sys2Proof/Laws/State.lean ====
section
/-!
SUPPORT. Each update of the state, field by field: what it leaves as it was (all true by unfolding).
-/
namespace Sys2Proof.Machine

@[simp] theorem setRowNat_clk (s : State) (r off n v : Nat) : (setRowNat s r off n v).clk = s.clk := (rfl)
@[simp] theorem setRowNat_agenda (s : State) (r off n v : Nat) : (setRowNat s r off n v).agenda = s.agenda := (rfl)
@[simp] theorem setRowNat_regs (s : State) (r off n v : Nat) : (setRowNat s r off n v).regs = s.regs := (rfl)
@[simp] theorem setRowNat_rows (s : State) (r off n v : Nat) : (setRowNat s r off n v).rows = s.rows := (rfl)
@[simp] theorem setRowNat_ms (s : State) (r off n v : Nat) : (setRowNat s r off n v).ms = s.ms := (rfl)
@[simp] theorem setRowNat_msg (s : State) (r off n v : Nat) : (setRowNat s r off n v).msg = s.msg := (rfl)
@[simp] theorem setRowNat_eng (s : State) (r off n v : Nat) : (setRowNat s r off n v).eng = s.eng := (rfl)
@[simp] theorem setRowNat_lines (s : State) (r off n v : Nat) : (setRowNat s r off n v).lines = s.lines := (rfl)
@[simp] theorem setRowNat_join (s : State) (r off n v : Nat) : (setRowNat s r off n v).join = s.join := (rfl)
@[simp] theorem setRowNat_iss (s : State) (r off n v : Nat) : (setRowNat s r off n v).iss = s.iss := (rfl)
@[simp] theorem setRowNat_hub (s : State) (r off n v : Nat) : (setRowNat s r off n v).hub = s.hub := (rfl)

@[simp] theorem setF_clk (s : State) (r : Nat) (f : Fld) (v : Nat) : (setF s r f v).clk = s.clk := (rfl)
@[simp] theorem setF_agenda (s : State) (r : Nat) (f : Fld) (v : Nat) : (setF s r f v).agenda = s.agenda := (rfl)
@[simp] theorem setF_regs (s : State) (r : Nat) (f : Fld) (v : Nat) : (setF s r f v).regs = s.regs := (rfl)
@[simp] theorem setF_rows (s : State) (r : Nat) (f : Fld) (v : Nat) : (setF s r f v).rows = s.rows := (rfl)
@[simp] theorem setF_ms (s : State) (r : Nat) (f : Fld) (v : Nat) : (setF s r f v).ms = s.ms := (rfl)
@[simp] theorem setF_msg (s : State) (r : Nat) (f : Fld) (v : Nat) : (setF s r f v).msg = s.msg := (rfl)
@[simp] theorem setF_eng (s : State) (r : Nat) (f : Fld) (v : Nat) : (setF s r f v).eng = s.eng := (rfl)
@[simp] theorem setF_lines (s : State) (r : Nat) (f : Fld) (v : Nat) : (setF s r f v).lines = s.lines := (rfl)
@[simp] theorem setF_join (s : State) (r : Nat) (f : Fld) (v : Nat) : (setF s r f v).join = s.join := (rfl)
@[simp] theorem setF_iss (s : State) (r : Nat) (f : Fld) (v : Nat) : (setF s r f v).iss = s.iss := (rfl)
@[simp] theorem setF_hub (s : State) (r : Nat) (f : Fld) (v : Nat) : (setF s r f v).hub = s.hub := (rfl)

@[simp] theorem setRawS_clk (s : State) (r i : Nat) (v : Word) : (setRawS s r i v).clk = s.clk := (rfl)
@[simp] theorem setRawS_agenda (s : State) (r i : Nat) (v : Word) : (setRawS s r i v).agenda = s.agenda := (rfl)
@[simp] theorem setRawS_regs (s : State) (r i : Nat) (v : Word) : (setRawS s r i v).regs = s.regs := (rfl)
@[simp] theorem setRawS_rows (s : State) (r i : Nat) (v : Word) : (setRawS s r i v).rows = s.rows := (rfl)
@[simp] theorem setRawS_ms (s : State) (r i : Nat) (v : Word) : (setRawS s r i v).ms = s.ms := (rfl)
@[simp] theorem setRawS_msg (s : State) (r i : Nat) (v : Word) : (setRawS s r i v).msg = s.msg := (rfl)
@[simp] theorem setRawS_eng (s : State) (r i : Nat) (v : Word) : (setRawS s r i v).eng = s.eng := (rfl)
@[simp] theorem setRawS_join (s : State) (r i : Nat) (v : Word) : (setRawS s r i v).join = s.join := (rfl)
@[simp] theorem setRawS_iss (s : State) (r i : Nat) (v : Word) : (setRawS s r i v).iss = s.iss := (rfl)
@[simp] theorem setRawS_hub (s : State) (r i : Nat) (v : Word) : (setRawS s r i v).hub = s.hub := (rfl)

@[simp] theorem setV_clk (s : State) (r i v : Nat) : (setV s r i v).clk = s.clk := (rfl)
@[simp] theorem setV_agenda (s : State) (r i v : Nat) : (setV s r i v).agenda = s.agenda := (rfl)
@[simp] theorem setV_regs (s : State) (r i v : Nat) : (setV s r i v).regs = s.regs := (rfl)
@[simp] theorem setV_rows (s : State) (r i v : Nat) : (setV s r i v).rows = s.rows := (rfl)
@[simp] theorem setV_ms (s : State) (r i v : Nat) : (setV s r i v).ms = s.ms := (rfl)
@[simp] theorem setV_msg (s : State) (r i v : Nat) : (setV s r i v).msg = s.msg := (rfl)
@[simp] theorem setV_eng (s : State) (r i v : Nat) : (setV s r i v).eng = s.eng := (rfl)
@[simp] theorem setV_join (s : State) (r i v : Nat) : (setV s r i v).join = s.join := (rfl)
@[simp] theorem setV_iss (s : State) (r i v : Nat) : (setV s r i v).iss = s.iss := (rfl)
@[simp] theorem setV_hub (s : State) (r i v : Nat) : (setV s r i v).hub = s.hub := (rfl)

@[simp] theorem setCode_clk (s : State) (r c w : Nat) : (setCode s r c w).clk = s.clk := by simp [setCode]
@[simp] theorem setCode_agenda (s : State) (r c w : Nat) : (setCode s r c w).agenda = s.agenda := by simp [setCode]
@[simp] theorem setCode_regs (s : State) (r c w : Nat) : (setCode s r c w).regs = s.regs := by simp [setCode]
@[simp] theorem setCode_rows (s : State) (r c w : Nat) : (setCode s r c w).rows = s.rows := by simp [setCode]
@[simp] theorem setCode_ms (s : State) (r c w : Nat) : (setCode s r c w).ms = s.ms := by simp [setCode]
@[simp] theorem setCode_msg (s : State) (r c w : Nat) : (setCode s r c w).msg = s.msg := by simp [setCode]
@[simp] theorem setCode_eng (s : State) (r c w : Nat) : (setCode s r c w).eng = s.eng := by simp [setCode]
@[simp] theorem setCode_lines (s : State) (r c w : Nat) : (setCode s r c w).lines = s.lines := by simp [setCode]
@[simp] theorem setCode_join (s : State) (r c w : Nat) : (setCode s r c w).join = s.join := by simp [setCode]
@[simp] theorem setCode_iss (s : State) (r c w : Nat) : (setCode s r c w).iss = s.iss := by simp [setCode]
@[simp] theorem setCode_hub (s : State) (r c w : Nat) : (setCode s r c w).hub = s.hub := by simp [setCode]

@[simp] theorem writeFault_clk (s : State) (r : Nat) (f : FaultRec) : (writeFault s r f).clk = s.clk := by simp [writeFault]
@[simp] theorem writeFault_agenda (s : State) (r : Nat) (f : FaultRec) : (writeFault s r f).agenda = s.agenda := by simp [writeFault]
@[simp] theorem writeFault_regs (s : State) (r : Nat) (f : FaultRec) : (writeFault s r f).regs = s.regs := by simp [writeFault]
@[simp] theorem writeFault_rows (s : State) (r : Nat) (f : FaultRec) : (writeFault s r f).rows = s.rows := by simp [writeFault]
@[simp] theorem writeFault_ms (s : State) (r : Nat) (f : FaultRec) : (writeFault s r f).ms = s.ms := by simp [writeFault]
@[simp] theorem writeFault_msg (s : State) (r : Nat) (f : FaultRec) : (writeFault s r f).msg = s.msg := by simp [writeFault]
@[simp] theorem writeFault_eng (s : State) (r : Nat) (f : FaultRec) : (writeFault s r f).eng = s.eng := by simp [writeFault]
@[simp] theorem writeFault_lines (s : State) (r : Nat) (f : FaultRec) : (writeFault s r f).lines = s.lines := by simp [writeFault]
@[simp] theorem writeFault_join (s : State) (r : Nat) (f : FaultRec) : (writeFault s r f).join = s.join := by simp [writeFault]
@[simp] theorem writeFault_iss (s : State) (r : Nat) (f : FaultRec) : (writeFault s r f).iss = s.iss := by simp [writeFault]
@[simp] theorem writeFault_hub (s : State) (r : Nat) (f : FaultRec) : (writeFault s r f).hub = s.hub := by simp [writeFault]

@[simp] theorem freshCode_clk (s : State) (r : Nat) : (freshCode s r).clk = s.clk := (rfl)
@[simp] theorem freshCode_agenda (s : State) (r : Nat) : (freshCode s r).agenda = s.agenda := (rfl)
@[simp] theorem freshCode_mem (s : State) (r : Nat) : (freshCode s r).mem = s.mem := (rfl)
@[simp] theorem freshCode_regs (s : State) (r : Nat) : (freshCode s r).regs = s.regs := (rfl)
@[simp] theorem freshCode_lines (s : State) (r : Nat) : (freshCode s r).lines = s.lines := (rfl)
@[simp] theorem freshCode_ms (s : State) (r : Nat) : (freshCode s r).ms = s.ms := (rfl)
@[simp] theorem freshCode_msg (s : State) (r : Nat) : (freshCode s r).msg = s.msg := (rfl)
@[simp] theorem freshCode_eng (s : State) (r : Nat) : (freshCode s r).eng = s.eng := (rfl)
@[simp] theorem freshCode_join (s : State) (r : Nat) : (freshCode s r).join = s.join := (rfl)
@[simp] theorem freshCode_iss (s : State) (r : Nat) : (freshCode s r).iss = s.iss := (rfl)
@[simp] theorem freshCode_hub (s : State) (r : Nat) : (freshCode s r).hub = s.hub := (rfl)

@[simp] theorem redirectTo_clk (s : State) (r : Nat) : (redirectTo s r).clk = s.clk := by simp [redirectTo]
@[simp] theorem redirectTo_agenda (s : State) (r : Nat) : (redirectTo s r).agenda = s.agenda := by simp [redirectTo]
@[simp] theorem redirectTo_regs (s : State) (r : Nat) : (redirectTo s r).regs = s.regs := by simp [redirectTo]
@[simp] theorem redirectTo_lines (s : State) (r : Nat) : (redirectTo s r).lines = s.lines := by simp [redirectTo]
@[simp] theorem redirectTo_ms (s : State) (r : Nat) : (redirectTo s r).ms = s.ms := by simp [redirectTo]
@[simp] theorem redirectTo_msg (s : State) (r : Nat) : (redirectTo s r).msg = s.msg := by simp [redirectTo]
@[simp] theorem redirectTo_eng (s : State) (r : Nat) : (redirectTo s r).eng = s.eng := by simp [redirectTo]
@[simp] theorem redirectTo_join (s : State) (r : Nat) : (redirectTo s r).join = s.join := by simp [redirectTo]
@[simp] theorem redirectTo_iss (s : State) (r : Nat) : (redirectTo s r).iss = s.iss := by simp [redirectTo]
@[simp] theorem redirectTo_hub (s : State) (r : Nat) : (redirectTo s r).hub = s.hub := by simp [redirectTo]

@[simp] theorem setRegWord_clk (s : State) (a v : Nat) : (setRegWord s a v).clk = s.clk := (rfl)
@[simp] theorem setRegWord_agenda (s : State) (a v : Nat) : (setRegWord s a v).agenda = s.agenda := (rfl)
@[simp] theorem setRegWord_mem (s : State) (a v : Nat) : (setRegWord s a v).mem = s.mem := (rfl)
@[simp] theorem setRegWord_rows (s : State) (a v : Nat) : (setRegWord s a v).rows = s.rows := (rfl)
@[simp] theorem setRegWord_ms (s : State) (a v : Nat) : (setRegWord s a v).ms = s.ms := (rfl)
@[simp] theorem setRegWord_msg (s : State) (a v : Nat) : (setRegWord s a v).msg = s.msg := (rfl)
@[simp] theorem setRegWord_eng (s : State) (a v : Nat) : (setRegWord s a v).eng = s.eng := (rfl)
@[simp] theorem setRegWord_lines (s : State) (a v : Nat) : (setRegWord s a v).lines = s.lines := (rfl)
@[simp] theorem setRegWord_join (s : State) (a v : Nat) : (setRegWord s a v).join = s.join := (rfl)
@[simp] theorem setRegWord_iss (s : State) (a v : Nat) : (setRegWord s a v).iss = s.iss := (rfl)
@[simp] theorem setRegWord_hub (s : State) (a v : Nat) : (setRegWord s a v).hub = s.hub := (rfl)

@[simp] theorem setRegBits_clk (s : State) (a lo len v : Nat) : (setRegBits s a lo len v).clk = s.clk := (rfl)
@[simp] theorem setRegBits_agenda (s : State) (a lo len v : Nat) : (setRegBits s a lo len v).agenda = s.agenda := (rfl)
@[simp] theorem setRegBits_mem (s : State) (a lo len v : Nat) : (setRegBits s a lo len v).mem = s.mem := (rfl)
@[simp] theorem setRegBits_rows (s : State) (a lo len v : Nat) : (setRegBits s a lo len v).rows = s.rows := (rfl)
@[simp] theorem setRegBits_ms (s : State) (a lo len v : Nat) : (setRegBits s a lo len v).ms = s.ms := (rfl)
@[simp] theorem setRegBits_msg (s : State) (a lo len v : Nat) : (setRegBits s a lo len v).msg = s.msg := (rfl)
@[simp] theorem setRegBits_eng (s : State) (a lo len v : Nat) : (setRegBits s a lo len v).eng = s.eng := (rfl)
@[simp] theorem setRegBits_lines (s : State) (a lo len v : Nat) : (setRegBits s a lo len v).lines = s.lines := (rfl)
@[simp] theorem setRegBits_join (s : State) (a lo len v : Nat) : (setRegBits s a lo len v).join = s.join := (rfl)
@[simp] theorem setRegBits_iss (s : State) (a lo len v : Nat) : (setRegBits s a lo len v).iss = s.iss := (rfl)
@[simp] theorem setRegBits_hub (s : State) (a lo len v : Nat) : (setRegBits s a lo len v).hub = s.hub := (rfl)

@[simp] theorem regAdd_clk (s : State) (a n : Nat) : (regAdd s a n).clk = s.clk := (rfl)
@[simp] theorem regAdd_agenda (s : State) (a n : Nat) : (regAdd s a n).agenda = s.agenda := (rfl)
@[simp] theorem regAdd_mem (s : State) (a n : Nat) : (regAdd s a n).mem = s.mem := (rfl)
@[simp] theorem regAdd_rows (s : State) (a n : Nat) : (regAdd s a n).rows = s.rows := (rfl)
@[simp] theorem regAdd_ms (s : State) (a n : Nat) : (regAdd s a n).ms = s.ms := (rfl)
@[simp] theorem regAdd_msg (s : State) (a n : Nat) : (regAdd s a n).msg = s.msg := (rfl)
@[simp] theorem regAdd_eng (s : State) (a n : Nat) : (regAdd s a n).eng = s.eng := (rfl)
@[simp] theorem regAdd_lines (s : State) (a n : Nat) : (regAdd s a n).lines = s.lines := (rfl)
@[simp] theorem regAdd_join (s : State) (a n : Nat) : (regAdd s a n).join = s.join := (rfl)
@[simp] theorem regAdd_iss (s : State) (a n : Nat) : (regAdd s a n).iss = s.iss := (rfl)
@[simp] theorem regAdd_hub (s : State) (a n : Nat) : (regAdd s a n).hub = s.hub := (rfl)

@[simp] theorem regAddSat_clk (s : State) (a n : Nat) : (regAddSat s a n).clk = s.clk := (rfl)
@[simp] theorem regAddSat_agenda (s : State) (a n : Nat) : (regAddSat s a n).agenda = s.agenda := (rfl)
@[simp] theorem regAddSat_mem (s : State) (a n : Nat) : (regAddSat s a n).mem = s.mem := (rfl)
@[simp] theorem regAddSat_rows (s : State) (a n : Nat) : (regAddSat s a n).rows = s.rows := (rfl)
@[simp] theorem regAddSat_ms (s : State) (a n : Nat) : (regAddSat s a n).ms = s.ms := (rfl)
@[simp] theorem regAddSat_msg (s : State) (a n : Nat) : (regAddSat s a n).msg = s.msg := (rfl)
@[simp] theorem regAddSat_eng (s : State) (a n : Nat) : (regAddSat s a n).eng = s.eng := (rfl)
@[simp] theorem regAddSat_lines (s : State) (a n : Nat) : (regAddSat s a n).lines = s.lines := (rfl)
@[simp] theorem regAddSat_join (s : State) (a n : Nat) : (regAddSat s a n).join = s.join := (rfl)
@[simp] theorem regAddSat_iss (s : State) (a n : Nat) : (regAddSat s a n).iss = s.iss := (rfl)
@[simp] theorem regAddSat_hub (s : State) (a n : Nat) : (regAddSat s a n).hub = s.hub := (rfl)

@[simp] theorem freshId_agenda (s : State) : (freshId s).agenda = s.agenda := (rfl)
@[simp] theorem freshId_mem (s : State) : (freshId s).mem = s.mem := (rfl)
@[simp] theorem freshId_regs (s : State) : (freshId s).regs = s.regs := (rfl)
@[simp] theorem freshId_rows (s : State) : (freshId s).rows = s.rows := (rfl)
@[simp] theorem freshId_ms (s : State) : (freshId s).ms = s.ms := (rfl)
@[simp] theorem freshId_msg (s : State) : (freshId s).msg = s.msg := (rfl)
@[simp] theorem freshId_eng (s : State) : (freshId s).eng = s.eng := (rfl)
@[simp] theorem freshId_lines (s : State) : (freshId s).lines = s.lines := (rfl)
@[simp] theorem freshId_join (s : State) : (freshId s).join = s.join := (rfl)
@[simp] theorem freshId_iss (s : State) : (freshId s).iss = s.iss := (rfl)
@[simp] theorem freshId_hub (s : State) : (freshId s).hub = s.hub := (rfl)

@[simp] theorem postAt_mem (s : State) (due : Nat) (tag : MsgTag) (ev : Instr) : (postAt s due tag ev).mem = s.mem := (rfl)
@[simp] theorem postAt_regs (s : State) (due : Nat) (tag : MsgTag) (ev : Instr) : (postAt s due tag ev).regs = s.regs := (rfl)
@[simp] theorem postAt_rows (s : State) (due : Nat) (tag : MsgTag) (ev : Instr) : (postAt s due tag ev).rows = s.rows := (rfl)
@[simp] theorem postAt_ms (s : State) (due : Nat) (tag : MsgTag) (ev : Instr) : (postAt s due tag ev).ms = s.ms := (rfl)
@[simp] theorem postAt_msg (s : State) (due : Nat) (tag : MsgTag) (ev : Instr) : (postAt s due tag ev).msg = s.msg := (rfl)
@[simp] theorem postAt_eng (s : State) (due : Nat) (tag : MsgTag) (ev : Instr) : (postAt s due tag ev).eng = s.eng := (rfl)
@[simp] theorem postAt_lines (s : State) (due : Nat) (tag : MsgTag) (ev : Instr) : (postAt s due tag ev).lines = s.lines := (rfl)
@[simp] theorem postAt_join (s : State) (due : Nat) (tag : MsgTag) (ev : Instr) : (postAt s due tag ev).join = s.join := (rfl)
@[simp] theorem postAt_iss (s : State) (due : Nat) (tag : MsgTag) (ev : Instr) : (postAt s due tag ev).iss = s.iss := (rfl)
@[simp] theorem postAt_hub (s : State) (due : Nat) (tag : MsgTag) (ev : Instr) : (postAt s due tag ev).hub = s.hub := (rfl)

@[simp] theorem postIn_mem (s : State) (d : Nat) (tag : MsgTag) (ev : Instr) : (postIn s d tag ev).mem = s.mem := (rfl)
@[simp] theorem postIn_regs (s : State) (d : Nat) (tag : MsgTag) (ev : Instr) : (postIn s d tag ev).regs = s.regs := (rfl)
@[simp] theorem postIn_rows (s : State) (d : Nat) (tag : MsgTag) (ev : Instr) : (postIn s d tag ev).rows = s.rows := (rfl)
@[simp] theorem postIn_ms (s : State) (d : Nat) (tag : MsgTag) (ev : Instr) : (postIn s d tag ev).ms = s.ms := (rfl)
@[simp] theorem postIn_msg (s : State) (d : Nat) (tag : MsgTag) (ev : Instr) : (postIn s d tag ev).msg = s.msg := (rfl)
@[simp] theorem postIn_eng (s : State) (d : Nat) (tag : MsgTag) (ev : Instr) : (postIn s d tag ev).eng = s.eng := (rfl)
@[simp] theorem postIn_lines (s : State) (d : Nat) (tag : MsgTag) (ev : Instr) : (postIn s d tag ev).lines = s.lines := (rfl)
@[simp] theorem postIn_join (s : State) (d : Nat) (tag : MsgTag) (ev : Instr) : (postIn s d tag ev).join = s.join := (rfl)
@[simp] theorem postIn_iss (s : State) (d : Nat) (tag : MsgTag) (ev : Instr) : (postIn s d tag ev).iss = s.iss := (rfl)
@[simp] theorem postIn_hub (s : State) (d : Nat) (tag : MsgTag) (ev : Instr) : (postIn s d tag ev).hub = s.hub := (rfl)

@[simp] theorem sendIn_mem (s : State) (d : Nat) (tag : MsgTag) (ev : Instr) : (sendIn s d tag ev).mem = s.mem := (rfl)
@[simp] theorem sendIn_regs (s : State) (d : Nat) (tag : MsgTag) (ev : Instr) : (sendIn s d tag ev).regs = s.regs := (rfl)
@[simp] theorem sendIn_rows (s : State) (d : Nat) (tag : MsgTag) (ev : Instr) : (sendIn s d tag ev).rows = s.rows := (rfl)
@[simp] theorem sendIn_ms (s : State) (d : Nat) (tag : MsgTag) (ev : Instr) : (sendIn s d tag ev).ms = s.ms := (rfl)
@[simp] theorem sendIn_msg (s : State) (d : Nat) (tag : MsgTag) (ev : Instr) : (sendIn s d tag ev).msg = s.msg := (rfl)
@[simp] theorem sendIn_eng (s : State) (d : Nat) (tag : MsgTag) (ev : Instr) : (sendIn s d tag ev).eng = s.eng := (rfl)
@[simp] theorem sendIn_lines (s : State) (d : Nat) (tag : MsgTag) (ev : Instr) : (sendIn s d tag ev).lines = s.lines := (rfl)
@[simp] theorem sendIn_join (s : State) (d : Nat) (tag : MsgTag) (ev : Instr) : (sendIn s d tag ev).join = s.join := (rfl)
@[simp] theorem sendIn_iss (s : State) (d : Nat) (tag : MsgTag) (ev : Instr) : (sendIn s d tag ev).iss = s.iss := (rfl)
@[simp] theorem sendIn_hub (s : State) (d : Nat) (tag : MsgTag) (ev : Instr) : (sendIn s d tag ev).hub = s.hub := (rfl)

@[simp] theorem repost_clk (s : State) (t : Timed) : (repost s t).clk = s.clk := (rfl)
@[simp] theorem repost_mem (s : State) (t : Timed) : (repost s t).mem = s.mem := (rfl)
@[simp] theorem repost_regs (s : State) (t : Timed) : (repost s t).regs = s.regs := (rfl)
@[simp] theorem repost_rows (s : State) (t : Timed) : (repost s t).rows = s.rows := (rfl)
@[simp] theorem repost_ms (s : State) (t : Timed) : (repost s t).ms = s.ms := (rfl)
@[simp] theorem repost_msg (s : State) (t : Timed) : (repost s t).msg = s.msg := (rfl)
@[simp] theorem repost_eng (s : State) (t : Timed) : (repost s t).eng = s.eng := (rfl)
@[simp] theorem repost_lines (s : State) (t : Timed) : (repost s t).lines = s.lines := (rfl)
@[simp] theorem repost_join (s : State) (t : Timed) : (repost s t).join = s.join := (rfl)
@[simp] theorem repost_iss (s : State) (t : Timed) : (repost s t).iss = s.iss := (rfl)
@[simp] theorem repost_hub (s : State) (t : Timed) : (repost s t).hub = s.hub := (rfl)

@[simp] theorem tryLater_clk (s : State) (d : Nat) (t : Timed) : (tryLater s d t).clk = s.clk := (rfl)
@[simp] theorem tryLater_mem (s : State) (d : Nat) (t : Timed) : (tryLater s d t).mem = s.mem := (rfl)
@[simp] theorem tryLater_regs (s : State) (d : Nat) (t : Timed) : (tryLater s d t).regs = s.regs := (rfl)
@[simp] theorem tryLater_rows (s : State) (d : Nat) (t : Timed) : (tryLater s d t).rows = s.rows := (rfl)
@[simp] theorem tryLater_ms (s : State) (d : Nat) (t : Timed) : (tryLater s d t).ms = s.ms := (rfl)
@[simp] theorem tryLater_msg (s : State) (d : Nat) (t : Timed) : (tryLater s d t).msg = s.msg := (rfl)
@[simp] theorem tryLater_eng (s : State) (d : Nat) (t : Timed) : (tryLater s d t).eng = s.eng := (rfl)
@[simp] theorem tryLater_lines (s : State) (d : Nat) (t : Timed) : (tryLater s d t).lines = s.lines := (rfl)
@[simp] theorem tryLater_join (s : State) (d : Nat) (t : Timed) : (tryLater s d t).join = s.join := (rfl)
@[simp] theorem tryLater_iss (s : State) (d : Nat) (t : Timed) : (tryLater s d t).iss = s.iss := (rfl)
@[simp] theorem tryLater_hub (s : State) (d : Nat) (t : Timed) : (tryLater s d t).hub = s.hub := (rfl)

@[simp] theorem freeSlot_clk (s : State) (r : Nat) : (freeSlot s r).clk = s.clk := (rfl)
@[simp] theorem freeSlot_agenda (s : State) (r : Nat) : (freeSlot s r).agenda = s.agenda := (rfl)
@[simp] theorem freeSlot_mem (s : State) (r : Nat) : (freeSlot s r).mem = s.mem := (rfl)
@[simp] theorem freeSlot_regs (s : State) (r : Nat) : (freeSlot s r).regs = s.regs := (rfl)
@[simp] theorem freeSlot_ms (s : State) (r : Nat) : (freeSlot s r).ms = s.ms := (rfl)
@[simp] theorem freeSlot_msg (s : State) (r : Nat) : (freeSlot s r).msg = s.msg := (rfl)
@[simp] theorem freeSlot_eng (s : State) (r : Nat) : (freeSlot s r).eng = s.eng := (rfl)
@[simp] theorem freeSlot_lines (s : State) (r : Nat) : (freeSlot s r).lines = s.lines := (rfl)
@[simp] theorem freeSlot_join (s : State) (r : Nat) : (freeSlot s r).join = s.join := (rfl)
@[simp] theorem freeSlot_iss (s : State) (r : Nat) : (freeSlot s r).iss = s.iss := (rfl)
@[simp] theorem freeSlot_hub (s : State) (r : Nat) : (freeSlot s r).hub = s.hub := (rfl)

@[simp] theorem dequeue_clk (s : State) (r : Nat) : (dequeue s r).clk = s.clk := (rfl)
@[simp] theorem dequeue_agenda (s : State) (r : Nat) : (dequeue s r).agenda = s.agenda := (rfl)
@[simp] theorem dequeue_mem (s : State) (r : Nat) : (dequeue s r).mem = s.mem := (rfl)
@[simp] theorem dequeue_regs (s : State) (r : Nat) : (dequeue s r).regs = s.regs := (rfl)
@[simp] theorem dequeue_ms (s : State) (r : Nat) : (dequeue s r).ms = s.ms := (rfl)
@[simp] theorem dequeue_msg (s : State) (r : Nat) : (dequeue s r).msg = s.msg := (rfl)
@[simp] theorem dequeue_eng (s : State) (r : Nat) : (dequeue s r).eng = s.eng := (rfl)
@[simp] theorem dequeue_lines (s : State) (r : Nat) : (dequeue s r).lines = s.lines := (rfl)
@[simp] theorem dequeue_join (s : State) (r : Nat) : (dequeue s r).join = s.join := (rfl)
@[simp] theorem dequeue_iss (s : State) (r : Nat) : (dequeue s r).iss = s.iss := (rfl)
@[simp] theorem dequeue_hub (s : State) (r : Nat) : (dequeue s r).hub = s.hub := (rfl)

@[simp] theorem withdraw_clk (s : State) (r : Nat) : (withdraw s r).clk = s.clk := (rfl)
@[simp] theorem withdraw_agenda (s : State) (r : Nat) : (withdraw s r).agenda = s.agenda := (rfl)
@[simp] theorem withdraw_mem (s : State) (r : Nat) : (withdraw s r).mem = s.mem := (rfl)
@[simp] theorem withdraw_regs (s : State) (r : Nat) : (withdraw s r).regs = s.regs := (rfl)
@[simp] theorem withdraw_lines (s : State) (r : Nat) : (withdraw s r).lines = s.lines := (rfl)
@[simp] theorem withdraw_join (s : State) (r : Nat) : (withdraw s r).join = s.join := (rfl)
@[simp] theorem withdraw_iss (s : State) (r : Nat) : (withdraw s r).iss = s.iss := (rfl)
@[simp] theorem withdraw_hub (s : State) (r : Nat) : (withdraw s r).hub = s.hub := (rfl)

@[simp] theorem closeRow_clk (s : State) (r : Nat) : (closeRow s r).clk = s.clk := by simp [closeRow]
@[simp] theorem closeRow_agenda (s : State) (r : Nat) : (closeRow s r).agenda = s.agenda := by simp [closeRow]
@[simp] theorem closeRow_mem (s : State) (r : Nat) : (closeRow s r).mem = s.mem := by simp [closeRow]
@[simp] theorem closeRow_regs (s : State) (r : Nat) : (closeRow s r).regs = s.regs := by simp [closeRow]
@[simp] theorem closeRow_lines (s : State) (r : Nat) : (closeRow s r).lines = s.lines := by simp [closeRow]
@[simp] theorem closeRow_join (s : State) (r : Nat) : (closeRow s r).join = s.join := by simp [closeRow]
@[simp] theorem closeRow_iss (s : State) (r : Nat) : (closeRow s r).iss = s.iss := by simp [closeRow]
@[simp] theorem closeRow_hub (s : State) (r : Nat) : (closeRow s r).hub = s.hub := by simp [closeRow]

@[simp] theorem resetCount_clk (s : State) (r : Nat) : (resetCount s r).clk = s.clk := (rfl)
@[simp] theorem resetCount_agenda (s : State) (r : Nat) : (resetCount s r).agenda = s.agenda := (rfl)
@[simp] theorem resetCount_mem (s : State) (r : Nat) : (resetCount s r).mem = s.mem := (rfl)
@[simp] theorem resetCount_regs (s : State) (r : Nat) : (resetCount s r).regs = s.regs := (rfl)
@[simp] theorem resetCount_ms (s : State) (r : Nat) : (resetCount s r).ms = s.ms := (rfl)
@[simp] theorem resetCount_msg (s : State) (r : Nat) : (resetCount s r).msg = s.msg := (rfl)
@[simp] theorem resetCount_eng (s : State) (r : Nat) : (resetCount s r).eng = s.eng := (rfl)
@[simp] theorem resetCount_lines (s : State) (r : Nat) : (resetCount s r).lines = s.lines := (rfl)
@[simp] theorem resetCount_join (s : State) (r : Nat) : (resetCount s r).join = s.join := (rfl)
@[simp] theorem resetCount_iss (s : State) (r : Nat) : (resetCount s r).iss = s.iss := (rfl)
@[simp] theorem resetCount_hub (s : State) (r : Nat) : (resetCount s r).hub = s.hub := (rfl)

@[simp] theorem hostNote_clk (s : State) (p e k : Nat) (ws : List Nat) : (hostNote s p e k ws).clk = s.clk := (rfl)
@[simp] theorem hostNote_agenda (s : State) (p e k : Nat) (ws : List Nat) : (hostNote s p e k ws).agenda = s.agenda := (rfl)
@[simp] theorem hostNote_mem (s : State) (p e k : Nat) (ws : List Nat) : (hostNote s p e k ws).mem = s.mem := (rfl)
@[simp] theorem hostNote_regs (s : State) (p e k : Nat) (ws : List Nat) : (hostNote s p e k ws).regs = s.regs := (rfl)
@[simp] theorem hostNote_rows (s : State) (p e k : Nat) (ws : List Nat) : (hostNote s p e k ws).rows = s.rows := (rfl)
@[simp] theorem hostNote_ms (s : State) (p e k : Nat) (ws : List Nat) : (hostNote s p e k ws).ms = s.ms := (rfl)
@[simp] theorem hostNote_msg (s : State) (p e k : Nat) (ws : List Nat) : (hostNote s p e k ws).msg = s.msg := (rfl)
@[simp] theorem hostNote_eng (s : State) (p e k : Nat) (ws : List Nat) : (hostNote s p e k ws).eng = s.eng := (rfl)
@[simp] theorem hostNote_lines (s : State) (p e k : Nat) (ws : List Nat) : (hostNote s p e k ws).lines = s.lines := (rfl)
@[simp] theorem hostNote_join (s : State) (p e k : Nat) (ws : List Nat) : (hostNote s p e k ws).join = s.join := (rfl)
@[simp] theorem hostNote_iss (s : State) (p e k : Nat) (ws : List Nat) : (hostNote s p e k ws).iss = s.iss := (rfl)

@[simp] theorem logBox_clk (s : State) (k pl p c d : Nat) : (logBox s k pl p c d).clk = s.clk := (rfl)
@[simp] theorem logBox_agenda (s : State) (k pl p c d : Nat) : (logBox s k pl p c d).agenda = s.agenda := (rfl)
@[simp] theorem logBox_mem (s : State) (k pl p c d : Nat) : (logBox s k pl p c d).mem = s.mem := (rfl)
@[simp] theorem logBox_regs (s : State) (k pl p c d : Nat) : (logBox s k pl p c d).regs = s.regs := (rfl)
@[simp] theorem logBox_rows (s : State) (k pl p c d : Nat) : (logBox s k pl p c d).rows = s.rows := (rfl)
@[simp] theorem logBox_ms (s : State) (k pl p c d : Nat) : (logBox s k pl p c d).ms = s.ms := (rfl)
@[simp] theorem logBox_msg (s : State) (k pl p c d : Nat) : (logBox s k pl p c d).msg = s.msg := (rfl)
@[simp] theorem logBox_eng (s : State) (k pl p c d : Nat) : (logBox s k pl p c d).eng = s.eng := (rfl)
@[simp] theorem logBox_lines (s : State) (k pl p c d : Nat) : (logBox s k pl p c d).lines = s.lines := (rfl)
@[simp] theorem logBox_join (s : State) (k pl p c d : Nat) : (logBox s k pl p c d).join = s.join := (rfl)
@[simp] theorem logBox_iss (s : State) (k pl p c d : Nat) : (logBox s k pl p c d).iss = s.iss := (rfl)

@[simp] theorem sendPacket_clk (s : State) (p : Nat) (q : Bool) (e k : Nat) (ws : List Nat) : (sendPacket s p q e k ws).clk = s.clk := (rfl)
@[simp] theorem sendPacket_agenda (s : State) (p : Nat) (q : Bool) (e k : Nat) (ws : List Nat) : (sendPacket s p q e k ws).agenda = s.agenda := (rfl)
@[simp] theorem sendPacket_mem (s : State) (p : Nat) (q : Bool) (e k : Nat) (ws : List Nat) : (sendPacket s p q e k ws).mem = s.mem := (rfl)
@[simp] theorem sendPacket_rows (s : State) (p : Nat) (q : Bool) (e k : Nat) (ws : List Nat) : (sendPacket s p q e k ws).rows = s.rows := (rfl)
@[simp] theorem sendPacket_lines (s : State) (p : Nat) (q : Bool) (e k : Nat) (ws : List Nat) : (sendPacket s p q e k ws).lines = s.lines := (rfl)
@[simp] theorem sendPacket_ms (s : State) (p : Nat) (q : Bool) (e k : Nat) (ws : List Nat) : (sendPacket s p q e k ws).ms = s.ms := (rfl)
@[simp] theorem sendPacket_msg (s : State) (p : Nat) (q : Bool) (e k : Nat) (ws : List Nat) : (sendPacket s p q e k ws).msg = s.msg := (rfl)
@[simp] theorem sendPacket_eng (s : State) (p : Nat) (q : Bool) (e k : Nat) (ws : List Nat) : (sendPacket s p q e k ws).eng = s.eng := (rfl)
@[simp] theorem sendPacket_join (s : State) (p : Nat) (q : Bool) (e k : Nat) (ws : List Nat) : (sendPacket s p q e k ws).join = s.join := (rfl)
@[simp] theorem sendPacket_iss (s : State) (p : Nat) (q : Bool) (e k : Nat) (ws : List Nat) : (sendPacket s p q e k ws).iss = s.iss := (rfl)

@[simp] theorem toManagement_clk (s : State) (p : Nat) (ws : List Word) : (toManagement s p ws).clk = s.clk := by simp [toManagement]
@[simp] theorem toManagement_agenda (s : State) (p : Nat) (ws : List Word) : (toManagement s p ws).agenda = s.agenda := by simp [toManagement]
@[simp] theorem toManagement_mem (s : State) (p : Nat) (ws : List Word) : (toManagement s p ws).mem = s.mem := by simp [toManagement]
@[simp] theorem toManagement_rows (s : State) (p : Nat) (ws : List Word) : (toManagement s p ws).rows = s.rows := by simp [toManagement]
@[simp] theorem toManagement_lines (s : State) (p : Nat) (ws : List Word) : (toManagement s p ws).lines = s.lines := by simp [toManagement]
@[simp] theorem toManagement_ms (s : State) (p : Nat) (ws : List Word) : (toManagement s p ws).ms = s.ms := by simp [toManagement]
@[simp] theorem toManagement_msg (s : State) (p : Nat) (ws : List Word) : (toManagement s p ws).msg = s.msg := by simp [toManagement]
@[simp] theorem toManagement_eng (s : State) (p : Nat) (ws : List Word) : (toManagement s p ws).eng = s.eng := by simp [toManagement]
@[simp] theorem toManagement_join (s : State) (p : Nat) (ws : List Word) : (toManagement s p ws).join = s.join := by simp [toManagement]
@[simp] theorem toManagement_iss (s : State) (p : Nat) (ws : List Word) : (toManagement s p ws).iss = s.iss := by simp [toManagement]

@[simp] theorem updEnd_clk (s : State) (r : Nat) (f : Endpoint → Endpoint) : (updEnd s r f).clk = s.clk := (rfl)
@[simp] theorem updEnd_agenda (s : State) (r : Nat) (f : Endpoint → Endpoint) : (updEnd s r f).agenda = s.agenda := (rfl)
@[simp] theorem updEnd_mem (s : State) (r : Nat) (f : Endpoint → Endpoint) : (updEnd s r f).mem = s.mem := (rfl)
@[simp] theorem updEnd_regs (s : State) (r : Nat) (f : Endpoint → Endpoint) : (updEnd s r f).regs = s.regs := (rfl)
@[simp] theorem updEnd_rows (s : State) (r : Nat) (f : Endpoint → Endpoint) : (updEnd s r f).rows = s.rows := (rfl)
@[simp] theorem updEnd_ms (s : State) (r : Nat) (f : Endpoint → Endpoint) : (updEnd s r f).ms = s.ms := (rfl)
@[simp] theorem updEnd_eng (s : State) (r : Nat) (f : Endpoint → Endpoint) : (updEnd s r f).eng = s.eng := (rfl)
@[simp] theorem updEnd_lines (s : State) (r : Nat) (f : Endpoint → Endpoint) : (updEnd s r f).lines = s.lines := (rfl)
@[simp] theorem updEnd_join (s : State) (r : Nat) (f : Endpoint → Endpoint) : (updEnd s r f).join = s.join := (rfl)
@[simp] theorem updEnd_iss (s : State) (r : Nat) (f : Endpoint → Endpoint) : (updEnd s r f).iss = s.iss := (rfl)
@[simp] theorem updEnd_hub (s : State) (r : Nat) (f : Endpoint → Endpoint) : (updEnd s r f).hub = s.hub := (rfl)

@[simp] theorem setK_clk (s : State) (r i v : Nat) : (setK s r i v).clk = s.clk := by unfold setK; split <;> rfl
@[simp] theorem setK_agenda (s : State) (r i v : Nat) : (setK s r i v).agenda = s.agenda := by unfold setK; split <;> rfl
@[simp] theorem setK_regs (s : State) (r i v : Nat) : (setK s r i v).regs = s.regs := by unfold setK; split <;> rfl
@[simp] theorem setK_rows (s : State) (r i v : Nat) : (setK s r i v).rows = s.rows := by unfold setK; split <;> rfl
@[simp] theorem setK_ms (s : State) (r i v : Nat) : (setK s r i v).ms = s.ms := by unfold setK; split <;> rfl
@[simp] theorem setK_msg (s : State) (r i v : Nat) : (setK s r i v).msg = s.msg := by unfold setK; split <;> rfl
@[simp] theorem setK_eng (s : State) (r i v : Nat) : (setK s r i v).eng = s.eng := by unfold setK; split <;> rfl
@[simp] theorem setK_join (s : State) (r i v : Nat) : (setK s r i v).join = s.join := by unfold setK; split <;> rfl
@[simp] theorem setK_iss (s : State) (r i v : Nat) : (setK s r i v).iss = s.iss := by unfold setK; split <;> rfl
@[simp] theorem setK_hub (s : State) (r i v : Nat) : (setK s r i v).hub = s.hub := by unfold setK; split <;> rfl

@[simp] theorem orFlags_clk (s : State) (r n : Nat) : (orFlags s r n).clk = s.clk := by unfold orFlags; split <;> rfl
@[simp] theorem orFlags_agenda (s : State) (r n : Nat) : (orFlags s r n).agenda = s.agenda := by unfold orFlags; split <;> rfl
@[simp] theorem orFlags_regs (s : State) (r n : Nat) : (orFlags s r n).regs = s.regs := by unfold orFlags; split <;> rfl
@[simp] theorem orFlags_rows (s : State) (r n : Nat) : (orFlags s r n).rows = s.rows := by unfold orFlags; split <;> rfl
@[simp] theorem orFlags_ms (s : State) (r n : Nat) : (orFlags s r n).ms = s.ms := by unfold orFlags; split <;> rfl
@[simp] theorem orFlags_msg (s : State) (r n : Nat) : (orFlags s r n).msg = s.msg := by unfold orFlags; split <;> rfl
@[simp] theorem orFlags_eng (s : State) (r n : Nat) : (orFlags s r n).eng = s.eng := by unfold orFlags; split <;> rfl
@[simp] theorem orFlags_lines (s : State) (r n : Nat) : (orFlags s r n).lines = s.lines := by unfold orFlags; split <;> rfl
@[simp] theorem orFlags_join (s : State) (r n : Nat) : (orFlags s r n).join = s.join := by unfold orFlags; split <;> rfl
@[simp] theorem orFlags_iss (s : State) (r n : Nat) : (orFlags s r n).iss = s.iss := by unfold orFlags; split <;> rfl
@[simp] theorem orFlags_hub (s : State) (r n : Nat) : (orFlags s r n).hub = s.hub := by unfold orFlags; split <;> rfl

end Sys2Proof.Machine
end

