-- ==== Sys2Proof/Laws/Row.lean ====
section
/-!
SUPPORT. The bytes of a row: fields and registers after a write to the same or another place of the row, and bytes elsewhere.
-/
namespace Sys2Proof.Machine

/-! ### Whole words -/

theorem setRowNat_mem (s : State) (r off n v : Nat) :
    (setRowNat s r off n v).mem = memSetNat s.mem (rowDpa r + off) n v := rfl

theorem rowNat_lt (s : State) (r off n : Nat) : rowNat s r off n < 2 ^ (8 * n) := memNat_lt _ _ _

/-- The bytes written to a row read back. -/
theorem rowNat_setRowNat (s : State) (r off n v : Nat) : rowNat (setRowNat s r off n v) r off n = v % 2 ^ (8 * n) :=
  memNat_memSetNat _ _ _ _

/-- Bytes of the row beside the written ones stand. -/
theorem rowNat_setRowNat_ne (s : State) (r off n v o k : Nat) (h : o + k ≤ off ∨ off + n ≤ o) :
    rowNat (setRowNat s r off n v) r o k = rowNat s r o k :=
  memNat_memSetNat_out _ _ _ _ _ _ (by omega)

/-- Bytes of another row stand. -/
theorem rowNat_setRowNat_row (s : State) (r q off n v o k : Nat) (hq : q ≠ r) (h1 : off + n ≤ 4096) (h2 : o + k ≤ 4096) :
    rowNat (setRowNat s r off n v) q o k = rowNat s q o k :=
  memNat_memSetNat_out _ _ _ _ _ _ (by unfold rowDpa; omega)

theorem memByte_setRowNat_out (s : State) (r off n v x : Nat) (h : x < rowDpa r + off ∨ rowDpa r + off + n ≤ x) :
    memByte (setRowNat s r off n v).mem x = memByte s.mem x :=
  memByte_memSetNat_out _ _ _ _ _ h

theorem rowNat_congr (s t : State) (r o k : Nat) (h : s.mem = t.mem) : rowNat s r o k = rowNat t r o k := by
  unfold rowNat; rw [h]

/-! ### Fields -/

/-- Two fields of the control field share no bit. -/
abbrev Fld.Apart (f g : Fld) : Prop :=
  g.off + 8 ≤ f.off ∨ f.off + 8 ≤ g.off ∨ (g.off = f.off ∧ (g.lo + g.len ≤ f.lo ∨ f.lo + f.len ≤ g.lo))

theorem getF_setF (s : State) (r : Nat) (f : Fld) (v : Nat) (h : f.lo + f.len ≤ 64) :
    getF (setF s r f v) r f = v % 2 ^ f.len := by
  unfold getF setF
  rw [rowNat_setRowNat, bitsAt_mod _ _ _ _ h, bitsAt_setBits]

theorem getF_setF_ne (s : State) (r : Nat) (f g : Fld) (v : Nat) (h : Fld.Apart f g) (h2 : g.lo + g.len ≤ 64) :
    getF (setF s r f v) r g = getF s r g := by
  unfold getF setF
  rcases h with h | h | ⟨h, hb⟩
  · rw [rowNat_setRowNat_ne _ _ _ _ _ _ _ (Or.inl h)]
  · rw [rowNat_setRowNat_ne _ _ _ _ _ _ _ (Or.inr h)]
  · rw [h, rowNat_setRowNat, bitsAt_mod _ _ _ _ h2, bitsAt_setBits_ne _ _ _ _ _ _ hb]

theorem getF_setRowNat_ne (s : State) (r off n v : Nat) (g : Fld) (h : g.off + 8 ≤ off ∨ off + n ≤ g.off) :
    getF (setRowNat s r off n v) r g = getF s r g := by
  unfold getF; rw [rowNat_setRowNat_ne _ _ _ _ _ _ _ h]

theorem rowNat_setF_ne (s : State) (r : Nat) (f : Fld) (v o k : Nat) (h : o + k ≤ f.off ∨ f.off + 8 ≤ o) :
    rowNat (setF s r f v) r o k = rowNat s r o k :=
  rowNat_setRowNat_ne _ _ _ _ _ _ _ h

theorem memByte_setF_out (s : State) (r : Nat) (f : Fld) (v x : Nat) (h : x < rowDpa r + f.off ∨ rowDpa r + f.off + 8 ≤ x) :
    memByte (setF s r f v).mem x = memByte s.mem x :=
  memByte_setRowNat_out _ _ _ _ _ _ h

theorem getF_congr (s t : State) (r : Nat) (g : Fld) (h : s.mem = t.mem) : getF s r g = getF t r g := by
  unfold getF; rw [rowNat_congr s t r _ _ h]

theorem getF_lt (s : State) (r : Nat) (f : Fld) : getF s r f < 2 ^ f.len := bitsAt_lt _ _ _

/-! ### Scalar registers -/

theorem setRawS_mem (s : State) (r i : Nat) (v : Word) : (setRawS s r i v).mem = (setRowNat s r (0x100 + 8 * i) 8 v.toNat).mem := rfl

theorem rawS_setRawS (s : State) (r i : Nat) (v : Word) : rawS (setRawS s r i v) r i = v := by
  unfold rawS
  rw [rowNat_congr _ _ _ _ _ (setRawS_mem s r i v), rowNat_setRowNat]
  apply BitVec.eq_of_toNat_eq
  simpa using v.isLt

theorem rawS_setRawS_ne (s : State) (r i j : Nat) (v : Word) (h : j ≠ i) : rawS (setRawS s r i v) r j = rawS s r j := by
  unfold rawS
  rw [rowNat_congr _ _ _ _ _ (setRawS_mem s r i v), rowNat_setRowNat_ne _ _ _ _ _ _ _ (by omega)]

theorem getF_setRawS (s : State) (r i : Nat) (v : Word) (g : Fld) (h : g.off + 8 ≤ 0x100) :
    getF (setRawS s r i v) r g = getF s r g :=
  (getF_congr _ _ r g (setRawS_mem s r i v)).trans (getF_setRowNat_ne _ _ _ _ _ _ (by omega))

theorem memByte_setRawS_out (s : State) (r i : Nat) (v : Word) (x : Nat)
    (h : x < rowDpa r + (0x100 + 8 * i) ∨ rowDpa r + (0x100 + 8 * i) + 8 ≤ x) :
    memByte (setRawS s r i v).mem x = memByte s.mem x := by
  rw [setRawS_mem]; exact memByte_setRowNat_out _ _ _ _ _ _ h

/-! ### Vector and mask registers -/

theorem setV_mem (s : State) (r i v : Nat) : (setV s r i v).mem = (setRowNat s r (0x200 + 64 * i) 64 v).mem := rfl

theorem getV_setV (s : State) (r i v : Nat) : getV (setV s r i v) r i = v % 2 ^ 512 :=
  (rowNat_congr _ _ _ _ _ (setV_mem s r i v)).trans (rowNat_setRowNat _ _ _ _ _)

theorem getV_setV_ne (s : State) (r i j v : Nat) (h : j ≠ i) : getV (setV s r i v) r j = getV s r j :=
  (rowNat_congr _ _ _ _ _ (setV_mem s r i v)).trans (rowNat_setRowNat_ne _ _ _ _ _ _ _ (by omega))

theorem setK_mem (s : State) (r i v : Nat) (h : i ≠ 0) : (setK s r i v).mem = (setRowNat s r (0x600 + 8 * i) 8 v).mem := by
  unfold setK; rw [if_neg h]; rfl

theorem getK_setK (s : State) (r i v : Nat) (h : i ≠ 0) : getK (setK s r i v) r i = v % 2 ^ 64 := by
  unfold getK
  rw [if_neg h, rowNat_congr _ _ _ _ _ (setK_mem s r i v h)]
  exact rowNat_setRowNat _ _ _ _ _

theorem getK_zero (s : State) (r : Nat) : getK s r 0 = 2 ^ 64 - 1 := rfl

theorem setK_zero (s : State) (r v : Nat) : setK s r 0 v = s := rfl

end Sys2Proof.Machine
end

