-- ==== Sys2Proof/Laws/Ops.lean ====
section
/-!
SUPPORT. What each shared operation does, once: tables, register writes, flags, commits of a calm row, long instructions.
-/
namespace Sys2Proof.Machine

/-! ### Tables -/

theorem tabGet_tabDel {α : Type} (t : Tab α) (k j : Nat) : tabGet (tabDel t k) j = if j = k then none else tabGet t j := by
  induction t with
  | nil => simp [tabDel, tabGet]
  | cons e r ih =>
    obtain ⟨i, v⟩ := e
    by_cases h : i = k
    · subst h
      have : tabDel ((i, v) :: r) i = tabDel r i := by simp [tabDel]
      rw [this, ih]
      by_cases hj : j = i
      · simp [hj]
      · simp [hj, tabGet, Ne.symm hj]
    · have : tabDel ((i, v) :: r) k = (i, v) :: tabDel r k := by simp [tabDel, h]
      rw [this]
      by_cases hj : i = j
      · subst hj; simp [tabGet, h]
      · simp [tabGet, hj, ih]

theorem tabGet_tabIns {α : Type} (t : Tab α) (k j : Nat) (v : α) (h : ∀ e ∈ t, e.1 ≠ k) :
    tabGet (tabIns t k v) j = if j = k then some v else tabGet t j := by
  induction t with
  | nil =>
    by_cases hj : j = k
    · simp [tabIns, tabGet, hj]
    · simp [tabIns, tabGet, hj, Ne.symm hj]
  | cons e r ih =>
    obtain ⟨i, w⟩ := e
    have hi : i ≠ k := h (i, w) (by simp)
    unfold tabIns
    split
    · by_cases hj : j = k
      · simp [tabGet, hj]
      · simp [tabGet, hj, Ne.symm hj]
    · by_cases hj : i = j
      · subst hj; simp [tabGet, hi]
      · simp [tabGet, hj, ih fun e he => h e (by simp [he])]

theorem tabDel_free {α : Type} (t : Tab α) (k : Nat) : ∀ e ∈ tabDel t k, e.1 ≠ k := by
  intro e he
  simpa [tabDel] using (List.mem_filter.mp he).2

/-- An entry set is the entry read; the others stand. -/
theorem tabGet_tabSet {α : Type} (t : Tab α) (k j : Nat) (v : α) :
    tabGet (tabSet t k v) j = if j = k then some v else tabGet t j := by
  unfold tabSet
  rw [tabGet_tabIns _ _ _ _ (tabDel_free t k), tabGet_tabDel]
  split <;> rfl

theorem regWord_setRegWord (s : State) (a b v : Nat) :
    regWord (setRegWord s a v) b = if b = a then v % 2 ^ 64 else regWord s b := by
  unfold regWord setRegWord tabGetD
  rw [tabGet_tabSet]
  split
  · simp
  · rfl

theorem mem_setAdd (l : List Nat) (k x : Nat) : x ∈ setAdd l k ↔ x = k ∨ x ∈ l := by
  induction l with
  | nil => simp [setAdd]
  | cons i r ih =>
    unfold setAdd
    split
    · rename_i h; subst h; simp
    · split
      · simp
      · simp only [List.mem_cons, ih]; constructor
        · rintro (h | h | h) <;> simp [h]
        · rintro (h | h | h) <;> simp [h]

theorem mem_setDel (l : List Nat) (k x : Nat) : x ∈ setDel l k ↔ x ∈ l ∧ x ≠ k := by simp [setDel]

theorem mem_agendaIns (l : List Timed) (t x : Timed) : x ∈ agendaIns l t ↔ x = t ∨ x ∈ l := by
  induction l with
  | nil => simp [agendaIns]
  | cons u r ih =>
    unfold agendaIns
    split
    · simp
    · simp only [List.mem_cons, ih]; constructor
      · rintro (h | h | h) <;> simp [h]
      · rintro (h | h | h) <;> simp [h]

/-! ### States that differ in memory only -/

theorem OnlyMem.eq (s u : State) (h : OnlyMem s u) : { u with mem := s.mem, lines := s.lines } = s := h

theorem OnlyMem.clk_eq (s u : State) (h : OnlyMem s u) : u.clk = s.clk := by
  have k := congrArg State.clk (OnlyMem.eq s u h)
  exact k

theorem OnlyMem.agenda_eq (s u : State) (h : OnlyMem s u) : u.agenda = s.agenda := by
  have k := congrArg State.agenda (OnlyMem.eq s u h)
  exact k

theorem OnlyMem.regs_eq (s u : State) (h : OnlyMem s u) : u.regs = s.regs := by
  have k := congrArg State.regs (OnlyMem.eq s u h)
  exact k

theorem OnlyMem.rows_eq (s u : State) (h : OnlyMem s u) : u.rows = s.rows := by
  have k := congrArg State.rows (OnlyMem.eq s u h)
  exact k

theorem OnlyMem.ms_eq (s u : State) (h : OnlyMem s u) : u.ms = s.ms := by
  have k := congrArg State.ms (OnlyMem.eq s u h)
  exact k

theorem OnlyMem.msg_eq (s u : State) (h : OnlyMem s u) : u.msg = s.msg := by
  have k := congrArg State.msg (OnlyMem.eq s u h)
  exact k

theorem OnlyMem.eng_eq (s u : State) (h : OnlyMem s u) : u.eng = s.eng := by
  have k := congrArg State.eng (OnlyMem.eq s u h)
  exact k

theorem OnlyMem.join_eq (s u : State) (h : OnlyMem s u) : u.join = s.join := by
  have k := congrArg State.join (OnlyMem.eq s u h)
  exact k

theorem OnlyMem.iss_eq (s u : State) (h : OnlyMem s u) : u.iss = s.iss := by
  have k := congrArg State.iss (OnlyMem.eq s u h)
  exact k

theorem OnlyMem.hub_eq (s u : State) (h : OnlyMem s u) : u.hub = s.hub := by
  have k := congrArg State.hub (OnlyMem.eq s u h)
  exact k

theorem OnlyMem.trans (s m u : State) (h : OnlyMem s m) (k : OnlyMem m u) : OnlyMem s u := by
  have e := congrArg (fun x : State => { x with mem := s.mem, lines := s.lines }) (OnlyMem.eq m u k)
  exact e.trans (OnlyMem.eq s m h)

/-! ### Register writes -/

theorem onlyMem_setRowNat (s : State) (r off n v : Nat) : OnlyMem s (setRowNat s r off n v) := rfl

theorem bytesKept_setRowNat (s : State) (r off n v : Nat) : BytesKept s (setRowNat s r off n v) (rowDpa r + off) n :=
  fun _ h => memByte_setRowNat_out _ _ _ _ _ _ h

theorem endOf_updEnd (s : State) (r : Nat) (f : Endpoint → Endpoint) (h : ∀ e, (f e).row = e.row) :
    endOf (updEnd s r f) r = some (f ((endOf s r).getD ⟨r, false, [], [], [], false⟩)) := by
  have hr : ((endOf s r).getD ⟨r, false, [], [], [], false⟩).row = r := by
    cases he : endOf s r with
    | none => rfl
    | some e => simpa using List.find?_some he
  unfold endOf updEnd
  simp only
  rw [List.find?_append]
  have hn : (s.msg.ends.filter fun x => x.row != r).find? (fun e => e.row == r) = none := by
    rw [List.find?_eq_none]
    intro x hx
    have := (List.mem_filter.mp hx).2
    simpa using this
  rw [hn]
  have : ((f ((endOf s r).getD ⟨r, false, [], [], [], false⟩)).row == r) = true := by rw [h, hr]; simp
  simp only [Option.none_or, List.find?_cons]
  show (match (f ((endOf s r).getD ⟨r, false, [], [], [], false⟩)).row == r with
    | true => some (f ((endOf s r).getD ⟨r, false, [], [], [], false⟩))
    | false => none) = _
  rw [this]; rfl

theorem updEnd_frame (s : State) (r : Nat) (f : Endpoint → Endpoint) :
    { updEnd s r f with msg := s.msg } = s := rfl

/-- A scalar destination is written as R120 and R121 say. -/
theorem setS_writes (s : State) (r d : Nat) (v : Word) : WritesS s (setS s r d v) r d v := by
  unfold WritesS setS
  by_cases h0 : d = 0
  · rw [if_pos h0, if_pos (Or.inl h0)]
  · by_cases h30 : d = 30 ∧ chanOn s r = true
    · simp [h30]
    · by_cases h31 : d = 31 ∧ chanOn s r = true
      · rw [if_neg h0, if_neg h30, if_pos h31, if_neg (by simp [h0]; exact fun h => by simp_all), if_pos h31]
        have e1 := endOf_updEnd s r (fun e => { e with bound := true, out := e.out ++ [(getF s r fDown, v)] }) (fun _ => rfl)
        have hget : ((endOf s r).map Endpoint.out).getD [] = ((endOf s r).getD ⟨r, false, [], [], [], false⟩).out := by
          cases endOf s r <;> rfl
        simp only
        split
        · refine ⟨?_, rawS_setRawS _ _ _ _, rfl, bytesKept_setRowNat s r 0x1F8 8 v.toNat, rfl⟩
          show (endOf (updEnd s r fun e => { e with bound := true, out := e.out ++ [(getF s r fDown, v)] }) r).map Endpoint.out = _
          rw [e1, hget]; rfl
        · refine ⟨?_, rawS_setRawS _ _ _ _, rfl, bytesKept_setRowNat s r 0x1F8 8 v.toNat, rfl⟩
          generalize hs1 : updEnd s r (fun e => { e with bound := true, out := e.out ++ [(getF s r fDown, v)] }) = s1 at e1
          have e2 := endOf_updEnd s1 r (fun e => { e with sending := true }) (fun _ => rfl)
          show (endOf (updEnd (updEnd s r fun e => { e with bound := true, out := e.out ++ [(getF s r fDown, v)] }) r
            fun e => { e with sending := true }) r).map Endpoint.out = _
          rw [hs1, e2, e1, hget]; rfl
      · rw [if_neg h0, if_neg h30, if_neg h31, if_neg (by rintro (h | h) <;> contradiction), if_neg h31]
        exact ⟨rawS_setRawS _ _ _ _, rfl, bytesKept_setRowNat s r (0x100 + 8 * d) 8 v.toNat, rfl⟩

theorem flagsToNat_lt (x : Flags) : flagsToNat x < 32 := by
  cases x with
  | mk a b c d e => cases a <;> cases b <;> cases c <;> cases d <;> cases e <;> decide

/-- Flags are ORed in and nothing else changes. -/
theorem orFlags_raises (s : State) (r n : Nat) (hn : n < 32) : RaisesFlags s (orFlags s r n) r n := by
  unfold orFlags
  split
  · rename_i h; subst h
    exact ⟨by simp, fun _ _ _ => rfl, rfl, fun _ _ => rfl, rfl⟩
  · refine ⟨?_, ?_, rfl, bytesKept_setRowNat _ _ _ _ _, rfl⟩
    · rw [getF_setF _ _ _ _ (by decide)]
      exact Nat.mod_eq_of_lt (Nat.or_lt_two_pow (n := 5) (getF_lt s r fFlags) hn)
    · intro g hg h
      refine getF_setF_ne _ _ _ _ _ (Or.inr (Or.inr ⟨hg, ?_⟩)) ?_
      · rcases h with h | h
        · exact Or.inl h
        · exact Or.inr h.1
      · rcases h with h | h <;> omega

theorem setV_writes (s : State) (r d v : Nat) (hv : v < 2 ^ 512) : WritesV s (setV s r d v) r d v :=
  ⟨(getV_setV s r d v).trans (Nat.mod_eq_of_lt hv), rfl, bytesKept_setRowNat s r (0x200 + 64 * d) 64 v, rfl⟩

theorem setK_writes (s : State) (r d v : Nat) (hv : v < 2 ^ 64) : WritesK s (setK s r d v) r d v := by
  unfold WritesK
  split
  · rename_i h; subst h; rfl
  · rename_i h
    refine ⟨(getK_setK s r d v h).trans (Nat.mod_eq_of_lt hv), ?_, ?_, ?_⟩ <;> unfold setK <;> rw [if_neg h]
    · rfl
    · exact bytesKept_setRowNat s r (0x600 + 8 * d) 8 v
    · rfl

/-! ### Events posted -/

theorem mem_postAt (s : State) (due : Nat) (tag : MsgTag) (ev : Instr) (x : Timed) :
    x ∈ (postAt s due tag ev).agenda ↔ x = ⟨due, s.clk.ids, tag, ev⟩ ∨ x ∈ s.agenda :=
  mem_agendaIns _ _ _

/-! ### Long instructions -/

theorem getF_setCode_code (s : State) (r c w : Nat) : getF (setCode s r c w) r fCode = c % 2 ^ 4 := by
  unfold setCode
  rw [getF_setF_ne _ _ _ _ _ (by decide) (by decide), getF_setF _ _ _ _ (by decide)]; rfl

theorem getF_setCode_why (s : State) (r c w : Nat) : getF (setCode s r c w) r fWhy = w % 2 ^ 4 := by
  unfold setCode
  rw [getF_setF _ _ _ _ (by decide)]; rfl

theorem bytesKept_setCode (s : State) (r c w : Nat) : BytesKept s (setCode s r c w) (rowDpa r + 8) 8 := by
  intro x h
  unfold setCode
  rw [memByte_setF_out _ _ _ _ _ h, memByte_setF_out _ _ _ _ _ h]

end Sys2Proof.Machine
end

