-- ==== Sys2Proof/Laws/Commit.lean ====
section
/-!
SUPPORT. Commits, boundaries and long instructions: what a calm row meets, and what a long instruction leaves behind.
-/
namespace Sys2Proof.Machine

theorem codeOf_congr (s t : State) (r : Nat) (h : s.rows.kinds = t.rows.kinds) (hf : getF s r fCode = getF t r fCode) :
    codeOf s r = codeOf t r := by
  unfold codeOf isThread; rw [h, hf]

theorem chainOf_none (s : State) (r : Nat) (h : getF s r fRegion = 0) : chainOf s r = some [] := by
  unfold chainOf; rw [h]; rfl

theorem blockOf_none (s : State) (r : Nat) (h : getF s r fRegion = 0) : blockOf s r = 0 := by
  unfold blockOf; rw [h]

theorem isKilled_none (s : State) (r : Nat) (h : getF s r fRegion = 0) : isKilled s r = false := by
  unfold isKilled tstateOf
  rw [blockOf_none s r h]; simp

theorem ctxOf_none (s : State) (r : Nat) (h : getF s r fRegion = 0) : ctxOf s r = 0 := by
  unfold ctxOf; rw [blockOf_none s r h]; rfl

theorem watchdogDue_none (s : State) (r : Nat) (h : getF s r fRegion = 0) (hf : s.rows.fired.contains r = false) :
    watchdogDue s r = false := by
  unfold watchdogDue effWpers effField
  rw [chainOf_none s r h, hf]; simp

theorem effPolicy_none (s : State) (r : Nat) (h : getF s r fRegion = 0) : effPolicy s r = some 0 := by
  unfold effPolicy effField
  rw [chainOf_none s r h]; rfl

/-- A calm row passes its boundary unchanged. -/
theorem boundary_calm (s : State) (r : Nat) (h : Calm s r) : boundary s r = s := by
  obtain ⟨ho, hs, hp, hr, hc, _, _, _, hf⟩ := h
  unfold boundary
  rw [ho, hs, isKilled_none s r hr, watchdogDue_none s r hr hf, hc, hp]
  simp

theorem commitPop_none (s : State) (r : Nat) (h : s.clk.popped = none) : commitPop s r = s := by
  unfold commitPop; rw [h]

theorem partOf_congr (s t : State) (r : Nat) (h : s.regs = t.regs) : partOf s r = partOf t r := by
  unfold partOf bankOwner bankSet regBits regWord; rw [h]

theorem ctxActive_congr (s t : State) (r : Nat) (h : s.regs = t.regs) (hh : s.hub.suspended = t.hub.suspended)
    (hs : getF s r fRegion = 0) (ht : getF t r fRegion = 0) : ctxActive s r = ctxActive t r := by
  unfold ctxActive activeCtx
  rw [ctxOf_none s r hs, ctxOf_none t r ht, partOf_congr s t r h, hh]
  unfold regBits regWord; rw [h]

/-- Nothing that keeps the control words of a row and what stands outside memory disturbs its calm. -/
theorem calm_of_onlyMem (s u : State) (r : Nat) (h : Calm s r) (hm : OnlyMem s u)
    (hf : ∀ f : Fld, f ∈ [fCode, fPend, fRegion, fLoopArmed 0, fLoopArmed 1] → getF u r f = getF s r f) : Calm u r := by
  obtain ⟨ho, hs, hp, hr, hc, h0, h1, hq, hw⟩ := h
  have hregs : u.regs = s.regs := OnlyMem.regs_eq _ _ hm
  have hrows : u.rows = s.rows := OnlyMem.rows_eq _ _ hm
  have hhub : u.hub = s.hub := OnlyMem.hub_eq _ _ hm
  have hclk : u.clk = s.clk := OnlyMem.clk_eq _ _ hm
  have hr' : getF u r fRegion = 0 := (hf _ (by simp)).trans hr
  refine ⟨?_, by rw [hrows]; exact hs, (hf _ (by simp)).trans hp, hr', ?_, (hf _ (by simp)).trans h0, (hf _ (by simp)).trans h1,
    by rw [hclk]; exact hq, by rw [hrows]; exact hw⟩
  · unfold isOpen at ho ⊢
    rw [codeOf_congr u s r (by rw [hrows]) (hf _ (by simp))]; exact ho
  · rw [ctxActive_congr u s r hregs (by rw [hhub]) hr' hr]; exact hc

theorem resolvePc_unarmed (s : State) (r n : Nat) (t : Bool) (k : Option Nat) (h0 : getF s r (fLoopArmed 0) = 0)
    (h1 : getF s r (fLoopArmed 1) = 0) (ht : t = false ∨ tabGet s.rows.oldCode r = none) : resolvePc s r n t k = setF s r fPc n := by
  have hn : ∀ u : State, setF u r fPc (lowBits 40 (n : Int)) = setF u r fPc n := fun u => by
    unfold setF setBits
    rw [show lowBits 40 (n : Int) = n % 2 ^ 40 by unfold lowBits; omega]
    simp [fPc]
  unfold resolvePc loopLevel
  rcases ht with ht | ht <;> simp [h0, h1, ht, hn]

theorem getF_setPc (s : State) (r n : Nat) (f : Fld) (h : Fld.Apart fPc f) (h2 : f.lo + f.len ≤ 64) :
    getF (setF s r fPc n) r f = getF s r f := getF_setF_ne _ _ _ _ _ h h2

/-- A calm row's short instruction commits by writing PC alone, and so does a transfer when the row holds no code from before it (R48, R51,
R145). -/
theorem finishAt_calm (s : State) (r n : Nat) (t : Bool) (k : Option Nat) (h : Calm s r)
    (ht : t = false ∨ tabGet s.rows.oldCode r = none) : finishAt s r n t k = setF s r fPc n := by
  have h0 := h.2.2.2.2.2.1
  have h1 := h.2.2.2.2.2.2.1
  have hc : Calm (setF s r fPc n) r := by
    refine calm_of_onlyMem s _ r h rfl ?_
    intro f hf
    simp only [List.mem_cons, List.not_mem_nil, or_false] at hf
    rcases hf with rfl | rfl | rfl | rfl | rfl <;> exact getF_setPc _ _ _ _ (by decide) (by decide)
  unfold finishAt
  rw [resolvePc_unarmed s r n t k h0 h1 ht, commitPop_none _ _ hc.2.2.2.2.2.2.2.1, boundary_calm _ _ hc]

theorem finish_calm (s : State) (r len : Nat) (h : Calm s r) : finish s r len = setF s r fPc (getF s r fPc + len) :=
  finishAt_calm s r _ _ _ h (Or.inl rfl)

/-! ### Long instructions -/

theorem beginLong_mem (s : State) (r why len : Nat) : (beginLong s r why len).mem = (setCode s r 4 why).mem := rfl

/-- What a long instruction with a fixed time leaves behind (R89, R110). -/
theorem goLong_goes (i : Instr) (s : State) (why len d : Nat) (c : Completion) (hw : why < 16)
    (h : exec i s = .next (goLong s s.clk.cur why len d c)) : GoesLong i s why len d c := by
  refine ⟨_, h, ?_, ?_, ?_, ?_, ?_, ?_, ?_⟩
  · rw [getF_congr (goLong s s.clk.cur why len d c) (setCode s s.clk.cur 4 why) _ _ rfl, getF_setCode_why]; exact Nat.mod_eq_of_lt hw
  · exact (tabGet_tabSet _ _ _ _).trans (if_pos rfl)
  · exact (tabGet_tabSet _ _ _ _).trans (if_pos rfl)
  · exact ⟨_, (mem_postAt _ _ _ _ _).2 (Or.inl rfl), rfl, rfl⟩
  · exact (getF_congr (goLong s s.clk.cur why len d c) (setCode s s.clk.cur 4 why) _ _ rfl).trans ((getF_setCode_code _ _ _ _).trans rfl)
  · intro x hx
    exact bytesKept_setCode s s.clk.cur 4 why x hx
  · rfl

end Sys2Proof.Machine
end

