-- ==== Sys2Proof/Laws/Integer.lean ====
section
/-!
SUPPORT. Integer results: what `put` sees of a number, rotations as unions, LUT3 bit by bit; and how a register result completes an
instruction.
-/
namespace Sys2Proof.Machine

theorem signedOf_mod (n v : Nat) : signedOf n (v % 2 ^ n) = signedOf n v := by
  unfold signedOf; rw [Nat.mod_mod]

/-- `put` reads the low bits only (R124). -/
theorem putT_mod (t : IType) (v : Nat) : putT t (v % 2 ^ itypeWidth t) = putT t v := by
  unfold putT extendTo sx64
  rw [signedOf_mod, Nat.mod_mod]

theorem rotl_or (n v k : Nat) (hn : 0 < n) :
    (v % 2 ^ n) <<< (k % n) + (v % 2 ^ n) >>> (n - k % n) = (v % 2 ^ n) <<< (k % n) ||| (v % 2 ^ n) >>> (n - k % n) := by
  have hk : k % n < n := Nat.mod_lt _ hn
  have h : (v % 2 ^ n) >>> (n - k % n) < 2 ^ (k % n) := by
    rw [Nat.shiftRight_eq_div_pow, Nat.div_lt_iff_lt_mul (Nat.two_pow_pos _), ← Nat.pow_add,
      show k % n + (n - k % n) = n by omega]
    exact Nat.mod_lt _ (Nat.two_pow_pos _)
  rw [Nat.shiftLeft_eq, Nat.mul_comm, Nat.two_pow_add_eq_or_of_lt h]

theorem rotr_or (n v k : Nat) (hn : 0 < n) :
    (v % 2 ^ n) >>> (k % n) + (v % 2 ^ n) <<< (n - k % n) = (v % 2 ^ n) >>> (k % n) ||| (v % 2 ^ n) <<< (n - k % n) := by
  have hk : k % n < n := Nat.mod_lt _ hn
  have h : (v % 2 ^ n) >>> (k % n) < 2 ^ (n - k % n) := by
    rw [Nat.shiftRight_eq_div_pow, Nat.div_lt_iff_lt_mul (Nat.two_pow_pos _), ← Nat.pow_add,
      show (n - k % n) + k % n = n by omega]
    exact Nat.mod_lt _ (Nat.two_pow_pos _)
  rw [Nat.shiftLeft_eq, Nat.mul_comm, Nat.add_comm, Nat.two_pow_add_eq_or_of_lt h, Nat.or_comm]

theorem itypeWidth_pos (t : IType) : 0 < itypeWidth t := by cases t <;> decide

theorem lutBits_lt (tab x y z : Nat) : ∀ n, lutBits tab x y z n < 2 ^ n := by
  intro n
  induction n with
  | zero => simp [lutBits]
  | succ n ih =>
    unfold lutBits
    rw [Nat.pow_succ]
    cases lutBit tab (bitAt x n) (bitAt y n) (bitAt z n) <;> simp [flag01] <;> omega

/-- LUT3 bit by bit (R129). -/
theorem testBit_lutBits (tab x y z : Nat) : ∀ n i, (lutBits tab x y z n).testBit i =
    (decide (i < n) && lutBit tab (bitAt x i) (bitAt y i) (bitAt z i)) := by
  intro n
  induction n with
  | zero => intro i; simp [lutBits]
  | succ n ih =>
    intro i
    unfold lutBits
    rw [Nat.mul_comm, Nat.testBit_two_pow_mul_add _ (lutBits_lt tab x y z n)]
    by_cases h : i < n
    · rw [if_pos h, ih]; simp [h, Nat.lt_succ_of_lt h]
    · rw [if_neg h]
      by_cases h' : i = n
      · subst h'
        cases lutBit tab (bitAt x i) (bitAt y i) (bitAt z i) <;> simp [flag01]
      · have : ¬ i < n + 1 := by omega
        obtain ⟨k, hk⟩ : ∃ k, i - n = k + 1 := ⟨i - n - 1, by omega⟩
        rw [hk]
        cases lutBit tab (bitAt x n) (bitAt y n) (bitAt z n) <;> simp [flag01, this, Nat.testBit_succ]

/-! ### Completion by a register result -/

theorem gives_putReg (i : Instr) (s : State) (d : Reg) (v : Word) (len : Nat) (h : exec i s = putReg s d v len) :
    Gives i s d v len := ⟨_, h, setS_writes _ _ _ _⟩

theorem gives_eq {i : Instr} {s : State} {d : Reg} {v w : Word} {len : Nat} (h : Gives i s d v len) (e : v = w) :
    Gives i s d w len := e ▸ h

theorem givesF_putF (i : Instr) (s : State) (d : Reg) (x : Nat × Flags) (len : Nat) (h : exec i s = putF s d x len) :
    GivesF i s d x len := by
  refine ⟨setS (orFlags s s.clk.cur (flagsToNat x.2)) s.clk.cur d.toNat (BitVec.ofNat 64 x.1), ?_,
    orFlags s s.clk.cur (flagsToNat x.2), orFlags_raises _ _ _ (flagsToNat_lt x.2), setS_writes _ _ _ _⟩
  rw [h]; unfold putF putReg; rw [orFlags_clk]

end Sys2Proof.Machine
end

