-- ==== Sys2Proof/Laws/Lanes.lean ====
section
/-!
SUPPORT. Lanes: what `mapLanes` leaves in each lane and which flags it raises, and how a vector result completes an instruction.
-/
namespace Sys2Proof.Machine

/-- A lane width fills the register exactly. -/
theorem laneCount_mul (c : Nat) : fmtWidth c * laneCount (fmtWidth c) ≤ 512 := by
  unfold laneCount; rw [Nat.mul_comm]; exact Nat.div_mul_le_self _ _

theorem flagsOr_none (x : Flags) : flagsOr x flagsNone = x := by
  cases x; simp [flagsOr, flagsNone]

theorem elemAt_lt (w v j : Nat) : elemAt w v j < 2 ^ w := bitsAt_lt _ _ _

/-- Lane `j` of a masked result (R149). -/
theorem elemAt_mapLanes (w k : Nat) (z : Bool) (old : Nat) (f : Nat → Nat × Flags) (j : Nat) (hj : j < laneCount w) :
    elemAt w (mapLanes w k z old f).1 j =
      if bitAt k j then (f j).1 % 2 ^ w else if z then 0 else elemAt w old j := by
  unfold mapLanes
  rw [elemAt_packElems]
  rw [List.map_map, List.getD_eq_getElem?_getD, List.getElem?_map, List.getElem?_range hj]
  simp only [Option.map_some, Option.getD_some, Function.comp]
  split
  · rfl
  · split
    · simp
    · exact Nat.mod_eq_of_lt (elemAt_lt _ _ _)

/-- The flags of a masked result (R149). -/
theorem flags_mapLanes (w k : Nat) (z : Bool) (old : Nat) (f : Nat → Nat × Flags) :
    (mapLanes w k z old f).2 = laneFlags w k f := by
  unfold mapLanes laneFlags
  simp only [List.foldl_map]
  congr 1
  funext a j
  split
  · rfl
  · exact flagsOr_none a

theorem mapLanes_lt (w k : Nat) (z : Bool) (old : Nat) (f : Nat → Nat × Flags) (h : w * laneCount w ≤ 512) :
    (mapLanes w k z old f).1 < 2 ^ 512 := by
  unfold mapLanes
  refine Nat.lt_of_lt_of_le (packElems_lt _ _) (Nat.pow_le_pow_right (by omega) ?_)
  simpa using h

/-- A vector result written under a mask completes an instruction. -/
theorem givesV_mapLanes (i : Instr) (s : State) (d : VReg) (w k : Nat) (z : Bool) (f : Nat → Nat × Flags) (len : Nat)
    (hw : w * laneCount w ≤ 512)
    (h : exec i s = .next (finish (orFlags (setV s s.clk.cur d.toNat (mapLanes w k z (getV s s.clk.cur d.toNat) f).1) s.clk.cur
      (flagsToNat (mapLanes w k z (getV s s.clk.cur d.toNat) f).2)) s.clk.cur len)) : GivesV i s d w k z f len := by
  rw [flags_mapLanes] at h
  exact ⟨_, h, _, _, setV_writes _ _ _ _ (mapLanes_lt _ _ _ _ _ hw), fun j hj => elemAt_mapLanes _ _ _ _ _ _ hj,
    orFlags_raises _ _ _ (flagsToNat_lt _)⟩

end Sys2Proof.Machine
end

