-- ==== Sys2Proof/Tests/Slice0.lean ====
section
/-!
SUPPORT. The author's tests: the fields that no encoding has are refused, words written from the spec's encodings decode to their
instructions, single steps on small states, and for every statement with premises a state that meets them.
-/

open Sys2Proof Sys2Proof.Machine

set_option synthInstance.maxSize 4096
set_option synthInstance.maxHeartbeats 400000
set_option maxRecDepth 4096
set_option Elab.async false

namespace Sys2Proof.Tests

/-! ### Decoding (R48 to R69): words of the spec's examples, of spec/opcode_table.json, or laid out by R52 and R54 -/

/-- Each list of words decodes to the instruction beside it, and the encoder gives the words back. -/
def Reads (l : List (List Nat × Instr)) : Prop :=
  ∀ p ∈ l, decodeWords p.1 = some p.2 ∧ encodeWords p.2 = p.1

/-- Words written from the ALU majors (R59, R60): short forms, and the literal forms with LEN 2, b = 0 and the literal low word first (R57). -/
theorem test_decode_alu1 : Reads
    [([0x00520C20], .add ⟨.i8, 3, 4, 5⟩),
     ([0x02520C24], .sub ⟨.i16, 3, 4, 5⟩),
     ([0x04520C28], .mul ⟨.i32, 3, 4, 5⟩),
     ([0x80520C2C], .addSat ⟨.i64, 3, 4, 5⟩),
     ([0x82520C30], .subSat ⟨.n8, 3, 4, 5⟩),
     ([0x84520C34], .mulSat ⟨.n16, 3, 4, 5⟩),
     ([0x06520C38], .mulh ⟨.n32, 3, 4, 5⟩),
     ([0x08520C3C], .mulhn ⟨.n64, 3, 4, 5⟩),
     ([0x0A520C20], .div ⟨.i8, 3, 4, 5⟩),
     ([0x0C520C24], .divn ⟨.i16, 3, 4, 5⟩),
     ([0x0E520C28], .rem ⟨.i32, 3, 4, 5⟩),
     ([0x10520C2C], .remn ⟨.i64, 3, 4, 5⟩)] := by
  unfold Reads; decide +kernel

/-- Words written from the ALU majors (R59, R60): short forms, and the literal forms with LEN 2, b = 0 and the literal low word first (R57). -/
theorem test_decode_alu2 : Reads
    [([0x12520C30], .and ⟨.n8, 3, 4, 5⟩),
     ([0x14520C34], .andn ⟨.n16, 3, 4, 5⟩),
     ([0x16520C38], .or ⟨.n32, 3, 4, 5⟩),
     ([0x18520C3C], .xor ⟨.n64, 3, 4, 5⟩),
     ([0x1A520C20], .shl ⟨.i8, 3, 4, 5⟩),
     ([0x1C520C24], .shr ⟨.i16, 3, 4, 5⟩),
     ([0x1E520C28], .sra ⟨.i32, 3, 4, 5⟩),
     ([0x20520C2C], .rotl ⟨.i64, 3, 4, 5⟩),
     ([0x22520C30], .rotr ⟨.n8, 3, 4, 5⟩),
     ([0x24520C34], .min ⟨.n16, 3, 4, 5⟩),
     ([0x26520C38], .max ⟨.n32, 3, 4, 5⟩),
     ([0x28520C3C], .minn ⟨.n64, 3, 4, 5⟩)] := by
  unfold Reads; decide +kernel

/-- Words written from the ALU majors (R59, R60): short forms, and the literal forms with LEN 2, b = 0 and the literal low word first (R57). -/
theorem test_decode_alu3 : Reads
    [([0x2A520C20], .maxn ⟨.i8, 3, 4, 5⟩),
     ([0x2C520C24], .ceq ⟨.i16, 3, 4, 5⟩),
     ([0x2E520C28], .cne ⟨.i32, 3, 4, 5⟩),
     ([0x30520C2C], .clt ⟨.i64, 3, 4, 5⟩),
     ([0x32520C30], .cle ⟨.n8, 3, 4, 5⟩),
     ([0x34520C34], .cltn ⟨.n16, 3, 4, 5⟩),
     ([0x36520C38], .clen ⟨.n32, 3, 4, 5⟩)] := by
  unfold Reads; decide +kernel

/-- Words written from the literal forms of the ALU majors (R57): LEN 2, b = 0, the literal low word first. -/
theorem test_decode_aluLiteral1 : Reads
    [([0x00020C2E, 0x89ABCDEF, 0x01234567], .addSl ⟨.i64, 3, 4, 0x0123456789ABCDEF⟩),
     ([0x02020C32, 0x89ABCDEF, 0x01234567], .subSl ⟨.n8, 3, 4, 0x0123456789ABCDEF⟩),
     ([0x04020C36, 0x89ABCDEF, 0x01234567], .mulSl ⟨.n16, 3, 4, 0x0123456789ABCDEF⟩),
     ([0x80020C3A, 0x89ABCDEF, 0x01234567], .addSatSl ⟨.n32, 3, 4, 0x0123456789ABCDEF⟩),
     ([0x82020C3E, 0x89ABCDEF, 0x01234567], .subSatSl ⟨.n64, 3, 4, 0x0123456789ABCDEF⟩),
     ([0x84020C22, 0x89ABCDEF, 0x01234567], .mulSatSl ⟨.i8, 3, 4, 0x0123456789ABCDEF⟩),
     ([0x06020C26, 0x89ABCDEF, 0x01234567], .mulhSl ⟨.i16, 3, 4, 0x0123456789ABCDEF⟩),
     ([0x08020C2A, 0x89ABCDEF, 0x01234567], .mulhnSl ⟨.i32, 3, 4, 0x0123456789ABCDEF⟩),
     ([0x0A020C2E, 0x89ABCDEF, 0x01234567], .divSl ⟨.i64, 3, 4, 0x0123456789ABCDEF⟩),
     ([0x0C020C32, 0x89ABCDEF, 0x01234567], .divnSl ⟨.n8, 3, 4, 0x0123456789ABCDEF⟩),
     ([0x0E020C36, 0x89ABCDEF, 0x01234567], .remSl ⟨.n16, 3, 4, 0x0123456789ABCDEF⟩),
     ([0x10020C3A, 0x89ABCDEF, 0x01234567], .remnSl ⟨.n32, 3, 4, 0x0123456789ABCDEF⟩)] := by
  unfold Reads; decide +kernel

/-- Words written from the literal forms of the ALU majors (R57): LEN 2, b = 0, the literal low word first. -/
theorem test_decode_aluLiteral2 : Reads
    [([0x12020C3E, 0x89ABCDEF, 0x01234567], .andSl ⟨.n64, 3, 4, 0x0123456789ABCDEF⟩),
     ([0x14020C22, 0x89ABCDEF, 0x01234567], .andnSl ⟨.i8, 3, 4, 0x0123456789ABCDEF⟩),
     ([0x16020C26, 0x89ABCDEF, 0x01234567], .orSl ⟨.i16, 3, 4, 0x0123456789ABCDEF⟩),
     ([0x18020C2A, 0x89ABCDEF, 0x01234567], .xorSl ⟨.i32, 3, 4, 0x0123456789ABCDEF⟩),
     ([0x1A020C2E, 0x89ABCDEF, 0x01234567], .shlSl ⟨.i64, 3, 4, 0x0123456789ABCDEF⟩),
     ([0x1C020C32, 0x89ABCDEF, 0x01234567], .shrSl ⟨.n8, 3, 4, 0x0123456789ABCDEF⟩),
     ([0x1E020C36, 0x89ABCDEF, 0x01234567], .sraSl ⟨.n16, 3, 4, 0x0123456789ABCDEF⟩),
     ([0x20020C3A, 0x89ABCDEF, 0x01234567], .rotlSl ⟨.n32, 3, 4, 0x0123456789ABCDEF⟩),
     ([0x22020C3E, 0x89ABCDEF, 0x01234567], .rotrSl ⟨.n64, 3, 4, 0x0123456789ABCDEF⟩),
     ([0x24020C22, 0x89ABCDEF, 0x01234567], .minSl ⟨.i8, 3, 4, 0x0123456789ABCDEF⟩),
     ([0x26020C26, 0x89ABCDEF, 0x01234567], .maxSl ⟨.i16, 3, 4, 0x0123456789ABCDEF⟩),
     ([0x28020C2A, 0x89ABCDEF, 0x01234567], .minnSl ⟨.i32, 3, 4, 0x0123456789ABCDEF⟩)] := by
  unfold Reads; decide +kernel

/-- Words written from the literal forms of the ALU majors (R57): LEN 2, b = 0, the literal low word first. -/
theorem test_decode_aluLiteral3 : Reads
    [([0x2A020C2E, 0x89ABCDEF, 0x01234567], .maxnSl ⟨.i64, 3, 4, 0x0123456789ABCDEF⟩),
     ([0x2C020C32, 0x89ABCDEF, 0x01234567], .ceqSl ⟨.n8, 3, 4, 0x0123456789ABCDEF⟩),
     ([0x2E020C36, 0x89ABCDEF, 0x01234567], .cneSl ⟨.n16, 3, 4, 0x0123456789ABCDEF⟩),
     ([0x30020C3A, 0x89ABCDEF, 0x01234567], .cltSl ⟨.n32, 3, 4, 0x0123456789ABCDEF⟩),
     ([0x32020C3E, 0x89ABCDEF, 0x01234567], .cleSl ⟨.n64, 3, 4, 0x0123456789ABCDEF⟩),
     ([0x34020C22, 0x89ABCDEF, 0x01234567], .cltnSl ⟨.i8, 3, 4, 0x0123456789ABCDEF⟩),
     ([0x36020C26, 0x89ABCDEF, 0x01234567], .clenSl ⟨.i16, 3, 4, 0x0123456789ABCDEF⟩)] := by
  unfold Reads; decide +kernel

/-- Words written from bit counts, constants, immediates, bit fields and funnel shifts (R125 to R139). -/
theorem test_decode_bitsAndConstants1 : Reads
    [([0x38020C28], .clz ⟨.i32, 3, 4⟩),
     ([0x3A020C2C], .ctz ⟨.i64, 3, 4⟩),
     ([0x3C020C30], .popc ⟨.n8, 3, 4⟩),
     ([0x3E020C34], .brev ⟨.n16, 3, 4⟩),
     ([0xFFB00C04], .li 3 0xFFB),
     ([0x00001C06, 0x89ABCDEF, 0x01234567], .liSl 7 0x0123456789ABCDEF),
     ([0x04000C08], .la 3 64),
     ([0x00000C0A, 0x89ABCDEF, 0x01234567], .laSl 3 0x0123456789ABCDEF),
     ([0xFC0E700C], .addi ⟨28, 28, 0xFC0⟩),
     ([0x0FF20C10], .andi ⟨3, 4, 0xFF⟩),
     ([0x00720C14], .ori ⟨3, 4, 7⟩),
     ([0xFFF20C18], .xori ⟨3, 4, 0xFFF⟩)] := by
  unfold Reads; decide +kernel

/-- Words written from bit counts, constants, immediates, bit fields and funnel shifts (R125 to R139). -/
theorem test_decode_bitsAndConstants2 : Reads
    [([0x00020C0E, 0x89ABCDEF, 0x01234567], .addiSl ⟨3, 4, 0x0123456789ABCDEF⟩),
     ([0x00020C12, 0x89ABCDEF, 0x01234567], .andiSl ⟨3, 4, 0x0123456789ABCDEF⟩),
     ([0x00020C16, 0x89ABCDEF, 0x01234567], .oriSl ⟨3, 4, 0x0123456789ABCDEF⟩),
     ([0x00020C1A, 0x89ABCDEF, 0x01234567], .xoriSl ⟨3, 4, 0x0123456789ABCDEF⟩),
     ([0x00120C40], .shlImm ⟨3, 4, 1⟩),
     ([0x02120C44], .shrImm ⟨3, 4, 33⟩),
     ([0x03F20C48], .sraImm ⟨3, 4, 63⟩),
     ([0x00820C4C], .rotlImm ⟨3, 4, 8⟩),
     ([0x00820C50], .rotrImm ⟨3, 4, 8⟩),
     ([0x0C820C54], .ext ⟨3, 4, 8, 3⟩),
     ([0x0C820C58], .extn ⟨3, 4, 8, 3⟩),
     ([0x1D020C5C], .ins ⟨3, 4, 16, 7⟩)] := by
  unfold Reads; decide +kernel

/-- Words written from bit counts, constants, immediates, bit fields and funnel shifts (R125 to R139). -/
theorem test_decode_bitsAndConstants3 : Reads
    [([0x10520C60], .fshl ⟨3, 4, 5, 8⟩),
     ([0x82520C60], .fshr ⟨3, 4, 5, 1⟩),
     ([0x00520C61, 0x00000006, 0x00000000], .fshlReg ⟨3, 4, 5, 6⟩),
     ([0x80520C61, 0x00000006, 0x00000000], .fshrReg ⟨3, 4, 5, 6⟩),
     ([0x00520C65, 0x00000006, 0x000000E8], .lut3 ⟨3, 4, 5, 6, 0xE8⟩),
     ([0x00520C69, 0x00000006, 0x00000000], .sel ⟨3, 4, 5, 6⟩)] := by
  unfold Reads; decide +kernel

/-- Words written from control flow (R140 to R147). -/
theorem test_decode_control1 : Reads
    [([0x00419080], .beq ⟨3, 4, 4⟩),
     ([0x12418C84], .bne ⟨3, 4, 0x123⟩),
     ([0xFE41F888], .blt ⟨3, 4, 0xFFE⟩),
     ([0x7E41FC8C], .bge ⟨3, 4, 0x7FF⟩),
     ([0xFE62C090], .bltn ⟨5, 6, 0xFF0⟩),
     ([0x80418094], .bgen ⟨3, 4, 0x800⟩),
     ([0x00019098], .bz ⟨3, 4⟩),
     ([0xFE01F89C], .bnz ⟨3, 0xFFE⟩),
     ([0x000100A0], .j 64),
     ([0xFFFC00A4], .jal 0x3FFF00),
     ([0x000000A2, 0x00001000, 0x00000012], .jSl 0x1200001000),
     ([0x000000A6, 0x00001000, 0x00000000], .jalSl 0x1000)] := by
  unfold Reads; decide +kernel

/-- Words written from control flow (R140 to R147). -/
theorem test_decode_control2 : Reads
    [([0x000E80A8], .jr ⟨0, 29, 0⟩),
     ([0x000274A8], .jr ⟨29, 4, 0⟩),
     ([0x004200AC], .loop 0 4 4),
     ([0x000004B1, 0x20000000, 0x03E80008], .loopx ⟨1, 0, true, 1000, 8⟩),
     ([0x000280B1, 0x00000000, 0x00000008], .loopx ⟨0, 5, false, 0, 8⟩),
     ([0x000000FC], .nop)] := by
  unfold Reads; decide +kernel

/-- Words written from scalar floating point (R61, R153 to R159). -/
theorem test_decode_float1 : Reads
    [([0x00520D04], .fadd ⟨.f32, 0, 3, 4, 5⟩),
     ([0x16520D08], .fsub ⟨.f16, 3, 3, 4, 5⟩),
     ([0x24520D0C], .fmul ⟨.bf16, 2, 3, 4, 5⟩),
     ([0x32520D00], .fdiv ⟨.f64, 1, 3, 4, 5⟩),
     ([0x40020D0C], .fsqrt ⟨.bf16, 0, 3, 4⟩),
     ([0x50520D04], .fmin ⟨.f32, 3, 4, 5⟩),
     ([0x60520D00], .fmax ⟨.f64, 3, 4, 5⟩),
     ([0x72520D00], .fsgn ⟨.f64, 1, 3, 4, 5⟩),
     ([0x80520D04], .fceq ⟨.f32, 3, 4, 5⟩),
     ([0x90520D04], .fclt ⟨.f32, 3, 4, 5⟩),
     ([0xA0520D08], .fcle ⟨.f16, 3, 4, 5⟩),
     ([0xB0020D04], .fclass ⟨.f32, 3, 4⟩)] := by
  unfold Reads; decide +kernel

/-- Words written from scalar floating point (R61, R153 to R159). -/
theorem test_decode_float2 : Reads
    [([0x00520D11, 0x00001606, 0x00000000], .fma ⟨3, 4, 5, 6, 0x0B, 0⟩),
     ([0x00520D15, 0x00005806, 0x00000000], .fms ⟨3, 4, 5, 6, 0x0C, 1⟩),
     ([0x16020D19, 0x00011400, 0x00000000], .fcvt ⟨3, 4, 0x0B, 0x0A, 4⟩)] := by
  unfold Reads; decide +kernel

/-- Words written from major 0x60 (R62, R160): the X forms and the literal forms (XL: sub 2, word 2 zero). -/
theorem test_decode_lanes1 : Reads
    [([0x00310581, 0x00001640, 0x00000000], .vadd ⟨1, 2, 3, 2, false, 0x0B, 0, false, 0, 0⟩),
     ([0x04629181, 0x00020400, 0x00000000], .vmul ⟨4, 5, 6, 0, false, 2, 0, true, 0, 0⟩),
     ([0x00708581, 0x20001600, 0x00000000], .vadd ⟨1, 1, 7, 0, false, 0x0B, 0, false, 1, 0⟩),
     ([0x00310581, 0x000007A0, 0x00000000], .vadd ⟨1, 2, 3, 5, true, 3, 0, false, 0, 0⟩),
     ([0x02310581, 0x000007A0, 0x00000000], .vsub ⟨1, 2, 3, 5, true, 3, 0, false, 0, 0⟩),
     ([0x04310581, 0x000007A0, 0x00000000], .vmul ⟨1, 2, 3, 5, true, 3, 0, false, 0, 0⟩),
     ([0x06310581, 0x000007A0, 0x00000000], .vmulh ⟨1, 2, 3, 5, true, 3, 0, false, 0, 0⟩),
     ([0x08310581, 0x000007A0, 0x00000000], .vmin ⟨1, 2, 3, 5, true, 3, 0, false, 0, 0⟩),
     ([0x0A310581, 0x000007A0, 0x00000000], .vmax ⟨1, 2, 3, 5, true, 3, 0, false, 0, 0⟩),
     ([0x0C310581, 0x000007A0, 0x00000000], .vand ⟨1, 2, 3, 5, true, 3, 0, false, 0, 0⟩),
     ([0x0E310581, 0x000007A0, 0x00000000], .vor ⟨1, 2, 3, 5, true, 3, 0, false, 0, 0⟩),
     ([0x10310581, 0x000007A0, 0x00000000], .vxor ⟨1, 2, 3, 5, true, 3, 0, false, 0, 0⟩)] := by
  unfold Reads; decide +kernel

/-- Words written from major 0x60 (R62, R160): the X forms and the literal forms (XL: sub 2, word 2 zero). -/
theorem test_decode_lanes2 : Reads
    [([0x12310581, 0x000007A0, 0x00000000], .vshl ⟨1, 2, 3, 5, true, 3, 0, false, 0, 0⟩),
     ([0x14310581, 0x000007A0, 0x00000000], .vshr ⟨1, 2, 3, 5, true, 3, 0, false, 0, 0⟩),
     ([0x16310581, 0x000007A0, 0x00000000], .vsra ⟨1, 2, 3, 5, true, 3, 0, false, 0, 0⟩),
     ([0x00010583, 0x400008A0, 0x00000000, 0x89ABCDEF, 0x01234567], .vaddXl ⟨1, 2, 5, false, 4, 0, false, 0x0123456789ABCDEF⟩),
     ([0x02010583, 0x400008A0, 0x00000000, 0x89ABCDEF, 0x01234567], .vsubXl ⟨1, 2, 5, false, 4, 0, false, 0x0123456789ABCDEF⟩),
     ([0x04010583, 0x400008A0, 0x00000000, 0x89ABCDEF, 0x01234567], .vmulXl ⟨1, 2, 5, false, 4, 0, false, 0x0123456789ABCDEF⟩),
     ([0x06010583, 0x400008A0, 0x00000000, 0x89ABCDEF, 0x01234567], .vmulhXl ⟨1, 2, 5, false, 4, 0, false, 0x0123456789ABCDEF⟩),
     ([0x08010583, 0x400008A0, 0x00000000, 0x89ABCDEF, 0x01234567], .vminXl ⟨1, 2, 5, false, 4, 0, false, 0x0123456789ABCDEF⟩),
     ([0x0A010583, 0x400008A0, 0x00000000, 0x89ABCDEF, 0x01234567], .vmaxXl ⟨1, 2, 5, false, 4, 0, false, 0x0123456789ABCDEF⟩),
     ([0x0C010583, 0x400008A0, 0x00000000, 0x89ABCDEF, 0x01234567], .vandXl ⟨1, 2, 5, false, 4, 0, false, 0x0123456789ABCDEF⟩),
     ([0x0E010583, 0x400008A0, 0x00000000, 0x89ABCDEF, 0x01234567], .vorXl ⟨1, 2, 5, false, 4, 0, false, 0x0123456789ABCDEF⟩),
     ([0x10010583, 0x400008A0, 0x00000000, 0x89ABCDEF, 0x01234567], .vxorXl ⟨1, 2, 5, false, 4, 0, false, 0x0123456789ABCDEF⟩)] := by
  unfold Reads; decide +kernel

/-- Words written from major 0x60 (R62, R160): the X forms and the literal forms (XL: sub 2, word 2 zero). -/
theorem test_decode_lanes3 : Reads
    [([0x12010583, 0x400008A0, 0x00000000, 0x89ABCDEF, 0x01234567], .vshlXl ⟨1, 2, 5, false, 4, 0, false, 0x0123456789ABCDEF⟩),
     ([0x14010583, 0x400008A0, 0x00000000, 0x89ABCDEF, 0x01234567], .vshrXl ⟨1, 2, 5, false, 4, 0, false, 0x0123456789ABCDEF⟩),
     ([0x16010583, 0x400008A0, 0x00000000, 0x89ABCDEF, 0x01234567], .vsraXl ⟨1, 2, 5, false, 4, 0, false, 0x0123456789ABCDEF⟩),
     ([0x0C010581, 0x40000600, 0xFFFFFFFF], .vand ⟨1, 2, 0, 0, false, 3, 0, false, 2, 0xFFFFFFFF⟩)] := by
  unfold Reads; decide +kernel

/-- Words written from the other vector and mask instructions (R162 to R176). -/
theorem test_decode_vectors1 : Reads
    [([0x00208185, 0x00001603, 0x00000000], .vfma ⟨0, 1, 2, 3, 0, false, 0x0B, 0, 0⟩),
     ([0x00310589, 0x00000004, 0x00000096], .vlut3 ⟨1, 2, 3, 4, 0, false, 0x96⟩),
     ([0x0031058D, 0x40001600, 0x00000000], .vcmp ⟨1, 2, 3, 0, false, 0x0B, 2⟩),
     ([0x00310591, 0x00001680, 0x00000000], .vsel ⟨1, 2, 3, 4, 0x0B⟩),
     ([0x00049595, 0x00001600, 0x00000000], .vbc ⟨5, 9, 0, false, 0x0B, 0, 0⟩),
     ([0x00011595, 0x20000720, 0x0000000F], .vbc ⟨5, 2, 1, true, 3, 1, 15⟩),
     ([0x00410D99, 0x00000600, 0x00000000], .vxt ⟨3, 2, 4, 3⟩),
     ([0x0041899D, 0x00000600, 0x00000000], .vin ⟨2, 3, 4, 3⟩),
     ([0x003105A1, 0x00000604, 0x00000000], .vperm ⟨1, 2, 3, 4, 0, false, 3⟩),
     ([0x00010DA5, 0x00001600, 0x00000000], .vred ⟨3, 2, 0, 0x0B, 0, 0⟩),
     ([0x000105A9, 0x00000600, 0x00000000], .vscan ⟨1, 2, 0, false, 3, 0, 0⟩),
     ([0x160105AD, 0x20001400, 0x00000000], .vcvt ⟨1, 2, 0x0B, 0, false, 0x0A, 0, false, 1⟩)] := by
  unfold Reads; decide +kernel

/-- Words written from the other vector and mask instructions (R162 to R176). -/
theorem test_decode_vectors2 : Reads
    [([0x1A2081B1, 0x00001600, 0x00000000], .vdot ⟨0, 1, 2, 0x0D, 0, false, 0x0B, 0, false⟩),
     ([0x003105C0], .kand 1 2 3),
     ([0x023105C0], .kor 1 2 3),
     ([0x043105C0], .kxor 1 2 3),
     ([0x060105C0], .knot 1 2),
     ([0x080105C0], .kmov 1 2),
     ([0x00010DC4], .kpop 3 2),
     ([0x00410DC8], .kfind 3 2 4)] := by
  unfold Reads; decide +kernel

/-- Words written from loads, stores and translation (R198 to R206). -/
theorem test_decode_memory1 : Reads
    [([0x01020E0C], .ld ⟨.i64, 3, 4, 16⟩),
     ([0x0A020E31, 0x00080000, 0x00000002], .ldX ⟨.n16, 3, ⟨2, false, 4, 2⟩⟩),
     ([0x06000E31, 0x00200000, 0x00000108], .ldX ⟨.i64, 3, ⟨0, true, 0, 0x108⟩⟩),
     ([0x00522228], .st ⟨2, 4, 5, 8⟩),
     ([0x06520235, 0x000C0000, 0xFFFFFFF8], .stX ⟨3, 5, ⟨3, false, 4, 0xFFFFFFF8⟩⟩),
     ([0x00020641, 0x20081600, 0x00000000], .vld ⟨1, 0, false, 0x0B, true, ⟨2, false, 4, 0⟩⟩),
     ([0x00120245, 0x00081600, 0x00000040], .vst ⟨1, 0, 0x0B, ⟨2, false, 4, 0x40⟩⟩),
     ([0x00520649, 0x00080600, 0x00000000], .vlds ⟨1, 5, 0, false, 3, false, ⟨2, false, 4, 0⟩⟩),
     ([0x0052024D, 0x00080603, 0x00000000], .vsts ⟨5, 3, 0, 3, ⟨2, false, 4, 0⟩⟩),
     ([0x00220651, 0x40081600, 0x00000000], .vgat ⟨1, 2, 2, 0, false, 0x0B, ⟨2, false, 4, 0⟩⟩),
     ([0x00220255, 0x40081603, 0x00000000], .vsct ⟨2, 3, 2, 0, 0x0B, ⟨2, false, 4, 0⟩⟩),
     ([0x00020259, 0x000C0000, 0x00001000], .pref ⟨3, false, 4, 0x1000⟩)] := by
  unfold Reads; decide +kernel

/-- Words written from loads, stores and translation (R198 to R206). -/
theorem test_decode_memory2 : Reads
    [([0x00020E5D, 0x000C0000, 0x00000000], .fmtq 3 ⟨3, false, 4, 0⟩),
     ([0x00520261, 0x00000000, 0x00000000], .tlbinv 4 5 0),
     ([0x00521A65, 0x000C0000, 0x00000000], .migrate 6 5 ⟨3, false, 4, 0⟩),
     ([0x00501A65, 0x20000000, 0x00000000], .migrateRelease 6 5)] := by
  unfold Reads; decide +kernel

/-- Words written from ordering and atomics (R224 to R232). -/
theorem test_decode_ordering1 : Reads
    [([0x00030E80], .phase 3 6),
     ([0x00020E84], .tick 3 4),
     ([0x00430E88], .waitlb 3 6 4),
     ([0x0003028C], .fence 6),
     ([0x00030291, 0x00000000, 0x00000201], .fencex 6 0x201),
     ([0x06520295, 0x00040006, 0x00000000], .stDry ⟨3, 5, 6, ⟨1, false, 4, 0⟩⟩),
     ([0x00520E99, 0x00040800, 0x00000000], .watch ⟨3, 5, 4, ⟨1, false, 4, 0⟩⟩),
     ([0x00520EA1, 0x00040800, 0x00000000], .aadd ⟨3, 5, 4, 0, ⟨1, false, 4, 0⟩⟩),
     ([0x025202A1, 0x00080E00, 0x00000008], .amin ⟨0, 5, 7, 0, ⟨2, false, 4, 8⟩⟩),
     ([0x0C520EA1, 0x00040800, 0x00000000], .axchg ⟨3, 5, 4, 0, ⟨1, false, 4, 0⟩⟩),
     ([0x00520EA5, 0x00040806, 0x00000000], .acas ⟨3, 5, 6, 4, ⟨1, false, 4, 0⟩⟩),
     ([0x04520EA1, 0x00200600, 0x00000100], .amax ⟨3, 5, 3, 0, ⟨0, true, 4, 0x100⟩⟩)] := by
  unfold Reads; decide +kernel

/-- Words written from ordering and atomics (R224 to R232). -/
theorem test_decode_ordering2 : Reads
    [([0x06520EA1, 0x00200600, 0x00000100], .aand ⟨3, 5, 3, 0, ⟨0, true, 4, 0x100⟩⟩),
     ([0x08520EA1, 0x00200600, 0x00000100], .aor ⟨3, 5, 3, 0, ⟨0, true, 4, 0x100⟩⟩),
     ([0x0A520EA1, 0x00200600, 0x00000100], .axor ⟨3, 5, 3, 0, ⟨0, true, 4, 0x100⟩⟩),
     ([0x00520EA3, 0x00180800, 0x00000000, 0x89ABCDEF, 0x01234567], .aaddXl ⟨3, 5, 4, 0, ⟨6, false, 4, 0x0123456789ABCDEF⟩⟩),
     ([0x02520EA3, 0x00180800, 0x00000000, 0x89ABCDEF, 0x01234567], .aminXl ⟨3, 5, 4, 0, ⟨6, false, 4, 0x0123456789ABCDEF⟩⟩),
     ([0x04520EA3, 0x00180800, 0x00000000, 0x89ABCDEF, 0x01234567], .amaxXl ⟨3, 5, 4, 0, ⟨6, false, 4, 0x0123456789ABCDEF⟩⟩),
     ([0x06520EA3, 0x00180800, 0x00000000, 0x89ABCDEF, 0x01234567], .aandXl ⟨3, 5, 4, 0, ⟨6, false, 4, 0x0123456789ABCDEF⟩⟩),
     ([0x08520EA3, 0x00180800, 0x00000000, 0x89ABCDEF, 0x01234567], .aorXl ⟨3, 5, 4, 0, ⟨6, false, 4, 0x0123456789ABCDEF⟩⟩),
     ([0x0A520EA3, 0x00180800, 0x00000000, 0x89ABCDEF, 0x01234567], .axorXl ⟨3, 5, 4, 0, ⟨6, false, 4, 0x0123456789ABCDEF⟩⟩),
     ([0x0C520EA3, 0x00180800, 0x00000000, 0x89ABCDEF, 0x01234567], .axchgXl ⟨3, 5, 4, 0, ⟨6, false, 4, 0x0123456789ABCDEF⟩⟩),
     ([0x00520EA7, 0x001C0806, 0x00000000, 0x89ABCDEF, 0x01234567], .acasXl ⟨3, 5, 6, 4, ⟨7, false, 4, 0x0123456789ABCDEF⟩⟩)] := by
  unfold Reads; decide +kernel

/-- Words written from rows, issue state and system (R97 to R118, R354 to R357, R401). -/
theorem test_decode_rows1 : Reads
    [([0x00521AD4], .ctl 6 4 5),
     ([0x000202CC], .wake 0 4),
     ([0x00021AE0], .arm 6 4 0),
     ([0x00021AE4], .disarm 6 4),
     ([0x02000ED8], .self 3 1),
     ([0x00520EDD, 0x00000000, 0x00000100], .peek 3 4 5 0x100),
     ([0x00520EC1, 0x00000008, 0x00000000], .spawn 3 4 5 8 0),
     ([0x000002C4], .quit),
     ([0x000002C8], .park),
     ([0x000002D0], .yield),
     ([0x005206E9, 0x20081600, 0x00000000], .sweep ⟨1, 4, 5, 0, 0, false, 0x0B, 0, 2, 1, 0⟩),
     ([0x00021AEC], .slotw 6 4)] := by
  unfold Reads; decide +kernel

/-- Words written from rows, issue state and system (R97 to R118, R354 to R357, R401). -/
theorem test_decode_rows2 : Reads
    [([0x0C000EF0], .slotr 3 0 6),
     ([0x000216F4], .budget 5 4),
     ([0x00020EF8], .prio 3 4),
     ([0x02000EF8], .prioRead 3),
     ([0x000202FC], .trap 4),
     ([0x020002FC], .beat),
     ([0x04000EFC], .gtime 3),
     ([0x06520EFC], .switch 3 4 5)] := by
  unfold Reads; decide +kernel

/-- Words written from notes, racks, copies and pots (R240 to R273). -/
theorem test_decode_messages1 : Reads
    [([0x00520F01, 0x00000000, 0x00000000], .note ⟨3, 4, 5, 0, 0⟩),
     ([0x00520301, 0x60000000, 0x00000007], .note ⟨0, 4, 5, 3, 7⟩),
     ([0x00520F03, 0x20000000, 0x00000000, 0x89ABCDEF, 0x01234567], .noteXl ⟨3, 4, 5, 1, 0x0123456789ABCDEF⟩),
     ([0x00001304], .recv 4),
     ([0x00001308], .recvq 4),
     ([0x00400F0D, 0x00000000, 0x00000000], .kpush ⟨3, 0, 4, 0, 0⟩),
     ([0x00830F0D, 0x20000000, 0x00000064], .kpush ⟨3, 6, 8, 1, 100⟩),
     ([0x00830F0F, 0x60000000, 0x00000000, 0x89ABCDEF, 0x01234567], .kpushXl ⟨3, 6, 8, 3, 0x0123456789ABCDEF⟩),
     ([0x00001310], .take 4 0),
     ([0x00828F14], .jdec 3 5 8),
     ([0x00000F18], .done 3),
     ([0x00020F1C], .balset 3 4)] := by
  unfold Reads; decide +kernel

/-- Words written from notes, racks, copies and pots (R240 to R273). -/
theorem test_decode_messages2 : Reads
    [([0x00020F41, 0x40000000, 0x00000000], .cpy 3 4 2),
     ([0x00020F44], .cpyw 3 4),
     ([0x00020F48], .cpyq 3 4),
     ([0x00520F4D, 0x00000000, 0x00010004], .potset 3 4 5 0x10004),
     ([0x00020F4D, 0x20000000, 0x00000000], .potsetClear 3 4),
     ([0x00120F50], .potput 3 4 1),
     ([0x00020F54], .potget 3 4),
     ([0x00020358], .potrel 0 4)] := by
  unfold Reads; decide +kernel

/-- Words written from the matrix unit, the reduction cells, the rule engine and the join engine (R289 to R298, R310 to R312, R330 to R333). -/
theorem test_decode_engines1 : Reads
    [([0x00020F60], .mown 3 4),
     ([0x00000364], .mrel),
     ([0x00020F69, 0x00000000, 0x00000000], .mcfg 3 4),
     ([0x00000F69, 0x20000000, 0x00000000], .mcfgRead 3),
     ([0x0002036C], .mzero 4),
     ([0x00620371, 0x00000000, 0x00000002], .mma ⟨4, 6, 0, 0, 0, 2⟩),
     ([0x04020371, 0x40001400, 0x00000001], .mma ⟨4, 0, 2, 0x0A, 2, 1⟩),
     ([0x00520375, 0x00080000, 0x00000000], .mst ⟨5, false, ⟨2, false, 4, 0⟩⟩),
     ([0x00500375, 0x00200000, 0x00000200], .mst ⟨5, false, ⟨0, true, 0, 0x200⟩⟩),
     ([0x00520379, 0x00081600, 0x00000000], .mld ⟨5, 0x0B, ⟨2, false, 4, 0⟩⟩),
     ([0x0052037D, 0x00000006, 0x00000000], .bsum 0 4 5 6),
     ([0x00040F7D, 0x20000009, 0x00000000], .bsumAcc 3 8 9)] := by
  unfold Reads; decide +kernel

/-- Words written from the matrix unit, the reduction cells, the rule engine and the join engine (R289 to R298, R310 to R312, R330 to R333). -/
theorem test_decode_engines2 : Reads
    [([0x0202237D, 0x00000000, 0x00000000], .bredRead 8 4),
     ([0x0202237D, 0x20000000, 0x00000000], .bredClear 8 4),
     ([0x0202237D, 0x40000000, 0x00000000], .bredClaim 8 4),
     ([0x0202237D, 0x60000000, 0x00000000], .bredRelease 8 4),
     ([0x00520F81, 0x00080000, 0x00000000], .gtbl 3 4 ⟨2, false, 5, 0⟩),
     ([0x00520F85, 0x00000000, 0x00000000], .gen 3 4 5 0 0),
     ([0x00020F85, 0x20000000, 0x00000008], .gen 3 4 0 1 8),
     ([0x00020F89, 0x00000000, 0x00000000], .ghalo 3 4),
     ([0x12520F91, 0x07000006, 0x00000000], .jopen ⟨9, 3, 4, 5, 6, 7, 0, 0⟩),
     ([0x12520395, 0x00000006, 0x00000000], .jrwd ⟨9, 0, 4, 5, 6, 0, 0, 0⟩),
     ([0x12520F99, 0x40000000, 0x00000000], .jclose ⟨9, 3, 4, 5, 2, 0⟩),
     ([0x12500F93, 0x27000006, 0x00000000, 0x89ABCDEF, 0x01234567], .jopenXl ⟨9, 3, 5, 6, 7, 0x0123456789ABCDEF⟩)] := by
  unfold Reads; decide +kernel

/-- Words written from the matrix unit, the reduction cells, the rule engine and the join engine (R289 to R298, R310 to R312, R330 to R333). -/
theorem test_decode_engines3 : Reads
    [([0x12500F97, 0x27000006, 0x00000000, 0x89ABCDEF, 0x01234567], .jrwdXl ⟨9, 3, 5, 6, 7, 0x0123456789ABCDEF⟩),
     ([0x12500F9B, 0x60000000, 0x00000000, 0x89ABCDEF, 0x01234567], .jcloseXl ⟨9, 3, 5, true, 0x0123456789ABCDEF⟩),
     ([0x00520F9D, 0x00000000, 0x00000000], .jcfgSet 3 4 5),
     ([0x00520F9D, 0x20000000, 0x00000000], .jcfgClear 3 4 5),
     ([0x00520F9D, 0x40000000, 0x00000000], .jcfgPurge 3 4 5),
     ([0x02520F9D, 0x00000000, 0x00000000], .jver 3 4 5),
     ([0x04020F9D, 0x00000000, 0x00000004], .jstat 3 4 4)] := by
  unfold Reads; decide +kernel
/-! ### Reserved words (R56, R58, R63): no instruction -/

/-- Each list of words decodes to nothing. -/
def Refused (l : List (List Nat)) : Prop := ∀ ws ∈ l, decodeWords ws = none

/-- The all-zero word, an unassigned major, major 0xE8, SLOTW in the X form (the spec's example under R65), and LD's extended major in the
short form. -/
theorem test_refused_majors : Refused [[0x00000000], [0x0000001C], [0x000003A0], [0x000002ED, 0, 0], [0x06000E30]] := by
  unfold Refused; decide +kernel

/-- ALU function 0x20, NOP with a register field set, CLZ with b set, FADD with mode 4, LI with a set. -/
theorem test_refused_fields : Refused [[0x40520C28], [0x00000CFC], [0x38520C28], [0x08520D04], [0xFFB20C04]] := by
  unfold Refused; decide +kernel

/-- A vector register above v15, a mask register above k7, reserved bits [23:22] of word 1, an unused field c, word 2 set where the entry
gives it no use, and a literal carrier whose word 2 is set. -/
theorem test_refused_operands : Refused
    [[0x00314581, 0x00001640, 0], [0x003125C0], [0x00310581, 0x00401640, 0], [0x00310581, 0x00001641, 0],
     [0x00310581, 0x00001640, 1], [0x00010583, 0x40001600, 1, 5, 0]] := by
  unfold Refused; decide +kernel

/-! ### Well-formed and ill-formed terms: each check of WellFormed.lean refuses something -/

/-- The first list is well formed, the second is not, term by term. -/
def Splits (good bad : List Instr) : Prop := (∀ i ∈ good, wellFormed i = true) ∧ (∀ i ∈ bad, wellFormed i = false)

/-- Bit fields, literal jumps, loops (R53, R57, R144). -/
theorem test_wellFormed_scalar : Splits
    [.ext ⟨3, 4, 60, 3⟩, .jSl 0x1000, .jalSl 0x1000, .loop 1 4 1, .loopx ⟨1, 0, true, 9, 3⟩, .loopx ⟨0, 5, false, 0, 4098⟩]
    [.ext ⟨3, 4, 60, 4⟩, .extn ⟨3, 4, 63, 1⟩, .ins ⟨3, 4, 1, 63⟩, .jSl 0x1002, .jSl 0x10000000000, .jalSl 3, .loop 2 4 1, .loop 0 4 0,
     .loopx ⟨2, 5, false, 0, 3⟩, .loopx ⟨0, 5, false, 0, 2⟩, .loopx ⟨0, 5, false, 0, 4099⟩, .loopx ⟨0, 5, true, 9, 3⟩,
     .loopx ⟨0, 5, false, 9, 3⟩] := by unfold Splits; decide

/-- Modes and formats of the scalar floating point (R30, R31, R61, R159). -/
theorem test_wellFormed_float : Splits
    [.fadd ⟨.f32, 3, 3, 4, 5⟩, .fsgn ⟨.f32, 2, 3, 4, 5⟩, .fma ⟨3, 4, 5, 6, 9, 3⟩, .fcvt ⟨3, 4, 0x0B, 0x0A, 4⟩, .fcvt ⟨3, 4, 1, 0x0B, 0⟩]
    [.fadd ⟨.f32, 4, 3, 4, 5⟩, .fsub ⟨.f32, 4, 3, 4, 5⟩, .fmul ⟨.f32, 5, 3, 4, 5⟩, .fdiv ⟨.f32, 7, 3, 4, 5⟩, .fsqrt ⟨.f32, 4, 3, 4⟩,
     .fsgn ⟨.f32, 3, 3, 4, 5⟩, .fma ⟨3, 4, 5, 6, 3, 0⟩, .fms ⟨3, 4, 5, 6, 9, 4⟩, .fcvt ⟨3, 4, 0x0A, 0x0B, 4⟩, .fcvt ⟨3, 4, 9, 9, 0⟩,
     .fcvt ⟨3, 4, 1, 2, 0⟩, .fcvt ⟨3, 4, 0, 9, 0⟩, .fcvt ⟨3, 4, 9, 16, 0⟩] := by unfold Splits; decide

/-- Types, modes, saturation and operand B of major 0x60 (R160). -/
theorem test_wellFormed_lanes : Splits
    [.vadd ⟨1, 2, 3, 0, false, 3, 0, true, 0, 0⟩, .vmulh ⟨1, 2, 3, 0, false, 3, 0, false, 1, 0⟩, .vmin ⟨1, 2, 0, 0, false, 9, 0, false, 2, 5⟩]
    [.vadd ⟨1, 2, 3, 0, false, 9, 0, true, 0, 0⟩, .vadd ⟨1, 2, 3, 0, false, 3, 1, false, 0, 0⟩, .vsub ⟨1, 2, 3, 0, false, 13, 0, false, 0, 0⟩,
     .vmul ⟨1, 2, 16, 0, false, 3, 0, false, 0, 0⟩, .vmul ⟨1, 2, 3, 0, false, 3, 0, false, 0, 7⟩, .vadd ⟨1, 2, 3, 0, false, 3, 0, false, 1, 7⟩,
     .vadd ⟨1, 2, 3, 0, false, 3, 0, false, 2, 7⟩, .vadd ⟨1, 2, 3, 0, false, 3, 0, false, 3, 0⟩, .vmulh ⟨1, 2, 3, 0, false, 9, 0, false, 0, 0⟩,
     .vand ⟨1, 2, 3, 0, false, 3, 0, true, 0, 0⟩, .vsra ⟨1, 2, 3, 0, false, 3, 2, false, 0, 0⟩, .vmin ⟨1, 2, 3, 0, false, 9, 1, false, 0, 0⟩,
     .vmax ⟨1, 2, 3, 0, false, 0, 0, false, 0, 0⟩, .vxorXl ⟨1, 2, 0, false, 3, 0, true, 9⟩] := by unfold Splits; decide

/-- The other vector instructions (R162 to R174). -/
theorem test_wellFormed_vectors : Splits
    [.vfma ⟨0, 1, 2, 3, 0, false, 9, 0, 3⟩, .vcmp ⟨1, 2, 3, 0, false, 3, 5⟩, .vbc ⟨5, 15, 0, false, 3, 1, 15⟩, .vred ⟨3, 2, 0, 9, 0, 2⟩,
     .vcvt ⟨1, 2, 1, 0, false, 4, 0, true, 7⟩, .vdot ⟨0, 1, 2, 5, 0, false, 3, 0, true⟩, .vdot ⟨0, 1, 2, 0x10, 0, false, 0x0B, 3, false⟩]
    [.vfma ⟨0, 1, 2, 3, 0, false, 9, 0, 4⟩, .vfma ⟨0, 1, 2, 3, 0, false, 3, 0, 0⟩, .vcmp ⟨1, 2, 3, 0, false, 9, 5⟩, .vcmp ⟨1, 2, 3, 0, false, 3, 6⟩,
     .vsel ⟨1, 2, 3, 4, 0⟩, .vbc ⟨5, 9, 0, false, 3, 0, 1⟩, .vbc ⟨5, 16, 0, false, 3, 1, 0⟩, .vbc ⟨5, 2, 0, false, 3, 1, 16⟩,
     .vbc ⟨5, 2, 0, false, 3, 2, 0⟩, .vxt ⟨3, 2, 4, 13⟩, .vin ⟨2, 3, 4, 0⟩, .vperm ⟨1, 2, 3, 4, 0, false, 31⟩,
     .vred ⟨3, 2, 0, 9, 0, 3⟩, .vred ⟨3, 2, 0, 9, 1, 1⟩, .vscan ⟨1, 2, 0, false, 3, 1, 0⟩, .vscan ⟨1, 2, 0, false, 3, 0, 6⟩,
     .vcvt ⟨1, 2, 3, 0, false, 3, 0, false, 0⟩, .vcvt ⟨1, 2, 3, 0, false, 9, 0, true, 0⟩, .vcvt ⟨1, 2, 2, 0, false, 4, 0, false, 4⟩,
     .vcvt ⟨1, 2, 9, 0, false, 0x0B, 4, false, 0⟩, .vdot ⟨0, 1, 2, 9, 0, false, 0x0B, 0, true⟩, .vdot ⟨0, 1, 2, 1, 0, false, 4, 0, false⟩,
     .vdot ⟨0, 1, 2, 3, 0, false, 3, 0, false⟩] := by unfold Splits; decide

/-- Memory operands, gathers, atomics, translation (R54, R202, R205, R228 to R232). -/
theorem test_wellFormed_memory : Splits
    [.ldX ⟨.i64, 3, ⟨0, true, 0, 0x108⟩⟩, .vgat ⟨1, 2, 3, 0, false, 3, ⟨2, false, 4, 0⟩⟩, .tlbinv 4 5 0, .tlbinv 4 0 3, .fencex 6 0x0101,
     .aadd ⟨3, 5, 0x0B, 3, ⟨1, false, 4, 0⟩⟩, .watch ⟨3, 5, 8, ⟨1, false, 4, 0⟩⟩, .aaddXl ⟨3, 5, 3, 0, ⟨0, true, 4, 8⟩⟩]
    [.ldX ⟨.i64, 3, ⟨1, true, 0, 0x108⟩⟩, .stX ⟨3, 5, ⟨2, true, 4, 0⟩⟩, .vld ⟨1, 0, false, 13, false, ⟨2, false, 4, 0⟩⟩,
     .vst ⟨1, 0, 0, ⟨2, false, 4, 0⟩⟩, .vlds ⟨1, 5, 0, false, 0, false, ⟨2, false, 4, 0⟩⟩, .vsts ⟨5, 3, 0, 3, ⟨2, true, 4, 0⟩⟩,
     .vgat ⟨1, 2, 4, 0, false, 3, ⟨2, false, 4, 0⟩⟩, .vgat ⟨1, 2, 2, 0, false, 1, ⟨2, false, 4, 0⟩⟩, .vsct ⟨2, 3, 2, 0, 9, ⟨2, false, 4, 0⟩⟩,
     .pref ⟨3, true, 4, 0⟩, .fmtq 3 ⟨3, true, 4, 0⟩, .tlbinv 4 5 1, .tlbinv 0 5 2, .tlbinv 4 5 3, .tlbinv 0 0 4, .migrate 6 5 ⟨3, true, 4, 0⟩,
     .fencex 6 0x0100, .fencex 6 0x0001, .fencex 6 0x0181, .fencex 6 0x8101, .stDry ⟨3, 5, 6, ⟨1, true, 4, 0⟩⟩,
     .watch ⟨3, 5, 2, ⟨1, false, 4, 0⟩⟩, .aadd ⟨3, 5, 1, 0, ⟨1, false, 4, 0⟩⟩, .aadd ⟨3, 5, 3, 1, ⟨1, false, 4, 0⟩⟩,
     .amin ⟨3, 5, 0x0B, 1, ⟨1, false, 4, 0⟩⟩, .aand ⟨3, 5, 0x0B, 0, ⟨1, false, 4, 0⟩⟩, .aaddXl ⟨3, 5, 3, 0, ⟨1, true, 4, 8⟩⟩,
     .acas ⟨3, 5, 6, 2, ⟨1, false, 4, 0⟩⟩, .acasXl ⟨3, 5, 6, 4, ⟨1, true, 4, 8⟩⟩] := by unfold Splits; decide

/-- Rows, notes, racks, pots (R103, R118, R240, R241, R250, R252, R267, R401). -/
theorem test_wellFormed_rows : Splits
    [.self 3 3, .peek 3 4 5 0xF00, .spawn 3 4 5 28 1, .slotr 3 4 0, .slotr 3 0 9, .sweep ⟨1, 4, 5, 2, 0, false, 3, 0, 2, 4, 0⟩,
     .note ⟨3, 4, 29, 0, 0⟩, .note ⟨3, 4, 30, 1, 7⟩, .noteXl ⟨3, 4, 30, 3, 7⟩, .recv 26, .kpush ⟨3, 0, 28, 1, 7⟩, .potset 3 4 5 0x10400]
    [.self 3 4, .peek 3 4 5 0xF04, .peek 3 4 5 0xF08, .spawn 3 4 5 29 0, .spawn 3 4 5 8 2, .slotr 3 4 1, .slotr 3 0 10,
     .sweep ⟨1, 4, 5, 2, 0, false, 3, 0, 2, 0, 0⟩, .sweep ⟨1, 4, 5, 0, 0, false, 9, 0, 2, 1, 0⟩, .sweep ⟨1, 4, 5, 0, 0, false, 3, 0, 2, 6, 0⟩,
     .sweep ⟨1, 4, 5, 0, 0, false, 3, 4, 2, 0, 0⟩, .note ⟨3, 4, 30, 0, 0⟩, .note ⟨3, 4, 5, 0, 7⟩, .note ⟨3, 4, 5, 4, 0⟩, .noteXl ⟨3, 4, 5, 2, 7⟩,
     .recv 0, .recv 27, .recvq 0, .take 27 4, .kpush ⟨3, 0, 29, 0, 0⟩, .kpush ⟨3, 0, 4, 0, 7⟩, .kpushXl ⟨3, 0, 4, 0, 7⟩, .jdec 3 5 29,
     .potset 3 4 5 0x10000, .potset 3 4 5 0x10401, .potset 3 4 5 0x1000001] := by unfold Splits; decide

/-- The engines (R293, R296, R297, R311, R330 to R333). -/
theorem test_wellFormed_engines : Splits
    [.mma ⟨4, 30, 0, 0, 0, 2⟩, .mma ⟨0, 6, 3, 9, 1, 1⟩, .mma ⟨4, 0, 2, 0x16, 2, 1⟩, .mld ⟨5, 0, ⟨2, false, 4, 0⟩⟩, .bredRead 30 4, .gen 3 4 5 0 0,
     .gen 3 4 0 1 8, .jopen ⟨9, 3, 0, 5, 6, 7, 1, 99⟩, .jclose ⟨9, 3, 0, 5, 3, 99⟩, .jstat 3 4 13]
    [.mma ⟨4, 31, 0, 0, 0, 2⟩, .mma ⟨4, 6, 1, 0, 0, 2⟩, .mma ⟨4, 6, 0, 9, 0, 2⟩, .mma ⟨4, 6, 3, 9, 1, 1⟩, .mma ⟨0, 6, 3, 9, 1, 2⟩,
     .mma ⟨0, 6, 3, 3, 1, 1⟩, .mma ⟨4, 6, 0, 9, 2, 1⟩, .mma ⟨0, 0, 0, 9, 3, 1⟩, .mst ⟨5, false, ⟨2, true, 4, 0⟩⟩, .mld ⟨5, 4, ⟨2, false, 4, 0⟩⟩,
     .mld ⟨5, 3, ⟨2, true, 4, 0⟩⟩, .bredRead 0 4, .bredClear 31 4, .bredClaim 0 4, .bredRelease 31 4, .gtbl 3 4 ⟨2, true, 5, 0⟩, .gen 3 4 5 0 8,
     .gen 3 4 5 1 8, .gen 3 4 0 2 0, .jopen ⟨9, 3, 4, 5, 6, 7, 0, 99⟩, .jopen ⟨9, 3, 4, 5, 6, 7, 1, 99⟩, .jrwd ⟨9, 3, 4, 5, 6, 7, 2, 0⟩,
     .jclose ⟨9, 3, 4, 5, 0, 99⟩, .jclose ⟨9, 3, 4, 5, 1, 99⟩, .jclose ⟨9, 3, 4, 5, 4, 0⟩, .jstat 3 4 14] := by unfold Splits; decide

/-- An event is no instruction. -/
theorem test_events_are_not_wellFormed : Splits [.nop] [.illegalInstruction, .rowOpen 0 0, .reset, .commandLands 0] := by
  unfold Splits; decide

/-! ### States for the witnesses -/

/-- Row 1 of partition 0 RUNNING in slot 0 of executor 0, with 8-byte words of the row written by offset. -/
def row (l : List (Nat × Nat)) : State :=
  let s := State.reset.withFetchWord 32 0xFC
  { s with
    clk := { s.clk with todo := none, cur := 1, ids := 1 }
    mem := l.foldl (fun m x => memSetNat m (0x1000 + x.1) 8 x.2) s.mem }

/-- Offset of a scalar register in its row. -/
def S (k : Nat) : Nat := 0x100 + 8 * k

/-- 8-byte words of memory written by address. -/
def withMem (s : State) (l : List (Nat × Nat)) : State := { s with mem := l.foldl (fun m x => memSetNat m x.1 8 x.2) s.mem }

/-- Register words written by address. -/
def withRegs (s : State) (l : List (Nat × Nat)) : State := l.foldl (fun s x => setRegWord s x.1 x.2) s

/-- No row names a region block, so no byte lies in one. -/
theorem isBlock_false (s : State) (h : s.rows.kinds.all (fun r => blockOf s r == 0) = true) (a : Nat) : isBlock s a = false := by
  simp only [isBlock, List.any_eq_false, List.all_eq_true] at *
  intro r hr
  simpa using fun _ => h r hr

/-- What a check answers, as a condition that evaluates. -/
def okIs (x : Except FaultRec Nat) (n : Nat) : Bool :=
  match x with
  | .ok m => m == n
  | .error _ => false

/-- What a check that stops answers, as a condition that evaluates. -/
def errIs (x : Except FaultRec Nat) (f : FaultRec) : Bool :=
  match x with
  | .ok _ => false
  | .error g => g == f

theorem okIs_iff (x : Except FaultRec Nat) (n : Nat) : x = .ok n ↔ okIs x n = true := by
  cases x <;> simp [okIs]

theorem errIs_iff (x : Except FaultRec Nat) (f : FaultRec) : x = .error f ↔ errIs x f = true := by
  cases x <;> simp [errIs]

/-! ### Witnesses: for each statement with premises, a state that meets those of each clause -/

/-- CommitWritesPc. -/
theorem wit_commitWritesPc : Calm (row []) 1 := by unfold Calm; decide +kernel

/-- Jumps: the last good literal and the first bad ones. -/
theorem wit_jumps : let good := fun (l : Word) => l.toNat % 4 = 0 ∧ l.toNat < 2 ^ 40
    good 0xFFFFFFFFFC ∧ ¬ good 0x10000000000 ∧ ¬ good 2 := by decide

/-- JumpsToRegister: below 0, at 2^40, misaligned, the last good target. -/
theorem wit_jumpsToRegister : let t := fun (x : Nat) (m : BitVec 12) => (src (row [(S 4, x)]) 4 : Int) + m.toInt
    t 0 0xFFF < 0 ∧ 2 ^ 40 ≤ t (2 ^ 40) 0 ∧ (0 ≤ t 2 0 ∧ t 2 0 < 2 ^ 40 ∧ t 2 0 % 4 ≠ 0) ∧
    (0 ≤ t (2 ^ 40 - 4) 0 ∧ t (2 ^ 40 - 4) 0 < 2 ^ 40 ∧ t (2 ^ 40 - 4) 0 % 4 = 0) := by decide +kernel

/-- LoopsArm: both levels. -/
theorem wit_loopsArm : (0 : Reg).toNat < 2 ∧ (1 : Reg).toNat < 2 := by decide

/-- FloatConverts, VectorSelectsAndPermutes, VectorLanesAndScalars, VectorCompares. -/
theorem wit_forms : wellFormed (.fcvt ⟨3, 4, 0x0B, 0x0A, 4⟩) = true ∧ wellFormed (.fcvt ⟨3, 4, 0x0B, 3, 1⟩) = true ∧
    wellFormed (.vsel ⟨1, 2, 3, 4, 0x0B⟩) = true ∧ 0 < fmtWidth 1 ∧ wellFormed (.vcmp ⟨1, 2, 3, 0, false, 0x0B, 4⟩) = true ∧
    wellFormed (.vcmp ⟨1, 2, 3, 0, false, 1, 5⟩) = true := by decide +kernel

/-- NanInCanonicalNanOut: a quiet NaN on the left, a signalling one on the right. -/
theorem wit_nan : f32Fmt.nanBits ≠ 0 ∧ fvIsNan (decodeFloat f32Fmt 0x7FC00000) = true ∧ fvIsNan (decodeFloat f32Fmt 0x7F800001) = true ∧
    fvIsSnan (decodeFloat f32Fmt 0x7F800001) = true := by decide +kernel

/-- ReductionTree: the right child of the node of lanes 0 and 1 is empty under mask 1; the lane types. -/
theorem wit_reductionTree : (∀ j, (2 * 0 + 1) * 2 ^ 0 ≤ j → j < (2 * 0 + 2) * 2 ^ 0 → bitAt 1 j = false) ∧
    (∀ et ∈ [1, 2, 3, 4, 9, 0x0B, 0x0C], fmtWidth et ∈ [8, 16, 32, 64]) := by
  refine ⟨fun j h h' => ?_, by decide⟩
  have : j = 1 := by omega
  subst this; decide

/-- IntegerConversionLanes: the last part of a widening by 8. -/
theorem wit_integerConversionLanes : fmtIsInt 1 = true ∧ fmtIsInt 4 = true ∧ 7 < max (fmtWidth 1) (fmtWidth 4) / min (fmtWidth 1) (fmtWidth 4) := by
  decide

/-- A row whose sg1 is its own bytes 0x800 to 0xBFF, readable and writable, and whose sg2 the same bytes as bf16. -/
def segRow (l : List (Nat × Nat)) : State :=
  row ([(0x90, 0x800 + 2 ^ 51 + 2 ^ 52), (0x98, 0x400), (0xA0, 0x800 + 2 ^ 51 + 0x0A * 2 ^ 54), (0xA8, 0x400), (S 5, 2), (S 6, 8)] ++ l)

/-- OwnRowScalarAccesses: the last load of sg1; the first, the last below the reserved bytes and the first above them of the row. -/
theorem wit_ownRowScalars : let s := segRow []
    isOpen s 1 = true ∧ OwnSpan s (getSeg s 1 1) 0x3F8 8 8 false ∧ OwnSpan s rowSeg 0xFFF 1 1 false ∧
    (OwnSpan s rowSeg 0x100 8 8 true ∧ 0x100 ≤ rowSeg.base + (0x100 : Int).toNat) ∧
    (OwnSpan s rowSeg 0x638 8 8 true ∧ rowSeg.base + (0x638 : Int).toNat < 0x640) ∧
    (OwnSpan s rowSeg 0x700 4 4 true ∧ 0x700 ≤ rowSeg.base + (0x700 : Int).toNat) := by unfold OwnSpan; decide +kernel

/-- OwnRowVectorLoads: 64-bit lanes at 0x800 of the row, plain and with a format that needs no decoding; a stride of 8; a gather. -/
theorem wit_ownRowVectorLoads : let s := segRow []
    isOpen s 1 = true ∧ wellFormed (.vld ⟨1, 0, false, 4, false, ⟨0, true, 0, 0x800⟩⟩) = true ∧
    wellFormed (.vlds ⟨1, 6, 0, false, 4, true, ⟨0, true, 0, 0x800⟩⟩) = true ∧ rowSeg.fmt = 0 ∧ (getSeg s 1 2).fmt = 0x0A ∧
    wellFormed (.vgat ⟨1, 2, 3, 0, false, 4, ⟨0, true, 0, 0xFF8⟩⟩) = true ∧
    (∀ j < 512 / 64, bitAt (getK s 1 0) j = true → OwnSpan s rowSeg ((0x800 : Int) + (j * 8 : Nat)) 8 8 false ∧
      OwnSpan s rowSeg ((0x800 : Int) + j * (BitVec.ofNat 64 (src s 6)).toInt) 8 8 false ∧
      OwnSpan s rowSeg ((0xFF8 : Int) + signedOf 64 (elemAt 64 (getV s 1 2) j) * (2 ^ 3 : Nat)) 8 8 false) := by
  unfold OwnSpan; decide +kernel

/-- DecodingStrides: bf16 elements 2 bytes apart into f32 lanes. -/
theorem wit_decodingStrides : let s := segRow []
    let p : VLds := ⟨1, 5, 0, false, 0x0B, true, ⟨2, false, 0, 0⟩⟩
    isOpen s 1 = true ∧ wellFormed (.vlds p) = true ∧ p.dec = true ∧ strideAccepts 0x0B (getSeg s 1 2).fmt = true ∧ (getSeg s 1 2).fmt ≠ 0 ∧
    (getSeg s 1 2).fmt ≠ 0x0B ∧ (∀ j < 512 / 32, bitAt (getK s 1 0) j = true → OwnSpan s (getSeg s 1 2) (j * (BitVec.ofNat 64 (src s 5)).toInt) 2 2 false) := by
  unfold OwnSpan; decide +kernel

/-- DecodingLoads: sixteen bf16 elements of the own row into f32 lanes. -/
theorem wit_decodingLoads : let s := segRow []
    let o : VLd := ⟨1, 0, false, 0x0B, true, ⟨2, false, 0, 0⟩⟩
    let g := getSeg s 1 2
    wellFormed (.vld o) = true ∧ o.dec = true ∧ isOpen s 1 = true ∧ loadAccepts 0x0B g.fmt = true ∧ g.fmt ≠ 0 ∧ g.fmt ≠ 0x0B ∧ fmtIsBlock g.fmt = false ∧
    (g.base + 0) % 2 = 0 ∧ 512 / 32 * fmtWidth g.fmt / 8 = 32 ∧ ∀ i < 32, OwnSpan s g ((0 : Int) + (i : Nat)) 1 1 false := by
  unfold OwnSpan; decide +kernel

/-- DecodingLoads: a block format (0x12) at 0x10000 of memory into f32 lanes: its 16 bytes, and the scale at byte 0xF800 of the 64 KiB. -/
theorem wit_decodingBlocks : let s := row [(0xA0, 0x10000 + 2 * 2 ^ 48 + 2 ^ 51 + 0x12 * 2 ^ 54), (0xA8, 0x10000)]
    let g := getSeg s 1 2
    loadAccepts 0x0B g.fmt = true ∧ fmtIsBlock g.fmt = true ∧ (∃ j < 512 / 32, bitAt (getK s 1 0) j = true) ∧ g.kind ≠ 0 ∧ g.kind ≠ 4 ∧
    512 / 32 * fmtWidth g.fmt / 8 = 16 ∧ (g.base + 0) % (16 : Nat) = 0 ∧ segAddr 1 g 0 1 % 16 = 0 ∧
    segChecks s 1 g 0 { rd := true, size := 16, align := 16 } = .ok 0x10000 ∧
    (∀ i < 16, segChecks s 1 g ((0 : Int) + (i : Nat)) { rd := true, size := 1 } = .ok (0x10000 + i)) ∧
    segChecks s 1 g ((0 : Int) - (0 : Nat) + (0xF800 : Nat)) { rd := true, size := 1 } = .ok 0x1F800 ∧
    2 ^ 16 - 2 ^ 16 / (4 * fmtWidth g.fmt) + 0 / (4 * fmtWidth g.fmt) = 0xF800 ∧
    (∀ x ∈ (List.range 16).map (0x10000 + ·) ++ [0x1F800], dpaChecks s (partOf s 1) (isPriv s 1) false x = none) ∧
    0 + 16 ≤ 2 ^ 16 - 2 ^ 16 / (4 * fmtWidth g.fmt) ∧ 0 / (4 * fmtWidth g.fmt) = (0 + 16 - 1) / (4 * fmtWidth g.fmt) := by
  simp -zeta only [okIs_iff]
  decide +kernel

/-- DecodingLoads: the last reply of such a load: sixteen bytes and the scale 0x80 in hand. -/
theorem wit_decodingReply : let es : List Elem := (List.range 16).map fun i => { lane := i, size := 1, fmt := 0x12, got := some 0x3C }
    let sc : Elem := { lane := 64, size := 1, got := some 0x80 }
    let q : Req := { row := 1, part := 0, ctx := 0, priv := false, ex := 0, elems := es ++ [sc], left := 1, dest := .vector 1 0x0B (2 ^ 64 - 1) false,
                     wait := true, decode := 1 }
    let s := row [(8, 4 + 256)]
    let s := { s with ms := { s.ms with reqs := [(7, q)] } }
    tabGet s.ms.reqs 7 = some q ∧ q.elems = es ++ [sc] ∧ sc.lane = 64 ∧ es ≠ [] ∧ (∀ e ∈ es, e.fmt = 0x12 ∧ e.size = 1 ∧ e.lane < 64) ∧
    fmtIsBlock 0x12 = true ∧ q.fl = 0 ∧ q.row < 2 ^ 28 ∧ getF s q.row fCode = 4 ∧ Calm s q.row ∧ s.rows.popDue.contains q.row = false ∧ q.left ≤ 1 ∧
    q.fault = none := by
  unfold Calm; decide +kernel

/-- OwnRowVectorStores: 64-bit lanes at 0x800, side by side and scattered by 0, 1, 2 … of V2. -/
theorem wit_ownRowVectorStores : let s := segRow ((List.range 8).map fun j => (0x280 + 8 * j, j))
    let ok := fun (off : Nat → Int) => (∀ j < 512 / 64, OwnSpan s rowSeg (off j) 8 8 true ∧ 0x100 ≤ (off j).toNat ∧ 0x700 ≤ (off j).toNat) ∧
      (∀ j < 512 / 64, ∀ l < 512 / 64, j ≠ l → off j + (8 : Nat) ≤ off l ∨ off l + (8 : Nat) ≤ off j)
    isOpen s 1 = true ∧ wellFormed (.vst ⟨1, 0, 4, ⟨0, true, 0, 0x800⟩⟩) = true ∧ ok (fun j => (0x800 : Int) + (j * 8 : Nat)) ∧
    wellFormed (.vsts ⟨6, 3, 0, 4, ⟨0, true, 0, 0x800⟩⟩) = true ∧ ok (fun j => (0x800 : Int) + j * (BitVec.ofNat 64 (src s 6)).toInt) ∧
    wellFormed (.vsct ⟨2, 3, 3, 0, 4, ⟨0, true, 0, 0x800⟩⟩) = true ∧
    ok (fun j => (0x800 : Int) + signedOf 64 (elemAt 64 (getV s 1 2) j) * (2 ^ 3 : Nat)) := by
  unfold OwnSpan; decide +kernel

/-- SegmentChecksInOrder: KIND 7; a misaligned address; the limit passed by one byte; a span past the row; no right R. -/
theorem wit_segmentChecks : let g := fun (w l : Nat) => getSeg (row [(0x90, w), (0x98, l)]) 1 1
    (g (7 * 2 ^ 48) 8).bad = true ∧
    ((g 0 8).bad = false ∧ (((g 0 8).base : Int) + 4) % 8 ≠ 0) ∧
    ((g 0 8).bad = false ∧ (((g 0 8).base : Int) + 8) % 8 = 0 ∧ (g 0 8).limit < (8 : Int) + 8) ∧
    ((g 0x1000 8).bad = false ∧ ¬ ((g 0x1000 8).limit < (0 : Int) + 8) ∧ segReach 1 (g 0x1000 8) 0 8 = none) ∧
    ((g 0x800 8).bad = false ∧ ¬ ((g 0x800 8).limit < (0 : Int) + 8) ∧ segReach 1 (g 0x800 8) 0 8 ≠ none ∧ (g 0x800 8).canR = false) := by
  decide +kernel

/-- A row whose sg3 is bytes 0x5000 to 0x5FFF of memory (MESHA), readable and writable, and whose sg4 a virtual segment. -/
def meshRow (l : List (Nat × Nat)) : State :=
  row ([(0xB0, 0x5000 + 2 * 2 ^ 48 + 2 ^ 51 + 2 ^ 52), (0xB8, 0x1000), (0xC0, 0x10000 + 4 * 2 ^ 48 + 2 ^ 51 + 2 ^ 52), (0xC8, 0x1000)] ++ l)

/-- SentLoads, StoresAreWet: the first and the last word of sg3. -/
theorem wit_meshAccesses : let s := meshRow []
    let g := getSeg s 1 3
    g.kind ≠ 0 ∧ g.kind ≠ 4 ∧ segChecks s 1 g 0 { rd := true, size := 8, align := 8 } = .ok 0x5000 ∧
    segChecks s 1 g 0xFFF { rd := true, size := 1, align := 1 } = .ok 0x5FFF ∧ dpaChecks s (partOf s 1) (isPriv s 1) false 0x5000 = none ∧
    segChecks s 1 g 0xFF8 { wr := true, size := 8, align := 8 } = .ok 0x5FF8 ∧ dpaChecks s (partOf s 1) (isPriv s 1) true 0x5FF8 = none ∧
    placeOf 0x5FF8 = .hbm ∧ wetHeld s (exOf 1) (partOf s 1) < 32 * slotCount s (partOf s 1) ∧ (s.ms.wet.all fun w => w.row != 1) = true := by
  simp -zeta only [okIs_iff]
  decide +kernel

/-- TranslationInstructions, Migrations. -/
theorem wit_translation : let s := meshRow []
    let p := meshRow [(0x70, 2 ^ 52)]
    let f : Forward := ⟨0, 0x20000, 0x20000, 0x30000, 0x10000, 0, false, 0⟩
    ((getSeg s 1 3).kind ≠ 4 ∧ (getSeg s 1 3).bad = false) ∧ (getSeg (row [(0x90, 7 * 2 ^ 48)]) 1 1).bad = true ∧
    segChecks s 1 (getSeg s 1 3) 0xFFF { size := 1 } = .ok 0x5FFF ∧ segChecks s 1 (getSeg s 1 3) 0x1000 { size := 1 } = .error ⟨2, 1, 0x6000, 2⟩ ∧
    isPriv s 1 = false ∧ isPriv p 1 = true ∧ segChecks s 1 (getSeg s 1 4) 0xFFF { kinds := 0x10, wr := true, size := 1 } = .ok 0x10FFF ∧
    segChecks s 1 (getSeg s 1 3) 0 { kinds := 0x10, wr := true, size := 1 } = .error ⟨2, 2, 0x5000, 2⟩ ∧ s.ms.forwards = [] ∧
    (f.part = partOf s 1 ∧ f.oldGpa ≤ 0x2FFFF ∧ 0x2FFFF < f.oldGpa + f.size) := by
  simp -zeta only [okIs_iff, errIs_iff]
  decide +kernel

/-- OwnRowAtomics: the first and the last word above the control words that an atomic may reach. -/
theorem wit_ownRowAtomics : let s := segRow []
    isOpen s 1 = true ∧ s.clk.cur < 2 ^ 28 ∧ (0x0B : BitVec 5).toNat ∈ [3, 4, 7, 8, 0xB, 0xC] ∧
    (OwnSpan s rowSeg 0x100 8 8 false ∧ OwnSpan s rowSeg 0x100 8 8 true ∧ 0x100 ≤ rowSeg.base + (0x100 : Int).toNat) ∧
    (OwnSpan s rowSeg 0xFFC 4 4 false ∧ OwnSpan s rowSeg 0xFFC 4 4 true ∧ 0x700 ≤ rowSeg.base + (0xFFC : Int).toNat) := by
  unfold OwnSpan; decide +kernel

/-- Watches: a word that differs, and one that is equal in a row that may wait. -/
theorem wit_watches : let s := segRow [(0x800, 7), (S 4, 7)]
    isOpen s 1 = true ∧ (4 : BitVec 5).toNat ∈ [3, 4, 7, 8] ∧ OwnSpan s rowSeg 0x800 8 8 false ∧
    memNat s.mem (ownAddr s rowSeg 0x800) 8 ≠ src s 5 % 2 ^ 64 ∧ (memNat s.mem (ownAddr s rowSeg 0x800) 8 = src s 4 % 2 ^ 64 ∧
      getF s 1 fPend = 0 ∧ ctxActive s 1 = true ∧ BlockApart s 1) := by
  unfold OwnSpan BlockApart; decide +kernel

/-- ScopeOperands: bit 32; no rectangle; rectangle 3 elsewhere; rectangle 3 at the row's executor. -/
theorem wit_scopeOperands : let s := withRegs (row []) [(rectAt 0 3, 2 ^ 32 + 0x01010000), (rectAt 0 15, 2 ^ 32 + 0x02020101)]
    let named := fun (v : Word) (i : Nat) => i < 16 ∧ regBits s (rectAt (partOf s 1) i) 32 1 = 1 ∧ regBits s (rectAt (partOf s 1) i) 0 32 = v.toNat
    ((2 ^ 32 : Word) ≠ 0x1F1F0000 ∧ 2 ^ 32 ≤ (2 ^ 32 : Word).toNat) ∧ (∀ i < 16, ¬ named 5 i) ∧
    (named 0x02020101 15 ∧ (rectOf (0x02020101 : Word).toNat).has (homeOf 1) = false) ∧
    (named 0x01010000 3 ∧ (∀ j < 3, ¬ named 0x01010000 j) ∧ (rectOf (0x01010000 : Word).toNat).has (homeOf 1) = true) := by
  decide +kernel

/-- Phases: a bad operand; views that stand above the phase, and views that do not; an own scope that holds and one that does not. -/
theorem wit_phases : let s := row [(S 4, 0x1F1F0000), (S 5, 2 ^ 32)]
    let u := { s with ms := { s.ms with views := [(scopeKey 0 0 0, ⟨none, none, none⟩)] } }
    let v := row [(0x20, 2 ^ 36)]
    scopeOperand s 1 (getS s 1 5) = .error ⟨6, 1, 2 ^ 32, 0⟩ ∧ scopeOperand s 1 (getS s 1 4) = .ok 0 ∧ scopeOperand u 1 (getS u 1 4) = .ok 0 ∧
    (¬ (getF s 1 fValid = 1 ∧ getF s 1 Machine.fMajor = 0xA0) ∧ mayRaise s 1 (getF s 1 fPhase) = true ∧ mayRaise u 1 (getF u 1 fPhase) = true ∧ BlockApart s 1 ∧
      getF s 1 fPend = 0 ∧ ctxActive s 1 = true) ∧
    (rowView u 1 0 = ⟨none, none, none⟩ ∧ (rowView s 1 0).lb = some (getF s 1 fPhase)) ∧ (ownScope s 1 = (0, true)) ∧ (ownScope v 1).2 = false := by
  simp -zeta only [okIs_iff, errIs_iff]
  unfold BlockApart
  decide +kernel

/-- Fences, DryStores: nothing outstanding; an unanswered access and a wet entry in the whole rectangle; no FENCEX outstanding. -/
theorem wit_fences : let s := segRow [(S 4, 0x1F1F0000)]
    let q : Req := { row := 1, part := 0, ctx := 0, priv := false, ex := 0, elems := [{ addr := 0x5000 }] }
    let u := { s with ms := { s.ms with reqs := [(0, q)] } }
    let w : Wet := { id := 0, row := 1, tag := 0, pos := 0, line := 0x140, bytes := [(0, 5)], part := 0, ctx := 0, ex := 0, stage := 1 }
    let x := { s with ms := { s.ms with wet := [w] } }
    scopeOperand s 1 (getS s 1 4) = .ok 0 ∧ (∀ w ∈ s.ms.wet, w.row ≠ 1) ∧ (∀ e ∈ s.ms.reqs, e.2.row ≠ 1) ∧ (fencexOpen s 1).length < 8 ∧
    (scopeOperand x 1 (getS x 1 4) = .ok 0 ∧ w ∈ x.ms.wet ∧ w.row = 1 ∧ w.id < x.clk.ids ∧ w.stage < 2 ∧
      homeIn (w.line * 64) ((scopeRect x (partOf x 1) 0).getD wholeRect) = true) ∧
    scopeOperand u 1 (getS u 1 4) = .ok 0 ∧
    (∃ e ∈ u.ms.reqs, e.2.row = 1 ∧ e.1 < u.clk.ids ∧ e.2.path = .T ∧ ∃ x ∈ e.2.elems, homeIn x.addr ((scopeRect u 0 0).getD wholeRect) = true) ∧
    (isOpen s 1 = true ∧ OwnSpan s rowSeg 0x700 8 8 true ∧ 0x100 ≤ rowSeg.base + (0x700 : Int).toNat ∧ 0x700 ≤ rowSeg.base + (0x700 : Int).toNat) := by
  simp -zeta only [okIs_iff]
  unfold OwnSpan
  decide +kernel

/-- CommandTable: every state of the table, every command; a wait without bound. -/
theorem wit_commandTable : let m : CmdMsg := ⟨1, false, 0, 0, 9⟩
    (∀ c < 9, 1 ≤ c → let s := row [(8, c)]
      isThread s m.row = true ∧ getF s m.row fCode = c ∧ getF s m.row fPend = 0 ∧ getF s m.row fRegion = 0 ∧ s.rows.stepping = [] ∧
      tabGet s.rows.budgetStops m.row = none ∧ ctxLive s (partOf s m.row) 0 = true ∧ m.rsv = 0 ∧ m.arg = 0 ∧ m.arg.toNat < 64) ∧
    (tabGet ({ row [(8, 4)] with rows := { (row []).rows with waits := [(1, ⟨3, false, .note, 0, .finish⟩)] } } : State).rows.waits 1).map Wait.bounded =
      some false := by decide +kernel

/-- CommandsTurnedAway: a command pending; reserved bits; a bad argument; a chain that is malformed, in the states that need it. -/
theorem wit_commandsTurnedAway : let bad := fun (c : Nat) => withMem (row [(8, c), (0x58, 2 ^ 23)]) [(0x88, 2 ^ 29)]
    (isThread (row [(8, 0x13)]) 1 = true ∧ getF (row [(8, 0x13)]) 1 fPend = 1) ∧ ((1 : BitVec 16) ≠ 0 ∧ (1 : BitVec 8) ≠ 0 ∧ 64 ≤ (64 : BitVec 8).toNat) ∧
    (∀ p ∈ [(1, 1), (3, 1), (3, 5), (3, 6), (3, 7), (4, 6), (4, 7), (6, 6), (6, 7), (7, 1), (7, 5), (8, 2)],
      isThread (bad p.2) 1 = true ∧ getF (bad p.2) 1 fPend = 0 ∧ chainOf (bad p.2) 1 = none ∧ codeOf (bad p.2) 1 = p.2) := by decide +kernel

/-- CommandsLand: a pending STOP, REDIRECT and KILL. -/
theorem wit_commandsLand : ∀ k ∈ [2, 3, 5], let s := row [(0, k), (8, 0x13)]
    isOpen s 1 = true ∧ getF s 1 fPend = 1 ∧ getF s 1 fRegion = 0 ∧ s.rows.stepping.contains 1 = false ∧ (∀ h ∈ s.rows.stepHeld, h.1 ≠ 1) ∧
    tabGet s.rows.budgetStops 1 = none ∧ tabGet s.rows.hashFault 1 = none ∧ getF s 1 fCmdCode = k := by decide +kernel

/-- RowInstructionsReachRows, RowOperandFaults: another row; a misaligned, an unmapped and a foreign operand; a privileged row. -/
theorem wit_rowOperands : let s := row [(S 4, 0x5000), (S 5, 0x5001), (S 6, 0x010000000000), (0x70, 2 ^ 52)]
    let u := withRegs (row [(S 4, 0x2000000)]) [(layoutAt 0, 2 ^ 32 - 1 + 2 ^ 32)]
    let v := fun (s : State) (a : Nat) => (getS s 1 a).toNat
    rowOperand s 1 (getS s 1 4) = .ok 5 ∧ isPriv s 1 = true ∧ isPriv (row []) 1 = false ∧ v s 5 % 4096 ≠ 0 ∧ (v s 6 % 4096 = 0 ∧ placeOf (v s 6) ≠ .hbm) ∧
    (v u 4 % 4096 = 0 ∧ placeOf (v u 4) = .hbm ∧ dpaChecks u (partOf u 1) (isPriv u 1) true (v u 4) = some (3, 0x11)) := by
  simp -zeta only [okIs_iff]
  decide +kernel

/-- SelfAndSpawn: an undefined bit, and an executor's name. -/
theorem wit_spawn : let s := row [(S 4, 0x20), (S 5, 0x11F1F)]
    src s 4 &&& (2 ^ 64 - 1 - 0x11F1F) ≠ 0 ∧ src s 5 &&& (2 ^ 64 - 1 - 0x11F1F) = 0 := by decide +kernel

/-- Peeks: the window's bounds, the destination's bounds, the row itself and another. -/
theorem wit_peeks : let s := row [(S 4, 0x1000), (S 5, 0x5000), (S 6, 0x804), (S 7, 0x7F8), (S 8, 0xF08), (S 9, 0x800), (S 10, 0xF00)]
    isOpen s 1 = true ∧ (4 : BitVec 32).toNat % 8 ≠ 0 ∧ 0xF00 < (0xF08 : BitVec 32).toNat ∧ (0xF00 : BitVec 32).toNat % 8 = 0 ∧
    src s 6 % 8 ≠ 0 ∧ (src s 7 % 8 = 0 ∧ src s 7 < 0x800) ∧ (src s 8 % 8 = 0 ∧ 0xF00 < src s 8) ∧ (src s 9 % 8 = 0 ∧ 0x800 ≤ src s 9) ∧
    (src s 10 % 8 = 0 ∧ src s 10 ≤ 0xF00) ∧ (∀ v ∈ [0x800, 0xF00], inHeader s (rowDpa 1 + v) 256 = false) ∧ rowOperand s 1 (getS s 1 4) = .ok 1 ∧ rowOperand s 1 (getS s 1 5) = .ok 5 := by
  simp -zeta only [okIs_iff]
  decide +kernel

/-- GivingUpTheSlot: alone, and with row 2 READY. -/
theorem wit_givingUpTheSlot : let s := row []
    isOpen s 1 = true ∧ getF s 1 fPend = 0 ∧ getF s 1 fRegion = 0 ∧ s.rows.stepping.contains 1 = false ∧ getF s 1 (fLoopArmed 0) = 0 ∧
    getF s 1 (fLoopArmed 1) = 0 ∧ readyElse s 1 = false ∧
    readyElse { s with rows := { s.rows with queue := [(queueKey (exOf 1) 0, [2])] } } 1 = true := by decide +kernel

/-- OpeningHoldingAging: an opening that has taken its 48 cycles; a hold of 2,048 cycles that has run out; a queued row below level 63. -/
theorem wit_openingHoldingAging : let at_ := fun (s : State) (n : Nat) => { s with clk := { s.clk with now := n } }
    let o := row [(8, 2)]
    let o := at_ { o with rows := { o.rows with slots := [(0, { row := 1, opening := true })], queuedAt := [(1, 5)] } } 48
    let h := row [(8, 4)]
    let h := at_ { h with rows := { h.rows with waits := [(1, ⟨3, false, .note, 7, .finish⟩)], queue := [(queueKey (exOf 1) 0, [2])] } } 2055
    (isThread o 1 = true ∧ getF o 1 fRegion = 0 ∧ (tabGet o.rows.slots (0 * 32 + 0)).map (fun x => (x.row, x.opening, x.openedAt)) = some (1, true, 0) ∧
      0 + 48 ≤ o.clk.now ∧ getF o 1 fCode = 2 ∧ joinPending o 1 = false ∧ stackHeld o (rowDpa 1) = none ∧ ctxActive o 1 = true) ∧
    (isThread h 1 = true ∧ getF h 1 fRegion = 0 ∧ tabGet h.rows.waits 1 = some ⟨3, false, .note, 7, .finish⟩ ∧ 7 + holdOf h 1 ≤ enabledCycles h (exOf 1) ∧
      clockOn h (exOf 1) = true ∧ getF h 1 fCode = 4 ∧ readyElse h 1 = true) ∧
    (tabGet o.rows.queuedAt 1 = some 5 ∧ getF o 1 fEprio < 63) := by decide +kernel

/-- A row whose region block stands at 0x5000, with 8-byte words of the block by offset. -/
def regionRow (l b : List (Nat × Nat)) : State := withMem (row ([(0x58, 160 * 2 ^ 23)] ++ l)) (b.map fun x => (0x5000 + x.1, x.2))

/-- FaultsFreezeTheRow, FaultNotes: a row at rest; POLICY 2 and 3, with a supervisor and without. -/
theorem wit_faults : let s := row []
    let p := fun (q : Nat) (l : List (Nat × Nat)) => regionRow l [(8, 2 + q * 2 ^ 22)]
    (isOpen s 1 = true ∧ getF s 1 fPend = 0 ∧ getF s 1 fRegion = 0 ∧ (cBUS < 256 ∧ (0x21 : Nat) < 256)) ∧
    (effPolicy (p 2 []) 1 = some 2 ∧ supervisorOf (p 2 []) 1 = 0) ∧
    (effPolicy (p 3 [(0x60, 2 ^ 63 + 7)]) 1 = some 3 ∧ supervisorOf (p 3 [(0x60, 2 ^ 63 + 7)]) 1 ≠ 0) := by decide +kernel

/-- ResumeKeepsTheRow: a frozen row. -/
theorem wit_resume : let s := row [(8, 6)]
    isThread s 1 = true ∧ getF s 1 fCode = 6 ∧ getF s 1 fPend = 0 ∧ getF s 1 fRegion = 0 := by decide +kernel

/-- A T cycle five nanoseconds ahead of the hub's time has come nowhere, whatever the executors' skews are (log 12). -/
theorem tAnywhere_false (s : State) (p : Nat) (h : hubTime s + 5 ≤ regWord s (supAt p + 8)) : tAnywhere s p = false := by
  simp only [tAnywhere, List.any_eq_false, tReached, gtimeAt]
  intro ex _ h'
  have := of_decide_eq_true h'
  have := Nat.mod_lt (Config.gtimeSkew ex) (show 5 > 0 by decide)
  omega

/-- One that the hub's time has reached has come. -/
theorem tAnywhere_true (s : State) (p : Nat) (h : regWord s (supAt p + 8) ≤ hubTime s) : tAnywhere s p = true := by
  simp only [tAnywhere, List.any_eq_true, tReached, gtimeAt]
  exact ⟨0, by simp, decide_eq_true (by omega)⟩

/-- An executor's view of global time. -/
theorem gtimeAt_le (s : State) (ex : Nat) : hubTime s ≤ gtimeAt s ex ∧ gtimeAt s ex < hubTime s + 5 := by
  have := Nat.mod_lt (Config.gtimeSkew ex) (show 5 > 0 by decide)
  exact ⟨Nat.le_add_right _ _, by unfold gtimeAt; omega⟩

/-- SwitchStatuses: the operands of each status, in a privileged row. -/
theorem wit_switchStatuses : let s := row [(0x70, 2 ^ 52), (S 4, 8), (S 5, 0x100), (S 6, 1), (S 7, 0), (S 8, 9999), (S 9, 10005)]
    let u := withRegs s [(supAt 0, 8), (supAt 0 + 8, 2 ^ 40)]
    let h := { s with hub := { s.hub with heldParts := [0] } }
    isPriv (row []) 1 = false ∧ isPriv s 1 = true ∧ src s 4 &&& (2 ^ 64 - 1 - 0x107) ≠ 0 ∧
    (src s 5 &&& (2 ^ 64 - 1 - 0x107) = 0 ∧ (src s 5).testBit 8 = true ∧ regBits s (supAt 0) 3 1 ≠ 1) ∧
    (regBits u (supAt 0) 3 1 = 1 ∧ tAnywhere u 0 = false ∧ isPriv u 1 = true ∧ (src u 5).testBit 8 = true) ∧
    (src u 6 &&& (2 ^ 64 - 1 - 0x107) = 0 ∧ ¬ (src u 6).testBit 8 = true) ∧
    (h.hub.heldParts.contains (partOf h 1) = true) ∧ (s.hub.heldParts.contains (partOf s 1) = false) ∧ (src s 7 % 8 = activeCtx s 0) ∧
    (src s 6 % 8 ≠ activeCtx s 0) ∧ src s 8 < gtimeAt s (exOf 1) + 10000 ∧ ¬ src s 9 < gtimeAt s (exOf 1) + 10000 := by
  intro s u h
  have g := gtimeAt_le s (exOf 1)
  have t0 : hubTime s = 0 := by decide +kernel
  have a : src s 8 = 9999 := by decide +kernel
  have b : src s 9 = 10005 := by decide +kernel
  have k : tAnywhere u 0 = false := tAnywhere_false u 0 (by decide +kernel)
  rw [k, a, b]
  refine ⟨by decide +kernel, by decide +kernel, by decide +kernel, by decide +kernel, ?_, by decide +kernel, by decide +kernel, by decide +kernel, by decide +kernel, by decide +kernel, by omega, by omega⟩
  exact ⟨by decide +kernel, rfl, by decide +kernel, by decide +kernel⟩

/-- SlotTables: the operand's bounds; an image with entry 0x3D, a good image (the default table), and an install that waits. -/
theorem wit_slotTables : let s := row [(0x70, 2 ^ 52), (S 4, 0x820), (S 5, 0x7C0), (S 6, 0x1000), (S 7, 0x800), (S 8, 0xFC0), (0xFC0, 0x3D)]
    let d := { s with mem := memWrite s.mem 0x1800 (defaultTable.map (BitVec.ofNat 8)) }
    let image := fun (s : State) (v : Nat) => (memRead s.mem (rowDpa 1 + v) 64).map BitVec.toNat
    let w : State := { s with iss := { s.iss with installs := [⟨1, 0, 3, defaultTable⟩] } }
    isPriv s 1 = true ∧ isPriv (row []) 1 = false ∧ src s 4 % 64 ≠ 0 ∧ (src s 5 % 64 = 0 ∧ src s 5 < 0x800) ∧ (src s 6 % 64 = 0 ∧ 0xFC0 < src s 6) ∧
    (src s 8 % 64 = 0 ∧ src s 8 ≤ 0xFC0 ∧ (∃ e ∈ image s (src s 8), 32 ≤ e ∧ e ≠ 0x3E ∧ e ≠ 0x3F) ∧ imageStatus s 0 0 (image s (src s 8)) ≠ 0) ∧
    (src d 7 % 64 = 0 ∧ 0x800 ≤ src d 7 ∧ imageStatus d 0 0 (image d (src d 7)) = 0) ∧ (w.iss.installs.filter fun x => x.ex == 0) ≠ [] := by
  decide +kernel

/-- The governor's words of partition 0 at executor 0. -/
def gov : Gov := ⟨100, none, some 64, 0, 0, 0, 0, 0, 0, 0, 0, 0, 0, 0, 0⟩

/-- BudgetsAndPriorities: the last priority and the first above it; a governor's entry; a cycle that partition 0 owns. -/
theorem wit_budgetsAndPriorities : let s := row [(0x70, 2 ^ 52), (S 4, 63), (S 5, 64)]
    let g : State := { s with iss := { s.iss with gov := [(0, gov)] } }
    isPriv s 1 = true ∧ isPriv (row []) 1 = false ∧ src s 4 ≤ 63 ∧ 63 < src s 5 ∧ g.iss.gov = [(0 * 32 + partOf g 1, gov)] ∧ partOf g 1 < 32 ∧
    entryOwner s (enabledCycles s 0 % 64) < 32 ∧ (govOf g 0 0).gated < 2 ^ 64 - 1 ∧ (govOf g 0 0).gblock < 2 ^ 64 - 1 ∧ (govOf g 0 0).forfeit < 2 ^ 64 - 1 := by
  decide +kernel

/-- Watchdogs: a persistent row at the end of its window, without and with a beat; a row below and at its limit. -/
theorem wit_watchdogs : let mk := fun (l : List (Nat × Nat)) (n : Nat) =>
      let s := regionRow l [(8, 2 ^ 9 + 2 ^ 5), (0x28, 5), (0x58, 7)]
      { s with clk := { s.clk with now := 9 }, rows := { s.rows with windowAt := [(1, 2)], icount := [(1, n)] } }
    let a := mk [(0x70, 2 ^ 48)] 0
    let b := mk [(0x70, 2 ^ 48 + 2 ^ 40)] 0
    isOpen a 1 = true ∧ isOpen b 1 = true ∧
    (tabGet a.rows.windowAt 1 = some 2 ∧ getF a 1 fPersist = 1 ∧ effWpers a 1 = some 7 ∧ 2 + 7 ≤ enabledCycles a (exOf 1) ∧ getF a 1 fBeats = 0 ∧
      codeOf a 1 = 3) ∧
    (tabGet b.rows.windowAt 1 = some 2 ∧ getF b 1 fPersist = 1 ∧ effWpers b 1 = some 7 ∧ 2 + 7 ≤ enabledCycles b (exOf 1) ∧ getF b 1 fBeats ≠ 0) ∧
    (effIlimit (mk [] 5) 1 = some 5 ∧ getF (mk [] 5) 1 fPersist = 0 ∧ 5 ≤ tabGetD (mk [] 5).rows.icount 1 0) ∧
    (effIlimit (mk [] 4) 1 = some 5 ∧ tabGetD (mk [] 4).rows.icount 1 0 < 5) := by decide +kernel

/-- SwitchesAndSuspends: a decision whose areas suffice, with a wet entry, a copy and a message of the outgoing context 0, a copy and a READY row of the
incoming context 1. -/
theorem wit_switchGoesThrough : let w : Switching := ⟨0, 0, 0, 0, false, false, 0, []⟩
    let s := withMem (withRegs (row []) [(supAt 0, 8 + 1 * 16), (supAt 0 + 0x108, 128), (supAt 0 + 0x118, 1), (supAt 0 + 0x20, 160)])
      [(0x5008, 2), (0x5058, 192 * 2 ^ 23), (0x6008, 2 ^ 32)]
    let e : Wet := { id := 0, row := 1, tag := 0, pos := 0, line := 0x140, bytes := [], part := 0, ctx := 0, ex := 0, stage := 1 }
    let c := fun (i r k : Nat) => ({ id := i, row := r, part := 0, ctx := k, ex := 0, group := 0, desc := [], sseg := (0, 0), dseg := (0, 0), readPos := 0,
                                     writePos := 0, fly := [], err := 0, state := 0, readAt := 0 } : Copy)
    let m : Timed := ⟨9, 1, ⟨1, 0, 0, .T, 0, 0, true, 0⟩, .directAccess 7 0⟩
    let s := { s with hub := { s.hub with switching := [w] }, ms := { s.ms with wet := [e] }, eng := { s.eng with copies := [c 3 1 0, c 4 5 1] }, agenda := [m],
                      rows := { s.rows with kinds := [1, 5], wakes := [(1, [5])] } }
    (switchOf s 0 = some w ∧ w.decided = false ∧ switchFits s 0 w.out = true ∧ w.out < 8 ∧ w.out ≠ regBits s (supAt 0) 4 3 ∧ s.hub.suspended = []) ∧
    (5 ∈ s.rows.kinds ∧ partOf s 5 = 0 ∧ ctxOf s 5 = 1 ∧ getF s 5 fCode = 2 ∧ (1, [5]) ∈ s.rows.wakes) ∧ (∀ r ∈ s.rows.kinds, ctxOf s r = 1 → ¬ (getF s r fCode = 5 ∧ getF s r fWhy = 6)) ∧ tabGetD s.hub.cloths (0 * 8 + 1) [] = [] ∧
    caught 0 0 m = true := by decide +kernel

/-- SwitchesAndSuspends: a switch at its time; a decision whose wet area is too small; a context that is live and one that is not; the power states. -/
theorem wit_switchesAndSuspends : let s := withRegs (row []) [(supAt 0, 8)]
    let w : Switching := ⟨0, 0, 0, 0, false, false, 0, []⟩
    let e : Wet := { id := 0, row := 1, tag := 0, pos := 0, line := 0x140, bytes := [], part := 0, ctx := 0, ex := 0, stage := 1 }
    let u := { s with hub := { s.hub with switching := [w] }, ms := { s.ms with wet := [e] } }
    let p := fun (n : Nat) => withRegs s [(powerAt, n)]
    (switchPending s 0 = true ∧ tAnywhere s 0 = true ∧ switchOf s 0 = none) ∧ (switchOf u 0 = some w ∧ w.decided = false ∧ switchFits u 0 w.out = false) ∧
    (ctxLive s 0 (0 % 8) = true ∧ ctxLive s 31 (7 % 8) = false) ∧ pstate (p 2) = 2 ∧ (pstate (p 5) = 5 ∧ pstate (p 5) ≠ 2 ∧ pstate (p 5) ≠ 6) ∧
    (pstate (p 2) ≠ 5 ∧ pstate (p 2) ≠ 7) := by
  intro s w e u p
  rw [tAnywhere_true s 0 (by decide +kernel)]
  exact ⟨⟨by decide +kernel, rfl, by decide +kernel⟩, by decide +kernel, by decide +kernel, by decide +kernel, by decide +kernel, by decide +kernel⟩

/-- NotesLeave: a bad operand, a row, a host endpoint; DEFICIT 63 and below. -/
theorem wit_notesLeave : let s := row [(S 4, 0x5000), (S 5, 0x5001), (S 6, 0x0C0080001000)]
    noteTarget s 1 (getS s 1 4) = .ok 0x5000 ∧ noteTarget s 1 (getS s 1 5) = .error ⟨4, 0, 0x5001, 2⟩ ∧
    noteTarget s 1 (getS s 1 6) = .ok 0x0C0080001000 ∧ getF s 1 fDeficit ≠ 63 ∧ getF (row [(0x60, 63 * 2 ^ 56)]) 1 fDeficit = 63 := by
  simp -zeta only [okIs_iff, errIs_iff]
  decide +kernel

/-- The words of an engaging note of row 5 to row 1. -/
def engaging : List Word := [0x2000000500000000, 1, 2, 3]

/-- NotesLand: a data row; a retired row; eight notes; room for one, and an engaging note of another row. -/
theorem wit_notesLand : engaging.length = 4 ∧ isThread (row []) 5 = false ∧ (isThread (row [(8, 8)]) 1 = true ∧ getF (row [(8, 8)]) 1 fCode = 8) ∧
    (8 ≤ inboxCount (row [(0x68, 0x80)]) 1 ∧ getF (row [(0x68, 0x80)]) 1 fCode ≠ 8) ∧
    (inboxCount (row [(0x68, 0x70)]) 1 < 8 ∧ isThread (row [(0x68, 0x70)]) 1 = true ∧ getF (row [(0x68, 0x70)]) 1 fCode ≠ 8) ∧
    (bitsAt (engaging.getD 0 0).toNat 60 3 = 2 ∧ getF (row []) 1 fEng = 0 ∧ bitsAt (engaging.getD 0 0).toNat 32 28 ≠ 1) := by decide +kernel

/-- NoteLandingActs: a note on its way to row 1. -/
theorem wit_noteLandingActs : let s := row []
    let e : Elem := { addr := 0x1700, size := 32 }
    let q : Req := { row := 5, part := 0, ctx := 0, priv := false, ex := 0, op := .note 0x1000000500000000 1 2 3 false, elems := [e], left := 1 }
    let s := { s with ms := { s.ms with reqs := [(7, q)] }, rows := { s.rows with wiped := [1] } }
    tabGet s.ms.reqs 7 = some q ∧ q.elems = [e] ∧ q.whole = false ∧ placeOf e.addr = .hbm ∧ s.ms.forwards = [] ∧ placeLost s q e.addr = false ∧
    s.lines.latent = [] ∧ holdFor s q e e.addr = .free ∧ s.ms.watches = [] ∧
    s.rows.wiped.contains (e.addr / 4096) = true ∧ tabGetD s.rows.activations (e.addr / 4096) 0 < 4095 := by decide +kernel

/-- SystemNotes: room, a full inbox, a stack under sequencer reset, a data row, a command pending. -/
theorem wit_systemNotes : let n := fun (r : Nat) => (⟨7, r, [0x3000000100000000, 1, 2, 3], 0⟩ : SysNote)
    let mk := fun (r : Nat) (l : List (Nat × Nat)) => let s := row l; ({ s with msg := { s.msg with system := [n r] } } : State)
    (∀ x ∈ [mk 1 [], mk 1 [(0x68, 0x80)]], (x.msg.system.find? fun n => n.id == 7) = some (n 1) ∧ (n 1).id = 7 ∧ x.ms.watches = [] ∧ getF x 1 fPend = 0 ∧
      isThread x 1 = true ∧ getF x 1 fCode ≠ 8 ∧ partOf x 1 = (n 1).part) ∧
    (inboxCount (mk 1 []) 1 < 8 ∧ stackHeld (mk 1 []) (rowDpa 1) = none ∧
      stackHeld { mk 1 [] with hub := { (mk 1 []).hub with seqReset := [(0, 0, 9)] } } (rowDpa 1) ≠ none) ∧ 8 ≤ inboxCount (mk 1 [(0x68, 0x80)]) 1 ∧
    ((mk 1 [(8, 0x13)]).msg.system.find? fun n => n.id == 7) = some (n 1) ∧ isThread (mk 1 [(8, 0x13)]) 1 = true ∧ getF (mk 1 [(8, 0x13)]) 1 fPend = 1 ∧
    ((mk 5 []).msg.system.find? fun n => n.id == 7) = some (n 5) ∧ isThread (mk 5 []) 5 = false ∧ getF (mk 5 []) 5 fPend = 0 := by decide +kernel

/-- Receiving: one note, and none, in a row that may wait. -/
theorem wit_receiving : let s := row []
    choosePos (row [(0x68, 0x10), (0x700, 0x1000000500000000)]) 1 = some 0 ∧ choosePos s 1 = none ∧ getF s 1 fPend = 0 ∧ ctxActive s 1 = true ∧ BlockApart s 1 := by
  unfold BlockApart; decide +kernel

/-- ChannelWords: a word for a live row with room, for one whose FIFO is full, for a retired row; a word on its way to each. -/
theorem wit_channelWords : let e : Endpoint := ⟨1, true, [(2, 9)], [], [], true⟩
    let f : Endpoint := ⟨1, true, [], [(2, 9)], [], false⟩
    let mk := fun (l : List Endpoint) (c : Nat) => let s := withMem (row []) [(0x2008, c)]
      ({ s with msg := { s.msg with ends := l }, rows := { s.rows with kinds := [1, 2] } } : State)
    let full : Endpoint := ⟨2, true, [], [], List.replicate 16 0, false⟩
    let live := fun (s : State) => isThread s 2 = true ∧ getF s 2 fCode ≠ 8
    let room := fun (s : State) => endRoom s 2 = true ∧ ((endOf s 2).map fun x => x.inp.length).getD 0 + movingTo s 2 < 16
    (endOf (mk [e] 3) 1 = some e ∧ live (mk [e] 3) ∧ room (mk [e] 3)) ∧ (endOf (mk [e, full] 3) 1 = some e ∧ live (mk [e, full] 3) ∧ ¬ room (mk [e, full] 3)) ∧
    (endOf (mk [e] 8) 1 = some e ∧ ¬ live (mk [e] 8)) ∧ (endOf (mk [f] 3) 1 = some f ∧ live (mk [f] 3) ∧ (2 : Nat) ≠ 1) ∧
    endRoom (mk [f] 3) 2 = true ∧ (endOf (mk [f] 8) 1 = some f ∧ ¬ live (mk [f] 8)) ∧
    (let w := mk (f :: (List.range 63).map fun i => ⟨1024 * (i + 1), true, [], [], [0], false⟩) 3
     endOf w 1 = some f ∧ live w ∧ endRoom w 2 = false) := by decide +kernel

/-- A sketch of PRIO `p` pushed as number `n` in context `c`. -/
def entry (p n c : Nat) : RackEntry := ⟨[8, 0, 0, BitVec.ofNat 64 p], c, n, none⟩

/-- RackOrder: a rack in order, and a newer entry. -/
theorem wit_rackOrder : [entry 9 1 0, entry 5 2 0, entry 5 0 0].Pairwise (fun x y => leads x y = true) ∧
    ∀ x ∈ [entry 9 1 0, entry 5 2 0, entry 5 0 0], x.order < (entry 7 3 0).order := by decide +kernel

/-- Row 1 in a partition of one slot of each executor, with rack entries at executor 0. -/
def rackRow (l : List (Nat × Nat)) (es : List RackEntry) : State :=
  let s := withRegs (row l) [(layoutAt 0, 1 + (2 ^ 32 - 1) * 2 ^ 32)]
  { s with msg := { s.msg with racks := [(rackKey 0 0 0, es)], pushes := 9 } }

/-- SketchPushes: a bad name; reserved bits; CODE 0; DEFICIT 63; room; a rack full of another context's entries; a rack elsewhere. -/
theorem wit_sketchPushes : let s := rackRow [(S 4, 8), (S 8, 2 ^ 19), (S 9, 1), (S 11, 2 ^ 40), (0x60, 63 * 2 ^ 56)] []
    let u := rackRow [(S 4, 8)] [entry 0 1 1, entry 0 0 1]
    let k := rackKey 0 (exOf 1) (partOf s 1)
    (rackName (exOf 1) (src s 8) = none ∧ rackName (exOf 1) (src s 10) = some (exOf 1, 0) ∧ bitsAt (getS s 1 5).toNat 0 40 = 0 ∧
      bitsAt (getS s 1 4).toNat 0 40 ≠ 0 ∧ bitsAt (getS s 1 4).toNat 40 24 = 0 ∧ bitsAt (getS s 1 11).toNat 40 24 ≠ 0 ∧ getF s 1 fDeficit = 63 ∧
      rackCount s k + 1 + blockSize s (partOf s 1) ≤ rackShare s k ∧
      (rackShare u k ≤ rackCount u k ∧ (moveUp u (ctxOf u 1) 3 k).isNone = true ∧ ∀ m ∈ u.msg.moves, m.src ≠ k)) ∧
    (∃ t, rackName (exOf 1) (src s 9) = some (t, 0) ∧ (t, 0) ≠ (exOf 1, 0)) := by
  exact ⟨by decide +kernel, 32, by decide +kernel⟩

/-- SketchTakes: an entry at both ends; none; one in the studio's rack; a bad name and a rack elsewhere. -/
theorem wit_sketchTakes : let s := rackRow [(S 8, 2 ^ 19), (S 9, 1)] [entry 1 1 0, entry 0 0 0]
    let n := rackRow [] []
    let up := { n with msg := { n.msg with racks := [(rackKey 1 0 0, [entry 0 0 0])] } }
    let k := rackKey 0 (exOf 1) (partOf s 1)
    ((rackOf s k (ctxOf s 1)).head? = some (entry 1 1 0)) ∧ (rackName (exOf 1) (src s 10) = some (exOf 1, 0) ∧ (rackOf s k (ctxOf s 1)).getLast? = some (entry 0 0 0)) ∧
    (rackOf n k (ctxOf n 1) = [] ∧ (pullDown n (ctxOf n 1) 3 k).isNone = true) ∧ (rackOf up k (ctxOf up 1) = [] ∧ (pullDown up (ctxOf up 1) 3 k).isSome = true) ∧
    rackName (exOf 1) (src s 8) = none ∧ rackName (exOf 1) (src s 9) = some (32, 0) ∧ ((32, 0) : Nat × Nat) ≠ (exOf 1, 0) := by decide +kernel

/-- RackEvents: an operation that finds room; a block on its way down; a held continuation with room, and one without; an awaited push of either
kind, an awaited take with an entry and without one. -/
theorem wit_rackEvents : let s := let s := rackRow [] []; { s with clk := { s.clk with ids := 8 } }
    let o : RackOp := ⟨7, 1, 0, 0, rackKey 0 0 0, 0, some (entry 0 0 0), false, false, 12⟩
    let m : RackMove := ⟨7, rackKey 1 0 0, rackKey 0 0 0, 0, [entry 0 0 0]⟩
    let h : HeldPush := ⟨7, rackKey 0 0 0, 0, entry 0 0 0⟩
    let a := { s with msg := { s.msg with rackOps := [o] } }
    let f := rackRow [] [entry 0 1 1, entry 0 0 1]
    ((a.msg.rackOps.find? fun o => o.id == 7 && !o.wait) = some o ∧ o.push = some (entry 0 0 0) ∧
      rackCount a o.rack + 1 + blockSize a (rackPart o.rack) ≤ rackShare a o.rack ∧ o.d = 0 ∧ o.delay ≠ 0) ∧
    (([m].find? fun m => m.id == 7) = some m ∧ 7 < s.clk.ids ∧ (∀ o ∈ s.msg.rackOps, o.wait = false) ∧ rackLevel m.dst = 0 ∧ rackCount s m.src + 1 + blockSize s m.part ≤ rackShare s m.src) ∧ ([h].find? fun h => h.id == 7) = some h ∧
    rackCount s h.rack + 1 + blockSize s (rackPart h.rack) ≤ rackShare s h.rack ∧ rackShare f h.rack ≤ rackCount f h.rack ∧
    (let w := fun (s : State) (o : RackOp) => ({ withMem s [(0x1008, 4 + 256), (0x1060, 2 ^ 56)] with msg := { s.msg with rackOps := [o], heldPush := [h] } } : State)
     let p : RackOp := { o with d := 3, push := some { entry 0 0 0 with engager := some 1 } }
     let k : RackOp := { o with d := 3, push := none, fromLast := true }
     let e := rackRow [] [entry 0 1 0]
     (∀ x ∈ [(s, p), (f, p), (s, k), (e, k)], let u := w x.1 x.2
       (u.msg.rackOps.find? fun o => o.id == 7 && !o.wait) = some x.2 ∧ x.2.row < 2 ^ 28 ∧ getF u x.2.row fCode = 4 ∧ x.2.delay ≠ 0) ∧
     rackCount (w s p) p.rack + 1 + blockSize (w s p) (rackPart p.rack) ≤ rackShare (w s p) p.rack ∧
     (rackShare (w f p) p.rack ≤ rackCount (w f p) p.rack ∧ (∀ m ∈ (w f p).msg.moves, m.src ≠ p.rack) ∧ (moveUp (w f p) 0 3 p.rack).isNone = true ∧
       isThread (w f p) 1 = true) ∧
     rackOf (w s k) k.rack k.ctx = [] ∧ (rackOf (w e k) k.rack k.ctx).getLast? = some (entry 0 1 0) ∧
     -- the held continuation at a full rack that nothing leaves, and at one that a block leaves
     (moveUp { w f p with msg := { (w f p).msg with heldPush := [] } } h.entry.ctx 3 h.rack).isNone = true ∧
     (let v := { w f p with msg := { (w f p).msg with moves := [{ m with src := h.rack, dst := rackKey 1 0 0 }] } }
      rackShare v h.rack ≤ rackCount v h.rack ∧ ∃ m ∈ v.msg.moves, m.src = h.rack)) := by decide +kernel

/-- LateralShipments: executor 0 with two entries and MARGIN 1, executor 1 with none, executor 32 with one. -/
theorem wit_lateralShipments : let s := withRegs (rackRow [] [entry 0 1 0, entry 0 0 0]) [(rackWord 0 0 0x18, 1 + 256)]
    let s := { s with msg := { s.msg with racks := s.msg.racks ++ [(rackKey 0 32 0, [entry 0 2 0])] } }
    let z := withRegs s [(rackWord 0 0 0x18, 256)]
    slotSet s 0 ≠ 0 ∧ (∀ q < 32, q ≠ 0 → slotSet s q = 0) ∧ bitsAt (balOf z 0 0) 0 8 = 0 ∧
    bitsAt (balOf s 0 0) 0 8 ≠ 0 ∧ s.clk.now % (1024 * bitsAt (balOf s 0 0) 0 8) = 0 ∧
    1 ∈ (neighbours 0).filter (fun x => bitAt (balOf s 0 0) 16 || stackOf x == stackOf 0) ∧
    (∀ x ∈ (neighbours 0).filter (fun x => bitAt (balOf s 0 0) 16 || stackOf x == stackOf 0), x ≠ 1 → rackCount s (rackKey 0 1 0) < rackCount s (rackKey 0 x 0)) ∧
    rackCount s (rackKey 0 1 0) + bitsAt (balOf s 0 0) 8 8 ≤ rackCount s (rackKey 0 0 0) ∧
    rackCount s (rackKey 0 1 0) + blockSize s 0 ≤ rackShare s (rackKey 0 1 0) ∧ lastN (blockSize s 0) (rackOf s (rackKey 0 0 0) (activeCtx s 0)) ≠ [] := by
  decide +kernel

/-- BalancingWords, JoinDecrements: the last good word; a continuation with reserved bits and one without; a counter that is misaligned,
unhomed, foreign, a CMD word, and a good one. -/
theorem wit_balanceAndCount : let s := row [(S 4, 2 ^ 17), (S 5, 2 ^ 17 - 1), (S 6, 0x5004), (S 7, 0x010000000000), (S 8, 0x1000), (S 9, 0x5008), (S 10, 2 ^ 63), (S 11, 2 ^ 40 - 1)]
    let u := withRegs (row [(S 4, 0x2000000)]) [(layoutAt 0, 2 ^ 32 - 1 + 2 ^ 32)]
    bitsAt (getS s 1 10).toNat 40 24 ≠ 0 ∧ bitsAt (getS s 1 11).toNat 40 24 = 0 ∧ 2 ^ 17 ≤ src s 4 ∧ src s 5 < 2 ^ 17 ∧ src s 6 % 8 ≠ 0 ∧ (src s 7 % 8 = 0 ∧ ¬ (placeOf (src s 7) = .hbm ∨ placeOf (src s 7) = .palette)) ∧
    (src u 4 % 8 = 0 ∧ placeOf (src u 4) = .hbm ∧ dpaChecks u (partOf u 1) (isPriv u 1) true (src u 4) = some (3, 0x11)) ∧
    (src s 8 % 8 = 0 ∧ placeOf (src s 8) = .hbm ∧ dpaChecks s (partOf s 1) (isPriv s 1) true (src s 8) = none ∧ touchesCmd s (src s 8) 8 = true) ∧
    (src s 9 % 8 = 0 ∧ placeOf (src s 9) = .hbm ∧ dpaChecks s (partOf s 1) (isPriv s 1) true (src s 9) = none ∧ touchesCmd s (src s 9) 8 = false ∧
      (∀ w ∈ s.ms.wet, w.row ≠ 1) ∧ (∀ e ∈ s.ms.reqs, e.2.row ≠ 1)) := by decide +kernel

/-- Termination: not engaged; engaged with a deficit, without; a root without a region, and one with a completion address. -/
theorem wit_termination : let eng := 2 ^ 62 + 5 * 2 ^ 28
    let a := row [(0x60, eng + 2 ^ 56)]
    let b := row [(0x60, eng)]
    let c := row [(0x60, 2 ^ 62 + 2 ^ 28)]
    let d := regionRow [(0x60, 2 ^ 62 + 2 ^ 28)] [(8, 2 ^ 6), (0x38, 0x6000), (0x40, 77)]
    let idle := fun (s : State) => (∀ x ∈ s.ms.wet, x.row ≠ 1) ∧ (∀ e ∈ s.ms.reqs, e.2.row ≠ 1)
    let busy := fun (s : State) => getF s 1 fDeficit ≠ 0 ∨ engageWaits s 1 = true
    getF (row []) 1 fEng = 0 ∧ (getF a 1 fEng = 1 ∧ getF a 1 fParent ≠ 1 ∧ idle a ∧ busy a) ∧ (getF b 1 fEng = 1 ∧ getF b 1 fParent ≠ 1 ∧ idle b ∧ ¬ busy b) ∧
    (getF c 1 fEng = 1 ∧ getF c 1 fParent = 1 ∧ getF c 1 fRegion = 0 ∧ idle c ∧ ¬ busy c) ∧
    (getF d 1 fEng = 1 ∧ getF d 1 fParent = 1 ∧ getF d 1 fRegion ≠ 0 ∧ effCaddr d 1 = some 0x6000 ∧ effCval d 1 = some 77 ∧
      dpaChecks d (partOf d 1) (isPriv d 1) true 0x6000 = none ∧ idle d ∧ ¬ busy d) ∧
    (getF a 1 fPend = 0 ∧ isThread a 1 = true ∧ getF a 1 fCode ≠ 8) := by decide +kernel

/-- A row whose descriptor at 0x800 copies 64 bytes from sg3 to sg3 + 0x800, one row of one plane; the one at 0x840 copies none. -/
def copyRow (l : List (Nat × Nat)) : State :=
  meshRow ([(0x800, 3 * 2 ^ 48), (0x808, 0x800 + 3 * 2 ^ 48), (0x810, 64 + 2 ^ 32 + 2 ^ 48), (S 4, 0x808), (S 5, 0x7F0), (S 6, 0xFE0), (S 7, 0x840),
    (S 8, 0x800), (S 9, 0xFD0)] ++ l)

/-- The descriptor of row 1 at an offset. -/
def descAt (s : State) (a : Nat) : Copy := copyOfDesc s 1 0 ((List.range 6).map fun i => BitVec.ofNat 64 (rowNat s 1 (a + 8 * i) 8))

/-- CopyStarts: misaligned, out of bounds on both sides, malformed, refused, with a free record, and with none. -/
theorem wit_copyStarts : let s := copyRow []
    let u := withRegs s [(layoutAt 0, (2 ^ 32 - 1) * 2 ^ 32)]
    src s 4 % 16 ≠ 0 ∧ (src s 5 % 16 = 0 ∧ src s 5 < 0x800) ∧ (src s 6 % 16 = 0 ∧ 0xFD0 < src s 6) ∧
    (src s 7 % 16 = 0 ∧ 0x800 ≤ src s 7 ∧ src s 7 ≤ 0xFD0 ∧ descBad s (descAt s (src s 7)) = true) ∧ (src s 9 % 16 = 0 ∧ src s 9 ≤ 0xFD0) ∧
    cpyCheck s 1 (src s 4) (descAt s (src s 4)) = some ⟨4, 0, 0x808, 0⟩ ∧
    (cpyCheck s 1 (src s 8) (descAt s (src s 8)) = none ∧ copyRoom s 1 = true) ∧
    (cpyCheck u 1 (src u 8) (descAt u (src u 8)) = none ∧ copyRoom u 1 = false ∧ getF u 1 fPend = 0 ∧ ctxActive u 1 = true ∧ BlockApart u 1) := by
  unfold BlockApart; decide +kernel

/-- CopyQueries: masks 256 and 255; no copy, an ended one, and one under way. -/
theorem wit_copyQueries : let s := copyRow [(S 10, 256), (S 11, 255)]
    let c := descAt s 0x800
    let mine := fun (c : Copy) => c.row = 1 ∧ bitAt (src s 11) c.group = true
    let u := { s with eng := { s.eng with copies := [c] } }
    256 ≤ src s 10 ∧ src s 11 < 256 ∧ (∀ x ∈ [{ c with state := 2 }], mine x → x.state = 2) ∧ (∃ x ∈ u.eng.copies, mine x ∧ x.state ≠ 2) ∧
    (getF u 1 fPend = 0 ∧ ctxActive u 1 = true ∧ BlockApart u 1) := by
  unfold BlockApart; decide +kernel

/-- CopyPieces: the one piece of the copy before its read and before its write; a studio whose piece slots of the cycle are spent; a copy with an error. -/
theorem wit_copyPieces : let s := copyRow []
    let c := descAt s 0x800
    let u := { s with clk := { s.clk with now := 1 }, eng := { s.eng with copies := [c] } }
    let z := { u with eng := { u.eng with copySlots := [(0, (1, 4))] } }
    let w := { c with readPos := 64, fly := [⟨0x5800, 0, List.replicate 64 5, false, 9⟩] }
    let v := { s with eng := { s.eng with copies := [w] } }
    (copyOf u 1 = some c ∧ c.state = 0 ∧ c.err = 0 ∧ c.readPos < cpyTotal c ∧ c.fly = [] ∧ (∀ x ∈ u.eng.copies, x.id = 1) ∧ cpyPot c = false ∧ cpyPeer c = 0 ∧
      cpyReach u c (cpySseg c) (cpySrcOff c c.readPos) 0 = .at_ 0x5000 0 ∧ cpyReach u c (cpyDseg c) (cpyDstOff c c.readPos) 1 = .at_ 0x5800 0 ∧
      pieceLen c c.readPos ≤ 64 - ((cpySseg c).base + cpySrcOff c c.readPos).toNat % 64 ∧ c.gate = 0 ∧ c.readAt ≤ u.clk.now ∧
      slotsLeft u (studioOf c.ex) ≠ 0 ∧ forwardOf u 0x5000 ≠ .busy ∧
      holdFor u { row := 2 ^ 28, part := c.part, ctx := c.ctx, priv := false, ex := c.ex, path := .C } { size := pieceLen c c.readPos } 0x5000 = .free ∧ c.out = false ∧
      isReg 0x5000 = false ∧ u.lines.latent = []) ∧
    (copyOf z 1 = some c ∧ slotsLeft z (studioOf c.ex) = 0) ∧
    (copyOf v 1 = some w ∧ w.fly = ⟨0x5800, 0, List.replicate 64 5, false, 9⟩ :: [] ∧ v.ms.forwards = [] ∧ v.ms.watches = [] ∧ placeOf 0x5800 = .hbm ∧
      isThread v (0x5800 / 4096) = false ∧ isBlock v 0x5800 = false ∧ isBlock v (0x5800 + 64 - 1) = false ∧ inHeader v 0x5800 64 = false ∧ v.lines.latent = [] ∧
      holdFor v { row := 2 ^ 28, part := w.part, ctx := w.ctx, priv := isPriv v w.row, ex := w.ex, path := .C, op := .write false } { size := 64 } 0x5800 = .free ∧
      w.err = 0 ∧ w.state = 0 ∧ cpyTotal w ≤ w.writePos + 64) ∧ ({ c with err := 1 }.err ≠ 0) := by decide +kernel

/-- Row 1 with pot 0 of its studio: two slots of two lines at palette offset 0, and the row waiting for an operation. -/
def potRow (w0 w1 w2 : Nat) (q : PotReq) : State :=
  let s := withRegs (row [(8, 4 + 8 * 256)]) [(potAt 0 0 0, w0), (potAt 0 0 8, w1), (potAt 0 0 0x10, w2)]
  { s with eng := { s.eng with pots := [q] } }

/-- The first word of that pot, active in context 0. -/
def potWord : Nat := 2 * 2 ^ 32 + 2 ^ 43 + 2 ^ 51

/-- PotInstructions: a pot of the studio and a bad name. -/
theorem wit_potInstructions : let s := row [(S 4, 2 ^ 16), (S 5, 2 ^ 17)]
    potName s 1 (getS s 1 4) true = .ok 0 ∧ potName s 1 (getS s 1 4) false = .ok 0 ∧ potName s 1 (getS s 1 5) true = .error ⟨1, 0, 2 ^ 17, 0⟩ := by
  simp -zeta only [okIs_iff, errIs_iff]
  decide +kernel

/-- PotOperations: a pot of another context, an inactive one, and each case of a put, a get and a release. -/
theorem wit_potOperations : let q := fun (k : Nat) => (⟨7, k, 1, 0, 0, 0, 3, true, List.replicate 64 1, [0], false, 0⟩ : PotReq)
    let base := fun (s : State) (q : PotReq) => (s.eng.pots.find? fun q => q.id == 7) = some q ∧ getF s q.row fCode = 4 ∧ q.wait = true ∧ q.row < 2 ^ 28 ∧ q.kind ≤ 2 ∧
      potHolder s q = none ∧ (∀ x ∈ s.eng.pots, x.held = false) ∧ s.eng.copies = [] ∧ s.ms.watches = [] ∧ getF s q.row fPend = 0 ∧ isKilled s q.row = false ∧
      watchdogDue s q.row = false
    let mine := fun (s : State) (q : PotReq) => potActive s q.pot = true ∧ potCtx s q.pot = q.ctx
    let at_ := fun (s : State) (q : PotReq) (a : Nat) => placeOf a = .palette ∧ q.line.length = 64 ∧ isBlock s a = false ∧ isBlock s (a + 63) = false ∧
      inHeader s a 64 = false
    let fillable := fun (s : State) (q : PotReq) => at_ s q (potLineAt s q.pot)
    let opens := fun (s : State) (q : PotReq) => base s q ∧ mine s q ∧ potOpen s 0 = false ∧ potFree s 0 ≠ 0 ∧ at_ s q (potSlotAt s 0 (potF s 0 0x10 0 8) 0)
    let foreign := potRow (potWord + 2 ^ 52) 2 0 (q 0)
    let off := potRow 0 0 0 (q 2)
    let first := potRow potWord (2 ^ 63 + 1) 0 (q 0)
    let last := potRow potWord (2 ^ 63 + 2 ^ 48 + 1) 0 (q 0)
    let full := potRow potWord (2 * 2 ^ 16) 0 (q 0)
    let get := potRow potWord (2 ^ 16 + 1) 0 (q 1)
    let dry := potRow potWord 2 0 (q 1)
    let rel0 := potRow potWord 2 0 (q 2)
    let rel := potRow potWord (2 ^ 32 + 1) 0 (q 2)
    (base foreign (q 0) ∧ potActive foreign 0 = true ∧ potCtx foreign 0 ≠ 0) ∧ (base off (q 2) ∧ potActive off 0 = false) ∧
    (base first (q 0) ∧ mine first (q 0) ∧ potOpen first 0 = true ∧ potFillPos first 0 + 1 < potSlot first 0 ∧ fillable first (q 0)) ∧
    (base last (q 0) ∧ mine last (q 0) ∧ potOpen last 0 = true ∧ potFillPos last 0 + 1 = potSlot last 0 ∧ fillable last (q 0)) ∧
    (opens (potRow potWord 2 0 (q 0)) (q 0) ∧ 1 < potSlot (potRow potWord 2 0 (q 0)) 0) ∧
    (opens (potRow (potWord - 2 ^ 32) 2 0 (q 0)) (q 0) ∧ potSlot (potRow (potWord - 2 ^ 32) 2 0 (q 0)) 0 = 1) ∧
    (base full (q 0) ∧ mine full (q 0) ∧ potOpen full 0 = false ∧ potFree full 0 = 0) ∧ (base get (q 1) ∧ mine get (q 1) ∧ potFilled get 0 ≠ 0) ∧
    (base dry (q 1) ∧ mine dry (q 1) ∧ potFilled dry 0 = 0) ∧ (base rel0 (q 2) ∧ mine rel0 (q 2) ∧ potTaken rel0 0 = 0) ∧
    (base rel (q 2) ∧ mine rel (q 2) ∧ potTaken rel 0 ≠ 0) := by decide +kernel

/-- PotSettings: a busy pot; clearing; a misaligned base; a pot past the palette's end; the last one inside it. -/
theorem wit_potSettings : let q := fun (c b n : Nat) => (⟨7, 3, 1, 0, 0, 0, 3, true, [], [c, b, 2, n], false, 0⟩ : PotReq)
    let base := fun (s : State) (q : PotReq) => (s.eng.pots.find? fun q => q.id == 7) = some q ∧ getF s q.row fCode = 4 ∧ q.wait = true ∧ q.row < 2 ^ 28 ∧ q.kind = 3 ∧
      (∀ x ∈ s.eng.pots, x.held = false) ∧ s.eng.copies = []
    let busy := fun (s : State) => potActive s 0 = true ∧ (potOpen s 0 = true ∨ potFilled s 0 ≠ 0 ∨ potTaken s 0 ≠ 0)
    let inside := fun (s : State) (b n : Nat) => b + 64 * 2 * (n + 1) ≤ 2 ^ 23 ∧
      ∀ i ≤ (b + 64 * 2 * (n + 1) - 1) / 2 ^ 18, b / 2 ^ 18 ≤ i → bitAt (bankSet s 0) i = true
    let s := fun (x : PotReq) => potRow potWord 2 0 x
    (base (potRow potWord (2 ^ 16) 0 (q 0 0 1)) (q 0 0 1) ∧ busy (potRow potWord (2 ^ 16) 0 (q 0 0 1))) ∧
    (base (s (q 1 0 0)) (q 1 0 0) ∧ ¬ busy (s (q 1 0 0))) ∧ (base (s (q 0 32 0)) (q 0 32 0) ∧ ¬ busy (s (q 0 32 0)) ∧ (32 : Nat) % 64 ≠ 0) ∧
    (base (s (q 0 (2 ^ 23 - 64) 0)) (q 0 (2 ^ 23 - 64) 0) ∧ (2 ^ 23 - 64) % 64 = 0 ∧ ¬ inside (s (q 0 (2 ^ 23 - 64) 0)) (2 ^ 23 - 64) 0) ∧
    (base (s (q 0 (2 ^ 23 - 128) 0)) (q 0 (2 ^ 23 - 128) 0) ∧ ¬ busy (s (q 0 (2 ^ 23 - 128) 0)) ∧ inside (s (q 0 (2 ^ 23 - 128) 0)) (2 ^ 23 - 128) 0) := by
  decide +kernel

/-- A row with MXE that holds the unit of executor 0, with its context's record. -/
def unitRow (l : List (Nat × Nat)) : State :=
  let s := meshRow ([(0x70, 2 ^ 50)] ++ l)
  { s with eng := { s.eng with units := [(0, ⟨some 1, 0, 0, 0x0B * 2 ^ 5, accEmpty, [], none⟩)], records := [(recordKey 0 0 0, ⟨1, true, false, 0x10, 0⟩)] } }

/-- TakingTheUnit: no MXE; each fault; a free unit; the record's owner; another row's record. -/
theorem wit_takingTheUnit : let s := meshRow [(0x70, 2 ^ 50), (S 4, 0x10000), (S 5, 0x10001), (S 6, 0x1FF7000), (S 7, 0x010000000000)]
    let u := unitRow [(S 4, 0x10000)]
    let o := { u with eng := { u.eng with records := [(recordKey 0 0 0, ⟨9, true, false, 0x10, 0⟩)] } }
    getF (row []) 1 fMxe = 0 ∧ (getF s 1 fMxe = 1 ∧ src s 5 % 4096 ≠ 0) ∧ (src s 6 % 4096 = 0 ∧ 8182 < src s 6 / 4096 % 2 ^ 13) ∧
    (src s 7 % 4096 = 0 ∧ placeOf (src s 7) ≠ .hbm) ∧ mownCheck s 1 0x1000 = some ⟨3, 0x10, 0x1000, 2⟩ ∧
    (mownCheck s 1 (src s 4) = none ∧ recordAt s 0 0 0 = none ∧ (unitAt s 0).holder = none) ∧
    (mownCheck u 1 (src u 4) = none ∧ recordAt u 0 0 0 = some ⟨1, true, false, 0x10, 0⟩) ∧
    (mownCheck o 1 (src o 4) = none ∧ recordAt o 0 0 0 = some ⟨9, true, false, 0x10, 0⟩ ∧ (9 : Nat) ≠ 1) := by decide +kernel

/-- UnitRegisters: no holder; the holder; a reserved rounding mode and a good word; the band of the last row and a bad one. -/
theorem wit_unitRegisters : let u := unitRow [(S 4, 5 * 4), (S 5, 3 * 2 ^ 5), (S 6, 63 + 2 ^ 6), (S 7, 63 + 2 * 2 ^ 6)]
    let n := row [(0x70, 2 ^ 50)]
    ((unitAt n 0).holder ≠ some 1 ∧ spilledOwner n 1 = false) ∧ ((unitAt u 0).holder = some 1 ∧ (unitAt u 0).spillEnds = none) ∧ mcfgBad (src u 4) = true ∧ mcfgBad (src u 5) = false ∧
    bandOf (getS u 1 6) = some (63, 1, 0) ∧ bandOf (getS u 1 7) = none := by decide +kernel

/-- UnitRestores: a holder whose unit is being spilled; a spilled owner whose unit is free, one that names a good area, and one that waits for its restore. -/
theorem wit_unitRestores : let mk := fun (l : List (Nat × Nat)) => let s := row ([(0x70, 2 ^ 50), (S 4, 0x10000)] ++ l)
      ({ s with eng := { s.eng with records := [(recordKey 0 0 0, ⟨1, true, true, 0x10, 0x60⟩)] } } : State)
    let b := row []
    let b := { b with eng := { b.eng with units := [(0, ⟨some 1, 0, 0, 0, accEmpty, [], some 9⟩)] } }
    ((unitAt b (exOf 1)).holder = some 1 ∧ (unitAt b (exOf 1)).spillEnds ≠ none) ∧ mownCheck (mk []) 1 (src (mk []) 4) = none ∧
    (mk [(8, 4)]).lines.latent = [] ∧ poisonedLine (mk [(8, 4)]) (0x10 * 4096) 40960 = none ∧ stackHeld (mk [(8, 4)]) (0x10 * 4096) = none ∧ (unitAt (mk [(8, 4)]) (exOf 1)).holder = none ∧
    ownRecord (mk []) 1 = some ⟨1, true, true, 0x10, 0x60⟩ ∧ (mk []).clk.cur = 1 ∧ (unitAt (mk []) (exOf 1)).holder ≠ some 1 ∧
    (unitAt (mk []) (exOf 1)).holder = none ∧ (ownRecord (mk [(8, 4)]) 1 = some ⟨1, true, true, 0x10, 0x60⟩ ∧ getF (mk [(8, 4)]) 1 fCode = 4) := by decide +kernel

/-- MatrixSteps: two f16 operands of the palette; a step that PROGRESS counts; a bad operand; the end of a step that is the last, and of one that is not. -/
theorem wit_matrixSteps : let l := [(S 4, 9 * 2 ^ 23 + 64 * 2 ^ 32), (S 6, 9 * 2 ^ 23 + 128 * 2 ^ 32)]
    let s := unitRow l
    let o : MmaX := ⟨4, 6, 0, 0, 0, 2⟩
    let x : StepRun := { row := 1, instr := .mma o, step := 1, left := 0, startAt := 0, begun := true, ended := true, tmp := 0, fl := 0 }
    let at_ := fun (k : Nat) => let u := unitRow ([(8, 4)] ++ l)
      ({ u with eng := { u.eng with mma := [(0, { x with step := k })] } } : State)
    let d := unitRow ([(0x40, 2 + 0xDC * 2 ^ 32 + 2 ^ 40)] ++ l)
    ((unitAt s 0).holder = some 1 ∧ (unitAt s 0).spillEnds = none) ∧ mmaCheck s 1 o 0 = none ∧ mmaCheck s 1 { o with n := 0 } 0 = none ∧ (0 : Nat) < o.n.toNat ∧
    (getF d 1 fValid = 1 ∧ getF d 1 Machine.fMajor = 0xDC ∧ mmaCheck d 1 o (getF d 1 fStep) = none ∧ o.n.toNat ≤ getF d 1 fStep) ∧
    mmaCheck s 1 { o with a := 8 } 0 = some (instrFault s 1 1 0) ∧
    (∀ k ∈ [0, 1], tabGet (at_ k).eng.mma 0 = some { x with step := k } ∧ (∀ h ∈ (at_ k).rows.stepHeld, h.1 ≠ 1) ∧ k < 2 ^ 32 - 1) ∧ (1 + 1 = o.n.toNat) ∧
    (0 + 1 ≠ o.n.toNat ∧ Calm (at_ 0) 1 ∧ watchdogDue (at_ 0) 1 = false ∧ getF (at_ 0) 1 fCode = 4 ∧ 0 = exOf 1 ∧
      mmaCheck (setF (at_ 0) 1 fProgress (0 + 1 + 0xDC * 2 ^ 32 + 2 ^ 40)) 1 o (0 + 1) = none) := by
  unfold Calm; decide +kernel

/-- MatrixArithmetic: ones against ones add 32 to an empty accumulator. -/
theorem wit_matrixArithmetic : let v := (List.range 32).foldl (fun n k => n + 2 ^ (32 * k)) 0
    let d : StepData := ⟨0x03, 0x03, fun _ => v, fun _ => v, fun _ => 0, fun _ => 0, true⟩
    let sum := ((List.range 32).map fun k => signedOf 32 (elemAt 32 (aElem d 0 k).1 (aElem d 0 k).2) *
      signedOf 32 (elemAt 32 (bElem d 0 k).1 (bElem d 0 k).2)).foldl (· + ·) (0 : Int)
    d.fa = 0x03 ∧ accEmpty = ⟨0, -32767⟩ ∧ sum = 32 := by decide +kernel

/-- What an operand of MST or MLD resolves to, when it meets `c`. -/
def resolves (x : Except FaultRec (Nat × Nat × List Elem)) (c : Nat × Nat × List Elem → Bool) : Bool :=
  match x with
  | .ok y => c y
  | .error _ => false

/-- AccumulatorRows: the last row to sg3 and from it; a band of no row; the last reply of an MLD. -/
theorem wit_accumulatorRows : let s := unitRow [(S 5, 63 + 2 ^ 6 + 256 * 2 ^ 16)]
    let m : XMem := ⟨3, false, 0, 0⟩
    let clean := fun (s : State) (wr : Bool) (x : Nat × Nat × List Elem) => decide (x.1 = 63 ∧ x.2.1 = 1 ∧ x.2.2 ≠ [] ∧
      ∀ e ∈ x.2.2, ownGround 1 e = false ∧ e.pre = none ∧ dpaChecks s (partOf s 1) (isPriv s 1) wr e.addr = none ∧
        ∀ i < e.size, dpaChecks s (partOf s 1) (isPriv s 1) wr (e.addr + i) = none)
    let q : Req := { row := 1, part := 0, ctx := 0, priv := false, ex := 0, path := .M, left := 1, dest := .acc 0x0B (63 + 64 * 1), wait := true }
    let u := unitRow [(8, 4)]
    let u := { u with ms := { u.ms with reqs := [(0, q)] } }
    (unitAt s 0).holder = some 1 ∧ (unitAt s 0).spillEnds = none ∧ (memSeg s m).kind ≠ 0 ∧ (memSeg s m).kind ≠ 4 ∧ accRowBytes ((unitAt s 0).mcfg / 2 ^ 5 % 2 ^ 5) = 256 ∧
    resolves (bandOperand s 1 m (getS s 1 5) 256 true) (clean s true) = true ∧ resolves (bandOperand s 1 m (getS s 1 5) (accRowBytes 0x0B) false) (clean s false) = true ∧
    resolves (bandOperand s 1 m (getS s 1 6) 256 true) (fun _ => true) = false ∧
    (tabGet u.ms.reqs 0 = some q ∧ q.left ≤ 1 ∧ q.fault = none ∧ q.need = 0 ∧ q.dest = .acc 0x0B (63 + 64 * 1) ∧ (unitAt u 0).holder = some 1 ∧
      getF u 1 fCode = 4 ∧ Calm u 1 ∧ watchdogDue u 1 = false) := by
  unfold Calm; decide +kernel

/-- ReductionSums: a bad cell and cell 15 of executor 33; the last accumulator and the first past it; a pair at its own cell and at a foreign one. -/
theorem wit_reductionSums : let s := unitRow [(S 4, 0x20), (S 5, 0x00F00101), (S 6, 4095), (S 7, 4096)]
    let p : List Int := [(543 : Nat), 1, 0, (0 : Nat), (1 : Nat), (3 : Nat), (24 : Nat), 0]
    let mk := fun (o : Nat) => ({ s with eng := { s.eng with bsums := [(7, p)], cells := [(543, ⟨o, accEmpty, false⟩)] } } : State)
    cellName 0 (src s 4) = none ∧ cellName 0 (src s 5) = some (543, 0) ∧ src s 6 < 4096 ∧ 4096 ≤ src s 7 ∧
    ((unitAt s 0).holder = some 1 ∧ (unitAt s 0).spillEnds = none) ∧
    (tabGet (mk 0).eng.bsums 7 = some p ∧ tabGet (mk 0).eng.cells 543 = some ⟨0, accEmpty, false⟩) ∧
    (tabGet (mk 9).eng.bsums 7 = some p ∧ tabGet (mk 9).eng.cells 543 = some ⟨9, accEmpty, false⟩ ∧ (9 : Nat) ≠ 0) := by decide +kernel

/-- ReductionCells: cell 16 and cell 15; unclaimed, the own partition's, another's. -/
theorem wit_reductionCells : let s := row [(S 4, 16), (S 5, 15)]
    let mk := fun (p : Nat) => ({ s with eng := { s.eng with cells := [(15, ⟨p, accEmpty, false⟩)] } } : State)
    16 ≤ src s 4 ∧ src s 5 < 16 ∧ tabGet s.eng.cells (16 * exOf 1 + src s 5) = none ∧
    (tabGet (mk 0).eng.cells (16 * exOf 1 + src (mk 0) 5) = some ⟨0, accEmpty, false⟩ ∧ 0 = partOf (mk 0) 1) ∧
    (tabGet (mk 9).eng.cells (16 * exOf 1 + src (mk 9) 5) = some ⟨9, accEmpty, false⟩ ∧ 9 ≠ partOf (mk 9) 1) := by decide +kernel

/-- Memory of a tile of 4 by 4 one-bit cells, totalistic, at palette offset 0: pitch 16, planes at 0x1000, table at 0x2000. -/
def tileRow (l : List (Nat × Nat)) : State :=
  withMem (meshRow l) [(paletteBase, 4 + 4 * 2 ^ 16 + 2 ^ 42), (paletteBase + 8, 0x1000 + 16 * 2 ^ 32), (paletteBase + 0x10, 0x2000)]

/-- RuleInstructions: S[a] too great, misaligned, a good header; the source of a table, and one that fails. -/
theorem wit_ruleInstructions : let s := tileRow [(S 4, 2 ^ 23), (S 5, 32)]
    let t := tileAt s 0 0
    let g := getSeg s 1 3
    (isOpen s 1 = true ∧ s.lines.latent = [] ∧ poisonedLine s (studioPalette (studioOf (exOf 1)) + 0) 64 = none) ∧
    2 ^ 23 ≤ src s 4 ∧ (src s 5 < 2 ^ 23 ∧ src s 5 % 64 ≠ 0) ∧ tileCheck s 1 (partOf s 1) t = none ∧ headerCheck s 1 0 = .ok t ∧
    headerCheck s 1 (src s 5) = .error ⟨4, 0, 32, 5⟩ ∧ haloBanks s 1 t = none ∧ segChecks s 1 g 0 { rd := true, size := t.tableBytes } = .ok 0x5000 ∧
    segChecks s 1 g 0xFFF { rd := true, size := t.tableBytes } = .error ⟨2, 1, 0x5FFF, 2⟩ ∧ g.kind ≠ 0 ∧ g.kind ≠ 4 := by
  have h : tileCheck (tileRow [(S 4, 2 ^ 23), (S 5, 32)]) 1 (partOf (tileRow [(S 4, 2 ^ 23), (S 5, 32)]) 1) (tileAt (tileRow [(S 4, 2 ^ 23), (S 5, 32)]) 0 0) = none := by
    decide +kernel
  refine ⟨by decide +kernel, by decide +kernel, by decide +kernel, h, ?_, ?_, by decide +kernel, ?_, ?_, by decide +kernel, by decide +kernel⟩
  · have b : bitAt (bankSet (tileRow [(S 4, 2 ^ 23), (S 5, 32)]) (partOf (tileRow [(S 4, 2 ^ 23), (S 5, 32)]) 1)) (0 / 2 ^ 18) = true := by decide +kernel
    have c : studioOf (exOf 1) = 0 := by decide +kernel
    simp only [headerCheck, b, c, h]
    rfl
  · have e : src (tileRow [(S 4, 2 ^ 23), (S 5, 32)]) 5 = 32 := by decide +kernel
    rw [e]; rfl
  · rw [okIs_iff]; decide +kernel
  · rw [errIs_iff]; decide +kernel

/-- The one-line source of that table goes as a direct access. -/
theorem wit_tableSource : let s := tileRow []
    let g := getSeg s 1 3
    (match planReq s { reqOf s g 0 with
        elems := (linePieces ((g.base : Int) + 0).toNat (tileAt s 0 0).tableBytes).map fun p => mkElem s 1 g (0 + (p.1 : Nat)) { rd := true, size := p.2 } 0 0 0
        dest := .table 3 0 0x2000 (tileAt s 0 0).tableBytes (tileAt s 0 0).entries
        wait := true } with
      | .go es 0 [] => es.length
      | _ => 0) = 1 := by decide +kernel

/-- GenerationSteps: that tile. -/
theorem wit_generationSteps : let s := tileRow []
    let t := tileAt s 0 0
    (t.bad = false ∧ t.cheq = false ∧ t.st < 256 ∧ t.data + t.planeBytes ≤ 2 ^ 23 ∧ t.at_ + 64 ≤ 2 ^ 23 ∧ t.at_ + 64 ≤ t.data ∧ t.plane < 2 ∧ t.ph < 2 ∧
      t.vd < 16 ∧ t.hrecv < 256 ∧ s.ms.watches = [] ∧ ∀ r ∈ s.rows.kinds, r < 2 ^ 28) ∧ (∀ a, isBlock s a = false) ∧ ∀ a n, inHeader s a n = false := by
  exact ⟨by decide +kernel, isBlock_false _ (by decide +kernel), fun _ _ => rfl⟩

/-- RuleEvents: what each kind of event of an engine meets: a GEN whose tile has its table and one whose has not, a GTBL, a GHALO that has read its last
line, a strip that arrives at a tile that is kept and at one that is not, the last strip back before and at its time. -/
theorem wit_ruleEvents : let s := withMem (tileRow [(8, 4)]) [(paletteBase + 0x10, 0x2000 + 18 * 2 ^ 32)]
    let g : RuleReq := ⟨0, 1, 7, some (.gen 3 4 5 1 9), 0, 0⟩
    let b : RuleReq := ⟨1, 1, 7, none, 0, 0⟩
    let mk := fun (s : State) (q : RuleReq) => ({ s with eng := { s.eng with rules := [(0, { busy := true, left := 0, ranges := [], queue := [q] })] } } : State)
    let ends := fun (s : State) (q : RuleReq) => (ruleOf s 0).queue = [q] ∧ (ruleOf s 0).busy = true ∧ (ruleOf s 0).left = 0 ∧ (ruleOf s 0).edge = none ∧
      (ruleOf s 0).held = [] ∧ Calm s 1 ∧ getF s 1 fCode = 4 ∧ (∀ h ∈ s.rows.stepHeld, h.1 ≠ 1) ∧ s.ms.watches = [] ∧ (∀ r ∈ s.rows.kinds, r < 2 ^ 28) ∧
      s.rows.kinds.all (fun r => blockOf s r == 0) = true ∧ s.join.tables = []
    let x : Req := { row := 1, part := 0, ctx := 0, priv := false, ex := 0, elems := [{ size := 3, got := some 5 }], dest := .table 3 0 0x2000 3 18 }
    let t := { mk s b with ms := { s.ms with reqs := [(7, x)] } }
    ends (mk s g) g ∧ ends (mk (tileRow [(8, 4)]) g) g ∧ ends t b ∧ tabGet t.ms.reqs 7 = some x ∧ x.dest = .table 3 0 0x2000 3 18 ∧ (0 : Nat) + 0x18 ≤ 0x2000 ∧
    0x2000 + (x.elems.flatMap fun y => bytesOf y.size y.value).length ≤ 2 ^ 23 := by
  unfold Calm; decide +kernel

theorem wit_haloEvents : let s := tileRow [(8, 4)]
    let h : HaloRun := ⟨7, 1, 3, 0, 1, 0, none⟩
    let k : HaloRun := ⟨6, 1, 3, 0, 1, 0, some 5⟩
    let p := fun (id halo : Nat) (back : Bool) => (⟨id, halo, 1, 0, paletteBase, 0, 1, back, [], false, false, 0⟩ : Strip)
    let mk := fun (n : Nat) (hs : List HaloRun) (ss : List Strip) (rs : List (Nat × Nat)) => ({ s with
      clk := { s.clk with now := n },
      eng := { s.eng with halos := hs, strips := ss, rules := [(0, { busy := true, left := 3, ranges := rs, queue := [⟨0, 1, 9, none, 0, 0⟩] })] } } : State)
    let a := mk 0 [h] [p 8 7 false] []
    let c := mk 0 [] [p 7 6 false] []
    let d := mk 0 [] [p 7 6 false] (stripTile c (p 7 6 false)).ranges
    let e := fun (n : Nat) => mk n [k] [p 7 6 true] []
    ((a.eng.halos.find? fun h => h.id == 7) = some h ∧ h.row = 1 ∧ h.left ≠ 0 ∧ h.due = none) ∧
    ((c.eng.strips.find? fun x => x.id == 7) = some (p 7 6 false) ∧ (p 7 6 false).back = false ∧ (p 7 6 false).held = false ∧
      (ruleOf c 0).queue.head?.map RuleReq.id ≠ some 7 ∧ stripMeets c (p 7 6 false) (ruleOf c 0).ranges = false) ∧
    ((d.eng.strips.find? fun x => x.id == 7) = some (p 7 6 false) ∧ stripMeets d (p 7 6 false) (ruleOf d 0).ranges = true) ∧
    (∀ n ∈ [4, 5], ((e n).eng.strips.find? fun x => x.id == 7) = some (p 7 6 true) ∧ (∀ h ∈ (e n).eng.halos, h.id ≠ 7) ∧ (e n).eng.halos = [k] ∧
      (p 7 6 true).halo = k.id ∧ k.left = 1 ∧ k.due = some 5 ∧ 0 < k.d ∧ k.d < 30 ∧ (e n).clk.now = n) := by decide +kernel

/-- RuleEvents: the verdicts of those GENs: a step, and status 2. -/
theorem wit_verdicts : let s := withMem (tileRow [(8, 4)]) [(paletteBase + 0x10, 0x2000 + 18 * 2 ^ 32)]
    let kind := fun (s : State) => match genVerdict s 1 4 5 1 9 with | .step _ => 1 | .ends t v => if t.at_ = 0 ∧ v = 2 then 2 else 0 | .fault _ => 0
    kind s = 1 ∧ kind (tileRow [(8, 4)]) = 2 := by decide +kernel

/-- Sweeps: no step left; the latch taken and free; a fill step that ends the SWEEP, and a last line of another. -/
theorem wit_sweeps : let o : SweepX := ⟨1, 0, 5, 2, 0, false, 0x0B, 0, 3, 5, 0⟩
    let s := meshRow [(S 5, 1)]
    let d := meshRow [(S 5, 1), (0x40, 1 + 0xBA * 2 ^ 32 + 2 ^ 40)]
    let x : StepRun := { row := 1, instr := .sweep o, step := 0, left := 0, startAt := 0, begun := true, ended := true, tmp := 0, fl := 0, at_ := 0x5000 }
    let busy := { s with eng := { s.eng with sweep := [(2, { x with row := 2 })] } }
    let e := meshRow [(S 5, 1), (8, 4)]
    let e := { e with eng := { e.eng with sweep := [(1, x)] } }
    (getF d 1 fValid = 1 ∧ getF d 1 Machine.fMajor = 0xBA ∧ src d o.b ≤ getF d 1 fStep) ∧ (0 < src s o.b ∧ tabGetD s.eng.sweepQ 0 [] = [] ∧ stepStops s 1 = false) ∧
    latchTaken { busy with eng := { busy.eng with sweep := tabDel busy.eng.sweep 1 } } (homeOf 1) = true ∧
    latchTaken { s with eng := { s.eng with sweep := tabDel s.eng.sweep 1 } } (homeOf 1) = false ∧ sweepCheck s 1 o 0 = .ok 0x5000 ∧
    (tabGet e.eng.sweep 1 = some x ∧ x.instr = .sweep o ∧ x.begun = true ∧ x.left = 0 ∧ x.fl < 32 ∧ Calm e 1 ∧ getF e 1 fCode = 4 ∧
      (∀ h ∈ e.rows.stepHeld, h.1 ≠ 1) ∧ tabGetD e.eng.sweepQ (homeOf 1) [] = [] ∧ fmtWidth o.et.toNat ∈ [8, 16, 32, 64] ∧ o.sub = 5 ∧
      sweepCheck e 1 o x.step = .ok 0x5000 ∧ (getS e 1 o.b.toNat).toNat ≤ x.step + 1 ∧ placeOf x.at_ = .hbm ∧ x.at_ % 4096 = 0 ∧ isThread e (x.at_ / 4096) = false ∧ x.at_ / 4096 ≠ 1 ∧
      e.ms.forwards = [] ∧ e.ms.watches = [] ∧ e.rows.kinds.all (fun r => blockOf e r == 0) = true ∧ e.join.tables = []) := by
  simp -zeta only [okIs_iff]
  unfold Calm; decide +kernel

/-! Joins. -/

/-- JoinMessages: a reserved bit; literals; a peer of 16 bits and above; nothing outstanding. -/
theorem wit_joinMessages : let s := row [(S 4, 2 ^ 13), (S 5, 4096), (S 6, 2 ^ 16), (S 7, 2 ^ 16 - 1)]
    src s 4 / 2 ^ 13 % 8 ≠ 0 ∧ src s 5 / 2 ^ 13 % 8 = 0 ∧ 2 ^ 16 ≤ src s 6 ∧ src s 7 < 2 ^ 16 ∧ (∀ w ∈ s.ms.wet, w.row ≠ s.clk.cur) ∧
    (∀ e ∈ s.ms.reqs, e.2.row ≠ s.clk.cur) ∧ (∀ m ∈ s.join.msgs, m.id ≠ s.clk.ids) := by decide +kernel

/-- JoinTablesAsked: an ordinary and a privileged row; handles 128 and 127; descriptors misaligned, below, above and at both ends; counters 13 and 14. -/
theorem wit_joinTablesAsked : let s := row [(S 4, 128), (S 5, 127)]
    let p := row [(0x70, 2 ^ 52), (S 4, 128), (S 5, 127), (S 6, 0x820), (S 7, 0x7C0), (S 8, 0x1000), (S 9, 0x800), (S 10, 0xFC0)]
    isPriv p 1 = true ∧ isPriv s 1 = false ∧ 128 ≤ src s 4 ∧ src s 5 < 128 ∧ src p 6 % 64 ≠ 0 ∧ (src p 7 % 64 = 0 ∧ src p 7 < 0x800) ∧
    (src p 8 % 64 = 0 ∧ 0xFC0 < src p 8) ∧ (src p 9 % 64 = 0 ∧ 0x800 ≤ src p 9) ∧ (src p 10 % 64 = 0 ∧ src p 10 ≤ 0xFC0) := by
  decide +kernel

theorem placeOf_hbm (a : Nat) (h : a < 0x010000000000) : placeOf a = .hbm := by
  simp [placeOf, h]

/-- With no sequencer under reset no address is held, and no message of a join engine waits. -/
theorem stackHeld_none (s : State) (h : s.hub.seqReset = []) (a : Nat) : stackHeld s a = none := by
  unfold stackHeld; cases rowAt a <;> simp [h]

theorem messageWait_none (s : State) (h : s.hub.seqReset = []) (m : JoinMsg) (k : Nat) : messageWait s m k = none := by
  have : ∀ as : List Nat, as.findSome? (stackHeld s) = none := fun as => by simp [stackHeld_none s h]
  simp [messageWait, stackWait, this]

/-- Above the rows of these states a record lies in plain memory. -/
theorem plainRecord (s : State) (p a n : Nat) (hs : ((s.ms.watches = [] ∧ s.lines.poison = [] ∧ s.lines.latent = [] ∧ s.hub.seqReset = []) ∧ s.rows.kinds = [1]) ∧
      s.rows.kinds.all (fun r => blockOf s r == 0) = true ∧ ((List.range 32).all fun i => bitAt (bankSet s p) i) = true)
    (ha : 0x2000 ≤ a ∧ a + 64 + 32 * n ≤ 0x010000000000) : Claim.PlainRecord s p a n := by
  obtain ⟨⟨quiet, kinds⟩, blocks, banks⟩ := hs
  refine ⟨quiet.1, quiet.2.1, quiet.2.2.1, stackHeld_none s quiet.2.2.2 a, isBlock_false s blocks, fun x _ _ => ⟨placeOf_hbm x (by omega), ?_, ?_⟩⟩
  · have : x / 4096 ≠ 1 := by omega
    simp [isThread, kinds, this]
  · have b := List.all_eq_true.mp banks (x / 2 ^ 25 % 32) (List.mem_range.mpr (Nat.mod_lt _ (by decide)))
    simpa [partMayReach, placeOf_hbm x (by omega)] using b

/-- A table of partition 0 at handle 8 with an area of 2^10 entries at 0x80000, SK0 at 8, room for 4 orphans, and these episodes. -/
def joinTable (eps : List Episode) : JoinTable :=
  ⟨0, [0x80000 + 10 * 2 ^ 48, 0x3F800000, 4 * 2 ^ 32, 2 ^ 32, 8, 0, 0, 0], 0x3F800000, 0, eps, [], [], none⟩

/-- The episode of key 7, of 2 steps at 0x20000, OPEN with one reward of step 0. -/
def ep7 : Episode := ⟨7, 0x20000, 1, 3, none, false, false⟩
def ep7Mem : List (Nat × Nat) := [(0x20000, 7), (0x20008, 2), (0x20010, 2 ^ 32), (0x20020, 1), (0x20050, 2 ^ 8)]

/-- Row 1 WAITING for a message of key and words at handle 8. -/
def joinRow (words : List Nat) (ts : Tab JoinTable) (mem : List (Nat × Nat)) : State :=
  let s := withMem (row [(8, 4)]) mem
  { s with join := { s.join with tables := ts, msgs := [⟨5, 1, 0, 3, 8, words, true, 24, none, none⟩] } }

def joinMsg (words : List Nat) : JoinMsg := ⟨5, 1, 0, 3, 8, words, true, 24, none, none⟩

theorem joinTaken (words : List Nat) (ts : Tab JoinTable) (mem : List (Nat × Nat)) : Claim.JoinTaken (joinRow words ts mem) 5 (joinMsg words) := by
  have h : (joinRow words ts mem).join.accepted = [] := rfl
  exact ⟨rfl, rfl, by simp [joinMsg], .inr (by simp [joinMsg]), fun k _ => messageWait_none _ rfl _ k, fun c h' => by simp [h, tabGet] at h'⟩

/-- JoinMessagesTaken: an engine that took a message 3 cycles ago; one that is free, and no table. -/
theorem wit_joinMessagesTaken : let s := joinRow [7] [] []
    let b := { s with clk := { s.clk with now := 10 }, join := { s.join with accepted := [(0, 7)] } }
    (b.join.msgs.find? (fun m => m.id == 5)) = some (joinMsg [7]) ∧ tabGet b.join.accepted (engOf 8) = some 7 ∧ b.clk.now < 7 + 4 ∧
    Claim.JoinTaken s 5 (joinMsg [7]) ∧ (∀ t, tableOf s (joinMsg [7]).handle = some t → t.part ≠ (joinMsg [7]).part) ∧
    ((joinMsg [7]).wait = true ∧ getF s 1 fCode = 4) := by
  refine ⟨by decide +kernel, by decide +kernel, by decide +kernel, joinTaken _ _ _, fun t h => ?_, by decide +kernel⟩
  exact absurd h (by simp [tableOf, joinRow, tabGet])

/-- EpisodesOpen: L 0; a live key; 64 probes taken; a free one, for a record that ends where plain memory may. -/
theorem wit_episodesOpen : let w := [9, 0x20000, 2, 0]
    let s := joinRow w [(8, joinTable [ep7])] []
    let full := joinTable ((List.range 1024).map fun i => { ep7 with slot := i })
    Claim.JoinTaken s 5 (joinMsg w) ∧ (tableOf s 8 = some (joinTable [ep7]) ∧ (joinTable [ep7]).purge = none ∧ (orphansOf s (engOf 8)).isEmpty = true ∧
    recBad s 0 0x20000 0 = true ∧ (recBad s 0 0x20000 2 = false ∧ epOf (joinTable [ep7]) 7 = some ep7) ∧ (epOf full 9 = none ∧ probe full 9 = none) ∧
    epOf (joinTable [ep7]) 9 = none ∧ (probe (joinTable [ep7]) 9).isSome = true ∧ (∀ r ∈ s.rows.kinds, r < 2 ^ 28) ∧ 1 * 4096 + 4096 ≤ 0x20000) ∧
    Claim.PlainRecord s 0 0x20000 2 := by
  exact ⟨joinTaken _ _ _, by decide +kernel, plainRecord _ _ _ _ (by decide +kernel) (by decide +kernel)⟩

/-- RewardsLand: of that episode, step 2, step 0 and step 1; of an unknown key, with its orphan there, no room, and room. -/
theorem wit_rewardsLand : let w := [7, 1, 0x3F800000]
    let s := joinRow w [(8, joinTable [ep7])] ep7Mem
    let o := { s with join := { s.join with orphans := [(0, [⟨8, 9, 1, 0, 5⟩])] } }
    let f := { s with join := { s.join with orphans := [(0, [⟨8, 9, 2, 0, 5⟩, ⟨8, 9, 3, 0, 5⟩, ⟨8, 9, 4, 0, 5⟩, ⟨8, 9, 5, 0, 5⟩])] } }
    let t := joinTable [ep7]
    (Claim.JoinTaken s 5 (joinMsg w) ∧ Claim.PlainRecord s 0 0x20000 2) ∧ tableOf s 8 = some t ∧ (t.purge = none ∧ s.lines.poison = [] ∧ s.lines.latent = []) ∧ epOf t 7 = some ep7 ∧
    recF s 0x20000 0x20 0 3 = 1 ∧ recLen s 0x20000 = 2 ∧
    bitAt (memNat s.mem (0x20000 + 0x40 + 32 * 0 + 17) 1) 0 = true ∧ bitAt (memNat s.mem (0x20000 + 0x40 + 32 * 1 + 17) 1) 0 = false ∧
    (∀ r ∈ s.rows.kinds, r < 2 ^ 28) ∧ epOf t 9 = none ∧ (orphansOf o 0 = [⟨8, 9, 1, 0, 5⟩]) ∧
    ((∀ x ∈ orphansOf f 0, ¬ (x.table = 8 ∧ x.key = 9 ∧ x.step = 1)) ∧ descW t 2 / 2 ^ 32 % 2 ^ 13 ≤ ((orphansOf f 0).filter fun x => x.table == 8).length) ∧
    ((orphansOf s 0).isEmpty = true ∧ 0 < descW t 2 / 2 ^ 32 % 2 ^ 13) := by
  exact ⟨⟨joinTaken _ _ _, plainRecord _ _ _ _ (by decide +kernel) (by decide +kernel)⟩, by decide +kernel⟩

/-- EpisodesClose: an unknown key; an episode CLOSED; one OPEN without all its rewards, and one with them. -/
theorem wit_episodesClose : let w := [7, 0, 1]
    let t := joinTable [ep7]
    let mk := fun (l : List (Nat × Nat)) => joinRow w [(8, t)] (ep7Mem ++ l)
    let s := mk []
    let f := mk [(0x20010, 2 * 2 ^ 32)]
    Claim.JoinTaken s 5 (joinMsg w) ∧ Claim.PlainRecord s 0 0x20000 (recLen s 0x20000) ∧ Claim.PlainRecord f 0 0x20000 (recLen f 0x20000) ∧
    (tableOf s 8 = some t ∧ t.purge = none ∧ s.lines.poison = [] ∧ s.lines.latent = [] ∧ epOf t 9 = none ∧ recF (mk [(0x20020, 2)]) 0x20000 0x20 0 3 ≠ 1) ∧
    (recF s 0x20000 0x20 0 3 = 1 ∧ recF s 0x20000 0x10 32 32 ≠ recLen s 0x20000) ∧
    (recF f 0x20000 0x20 0 3 = 1 ∧ recF f 0x20000 0x10 32 32 = recLen f 0x20000 ∧ ep7.held = false ∧
      ep7.releasing = false ∧ tblOrder t = false ∧ (t.lv + 2 ^ 32 - recF f 0x20000 0x10 0 32) % 2 ^ 32 ≤ descW t 2 % 2 ^ 32 ∧
      (tabGetD f.join.releases (engOf 8) []).isEmpty = true) := by
  have p := fun (s : State) (h : _) => plainRecord s 0 0x20000 (recLen s 0x20000) h
  exact ⟨joinTaken _ _ _, p _ (by decide +kernel) (by decide +kernel), p _ (by decide +kernel) (by decide +kernel), by decide +kernel⟩

/-- RecordsScan: that record, last step included. -/
theorem wit_recordsScan : let s := joinRow [] [] ep7Mem
    Claim.PlainRecord s 0 0x20000 (recLen s 0x20000) ∧ (∀ r ∈ s.rows.kinds, r < 2 ^ 28) ∧ 1 < recLen s 0x20000 := by
  refine ⟨plainRecord _ _ _ _ (by decide +kernel) (by decide +kernel), by decide +kernel⟩

/-- ReleasesPush: room; a full rack, and one that a block leaves; for a release at work and for one held. -/
theorem wit_releasesPush : let t := joinTable [{ ep7 with releasing := true }]
    let x : Release := ⟨8, 7, true, false, 0⟩
    let mk := fun (x : Release) (es : List RackEntry) => let s := withMem (rackRow [] es) ep7Mem
      ({ s with join := { s.join with tables := [(8, t)], releases := [(0, [x])] } } : State)
    let tgt := (rackName 0 (descW t 5)).getD (0, 0)
    let k := rackAtLevel tgt.1 tgt.2 t.part
    let full := mk x [entry 0 1 1, entry 0 0 1]
    Claim.PlainRecord full 0 0x20000 (recLen full 0x20000) ∧ (tableOf full 8 = some t ∧ (epOf t 7).isSome = true ∧ tblOrder t = false ∧ t.purge = none ∧
      ∀ r ∈ full.rows.kinds, r < 2 ^ 28) ∧ (∀ y ∈ tabGetD (mk ⟨8, 7, false, true, 9⟩ []).join.releases 0 [], y.held = true → full.clk.now < y.offerAt) ∧ rackPart k = t.part ∧ (8 : Nat) % 8 = 0 ∧
    rackCount (mk x []) k + 1 + blockSize (mk x []) t.part ≤ rackShare (mk x []) k ∧
    (rackShare full k ≤ rackCount full k ∧ (moveUp full (tblCtx t) 3 k).isNone = true ∧ ∀ m ∈ full.msg.moves, m.src ≠ k) ∧
    (let v := { full with msg := { full.msg with moves := [⟨6, k, rackKey 1 0 0, 0, [entry 0 2 1]⟩] } }
     rackShare v k ≤ rackCount v k ∧ ∃ m ∈ v.msg.moves, m.src = k) ∧
    ((tabGetD full.join.releases 0 []).find? Release.running) = some x ∧
    ((tabGetD (mk ⟨8, 7, false, true, 0⟩ []).join.releases 0 []).filter fun y => y.held && decide (y.offerAt ≤ full.clk.now)) = [⟨8, 7, false, true, 0⟩] := by
  exact ⟨plainRecord _ _ _ _ (by decide +kernel) (by decide +kernel), by decide +kernel⟩

/-- JoinTablesAct: each descriptor and area; an own table with an episode, and an empty one; no table; a counter, and one of another partition's table. -/
theorem wit_joinTablesAct : let good : List Word := [0x80000 + 10 * 2 ^ 48, 0, 4 * 2 ^ 32, 0, 8, 0, 0, 0]
    let s := joinRow [1] [] []
    let t := joinTable [ep7]
    let e := joinRow [2] [(8, joinTable [])] []
    (Claim.JoinTaken s 5 (joinMsg [1]) ∧ getF s 1 fCode = 4) ∧ tableOf e 8 = some (joinTable []) ∧ tableOf s 8 = none ∧
    descRefused [9 * 2 ^ 48, 0, 0, 0, 8, 0, 0, 0] = true ∧ (descRefused good = false ∧ areaRefused s 0 0 good = false ∧ 1 * 4096 + 4096 ≤ bitsAt (good.headD 0).toNat 0 48) ∧
    areaRefused s 0 0 ([0xFFFFFFF000 + 10 * 2 ^ 48, 0, 4 * 2 ^ 32, 0, 8, 0, 0, 0] : List Word) = true ∧
    (t.eps ≠ [] ∧ (tabGetD s.join.releases (engOf 8) []).isEmpty = true ∧ placeOf ep7.recAt = .hbm ∧ placeOf (ep7.recAt + 63) = .hbm ∧ 1 * 4096 + 4096 ≤ ep7.recAt) ∧
    (joinTable []).eps = [] ∧ (orphansOf e (engOf 8)).isEmpty = true ∧ (joinTable []).lv < 2 ^ 63 ∧ ((joinTable []).purge = none ∧ ({ joinTable [] with purge := some [(1, 3)] } : JoinTable).purge ≠ none) ∧ statAt e 0 8 12 = some 0 ∧ statAt e 9 8 12 = none := by
  refine ⟨⟨joinTaken _ _ _, by decide +kernel⟩, by decide +kernel⟩

/-- JoinTicks: nothing overdue; that episode overdue, OPEN, CLOSED with EARLY set, and CLOSED with it clear. -/
theorem wit_joinTicks : let e := { ep7 with deadline := some 0 }
    let mk := fun (st w0 : Nat) => let t := joinTable [e]
      joinRow [] [(8, { t with desc := BitVec.ofNat 64 w0 :: t.desc.drop 1 })] (ep7Mem ++ [(0x20020, st)])
    let t := joinTable [e]
    (∀ x ∈ (joinRow [] [(8, joinTable [ep7])] []).join.tables, ∀ y ∈ x.2.eps, overdue 0 y = false) ∧
    Claim.PlainRecord (mk 1 0) 0 0x20000 (recLen (mk 1 0) 0x20000) ∧ (engOf 8 = 0 ∧ overdue (activeNow (mk 1 0)) e = true ∧ e.held = false ∧ tblOrder t = false ∧
      (∀ r ∈ (mk 1 0).rows.kinds, r < 2 ^ 28) ∧ recLen (mk 1 0) 0x20000 ≤ 4096) ∧ recF (mk 1 0) 0x20000 0x20 0 3 = 1 ∧
    (recF (mk 2 0) 0x20000 0x20 0 3 = 2 ∧ bitAt (2 ^ 53) 53 = true ∧ bitAt (descW t 0) 53 = false ∧ t.lv = recF (mk 2 0) 0x20000 0x10 0 32) := by
  exact ⟨by decide +kernel, plainRecord _ _ _ _ (by decide +kernel) (by decide +kernel), by decide +kernel⟩
/-! Homes, replies, walks, migrations, wet stores, the lower-bound network. -/

/-- A request of row 1 on path T with one element. -/
def oneReq (op : DirectOp) (path : Path) (e : Elem) : Req := { row := 1, part := 0, ctx := 0, priv := false, ex := 0, path := path, op := op, elems := [e], left := 1 }

/-- AccessesAtHomes: a word of a data row that holds 5, read and written by each act; the same word where a migration has moved its line. -/
theorem wit_accessesAtHomes : let e : Elem := { addr := 0x5FF8, size := 8, cmp := 5 }
    let mk := fun (op : DirectOp) (p : Path) => let s := withMem (meshRow []) [(0x5FF8, 5)]
      ({ s with ms := { s.ms with reqs := [(0, oneReq op p e)] } } : State)
    let old := memNat (mk .read .T).mem 0x5FF8 8
    let clear := fun (op : DirectOp) (p : Path) => let s := mk op p
      tabGet s.ms.reqs 0 = some (oneReq op p e) ∧ forwardOf s e.addr = .here ∧ placeOf e.addr = .hbm ∧ isThread s (e.addr / 4096) = false ∧
      (oneReq op p e).whole = false ∧ placeLost s (oneReq op p e) e.addr = false ∧ holdFor s (oneReq op p e) e e.addr = .free ∧ poisonedLine s e.addr 8 = none ∧
      s.lines.latent = [] ∧ inHeader s e.addr 8 = false
    (∀ x ∈ [(DirectOp.read, Path.T), (.read, .M), (.write true, .T), (.atom 1 4 0, .T), (.cas, .T), (.watch 4 5, .T), (.watch 4 6, .T)], clear x.1 x.2) ∧
    isBlock (mk .read .T) 0x5FF8 = false ∧ isBlock (mk .read .T) 0x5FFF = false ∧ old = e.cmp ∧ old ≠ 6 ∧
    (let s := { mk .read .T with ms := { (mk .read .T).ms with forwards := [⟨0, 0, 0x5000, 0x20000, 4096, 64, false, 0⟩] } }
     forwardOf s e.addr = .moved 0x20FF8 ∧ placeOf 0x20FF8 = .hbm) := by decide +kernel

/-- AccessesHeld: a row with a command pending; a line being copied; an atomic on CMD of a thread row. -/
theorem wit_accessesHeld : let e : Elem := { addr := 0x2100, size := 8 }
    let q := oneReq .read .T e
    let s := withMem (row []) [(0x2000, 2 ^ 7)]
    let p := { s with rows := { s.rows with kinds := [1, 2] }, ms := { s.ms with reqs := [(0, q)] } }
    let p := setF p 2 fPend 1
    let b := { s with ms := { s.ms with reqs := [(0, q)], forwards := [⟨0, 0, 0x2000, 0x20000, 4096, 4, true, 0⟩] } }
    (tabGet p.ms.reqs 0 = some q ∧ forwardOf p 0x2100 = .here ∧ placeOf 0x2100 = .hbm ∧ isThread p (0x2100 / 4096) = true ∧ q.row ≠ 0x2100 / 4096 ∧
      getF p (0x2100 / 4096) fPend = 1 ∧ p.rows.stepping.contains (0x2100 / 4096) = false ∧ q.whole = false ∧ placeLost p q 0x2100 = false ∧ stackHeld p 0x2100 = none ∧
      ruleHolds p 0x2100 8 = false ∧ e.past = false) ∧
    forwardOf b 0x2100 = .busy ∧
    (let c : Elem := { addr := 0x2000, size := 8 }
     let k := oneReq .cas .T c
     let s := { s with rows := { s.rows with kinds := [1, 2] }, ms := { s.ms with reqs := [(0, k)] } }
     forwardOf s 0x2000 = .here ∧ placeOf 0x2000 = .hbm ∧ touchesCmd s 0x2000 8 = true ∧ placeLost s k 0x2000 = false ∧ holdFor s k c 0x2000 = .free ∧
       poisonedLine s 0x2000 8 = none ∧ s.lines.latent = [] ∧ k.fault = none ∧ k.whole = false) := by decide +kernel

/-- RepliesEndAccesses: replies to come, the last, a fault, a store's; a long instruction's end with a result, with a fault, and of a row that RUNS. -/
theorem wit_repliesEndAccesses : let s := row [(8, 4)]
    let e : Elem := { size := 8, got := some 5 }
    let q := { oneReq .read .T e with dest := .scalar 3 8 false, wait := true }
    let f : FaultRec := ⟨3, 0x11, 0, 1⟩
    let mk := fun (q : Req) => ({ s with ms := { s.ms with reqs := [(7, q)] } } : State)
    let c : Completion := ⟨[⟨3, 5⟩], 0, none⟩
    let lg := fun (s : State) (c : Completion) => ({ s with rows := { s.rows with longs := [(1, c)] } } : State)
    let calm := fun (s : State) => getF s 1 fCode = 4 ∧ Calm s 1 ∧ s.rows.popDue.contains 1 = false
    (tabGet (mk { q with left := 2 }).ms.reqs 7 = some { q with left := 2 }) ∧
    (tabGet (mk q).ms.reqs 7 = some q ∧ q.left ≤ 1 ∧ q.fault = none ∧ calm (mk q)) ∧
    (tabGet (mk { q with fault := some f }).ms.reqs 7 = some { q with fault := some f } ∧ isThread (mk q) 1 = true) ∧
    (tabGet (mk { q with dest := .none, wait := false }).ms.reqs 7 = some { q with dest := .none, wait := false }) ∧
    (tabGet (lg s c).rows.longs 1 = some c ∧ isThread (lg s c) 1 = true ∧ calm (lg s c)) ∧
    (tabGet (lg s { c with fault := some f }).rows.longs 1 = some { c with fault := some f }) ∧
    (tabGet (lg (row []) c).rows.longs 1 = some c ∧ getF (row []) 1 fCode ≠ 4 ∧ getF (row []) 1 fCode ≠ 5) := by
  unfold Calm; decide +kernel

/-- WalksEnd: a walk that serves nothing, one that a fetch waits for, and one whose reads are held. -/
theorem wit_walksEnd : let s := row [(8, 4)]
    let e : TlbEntry := ⟨0, 0, 5, false, 0x5000, 0, 0, 7, 7, 0, false, false, 0⟩
    let w : Walk := ⟨3, 0, 0, 1, 0, 0, 0x5000, 2, true, 0, [.reissue 1 0x5000], some e, some e, 0, 0, 0, [], false, false⟩
    let mk := fun (w : Walk) => ({ s with ms := { s.ms with walks := [w] } } : State)
    (mk w).ms.walks = [w] ∧ (mk { w with serves := [] }).ms.walks = [{ w with serves := [] }] ∧ w.entry = some e ∧ w.stale = false ∧ exOf 1 = w.ex ∧
    isThread (mk w) 1 = true ∧ getF (mk w) 1 fCode = 4 ∧ walkWait (mk w) w = none ∧
    (let h := withRegs (mk w) [(transAt 0 0, 1), (transAt 0 0 + 8, 0x5000), (transAt 0 0 + 0x10, 1)]
     walkWait { h with hub := { h.hub with seqReset := [(0, 0, 9)] } } w ≠ none) := by decide +kernel

/-- MigrationsCopy: the first line of a page, and the last. -/
theorem wit_migrationsCopy : let s := row [(8, 4)]
    let mk := fun (l : Nat) => let m : Migration := ⟨3, 1, 4, 0, 0, 0x7000, 0x40000, 0x20000, 0x30000, 0x30000, 4096, l, none⟩
      let f : Forward := ⟨0, 0x20000, 0x20000, 0x30000, 4096, l, true, 0⟩
      (({ s with ms := { s.ms with migrations := [m], forwards := [f] } } : State), m)
    let fits := fun (l : Nat) => let s := (mk l).1
      let b := 0x30000 + 64 * l
      stackHeld s (0x20000 + 64 * l) = none ∧ stackHeld s b = none ∧ placeOf (0x20000 + 64 * l) = .hbm ∧ placeOf b = .hbm ∧ isThread s (b / 4096) = false ∧ isBlock s b = false ∧ isBlock s (b + 63) = false ∧
        inHeader s b 64 = false
    fits 0 ∧ fits 63 ∧ 64 * (0 + 1) < (mk 0).2.size ∧ (mk 63).2.size ≤ 64 * (63 + 1) ∧ (0x20000 + 4096 ≤ 0x40000 ∧ 0x40000 % 8 = 0) ∧ placeOf 0x40000 = .hbm ∧ isThread (mk 63).1 (0x40000 / 4096) = false ∧
    isThread (mk 63).1 1 = true ∧ getF (mk 63).1 1 fCode = 4 ∧ rowDpa 1 + 0x1000 ≤ 0x30000 + 64 * 63 := by decide +kernel

/-- FirstTrips: a data row; the last bytes below and the first above a thread row's reserved part; a reply for an entry with bytes. -/
theorem wit_firstTrips : let s := row []
    let mk := fun (a : Nat) => let q := { oneReq (.write true) .T { addr := a, size := 8, data := 9 } with status := 5 }
      let w : Wet := { id := 5, row := 1, tag := 0, pos := 0, line := a / 64, bytes := [(0, 9)], part := 0, ctx := 0, ex := 0 }
      (({ s with rows := { s.rows with kinds := [1, 2] }, ms := { s.ms with reqs := [(0, q)], wet := [w] } } : State), q)
    let home := fun (a : Nat) => tabGet (mk a).1.ms.reqs 0 = some (mk a).2 ∧ forwardOf (mk a).1 a = .here ∧ placeOf a = .hbm
    (home 0x5000 ∧ isThread (mk 0x5000).1 5 = false) ∧
    (∀ a ∈ [0x2100, 0x2638, 0x2700, 0x2FF8], home a ∧ isThread (mk a).1 (a / 4096) = true ∧ holdFor (mk a).1 (mk a).2 { addr := a, size := 8, data := 9 } a = .free ∧
      0x100 ≤ a % 4096 ∧ (a % 4096 + 8 ≤ 0x640 ∨ 0x700 ≤ a % 4096) ∧ a % 4096 + 8 ≤ 4096 ∧ inHeader (mk a).1 a 8 = false) ∧
    (∀ x ∈ (mk 0x5000).1.ms.reqs, x.1 ≠ 0 → x.2.status ≠ (mk 0x5000).2.status) ∧ (∃ w ∈ (mk 0x5000).1.ms.wet, w.id = 5 ∧ w.stage = 0) := by decide +kernel

/-- EntriesDry: an entry of two bytes; a later dried store on the first, none on the second. -/
theorem wit_entriesDry : let w : Wet := { id := 5, row := 1, tag := 2, pos := 0, line := 0x180, bytes := [(0, 9), (63, 8)], part := 0, ctx := 0, ex := 0, stage := 1 }
    let s := row []
    let s := { s with ms := { s.ms with wet := [w], prec := [(0x6000, ⟨3, 1, 0⟩)] } }
    wetOf s 5 = some w ∧ w.stage < 2 ∧ placeOf (w.line * 64) = .hbm ∧ isThread s (w.line * 64 / 4096) = false ∧ forwardOf s (w.line * 64) = .here ∧
    stackHeld s (w.line * 64) = none ∧ ruleHolds s (w.line * 64) 64 = false ∧
    (∀ i < 64, isBlock s (w.line * 64 + i) = false ∧ inHeader s (w.line * 64 + i) 1 = false) ∧ (w.bytes.map Prod.fst).Nodup ∧ (∀ b ∈ w.bytes, b.1 < 64) ∧ tabGet s.ms.prec (0x6000 + 0) = some ⟨3, 1, 0⟩ ∧ phGt 3 w.tag = true ∧
    tabGet s.ms.prec (0x6000 + 63) = none := by decide +kernel

/-- LowerBounds: a context of the network; an entry of a lower tag than the LB; a row that joins, and one that waits for its answer. -/
theorem wit_lowerBounds : let s := row []
    let s := withRegs s [(layoutAt 0, 1 + (2 ^ 32 - 1) * 2 ^ 32)]
    let w : Wet := { id := 5, row := 1, tag := 2, pos := 0, line := 0x180, bytes := [(0, 9)], part := 0, ctx := 0, ex := 0, stage := 1 }
    let d := { s with ms := { s.ms with wet := [w] } }
    let j := fun (r : Nat) => ({ s with rows := { s.rows with joining := [r] } } : State)
    (∀ x ∈ networkContexts s, x.2 < 8) ∧ (0, 0) ∈ networkContexts s ∧ scopeRect s 0 0 = some wholeRect ∧
    (w ∈ d.ms.wet ∧ (ownScope d w.row).1 = 0 ∧ figGt (some 3) w.tag = true ∧ figGt none w.tag = true) ∧ joinUnderWay (j 1) 1 = true ∧
    (j (1 + 2 ^ 28)).rows.joining.contains (1 + 2 ^ 28) = true := by decide +kernel

/-- WatchesPolled: a word that holds what the watch knows, and one that does not. -/
theorem wit_watchesPolled : let q := oneReq (.watch 4 5) .T { addr := 0x5FF8, size := 8 }
    let mk := fun (v : Nat) => let s := withMem (row []) [(0x5FF8, v)]
      ({ s with ms := { s.ms with reqs := [(7, q)], watches := [⟨3, 7, 1, 0x5FF8, 8, 5, 0, true⟩] } } : State)
    tabGet (mk 5).ms.reqs 7 = some q ∧ readHome (mk 5) (movedTo (mk 5) 0x5FF8) 8 = 5 ∧ readHome (mk 6) (movedTo (mk 6) 0x5FF8) 8 ≠ 5 := by decide +kernel

/-- RectangleWrites: a rectangle with a row in it; an inverted one and one past the mesh; the whole mesh. -/
theorem wit_rectangleWrites : let s := row []
    let s := withRegs s [(layoutAt 0, 1 + (2 ^ 32 - 1) * 2 ^ 32)]
    let b := withRegs (setF s 1 fScope 1) [(rectAt 0 0, 2 ^ 32 + 0x1F1F0000)]
    let bad := fun (v : Nat) => let q := rectOf v
      ¬ (q.x0 ≤ q.x1 ∧ q.y0 ≤ q.y1 ∧ q.x1 < 32 ∧ q.y1 < 32)
    rectBusy b 0 0 = true ∧ rectBusy s 0 0 = false ∧ bad (2 ^ 32 + 0x00000001) ∧ bad (2 ^ 32 + 0x1F200000) ∧ ¬ bad (2 ^ 32 + 0x1F1F0000) := by decide +kernel

/-! The module. -/

/-- A layout of two partitions: their records' words. -/
def twoParts (a b : List Nat) : List (List Nat) := [a, b]

/-- LayoutsPrepared: a conservator that does not run, an apprentice that does not, and both that do; a COMMIT under way; a life cycle that bars a layout that binds slots; slots of one bank shared; areas larger than a bank; an extent where nothing is installed; a good layout. -/
theorem wit_layoutsPrepared : let s := State.reset
    let one := 1 + 1 * 2 ^ 32
    let rsv := 2048 * 2 ^ 16
    let v := fun (l : List Nat) => ({ s with hub := { s.hub with verified := l } } : State)
    conservatorRuns s = false ∧ (conservatorRuns (v [0]) = true ∧ apprenticeRuns (v [0]) = false) ∧ (conservatorRuns (v [0, 1]) = true ∧ apprenticeRuns (v [0, 1]) = true) ∧
    (v [0, 1]).hub.journal = [] ∧ (v [0, 1]).hub.lifeCycle = 0 ∧ (∃ p < 32, propSlots (twoParts [one, 0] []) p ≠ 0) ∧
    layoutOverlaps (twoParts [one, rsv] [one, rsv]) = true ∧
    (layoutOverlaps (twoParts [one, 0] []) = false ∧ areasFail (twoParts [one, 2049 * 2 ^ 16] []) = true) ∧
    (layoutOverlaps (twoParts [one, rsv, 0, 0, 1] []) = false ∧ areasFail (twoParts [one, rsv, 0, 0, 1] []) = false ∧ extentFails (twoParts [one, rsv, 0, 0, 1] []) = true) ∧
    (layoutOverlaps (twoParts [one, rsv] []) = false ∧ areasFail (twoParts [one, rsv] []) = false ∧ extentFails (twoParts [one, rsv] []) = false) := by decide +kernel

/-- LayoutsCommitted: a conservator that runs and one that does not; no shadow; a shadow of generation 1 before the journal's COMMIT, after it, and with the layout in force; each record of a recovery. -/
theorem wit_layoutsCommitted : let mk := fun (w : Nat) (j : List (Nat × Nat × Nat)) => let s := withRegs (row []) [(powerAt + 8, w)]
      ({ s with hub := { s.hub with journal := j, verified := [0] } } : State)
    conservatorRuns (mk 0 []) = true ∧ conservatorRuns (row []) = false ∧ tablesLosing (mk (2 ^ 32) [(1, 1, 0), (0, 1, 0)]) = [] ∧ shadowGen (mk 0 []) ≠ 1 ∧ shadowGen (mk (2 ^ 32) [(0, 1, 0)]) = 1 ∧ layoutGen (mk (2 ^ 32) [(1, 1, 0), (0, 1, 0)]) ≠ 1 ∧
    (layoutGen (mk (2 ^ 32 + 1) [(1, 1, 0), (0, 1, 0)]) = 1 ∧ shadowGen (mk (2 ^ 32 + 1) [(1, 1, 0), (0, 1, 0)]) = 1) := by decide +kernel

/-- FairShares: demands that fit, and demands that do not. -/
theorem wit_fairShares : (∀ w ∈ [5, 9], w < 2 ^ 64) ∧ [5, 9].foldl (· + ·) 0 ≤ 14 ∧ 13 < [5, 9].foldl (· + ·) 0 := by decide

/-- BudgetTree: no demand. -/
theorem wit_budgetTree : let s := row []
    alarmOn s = false ∧ (∀ st < 16, stackDemand (demandOf s) st ≤ regWord s (powerAt + 0x18 + 8 * st)) ∧
    (List.range 16).foldl (fun n st => n + stackDemand (demandOf s) st) 0 ≤ regWord s (powerAt + 0x10) := by decide +kernel

/-- AlarmsAndHops: each group of power states; a hop under way; a context to kill; gating that ends, and that does not. -/
theorem wit_alarmsAndHops : let mk := fun (p : Nat) => setRegBits State.reset powerAt 0 3 p
    let hop := fun (s : State) => ({ s with hub := { s.hub with hops := [(0, 0)] } } : State)
    let lay := withRegs (mk 1) [(layoutAt 0, 1 + 2 ^ 32)]
    let live := fun (q k : Nat) => q < 32 ∧ k < 8 ∧ ctxLive lay q k = true
    let prio := fun (q k : Nat) => regBits lay (layoutAt q + 0x18) (3 * k) 3
    let clr := fun (n : Nat) => ({ mk 2 with clk := { (mk 2).clk with now := n }, hub := { (mk 2).hub with alarmClear := some 0 } } : State)
    (∀ p < 8, pstate (mk p) = p) ∧ (mk 2).hub.hops = [] ∧ (hop (mk 2)).hub.hops ≠ [] ∧ alarmOn (mk 1) = false ∧
    (live 0 0 ∧ ∀ q < 32, ∀ k < 8, live q k → prio 0 0 < prio q k ∨ (prio 0 0 = prio q k ∧ (q < 0 ∨ (q = 0 ∧ k ≤ 0)))) ∧
    ((clr 240000).hub.alarmClear = some 0 ∧ alarmOn (clr 240000) = false ∧ 0 + 240000 ≤ (clr 240000).clk.now ∧ (clr 240000).clk.now % 64 = 0) ∧
    (clr 240001).clk.now % 64 ≠ 0 ∧ regBits (mk 2) powerAt 3 1 = 0 ∧ regBits (setRegBits (mk 2) powerAt 3 1 1) powerAt 3 1 = 1 := by decide +kernel

/-- HostOperations: a flow that is busy, one with an operation queued, and one that is neither; no entry; an entry that is usable; spans; an atomic that the set lacks, aligned and not, refused, and accepted; a row of the partition and another's. -/
theorem wit_hostOperations : let s := withRegs (row []) [(layoutAt 0, 1 + (2 ^ 32 - 1) * 2 ^ 32), (hostWordAt 0 63, 2 ^ 5)]
    let h := { s with hub := { s.hub with heldParts := [0] } }
    let q : Req := { row := 2 ^ 28, part := 0, ctx := 0, priv := false, ex := 0, op := .write true, dest := .host 63 false true }
    let b := { s with ms := { s.ms with reqs := [(0, q)] } }
    let w := { s with hub := { s.hub with hostQueue := [(63, 5)] } }
    (flowBusy s 63 = false ∧ s.hub.hostQueue = [] ∧ flowBusy b 63 = true ∧ ∃ x ∈ w.hub.hostQueue, x.1 = 63) ∧ hostUsable s 0 62 = false ∧ hostUsable s 0 63 = true ∧ hostUsable h 0 63 = true ∧ h.hub.heldParts.contains 0 = true ∧ s.hub.heldParts.contains 0 = false ∧
    (∀ x ∈ lineSpans 0x5000 4096, dpaChecks s 0 (hostPriv s 0 63) true (0x5000 + x.1) = none) ∧
    (∃ x ∈ lineSpans 0x010000000000 8, dpaChecks s 0 (hostPriv s 0 63) false (0x010000000000 + x.1) ≠ none) ∧
    hostAtom 0 2 = none ∧ (hostAtom 0 8 ≠ none ∧ (0x5004 : Nat) % 8 ≠ 0 ∧ 0x5000 % 8 = 0 ∧ isReg 0x5000 = false ∧ isReg 0x0C0000000000 = true ∧
      ∀ x ∈ lineSpans 0x5000 8, dpaChecks s 0 (hostPriv s 0 63) true (0x5000 + x.1) = none) ∧
    (∃ x ∈ lineSpans 0x010000000000 8, dpaChecks s 0 (hostPriv s 0 63) true (0x010000000000 + x.1) ≠ none) ∧
    (inJoinArea s (rowDpa 1 + 0x700) = false ∧ inJoinArea { s with join := { s.join with tables := [(8, joinTable [])] } } (rowDpa 0x80 + 0x700) = true) ∧
    (stackHeld s (rowDpa 1) = none ∧ 1 < 2 ^ 28 ∧ partOf s 1 = 0 ∧ isReservedRow s 1 = false) ∧ partOf (row []) 1 ≠ 5 := by decide +kernel

/-- PeerTraffic: a peer's entry that is usable and one that is not; a peer's pair at a cell of the partition and at another's; a reward for each peer, its row waiting. -/
theorem wit_peerTraffic : let s := withRegs (row [(8, 4)]) [(layoutAt 0, 1 + (2 ^ 32 - 1) * 2 ^ 32), (hostWordAt 0 67, 2 ^ 5)]
    let p : List Int := [((543 : Nat) : Int), 9, 0, ((0 : Nat) : Int), 0, 0, 0, 0, ((3 : Nat) : Int)]
    let c := fun (o : Nat) => ({ s with eng := { s.eng with bsums := [(7, p)], cells := [(543, ⟨o, ⟨5, 0⟩, true⟩)] } } : State)
    let m := fun (e : Nat) => (⟨5, 1, 0, 3, 8, [7, 1, 5], true, 24, some e, none⟩ : JoinMsg)
    let j := fun (e : Nat) => ({ s with join := { s.join with msgs := [m e] } } : State)
    hostUsable s 0 (64 + 3) = true ∧ hostUsable s 0 (64 + 4) = false ∧
    (∀ o ∈ [0, 9], tabGet (c o).eng.bsums 7 = some p ∧ tabGet (c o).eng.cells 543 = some ⟨o, ⟨5, 0⟩, true⟩) ∧
    (∀ e ∈ [3, 4], ((j e).join.msgs.find? fun m => m.id == 5) = some (m e) ∧ (m e).peer = some e ∧ (m e).answer = none ∧ (m e).row < 2 ^ 28 ∧ (m e).wait = true ∧
      getF (j e) (m e).row fCode = 4 ∧ 0 < (m e).back) ∧ peerUsable (j 3) 0 3 = true ∧ peerUsable (j 4) 0 4 = false := by decide +kernel

/-- LinksFail: nothing outstanding. -/
theorem wit_linksFail : let s := row []
    s.eng.copies = [] ∧ s.join.msgs = [] ∧ s.eng.bsums = [] := by decide +kernel

/-- MailboxRequests: both images verified, in BRINGUP, OFF and STILL, and the conservator's alone; a second-stage table in the reserved area. -/
theorem wit_mailboxRequests : let s := State.reset
    let v := { s with hub := { s.hub with verified := [0, 1] } }
    let o := { s with hub := { s.hub with verified := [0] } }
    let two := withRegs v [(layoutAt 0, 1 + (2 ^ 32 - 1) * 2 ^ 32), (layoutAt 0 + 8, 2 ^ 16), (transAt 0 7 + 8, (2 ^ 25 - 4096) / 8 * 2 ^ 3), (transAt 0 7 + 0x10, 4)]
    let a := regBits two (transAt 0 7 + 8) 3 45 * 8 + 8 * 3
    (conservatorRuns o = true ∧ apprenticeRuns o = false) ∧ (conservatorRuns v = true ∧ apprenticeRuns v = true ∧ pstate v = 1) ∧
    (∀ k ∈ [0, 5], pstate (setRegBits v powerAt 0 3 k) = k) ∧ (apprenticeRuns two = true ∧ conservatorRuns two = true) ∧
    (3 < regBits two (transAt 0 7 + 0x10) 0 23 ∧ placeOf a = .hbm ∧ partMayReach two 0 a = true ∧ inReserved two a = true ∧ isThread two (a / 4096) = false ∧
      isBlock two a = false ∧ isBlock two (a + 7) = false ∧ inHeader two a 8 = false ∧ two.ms.watches = []) := by decide +kernel

/-- FirmwareAndLifeCycle: with and without a key; the first and the last life-cycle state. -/
theorem wit_firmware : let mk := fun (b : Bool) (n : Nat) => ({ State.reset with hub := { State.reset.hub with identityKey := b, lifeCycle := n, verified := [0] } } : State)
    conservatorRuns State.reset = false ∧ conservatorRuns (mk true 0) = true ∧ conservatorRuns (mk false 0) = true ∧ (mk true 0).hub.identityKey = true ∧ (mk false 0).hub.identityKey = false ∧ (mk true 2).hub.lifeCycle < 3 ∧ 3 ≤ (mk true 3).hub.lifeCycle := by decide +kernel

/-- StorageErrors: no reset under way; one that is over and one that is not, with an access held; a retry. -/
theorem wit_storageErrors : let x : Timed := ⟨0, 0, {}, .directAccess 7 0⟩
    let s := State.reset
    let mk := fun (n : Nat) => ({ s with clk := { s.clk with now := n }, hub := { s.hub with seqReset := [(0, 0, 50)], seqHeld := [(0, x)] } } : State)
    s.hub.seqReset = [] ∧ (mk 50).hub.seqReset = [(0, 0, 50)] ∧ 50 ≤ (mk 50).clk.now ∧ (mk 49).clk.now < 50 ∧ hostOf (mk 49) x = none ∧
    (pstate s = 1 ∧ imagesVerified s = false) := by decide +kernel

/-- RegisterWrites: both ends of the ranges. -/
theorem wit_registerWrites : (31 : Nat) < 32 ∧ (7 : Nat) < 8 ∧ (1023 : Nat) < 1024 ∧ (63 : Nat) < 64 := by decide

/-! Steps. -/

/-- Row 1 about to run the word that stands at its PC. -/
def ready : State := State.reset.withFetchWord 32 0x00520C2C

/-- StepRunsTheDecodedInstruction: a word at a chosen row's PC, which no gate holds; and that row's code. -/
theorem wit_stepRuns : let x : Todo := ⟨0, 0, 1, false, 0⟩
    let m := { ready with clk := { ready.clk with todo := some [], cur := 1, popped := none } }
    let g := getSeg ready 1 0
    ready.clk.todo = some [x] ∧ pstate ready = 2 ∧ stillThere m x = true ∧ m.rows.recheck.contains 1 = false ∧ limitReached m 1 = false ∧
    (readCode m 1 (getF m 1 fPc) 1 false).2 = true ∧ (m.lines.poison = [] ∧ m.lines.latent = []) ∧ (match fetchWords m 1 with
      | .ok ws => ws == [0x00520C2C]
      | .error _ => false) = true ∧ decodeWords [0x00520C2C] = some (.add ⟨.i64, 3, 4, 5⟩) ∧
    (match gateOf (acting (chargeIssue m x (weightOf (.add ⟨.i64, 3, 4, 5⟩))) 1 (.add ⟨.i64, 3, 4, 5⟩)) 1 (.add ⟨.i64, 3, 4, 5⟩) with
      | .open => true
      | _ => false) = true ∧
    (g.kind = 0 ∧ g.bad = false ∧ g.canX = true ∧ getF ready 1 fPc = 8 ∧ 8 + 4 ≤ g.limit ∧ g.base + 8 + 4 ≤ 4096 ∧
      dpaChecks ready (partOf ready 1) (isPriv ready 1) false (rowDpa 1 + (g.base + 8)) = none ∧ memNat ready.mem (movedTo ready (rowDpa 1 + (g.base + 8))) 4 % 4 = 0) := by decide +kernel

/-- FetchesStop: PCs 6, 4; a VIRT code segment whose page is in no cache; a descriptor of another stepping, in the row's own bytes. -/
theorem wit_fetchesStop : let pc := fun (n : Nat) => setF ready 1 fPc n
    let v := withMem ready [(0x1080, 0x10000 + 4 * 2 ^ 48 + 2 ^ 53), (0x1088, 0x1000)]
    let h := withMem ready [(0x1800, 0)]
    let h := { h with rows := { h.rows with recheck := [1] } }
    getF (pc 6) 1 fPc % 4 ≠ 0 ∧ (getF (pc 4) 1 fPc % 4 = 0 ∧ getF (pc 4) 1 fPc < 8) ∧
    (codeAddr v 1 8 4 false = .walk 0x10008 ∧ getF v 1 fPend = 0 ∧ v.ms.walks = [] ∧ isThread v 1 = true) ∧
    (h.rows.recheck.contains 1 = true ∧ codeAddr h 1 0 8 true = .at_ 0x1800 ∧ movedTo h 0x1800 = 0x1800 ∧ memNat h.mem 0x1800 8 ≠ Config.encodingHash.toNat ∧
      readCode h 1 0 2 true = (h, true) ∧
      (match hashCheck h 1 with
        | .bad f => f == ⟨0x08, 0, 0x800, 0⟩
        | _ => false) = true) := by decide +kernel

/-- StepsOfTheModule: nothing left to issue; an event that is due, of no executor's clock, and one that waits for a clock; OFF, with and without a reset to come. -/
theorem wit_stepsOfTheModule : let x : Timed := ⟨0, 0, {}, .reset⟩
    let off := setRegBits State.reset powerAt 0 3 0
    let s := ({ ready with clk := { ready.clk with todo := none }, agenda := [⟨0, 0, {}, .lbSample⟩] } : State)
    pstate ready = 2 ∧ (s.clk.todo = none ∧ s.agenda = [⟨0, 0, {}, .lbSample⟩] ∧ 0 ≤ s.clk.now) ∧ waitsClock s ⟨0, 0, {}, .lbSample⟩ = false ∧
    waitsClock s ⟨0, 0, { upto := 9 }, .longInstructionComplete 1⟩ = true ∧ (pstate off = 0 ∧ off.agenda = []) ∧
    pstate ({ off with agenda := [x] } : State) = 0 := by decide +kernel

/-- StepsKeepMemoryCanonical: states that meet the invariant. -/
theorem wit_stepsKeep : State.reset.Inv ∧ ready.Inv := by unfold State.Inv; decide +kernel

/-- DecodingInvertsEncoding: a scalar and a wide form. -/
theorem wit_decodingInverts : wellFormed (.add ⟨.i64, 31, 30, 29⟩) = true ∧ wellFormed (.fma ⟨3, 4, 5, 6, 0xB, 0⟩) = true := by decide +kernel

/-! Forms that complete. -/

/-- RegisterFormsComplete: a good literal; the last good target; both levels. -/
theorem wit_registerForms : (0xFFFFFFFFFC : Word).toNat % 4 = 0 ∧ (0xFFFFFFFFFC : Word).toNat < 2 ^ 40 ∧
    (let t := (src (row [(S 4, 2 ^ 40)]) 4 : Int) + (0xFFC : BitVec 12).toInt
     0 ≤ t ∧ t < 2 ^ 40 ∧ t % 4 = 0) ∧ (0 : Reg).toNat < 2 ∧ (1 : Reg).toNat < 2 := by decide +kernel

/-- OwnRowFormsComplete: a scope for ST.DRY; side by side, a stride apart and at the indexes 0, 1, 2 … of V2 above the reserved bytes; an atomic's word on each side of them. -/
theorem wit_ownRowForms : let s := segRow ((S 7, 0x1F1F0000) :: (List.range 8).map fun j => (0x280 + 8 * j, j))
    let lanes := fun (wr : Bool) (off : Nat → Int) => ∀ j < 512 / 64, bitAt (getK s 1 0) j = true →
      OwnSpan s rowSeg ((0x800 : Int) + off j) 8 8 wr ∧ (wr = true → 0x700 ≤ rowSeg.base + ((0x800 : Int) + off j).toNat)
    let word := fun (g : Seg) (off : Int) (n : Nat) => OwnSpan s g off n n false ∧ OwnSpan s g off n n true ∧ 0x100 ≤ g.base + off.toNat
    (isOpen s 1 = true ∧ s.clk.cur < 2 ^ 28) ∧ (scopeOperand s 1 (getS s 1 7) = .ok 0 ∧ (∀ w ∈ s.ms.wet, w.row ≠ 1) ∧ ∀ e ∈ s.ms.reqs, e.2.row ≠ 1) ∧ word (getSeg s 1 1) 0x3F8 8 ∧ 0x700 ≤ (getSeg s 1 1).base + (0x3F8 : Int).toNat ∧
    (∀ i ∈ [Instr.vld ⟨1, 0, false, 4, false, ⟨0, true, 0, 0x800⟩⟩, .vst ⟨1, 0, 4, ⟨0, true, 0, 0x800⟩⟩, .vsts ⟨6, 3, 0, 4, ⟨0, true, 0, 0x800⟩⟩,
      .vgat ⟨1, 2, 3, 0, false, 4, ⟨0, true, 0, 0x800⟩⟩, .vsct ⟨2, 3, 3, 0, 4, ⟨0, true, 0, 0x800⟩⟩], wellFormed i = true) ∧
    (∀ wr ∈ [false, true], lanes wr (fun j => (j * 8 : Nat)) ∧ lanes wr (fun j => j * (BitVec.ofNat 64 (src s 6)).toInt) ∧
      lanes wr fun j => signedOf 64 (elemAt 64 (getV s 1 2) j) * (2 ^ 3 : Nat)) ∧
    (word rowSeg 0x638 8 ∧ rowSeg.base + (0x638 : Int).toNat < 0x640) ∧ (word rowSeg 0xFFC 4 ∧ 0x700 ≤ rowSeg.base + (0xFFC : Int).toNat) := by
  simp -zeta only [okIs_iff]
  unfold OwnSpan; decide +kernel

/-- AskingFormsComplete: a privileged row that holds its unit, with the names and operands of every form. -/
theorem wit_askingForms : let s := rackRow [(S 4, 0x5000), (S 13, 0x1F1F0000), (0x70, 2 ^ 52), (S 5, 127), (S 6, 0x800), (S 7, 2 ^ 16), (S 8, 0xFC0), (S 10, 8), (S 11, 15), (S 12, 0x00F00101)] []
    let u := { s with eng := { s.eng with units := [(0, ⟨some 1, 0, 0, 0x0B * 2 ^ 5, accEmpty, [], none⟩)] } }
    rowOperand u 1 (getS u 1 4) = .ok 5 ∧ noteTarget u 1 (getS u 1 4) = .ok 0x5000 ∧ potName u 1 (getS u 1 7) true = .ok 0 ∧ potName u 1 (getS u 1 7) false = .ok 0 ∧
    (isPriv u 1 = true ∧ getF u 1 fDeficit < 63 ∧ bitsAt (getS u 1 10).toNat 0 40 ≠ 0 ∧ bitsAt (getS u 1 10).toNat 40 24 = 0 ∧
      rackCount u (rackKey 0 (exOf 1) (partOf u 1)) + 1 + blockSize u (partOf u 1) ≤ rackShare u (rackKey 0 (exOf 1) (partOf u 1))) ∧
    (cellName (exOf 1) (src u 12) = some (543, 0) ∧ (unitAt u (exOf 1)).holder = some 1 ∧ (unitAt u (exOf 1)).spillEnds = none ∧ src u 11 < 4096 ∧ src u 11 < 16) ∧
    (scopeOperand u 1 (getS u 1 13) = .ok 0 ∧ (fencexOpen u 1).length < 8) ∧ (src u 10 / 2 ^ 13 % 8 = 0 ∧ (∀ w ∈ u.ms.wet, w.row ≠ 1) ∧ ∀ e ∈ u.ms.reqs, e.2.row ≠ 1) ∧
    (src u 5 < 128 ∧ src u 6 % 64 = 0 ∧ 0x800 ≤ src u 6 ∧ src u 8 % 64 = 0 ∧ src u 8 ≤ 0xFC0) ∧
    (isOpen u 1 = true ∧ getF u 1 fPend = 0 ∧ getF u 1 fRegion = 0 ∧ u.rows.stepping.contains 1 = false ∧ getF u 1 (fLoopArmed 0) = 0 ∧ getF u 1 (fLoopArmed 1) = 0 ∧
      readyElse { u with rows := { u.rows with queue := [(queueKey (exOf 1) 0, [2])] } } 1 = true) := by
  simp -zeta only [okIs_iff]
  decide +kernel

/-- EventsComplete (with wit_switchGoesThrough): a POTREL with a slot taken; a row at its instruction limit; a commit whose flip is done; spans that a host may reach, up to 4,096 bytes. -/
theorem wit_events : let q : PotReq := ⟨7, 2, 1, 0, 0, 0, 3, true, [], [0], false, 0⟩
    let p := potRow potWord (2 ^ 32 + 1) 0 q
    let i := regionRow [] [(8, 2 ^ 9 + 2 ^ 5), (0x28, 5), (0x58, 7)]
    let i := { i with rows := { i.rows with icount := [(1, 5)] } }
    let c := withRegs (row []) [(powerAt + 8, 2 ^ 32 + 1)]
    let c := { c with hub := { c.hub with journal := [(1, 1, 0), (0, 1, 0)], verified := [0] } }
    let h := withRegs (row []) [(layoutAt 0, 1 + (2 ^ 32 - 1) * 2 ^ 32), (hostWordAt 0 63, 2 ^ 5)]
    ((p.eng.pots.find? fun q => q.id == 7) = some q ∧ getF p 1 fCode = 4 ∧ q.wait = true ∧ q.kind = 2 ∧ potActive p 0 = true ∧ potCtx p 0 = q.ctx ∧ potTaken p 0 ≠ 0 ∧
      (∀ y ∈ p.eng.pots, y.held = false) ∧ p.eng.copies = [] ∧ potHolder p q = none) ∧
    (effIlimit i 1 = some 5 ∧ getF i 1 fPersist = 0 ∧ 5 ≤ tabGetD i.rows.icount 1 0) ∧
    (conservatorRuns c = true ∧ shadowGen c = 1 ∧ layoutGen c = 1 ∧ c.hub.journal = (1, 1, 0) :: (0, 1, 0) :: []) ∧
    (hostUsable h 0 63 = true ∧ h.hub.heldParts.contains 0 = false ∧ (∀ wr ∈ [false, true], ∀ y ∈ lineSpans 0x5001 4096, dpaChecks h 0 (hostPriv h 0 63) wr (0x5001 + y.1) = none) ∧
      isReg 0x5008 = false ∧ inJoinArea h (rowDpa 1 + 0x700) = false ∧ (∀ y ∈ lineSpans 0x5008 8, dpaChecks h 0 (hostPriv h 0 63) true (0x5008 + y.1) = none) ∧
      stackHeld h (rowDpa 1) = none ∧ partOf h 1 = 0 ∧ isReservedRow h 1 = false) := by decide +kernel

/-- EventsComplete: a finished episode whose push is at work, and one whose push was held and is due. -/
theorem wit_releaseEvents : let t := joinTable [{ ep7 with releasing := true }]
    let mk := fun (x : Release) => let s := withMem (rackRow [] []) ep7Mem
      ({ s with join := { s.join with tables := [(8, t)], releases := [(0, [x])] } } : State)
    let a : Release := ⟨8, 7, true, false, 0⟩
    let b : Release := ⟨8, 7, false, true, 0⟩
    Claim.PlainRecord (mk a) t.part 0x20000 (recLen (mk a) 0x20000) ∧ (tableOf (mk a) 8 = some t ∧ epOf t 7 = some { ep7 with releasing := true } ∧ tblOrder t = false ∧
      t.purge = none ∧ (∀ r ∈ (mk a).rows.kinds, r < 2 ^ 28) ∧ 8 % 8 = 0 ∧ rackName 0 (descW t 5) = some (0, 0) ∧
      rackCount (mk a) (rackKey 0 0 t.part) + 1 + blockSize (mk a) t.part ≤ rackShare (mk a) (rackKey 0 0 t.part)) ∧
    ((tabGetD (mk a).join.releases 0 []).find? Release.running) = some a ∧
    (tabGetD (mk b).join.releases 0 []).filter (fun y => y.held && decide (y.offerAt ≤ (mk b).clk.now)) = [b] := by
  exact ⟨plainRecord _ _ _ _ (by decide +kernel) (by decide +kernel), by decide +kernel⟩

end Sys2Proof.Tests
end

namespace Sys2Proof.Machine

/-! ## Memory in canonical form

`State.Inv` speaks of memory alone, so an operation that changes other parts of the state keeps it
(`State.Inv.frame`, `State.Inv.of_mem`). Memory itself is written in a few operations only, each by
`memSetNat`, `memWrite`, `memClear` or a filter, which keep it canonical (`State.Inv.of_wf`). Every
other operation is put together from these. The lemmas below follow the model file by file: one for
each operation that a step can reach, named after it and shaped as its definition is, up to
`State.Inv.step`. -/

/-- The next state of an outcome, when it has one, meets the invariant. -/
def Out.Inv (o : Out) : Prop := ∀ t, o = .next t → t.Inv

/-- The state of an optional result, when it has one, meets the invariant. -/
def OptInv (o : Option State) : Prop := ∀ t, o = some t → t.Inv

protected theorem State.Inv.of_mem {s t : State} (hs : s.Inv) (h : t.mem = s.mem) : t.Inv := by
  unfold State.Inv; rw [h]; exact hs

section
variable {s : State} {m : Memory} {clk : Clock} {agenda : List Timed} {regs : Tab Word} {rows : Rows} {lines : Lines} {ms : MemSys}
  {msg : Msgs} {eng : Engines} {join : Joins} {iss : Issue} {hub : Hub}

protected theorem State.Inv.of_wf (hm : Memory.wf m = true) : State.Inv ⟨clk, agenda, m, regs, rows, lines, ms, msg, eng, join, iss, hub⟩ := hm

/-- A state that differs elsewhere than in memory. -/
protected theorem State.Inv.frame (hs : s.Inv) : State.Inv ⟨clk, agenda, s.mem, regs, rows, lines, ms, msg, eng, join, iss, hub⟩ := hs
end

protected theorem Out.Inv.fault {f : Fault} : Out.Inv (.fault f) := nofun

protected theorem State.Inv.next {s : State} (hs : s.Inv) : Out.Inv (.next s) := by
  rintro _ ⟨⟩; exact hs

protected theorem State.Inv.some {s : State} (hs : s.Inv) : OptInv (some s) := by
  rintro _ ⟨⟩; exact hs

protected theorem OptInv.none : OptInv none := nofun

protected theorem State.Inv.getD {s : State} {o : Option State} (hs : s.Inv) (ho : OptInv o) : (o.getD s).Inv := by
  cases o with
  | none => exact hs
  | some t => exact ho t rfl

protected theorem State.Inv.fst {α : Type} {s : State} {a : α} (hs : s.Inv) : (s, a).1.Inv := hs

/-- The state of a pair that is taken apart. -/
protected theorem State.Inv.of_fst {α : Type} {x : State × α} {t : State} {a : α} (hx : x.1.Inv) (h : x = (t, a)) : t.Inv := by
  subst h; exact hx

protected theorem State.Inv.elim {α : Type} {s : State} {o : Option α} {f : α → State} (hs : s.Inv) (hf : ∀ a, (f a).Inv) :
    (o.elim s f).Inv := by
  cases o with
  | none => exact hs
  | some a => exact hf a

section
variable {c : Prop} {_ : Decidable c}

protected theorem State.Inv.ite {s t : State} (hs : s.Inv) (ht : t.Inv) : (if c then s else t).Inv := by
  split <;> assumption

protected theorem Out.Inv.ite {o p : Out} (ho : Out.Inv o) (hp : Out.Inv p) : Out.Inv (if c then o else p) := by
  split <;> assumption

protected theorem OptInv.ite {o p : Option State} (ho : OptInv o) (hp : OptInv p) : OptInv (if c then o else p) := by
  split <;> assumption
end

protected theorem State.Inv.foldl {α : Type} {f : State → α → State} {l : List α} {s : State} (hs : s.Inv)
    (hf : ∀ s x, s.Inv → (f s x).Inv) : (l.foldl f s).Inv := by
  induction l generalizing s with
  | nil => exact hs
  | cons x r ih => exact ih (hf s x hs)

protected theorem State.Inv.foldl_fst {α β : Type} {f : State × β → α → State × β} {l : List α} {x : State × β} (hx : x.1.Inv)
    (hf : ∀ x a, x.1.Inv → (f x a).1.Inv) : (l.foldl f x).1.Inv := by
  induction l generalizing x with
  | nil => exact hx
  | cons a r ih => exact ih (hf x a hx)

section
variable
  {at_ c code detail eng et ex extra fuel gen i id issuer k key kind l len lo major mode n need off old op p r row since st stack v va w why σ : Nat}
  {out priv transfer z : Bool} {a b d : Reg} {args words : List Nat} {s : State} {q : Req} {ev : Instr} {m : CmdMsg} {es : List Elem}
  {bs : List Byte} {g : Seg} {f : FaultRec} {sub : BitVec 3} {e : Episode} {act : State → State} {mem : XMem} {x : Strip} {tag : MsgTag}
  {o : RackOp} {res : PlanRes} {run : StepRun} {sum : Int} {imm : BitVec 32}

/-! ### Machine/State -/

protected theorem State.Inv.reset : State.reset.Inv := rfl

/-! ### Machine/Store -/

protected theorem State.Inv.setRegWord {a : Nat} (hs : s.Inv) : (setRegWord s a v).Inv := hs.of_mem (setRegWord_mem ..)

protected theorem State.Inv.setRegBits {a : Nat} (hs : s.Inv) : (setRegBits s a lo len v).Inv := hs.of_mem (setRegBits_mem ..)

protected theorem State.Inv.regAdd {a : Nat} (hs : s.Inv) : (regAdd s a n).Inv := hs.of_mem (regAdd_mem ..)

protected theorem State.Inv.regAddSat {a : Nat} (hs : s.Inv) : (regAddSat s a n).Inv := hs.of_mem (regAddSat_mem ..)

/-! ### Machine/RowState -/

protected theorem State.Inv.setRowNat (hs : s.Inv) : (setRowNat s r off n v).Inv := State.Inv.of_wf (wf_memSetNat _ _ _ _ hs)

protected theorem State.Inv.setF {f : Fld} (hs : s.Inv) : (setF s r f v).Inv := hs.setRowNat

protected theorem State.Inv.orFlags (hs : s.Inv) : (orFlags s r n).Inv := by
  unfold orFlags
  exact hs.ite hs.setF

protected theorem State.Inv.setCode (hs : s.Inv) : (setCode s r code why).Inv := hs.setF.setF

protected theorem State.Inv.setTstate (hs : s.Inv) : (setTstate s r v).Inv := by
  unfold setTstate
  exact hs.ite (State.Inv.of_wf (wf_memSetNat _ _ _ _ hs))

protected theorem State.Inv.stampLines {a : Nat} (hs : s.Inv) : (stampLines s a n p c).Inv := hs.frame

protected theorem State.Inv.stampOwn (hs : s.Inv) : (stampOwn s r off n).Inv := hs.stampLines

protected theorem State.Inv.setRawS {v : Word} (hs : s.Inv) : (setRawS s r i v).Inv := hs.stampOwn.setRowNat

protected theorem State.Inv.setV (hs : s.Inv) : (setV s r i v).Inv := hs.stampOwn.setRowNat

protected theorem State.Inv.setK (hs : s.Inv) : (setK s r i v).Inv := by
  unfold setK
  exact hs.ite hs.stampOwn.setRowNat

protected theorem State.Inv.updLive {f : Nat → Nat} (hs : s.Inv) : (updLive s r f).Inv := by
  unfold updLive
  exact hs.ite (State.Inv.of_wf (wf_memSetNat _ _ _ _ hs))

/-! ### Machine/Segments -/

protected theorem State.Inv.fillTlb {e : TlbEntry} (hs : s.Inv) : (fillTlb s ex e).Inv := hs.frame

protected theorem State.Inv.fillS2 {l : List (Nat × Nat)} (hs : s.Inv) : (fillS2 s st l).Inv := hs.frame

/-! ### Machine/Ops -/

protected theorem State.Inv.freshId (hs : s.Inv) : (freshId s).Inv := hs.of_mem (freshId_mem ..)

protected theorem State.Inv.postAt {due : Nat} (hs : s.Inv) : (postAt s due tag ev).Inv := hs.of_mem (postAt_mem ..)

protected theorem State.Inv.postIn {d : Nat} (hs : s.Inv) : (postIn s d tag ev).Inv := hs.of_mem (postIn_mem ..)

protected theorem State.Inv.postClock {d : Nat} (hs : s.Inv) : (postClock s ex d tag ev).Inv := hs.postIn

protected theorem State.Inv.repost {t : Timed} (hs : s.Inv) : (repost s t).Inv := hs.of_mem (repost_mem ..)

protected theorem State.Inv.tryLater {d : Nat} {t : Timed} (hs : s.Inv) : (tryLater s d t).Inv := hs.of_mem (tryLater_mem ..)

protected theorem State.Inv.sendIn {d : Nat} (hs : s.Inv) : (sendIn s d tag ev).Inv := hs.of_mem (sendIn_mem ..)

protected theorem State.Inv.logBox {place : Nat} (hs : s.Inv) : (logBox s kind place p c detail).Inv := hs.of_mem (logBox_mem ..)

protected theorem State.Inv.updEnd {f : Endpoint → Endpoint} (hs : s.Inv) : (updEnd s r f).Inv := hs.of_mem (updEnd_mem ..)

protected theorem State.Inv.setS {v : Word} (hs : s.Inv) : (setS s r i v).Inv := by
  unfold setS
  exact hs.ite (hs.ite ((hs.setRawS.updEnd.ite hs.setRawS.updEnd.updEnd.postIn).ite hs.setRawS))

protected theorem State.Inv.commitPop (hs : s.Inv) : (commitPop s r).Inv := by
  unfold commitPop
  split
  · exact hs
  · exact hs.updEnd.frame

protected theorem State.Inv.chargeCtx (hs : s.Inv) : (chargeCtx s p c n).Inv := by
  unfold chargeCtx
  exact hs.regAddSat.ite hs

protected theorem State.Inv.chargeDevice (hs : s.Inv) : (chargeDevice s n).Inv := hs.regAddSat

protected theorem State.Inv.chargeHousekeeping (hs : s.Inv) : (chargeHousekeeping s).Inv := hs.frame.chargeDevice

protected theorem State.Inv.chargeRow (hs : s.Inv) :
    (chargeRow s r n).Inv := (hs.setF.ite (State.Inv.of_wf (wf_memSetNat _ _ _ _ hs.setF))).chargeCtx

protected theorem State.Inv.updSlot {f : Slot → Slot} (hs : s.Inv) : (updSlot s r f).Inv := by
  unfold updSlot
  split
  · exact hs
  · exact hs.frame

protected theorem State.Inv.runRow (hs : s.Inv) : (runRow s r).Inv := hs.setCode.updSlot

protected theorem State.Inv.freeSlot (hs : s.Inv) : (freeSlot s r).Inv := hs.of_mem (freeSlot_mem ..)

protected theorem State.Inv.freshCode (hs : s.Inv) : (freshCode s r).Inv := hs.of_mem (freshCode_mem ..)

protected theorem State.Inv.forgetCode (hs : s.Inv) : (forgetCode s r).Inv := hs.frame

protected theorem State.Inv.keepCode {a : Nat} (hs : s.Inv) : (keepCode s a n).Inv := hs.frame

protected theorem State.Inv.dequeue (hs : s.Inv) : (dequeue s r).Inv := hs.of_mem (dequeue_mem ..)

protected theorem State.Inv.withdraw (hs : s.Inv) : (withdraw s r).Inv := hs.of_mem (withdraw_mem ..)

protected theorem State.Inv.enqueue (hs : s.Inv) : (enqueue s r).Inv := by
  unfold enqueue
  exact hs.setCode.setF.frame.postClock.ite hs.setCode.setF.setF.frame

protected theorem State.Inv.releaseUnit (hs : s.Inv) : (releaseUnit s r).Inv := (hs.frame.ite hs).frame

protected theorem State.Inv.dropInput (hs : s.Inv) : (dropInput s r).Inv := by
  unfold dropInput
  split
  · exact hs
  · exact hs.updEnd.regAdd

protected theorem State.Inv.releaseHeld (hs : s.Inv) : (releaseHeld s r).Inv := hs.frame.foldl fun _ _ h => h.repost

protected theorem State.Inv.releaseStep (hs : s.Inv) : (releaseStep s r).Inv := hs.frame.foldl fun _ _ h => h.repost

protected theorem State.Inv.closeRow (hs : s.Inv) : (closeRow s r).Inv := hs.of_mem (closeRow_mem ..)

protected theorem State.Inv.retire (hs : s.Inv) : (retire s r).Inv := by
  unfold retire
  exact hs.ite hs.forgetCode.closeRow.dequeue.dropInput.releaseUnit.updLive.frame.setCode.setF.setF.releaseStep.releaseHeld

protected theorem State.Inv.makeReady (hs : s.Inv) : (makeReady s r).Inv := by
  unfold makeReady
  exact hs.retire.ite hs.enqueue

protected theorem State.Inv.joinRow (hs : s.Inv) : (joinRow s r).Inv := (hs.setF.ite hs).frame.sendIn

protected theorem State.Inv.joinFrom (hs : s.Inv) : (joinFrom s r old).Inv := by
  unfold joinFrom
  exact hs.joinRow.ite hs

protected theorem State.Inv.hostNote {entry : Nat} (hs : s.Inv) : (hostNote s p entry kind words).Inv := hs.of_mem (hostNote_mem ..)

protected theorem State.Inv.sendPacket {peer : Bool} {entry : Nat} (hs : s.Inv) : (sendPacket s p peer entry kind words).Inv :=
  hs.of_mem (sendPacket_mem ..)

protected theorem State.Inv.answerRemote (hs : s.Inv) : (answerRemote s p k kind words).Inv := by
  unfold answerRemote
  exact hs.sendPacket.ite hs.sendPacket

protected theorem State.Inv.toManagement {words : List Word} (hs : s.Inv) : (toManagement s p words).Inv := hs.of_mem (toManagement_mem ..)

protected theorem State.Inv.sysNote {target : Nat} {words : List Word} (hs : s.Inv) : (sysNote s ex p target words).Inv := by
  unfold sysNote
  exact hs.toManagement.ite hs.frame.freshId.sendIn

protected theorem State.Inv.redirectTo (hs : s.Inv) : (redirectTo s r).Inv := hs.setF.setF.setF.setF.setF

protected theorem State.Inv.writeFault (hs : s.Inv) : (writeFault s r f).Inv := hs.setF.setF.setF.setF

protected theorem State.Inv.freezeRow (hs : s.Inv) : (freezeRow s r).Inv := hs.closeRow.dequeue.frame.setCode.joinFrom

protected theorem State.Inv.killOpen (hs : s.Inv) : (killOpen s r).Inv := hs.foldl fun _ _ h => h.retire.ite h

protected theorem State.Inv.faultPolicy (hs : s.Inv) : (faultPolicy s r major).Inv := by
  unfold faultPolicy
  split
  · exact hs.sysNote
  · exact hs
  · exact hs.sysNote.logBox.setTstate.retire.killOpen
  · exact hs.sysNote

protected theorem State.Inv.clearPending (hs : s.Inv) : (clearPending s r).Inv := hs.setF.frame

protected theorem State.Inv.stopNow (hs : s.Inv) : (stopNow s r).Inv := by
  unfold stopNow
  split
  · exact hs.setCode.joinFrom
  · exact (hs.ite hs.freeSlot).dequeue.setCode
  · exact hs.closeRow.setCode
  · exact hs.closeRow.setCode
  · exact (hs.withdraw.ite hs.closeRow).setCode
  · exact hs

protected theorem State.Inv.stopAfter {s0 : State} (hs : s.Inv) : (stopAfter s0 s r).Inv := by
  unfold stopAfter
  exact hs.stopNow.ite hs

protected theorem State.Inv.faultEntry (hs : s.Inv) : (faultEntry s r f major).Inv := hs.writeFault.freezeRow.regAdd.faultPolicy.releaseStep

protected theorem State.Inv.settlePending (hs : s.Inv) : (settlePending s r).Inv := by
  unfold settlePending
  split
  · exact hs
  · extract_lets _ s2 s3
    have hs2 : s2.Inv := hs.clearPending
    have hs3 : s3.Inv := by
      unfold s3
      split
      · exact hs2.retire
      · split
        · exact hs2
        · split
          · exact hs2.faultEntry
          · exact hs2.redirectTo.makeReady
      · exact hs2
    exact hs3.stopAfter.releaseHeld

protected theorem State.Inv.takeFault (hs : s.Inv) : (takeFault s r f major).Inv := hs.faultEntry.settlePending

protected theorem State.Inv.faultNow (hs : s.Inv) : (faultNow s r f).Inv := hs.takeFault

protected theorem State.Inv.faultInstr {cause : Nat} (hs : s.Inv) : (faultInstr s r cause detail).Inv := hs.faultNow

protected theorem State.Inv.loopLevel {skip : Bool} {n : Int} (hs : s.Inv) : (loopLevel s r l skip n transfer).1.Inv := by
  unfold loopLevel
  extract_lets
  split
  · exact hs
  · split
    · split
      · exact hs.setF
      · exact hs
    · split
      · split
        · exact hs.setF
        · exact hs.setF.setF
      · split
        · exact hs.setF
        · exact hs

protected theorem State.Inv.resolvePc {skip : Option Nat} (hs : s.Inv) : (resolvePc s r n transfer skip).Inv :=
  (hs.loopLevel.loopLevel.freshCode.ite hs.loopLevel.loopLevel).setF

protected theorem State.Inv.landCommand (hs : s.Inv) : (landCommand s r).Inv := by
  unfold landCommand
  extract_lets _ bad s2 s3 s4
  have hs2 : s2.Inv := hs.clearPending
  have hs3 : s3.Inv := hs2.withdraw
  have hs4 : s4.Inv := by
    unfold s4
    split
    · exact hs2.closeRow.setCode
    · clear_value bad
      split
      · exact hs3.takeFault
      · exact hs3.redirectTo.runRow
    · exact hs2.retire
    · exact hs2
  exact hs4.stopAfter.releaseHeld

protected theorem State.Inv.endStep (hs : s.Inv) : (endStep s r).Inv := hs.frame.closeRow.setCode.clearPending.releaseHeld

protected theorem State.Inv.landNow (hs : s.Inv) : (landNow s r).Inv := by
  unfold landNow
  exact hs.postIn.releaseStep.ite (hs.endStep.ite hs.landCommand)

protected theorem State.Inv.endWindow (hs : s.Inv) : (endWindow s r).Inv := hs.frame

protected theorem State.Inv.retainRow (hs : s.Inv) : (retainRow s r).Inv := hs.endWindow.withdraw.updSlot.frame.setCode.setF

protected theorem State.Inv.startWindow (hs : s.Inv) : (startWindow s r).Inv := hs.frame.setF

protected theorem State.Inv.watchdogFires (hs : s.Inv) : (watchdogFires s r detail).Inv := hs.takeFault

protected theorem State.Inv.boundary (hs : s.Inv) : (boundary s r).Inv := by
  unfold boundary
  exact hs.ite (hs.landNow.ite (hs.retire.ite (hs.watchdogFires.ite (hs.retainRow.ite hs))))

protected theorem State.Inv.finishAt {skip : Option Nat} (hs : s.Inv) : (finishAt s r n transfer skip).Inv := hs.resolvePc.commitPop.boundary

protected theorem State.Inv.finish (hs : s.Inv) : (finish s r len).Inv := hs.finishAt

protected theorem State.Inv.jumpTo (hs : s.Inv) : (jumpTo s r n).Inv := hs.finishAt

protected theorem State.Inv.beginLong (hs : s.Inv) : (beginLong s r why len).Inv := hs.frame.setCode.frame

protected theorem State.Inv.goLong {d : Nat} {c : Completion} (hs : s.Inv) : (goLong s r why len d c).Inv := hs.beginLong.frame.postClock

protected theorem State.Inv.completeLong (hs : s.Inv) : (completeLong s r).Inv := by
  unfold completeLong
  extract_lets _ s1 _ _ s3 _
  have hs1 : s1.Inv := hs.updEnd.ite hs
  have hs3 : s3.Inv := (hs1.ite hs1.setF).withdraw.resolvePc
  exact hs3.makeReady.ite (hs3.ite hs3.releaseStep).runRow.boundary

protected theorem State.Inv.faultLong (hs : s.Inv) : (faultLong s r f).Inv := hs.faultNow

protected theorem State.Inv.endLong {regs : List Nat} {write : State → State} (hs : s.Inv) (hwrite : ∀ s, s.Inv → (write s).Inv) :
    (endLong s r regs write).Inv := by
  unfold endLong
  split
  · exact hs.faultLong
  · exact (hwrite _ hs).completeLong

protected theorem State.Inv.waitOn {bounded : Bool} {c : Cond} (hs : s.Inv) : (waitOn s r why bounded c).Inv := by
  unfold waitOn
  extract_lets _ _ _ _ s2 s3 s4
  have hs2 : s2.Inv := hs.setCode.frame.frame
  have hs3 : s3.Inv := hs2.ite hs2.postClock
  have hs4 : s4.Inv := hs3.ite hs3.releaseStep
  exact hs3.landNow.ite (hs4.endWindow.updSlot.setCode.setF.ite hs4)

protected theorem State.Inv.restAt {wait : State → State} (hs : s.Inv) (hwait : ∀ s, s.Inv → (wait s).Inv) : (restAt s r wait).Inv := by
  unfold restAt
  exact (hwait _ hs).ite (hs.retire.ite (hs.watchdogFires.ite (hwait _ hs)))

protected theorem State.Inv.resumeRow (hs : s.Inv) : (resumeRow s r).Inv := by
  unfold resumeRow
  extract_lets s1
  have hs1 : s1.Inv := hs.withdraw
  split
  · exact hs1.releaseStep.runRow
  · exact hs1.makeReady
  · exact hs1

protected theorem State.Inv.noteOutcome {out cmd : Nat} (hs : s.Inv) : (noteOutcome s r out cmd).Inv := by
  unfold noteOutcome
  exact hs.setF.setF.setF.ite hs.setF

protected theorem State.Inv.resetCount (hs : s.Inv) : (resetCount s r).Inv := hs.of_mem (resetCount_mem ..)

protected theorem State.Inv.checked (hs : s.Inv) (hact : ∀ s, s.Inv → (act s).Inv) : (checked s r act).Inv := by
  unfold checked
  split
  · exact hact _ hs
  · exact hs.takeFault
  · exact hact _ hs.frame

protected theorem State.Inv.startChecked (hs : s.Inv) : (startChecked s r old).Inv := hs.checked fun _ h => h.joinFrom.makeReady

protected theorem State.Inv.cmdGate {needs : Bool} (hs : s.Inv) (hact : ∀ s, s.Inv → (act s).Inv) : (cmdGate s code m needs act).Inv := by
  unfold cmdGate
  exact hs.noteOutcome.ite (hs.noteOutcome.ite (hact _ hs))

protected theorem State.Inv.armRow (hs : s.Inv) : (armRow s r code).Inv :=
  (State.Inv.of_wf (wf_memClear _ _ _ (hs.foldl (fun _ _ h => h.setRowNat)))).stampOwn.frame.updLive.ite
      (State.Inv.of_wf (wf_memClear _ _ _ (hs.foldl (fun _ _ h => h.setRowNat)))).stampOwn.frame.frame

protected theorem State.Inv.cmdStart (hs : s.Inv) : (cmdStart s m).Inv := by
  unfold cmdStart
  extract_lets
  refine State.Inv.cmdGate hs ?_
  intro _ h
  split
  · exact h.noteOutcome.ite (h.noteOutcome.resetCount.setTstate.ite h.noteOutcome.resetCount).startChecked
  all_goals exact h.noteOutcome

protected theorem State.Inv.cmdPend (hs : s.Inv) : (cmdPend s r w).Inv := by
  unfold cmdPend
  extract_lets s1
  have hs1 : s1.Inv := hs.noteOutcome.setF
  split
  · exact hs1.landCommand
  · split
    · exact hs1.landNow
    · split
      · exact hs1.ite hs1.landNow
      · exact hs1
  · exact hs1

protected theorem State.Inv.cmdStop (hs : s.Inv) : (cmdStop s m).Inv := by
  unfold cmdStop
  extract_lets
  refine State.Inv.cmdGate hs ?_
  intro _ h
  split
  · exact h.noteOutcome.stopNow
  · exact h.noteOutcome.stopNow
  · exact h.cmdPend
  · exact h.cmdPend
  · exact h.noteOutcome.stopNow
  all_goals exact h.noteOutcome

protected theorem State.Inv.cmdRedirect (hs : s.Inv) : (cmdRedirect s m).Inv := by
  unfold cmdRedirect
  extract_lets _ _ c
  refine State.Inv.cmdGate hs ?_
  intro _ h
  clear_value c
  split
  case h_1 => exact h.noteOutcome.resetCount.checked fun _ h' => h'.redirectTo
  case h_4 => exact h.noteOutcome
  case h_5 => exact h.noteOutcome.withdraw.resetCount.checked fun _ h' => h'.redirectTo.joinFrom.makeReady
  all_goals
    extract_lets s1 _ s2
    have hs1 : s1.Inv := h.resetCount
    have hs2 : s2.Inv := by
      unfold s2
      split
      · exact hs1
      all_goals exact hs1.frame
    exact hs2.cmdPend

protected theorem State.Inv.cmdResume (hs : s.Inv) : (cmdResume s m).Inv := by
  unfold cmdResume
  extract_lets _ _ c
  refine State.Inv.cmdGate hs ?_
  intro _ h
  clear_value c
  split
  · exact h.noteOutcome.resetCount.startChecked
  · exact h.noteOutcome.resetCount.startChecked
  all_goals exact h.noteOutcome

protected theorem State.Inv.cmdKill (hs : s.Inv) : (cmdKill s m).Inv := by
  unfold cmdKill
  extract_lets
  refine State.Inv.cmdGate hs ?_
  intro _ h
  split
  · exact h.noteOutcome
  · exact h.cmdPend
  · exact h.cmdPend
  · exact h.noteOutcome.retire

protected theorem State.Inv.cmdStep (hs : s.Inv) :
    (cmdStep s m).Inv := hs.cmdGate fun _ h => h.noteOutcome.setF.frame.startChecked.ite h.noteOutcome

protected theorem State.Inv.resumeCopies (hs : s.Inv) : (resumeCopies s r).Inv := hs.frame

protected theorem State.Inv.cmdWake (hs : s.Inv) : (cmdWake s m).Inv := by
  unfold cmdWake
  extract_lets _ _ c
  refine State.Inv.cmdGate hs ?_
  intro _ h
  extract_lets s1
  have hs1 : s1.Inv := h.ite h.resumeCopies
  clear_value c s1
  split
  · exact hs1.noteOutcome.startChecked
  · split
    · exact hs1.noteOutcome.ite hs1.noteOutcome.resumeRow
    · exact hs1.noteOutcome
  · exact hs1.noteOutcome.resumeRow
  all_goals exact hs1.noteOutcome

protected theorem State.Inv.cmdPriority (hs : s.Inv) : (cmdPriority s m).Inv :=
  hs.cmdGate fun _ h => h.noteOutcome.ite (h.noteOutcome.setF.dequeue.enqueue.ite h.noteOutcome.setF)

protected theorem State.Inv.cmdUnknown (hs : s.Inv) : (cmdUnknown s code m).Inv := hs.noteOutcome

protected theorem State.Inv.applyCommand {w : Word} (hs : s.Inv) : (applyCommand s r priv w).Inv := by
  unfold applyCommand
  extract_lets
  split
  · exact hs.cmdStart
  · exact hs.cmdStop
  · exact hs.cmdRedirect
  · exact hs.cmdResume
  · exact hs.cmdKill
  · exact hs.cmdStep
  · exact hs.cmdWake
  · exact hs.cmdPriority
  · exact hs.cmdUnknown

protected theorem State.Inv.startDataRow {w : Word} (hs : s.Inv) : (startDataRow s r w).1.Inv := by
  unfold startDataRow
  split
  · exact hs
  · split
    · exact hs
    · exact hs.armRow.applyCommand

protected theorem State.Inv.stopRow (hs : s.Inv) : (stopRow s r).Inv := by
  unfold stopRow
  exact hs.frame.ite (hs.frame.setF.ite hs.stopNow)

protected theorem State.Inv.budgetStop {new : Nat} (hs : s.Inv) : (budgetStop s r old new).Inv := by
  unfold budgetStop
  exact (hs.sysNote.stopRow.ite hs.sysNote).ite hs

protected theorem State.Inv.chargeStop (hs : s.Inv) : (chargeStop s r n).Inv := hs.chargeRow.budgetStop

/-! ### Machine/Scopes -/

protected theorem State.Inv.beat (hs : s.Inv) : (beat s r).Inv := hs.setF

protected theorem State.Inv.phaseEnd {d : Nat} (hs : s.Inv) : (phaseEnd s r d).Inv := hs.setF.setS.beat.finish

protected theorem State.Inv.waitlbEnd {d : Nat} (hs : s.Inv) : (waitlbEnd s r d σ).Inv := hs.setS.finish

/-! ### Machine/Context -/

protected theorem State.Inv.endOps {mine : List Nat} (hs : s.Inv) : (endOps s mine).Inv := hs.frame.freshId.foldl fun _ _ h => h.postIn

protected theorem State.Inv.contextEnd (hs : s.Inv) : (contextEnd s p c code).Inv :=
  ((hs.foldl (fun _ _ h => h.retire)).foldl (fun _ _ h => h.setRegBits)).endOps.frame.setRegBits.logBox

protected theorem State.Inv.resetScope (hs : s.Inv) : (resetScope s p σ).Inv := hs.frame.foldl fun _ _ h => h.frame

protected theorem State.Inv.writeRect (hs : s.Inv) : (writeRect s p i v).Inv := by
  unfold writeRect
  exact hs.setRegBits.ite (hs.setRegBits.ite hs.setRegWord.resetScope.setRegBits)

protected theorem State.Inv.maskStore {mask : Nat} (hs : s.Inv) : (maskStore s w mask v).Inv := hs.setRegWord

protected theorem State.Inv.writeReg {a : Nat} (hs : s.Inv) : (writeReg s a priv v).Inv := by
  unfold writeReg
  extract_lets
  split
  · exact hs.maskStore.ite hs
  · exact hs.ite (hs.writeRect.ite ((hs.setRegWord.ite hs.maskStore).ite hs))
  · split
    · split
      · exact hs.maskStore.ite hs
      · exact hs.maskStore.ite hs
      · exact hs.setRegWord
      · exact hs
    · exact hs
  · exact hs

/-! ### Machine/Racks -/

protected theorem State.Inv.startMove {src dst : Nat} {es : List RackEntry} {d : Nat} (hs : s.Inv) : (startMove s src dst es d).Inv :=
  hs.frame.freshId.postIn

protected theorem State.Inv.moveUp (hs : s.Inv) : OptInv (moveUp s c fuel k) := by
  induction fuel generalizing k with
  | zero => exact OptInv.none
  | succ fuel ih =>
    unfold moveUp
    split
    · exact OptInv.none
    · extract_lets b es room
      have hroom : OptInv room := ih.ite hs.some
      clear_value room
      split
      · exact OptInv.none
      · exact OptInv.none.ite (hroom _ rfl).startMove.some

protected theorem State.Inv.refill (hs : s.Inv) : (refill s c fuel k).Inv := by
  induction fuel generalizing s k with
  | zero => exact hs
  | succ fuel ih =>
    unfold refill
    extract_lets
    split
    · exact hs
    · exact hs.ite (ih (hs.ite hs.startMove))

protected theorem State.Inv.pushAt {e : RackEntry} (hs : s.Inv) : (pushAt s k e).1.Inv := by
  unfold pushAt
  split
  · split
    · exact hs
    · split
      · rename_i h
        exact hs.moveUp _ h
      · exact hs
  · extract_lets
    split
    · exact hs.frame.getD hs.frame.moveUp
    · exact hs.frame

protected theorem State.Inv.takeAt {fromLast : Bool} (hs : s.Inv) : (takeAt s k c fromLast).1.Inv := by
  unfold takeAt
  extract_lets
  split
  · exact hs
  · exact hs.frame.refill

protected theorem State.Inv.sendAck {parent : Nat} (hs : s.Inv) : (sendAck s w parent).Inv := hs.sendIn

protected theorem State.Inv.engage {e : Nat} (hs : s.Inv) : (engage s w e).Inv := by
  unfold engage
  exact hs.setF.setF.ite hs.sendAck

protected theorem State.Inv.acknowledge (hs : s.Inv) : (acknowledge s r).Inv := by
  unfold acknowledge
  exact hs.setF.ite hs

protected theorem State.Inv.answerRow {ws : List RowWrite} {d : Nat} (hs : s.Inv) : (answerRow s r ws d).Inv := by
  unfold answerRow
  exact hs.ite ((hs.endLong (fun _ h => h.foldl (fun _ _ h' => h'.setS))).ite hs.frame.postIn)

protected theorem State.Inv.takeGot {d : Nat} {e : Option RackEntry} (hs : s.Inv) : (takeGot s r d e).1.Inv := by
  unfold takeGot
  split
  · exact hs
  · extract_lets _ s2
    have hs2 : s2.Inv := by
      unfold s2
      split
      · exact hs.beat.engage
      · exact hs.beat
    exact hs2

protected theorem State.Inv.pushEnd {engaging : Bool} (hs : s.Inv) : (pushEnd s o engaging st).Inv := by
  unfold pushEnd
  exact ((hs.setF.ite hs).regAdd.ite (hs.setF.ite hs)).ite ((hs.setF.ite hs).regAdd.ite (hs.setF.ite hs)).answerRow

protected theorem State.Inv.pullDown (hs : s.Inv) : OptInv (pullDown s c fuel k) := by
  induction fuel generalizing k with
  | zero => exact OptInv.none
  | succ fuel ih =>
    unfold pullDown
    split
    · exact OptInv.none
    · exact hs.some.ite (ih.ite hs.startMove.refill.some)

protected theorem State.Inv.holdPush {e : RackEntry} (hs : s.Inv) : (holdPush s o e).Inv := hs.frame.freshId.postIn

protected theorem State.Inv.rackAct (hs : s.Inv) : (rackAct s o).Inv := by
  unfold rackAct
  extract_lets keep _ _ _
  have hkeep : ∀ s, s.Inv → (keep s).Inv := fun _ h => h.frame
  split
  · exact (hkeep _ hs.pushAt).ite ((hs.pushAt.ite hs.pushAt.holdPush).ite hs.pushAt.pushEnd)
  · split
    · exact hs.takeAt.takeGot.answerRow
    · split
      · exact hs.takeAt.takeGot.answerRow
      · split
        · rename_i h
          exact hkeep _ (hs.pullDown _ h)
        · exact hs.answerRow

protected theorem State.Inv.landMove (hs : s.Inv) : (landMove s id).Inv := by
  unfold landMove
  split
  · exact hs
  · extract_lets _ _ _ s2 _ _ _ _ _
    have hs2 : s2.Inv := hs.frame.refill.ite hs.frame
    exact (((hs2.getD hs2.moveUp).ite hs2).frame.foldl (fun _ _ h => h.rackAct)).foldl fun _ _ h => h.postIn.ite h

protected theorem State.Inv.sendRackOp (hs : s.Inv) : (sendRackOp s o).Inv := hs.frame.freshId.sendIn

protected theorem State.Inv.offerPush {h : HeldPush} (hs : s.Inv) : (offerPush s h).Inv := hs.rackAct

protected theorem State.Inv.balance {cnt : Nat → Nat} (hs : s.Inv) : (balance cnt ex s p).Inv := by
  unfold balance
  extract_lets _ _ near _ _ _ _ _ _ _
  split
  · exact hs
  · split
    · exact hs
    · clear_value near
      split
      · exact hs
      · exact hs.regAdd.frame.freshId.postIn.ite hs

/-! ### Machine/Home -/

protected theorem State.Inv.meetError (hs : s.Inv) : (meetError s l).Inv := by
  unfold meetError
  split
  · exact hs
  · exact hs.frame.regAdd.ite hs.frame.frame.regAdd

protected theorem State.Inv.meetLines {a : Nat} (hs : s.Inv) : (meetLines s a n).Inv := hs.foldl fun _ _ h => h.meetError

protected theorem State.Inv.touch {a : Nat} (hs : s.Inv) : (touch s a).1.Inv := by
  unfold touch
  extract_lets s1 _
  have hs1 : s1.Inv := hs.ite hs.meetError
  split
  · split
    · exact hs1.frame.chargeDevice
    · exact hs1
  · extract_lets s1 _
    have hs1 : s1.Inv := hs1.frame
    split
    · exact hs1
    · exact hs1.frame.chargeDevice

protected theorem State.Inv.writeThread (hs : s.Inv) : (writeThread s r off bs priv).Inv := by
  unfold writeThread
  extract_lets _ _ _ s2 s3 _ s4
  have hs2 : s2.Inv := State.Inv.of_wf (wf_memWrite _ _ _ hs.keepCode)
  have hs3 : s3.Inv := hs2.setF.ite hs2
  have hs4 : s4.Inv := hs3.frame.ite hs3
  exact hs4.joinRow.ite hs4

protected theorem State.Inv.writePlain {a : Nat} (hs : s.Inv) : (writePlain s a bs priv).Inv := State.Inv.of_wf (wf_memWrite _ _ _ hs.keepCode)

protected theorem State.Inv.clearPrec {a : Nat} (hs : s.Inv) : (clearPrec s a n).Inv := hs.frame

protected theorem State.Inv.answerWatch {w : Watch} (hs : s.Inv) : (answerWatch s w).Inv := by
  unfold answerWatch
  extract_lets
  split
  · exact hs.frame
  · exact hs.frame.frame.sendIn

protected theorem State.Inv.checkWatches {a : Nat} (hs : s.Inv) : (checkWatches s a n).Inv := hs.foldl fun _ _ h => h.ite h.answerWatch

protected theorem State.Inv.putHome {a : Nat} (hs : s.Inv) : (putHome s a bs priv p c).Inv := by
  unfold putHome
  extract_lets _ _ _ s1
  have hs1 : s1.Inv := by
    unfold s1
    split
    · exact hs.writeThread.ite hs.writePlain
    · exact hs.writePlain
  exact (hs.foldl (fun _ _ h => h.writeReg)).ite hs1.clearPrec.stampLines

protected theorem State.Inv.writeHome {a : Nat} (hs : s.Inv) : (writeHome s a bs priv p c).Inv := by
  unfold writeHome
  exact hs.ite hs.putHome.checkWatches

protected theorem State.Inv.writeEngine {a : Nat} (hs : s.Inv) : (writeEngine s a bs p c).Inv :=
  (State.Inv.of_wf (wf_memWrite _ _ _ hs.keepCode)).clearPrec.stampLines.checkWatches

protected theorem State.Inv.writeSome {a : Nat} {t : Tab Byte} (hs : s.Inv) : (writeSome s a t priv p c).Inv :=
  (hs.foldl (fun _ _ h => h.putHome)).checkWatches

protected theorem State.Inv.holdCommand (hs : s.Inv) : (holdCommand s r ev).Inv := hs.frame

protected theorem State.Inv.giveCommand {w : Word} (hs : s.Inv) : (giveCommand s issuer r priv w).Inv := by
  unfold giveCommand
  exact hs.holdCommand.ite hs.applyCommand.checkWatches

protected theorem State.Inv.consumePoison {a : Nat} (hs : s.Inv) : (consumePoison s p c a n).1.Inv := by
  unfold consumePoison
  split
  · exact hs
  · exact hs.regAdd.contextEnd

protected theorem State.Inv.landNote {words : List Word} (hs : s.Inv) : (landNote s r words).1.Inv := by
  unfold landNote
  split
  · exact hs
  · split
    · exact hs
    · split
      · exact hs
      · extract_lets _ _ _ _ _ _ _ _ s4 _ s6 s7
        have hs4 : s4.Inv := hs.setRowNat.setRowNat.setRowNat.setRowNat
        have hs6 : s6.Inv := (hs4.stampLines.ite hs4.stampOwn).setF
        have hs7 : s7.Inv := hs6.setF.ite hs6
        exact hs7.engage.ite hs7

protected theorem State.Inv.offerSystem {n : SysNote} (hs : s.Inv) : (offerSystem s n).Inv := by
  unfold offerSystem
  extract_lets drop x
  have hdrop : ∀ s, s.Inv → (drop s).Inv := fun _ h => h.frame
  have hx : x.1.Inv := by
    unfold x
    split
    · exact hs
    · exact hs.landNote
  exact (hdrop _ hs).toManagement.ite ((hdrop _ hx).ite hs.postIn)

protected theorem State.Inv.startAt {w : Word} (hs : s.Inv) : (startAt s r w).1.Inv := hs.startDataRow.ite hs.startDataRow.clearPrec.checkWatches

protected theorem State.Inv.ctlAt {w : Word} (hs : s.Inv) : (ctlAt s issuer r priv w).1.Inv := by
  unfold ctlAt
  split
  · split <;> exact hs.giveCommand
  · split
    · exact hs.startAt
    · exact hs

protected theorem State.Inv.armAt (hs : s.Inv) : (armAt s r mode).1.Inv := by
  unfold armAt
  split
  · exact hs
  · split
    · exact hs
    · split
      · exact hs
      · exact hs.armRow.clearPrec.checkWatches

protected theorem State.Inv.disarmAt (hs : s.Inv) : (disarmAt s r).1.Inv := by
  unfold disarmAt
  split
  · exact hs
  · extract_lets
    split
    · exact (hs.ite hs.updLive).freeSlot.frame
    · exact hs

protected theorem State.Inv.spawnAt {pc : Nat} {args : List Word} {started : Bool} (hs : s.Inv) : (spawnAt s ex issuer pc args started).1.Inv := by
  unfold spawnAt
  extract_lets
  split
  · exact hs
  · split
    · exact hs
    · split
      · exact hs
      · extract_lets _ _ _ _ _ _ _ _ _ _ s7 _
        have hs7 : s7.Inv := ((State.Inv.of_wf (wf_memWrite _ _ _ (wf_memClear _ _ _ hs.updLive.frame))).setRowNat.setRowNat.setRowNat.foldl
            (fun _ _ h => h.setRawS)).setF.setF.setF.stampLines.clearPrec.checkWatches
        exact hs7.cmdStart.ite hs7

protected theorem State.Inv.jdecAt {a : Nat} {cont : List Word} (hs : s.Inv) : (jdecAt s q a cont).1.Inv := by
  unfold jdecAt
  extract_lets _ s1 _ _ _ _ _ _
  have hs1 : s1.Inv := hs.writeHome
  split
  · exact hs1.frame.freshId.postIn
  · exact hs1

/-! ### Machine/Access -/

protected theorem State.Inv.admitWalk (hs : s.Inv) : (admitWalk s st).Inv := by
  unfold admitWalk
  split
  · exact hs
  · split
    · exact hs
    · exact hs.frame

protected theorem State.Inv.setWalk {w : Walk} (hs : s.Inv) : (setWalk s w).Inv := hs.frame

protected theorem State.Inv.startWalks (hs : s.Inv) : (startWalks s st fuel).Inv := by
  induction fuel generalizing s with
  | zero => exact hs
  | succ fuel ih =>
    unfold startWalks
    split
    · exact hs
    · split
      · exact hs
      · extract_lets out s1
        have hs1 : s1.Inv := hs.foldl fun _ _ h => h.ite h.meetLines
        exact ih hs1.setWalk.regAdd.sendIn.admitWalk

protected theorem State.Inv.addWalk {part ctx : Nat} {serve : WalkFor} (hs : s.Inv) : (addWalk s ex row part ctx va need serve).Inv := by
  unfold addWalk
  extract_lets
  split
  · exact hs.frame
  · exact hs.frame.freshId.startWalks

protected theorem State.Inv.pageFault {level : Nat} (hs : s.Inv) : (pageFault s r va level need major).Inv := by
  unfold pageFault
  split
  · exact hs.faultInstr
  · exact hs.faultNow
  · exact hs.restAt fun _ h => h.regAdd.sysNote.withdraw.waitOn

protected theorem State.Inv.putReq (hs : s.Inv) : (putReq s id q).Inv := hs.frame

protected theorem State.Inv.dropReq (hs : s.Inv) : (dropReq s id).Inv := hs.frame

protected theorem State.Inv.updWet {f : Wet → Wet} (hs : s.Inv) : (updWet s id f).Inv := hs.frame

protected theorem State.Inv.sendDry {w : Wet} {early : Bool} (hs : s.Inv) : (sendDry s w early).Inv := hs.updWet.sendIn

protected theorem State.Inv.dryEarly {q : Rect} (hs : s.Inv) : (dryEarly s r q).Inv := hs.foldl fun _ _ h => h.sendDry

protected theorem State.Inv.addWatch {a : Nat} (hs : s.Inv) : (addWatch s id q a n old).Inv := by
  unfold addWatch
  exact hs.frame.freshId.postIn.ite hs.frame.freshId

protected theorem State.Inv.startFence {after : After} {now_ : State → State} (hs : s.Inv) (hnow_ : ∀ s, s.Inv → (now_ s).Inv) :
    (startFence s r len σ out after now_).Inv := by
  unfold startFence
  exact (hnow_ _ hs.dryEarly).ite (hs.dryEarly.ite hs.dryEarly.beginLong).frame

protected theorem State.Inv.watchWaits (hs : s.Inv) : (watchWaits s r len out).Inv := by
  unfold watchWaits
  exact (hs.restAt (fun _ h => h.waitOn)).ite hs.beginLong.waitOn

protected theorem State.Inv.sendReq (hs : s.Inv) : (sendReq s id q extra).Inv := hs.putReq.foldl fun _ _ h => h.sendIn

protected theorem State.Inv.wetPut (hs : s.Inv) (x : State × Nat × Bool)
    (h : wetPut s q es = some x) : x.1.Inv := by
  unfold Machine.wetPut at h
  extract_lets _ _ _ _ _ put held at h
  have hput : ∀ s, s.Inv → (put s).Inv := fun _ h => h.frame.freshId
  clear_value held
  split at h
  · cases h
    exact hs.updWet
  · split at h
    · cases h
      exact hput _ hs
    · split at h
      · split at h
        · cases h
        · cases h
          exact hput _ hs.updWet
      · cases h

protected theorem State.Inv.sendStores {gs : List (List Elem)} (hs : s.Inv) :
    (sendStores q extra gs i n s).1.Inv := by
  induction gs generalizing i n s with
  | nil => exact hs
  | cons g r ih =>
    unfold sendStores
    extract_lets e i' one _ s1
    have hone : ∀ s st, s.Inv → (one s st).Inv := fun _ _ h => h.freshId.putReq
    split
    · split
      · exact hs
      · rename_i h
        exact ih (hone _ _ (hs.wetPut _ h)).sendIn
    · exact ih (hone _ _ hs).sendIn

protected theorem State.Inv.storeDone {spills : Nat} (hs : s.Inv) : (storeDone s r len out spills).Inv := by
  unfold storeDone
  exact (hs.completeLong.ite hs.finish).ite (hs.setCode.ite hs.beginLong).frame.postClock

protected theorem State.Inv.sendDirect (hs : s.Inv) : (sendDirect s q es extra len out).Inv := by
  unfold sendDirect
  exact hs.sendStores.completeLong.ite hs.sendStores.finish

protected theorem State.Inv.launch {hits : List TlbEntry} (hs : s.Inv) : (launch s id len q es extra hits out).Inv := by
  unfold launch
  extract_lets s1 _ x _ _ _ _ s4 _ _ s6
  have hs1 : s1.Inv := hs.foldl fun _ _ h => h.fillTlb
  have hx : x.1.Inv := hs1.sendStores
  have hs4 : s4.Inv := hs1.watchWaits
  have hs6 : s6.Inv := (hs1.beginLong.ite hs1).sendReq
  split
  · exact hs1.putReq.startFence fun _ h => h.dropReq.sendDirect
  · split
    · exact hx.dropReq.storeDone.ite (hx.ite hx.beginLong).putReq.frame
    · exact (hs4.sendReq.ite hs4.dropReq).ite (hs6.ite (hs6.completeLong.ite hs6.finish))

protected theorem State.Inv.actPlan (hs : s.Inv) : (actPlan s id len q out res).Inv := by
  unfold actPlan
  split
  · exact hs.launch
  · exact hs.dropReq.faultNow
  · exact hs.dropReq.pageFault
  · exact (hs.ite hs.beginLong).putReq.addWalk

protected theorem State.Inv.issueAccess (hs : s.Inv) : (issueAccess s len q).Inv := hs.freshId.actPlan

protected theorem State.Inv.ownPut (hs : s.Inv) : (ownPut s r off bs priv).Inv := hs.writeThread.clearPrec.stampLines

protected theorem State.Inv.ownWrite (hs : s.Inv) : (ownWrite s r off bs priv).Inv := hs.ownPut.checkWatches

protected theorem State.Inv.ownResumed (hs : s.Inv) : (ownResumed s q).Inv := by
  unfold ownResumed
  split
  · exact hs.completeLong.giveCommand.ite hs.ownWrite.completeLong
  · exact hs.faultNow
  · exact hs.completeLong

protected theorem State.Inv.resumeAccess (hs : s.Inv) : (resumeAccess s r id).Inv := by
  unfold resumeAccess
  extract_lets
  split
  · exact hs.frame
  · exact hs.frame.actPlan.ite hs.frame.dropReq.ownResumed

protected theorem State.Inv.serveAccess {w : Walk} {act : State → Nat → Req → Bool → PlanRes → State} (hs : s.Inv)
    (hact : ∀ s x y z w, s.Inv → (act s x y z w).Inv) : (serveAccess s w id act).Inv := by
  unfold serveAccess
  split
  · exact hs
  · exact hs.dropReq.ite (hact _ _ _ _ _ hs)

protected theorem State.Inv.planAct (hs : s.Inv) : (planAct s id q out res).Inv := hs.actPlan

/-! ### Machine/Arrive -/

protected theorem State.Inv.markPast {h : Hold} {mine : Nat → Bool} (hs : s.Inv) : (markPast s id h mine).Inv := by
  unfold markPast
  split
  · split
    · exact hs
    · exact hs.putReq
  · exact hs

protected theorem State.Inv.holdEvent {h : Hold} {t : Timed} (hs : s.Inv) : (holdEvent s h t).Inv := by
  unfold holdEvent
  split
  · exact hs
  all_goals exact hs.frame

protected theorem State.Inv.replyFrom {a : Nat} (hs : s.Inv) : (replyFrom s id q a extra).Inv := hs.sendIn

protected theorem State.Inv.setGot (hs : s.Inv) : (setGot s id i v).Inv := by
  unfold setGot
  split
  · exact hs
  · exact hs.putReq

protected theorem State.Inv.setReqFault (hs : s.Inv) : (setReqFault s id f).Inv := by
  unfold setReqFault
  split
  · exact hs
  · exact hs.ite hs.putReq

protected theorem State.Inv.storeAt {a size : Nat} {scalar : Bool} (hs : s.Inv) : (storeAt s q a size scalar v).Inv := by
  unfold storeAt
  split
  · exact hs.giveCommand.ite (hs.startAt.ite hs.writeHome)
  · exact hs.writeHome

protected theorem State.Inv.atomAt {a : Nat} {e : Elem} {rm : Nat} (hs : s.Inv) : (atomAt s q a e op et rm).1.Inv := hs.writeHome

protected theorem State.Inv.actAt {e : Elem} {a : Nat} (hs : s.Inv) : (actAt s id q e a).1.Inv := by
  unfold actAt
  extract_lets
  split
  · exact hs
  · exact hs.storeAt
  · split
    · exact hs.setReqFault
    · exact hs.atomAt
  · split
    · exact hs.setReqFault
    · exact hs.writeHome.ite hs
  · split
    · exact hs
    · exact hs.addWatch
  · exact hs.ctlAt
  · exact hs.armAt
  · exact hs.disarmAt
  · exact hs
  · extract_lets x
    have hx : x.1.Inv := hs.spawnAt
    split
    · exact hx.setReqFault
    · exact hx
  · split
    · exact hs.setReqFault
    · exact hs.jdecAt.fst
  · exact hs.landNote

protected theorem State.Inv.storeGroup {a : Nat} (hs : s.Inv) : (storeGroup s q a es).Inv := by
  unfold storeGroup
  split
  · exact hs.storeAt
  · exact hs.writeSome

protected theorem State.Inv.arriveGroup {e : Elem} (hs : s.Inv) : (arriveGroup s id i q e ev).Inv := by
  unfold arriveGroup
  split
  · exact hs.tryLater
  · extract_lets _ _ got _
    have hgot : ∀ s, s.Inv → (got s).Inv := fun _ h => h.foldl fun _ _ h' => h'.setGot
    split
    · exact (hgot _ hs).replyFrom
    · split
      · exact (hgot _ hs.touch.storeGroup).replyFrom
      · exact hs.markPast.holdEvent

protected theorem State.Inv.arriveWord {e : Elem} (hs : s.Inv) :
    (arriveWord s id i q e ev).Inv := by
  unfold arriveWord
  split
  · exact hs.tryLater
  · extract_lets _ _ got _ y
    have hgot : ∀ s f, s.Inv → (got s f).Inv := fun _ _ h => h.foldl fun _ _ h' => h'.setGot
    have hy : y.1.Inv := hs.touch.consumePoison
    clear_value got y
    split
    · exact (hgot _ _ hs).replyFrom
    · split
      · split
        · exact (hgot _ _ hy.setReqFault).replyFrom
        · exact (hgot _ _ hy).replyFrom
      · exact hs.markPast.holdEvent

protected theorem State.Inv.arrive (hs : s.Inv) : (arrive s id i ev).Inv := by
  unfold arrive
  split
  · exact hs
  · split
    · exact hs
    · split
      · exact hs.arriveWord.ite hs.arriveGroup
      · split
        · exact hs.tryLater
        · extract_lets _ _ y z s1
          have hy : y.1.Inv := by
            unfold y
            split
            · exact hs.touch.consumePoison
            · exact hs.touch
          have hz : z.1.Inv := hy.actAt
          have hs1 : s1.Inv := by
            unfold s1
            split
            · exact hz.ite hz.putReq
            · exact hz
          split
          · exact hs.setGot.replyFrom
          · split
            · split
              · exact hy.setReqFault.setGot.replyFrom
              · split
                · exact hs1.setGot.replyFrom
                · exact hs1
            · exact hs.markPast.holdEvent

protected theorem State.Inv.firstTrip (hs : s.Inv) : (firstTrip s id ev).Inv := by
  unfold firstTrip
  split
  · exact hs
  · split
    · exact hs
    · split
      · exact hs.tryLater
      · extract_lets _ back _ _ _ _ _
        have hback : ∀ s x, s.Inv → (back s x).Inv := fun _ _ h => h.setGot.sendIn
        split
        · split
          · exact hback _ _ hs.touch.storeGroup.updWet
          · exact hs.markPast.holdEvent
        · exact hback _ _ hs.updWet

protected theorem State.Inv.tripReply (hs : s.Inv) : (tripReply s id).Inv := by
  unfold tripReply
  split
  · exact hs
  · exact (hs.dropReq.ite hs.dropReq.updWet).frame

protected theorem State.Inv.dryByte {pr : Prec} {a : Nat} {b : Byte} (hs : s.Inv) : (dryByte priv p c pr a b s).Inv := by
  unfold dryByte
  extract_lets put
  have hput : ∀ s, s.Inv → (put s).Inv := fun _ h => h.writePlain.stampLines.frame
  split
  · exact hs.ite (hput _ hs)
  · exact hput _ hs

protected theorem State.Inv.dryDirect {w : Wet} {a : Nat} (hs : s.Inv) : (dryDirect s q w a).Inv := by
  unfold dryDirect
  extract_lets s1
  have hs1 : s1.Inv := hs.writeSome
  split
  · exact hs1.storeAt.ite hs1
  · exact hs1

protected theorem State.Inv.applyDry (hs : s.Inv) : (applyDry s id ev).Inv := by
  unfold applyDry
  split
  · exact hs
  · extract_lets
    split
    · exact hs.tryLater
    · split
      · exact (hs.touch.dryDirect.ite (hs.touch.foldl (fun _ _ h => h.dryByte)).checkWatches).updWet.sendIn
      · exact hs.updWet.holdEvent

protected theorem State.Inv.dryAcked (hs : s.Inv) : (dryAcked s id).Inv := hs.frame

protected theorem State.Inv.pollWatch (hs : s.Inv) : (pollWatch s id).Inv := by
  unfold pollWatch
  split
  · exact hs
  · exact hs.answerWatch.ite hs.postIn

/-! ### Machine/Finish -/

protected theorem State.Inv.loadVector {d : Nat} (hs : s.Inv) : (loadVector s q d et k z).Inv := hs.setV.orFlags

protected theorem State.Inv.noteOutcomeAt {d : Nat} {engage : Bool} (hs : s.Inv) : (noteOutcomeAt s q d st engage).Inv := by
  unfold noteOutcomeAt
  exact (hs.setF.ite hs).regAdd.ite (hs.setF.ite hs)

protected theorem State.Inv.writeDest (hs : s.Inv) : (writeDest s q).Inv := by
  unfold writeDest
  extract_lets
  split
  · exact hs
  · exact hs.setS
  · exact hs.loadVector
  · exact hs.setS
  · exact hs.ownWrite.setS
  · exact hs.setS
  all_goals exact hs

protected theorem State.Inv.hostGo (hs : s.Inv) : (hostGo s id).Inv := by
  unfold hostGo
  split
  · exact hs
  · exact hs.foldl fun _ _ h => h.sendIn

protected theorem State.Inv.hostStart (hs : s.Inv) : (hostStart s id q).Inv := by
  unfold hostStart
  split
  · exact hs.putReq.hostGo
  · exact hs.putReq.frame.ite hs.putReq.hostGo

protected theorem State.Inv.hostPump {flow : Nat} (hs : s.Inv) : (hostPump s flow).Inv := hs.foldl fun _ _ h => h.ite h.frame.hostGo

protected theorem State.Inv.noteSide (hs : s.Inv) : (noteSide s q).Inv := by
  unfold noteSide
  split
  · exact hs.noteOutcomeAt
  · extract_lets s1
    have hs1 : s1.Inv := hs.regAdd.answerRemote.ite hs.answerRemote
    split
    · exact hs1.hostPump
    · exact hs1
  · exact hs

protected theorem State.Inv.finishReq (hs : s.Inv) : (finishReq s id q).Inv := by
  unfold finishReq
  extract_lets s1
  have hs1 : s1.Inv := hs.dropReq.noteSide
  split
  · exact hs1
  · split
    · exact hs1.withdraw.makeReady
    · split
      · exact hs1.faultLong
      · exact hs1.endLong fun _ h => h.orFlags.writeDest

protected theorem State.Inv.replyCome (hs : s.Inv) : (replyCome s id q).Inv := by
  unfold replyCome
  exact hs.putReq.ite hs.finishReq

/-! ### Machine/Pots -/

protected theorem State.Inv.setPotF (hs : s.Inv) : (setPotF s k off lo len v).Inv := hs.setRegBits

protected theorem State.Inv.potAnswer {q : PotReq} {f : Option FaultRec} (hs : s.Inv) : (potAnswer s q v f).1.Inv := by
  unfold potAnswer
  extract_lets
  split
  · exact hs.frame
  · split
    · exact hs.frame.frame.sendIn
    · split
      · exact hs.frame.withdraw.makeReady
      · exact hs.frame

protected theorem State.Inv.potTake (hs : s.Inv) : (potTake s k).1.Inv := hs.setPotF.setPotF.setPotF

protected theorem State.Inv.serveGets (hs : s.Inv) : (serveGets s k fuel).Inv := by
  induction fuel generalizing s with
  | zero => exact hs
  | succ fuel ih =>
    unfold serveGets
    split
    · exact hs
    · split
      · exact hs
      · exact (ih hs.potTake.potAnswer).ite (ih hs.potAnswer)

protected theorem State.Inv.potLineDone (hs : s.Inv) : (potLineDone s k).Inv := by
  unfold potLineDone
  exact hs.setPotF.ite hs.setPotF.setPotF.setPotF.setPotF.serveGets

protected theorem State.Inv.potReserve (hs : s.Inv) : OptInv (potReserve s k) := by
  unfold potReserve
  exact hs.some.ite (OptInv.none.ite hs.setPotF.setPotF.setPotF.some)

protected theorem State.Inv.potFWait (hs : s.Inv) : (potFWait s k).Inv := hs.setPotF

protected theorem State.Inv.putLine {q : PotReq} (hs : s.Inv) : (putLine s q).1.Inv := hs.writeHome.potLineDone

protected theorem State.Inv.holdPot {q : PotReq} (hs : s.Inv) : (holdPot s q st).Inv := hs.frame.holdEvent

protected theorem State.Inv.servePuts (hs : s.Inv) : (servePuts s k fuel).Inv := by
  induction fuel generalizing s with
  | zero => exact hs
  | succ fuel ih =>
    unfold servePuts
    split
    · exact hs
    · split
      · exact ih hs.potAnswer
      · split
        · exact hs
        · rename_i h
          split
          · exact ih hs.holdPot
          · exact ih (hs.potReserve _ h).putLine.potAnswer
    · rename_i h
      exact ih (hs.potReserve _ h).frame
    · exact hs

protected theorem State.Inv.potHold {q : PotReq} (hs : s.Inv) : (potHold s q).Inv := by
  unfold potHold
  exact State.Inv.restAt hs.frame.freshId fun _ h => h.waitOn.ite h

protected theorem State.Inv.potSetAct {q : PotReq} (hs : s.Inv) : (potSetAct s q).Inv :=
  hs.potAnswer.ite ((hs.setPotF.foldl (fun _ _ h => h.potAnswer)).potAnswer.ite
      (hs.potAnswer.ite (hs.potAnswer.ite (hs.setRegWord.setRegWord.setRegWord.foldl (fun _ _ h => h.potAnswer)).potAnswer)))

protected theorem State.Inv.potApply (hs : s.Inv) : (potApply s id).Inv := by
  unfold potApply
  split
  · exact hs
  · extract_lets
    split
    · split
      · exact hs.potAnswer
      · split
        · exact hs.potAnswer
        · split
          · exact hs.potFWait.potHold
          · rename_i h
            exact (hs.potReserve _ h).putLine.potAnswer
    · exact hs.potAnswer.ite (hs.potAnswer.ite (hs.setPotF.potHold.ite hs.potTake.potAnswer))
    · exact hs.potAnswer.ite (hs.potAnswer.ite hs.setPotF.setPotF.setPotF.servePuts.potAnswer)
    · exact hs.potSetAct

protected theorem State.Inv.sendPot {q : PotReq} (hs : s.Inv) : (sendPot s q).Inv := hs.frame.freshId.sendIn

/-! ### Machine/Copies -/

protected theorem State.Inv.updCopy {f : Copy → Copy} (hs : s.Inv) : (updCopy s id f).Inv := hs.frame

protected theorem State.Inv.copyOver {c : Copy} (hs : s.Inv) : (copyOver s c).Inv := hs.updCopy.postIn

protected theorem State.Inv.copyEnd (hs : s.Inv) : (copyEnd s id).Inv := by
  unfold copyEnd
  split
  · exact hs
  · exact (hs.updCopy.ite hs.copyOver).ite hs

protected theorem State.Inv.copiesAcked (hs : s.Inv) : (copiesAcked s p k).Inv := hs.foldl fun _ _ h => h.copyOver

protected theorem State.Inv.copyFail {bit : Nat} (hs : s.Inv) : (copyFail s id bit).Inv := hs.updCopy.copyEnd

protected theorem State.Inv.copyPage {c : Copy} {level : Nat} (hs : s.Inv) : (copyPage s c va level need).Inv := by
  unfold copyPage
  split
  · exact hs.copyFail
  · exact hs.copyFail
  · exact hs.regAdd.sysNote.updCopy

protected theorem State.Inv.pieceBytes {a1 n1 a2 n2 : Nat} (hs : s.Inv) : (pieceBytes s a1 n1 a2 n2).1.Inv := hs.touch.ite hs.touch.touch

protected theorem State.Inv.potGate {c : Copy} (hs : s.Inv) : (potGate s c).1.Inv := by
  unfold potGate
  extract_lets
  split
  · exact hs
  · split
    · exact hs
    · split
      · exact hs
      · split
        · exact hs
        · split
          · exact hs
          · split
            · rename_i h
              exact hs.potReserve _ h
            · exact hs.potFWait

protected theorem State.Inv.takeSlot (hs : s.Inv) : (takeSlot s st).Inv := hs.frame

protected theorem State.Inv.takePiece {c : Copy} {p : NextPiece} {a1 x1 a2 b y : Nat} (hs : s.Inv) : (takePiece s c p a1 x1 a2 b y).Inv :=
  hs.pieceBytes.takeSlot.updCopy.frame.chargeStop

protected theorem State.Inv.renewEnd {c : Copy} {o : Int} (hs : s.Inv) : (renewEnd s c g o).Inv := by
  unfold renewEnd
  split
  · exact hs
  · split
    · exact hs.fillTlb
    · exact hs

protected theorem State.Inv.renewPiece {c : Copy} {p : NextPiece} (hs : s.Inv) : (renewPiece s c p).Inv := by
  unfold renewPiece
  exact (hs.renewEnd.ite hs.renewEnd.renewEnd).ite (hs.renewEnd.ite hs.renewEnd.renewEnd).renewEnd

protected theorem State.Inv.pieceRead (hs : s.Inv) : (pieceRead s id).Inv := by
  unfold pieceRead
  split
  · exact hs
  · split
    · exact hs
    · split
      · exact hs.copyFail
      · extract_lets _ walk
        have hwalk : ∀ x y, (walk x y).Inv := fun _ _ => hs.updCopy.addWalk
        split
        · split
          · rename_i h
            exact (hs.potGate.of_fst h).renewPiece.takePiece
          · rename_i h
            exact (hs.potGate.of_fst h).updCopy.freshId
          · rename_i h
            exact (hs.potGate.of_fst h).copyFail
          · exact hs
          · exact hs.updCopy.holdEvent
        · exact hwalk _ _
        · exact hwalk _ _
        · exact hwalk _ _
        · exact hs.copyPage
        · exact hs.copyPage
        · exact hs.copyPage
        all_goals exact hs.copyFail

protected theorem State.Inv.carryPoison {a : Nat} {bad : Bool} (hs : s.Inv) : (carryPoison s a n bad).Inv := by
  unfold carryPoison
  exact hs.ite (hs.foldl (fun _ _ h => h.frame))

protected theorem State.Inv.pieceDone (hs : s.Inv) : (pieceDone s id).Inv := hs.updCopy.copyEnd

protected theorem State.Inv.pieceLost {bit : Nat} (hs : s.Inv) : (pieceLost s id bit).Inv := hs.updCopy.copyFail

protected theorem State.Inv.pieceToPot {c : Copy} {f : Piece} {a : Nat} (hs : s.Inv) : (pieceToPot s c f a).Inv :=
  ((hs.writeHome.carryPoison.potLineDone.ite hs.writeHome.carryPoison).ite
      (hs.writeHome.carryPoison.potLineDone.ite hs.writeHome.carryPoison).updCopy).pieceDone

protected theorem State.Inv.pieceWrite (hs : s.Inv) : (pieceWrite s id).Inv := by
  unfold pieceWrite
  split
  · exact hs
  · split
    · exact hs
    · extract_lets hold _ _ _ _
      have hhold : ∀ s x, s.Inv → (hold s x).Inv := fun _ _ h => h.updCopy.holdEvent
      split
      · exact hs.frame.sendPacket.pieceDone.ite hs.frame.pieceLost
      · split
        · split
          · exact hs.pieceLost
          · split
            · exact hs.potFWait.updCopy.freshId
            · rename_i h
              extract_lets
              split
              · exact (hs.potReserve _ h).pieceToPot
              · exact hhold _ _ hs
        · split
          · exact hs.updCopy
          · split
            · exact hs.touch.writeHome.carryPoison.pieceDone
            · exact hhold _ _ hs

protected theorem State.Inv.copyReport (hs : s.Inv) : (copyReport s id).Inv := by
  unfold copyReport
  split
  · exact hs
  · exact hs.frame.ite hs.updCopy

protected theorem State.Inv.serveCopy {w : Walk} (hs : s.Inv) : (serveCopy s w id va need).Inv := by
  unfold serveCopy
  split
  · exact hs
  · exact hs.updCopy.ite (hs.updCopy.copyPage.ite hs.updCopy.copyFail)

/-! ### Machine/Governor -/

protected theorem State.Inv.updGov {f : Gov → Gov} (hs : s.Inv) : (updGov s ex p f).Inv := hs.frame

protected theorem State.Inv.windowStart (hs : s.Inv) : (windowStart s ex).Inv := hs.frame.foldl fun _ _ h => h.updGov.updGov

protected theorem State.Inv.groupStart (hs : s.Inv) : (groupStart s ex).Inv := hs.frame

protected theorem State.Inv.addCharge (hs : s.Inv) : (addCharge s ex p w).Inv := hs.updGov

protected theorem State.Inv.engineCharge (hs : s.Inv) : (engineCharge s ex row w).1.Inv := by
  unfold engineCharge
  extract_lets
  split
  · exact hs.updGov
  · exact hs.addCharge.chargeStop

/-! ### Machine/Matrix -/

protected theorem State.Inv.updUnit {f : MatUnit → MatUnit} (hs : s.Inv) : (updUnit s ex f).Inv := hs.frame

protected theorem State.Inv.setRecord {m : MRecord} (hs : s.Inv) : (setRecord s ex p c m).Inv := hs.frame

protected theorem State.Inv.beginSpill (hs : s.Inv) : (beginSpill s ex).Inv := by
  unfold beginSpill
  extract_lets
  split
  · exact hs
  · exact hs.frame.updUnit

protected theorem State.Inv.spillUnit (hs : s.Inv) : (spillUnit s ex).Inv := by
  unfold spillUnit
  extract_lets
  split
  · exact hs
  · extract_lets _ s2 _ _
    have hs2 : s2.Inv := (hs.foldl (fun _ _ h => h.writeHome)).setRecord
    exact (hs2.chargeDevice.ite hs2.chargeCtx).frame

protected theorem State.Inv.restoreUnit (hs : s.Inv) : (restoreUnit s r).Inv := by
  unfold restoreUnit
  extract_lets
  split
  · exact hs.resumeRow
  · extract_lets _ _ _ x _ _ _
    have hx : x.1.Inv := hs.meetLines.consumePoison
    split
    · exact hs.postIn
    · split
      · exact hs.waitOn
      · split
        · exact hx.faultLong
        · exact hx.ite hx.updUnit.setRecord.chargeCtx.resumeRow

protected theorem State.Inv.askRestore (hs : s.Inv) : (askRestore s r).Inv := by
  unfold askRestore
  split
  · exact hs
  · exact hs.waitOn.ite hs.waitOn.sendIn

protected theorem State.Inv.withUnit (hs : s.Inv) (hact : ∀ s, s.Inv → (act s).Inv) : (withUnit s r act).Inv := by
  unfold withUnit
  exact (hs.waitOn.ite (hact _ hs)).ite (hs.askRestore.ite hs.faultInstr)

protected theorem State.Inv.dropMma (hs : s.Inv) : (dropMma s ex).Inv := hs.frame

protected theorem State.Inv.queueStep {i : Stepped} {o : MmaX} {pre : Option StepRun} (hs : s.Inv) : (queueStep s r i o k at_ pre).Inv := hs.frame

protected theorem State.Inv.readLine (hs : s.Inv) : (readLine s ex run l).Inv := hs.meetError.frame

protected theorem State.Inv.beginStep {o : MmaX} (hs : s.Inv) : (beginStep s ex run o).Inv := by
  unfold beginStep
  extract_lets _ _ bad y _ _ s' _ _ _ _ _
  have hy : y.1.Inv := by
    unfold y
    clear_value bad
    split
    · exact hs.consumePoison
    · exact hs
  have hs' : s'.Inv := hy.frame
  split
  · exact hy.dropMma.faultLong
  · exact hy.dropMma.ite (hs'.dropMma.faultLong.contextEnd.ite hs'.updUnit.frame)

protected theorem State.Inv.mmaCycle (hs : s.Inv) : (mmaCycle s ex run).Inv := by
  unfold mmaCycle
  split
  · split
    · exact hs
    · split
      · exact hs.dropMma
      · extract_lets s1
        have hs1 : s1.Inv := hs.ite hs.beginStep
        split
        · exact hs1
        · exact hs1.engineCharge.ite (hs1.engineCharge.frame.postIn.ite hs1.engineCharge.frame)
  · exact hs.dropMma

protected theorem State.Inv.mmaStepEnd (hs : s.Inv) : (mmaStepEnd s ex).Inv := by
  unfold mmaStepEnd
  split
  · exact hs
  · split
    · extract_lets _ _ _ _ _ s3
      have hs3 : s3.Inv := hs.setF.boundary
      split
      · exact hs.setF.postIn.releaseStep
      · split
        · exact hs.setF.dropMma.frame.postClock
        · split
          · exact hs3.dropMma
          · split
            · exact hs3.dropMma.faultLong
            · exact hs3.queueStep
    · exact hs.dropMma

/-! ### Machine/Operands -/

protected theorem State.Inv.putReg {v : Word} (hs : s.Inv) : Out.Inv (putReg s d v len) := hs.setS.finish.next

protected theorem State.Inv.aluR {f : Nat → Bool → Nat → Nat → Nat} {o : AluR} (hs : s.Inv) : Out.Inv (aluR f o s) := hs.putReg

protected theorem State.Inv.aluL {f : Nat → Bool → Nat → Nat → Nat} {o : AluL} (hs : s.Inv) : Out.Inv (aluL f o s) := hs.putReg

protected theorem State.Inv.aluU {f : Nat → Nat → Nat} {o : AluU} (hs : s.Inv) : Out.Inv (aluU f o s) := hs.putReg

protected theorem State.Inv.aluLong {f : Nat → Bool → Nat → Nat → Nat} {o : AluR} (hs : s.Inv) : Out.Inv (aluLong f o s) := hs.goLong.next

protected theorem State.Inv.aluLongL {f : Nat → Bool → Nat → Nat → Nat} {o : AluL} (hs : s.Inv) : Out.Inv (aluLongL f o s) := hs.goLong.next

protected theorem State.Inv.immI {f : Word → Word → Word} {o : ImmI} (hs : s.Inv) : Out.Inv (immI f o s) := hs.putReg

protected theorem State.Inv.immL {f : Word → Word → Word} {o : ImmL} (hs : s.Inv) : Out.Inv (immL f o s) := hs.putReg

protected theorem State.Inv.shiftI {f : Nat → Nat → Nat → Nat} {o : ShiftI} (hs : s.Inv) : Out.Inv (shiftI f o s) := hs.putReg

protected theorem State.Inv.branchIf {c : Bool} {off : BitVec 12} (hs : s.Inv) : Out.Inv (branchIf s c off) := by
  unfold branchIf
  exact (hs.jumpTo.ite hs.finish).next

protected theorem State.Inv.putF {x : Nat × Flags} (hs : s.Inv) : Out.Inv (putF s d x len) := hs.orFlags.putReg

protected theorem State.Inv.putFLong {t : FType} {x : Nat × Flags} (hs : s.Inv) : Out.Inv (putFLong s t d x) := hs.goLong.next

protected theorem State.Inv.fpR {f : FloatFmt → Nat → Nat → Nat → Nat × Flags} {o : FpR} (hs : s.Inv) : Out.Inv (fpR f o s) := hs.putF

protected theorem State.Inv.fpC {f : FloatFmt → Nat → Nat → Nat × Flags} {o : FpC} (hs : s.Inv) : Out.Inv (fpC f o s) := hs.putF

protected theorem State.Inv.putV {d : VReg} {f : Nat → Nat × Flags} (hs : s.Inv) : Out.Inv (putV s d w k z f) := hs.setV.orFlags.finish.next

protected theorem State.Inv.vbinX {f : Nat → Nat → Bool → Nat → Nat → Nat × Flags} {o : VBin} (hs : s.Inv) : Out.Inv (vbinX f o s) := hs.putV

protected theorem State.Inv.commit (hs : s.Inv) : Out.Inv (commit s len) := hs.finish.next

protected theorem State.Inv.vbinL {f : Nat → Nat → Bool → Nat → Nat → Nat × Flags} {o : VBinL} (hs : s.Inv) : Out.Inv (vbinL f o s) :=
  hs.setV.orFlags.finish.next

protected theorem State.Inv.ownAccess {act : List Elem → State} (hs : s.Inv) (hact : ∀ x, (act x).Inv) : (ownAccess s q act).Inv := by
  unfold ownAccess
  split
  · exact hs.faultNow
  · exact hact _
  all_goals exact hs

protected theorem State.Inv.ownReads (hs : s.Inv) : (ownReads s q es).1.Inv := hs.foldl_fst fun _ _ h => h.consumePoison

protected theorem State.Inv.ownStores (hs : s.Inv) : (ownStores s q es).Inv := (hs.foldl (fun _ _ h => h.ownPut)).checkWatches

protected theorem State.Inv.loadAccess (hs : s.Inv) : (loadAccess s len q).Inv := by
  unfold loadAccess
  extract_lets
  split
  · exact hs.issueAccess
  · refine State.Inv.ownAccess hs ?_
    intro _
    extract_lets x
    have hx : x.1.Inv := hs.ownReads
    split
    · exact hx.faultNow
    · exact hx.writeDest.finish.ite hx

protected theorem State.Inv.storeAccess {scalar : Bool} (hs : s.Inv) : (storeAccess s len q scalar).Inv := by
  unfold storeAccess
  extract_lets
  split
  · exact hs.issueAccess
  · refine State.Inv.ownAccess hs ?_
    intro _
    split
    · exact hs.finish.giveCommand.ite hs.ownStores.finish
    · exact hs.ownStores.finish

protected theorem State.Inv.laneLoad {d : VReg} {off : Nat → Int} {whole : Bool} (hs : s.Inv) : (laneLoad s g d et k z off whole).Inv := by
  unfold laneLoad
  extract_lets
  split
  · exact hs.loadVector.finish
  · exact hs.loadAccess

protected theorem State.Inv.laneStore {off : Nat → Int} {whole : Bool} (hs : s.Inv) : (laneStore s g v w k off whole).Inv := by
  unfold laneStore
  extract_lets
  split
  · exact hs.finish
  · exact hs.storeAccess

protected theorem State.Inv.decodeLoad {o : Int} {d : VReg} (hs : s.Inv) : (decodeLoad s g o d et k z).Inv := by
  unfold decodeLoad
  exact hs.loadVector.finish.ite (hs.laneLoad.ite hs.loadAccess)

protected theorem State.Inv.decodeStride {d : VReg} {off : Nat → Int} (hs : s.Inv) : (decodeStride s g d et k z off).Inv := by
  unfold decodeStride
  extract_lets
  split
  · exact hs.loadVector.finish
  · exact hs.loadAccess

/-! ### Machine/Memory -/

protected theorem State.Inv.scalarLoad {o : Int} {t : IType} (hs : s.Inv) : (scalarLoad s len g o t d).Inv := hs.loadAccess

protected theorem State.Inv.scalarStore {o : Int} (hs : s.Inv) : (scalarStore s len g o n v).Inv := hs.storeAccess

protected theorem State.Inv.execVld {o : VLd} (hs : s.Inv) : Out.Inv (execVld o s) := by
  unfold execVld
  exact (hs.decodeLoad.ite hs.laneLoad).next

protected theorem State.Inv.execVlds {o : VLds} (hs : s.Inv) : Out.Inv (execVlds o s) := by
  unfold execVlds
  exact (hs.decodeStride.ite hs.laneLoad).next

protected theorem State.Inv.execPref (hs : s.Inv) : Out.Inv (execPref mem s) := by
  unfold execPref
  extract_lets
  refine State.Inv.next ?_
  split
  · exact hs.faultNow.ite hs.finish
  · extract_lets
    split
    · exact hs.finish
    · split
      · exact (hs.fillTlb.ite hs).finish
      · exact hs.freshId.putReq.addWalk.finish

protected theorem State.Inv.execFmtq (hs : s.Inv) : Out.Inv (execFmtq d mem s) := by
  unfold execFmtq
  extract_lets _ _ _ _ done
  have hdone : ∀ s x y, s.Inv → (done s x y).Inv := fun _ _ _ h => h.goLong
  refine State.Inv.next ?_
  split
  · exact hs.faultNow
  · split
    · exact hdone _ _ _ hs
    · split
      · exact hdone _ _ _ hs.fillTlb
      · exact hs.beginLong.addWalk

protected theorem State.Inv.serveQuery {w : Walk} {d rights : Nat} (hs : s.Inv) : (serveQuery s w r d rights va).Inv := by
  unfold serveQuery
  exact hs.ite (hs.faultLong.ite (hs.faultLong.ite hs.frame.postIn))

protected theorem State.Inv.dropTlb {a b : Nat} (hs : s.Inv) : (dropTlb s op p a b).Inv := hs.frame

protected theorem State.Inv.execTlbinv (hs : s.Inv) : Out.Inv (execTlbinv a b sub s) := by
  unfold execTlbinv
  exact (hs.faultInstr.ite hs.dropTlb.frame.beginLong.frame).next

protected theorem State.Inv.goLongMsg {d : Nat} {c : Completion} (hs : s.Inv) : (goLongMsg s r why len d c).Inv := hs.beginLong.frame.sendIn

protected theorem State.Inv.execMigrate (hs : s.Inv) : Out.Inv (execMigrate d b mem s) := by
  unfold execMigrate
  extract_lets
  refine State.Inv.next ?_
  split
  · exact hs.faultNow
  · exact hs.beginLong.addWalk

protected theorem State.Inv.answerIn {d t : Nat} (hs : s.Inv) : (answerIn s r d v t).Inv := hs.frame.sendIn

protected theorem State.Inv.writeLeaf {leaf : Nat} (hs : s.Inv) : (writeLeaf s p c leaf v).Inv := hs.touch.writeHome

protected theorem State.Inv.serveMigrate {w : Walk} {d gpa : Nat} (hs : s.Inv) : (serveMigrate s w r d gpa va).Inv := by
  unfold serveMigrate
  split
  · exact hs
  · extract_lets
    split
    · split
      · exact hs.faultLong
      · exact hs.answerIn
    · extract_lets
      split
      · exact hs.faultLong
      · split
        · exact hs.faultLong
        · split
          · exact hs.answerIn
          · split
            · exact hs.answerIn
            · exact hs.faultLong
            · exact hs.answerIn.ite (hs.answerIn.ite hs.writeLeaf.dropTlb.frame.freshId.sendIn)

protected theorem State.Inv.updForward {base : Nat} {f : Forward → Forward} (hs : s.Inv) : (updForward s base f).Inv := hs.frame

protected theorem State.Inv.copyLine {a b : Nat} (hs : s.Inv) : (copyLine s p c a b).Inv := hs.touch.touch.writeHome.carryPoison

protected theorem State.Inv.migrateLine (hs : s.Inv) : (migrateLine s id).Inv := by
  unfold migrateLine
  split
  · exact hs
  · extract_lets _ _ _ s2 _ _ _ _ _ s4
    have hs2 : s2.Inv := hs.copyLine.updForward
    have hs4 : s4.Inv := hs2.frame.writeLeaf.dropTlb
    exact hs.postIn.ite (hs2.frame.postIn.ite (hs4.answerIn.ite hs4))

protected theorem State.Inv.execMigrateRelease (hs : s.Inv) : Out.Inv (execMigrateRelease d b s) := by
  unfold execMigrateRelease
  extract_lets
  refine State.Inv.next ?_
  split
  · exact hs.goLongMsg
  · exact hs.frame.goLongMsg

protected theorem State.Inv.serveFetch {w : Walk} (hs : s.Inv) : (serveFetch s w r va).Inv := by
  unfold serveFetch
  split
  · exact hs
  · split
    · refine State.Inv.resumeRow ?_
      split
      · exact hs.fillTlb
      · exact hs
    · exact hs.pageFault.ite hs.takeFault

/-! ### Machine/Ordering -/

protected theorem State.Inv.waitInPlace {c : Cond} (hs : s.Inv) : (waitInPlace s r why len c).Inv := hs.frame.waitOn

protected theorem State.Inv.phaseWait {d : Nat} (hs : s.Inv) : (phaseWait s r d σ p).Inv := by
  unfold phaseWait
  exact hs.phaseEnd.ite hs.waitInPlace

protected theorem State.Inv.execPhase (hs : s.Inv) : Out.Inv (execPhase d a s) := by
  unfold execPhase
  extract_lets
  refine State.Inv.next ?_
  split
  · exact hs.faultNow
  · exact hs.phaseWait.ite (hs.waitOn.ite hs.setF.setF.phaseWait)

protected theorem State.Inv.execTick (hs : s.Inv) : Out.Inv (execTick d a s) := by
  unfold execTick
  exact (hs.faultNow.ite hs.setF.setS.finish).next

protected theorem State.Inv.execWaitlb (hs : s.Inv) : Out.Inv (execWaitlb d a b s) := by
  unfold execWaitlb
  extract_lets
  refine State.Inv.next ?_
  split
  · exact hs.faultNow
  · exact hs.waitlbEnd.ite hs.waitInPlace

protected theorem State.Inv.execFence (hs : s.Inv) : Out.Inv (execFence a s) := by
  unfold execFence
  extract_lets
  refine State.Inv.next ?_
  split
  · exact hs.faultNow
  · exact hs.startFence fun _ h => h.finish

protected theorem State.Inv.execFencex {sets : BitVec 32} (hs : s.Inv) : Out.Inv (execFencex a sets s) := by
  unfold execFencex
  extract_lets
  refine State.Inv.next ?_
  split
  · exact hs.faultNow
  · exact hs.waitOn.ite (hs.dryEarly.ite hs).frame.freshId.finish

protected theorem State.Inv.execStDry {o : StDry} (hs : s.Inv) : Out.Inv (execStDry o s) := by
  unfold execStDry
  extract_lets
  refine State.Inv.next ?_
  split
  · exact hs.faultNow
  · extract_lets
    split
    · exact hs.issueAccess
    · exact hs.ownAccess fun _ => hs.freshId.putReq.startFence (fun _ h => h.dropReq.finish.giveCommand.ite h.dropReq.ownWrite.finish)

protected theorem State.Inv.execWatch {o : WatchX} (hs : s.Inv) : Out.Inv (execWatch o s) := by
  unfold execWatch
  extract_lets
  refine State.Inv.next ?_
  split
  · exact hs.issueAccess
  · refine State.Inv.ownAccess hs ?_
    intro _
    extract_lets x _ s1
    have hx : x.1.Inv := hs.ownReads
    have hs1 : s1.Inv := hx.freshId.watchWaits
    split
    · exact hx.faultNow
    · exact hx.writeDest.finish.ite (hs1.putReq.addWatch.ite hs1)

protected theorem State.Inv.atomAccess (hs : s.Inv) : (atomAccess s len d et q).Inv := by
  unfold atomAccess
  extract_lets
  split
  · exact hs.issueAccess
  · refine State.Inv.ownAccess hs ?_
    intro _
    extract_lets _ p x _
    have hp : p.1.Inv := hs.consumePoison
    have hx : x.1.Inv := hp.actAt
    split
    · exact hp.faultNow
    · exact hp.faultNow.ite ((hx.ite hx.orFlags).setS.finish.ite hx)

protected theorem State.Inv.atomX {o : AtomX} (hs : s.Inv) : Out.Inv (atomX op o s) := hs.atomAccess.next

protected theorem State.Inv.atomL {o : AtomL} (hs : s.Inv) : Out.Inv (atomL op o s) := hs.atomAccess.next

protected theorem State.Inv.execEntryDries (hs : s.Inv) : Out.Inv (execEntryDries id s) := by
  unfold execEntryDries
  refine State.Inv.next ?_
  split
  · exact hs.sendDry.ite hs
  · exact hs

protected theorem State.Inv.execWatchAnswer (hs : s.Inv) : Out.Inv (execWatchAnswer id s) := by
  unfold execWatchAnswer
  refine State.Inv.next ?_
  split
  · exact hs.finishReq
  · exact hs

protected theorem State.Inv.sampleScope (hs : s.Inv) : (sampleScope s p c σ).Inv := by
  unfold sampleScope
  split
  · exact hs
  · extract_lets _ lb _ s1
    have hs1 : s1.Inv := by
      unfold s1
      clear_value lb
      split
      · exact hs
      · exact hs.frame
    exact hs1.postIn

protected theorem State.Inv.dropPrec (hs : s.Inv) : (dropPrec s).Inv := by
  unfold dropPrec
  exact hs.ite hs.frame

protected theorem State.Inv.execLbSample (hs : s.Inv) : Out.Inv (execLbSample s) :=
  (hs.foldl (fun _ _ h => h.foldl (fun _ _ h' => h'.sampleScope))).dropPrec.next

protected theorem State.Inv.dryDue (hs : s.Inv) : (dryDue s).Inv := hs.foldl fun _ _ h => h.sendDry

protected theorem State.Inv.execRowJoin (hs : s.Inv) : Out.Inv (execRowJoin row s) := by
  unfold execRowJoin
  exact (hs.ite hs.setF.frame.postIn).next

protected theorem State.Inv.execJoinAnswer {phase : Nat} (hs : s.Inv) : Out.Inv (execJoinAnswer row phase s) := by
  unfold execJoinAnswer
  exact (hs.ite hs.frame.setF).next

/-! ### Machine/Sweep -/

protected theorem State.Inv.updSweep {f : StepRun → StepRun} (hs : s.Inv) : (updSweep s r f).Inv := by
  unfold updSweep
  split
  · exact hs
  · exact hs.frame

protected theorem State.Inv.grantLatch {direct : Nat} (hs : s.Inv) : (grantLatch s ex direct fuel).Inv := by
  induction fuel generalizing s with
  | zero => exact hs
  | succ fuel ih =>
    unfold grantLatch
    split
    · exact hs
    · split
      · exact hs
      · extract_lets _ s1
        have hs1 : s1.Inv := hs.frame
        split
        · exact ih hs1
        · split
          · split
            · exact ih hs1.faultLong
            · exact hs1.touch.updSweep
          · exact ih hs1

protected theorem State.Inv.askLatch {i : Stepped} {direct : Nat} (hs : s.Inv) : (askLatch s r i k direct).Inv := hs.frame.grantLatch

protected theorem State.Inv.execSweep {o : SweepX} (hs : s.Inv) : Out.Inv (execSweep o s) := by
  unfold execSweep
  exact (hs.setF.finish.ite hs.beginLong.askLatch).next

protected theorem State.Inv.sweepCycle (hs : s.Inv) : (sweepCycle s r).Inv := by
  unfold sweepCycle
  split
  · exact hs
  · split
    · extract_lets _ x y _ _ _ _ s2
      have hx : x.1.Inv := hs.engineCharge
      have hy : y.1.Inv := by
        unfold y
        split
        · exact hx
        · exact hx.meetLines.consumePoison
      have hs2 : s2.Inv := hy.updSweep
      split
      · exact hs
      · split
        · exact hx
        · split
          · exact hy.faultLong.grantLatch
          · exact hs2.postIn.ite hs2
    · exact hs

protected theorem State.Inv.sweepApply {o : SweepX} (hs : s.Inv) : (sweepApply s r o run).Inv :=
  ((hs.setV.orFlags.foldl (fun _ _ h => h.writeSome)).ite hs.setV.orFlags).setF

protected theorem State.Inv.sweepEnd (hs : s.Inv) : (sweepEnd s r).Inv := by
  unfold sweepEnd
  split
  · exact hs
  · split
    · extract_lets _ s1 _ s2 _ _
      have hs1 : s1.Inv := hs.sweepApply.updSweep.ite hs
      have hs2 : s2.Inv := hs1.boundary
      split
      · exact hs
      · split
        · exact hs1.postIn.releaseStep
        · exact hs1.ite (hs1.completeLong.grantLatch.ite (hs2.frame.grantLatch.ite hs2.askLatch))
    · exact hs

/-! ### Machine/RowOps -/

protected theorem State.Inv.rowAccess {op : DirectOp} {dest : Dest} {wait : Bool} (hs : s.Inv) : (rowAccess s at_ len op dest wait).Inv := by
  unfold rowAccess
  exact (hs.freshId.beginLong.ite hs.freshId).sendReq.ite (hs.freshId.beginLong.ite hs.freshId).sendReq.finish

protected theorem State.Inv.sendCommand {w : Word} (hs : s.Inv) : (sendCommand s d a w).Inv := by
  unfold sendCommand
  split
  · exact hs.faultNow
  · exact hs.rowAccess

protected theorem State.Inv.execArm (hs : s.Inv) : Out.Inv (execArm d a b s) := by
  unfold execArm
  extract_lets
  refine State.Inv.next ?_
  split
  · exact hs.faultInstr
  · split
    · exact hs.faultNow
    · exact hs.rowAccess

protected theorem State.Inv.execDisarm (hs : s.Inv) : Out.Inv (execDisarm d a s) := by
  unfold execDisarm
  extract_lets
  refine State.Inv.next ?_
  split
  · exact hs.faultInstr
  · split
    · exact hs.faultNow
    · exact hs.rowAccess

protected theorem State.Inv.execPeek {off : BitVec 32} (hs : s.Inv) : Out.Inv (execPeek d a b off s) := by
  unfold execPeek
  extract_lets
  refine State.Inv.next ?_
  split
  · exact hs.faultInstr
  · split
    · exact hs.faultNow
    · exact hs.ownWrite.goLong.ite hs.rowAccess

protected theorem State.Inv.execSpawn {c : Reg} (hs : s.Inv) : Out.Inv (execSpawn d a b c sub s) := by
  unfold execSpawn
  exact (hs.faultInstr.ite hs.rowAccess).next

protected theorem State.Inv.settleClosed (hs : s.Inv) : (settleClosed s r).Inv := by
  unfold settleClosed
  extract_lets _ _ _ _ s3 s4
  have hs3 : s3.Inv := hs.clearPending
  have hs4 : s4.Inv := by
    unfold s4
    split
    · exact hs3.stopNow.ite hs3.cmdStop
    · exact hs3.cmdRedirect
    · exact hs3.cmdKill
    · exact hs3
  exact hs.frame.dequeue.setCode.clearPending.releaseHeld.ite (hs4.stopAfter.releaseHeld.ite (hs.retire.ite hs))

protected theorem State.Inv.execYield (hs : s.Inv) : Out.Inv (execYield s) := by
  unfold execYield
  exact (hs.finish.ite hs.resolvePc.closeRow.releaseStep.makeReady.settleClosed).next

protected theorem State.Inv.commandAt (hs : s.Inv) (hact : ∀ s, s.Inv → (act s).Inv) : (commandAt s m ev act).Inv := by
  unfold commandAt
  exact hs.ite (hs.holdCommand.ite (hact _ hs).checkWatches)

protected theorem State.Inv.execStart (hs : s.Inv) : Out.Inv (execStart m s) := by
  unfold execStart
  exact (hs.startAt.ite (hs.commandAt (fun _ h => h.cmdStart))).next

protected theorem State.Inv.execCommandLands (hs : s.Inv) : Out.Inv (execCommandLands row s) := by
  unfold execCommandLands
  exact (hs.boundary.ite hs).next

protected theorem State.Inv.execRowOpen {slot : Nat} (hs : s.Inv) : Out.Inv (execRowOpen ex slot s) := by
  unfold execRowOpen
  refine State.Inv.next ?_
  split
  · exact hs
  · split
    · exact hs
    · split
      · exact hs.retire
      · split
        · exact hs.postIn
        · split
          · exact hs.postIn
          · extract_lets _ _ s2 s3
            have hs2 : s2.Inv := hs.frame.setF.startWindow
            have hs3 : s3.Inv := hs2.ite hs2.freshCode
            exact hs3.runRow.ite hs3.retainRow

protected theorem State.Inv.closeSleeping (hs : s.Inv) : (closeSleeping s r).Inv := by
  unfold closeSleeping
  split
  · exact hs
  · exact hs.setCode.freeSlot.ite hs

protected theorem State.Inv.execHoldExpiry (hs : s.Inv) : Out.Inv (execHoldExpiry row since s) := by
  unfold execHoldExpiry
  refine State.Inv.next ?_
  split
  · exact hs.closeSleeping.ite hs
  · exact hs

protected theorem State.Inv.execPriorityAging (hs : s.Inv) : Out.Inv (execPriorityAging row since s) := by
  unfold execPriorityAging
  exact (hs.ite (hs.postClock.ite hs.setF.frame.postClock)).next

/-! ### Machine/Fetch -/

protected theorem State.Inv.renewCode (hs : s.Inv) : (renewCode s r off).Inv := by
  unfold renewCode
  extract_lets
  split
  · exact hs
  · split
    · exact hs.fillTlb
    · exact hs

protected theorem State.Inv.readCode {now : Bool} (hs : s.Inv) : (readCode s r off n now).1.Inv := by
  unfold readCode
  extract_lets _ s2
  have hs2 : s2.Inv := hs.renewCode.foldl fun _ _ h => h.meetError
  split
  · exact hs2
  · extract_lets x
    have hx : x.1.Inv := hs2.consumePoison
    split
    · exact hx
    · exact hx.takeFault

protected theorem State.Inv.checkBeforeFetch (hs : s.Inv) : (checkBeforeFetch s r).1.Inv := by
  unfold checkBeforeFetch
  split
  · exact hs
  · extract_lets x _ _ done
    have hx : x.1.Inv := hs.readCode
    have hdone : done.Inv := hx.frame
    split
    · exact hx
    · split
      · exact hdone
      · exact hdone.takeFault
      · exact hx.pageFault

protected theorem State.Inv.execFetchFault {_cause : Nat} (hs : s.Inv) : Out.Inv (execFetchFault _cause s) := by
  unfold execFetchFault
  extract_lets
  refine State.Inv.next ?_
  split
  · exact hs.takeFault
  · exact hs.pageFault
  · exact hs.waitOn.addWalk
  · exact hs

protected theorem State.Inv.execWatchdogWindowEnd (hs : s.Inv) : Out.Inv (execWatchdogWindowEnd row since s) := by
  unfold execWatchdogWindowEnd
  refine State.Inv.next ?_
  split
  · exact hs
  · exact hs.ite (hs.startWindow.ite (hs.watchdogFires.ite hs.startWindow.frame))

protected theorem State.Inv.execInstructionLimit (hs : s.Inv) : Out.Inv (execInstructionLimit row s) := by
  unfold execInstructionLimit
  exact (hs.watchdogFires.ite hs).next

/-! ### Machine/IssueOps -/

protected theorem State.Inv.execSlotw (hs : s.Inv) : Out.Inv (execSlotw d a s) := by
  unfold execSlotw
  exact (hs.faultInstr.ite (hs.faultNow.ite (hs.faultNow.ite (hs.goLong.ite hs.beginLong.frame)))).next

protected theorem State.Inv.execSlotTableInstall (hs : s.Inv) : Out.Inv (execSlotTableInstall ex s) :=
  (hs.frame.foldl (fun _ _ h => h.answerRow)).next

protected theorem State.Inv.execBudget (hs : s.Inv) : Out.Inv (execBudget d a s) := by
  unfold execBudget
  exact hs.faultInstr.next.ite hs.updGov.putReg

protected theorem State.Inv.execPrio (hs : s.Inv) : Out.Inv (execPrio d a s) := by
  unfold execPrio
  exact hs.setF.putReg.ite hs.putReg

protected theorem State.Inv.execGovernorWindow (hs : s.Inv) : Out.Inv (execGovernorWindow ex s) := hs.windowStart.next

protected theorem State.Inv.execIssueCycle (hs : s.Inv) : Out.Inv (execIssueCycle ex why s) := by
  unfold execIssueCycle
  extract_lets
  refine State.Inv.next ?_
  split
  · exact hs
  · split
    · exact hs.updGov
    · exact hs.updGov
    · exact hs.updGov
    · exact hs

/-! ### Machine/Notes -/

protected theorem State.Inv.sendNote {w1 w2 w3 : Word} {engage : Bool} (hs : s.Inv) : (sendNote s d a w1 w2 w3 engage len).Inv := by
  unfold sendNote
  extract_lets
  split
  · exact hs.faultNow
  · split
    · exact hs.setS.finish
    · extract_lets _ _ _ s2 _ s4
      have hs2 : s2.Inv := (hs.setF.ite hs).freshId.putReq.frame
      have hs4 : s4.Inv := (hs2.beginLong.ite hs2).sendIn
      exact hs4.ite hs4.finish

protected theorem State.Inv.hostLanding {a : Nat} {ws : List Word} (hs : s.Inv) : (hostLanding s id q a ws).Inv := by
  unfold hostLanding
  extract_lets _ _ _ _ x
  have hx : x.1.Inv := by
    unfold x
    split
    · exact hs
    · split
      · exact hs.frame.sendPacket
      · exact hs.frame
  exact hx.setGot.replyFrom

protected theorem State.Inv.noteArrives (hs : s.Inv) : (noteArrives s id).Inv := by
  unfold noteArrives
  split
  · exact hs
  · extract_lets _ s1 _ _ s2
    have hs1 : s1.Inv := by
      unfold s1
      split
      · exact hs.hostLanding.ite hs.arrive
      · exact hs
    have hs2 : s2.Inv := hs1.frame
    exact hs1.ite (hs2.ite hs2.checkWatches.checkWatches)

protected theorem State.Inv.execSystemNoteRetry (hs : s.Inv) : Out.Inv (execSystemNoteRetry id s) := by
  unfold execSystemNoteRetry
  refine State.Inv.next ?_
  split
  · exact hs
  · exact hs.frame.ite hs.offerSystem.checkWatches.checkWatches

protected theorem State.Inv.raiseNote {m : Nat} (hs : s.Inv) : (raiseNote s r m).Inv := hs.foldl fun _ _ h => h.setRowNat

protected theorem State.Inv.deliver {d m : Nat} (hs : s.Inv) : (deliver s r d m).Inv := (hs.raiseNote.foldl (fun _ _ h => h.setS)).setF.beat

protected theorem State.Inv.emptyInbox (hs : s.Inv) : (emptyInbox s r).Inv := by
  unfold emptyInbox
  exact hs.setF.ite hs

protected theorem State.Inv.execRecv (hs : s.Inv) : Out.Inv (execRecv d s) := by
  unfold execRecv
  extract_lets
  refine State.Inv.next ?_
  split
  · exact hs.deliver.finish
  · exact hs.emptyInbox.waitOn

protected theorem State.Inv.execRecvq (hs : s.Inv) : Out.Inv (execRecvq d s) := by
  unfold execRecvq
  extract_lets
  refine State.Inv.next ?_
  split
  · exact hs.deliver.finish
  · exact hs.emptyInbox.setS.finish

protected theorem State.Inv.pruneEnds (hs : s.Inv) : (pruneEnds s).Inv := hs.frame

protected theorem State.Inv.execChannelWordSend (hs : s.Inv) : Out.Inv (execChannelWordSend row s) := by
  unfold execChannelWordSend
  refine State.Inv.next ?_
  split
  · exact hs
  · split
    · exact hs.updEnd
    · exact hs.postIn.ite (hs.updEnd.sendIn.ite hs.updEnd.sendIn.postIn)

protected theorem State.Inv.wordPerformed (hs : s.Inv) : (wordPerformed s row).Inv := hs.frame

protected theorem State.Inv.execChannelWordArrival (hs : s.Inv) : Out.Inv (execChannelWordArrival row s) := by
  unfold execChannelWordArrival
  refine State.Inv.next ?_
  split
  · exact hs
  · split
    · exact hs
    · exact hs.postIn.ite (hs.updEnd.wordPerformed.regAdd.ite hs.updEnd.wordPerformed.updEnd)

protected theorem State.Inv.pushSketch {sk : List Word} {engage : Bool} (hs : s.Inv) : (pushSketch s d a sk engage len).Inv := by
  unfold pushSketch
  extract_lets _ _ _ s1 _
  have hs1 : s1.Inv := hs.setF.ite hs
  split
  · exact hs.faultInstr
  · split
    · exact hs.faultInstr
    · split
      · exact hs.setS.finish
      · split
        · exact hs.setS.finish
        · extract_lets _ _ x _ _ s2 _
          have hx : x.1.Inv := hs1.pushAt
          have hs2 : s2.Inv := hx.setF.ite hx
          exact (hx.beginLong.frame.ite (hs2.regAdd.ite hs2).setS.finish).ite (hs1.sendRackOp.finish.ite hs1.beginLong.sendRackOp)

protected theorem State.Inv.execTake (hs : s.Inv) : Out.Inv (execTake d a s) := by
  unfold execTake
  extract_lets _ _ _ short o x
  have hshort : ∀ x, x.1.Inv → (short x).Inv := fun _ h => (h.takeGot.foldl fun _ _ h' => h'.setS).finish
  refine State.Inv.next ?_
  split
  · split
    · exact hshort _ hs.takeAt
    · split
      · exact hshort _ hs
      · rename_i h
        exact (hs.pullDown _ h).beginLong.frame
  · split
    · exact hs.faultInstr
    · exact (hshort _ hs.takeAt).ite hs.beginLong.sendRackOp

protected theorem State.Inv.execRemoteRackOperation (hs : s.Inv) : Out.Inv (execRemoteRackOperation id s) := by
  unfold execRemoteRackOperation
  refine State.Inv.next ?_
  split
  · exact hs
  · exact hs.frame.rackAct

protected theorem State.Inv.execContinuationRetry (hs : s.Inv) : Out.Inv (execContinuationRetry id s) := by
  unfold execContinuationRetry
  refine State.Inv.next ?_
  split
  · exact hs
  · exact hs.frame.offerPush

protected theorem State.Inv.execBalset (hs : s.Inv) : Out.Inv (execBalset d a s) := by
  unfold execBalset
  exact hs.faultInstr.next.ite hs.setRegWord.putReg

protected theorem State.Inv.execJdec (hs : s.Inv) : Out.Inv (execJdec d a b s) := by
  unfold execJdec
  extract_lets
  refine State.Inv.next ?_
  split
  · exact hs.faultNow
  · exact hs.beat.resetCount.freshId.putReq.startFence fun _ h => h.actPlan

protected theorem State.Inv.completionStore (hs : s.Inv) : (completionStore s r).Inv := by
  unfold completionStore
  exact hs.ite hs.freshId.sendReq

protected theorem State.Inv.doneStep (hs : s.Inv) : (doneStep s r).1.Inv := by
  unfold doneStep
  split
  · exact hs
  · extract_lets
    split
    · exact hs.setF.setTstate.completionStore
    · exact hs.setF.sendAck

protected theorem State.Inv.execDone (hs : s.Inv) : Out.Inv (execDone d s) := by
  unfold execDone
  extract_lets _ bad
  refine State.Inv.next ?_
  split
  · exact hs.setS.finish
  · clear_value bad
    split
    · exact hs.faultNow
    · exact hs.startFence fun _ h => h.doneStep.setS.finish

protected theorem State.Inv.execAcknowledgement (hs : s.Inv) : Out.Inv (execAcknowledgement row s) := by
  unfold execAcknowledgement
  exact (hs.frame.ite hs.acknowledge).next

/-! ### Machine/CopyPot -/

protected theorem State.Inv.execCpy (hs : s.Inv) : Out.Inv (execCpy d a sub s) := by
  unfold execCpy
  extract_lets
  refine State.Inv.next ?_
  split
  · exact hs.faultNow
  · exact hs.waitOn.ite hs.frame.freshId.setS.finish

protected theorem State.Inv.execCpyq (hs : s.Inv) : Out.Inv (execCpyq d a s) := by
  unfold execCpyq
  exact hs.faultInstr.next.ite hs.putReg

protected theorem State.Inv.execCpyw (hs : s.Inv) : Out.Inv (execCpyw d a s) := by
  unfold execCpyw
  exact hs.faultInstr.next.ite (hs.waitOn.next.ite hs.frame.putReg)

protected theorem State.Inv.execCopyPieceRead (hs : s.Inv) : Out.Inv (execCopyPieceRead id s) := by
  unfold execCopyPieceRead
  extract_lets s1
  have hs1 : s1.Inv := hs.updCopy
  refine State.Inv.next ?_
  split
  · exact hs1
  · exact hs1.pieceRead.ite hs1

protected theorem State.Inv.potIssue {own wait : Bool} {line : List Byte} (hs : s.Inv) : (potIssue s d a kind len own wait line args).Inv := by
  unfold potIssue
  extract_lets
  split
  · exact hs.faultNow
  · exact hs.beginLong.sendPot.ite hs.sendPot.finish

protected theorem State.Inv.execPotOperation (hs : s.Inv) : Out.Inv (execPotOperation id s) := by
  unfold execPotOperation
  refine State.Inv.next ?_
  split
  · exact hs
  · split
    · exact hs.holdPot
    · exact hs.potApply

/-! ### Machine/MatrixOps -/

protected theorem State.Inv.execMown (hs : s.Inv) : Out.Inv (execMown d a s) := by
  unfold execMown
  extract_lets
  split
  · exact hs.faultNow.next
  · split
    · exact hs.askRestore.next.ite (hs.setRecord.putReg.ite hs.putReg)
    · exact hs.putReg.ite hs.setRecord.updUnit.putReg

protected theorem State.Inv.execMrel (hs : s.Inv) : Out.Inv (execMrel s) := by
  unfold execMrel
  exact (hs.releaseUnit.finish.ite hs.faultInstr).next

protected theorem State.Inv.execMzero (hs : s.Inv) : Out.Inv (execMzero a s) := by
  unfold execMzero
  extract_lets
  refine State.Inv.next ?_
  refine State.Inv.withUnit hs ?_
  intro _ h
  split
  · exact h.updUnit.finish
  · split
    · exact h.updUnit.finish
    · exact h.faultInstr

protected theorem State.Inv.execMma {o : MmaX} (hs : s.Inv) : Out.Inv (execMma o s) := by
  unfold execMma
  extract_lets
  refine State.Inv.next ?_
  refine State.Inv.withUnit hs ?_
  intro _ h
  extract_lets
  split
  · exact h.faultNow
  · exact h.setF.finish.ite (h.goLong.ite h.beginLong.queueStep)

protected theorem State.Inv.mstInstant (hs : s.Inv) : (mstInstant s q es).1.Inv := hs.updUnit

protected theorem State.Inv.bandGo {hits : List TlbEntry} (hs : s.Inv) : (bandGo s id q es extra hits out).Inv := by
  unfold bandGo
  extract_lets _ s1 _ s2 x _ _ _ _ y _
  have hs1 : s1.Inv := hs.foldl fun _ _ h => h.fillTlb
  have hs2 : s2.Inv := hs1.ite hs1.beginLong
  have hx : x.1.Inv := by
    unfold x
    split
    · exact hs2.mstInstant
    · exact hs2
  have hy : y.1.Inv := hx.ownReads
  split
  · exact hs1.dropReq.faultNow
  · split
    · split
      · exact hx.ownStores.putReq.postClock
      · split
        · exact hy.dropReq.faultNow
        · exact hy.putReq.postClock
    · exact hx.putReq.foldl fun _ _ h => h.sendIn

protected theorem State.Inv.bandAct (hs : s.Inv) : (bandAct s id q out res).Inv := by
  unfold bandAct
  split
  · exact hs.bandGo
  · exact hs.dropReq.faultNow
  · exact hs.dropReq.pageFault
  · exact (hs.ite hs.beginLong).putReq.addWalk

protected theorem State.Inv.bandIssue {v : Word} {fmt : Nat} {wr clear : Bool} (hs : s.Inv) : (bandIssue s mem v fmt wr clear).Inv := by
  unfold bandIssue
  extract_lets
  split
  · exact hs.faultNow
  · exact hs.freshId.bandAct

protected theorem State.Inv.bandDone (hs : s.Inv) : (bandDone s id q).Inv := by
  unfold bandDone
  extract_lets _ s1
  have hs1 : s1.Inv := hs.dropReq
  split
  · exact hs1
  · split
    · exact hs1.faultLong
    · split
      · exact (hs1.setF.ite hs1).completeLong.ite (hs1.resumeRow.ite hs1.updUnit.completeLong)
      · exact hs1.completeLong

protected theorem State.Inv.sendSum {c : Reg} {e : Int} (hs : s.Inv) : (sendSum s d c sum e).Inv := by
  unfold sendSum
  extract_lets
  split
  · exact hs.faultInstr
  · extract_lets _ _ s1 _ _ _ s3
    have hs1 : s1.Inv := hs.frame.freshId
    have hs3 : s3.Inv := (hs1.ite hs1.beginLong).sendIn
    exact hs3.finish.ite hs3

protected theorem State.Inv.sumArrives (hs : s.Inv) : (sumArrives s id).Inv := by
  unfold sumArrives
  split
  · exact hs
  · extract_lets _ _ _ _ _ _ _ s' x
    have hs' : s'.Inv := hs.frame.frame
    have hx : x.1.Inv := by
      unfold x
      split
      · split
        · split
          · exact hs.frame.frame
          · exact hs.frame
        · exact hs.frame
      · split
        · exact hs.frame.regAdd.ite hs.frame
        · split
          · exact hs'.sendPacket
          · exact hs'
    exact hx.sendPacket.ite (hx.ite hx.answerRow)

protected theorem State.Inv.bredWords {e inexact claimed out : Nat} (hs : s.Inv) : Out.Inv (bredWords s d sum e inexact claimed out) :=
  hs.setS.setS.finish.next

protected theorem State.Inv.bredGive {c : RedCell} {claimed : Nat} (hs : s.Inv) : Out.Inv (bredGive s d c claimed) := hs.bredWords

protected theorem State.Inv.bredAt {own : State → Nat → RedCell → Out} {fresh : State → Nat → Out} (hs : s.Inv)
    (hown : ∀ s x y, s.Inv → Out.Inv (own s x y)) (hfresh : ∀ s x, s.Inv → Out.Inv (fresh s x)) : Out.Inv (bredAt s d a own fresh) := by
  unfold bredAt
  extract_lets
  split
  · exact hs.faultInstr.next
  · split
    · exact hfresh _ _ hs
    · exact (hown _ _ _ hs).ite hs.frame.bredWords

protected theorem State.Inv.setCell {c : RedCell} (hs : s.Inv) : (setCell s key c).Inv := hs.frame

protected theorem State.Inv.execBredRead (hs : s.Inv) :
    Out.Inv (execBredRead d a s) := hs.bredAt (fun _ _ _ h => h.bredGive) fun _ _ h => h.bredGive

protected theorem State.Inv.execBredClear (hs : s.Inv) : Out.Inv (execBredClear d a s) :=
  hs.bredAt (fun _ _ _ h => h.setCell.bredGive) fun _ _ h => h.bredGive

protected theorem State.Inv.execBredClaim (hs : s.Inv) : Out.Inv (execBredClaim d a s) :=
  hs.bredAt (fun _ _ _ h => h.setCell.bredGive) fun _ _ h => h.setCell.bredGive

protected theorem State.Inv.execBredRelease (hs : s.Inv) : Out.Inv (execBredRelease d a s) :=
  hs.bredAt (fun _ _ _ h => h.frame.bredGive) fun _ _ h => h.bredGive

/-! ### Machine/Rules -/

protected theorem State.Inv.rulePoison {ranges : List (Nat × Nat)} (hs : s.Inv) : (rulePoison s r ranges).1.Inv := by
  unfold rulePoison
  refine State.Inv.foldl_fst hs ?_
  intro _ _ h
  split
  · exact h
  · exact h.meetLines.consumePoison

protected theorem State.Inv.readHeader (hs : s.Inv) : (readHeader s r v).1.Inv := by
  unfold readHeader
  split
  · exact hs
  · extract_lets
    split <;> exact hs.rulePoison

protected theorem State.Inv.setGenWord {t : Tile} (hs : s.Inv) : (setGenWord s p c t).Inv := hs.writeHome

protected theorem State.Inv.makeStep {t : Tile} (hs : s.Inv) : (makeStep s p c t).Inv := (hs.foldl (fun _ _ h => h.writeHome)).setGenWord

protected theorem State.Inv.updRule {f : RuleEng → RuleEng} (hs : s.Inv) : (updRule s st f).Inv := hs.frame

protected theorem State.Inv.askRule {q : RuleReq} (hs : s.Inv) : (askRule s st q).Inv := hs.updRule

protected theorem State.Inv.dropRule (hs : s.Inv) : (dropRule s st).Inv := hs.updRule

protected theorem State.Inv.updStrip {f : Strip → Strip} (hs : s.Inv) : (updStrip s id f).Inv := hs.frame

protected theorem State.Inv.holdStrip (hs : s.Inv) : (holdStrip s st x).Inv := hs.updRule.updStrip

protected theorem State.Inv.beginRule {plan : List (List Nat)} {ranges : List (Nat × Nat)} (hs : s.Inv) : (beginRule s st plan ranges).Inv :=
  hs.updRule.foldl fun _ _ h => h.holdStrip

protected theorem State.Inv.repostHeld {h : RuleHeld} (hs : s.Inv) : (repostHeld s h).Inv := by
  unfold repostHeld
  split
  · exact hs.repost
  · exact hs

protected theorem State.Inv.drainRule (hs : s.Inv) : (drainRule s st).Inv := by
  unfold drainRule
  extract_lets _ _ rest
  clear_value rest
  split
  · exact hs.updRule.foldl fun _ _ h => h.repostHeld
  · exact hs.updRule.ite (hs.updRule.foldl (fun _ _ h => h.repostHeld)).repost

protected theorem State.Inv.endRule (hs : s.Inv) : (endRule s st).Inv := hs.updRule.drainRule

protected theorem State.Inv.skipHeld {h : RuleHeld} (hs : s.Inv) : (skipHeld s h).Inv := by
  unfold skipHeld
  split
  · exact hs
  · split
    · exact hs.updCopy
    · exact hs.updCopy
    · exact hs

protected theorem State.Inv.passTurn (hs : s.Inv) : (passTurn s st).Inv := by
  unfold passTurn
  exact hs.ite (hs.ite (hs.updRule.foldl (fun _ _ h => h.skipHeld)).drainRule)

protected theorem State.Inv.turnTaken (hs : s.Inv) : (turnTaken s st ev).Inv := by
  unfold turnTaken
  exact hs.updRule.drainRule.ite hs

protected theorem State.Inv.genEnds {d status : Nat} (hs : s.Inv) : (genEnds s r d status).Inv := hs.endLong fun _ h => h.setS

protected theorem State.Inv.putCell {t : Tile} {pl : Nat} {x : Nat × Nat × Nat} (hs : s.Inv) : (putCell p c t pl s x).Inv := hs.writeHome

protected theorem State.Inv.beginStrip (hs : s.Inv) : (beginStrip s st x).Inv := hs.beginRule

protected theorem State.Inv.answerStrip {ok : Bool} (hs : s.Inv) : (answerStrip s x ok).Inv := hs.updStrip.sendIn

protected theorem State.Inv.dropHalo (hs : s.Inv) : (dropHalo s id).Inv := hs.frame

protected theorem State.Inv.applyStrip (hs : s.Inv) : (applyStrip s st x).Inv := by
  unfold applyStrip
  extract_lets _ y s1 _ _ _ _ _ _
  have hy : y.1.Inv := hs.rulePoison
  have hs1 : s1.Inv := hy.endRule.dropRule.dropHalo
  split
  · exact hs1.faultLong.ite hs1
  · exact (hy.ite (hy.foldl (fun _ _ h => h.putCell)).setGenWord.chargeStop).endRule.dropRule.answerStrip

protected theorem State.Inv.makeStrips {h : HaloRun} {t : Tile} (hs : s.Inv) : (makeStrips s h t).Inv :=
  (hs.foldl (fun _ _ h => h.frame.freshId)).frame

protected theorem State.Inv.haloDone (hs : s.Inv) : (haloDone s id).Inv := by
  unfold haloDone
  split
  · exact hs
  · split
    · exact hs
    · exact hs.ite (hs.postIn.ite ((hs.dropHalo.endLong (fun _ h => h.setS)).ite hs.dropHalo))

protected theorem State.Inv.haloRead {h : HaloRun} (hs : s.Inv) : (haloRead s h).Inv := hs.frame.haloDone

protected theorem State.Inv.sendStrips {h : HaloRun} {d : Nat} (hs : s.Inv) : (sendStrips s h n d).Inv := hs.foldl fun _ _ h => h.updStrip.sendIn

protected theorem State.Inv.turnGen {q : RuleReq} (hs : s.Inv) : (turnGen s st r q a b sub imm).Inv := by
  unfold turnGen
  split
  · rename_i h
    exact (hs.readHeader.of_fst h).dropRule.faultLong.ite (hs.readHeader.of_fst h).dropRule
  · rename_i h
    split
    · exact (hs.readHeader.of_fst h).dropRule
    · split
      · exact (hs.readHeader.of_fst h).dropRule.faultLong
      · split
        · exact (hs.readHeader.of_fst h).dropRule.genEnds.ite (hs.readHeader.of_fst h).beginRule
        · exact (hs.readHeader.of_fst h).dropRule
      · extract_lets x
        have hx : x.1.Inv := (hs.readHeader.of_fst h).rulePoison
        split
        · exact hx.dropRule.faultLong
        · exact hx.dropRule.ite hx.beginRule

protected theorem State.Inv.turnHalo {h : HaloRun} (hs : s.Inv) : (turnHalo s st h).Inv := by
  unfold turnHalo
  extract_lets _ stop
  have hstop : ∀ s x, s.Inv → (stop s x).Inv := fun _ _ h => h.dropRule.dropHalo.faultLong.ite h.dropRule.dropHalo
  split
  · rename_i h
    exact hstop _ _ (hs.readHeader.of_fst h)
  · rename_i h
    extract_lets x s1 _
    have hx : x.1.Inv := (hs.readHeader.of_fst h).rulePoison
    have hs1 : s1.Inv := hx.makeStrips
    split
    · exact hstop _ _ hx
    · exact hx.dropRule.dropHalo.ite (hs1.dropRule.haloRead.ite hs1.beginRule.sendStrips)

protected theorem State.Inv.turnTable {q : RuleReq} (hs : s.Inv) : (turnTable s st q).Inv := by
  unfold turnTable
  split
  · split
    · exact hs.beginRule
    · exact hs.dropRule
  · exact hs.dropRule

protected theorem State.Inv.startRule (hs : s.Inv) : (startRule s st fuel).Inv := by
  induction fuel generalizing s with
  | zero => exact hs
  | succ fuel ih =>
    unfold startRule
    extract_lets s1 _
    have hs1 : s1.Inv := hs.passTurn
    split
    · exact hs1
    · split
      · exact hs1
      · extract_lets s2 s3
        have hs2 : s2.Inv := hs1.updRule
        refine ih ?_
        unfold s3
        split
        · split
          · exact hs2.dropRule.ite hs2.turnGen
          · exact hs2.dropRule
        · exact hs2.dropRule.ite hs2.turnTable
        · split
          · exact hs2.beginStrip
          · exact hs2.dropRule
        · split
          · exact hs2.dropRule.dropHalo.ite hs2.turnHalo
          · exact hs2.dropRule

protected theorem State.Inv.ruleWork {granted : List Nat} (hs : s.Inv) : (ruleWork s st granted).Inv := by
  unfold ruleWork
  extract_lets _ _ s1 _ s2 _
  have hs1 : s1.Inv := hs.updRule
  have hs2 : s2.Inv := by
    unfold s2
    split
    · exact hs1.sendStrips
    · exact hs1
  exact hs.ite (hs.updRule.ite (hs2.ite hs2.postIn))

protected theorem State.Inv.genBoundary (hs : s.Inv) : (genBoundary s st).Inv := by
  unfold genBoundary
  split
  · exact hs
  · exact hs.updRule.ite (hs.updRule.boundary.ite hs.updRule.boundary.askRule)

protected theorem State.Inv.genOpEnd {q : RuleReq} (hs : s.Inv) : (genOpEnd s st q d a b sub imm).Inv := by
  unfold genOpEnd
  extract_lets
  split
  · exact hs.endRule.dropRule.faultLong.ite hs.endRule.dropRule
  · exact (hs.ite hs.setGenWord).endRule.dropRule.genEnds.ite (hs.ite hs.setGenWord).endRule.dropRule
  · extract_lets _ s2 _ s4
    have hs2 : s2.Inv := hs.makeStep.chargeStop
    have hs4 : s4.Inv := (hs2.setF.ite hs2).endRule.dropRule.updRule
    exact hs4.postIn.releaseStep.ite hs4.genBoundary

protected theorem State.Inv.genStepEnd (hs : s.Inv) : (genStepEnd s st).Inv := by
  unfold genStepEnd
  extract_lets
  split
  · exact hs.genBoundary
  · split
    · exact hs
    · split
      · exact hs.genOpEnd
      · exact hs.endRule.dropRule

protected theorem State.Inv.gtblEnd (hs : s.Inv) : (gtblEnd s st).Inv := by
  unfold gtblEnd
  split
  · exact hs.endRule
  · split
    · exact hs.endRule.dropRule
    · split
      · extract_lets _ _ _ _ _ _ s4
        have hs4 : s4.Inv := hs.writeHome.writeHome.endRule.dropRule.dropReq.chargeStop
        exact (hs4.endLong (fun _ h => h.setS)).ite hs4
      · exact hs.endRule.dropRule.dropReq

protected theorem State.Inv.tableRead (hs : s.Inv) : (tableRead s id q).Inv := by
  unfold tableRead
  split
  · exact hs.dropReq.faultLong.ite hs.dropReq
  · exact hs.putReq.askRule

protected theorem State.Inv.tableAct (hs : s.Inv) : (tableAct s id q out res).Inv := by
  unfold tableAct
  split
  · extract_lets s1 y
    have hs1 : s1.Inv := hs.foldl fun _ _ h => h.fillTlb
    have hy : y.1.Inv := hs1.ownReads
    split
    · split
      · exact hy.dropReq.faultNow
      · exact hy.beginLong.tableRead.ite hy
    · exact (hs1.ite hs1.beginLong).sendReq
  · exact hs.dropReq.faultNow
  · exact hs.dropReq.pageFault
  · exact (hs.ite hs.beginLong).putReq.addWalk

protected theorem State.Inv.execGtbl {hdr : Reg} (hs : s.Inv) : Out.Inv (execGtbl d hdr mem s) := by
  unfold execGtbl
  extract_lets
  refine State.Inv.next ?_
  split
  · rename_i h
    exact (hs.readHeader.of_fst h).faultNow.ite (hs.readHeader.of_fst h)
  · rename_i h
    split
    · exact hs.readHeader.of_fst h
    · extract_lets
      split
      · exact (hs.readHeader.of_fst h).faultNow
      · exact (hs.readHeader.of_fst h).freshId.tableAct

protected theorem State.Inv.execGen (hs : s.Inv) : Out.Inv (execGen d a b sub imm s) := by
  unfold execGen
  extract_lets
  refine State.Inv.next ?_
  split
  · rename_i h
    exact (hs.readHeader.of_fst h).faultNow.ite (hs.readHeader.of_fst h)
  · rename_i h
    exact (hs.readHeader.of_fst h).ite (hs.readHeader.of_fst h).freshId.beginLong.askRule

protected theorem State.Inv.execGhalo (hs : s.Inv) : Out.Inv (execGhalo d a s) := by
  unfold execGhalo
  extract_lets
  refine State.Inv.next ?_
  split
  · rename_i h
    exact (hs.readHeader.of_fst h).faultNow.ite (hs.readHeader.of_fst h)
  · rename_i h
    split
    · exact hs.readHeader.of_fst h
    · split
      · exact (hs.readHeader.of_fst h).faultNow
      · exact (hs.readHeader.of_fst h).frame.freshId.beginLong.askRule

protected theorem State.Inv.execGtblOperation {studio : Nat} (hs : s.Inv) : Out.Inv (execGtblOperation studio s) := by
  unfold execGtblOperation
  exact ((hs.gtblEnd.ite hs).ite (hs.ite hs.drainRule)).next

protected theorem State.Inv.stripArrives (hs : s.Inv) : (stripArrives s st x).Inv := by
  unfold stripArrives
  exact hs.holdStrip.ite (hs.updRule.updStrip.beginStrip.ite hs.askRule)

protected theorem State.Inv.execHaloStrip (hs : s.Inv) : Out.Inv (execHaloStrip id s) := by
  unfold execHaloStrip
  refine State.Inv.next ?_
  split
  · exact hs.haloDone.ite hs.dropRule.sendStrips.haloRead
  · split
    · exact hs
    · extract_lets
      split
      · split
        · exact hs.frame
        · exact hs.frame.frame.haloDone
      · exact hs.applyStrip.ite hs.stripArrives

/-! ### Machine/Joins -/

protected theorem State.Inv.updTable {h : Nat} {f : JoinTable → JoinTable} (hs : s.Inv) : (updTable s h f).Inv := by
  unfold updTable
  split
  · exact hs
  · exact hs.frame

protected theorem State.Inv.bump {h sel : Nat} (hs : s.Inv) : (bump s h sel n).Inv := hs.updTable

protected theorem State.Inv.updEp {h : Nat} {f : Episode → Episode} (hs : s.Inv) : (updEp s h key f).Inv := hs.updTable

protected theorem State.Inv.recPut {t : JoinTable} {a : Nat} (hs : s.Inv) : (recPut s t a n v).Inv := by
  unfold recPut
  exact hs.touch.writeEngine.ite hs

protected theorem State.Inv.recRead {t : JoinTable} {a : Nat} (hs : s.Inv) : (recRead s t a n).Inv := hs.meetLines.consumePoison

protected theorem State.Inv.setRecF {t : JoinTable} (hs : s.Inv) : (setRecF s t at_ off lo len v).Inv := hs.recPut

protected theorem State.Inv.kickEngine (hs : s.Inv) : (kickEngine s eng).Inv := by
  unfold kickEngine
  extract_lets
  split
  · exact hs
  · split
    · exact hs
    · exact hs.frame.postIn

protected theorem State.Inv.leaveTable {h : Nat} {state reason : Nat} (hs : s.Inv) : (leaveTable s h e state reason).1.Inv := by
  unfold leaveTable
  split
  · exact hs
  · extract_lets _ _ s2 _ _ _ _ _
    have hs2 : s2.Inv := hs.setRecF.setRecF.setRecF.updTable
    split
    · exact hs2.updTable
    · exact hs2

protected theorem State.Inv.goRelease {h : Nat} {st : Stage} (hs : s.Inv) : (goRelease s h key st fuel).Inv := by
  induction fuel generalizing s key st with
  | zero => exact hs
  | succ fuel ih =>
    unfold goRelease
    split
    · exact hs
    · extract_lets _ _ _ s1 _ x _ _
      have hs1 : s1.Inv := hs.updEp
      have hx : x.1.Inv := hs1.bump.leaveTable
      exact hs.updEp.setRecF.ite ((hx.foldl fun _ _ h' => ih h').ite hs1.updEp.frame.kickEngine)

protected theorem State.Inv.discard {h : Nat} {reason : Nat} (hs : s.Inv) :
    (discard s h e reason).Inv := hs.leaveTable.foldl fun _ _ h => h.goRelease

protected theorem State.Inv.whenComplete {h : Nat} (hs : s.Inv) : (whenComplete s h key).Inv := by
  unfold whenComplete
  split
  · exact hs
  · exact hs.goRelease.ite hs

protected theorem State.Inv.scanStep {t : JoinTable} {acc : ScanAcc} (hs : s.Inv) : (scanStep t at_ s acc i).1.Inv := hs.recPut.recPut

protected theorem State.Inv.scanRecord {t : JoinTable} (hs : s.Inv) : (scanRecord s t at_).Inv :=
  (hs.foldl_fst (fun _ _ h => h.scanStep)).setRecF.chargeCtx

protected theorem State.Inv.endPurge {h : Nat} (hs : s.Inv) : (endPurge s h).Inv := by
  unfold endPurge
  split
  · exact hs
  · split
    · exact hs
    · exact hs.ite (hs.frame.foldl (fun _ _ h => h.answerRow))

protected theorem State.Inv.offerRelease {x : Release} (hs : s.Inv) : (offerRelease s eng x).Inv := by
  unfold offerRelease
  extract_lets drop
  have hdrop : ∀ s, s.Inv → (drop s).Inv := fun _ h => h.frame
  split
  · exact (hdrop _ hs).kickEngine
  · extract_lets _ _ y _ _ _ _ _ _ _ s3
    have hy : y.1.Inv := hs.pushAt
    have hs3 : s3.Inv := hy.frame
    exact ((hdrop _ hy.bump.bump).leaveTable.foldl (fun _ _ h => h.goRelease)).kickEngine.endPurge.ite (hs3.ite hs3.postIn).kickEngine

protected theorem State.Inv.setOrphans {l : List Orphan} (hs : s.Inv) : (setOrphans s eng l).Inv := hs.frame

protected theorem State.Inv.rewardLive {h : Nat} {t x : Nat} (hs : s.Inv) : (rewardLive s h e t x).1.Inv := by
  unfold rewardLive
  split
  · exact hs
  · extract_lets _ s1 s2 _ _
    have hs1 : s1.Inv := hs.recRead
    have hs2 : s2.Inv := hs1.recRead.ite hs1
    clear_value s2
    split
    · exact hs2
    · split
      · exact hs2.bump
      · exact hs2.recPut.recPut.setRecF

protected theorem State.Inv.rewardAt {h step x : Nat} (hs : s.Inv) : (rewardAt s h key step x).1.Inv := by
  unfold rewardAt
  split
  · exact hs
  · split
    · exact hs
    · split
      · exact hs.rewardLive.whenComplete
      · extract_lets
        split
        · exact hs.bump
        · split
          · exact hs.bump
          · exact hs.setOrphans

protected theorem State.Inv.matchOrphans {h : Nat} (hs : s.Inv) : (matchOrphans s h key e).1.Inv :=
  (hs.setOrphans.foldl (fun _ _ h => h.rewardLive.bump.ite h.rewardLive)).bump

protected theorem State.Inv.expireOrphans (hs : s.Inv) : (expireOrphans s eng).Inv := hs.setOrphans.foldl fun _ _ h => h.bump

protected theorem State.Inv.writeRecord {t : JoinTable} {lw ver deadline : Nat} (hs : s.Inv) : (writeRecord s t at_ key lw ver deadline).Inv :=
  hs.recPut.recPut.recPut.recPut.recPut.recPut.recPut.recPut.foldl fun _ _ h => h.recPut.recPut

protected theorem State.Inv.openAt {h lw ver : Nat} (hs : s.Inv) : (openAt s h key at_ lw ver).1.Inv := by
  unfold openAt
  split
  · exact hs
  · split
    · exact hs
    · split
      · exact hs
      · split
        · exact hs
        · exact hs.frame.updTable.writeRecord.matchOrphans

protected theorem State.Inv.closeAt {h boot : Nat} {terminal : Bool} (hs : s.Inv) : (closeAt s h key boot terminal).1.Inv := by
  unfold closeAt
  split
  · exact hs
  · split
    · exact hs
    · extract_lets s1 _
      have hs1 : s1.Inv := hs.recRead
      split
      · exact hs1
      · exact hs1.setRecF.setRecF.whenComplete

protected theorem State.Inv.fillMissing {t : JoinTable} (hs : s.Inv) : (fillMissing s t at_).Inv :=
  (hs.recRead.foldl (fun _ _ h => h.ite h.recPut.recPut)).setRecF

protected theorem State.Inv.skipTo {h : Nat} (hs : s.Inv) : (skipTo s h e fuel).Inv := hs.updTable.bump.foldl fun _ _ h => h.goRelease

protected theorem State.Inv.actOverdue {h : Nat} (hs : s.Inv) : (actOverdue s h e).Inv := by
  unfold actOverdue
  split
  · exact hs
  · extract_lets _ _ s1
    have hs1 : s1.Inv := hs.recRead
    exact hs.ite (hs1.skipTo.ite (hs1.bump.discard.ite (hs1.bump.discard.ite hs1.fillMissing.goRelease)))

protected theorem State.Inv.actDeadlines {now : Nat} (hs : s.Inv) : (actDeadlines s eng now).Inv := by
  unfold actDeadlines
  refine State.Inv.foldl hs ?_
  intro _ _ h
  split
  · exact h.actOverdue.ite h
  · exact h

protected theorem State.Inv.emptyTable {h : Nat} (hs : s.Inv) : (emptyTable s h).Inv := by
  unfold emptyTable
  split
  · exact hs
  · extract_lets _ _ _ _ _ _ _ _ _ _ s4 _
    have hs4 : s4.Inv := (hs.setOrphans.foldl (fun _ _ h => h.setRecF.setRecF)).updTable.frame
    exact (hs4.frame.ite hs4).kickEngine

protected theorem State.Inv.purgeTable {h : Nat} {who : List (Nat × Nat)} (hs : s.Inv) : (purgeTable s h who).Inv := by
  unfold purgeTable
  exact hs.emptyTable.frame.ite hs.emptyTable.updTable

protected theorem State.Inv.configAt {m : JoinMsg} (hs : s.Inv) : (configAt s m).1.Inv := by
  unfold configAt
  extract_lets
  split
  · exact hs
  · split
    · exact hs
    · split
      · exact hs
      · exact (State.Inv.of_wf (wf_memClear _ _ _ hs.keepCode.clearPrec)).stampLines.frame
  · exact hs
  · split
    · exact hs
    · split
      · exact hs
      · exact hs.frame
  · split
    · exact hs
    · exact hs.purgeTable

protected theorem State.Inv.sendJoinMsg {m : JoinMsg} (hs : s.Inv) : (sendJoinMsg s kind m).Inv := hs.frame.freshId.sendIn

protected theorem State.Inv.joinIssue {m : JoinMsg} (hs : s.Inv) : (joinIssue s kind why len m).Inv := by
  unfold joinIssue
  exact hs.beginLong.sendJoinMsg.ite hs.sendJoinMsg.finish

protected theorem State.Inv.accept {act : State → JoinMsg → State} (hs : s.Inv) (hact : ∀ s x, s.Inv → (act s x).Inv) :
    (accept s id kind act).Inv := by
  unfold accept
  split
  · exact hs
  · extract_lets
    split
    · exact hs.tryLater
    · split
      · exact hs.frame.tryLater
      · exact hact _ _ hs.frame

protected theorem State.Inv.joinReply {m : JoinMsg} (hs : s.Inv) : (joinReply s m v).Inv := by
  unfold joinReply
  exact hs.sendPacket.ite (hs.answerRow.ite hs)

protected theorem State.Inv.forTable {m : JoinMsg} {act : State → State × Nat} (hs : s.Inv) (hact : ∀ s, s.Inv → (act s).1.Inv) :
    (forTable s m act).1.Inv := by
  unfold forTable
  split
  · exact hact _ hs
  · exact hs

protected theorem State.Inv.rewardLeaves {m : JoinMsg} (hs : s.Inv) : (rewardLeaves s m k).Inv := by
  unfold rewardLeaves
  split
  · exact hs.joinReply
  · exact hs.joinReply.ite (hs.frame.sendPacket.frame.sendIn.ite hs.frame.joinReply)

protected theorem State.Inv.execReward (hs : s.Inv) : Out.Inv (execReward id s) := by
  unfold execReward
  refine State.Inv.next ?_
  refine State.Inv.accept hs ?_
  intro _ _ h
  extract_lets
  split
  · exact (h.forTable (fun _ h' => h'.rewardAt)).joinReply
  · exact h.rewardLeaves

protected theorem State.Inv.execJverMessage (hs : s.Inv) : Out.Inv (execJverMessage id s) := by
  unfold execJverMessage
  refine State.Inv.next ?_
  refine State.Inv.accept hs ?_
  intro _ _ h
  split
  · exact (h.updTable.ite h).joinReply
  · extract_lets x _
    have hx : x.1.Inv := h.configAt
    split
    · exact hx
    · exact hx.answerRow

protected theorem State.Inv.execJstatRequest (hs : s.Inv) : Out.Inv (execJstatRequest id s) := by
  unfold execJstatRequest
  refine State.Inv.next ?_
  refine State.Inv.accept hs ?_
  intro _ _ h
  split
  · exact h.answerRow
  · exact h.ite h.frame.postIn

protected theorem State.Inv.execOrphanExpiry (hs : s.Inv) : Out.Inv (execOrphanExpiry eng s) := hs.expireOrphans.next

protected theorem State.Inv.execEpisodeDeadline (hs : s.Inv) : Out.Inv (execEpisodeDeadline eng s) := hs.actDeadlines.next

protected theorem State.Inv.execReleasePush (hs : s.Inv) : Out.Inv (execReleasePush eng s) := by
  unfold execReleasePush
  refine State.Inv.next ?_
  split
  · exact hs
  · split
    · exact hs.offerRelease
    · split
      · exact hs.postIn
      · exact hs.recRead.scanRecord.offerRelease

protected theorem State.Inv.joinOpen {h : BitVec 7} {c e : Reg} (hs : s.Inv) : (joinOpen s h d key b c e len).Inv := by
  unfold joinOpen
  exact hs.faultInstr.ite hs.joinIssue

protected theorem State.Inv.joinReward {h : BitVec 7} {c e : Reg} (hs : s.Inv) : (joinReward s h d key b c e len).Inv := by
  unfold joinReward
  exact hs.joinIssue.ite (hs.faultInstr.ite hs.joinIssue)

protected theorem State.Inv.joinLeave {m : JoinMsg} (hs : s.Inv) : (joinLeave s m out len).Inv := by
  unfold joinLeave
  exact hs.sendJoinMsg.ite (hs.sendJoinMsg.completeLong.ite hs.sendJoinMsg.finish)

protected theorem State.Inv.joinClose {h : BitVec 7} {terminal : Bool} (hs : s.Inv) : (joinClose s h d key b terminal len).Inv := by
  unfold joinClose
  exact State.Inv.startFence hs.frame.freshId fun _ h => (h.frame.beginLong.ite h.frame).joinLeave

protected theorem State.Inv.joinConfig (hs : s.Inv) : (joinConfig s op d a b).Inv := by
  unfold joinConfig
  extract_lets
  split
  · exact hs.faultInstr
  · split
    · exact hs.faultInstr
    · exact hs.faultNow.ite (hs.faultNow.ite hs.beginLong.sendJoinMsg)

protected theorem State.Inv.execJver (hs : s.Inv) : Out.Inv (execJver d a b s) := by
  unfold execJver
  extract_lets
  refine State.Inv.next ?_
  split
  · exact hs.faultInstr
  · split
    · exact hs.faultInstr
    · exact hs.joinIssue

protected theorem State.Inv.execJstat {sel : BitVec 32} (hs : s.Inv) : Out.Inv (execJstat d a sel s) := by
  unfold execJstat
  extract_lets
  refine State.Inv.next ?_
  split
  · exact hs.faultInstr
  · exact hs.faultInstr.ite hs.joinIssue

/-! ### Machine/Arrivals -/

protected theorem State.Inv.replyArrives (hs : s.Inv) : (replyArrives s id).Inv := by
  unfold replyArrives
  split
  · exact hs
  · split
    · exact hs.replyCome
    · split
      · exact hs.bandDone
      · exact hs.tableRead
      · exact hs.replyCome

protected theorem State.Inv.execLongInstructionComplete (hs : s.Inv) : Out.Inv (execLongInstructionComplete row s) := by
  unfold execLongInstructionComplete
  refine State.Inv.next ?_
  split
  · exact hs
  · split
    · exact hs
    · split
      · exact hs.faultLong
      · exact hs.endLong fun _ h => (h.foldl (fun _ _ h' => h'.setS)).orFlags

protected theorem State.Inv.actOf {q' : Req} {last : Bool} {x : PlanRes} (hs : s.Inv) :
    (actOf q s id q' last x).Inv := by
  unfold actOf
  cases q.dest with
  | acc _ _ => exact hs.bandAct
  | table _ _ _ _ _ => exact hs.tableAct
  | _ => exact hs.planAct

protected theorem State.Inv.serveOne {w : Walk} {x : WalkFor} (hs : s.Inv) : (serveOne w s x).Inv := by
  unfold serveOne
  split
  · split
    · exact hs
    · extract_lets s1
      have hs1 : s1.Inv := by
        unfold s1
        split
        · exact hs.ite hs.fillTlb
        · exact hs
      exact hs1.serveAccess fun _ _ _ _ _ h => h.actOf
  · exact hs.serveFetch
  · exact hs.serveCopy
  · exact hs.serveQuery
  · exact hs.serveMigrate

protected theorem State.Inv.dropStale {w : Walk} (hs : s.Inv) : (dropStale s w).Inv := by
  unfold dropStale
  exact hs.ite hs.frame

protected theorem State.Inv.execWalkComplete (hs : s.Inv) : Out.Inv (execWalkComplete id s) := by
  unfold execWalkComplete
  refine State.Inv.next ?_
  split
  · exact hs
  · split
    · exact hs.setWalk.postIn
    · extract_lets _ _ s2 s3 _
      have hs2 : s2.Inv := hs.frame.ite hs.frame.fillS2
      have hs3 : s3.Inv := by
        unfold s3
        split
        · exact hs2.fillTlb.ite hs2
        · exact hs2
      exact (hs3.startWalks.foldl (fun _ _ h => h.serveOne)).dropStale

/-! ### Machine/Waits -/

protected theorem State.Inv.endInPlace {d : Nat} {done : State → State} (hs : s.Inv) (hdone : ∀ s, s.Inv → (done s).Inv) :
    (endInPlace s r d done).Inv := by
  unfold endInPlace
  split
  · exact hs.resumeRow
  · split
    · exact hs
    · split
      · exact hs.faultLong
      · exact hdone _ (hs.updEnd.ite hs).withdraw.runRow

protected theorem State.Inv.afterFence {a : After} (hs : s.Inv) : (afterFence s r a).Inv := by
  unfold afterFence
  split
  · exact hs.completeLong
  · split
    · exact hs.completeLong
    · split
      · exact hs.actPlan
      · exact hs.resumeAccess
  · split
    · exact hs.completeLong
    · exact hs.frame.joinLeave
  · exact hs.endLong fun _ h => h.doneStep.setS

protected theorem State.Inv.endWait {w : Wait} (hs : s.Inv) : (endWait s r w).Inv := by
  unfold endWait
  split
  · exact hs.endInPlace fun _ h => h.phaseEnd
  · exact hs.endInPlace fun _ h => h.waitlbEnd
  · split
    · exact hs.resumeAccess
    · exact hs.completeLong
  · exact hs.frame.afterFence
  · exact hs.completeLong
  · exact hs.resumeRow

protected theorem State.Inv.endWaits (hs : s.Inv) : (endWaits s).Inv := by
  unfold endWaits
  refine State.Inv.foldl hs ?_
  intro _ _ h
  split
  · exact h
  · exact h.endWait.ite h

/-! ### Machine/Supervision -/

protected theorem State.Inv.switchAct {t : Nat} (hs : s.Inv) : (switchAct s p ex v t).1.Inv := by
  unfold switchAct
  extract_lets
  split
  · exact hs
  · split
    · split
      · exact hs.setRegBits.setRegBits
      · exact hs
    · split
      · exact hs
      · split
        · exact hs
        · split
          · exact hs
          · exact hs.setRegWord.setRegBits.setRegBits

protected theorem State.Inv.execSwitch (hs : s.Inv) : Out.Inv (execSwitch d a b s) := by
  unfold execSwitch
  exact (hs.faultInstr.ite hs.switchAct.setS.finish).next

protected theorem State.Inv.sleepOut (hs : s.Inv) : (sleepOut s r why).Inv := hs.endWindow.updSlot.setCode.setF

protected theorem State.Inv.catchAll (hs : s.Inv) : (catchAll s p c).Inv := hs.frame.foldl fun _ _ h => h.sleepOut

protected theorem State.Inv.queueOut (hs : s.Inv) : (queueOut s p c).Inv := hs.foldl fun _ _ h => (h.foldl (fun _ _ h' => h'.setF)).frame

protected theorem State.Inv.waitersOut (hs : s.Inv) : (waitersOut s p c).Inv := (hs.foldl (fun _ _ h => h.sleepOut)).frame

protected theorem State.Inv.switchOut {pay : State → Nat → State} (hs : s.Inv) (hpay : ∀ s x, s.Inv → (pay s x).Inv) : (switchOut s p c pay).Inv :=
  hpay _ _ hs.queueOut.waitersOut.catchAll.frame

protected theorem State.Inv.switchIn {pay : State → Nat → State} (hs : s.Inv) (hpay : ∀ s x, s.Inv → (pay s x).Inv) : (switchIn s p c pay).Inv := by
  unfold switchIn
  exact hpay _ _ ((((hs.frame.foldl (fun _ _ h => h.postAt)).frame.foldl (fun _ _ h => h.setF)).frame.foldl
      (fun _ _ h => h.foldl (fun _ _ h' => h'.enqueue.ite h'))).foldl (fun _ _ h => h.withdraw.makeReady.ite h))

protected theorem State.Inv.execSwitchTCycle (hs : s.Inv) : Out.Inv (execSwitchTCycle p s) := by
  unfold execSwitchTCycle
  exact (hs.ite hs.frame.postIn).next

protected theorem State.Inv.execSwitchDecision (hs : s.Inv) : Out.Inv (execSwitchDecision p s) := by
  unfold execSwitchDecision
  refine State.Inv.next ?_
  split
  · exact hs
  · split
    · exact hs
    · extract_lets _ done _ _ _ _ _
      have hdone : ∀ s x, s.Inv → (done s x).Inv := fun _ _ h => h.setRegBits.setRegBits
      exact (hdone _ _ hs.frame).ite (((hdone _ _ hs.frame.setRegBits).switchOut (fun _ _ h => h.chargeCtx)).switchIn (fun _ _ h => h.chargeCtx))

protected theorem State.Inv.spillOut (hs : s.Inv) : (spillOut s).Inv := (hs.foldl (fun _ _ h => h.beginSpill)).foldl fun _ _ h => h.spillUnit

protected theorem State.Inv.retainOut (hs : s.Inv) : (retainOut s).Inv := hs.foldl fun _ _ h => h.retainRow.ite h

protected theorem State.Inv.stepsOut (hs : s.Inv) : (stepsOut s).Inv := hs.foldl fun _ _ h => h.frame.retainRow

protected theorem State.Inv.endSwitches (hs : s.Inv) : (endSwitches s).Inv := hs.frame.foldl fun _ _ h => h.setRegWord.frame

protected theorem State.Inv.execContextEndOrder (hs : s.Inv) : Out.Inv (execContextEndOrder p c s) := by
  unfold execContextEndOrder
  exact (hs.contextEnd.ite hs).next

protected theorem State.Inv.enterStill (hs : s.Inv) : (enterStill s).Inv := hs.frame.chargeDevice.setRegBits

protected theorem State.Inv.execSuspend {t : Nat} (hs : s.Inv) : Out.Inv (execSuspend t s) := by
  unfold execSuspend
  refine State.Inv.next ?_
  split
  · exact hs.frame.setRegBits.postIn
  · split
    · exact hs
    · split
      · exact hs.enterStill.ite hs.postIn
      · split
        · exact hs.postIn.ite hs.frame.postIn
        · extract_lets _ _ _ _ _ _ s3
          have hs3 : s3.Inv := hs.frame.frame.foldl fun _ _ h => h.switchOut (fun _ _ h' => h'.chargeDevice)
          exact hs.frame.frame.setRegBits.ite (hs3.enterStill.ite hs3.postIn)

protected theorem State.Inv.execResumeModule {t : Nat} (hs : s.Inv) : Out.Inv (execResumeModule t s) :=
  (hs.frame.setRegBits.postIn.ite (hs.ite (hs.postIn.ite (hs.frame.chargeDevice.setRegBits.foldl
      (fun _ _ h => h.switchIn (fun _ _ h' => h'.chargeDevice)))))).next

/-! ### Machine/Layout -/

protected theorem State.Inv.conservatorSays (hs : s.Inv) : (conservatorSays s p words).Inv := hs.hostNote

protected theorem State.Inv.refuseRequest (hs : s.Inv) : (refuseRequest s p code).Inv := hs.frame.logBox.conservatorSays

protected theorem State.Inv.journal {hash : Nat} (hs : s.Inv) : (journal s kind gen hash).Inv := hs.frame.logBox

protected theorem State.Inv.refuseLayout {status : Nat} (hs : s.Inv) : (refuseLayout s status).Inv := hs.frame.logBox.conservatorSays

protected theorem State.Inv.execPrepare {layout : List (List Nat)} (hs : s.Inv) : Out.Inv (execPrepare layout s) := by
  unfold execPrepare
  extract_lets _ _ _ _ _ s3 _
  have hs3 : s3.Inv := (hs.setRegBits.foldl (fun _ _ h => h.foldl (fun _ _ h' => h'.setRegWord))).frame
  exact (hs.ite (hs.refuseRequest.ite (hs3.refuseLayout.ite (hs3.refuseLayout.ite
      (hs3.refuseLayout.ite hs3.setRegBits.journal.conservatorSays))))).next

protected theorem State.Inv.commitBegin (hs : s.Inv) : (commitBegin s gen).Inv :=
  (hs.foldl (fun _ _ h => h.foldl (fun _ _ h' => h'.contextEnd))).frame.journal

protected theorem State.Inv.setAreas (hs : s.Inv) : (setAreas s p).Inv := by
  unfold setAreas
  split
  · exact hs
  · exact hs.setRegWord.setRegWord.setRegWord.setRegWord.setRegWord.setRegWord.foldl
        fun _ _ h => h.setRegWord.setRegWord.setRegWord.setRegBits.setRegWord.setRegWord

protected theorem State.Inv.unwipe {row line byte : Nat → Bool} (hs : s.Inv) : (unwipe s row line byte).Inv :=
  State.Inv.of_wf (memWfFrom_filter _ _ _ hs)

protected theorem State.Inv.commitFlip (hs : s.Inv) : (commitFlip s gen).Inv := by
  unfold commitFlip
  extract_lets _ _ _ _ _ _ _ _ _ _ _ _ _ _ _ _ s5 _
  have hs5 : s5.Inv := ((hs.foldl (fun _ _ h => h.foldl (fun _ _ h' => h'.setRegWord))).setRegBits.foldl (fun _ _ h => h.setAreas)).unwipe.frame
  exact (hs5.chargeHousekeeping.ite hs5).foldl fun _ _ h => h.foldl (fun _ _ h' => h'.setRegWord)

protected theorem State.Inv.commitStep (hs : s.Inv) : (commitStep s gen).Inv := by
  unfold commitStep
  extract_lets _ _ s1 _ _
  have hs1 : s1.Inv := hs.foldl fun _ _ h => h.purgeTable
  split
  · exact hs.refuseRequest
  · exact hs.commitBegin.postIn.ite ((hs1.postIn.ite hs1.commitFlip.postIn).ite hs.setRegBits.journal.frame.conservatorSays)

protected theorem State.Inv.execCommit (hs : s.Inv) : Out.Inv (execCommit gen s) := by
  unfold execCommit
  exact (hs.frame.commitStep.ite hs).next

protected theorem State.Inv.execConservatorRecovery (hs : s.Inv) : Out.Inv (execConservatorRecovery s) := by
  unfold execConservatorRecovery
  extract_lets
  refine State.Inv.next ?_
  split
  · exact hs.frame.setRegBits
  · exact hs.frame.postIn
  · exact hs.frame

/-! ### Machine/Power -/

protected theorem State.Inv.setPower {duty demand : Nat} (hs : s.Inv) : (setPower s ex duty demand).Inv := by
  unfold setPower
  exact hs.ite hs.setRegWord

protected theorem State.Inv.allotStudio {dem : Nat → Nat} {sd a : Nat} (hs : s.Inv) :
    (allotStudio s dem sd a).Inv := hs.foldl fun _ _ h => h.setPower

protected theorem State.Inv.allotStack {dem : Nat → Nat} {a : Nat} (hs : s.Inv) : (allotStack s dem st a).Inv := hs.foldl fun _ _ h => h.allotStudio

protected theorem State.Inv.powerKill (hs : s.Inv) : OptInv (powerKill s) := by
  intro t ht
  obtain ⟨_, _, rfl⟩ := Option.map_eq_some_iff.mp ht
  exact hs.contextEnd.regAdd.sendPacket

protected theorem State.Inv.engageGate (hs : s.Inv) : (engageGate s).Inv := by
  unfold engageGate
  exact hs.ite hs.setRegBits.regAdd

protected theorem State.Inv.gateSoon (hs : s.Inv) : (gateSoon s).Inv := by
  unfold gateSoon
  exact hs.engageGate.ite hs

protected theorem State.Inv.execBudgetTreePeriod (hs : s.Inv) : Out.Inv (execBudgetTreePeriod s) := by
  unfold execBudgetTreePeriod
  extract_lets _ _ _ _ _ _ _ _ _ s3 s4 s5
  have hs3 : s3.Inv := (hs.foldl (fun _ _ h => h.allotStack)).frame
  have hs4 : s4.Inv := hs3.chargeDevice.ite hs3
  have hs5 : s5.Inv := hs4.chargeHousekeeping.ite hs4
  exact ((hs5.gateSoon.getD hs5.powerKill).ite hs5).next

protected theorem State.Inv.execAlarm (hs : s.Inv) : Out.Inv (execAlarm s) := by
  unfold execAlarm
  extract_lets _ _ s1 s2
  have hs1 : s1.Inv := hs.frame.setRegBits
  have hs2 : s2.Inv := hs1.logBox.ite hs1
  exact (hs2.ite (((hs2.gateSoon.getD hs2.powerKill).ite hs2).ite hs2.gateSoon)).next

protected theorem State.Inv.execGatingEnd (hs : s.Inv) : Out.Inv (execGatingEnd s) := by
  unfold execGatingEnd
  refine State.Inv.next ?_
  split
  · exact hs.setRegBits.ite hs
  · exact hs

protected theorem State.Inv.execClockHop (hs : s.Inv) : Out.Inv (execClockHop stack s) := by
  unfold execClockHop
  exact (hs.ite hs.frame.postIn).next

protected theorem State.Inv.execClockHopEnd (hs : s.Inv) : Out.Inv (execClockHopEnd stack s) := by
  unfold execClockHopEnd
  refine State.Inv.next ?_
  split
  · exact hs
  · extract_lets _ _ _ s2 _
    have hs2 : s2.Inv := (hs.frame.foldl (fun _ _ h => h.setRegBits)).regAdd
    exact hs2.engageGate.ite hs2

/-! ### Machine/Hosts -/

protected theorem State.Inv.hostRefuse (hs : s.Inv) : (hostRefuse s p k kind).Inv := hs.regAdd.answerRemote

protected theorem State.Inv.hostRetry (hs : s.Inv) : (hostRetry s p k).Inv := hs.regAdd.answerRemote

protected theorem State.Inv.hostSend {op : DirectOp} {data : Bool} (hs : s.Inv) :
    (hostSend s p k mode op es data).Inv := hs.freshId.regAdd.hostStart

protected theorem State.Inv.hostGate {a : Nat} {write : Bool} (hs : s.Inv) (hact : ∀ s, s.Inv → (act s).Inv) :
    (hostGate s p k mode a n write act).Inv := by
  unfold hostGate
  exact hs.hostRefuse.ite (hs.hostRefuse.ite (hs.hostRetry.ite (hs.hostRefuse.ite (hact _ hs))))

protected theorem State.Inv.execHostRmaAtomic {f : RemoteFlow} {addr size : Nat} {val cmp : Word} (hs : s.Inv) :
    Out.Inv (execHostRmaAtomic p f addr op size val cmp s) := by
  unfold execHostRmaAtomic
  refine State.Inv.next ?_
  split
  · exact hs.hostRefuse.ite hs.hostRefuse
  · exact hs.hostGate fun _ h => h.hostRefuse.ite h.hostSend

protected theorem State.Inv.execHostTaggedSend {f : RemoteFlow} {w1 w2 w3 : Word} (hs : s.Inv) :
    Out.Inv (execHostTaggedSend p f row w1 w2 w3 s) := by
  unfold execHostTaggedSend
  exact (hs.hostRefuse.ite (hs.hostRefuse.ite (hs.hostRetry.ite (hs.hostRefuse.ite hs.hostSend)))).next

protected theorem State.Inv.execPeerReward {e h t x : Nat} (hs : s.Inv) : Out.Inv (execPeerReward p e h key t x s) := by
  unfold execPeerReward
  exact (hs.hostRefuse.ite hs.freshId.frame.regAdd.sendIn).next

protected theorem State.Inv.execPeerSum {e : Nat} {pow : Int} (hs : s.Inv) : Out.Inv (execPeerSum p e key sum pow s) := by
  unfold execPeerSum
  exact (hs.hostRefuse.ite hs.frame.freshId.regAdd.sendIn).next

protected theorem State.Inv.execUnsupportedOperation (hs : s.Inv) : Out.Inv (execUnsupportedOperation p k s) := by
  unfold execUnsupportedOperation
  exact (hs.hostRefuse.ite hs).next

protected theorem State.Inv.execLinkFailure {peer : Nat} (hs : s.Inv) : Out.Inv (execLinkFailure p peer s) :=
  (hs.ite (((hs.setRegBits.logBox.regAdd.foldl (fun _ _ h => h.updCopy.copyFail)).frame.foldl (fun _ _ h => h.joinReply)).foldl
      (fun _ _ h => h.ite h.answerRow))).next

protected theorem State.Inv.linkTick (hs : s.Inv) : (linkTick s).Inv := by
  unfold linkTick
  refine State.Inv.foldl hs ?_
  intro _ _ h
  extract_lets _ s'
  have hs' : s'.Inv := h.frame
  split
  · exact hs'.frame.copiesAcked
  · split
    · split
      · rename_i h'
        exact hs'.execLinkFailure _ h'
      · exact hs'
    · exact hs'

/-! ### Machine/Firmware -/

protected theorem State.Inv.writeStage2 {g : Nat} (hs : s.Inv) : OptInv (writeStage2 s p c g w) := by
  unfold writeStage2
  exact hs.touch.writeHome.some.ite OptInv.none

protected theorem State.Inv.actRequest (hs : s.Inv) : OptInv (actRequest s code p args) := by
  unfold actRequest
  extract_lets
  split
  · exact hs.setRegWord.setRegWord.some.ite OptInv.none
  · exact hs.setRegWord.some
  · exact hs.setRegWord.some.ite OptInv.none
  · exact hs.setRegBits.some.ite OptInv.none
  · exact hs.unwipe.chargeHousekeeping.logBox.some.ite OptInv.none
  · exact hs.postIn.some
  · exact hs.setRegBits.some.ite (hs.setRegBits.some.ite (hs.postIn.some.ite (hs.postIn.some.ite OptInv.none)))
  · exact hs.postIn.some
  · exact hs.setRegBits.some.ite OptInv.none
  · exact (hs.setRegBits.ite hs.setRegBits).some.ite OptInv.none
  · exact hs.postIn.some
  · exact hs.writeStage2
  · exact OptInv.none

protected theorem State.Inv.execMailboxRequest (hs : s.Inv) : Out.Inv (execMailboxRequest code p args s) := by
  unfold execMailboxRequest
  refine State.Inv.next ?_
  split
  · exact hs
  · split
    · exact hs.refuseRequest
    · split
      · exact hs.refuseRequest
      · rename_i h
        exact (hs.actRequest _ h).conservatorSays

protected theorem State.Inv.execAttestationRequest {nonce : Nat} (hs : s.Inv) : Out.Inv (execAttestationRequest nonce s) := by
  unfold execAttestationRequest
  exact (hs.ite (hs.frame.conservatorSays.ite hs.refuseRequest)).next

protected theorem State.Inv.restart {life : Nat} {key : Bool} : (restart s life key).Inv := State.Inv.reset.frame

protected theorem State.Inv.execLifeCycleTransition (hs : s.Inv) : Out.Inv (execLifeCycleTransition s) := by
  unfold execLifeCycleTransition
  exact (hs.refuseRequest.ite State.Inv.restart).next

protected theorem State.Inv.execPatrolScrub {line : Nat} (hs : s.Inv) : Out.Inv (execPatrolScrub line s) := by
  unfold execPatrolScrub
  extract_lets _ s1 _ s2 _
  have hs1 : s1.Inv := hs.chargeHousekeeping
  have hs2 : s2.Inv := (hs1.ite hs1.frame).meetError
  refine State.Inv.next ?_
  split
  · exact hs2.ite hs2.frame
  · exact hs2.frame
  · exact hs2.frame
  · exact hs2

protected theorem State.Inv.execRefreshWindow (hs : s.Inv) : Out.Inv (execRefreshWindow s) := hs.chargeHousekeeping.frame.next

protected theorem State.Inv.execNeighbourRefresh (hs : s.Inv) : Out.Inv (execNeighbourRefresh row s) := hs.chargeHousekeeping.frame.regAdd.next

protected theorem State.Inv.execSequencerReset (hs : s.Inv) : Out.Inv (execSequencerReset stack s) := by
  unfold execSequencerReset
  exact (hs.ite hs.frame.logBox.regAdd.postIn).next

protected theorem State.Inv.answerRetry {t : Timed} (hs : s.Inv) : (answerRetry s t).Inv := by
  unfold answerRetry
  split
  · split
    · extract_lets s1
      have hs1 : s1.Inv := hs.dropReq.hostRetry
      split
      · exact hs1.hostPump
      · exact hs1
    · exact hs
  · exact hs.freshId.frame.postIn

protected theorem State.Inv.execSequencerHoldTimeout (hs : s.Inv) : Out.Inv (execSequencerHoldTimeout stack s) := by
  unfold execSequencerHoldTimeout
  refine State.Inv.next ?_
  split
  · exact hs
  · exact (hs.frame.frame.foldl (fun _ _ h => h.repost)).ite (hs.frame.foldl (fun _ _ h => h.answerRetry)).postAt

protected theorem State.Inv.execRetryReissue (hs : s.Inv) : Out.Inv (execRetryReissue id s) := by
  unfold execRetryReissue
  refine State.Inv.next ?_
  split
  · exact hs
  · exact hs.frame.repost

protected theorem State.Inv.copyRing (hs : s.Inv) : (copyRing s).Inv := hs.frame

protected theorem State.Inv.execStackOrHubRecovery {stack : Option Nat} (hs : s.Inv) : Out.Inv (execStackOrHubRecovery stack s) := by
  cases stack with
  | none => exact (hs.ite hs.setRegBits).copyRing.next
  | some _ => exact (hs.ite hs.setRegBits).next

/-! ### Machine/Poll -/

protected theorem State.Inv.after {o : Out} (hs : s.Inv) (ho : Out.Inv o) : (after s o).Inv := by
  cases o with
  | next t => exact ho t rfl
  | fault _ => exact hs
  | refused _ => exact hs

protected theorem State.Inv.closeHeld (hs : s.Inv) : (closeHeld s).Inv := hs.foldl fun _ _ h => h.closeSleeping

protected theorem State.Inv.reopen (hs : s.Inv) : (reopen s r).Inv := hs.dequeue.updSlot.setF.startWindow.runRow

protected theorem State.Inv.openInto (hs : s.Inv) : (openInto s ex k r).Inv := by
  unfold openInto
  extract_lets _ s1 _ _ _
  have hs1 : s1.Inv := by
    unfold s1
    split
    · exact hs.frame.chargeCtx
    · exact hs
  exact hs1.dequeue.frame.postClock

protected theorem State.Inv.openQueue (hs : s.Inv) : (openQueue s ex p fuel).Inv := by
  induction fuel generalizing s with
  | zero => exact hs
  | succ fuel ih =>
    unfold openQueue
    split
    · exact hs
    · split
      · exact ih hs.retire
      · split
        · exact (ih hs.reopen).ite hs
        · split
          · exact hs
          · exact ih hs.openInto

protected theorem State.Inv.openAll (hs : s.Inv) : (openAll s).Inv := by
  unfold openAll
  exact hs.ite (hs.foldl (fun _ _ h => h.ite h.openQueue))

protected theorem State.Inv.clocks (hs : s.Inv) : (clocks s).Inv :=
  hs.foldl fun _ _ h => h.ite (((h.after h.execGovernorWindow).ite h).groupStart.ite ((h.after h.execGovernorWindow).ite h))

protected theorem State.Inv.installs (hs : s.Inv) : (installs s).Inv := hs.foldl fun _ _ h => (h.after h.execSlotTableInstall).ite h

protected theorem State.Inv.watchdogs (hs : s.Inv) :
    (watchdogs s).Inv := hs.foldl fun _ _ h => h.ite ((h.after h.execWatchdogWindowEnd).ite h.frame)

protected theorem State.Inv.latches (hs : s.Inv) : (latches s).Inv := hs.foldl fun _ _ h => h.ite h.grantLatch

protected theorem State.Inv.engines (hs : s.Inv) : (engines s).Inv := by
  unfold engines
  extract_lets s1 _ _
  have hs1 : s1.Inv := by
    unfold s1
    refine State.Inv.foldl hs ?_
    intro _ _ h
    split
    · split
      · exact h.mmaCycle
      · exact h
    · exact h
  exact (hs1.latches.foldl (fun _ _ h => h.sweepCycle.ite h)).foldl fun _ _ h => h.startRule.ite h

protected theorem State.Inv.joinTicks (hs : s.Inv) : (joinTicks s).Inv :=
  hs.foldl fun _ _ h => h.ite ((h.frame.after h.frame.execOrphanExpiry).after (h.frame.after h.frame.execOrphanExpiry).execEpisodeDeadline)

protected theorem State.Inv.linkTicks (hs : s.Inv) : (linkTicks s).Inv := by
  unfold linkTicks
  exact hs.ite hs.frame.linkTick

protected theorem State.Inv.lateRetries (hs : s.Inv) : (lateRetries s).Inv := by
  unfold lateRetries
  exact hs.ite (hs.frame.foldl (fun _ _ h => h.answerRetry))

protected theorem State.Inv.housekeeping (hs : s.Inv) : (housekeeping s).Inv :=
  (hs.foldl (fun _ _ h => h.after h.execPatrolScrub)).foldl fun _ _ h => h.after h.execNeighbourRefresh

protected theorem State.Inv.balanceAll (hs : s.Inv) : (balanceAll s).Inv := by
  unfold balanceAll
  exact hs.ite (hs.foldl (fun _ _ h => h.foldl (fun _ _ h' => h'.balance)))

protected theorem State.Inv.periods (hs : s.Inv) : (periods s).Inv := by
  unfold periods
  extract_lets _ s1 s2
  have hs1 : s1.Inv := (hs.after hs.execLbSample).ite hs
  have hs2 : s2.Inv := (hs1.after hs1.execBudgetTreePeriod).ite hs1
  exact (hs2.after hs2.execRefreshWindow).ite hs2

protected theorem State.Inv.switches (hs : s.Inv) : (switches s).Inv := by
  unfold switches
  extract_lets s1
  have hs1 : s1.Inv := State.Inv.foldl hs fun _ _ h => h.after h.execSwitchTCycle
  exact hs1.stepsOut.retainOut.spillOut.endSwitches

protected theorem State.Inv.pollCycle (hs : s.Inv) : (pollCycle s).Inv := by
  unfold pollCycle
  extract_lets _ _ s3
  have hs3 : s3.Inv :=
    hs.lateRetries.housekeeping.joinTicks.linkTicks.periods.installs.clocks.endWaits.watchdogs.engines.switches.closeHeld.openAll.dryDue
  exact hs3.ite hs3.pruneEnds

/-! ### Machine/Banks -/

protected theorem State.Inv.noteGrants {cs won : List Claim} (hs : s.Inv) : (noteGrants s st cs won).Inv :=
  (hs.foldl (fun _ _ h => h.frame)).foldl fun _ _ h => h.frame

protected theorem State.Inv.noteLines (hs : s.Inv) : (noteLines s st).Inv := by
  unfold noteLines
  split
  · exact hs
  · exact hs.ite hs.updRule

protected theorem State.Inv.linesTaken {read : List (Nat × Nat)} (hs : s.Inv) : (linesTaken s st read).Inv := by
  unfold linesTaken
  extract_lets _ _ s1
  have hs1 : s1.Inv := hs.updRule
  split
  · exact hs
  · split
    · exact hs1
    · exact hs1.drainRule

protected theorem State.Inv.useGrants {won : List Claim} (hs : s.Inv) : (useGrants s st won).Inv := by
  unfold useGrants
  extract_lets _ s1
  have hs1 : s1.Inv := by
    unfold s1
    refine State.Inv.foldl hs ?_
    intro _ _ h
    extract_lets
    split
    · exact h.readLine
    · exact h
  exact hs1.linesTaken

protected theorem State.Inv.useRuleGrants {won : List Nat} (hs : s.Inv) : (useRuleGrants s won).Inv := hs.foldl_fst fun _ _ h => h.ruleWork.ite h

protected theorem State.Inv.makeMove {m : Move} (hs : s.Inv) : (makeMove s m).Inv := by
  unfold makeMove
  split
  · extract_lets s1
    have hs1 : s1.Inv := hs.updCopy.pieceWrite
    exact hs1.elim fun _ => hs1.turnTaken
  · extract_lets _ _ _ s1
    have hs1 : s1.Inv := hs.frame.updCopy.pieceRead
    exact hs1.elim fun _ => hs1.turnTaken

protected theorem State.Inv.shareBanks {rows : List (Nat × Claim)} (hs : s.Inv) : (shareBanks s rows).1.Inv :=
  ((hs.foldl (fun _ _ h => h.noteLines)).foldl_fst (fun _ _ h => h.noteGrants.useGrants)).useRuleGrants.foldl fun _ _ h => h.makeMove

/-! ### Machine/Control -/

protected theorem State.Inv.execJSl {lit : Word} (hs : s.Inv) : Out.Inv (execJSl lit s) := by
  unfold execJSl
  exact (hs.faultInstr.ite hs.jumpTo).next

protected theorem State.Inv.execJalSl {lit : Word} (hs : s.Inv) : Out.Inv (execJalSl lit s) := by
  unfold execJalSl
  exact (hs.faultInstr.ite hs.setS.jumpTo).next

protected theorem State.Inv.execJr {o : ImmI} (hs : s.Inv) : Out.Inv (execJr o s) := by
  unfold execJr
  exact (hs.faultNow.ite (hs.faultNow.ite hs.setS.jumpTo)).next

protected theorem State.Inv.armLoop (hs : s.Inv) : Out.Inv (armLoop s l len off c) := by
  unfold armLoop
  exact (hs.finishAt.ite (hs.setF.setF.setF.setF.finishAt.ite hs.setF.setF.setF.setF.finishAt)).next

/-! ### Machine/Float -/

protected theorem State.Inv.execFmin {o : FpC} (hs : s.Inv) : Out.Inv (execFmin o s) := hs.fpC

protected theorem State.Inv.execFmax {o : FpC} (hs : s.Inv) : Out.Inv (execFmax o s) := hs.fpC

/-! ### Machine/Vector -/

protected theorem State.Inv.putK {d : KReg} (hs : s.Inv) : Out.Inv (putK s d v) := hs.setK.commit

/-! ### Machine/Dispatch -/

/-- Every instruction and every event of the machine. -/
protected theorem State.Inv.exec {i : Instr} (hs : s.Inv) : Out.Inv (exec i s) := by
  cases i with
  | illegalInstruction => exact hs.faultInstr.next
  | sweepStep => exact hs.sweepEnd.next
  | slotTableInstall => exact hs.execSlotTableInstall
  | mmaStep => exact hs.mmaStepEnd.next
  | accumulatorRestore => exact hs.restoreUnit.next
  | bsumArrival => exact hs.sumArrives.next
  | gtblOperation => exact hs.execGtblOperation
  | genStep => exact hs.genStepEnd.next
  | haloStrip => exact hs.execHaloStrip
  | jopenMessage => exact (hs.accept (fun _ _ h => (h.forTable (fun _ h' => h'.openAt)).joinReply)).next
  | reward => exact hs.execReward
  | jcloseMessage => exact (hs.accept (fun _ _ h => (h.forTable (fun _ h' => h'.closeAt)).joinReply)).next
  | jverMessage => exact hs.execJverMessage
  | jstatRequest => exact hs.execJstatRequest
  | orphanExpiry => exact hs.execOrphanExpiry
  | episodeDeadline => exact hs.execEpisodeDeadline
  | releasePush => exact hs.execReleasePush
  | releasePushRetry => exact (hs.foldl (fun _ _ h => h.offerRelease.ite h)).next
  | start => exact hs.execStart
  | stop => exact (hs.commandAt (fun _ h => h.cmdStop)).next
  | redirect => exact (hs.commandAt (fun _ h => h.cmdRedirect)).next
  | resume => exact (hs.commandAt (fun _ h => h.cmdResume)).next
  | kill => exact (hs.commandAt (fun _ h => h.cmdKill)).next
  | step => exact (hs.commandAt (fun _ h => h.cmdStep)).next
  | wakeCommand => exact (hs.commandAt (fun _ h => h.cmdWake)).next
  | priority => exact (hs.commandAt (fun _ h => h.cmdPriority)).next
  | badcode => exact (hs.commandAt (fun _ h => h.cmdUnknown)).next
  | commandLands => exact hs.execCommandLands
  | directAccess => exact hs.arrive.next
  | rowOpen => exact hs.execRowOpen
  | holdExpiry => exact hs.execHoldExpiry
  | priorityAging => exact hs.execPriorityAging
  | governorWindow => exact hs.execGovernorWindow
  | memoryReply => exact hs.replyArrives.next
  | longInstructionComplete => exact hs.execLongInstructionComplete
  | walkComplete => exact hs.execWalkComplete
  | migrationLineCopy => exact hs.migrateLine.next
  | wetStoreFirstTrip => exact hs.firstTrip.next
  | wetTripReply => exact hs.tripReply.next
  | entryDries => exact hs.execEntryDries
  | driedStoreApply => exact hs.applyDry.next
  | dryAcknowledgement => exact hs.dryAcked.next
  | lbSample => exact hs.execLbSample
  | lbDelivery => exact (hs.frame.foldl (fun _ _ h => h.postIn)).next
  | rowJoin => exact hs.execRowJoin
  | joinAnswer => exact hs.execJoinAnswer
  | watchAnswer => exact hs.execWatchAnswer
  | watchPoll => exact hs.pollWatch.next
  | rectangleWrite => exact hs.writeRect.next
  | noteLanding => exact hs.noteArrives.next
  | systemNoteRetry => exact hs.execSystemNoteRetry
  | acknowledgement => exact hs.execAcknowledgement
  | channelWordSend => exact hs.execChannelWordSend
  | channelWordArrival => exact hs.execChannelWordArrival
  | remoteRackOperation => exact hs.execRemoteRackOperation
  | blockMoveLands | shipmentLands => exact hs.landMove.next
  | lateralBalancing => exact (hs.foldl (fun _ _ h => h.balance)).next
  | continuationRetry => exact hs.execContinuationRetry
  | potOperation => exact hs.execPotOperation
  | copyPieceRead => exact hs.execCopyPieceRead
  | copyPieceWrite => exact hs.updCopy.pieceWrite.next
  | copyFinish => exact hs.copyReport.next
  | watchdogWindowEnd => exact hs.execWatchdogWindowEnd
  | instructionLimit => exact hs.execInstructionLimit
  | switchTCycle => exact hs.execSwitchTCycle
  | switchDecision => exact hs.execSwitchDecision
  | contextEndOrder => exact hs.execContextEndOrder
  | suspend => exact hs.execSuspend
  | resumeModule => exact hs.execResumeModule
  | prepare => exact hs.execPrepare
  | commit => exact hs.execCommit
  | conservatorRecovery => exact hs.execConservatorRecovery
  | budgetTreePeriod => exact hs.execBudgetTreePeriod
  | alarm => exact hs.execAlarm
  | gatingEnd => exact hs.execGatingEnd
  | clockHop => exact hs.execClockHop
  | clockHopEnd => exact hs.execClockHopEnd
  | gtimeCorrection => exact hs.next
  | hostRmaWrite | hostRmaRead => exact (hs.hostGate (fun _ h => h.hostSend)).next
  | hostRmaAtomic => exact hs.execHostRmaAtomic
  | hostTaggedSend => exact hs.execHostTaggedSend
  | peerReward => exact hs.execPeerReward
  | peerSum => exact hs.execPeerSum
  | unsupportedOperation => exact hs.execUnsupportedOperation
  | linkFailure => exact hs.execLinkFailure
  | mailboxRequest => exact hs.execMailboxRequest
  | firmwareVerification => exact hs.frame.logBox.next
  | attestationRequest => exact hs.execAttestationRequest
  | lifeCycleTransition => exact hs.execLifeCycleTransition
  | reset => exact State.Inv.restart.next
  | patrolScrub => exact hs.execPatrolScrub
  | refreshWindow => exact hs.execRefreshWindow
  | neighbourRefresh => exact hs.execNeighbourRefresh
  | sequencerReset => exact hs.execSequencerReset
  | sequencerHoldTimeout => exact hs.execSequencerHoldTimeout
  | retryReissue => exact hs.execRetryReissue
  | powerLossWarning => exact hs.copyRing.next
  | registerWrite => exact hs.writeReg.next
  | fetchFault cause => exact hs.execFetchFault (_cause := cause)
  | issueCycle => exact hs.execIssueCycle
  | alarmCleared => exact hs.frame.setRegBits.postAt.next
  | stackOrHubRecovery => exact hs.execStackOrHubRecovery
  | add | sub | mul | addSat | subSat | mulSat | mulh | mulhn | and | andn | or | xor | shl | shr | sra | rotl | rotr | min | max | minn
  | maxn | ceq | cne | clt | cle | cltn | clen => exact hs.aluR
  | addSl | subSl | mulSl | addSatSl | subSatSl | mulSatSl | mulhSl | mulhnSl | andSl | andnSl | orSl | xorSl | shlSl | shrSl | sraSl
  | rotlSl | rotrSl | minSl | maxSl | minnSl | maxnSl | ceqSl | cneSl | cltSl | cleSl | cltnSl | clenSl => exact hs.aluL
  | div | divn | rem | remn => exact hs.aluLong
  | divSl | divnSl | remSl | remnSl => exact hs.aluLongL
  | clz | ctz | popc | brev => exact hs.aluU
  | li | liSl | la | laSl | ext | extn | ins | fshl | fshr | fshlReg | fshrReg | lut3 | sel | vxt | kpop | kfind | self | slotr | prioRead
  | gtime => exact hs.putReg
  | addi | andi | ori | xori => exact hs.immI
  | addiSl | andiSl | oriSl | xoriSl => exact hs.immL
  | shlImm | shrImm | sraImm | rotlImm | rotrImm => exact hs.shiftI
  | beq | bne | blt | bge | bltn | bgen | bz | bnz => exact hs.branchIf
  | j => exact hs.jumpTo.next
  | jSl => exact hs.execJSl
  | jal => exact hs.setS.jumpTo.next
  | jalSl => exact hs.execJalSl
  | jr => exact hs.execJr
  | loop | loopx => exact hs.armLoop
  | nop => exact hs.finish.next
  | fadd | fsub | fmul => exact hs.fpR
  | fdiv | fsqrt => exact hs.putFLong
  | fmin o => exact hs.execFmin (o := o)
  | fmax o => exact hs.execFmax (o := o)
  | fsgn | fclass | fma | fms => exact hs.putF
  | fceq | fclt | fcle => exact hs.fpC
  | fcvt => exact (hs.setF.ite hs).orFlags.putReg
  | vadd | vsub | vmul | vmulh | vmin | vmax | vand | vor | vxor | vshl | vshr | vsra => exact hs.vbinX
  | vaddXl | vsubXl | vmulXl | vmulhXl | vminXl | vmaxXl | vandXl | vorXl | vxorXl | vshlXl | vshrXl | vsraXl => exact hs.vbinL
  | vfma | vlut3 | vsel | vbc | vperm | vscan | vdot => exact hs.putV
  | vcmp => exact hs.setK.orFlags.commit
  | vin => exact hs.setV.commit
  | vred => exact hs.orFlags.putReg
  | vcvt => exact (hs.setF.ite hs).setV.orFlags.commit
  | kand | kor | kxor | knot | kmov => exact hs.putK
  | ld | ldX => exact hs.scalarLoad.next
  | st | stX => exact hs.scalarStore.next
  | vld => exact hs.execVld
  | vst | vsts | vsct => exact hs.laneStore.next
  | vlds => exact hs.execVlds
  | vgat => exact hs.laneLoad.next
  | pref => exact hs.execPref
  | fmtq => exact hs.execFmtq
  | tlbinv => exact hs.execTlbinv
  | migrate => exact hs.execMigrate
  | migrateRelease => exact hs.execMigrateRelease
  | phase => exact hs.execPhase
  | tick => exact hs.execTick
  | waitlb => exact hs.execWaitlb
  | fence => exact hs.execFence
  | fencex => exact hs.execFencex
  | stDry => exact hs.execStDry
  | watch => exact hs.execWatch
  | aadd | amin | amax | aand | aor | axor | axchg => exact hs.atomX
  | aaddXl | aminXl | amaxXl | aandXl | aorXl | axorXl | axchgXl => exact hs.atomL
  | acas | acasXl => exact hs.atomAccess.next
  | ctl | wake => exact hs.sendCommand.next
  | arm => exact hs.execArm
  | disarm => exact hs.execDisarm
  | peek => exact hs.execPeek
  | spawn => exact hs.execSpawn
  | quit => exact hs.retire.next
  | park => exact hs.resolvePc.closeRow.setCode.releaseStep.settleClosed.next
  | yield => exact hs.execYield
  | sweep => exact hs.execSweep
  | slotw => exact hs.execSlotw
  | budget => exact hs.execBudget
  | prio => exact hs.execPrio
  | trap => exact hs.faultNow.next
  | beat => exact hs.beat.commit
  | switch => exact hs.execSwitch
  | note | noteXl => exact hs.sendNote.next
  | recv d => exact hs.execRecv (d := d)
  | recvq d => exact hs.execRecvq (d := d)
  | kpush | kpushXl => exact hs.pushSketch.next
  | take => exact hs.execTake
  | jdec => exact hs.execJdec
  | done => exact hs.execDone
  | balset => exact hs.execBalset
  | cpy => exact hs.execCpy
  | cpyw => exact hs.execCpyw
  | cpyq => exact hs.execCpyq
  | potset | potsetClear | potput | potget | potrel => exact hs.potIssue.next
  | mown => exact hs.execMown
  | mrel => exact hs.execMrel
  | mcfg => exact (hs.withUnit (fun _ h => h.faultInstr.ite h.updUnit.setS.finish)).next
  | mcfgRead => exact (hs.withUnit (fun _ h => h.setS.finish)).next
  | mzero => exact hs.execMzero
  | mma => exact hs.execMma
  | mst | mld => exact (hs.withUnit (fun _ h => h.bandIssue)).next
  | bsum => exact hs.sendSum.next
  | bsumAcc => exact (hs.withUnit (fun _ h => h.faultInstr.ite h.sendSum)).next
  | bredRead d a => exact hs.execBredRead (d := d) (a := a)
  | bredClear d a => exact hs.execBredClear (d := d) (a := a)
  | bredClaim d a => exact hs.execBredClaim (d := d) (a := a)
  | bredRelease d a => exact hs.execBredRelease (d := d) (a := a)
  | gtbl => exact hs.execGtbl
  | gen => exact hs.execGen
  | ghalo => exact hs.execGhalo
  | jopen | jopenXl => exact hs.joinOpen.next
  | jrwd | jrwdXl => exact hs.joinReward.next
  | jclose | jcloseXl => exact hs.joinClose.next
  | jcfgSet | jcfgClear | jcfgPurge => exact hs.joinConfig.next
  | jver => exact hs.execJver
  | jstat => exact hs.execJstat

/-! ### Machine/Issue -/

protected theorem State.Inv.arbitrate {cs : List Choice} (hs : s.Inv) : (arbitrate s cs).1.Inv := hs.shareBanks

protected theorem State.Inv.acting {i : Instr} (hs : s.Inv) : (acting s r i).Inv := hs.frame

protected theorem State.Inv.judge {lent : Bool} (hs : s.Inv) : (judge s ex p k r lent).1.Inv := by
  unfold judge
  extract_lets _ _ block
  have hblock : ∀ x, (block x).1.Inv := fun _ => hs.updGov
  split
  · exact hs
  · split
    · split
      · exact hblock _
      · exact hs
    · split
      · exact hblock _
      · exact hs
    · exact hs

protected theorem State.Inv.choose (hs : s.Inv) : (choose s ex).1.Inv := by
  unfold choose
  extract_lets
  split
  · exact hs
  · split
    · exact hs
    · split
      · exact hs
      · split
        · exact hs.judge
        · split
          · exact hs
          · exact hs.updGov.judge

protected theorem State.Inv.decideAll (hs : s.Inv) : (decideAll s).1.Inv := by
  unfold decideAll
  extract_lets x
  have hx : x.1.Inv := State.Inv.foldl_fst hs fun _ _ h => h.choose
  exact hx.arbitrate

protected theorem State.Inv.chargeIssue {t : Todo} (hs : s.Inv) : (chargeIssue s t w).Inv := hs.addCharge.chargeRow.frame

protected theorem State.Inv.countIssue {t : Todo} (hs : s.Inv) : (countIssue s t p).Inv := hs.updGov

protected theorem Out.Inv.afterIssue {t : Todo} {o : Out} (ho : Out.Inv o) : Out.Inv (afterIssue s t w o) := by
  cases o with
  | next u => exact (ho u rfl).countIssue.frame.budgetStop.next
  | fault _ => exact ho
  | refused _ => exact ho

protected theorem Out.Inv.bindEnd {i : Instr} {o : Out} (ho : Out.Inv o) : Out.Inv (bindEnd r i o) := by
  cases o with
  | next u => exact ((ho u rfl).updEnd.frame.ite (ho u rfl)).next
  | fault _ => exact ho
  | refused _ => exact ho

protected theorem State.Inv.runInstr {t : Todo} {i : Instr} (hs : s.Inv) : Out.Inv (runInstr s t i) := by
  unfold runInstr
  extract_lets s'
  have hs' : s'.Inv := hs.chargeIssue.acting
  refine Out.Inv.afterIssue ?_
  split
  · exact hs'.exec.bindEnd
  · exact hs'.faultNow.next
  · exact hs'.waitOn.next

protected theorem State.Inv.issueOne {t : Todo} (hs : s.Inv) : Out.Inv (issueOne s t) := by
  unfold issueOne
  extract_lets _ _ x y
  have hx : x.1.Inv := hs.frame.checkBeforeFetch
  have hy : y.1.Inv := hx.readCode
  split
  · exact hs.frame.exec
  · split
    · exact hs.frame.next
    · split
      · exact hx.next
      · split
        · exact hx.exec
        · split
          · exact hy.runInstr.ite hy.next
          · exact hy.chargeIssue.exec.afterIssue.ite hy.next
          all_goals exact hx.exec

/-! ### Machine/Cycle -/

protected theorem State.Inv.actEvent {t : Timed} {rest : List Timed} (hs : s.Inv) : Out.Inv (actEvent s t rest) := hs.frame.exec

protected theorem State.Inv.putOff {t : Timed} {rest : List Timed} (hs : s.Inv) : (putOff s t rest).Inv := hs.frame

protected theorem State.Inv.nextCycle (hs : s.Inv) : (nextCycle s).Inv := hs.frame.balanceAll

protected theorem State.Inv.beginCycle (hs : s.Inv) : (beginCycle s).Inv := hs.pollCycle.decideAll.frame

protected theorem State.Inv.stepOn (hs : s.Inv) : Out.Inv (stepOn s) := by
  unfold stepOn
  split
  · exact hs.frame.issueOne
  · exact hs.nextCycle.next
  · split
    · exact hs.beginCycle.next
    · exact (hs.putOff.next.ite hs.actEvent).ite hs.beginCycle.next

protected theorem State.Inv.stepStill (hs : s.Inv) : Out.Inv (stepStill s) := by
  unfold stepStill
  split
  · exact hs.frame.next
  · exact hs.frame.actEvent

protected theorem State.Inv.stepOff (hs : s.Inv) : Out.Inv (stepOff s) := by
  unfold stepOff
  split
  · exact Out.Inv.fault
  · exact hs.actEvent

/-! ### Machine/Step -/

protected theorem State.Inv.step (hs : s.Inv) : Out.Inv (step s) := by
  unfold step
  exact hs.stepOff.ite (hs.stepStill.ite hs.stepOn)

end

/-- Settles O56: `State.Inv.step`, put together from one lemma for every operation that a step calls. -/
theorem stepsKeepMemoryCanonical : Obligations.StepsKeepMemoryCanonical := fun _ t hs ht => hs.step t ht

/-- Settles O55: memory after reset lists no byte. -/
theorem resetMeetsTheInvariant : Obligations.ResetMeetsTheInvariant := State.Inv.reset

end Sys2Proof.Machine

namespace Sys2Proof.Machine

/-! ## The answer to a BSUM (R297): a row that is no thread takes none, whatever its bytes say -/

/-- Only a thread row has a STATE.CODE (R83). -/
theorem codeOf_dataRow {s : State} {r : Nat} (h : isThread s r = false) : codeOf s r = 0 := by simp [codeOf, h]

/-- An answer for a row that is no thread changes nothing. -/
theorem answerRow_dataRow {s : State} {r : Nat} (ws : List RowWrite) (d : Nat) (h : isThread s r = false) :
    answerRow s r ws d = s := by simp [answerRow, codeOf_dataRow h]

theorem exec_bsumArrival (id : Nat) (s : State) : exec (.bsumArrival id) s = .next (sumArrives s id) := (rfl)

/-- At a cell that nobody has claimed, a pair whose sender is no thread is dropped, and that is all (R297). -/
theorem bsumArrival_unclaimed_dataRow {s : State} {id key p n k way : Nat} {sum e : Int}
    (hm : tabGet s.eng.bsums id = some [(key : Int), sum, e, (p : Int), (n : Int), (k : Int), (way : Int), 0])
    (hc : tabGet s.eng.cells key = none) (hn : isThread s n = false) :
    exec (.bsumArrival id) s = .next { s with eng := { s.eng with bsums := tabDel s.eng.bsums id } } := by
  have hn' : isThread { s with eng := { s.eng with bsums := tabDel s.eng.bsums id } } n = false := hn
  simp [exec_bsumArrival, sumArrives, hm, hc, answerRow_dataRow _ _ hn']

/-- Refutes O41: `Claim.ReductionSums` promises the answer to every row `n` whose STATE.CODE reads 4, and does not ask that `n` be a thread
row. The pair below is recorded for row 1, to be answered in s3; row 1 is a data row whose byte at STATE.CODE happens to be 4. Its pair
arrives at the unclaimed cell 543 and no completion is recorded. -/
theorem not_reductionCells : ¬ Obligations.ReductionCells := by
  unfold Obligations.ReductionCells
  rintro ⟨hsums, -⟩
  let s : State := { setF State.reset 1 fCode 4 with
    eng := { Engines.reset with bsums := [(7, [543, 1, 0, 0, 1, 3, 24, 0])] } }
  have hcode : getF s 1 fCode = 4 := getF_setF State.reset 1 fCode 4 (by decide)
  have hdata : isThread s 1 = false := rfl
  have hcell : tabGet s.eng.cells 543 = none := rfl
  have hpair : tabGet s.eng.bsums 7 = some [((543 : Nat) : Int), 1, 0, ((0 : Nat) : Int), ((1 : Nat) : Int), ((3 : Nat) : Int),
    ((24 : Nat) : Int), 0] := rfl
  obtain ⟨-, -, -, harrival⟩ := hsums s 0 0 0 0 543
  obtain ⟨-, hforeign⟩ := harrival 7 0 1 3 24 1 0 hpair
  obtain ⟨t, ht, -, -, -, hanswer⟩ := hforeign (by simp [hcell]) (Or.inr (by decide))
  obtain ⟨hrecorded, -⟩ := hanswer (by decide) hcode (by decide)
  rw [bsumArrival_unclaimed_dataRow hpair hcell hdata] at ht
  cases ht
  have hnone : tabGet s.rows.longs 1 = none := rfl
  exact absurd (hnone.symm.trans hrecorded) (by simp)

end Sys2Proof.Machine

namespace Sys2Proof.Machine

/-! ## Integer instructions (R124 to R139)

One lemma says how the two forms of an ALU operation complete; what is left for each operation is what `put` sees of its value. -/

/-- Register and literal form of the ALU operation `f` write its value and commit (R57, R124). -/
theorem gives_alu (s : State) (t : IType) (d a b : Reg) (l : Word) (i : AluR → Instr) (j : AluL → Instr)
    (f : Nat → Bool → Nat → Nat → Nat) (hi : ∀ o, exec (i o) s = aluR f o s) (hj : ∀ o, exec (j o) s = aluL f o s) :
    Gives (i ⟨t, d, a, b⟩) s d (putT t (f (itypeWidth t) (itypeSigned t) (src s a) (src s b))) 4 ∧
    Gives (j ⟨t, d, a, l⟩) s d (putT t (f (itypeWidth t) (itypeSigned t) (src s a) l.toNat)) 12 :=
  ⟨gives_putReg _ _ _ _ _ (hi _), gives_putReg _ _ _ _ _ (hj _)⟩

/-! ### Sums, products and logic -/

/-- R125: the operations of the model are the exact results' low bits as they stand. -/
theorem integerArithmetic : Claim.IntegerArithmetic := by
  intro s t d a b l
  have add := gives_alu s t d a b l .add .addSl opAdd (fun _ => rfl) (fun _ => rfl)
  have sub := gives_alu s t d a b l .sub .subSl opSub (fun _ => rfl) (fun _ => rfl)
  have mul := gives_alu s t d a b l .mul .mulSl opMul (fun _ => rfl) (fun _ => rfl)
  have addSat := gives_alu s t d a b l .addSat .addSatSl opAddSat (fun _ => rfl) (fun _ => rfl)
  have subSat := gives_alu s t d a b l .subSat .subSatSl opSubSat (fun _ => rfl) (fun _ => rfl)
  have mulSat := gives_alu s t d a b l .mulSat .mulSatSl opMulSat (fun _ => rfl) (fun _ => rfl)
  exact ⟨add.1, add.2, sub.1, sub.2, mul.1, mul.2, addSat.1, addSat.2, subSat.1, subSat.2, mulSat.1, mulSat.2⟩

theorem putT_opAnd (t : IType) (z : Bool) (x y : Nat) : putT t (opAnd (itypeWidth t) z x y) = putT t (x &&& y) := putT_mod _ _

theorem putT_opAndn (t : IType) (z : Bool) (x y : Nat) :
    putT t (opAndn (itypeWidth t) z x y) = putT t (x &&& (2 ^ itypeWidth t - 1 - y % 2 ^ itypeWidth t)) := putT_mod _ _

theorem putT_opOr (t : IType) (z : Bool) (x y : Nat) : putT t (opOr (itypeWidth t) z x y) = putT t (x ||| y) := putT_mod _ _

theorem putT_opXor (t : IType) (z : Bool) (x y : Nat) : putT t (opXor (itypeWidth t) z x y) = putT t (x ^^^ y) := putT_mod _ _

theorem highProductsAndLogic : Claim.HighProductsAndLogic := by
  intro s t d a b l
  have mulh := gives_alu s t d a b l .mulh .mulhSl opMulh (fun _ => rfl) (fun _ => rfl)
  have mulhn := gives_alu s t d a b l .mulhn .mulhnSl opMulhn (fun _ => rfl) (fun _ => rfl)
  have and := gives_alu s t d a b l .and .andSl opAnd (fun _ => rfl) (fun _ => rfl)
  have andn := gives_alu s t d a b l .andn .andnSl opAndn (fun _ => rfl) (fun _ => rfl)
  have or := gives_alu s t d a b l .or .orSl opOr (fun _ => rfl) (fun _ => rfl)
  have xor := gives_alu s t d a b l .xor .xorSl opXor (fun _ => rfl) (fun _ => rfl)
  simp only [putT_opAnd, putT_opAndn, putT_opOr, putT_opXor] at and andn or xor
  exact ⟨mulh.1, mulh.2, mulhn.1, mulhn.2, and.1, and.2, andn.1, andn.2, or.1, or.2, xor.1, xor.2⟩

/-- Settles O1: each operation by `gives_alu`; for the logic forms `put` drops what lies above the width (`putT_mod`). -/
theorem integerArithmeticGivesItsResults : Obligations.IntegerArithmeticGivesItsResults :=
  ⟨integerArithmetic, highProductsAndLogic⟩

/-! ### Shifts and rotations -/

/-- The immediate forms act on 64 bits (R131). -/
theorem gives_shiftI (s : State) (d a : Reg) (k : BitVec 6) (i : ShiftI → Instr) (f : Nat → Nat → Nat → Nat)
    (hi : ∀ o, exec (i o) s = shiftI f o s) : Gives (i ⟨d, a, k⟩) s d (BitVec.ofNat 64 (f 64 (src s a) k.toNat)) 4 :=
  gives_putReg _ _ _ _ _ (hi _)

theorem src_lt (s : State) (a : Reg) : src s a < 2 ^ 64 := BitVec.isLt _

theorem putT_opShl (t : IType) (z : Bool) (x y : Nat) : putT t (opShl (itypeWidth t) z x y) = putT t (x * 2 ^ (y % 64)) := by
  rw [← Nat.shiftLeft_eq]; exact putT_mod _ _

theorem opShr_eq (n : Nat) (z : Bool) (x y : Nat) : opShr n z x y = x % 2 ^ n / 2 ^ (y % 64) := Nat.shiftRight_eq_div_pow _ _

theorem intRotl_eq (n x k : Nat) (hn : 0 < n) :
    intRotl n x k = ((x % 2 ^ n) <<< (k % n) ||| (x % 2 ^ n) >>> (n - k % n)) % 2 ^ n := by unfold intRotl; rw [rotl_or n x k hn]

theorem intRotr_eq (n x k : Nat) (hn : 0 < n) :
    intRotr n x k = ((x % 2 ^ n) >>> (k % n) ||| (x % 2 ^ n) <<< (n - k % n)) % 2 ^ n := by unfold intRotr; rw [rotr_or n x k hn]

theorem opRotl_eq (t : IType) (z : Bool) (x y : Nat) : opRotl (itypeWidth t) z x y = ((x % 2 ^ itypeWidth t) <<< (y % 64 % itypeWidth t) |||
    (x % 2 ^ itypeWidth t) >>> (itypeWidth t - y % 64 % itypeWidth t)) % 2 ^ itypeWidth t := intRotl_eq _ _ _ (itypeWidth_pos t)

theorem opRotr_eq (t : IType) (z : Bool) (x y : Nat) : opRotr (itypeWidth t) z x y = ((x % 2 ^ itypeWidth t) >>> (y % 64 % itypeWidth t) |||
    (x % 2 ^ itypeWidth t) <<< (itypeWidth t - y % 64 % itypeWidth t)) % 2 ^ itypeWidth t := intRotr_eq _ _ _ (itypeWidth_pos t)

theorem ofNat_intShl (x k : Nat) : BitVec.ofNat 64 (intShl 64 x k) = BitVec.ofNat 64 (x * 2 ^ k) := by
  apply BitVec.eq_of_toNat_eq
  simp [intShl, Nat.shiftLeft_eq]

theorem intShr_eq (x k : Nat) (hx : x < 2 ^ 64) : intShr 64 x k = x / 2 ^ k := by
  unfold intShr; rw [Nat.mod_eq_of_lt hx, Nat.shiftRight_eq_div_pow]

/-- Reading the low bits of a word as two's complement is the word's own signed reading. -/
theorem signedOf_toNat {n : Nat} (v : BitVec n) (hn : 0 < n) : signedOf n v.toNat = v.toInt := by
  have h2 : 2 ^ n = 2 * 2 ^ (n - 1) := by rw [← Nat.pow_succ']; congr 1; omega
  unfold signedOf
  rw [Nat.mod_eq_of_lt v.isLt, BitVec.toInt_eq_toNat_cond]
  by_cases h : v.toNat < 2 ^ (n - 1)
  · rw [if_pos h, if_pos (by omega)]
  · rw [if_neg h, if_neg (by omega)]

theorem lowBits_lt (n : Nat) (i : Int) : lowBits n i < 2 ^ n := by
  have := Int.emod_lt_of_pos i (b := (2 ^ n : Nat)) (by exact_mod_cast Nat.two_pow_pos n)
  unfold lowBits; omega

theorem ofNat_lowBits (n : Nat) (i : Int) : BitVec.ofNat n (lowBits n i) = BitVec.ofInt n i := by
  apply BitVec.eq_of_toNat_eq
  rw [BitVec.toNat_ofNat, Nat.mod_eq_of_lt (lowBits_lt n i), BitVec.toNat_ofInt]; rfl

theorem ofNat_intSra (x k : Nat) :
    BitVec.ofNat 64 (intSra 64 x k) = BitVec.ofInt 64 ((BitVec.ofNat 64 x).toInt / (2 ^ k : Nat)) := by
  unfold intSra
  rw [ofNat_lowBits, ← signedOf_toNat _ (by decide), BitVec.toNat_ofNat, signedOf_mod]

theorem shifts : Claim.Shifts := by
  intro s t d a b l k
  have shl := gives_alu s t d a b l .shl .shlSl opShl (fun _ => rfl) (fun _ => rfl)
  have shr := gives_alu s t d a b l .shr .shrSl opShr (fun _ => rfl) (fun _ => rfl)
  have sra := gives_alu s t d a b l .sra .sraSl opSra (fun _ => rfl) (fun _ => rfl)
  have rotl := gives_alu s t d a b l .rotl .rotlSl opRotl (fun _ => rfl) (fun _ => rfl)
  have rotr := gives_alu s t d a b l .rotr .rotrSl opRotr (fun _ => rfl) (fun _ => rfl)
  have shlImm := gives_shiftI s d a k .shlImm intShl (fun _ => rfl)
  have shrImm := gives_shiftI s d a k .shrImm intShr (fun _ => rfl)
  have sraImm := gives_shiftI s d a k .sraImm intSra (fun _ => rfl)
  have rotlImm := gives_shiftI s d a k .rotlImm intRotl (fun _ => rfl)
  have rotrImm := gives_shiftI s d a k .rotrImm intRotr (fun _ => rfl)
  simp only [putT_opShl, opShr_eq, opRotl_eq, opRotr_eq] at shl shr rotl rotr
  rw [ofNat_intShl] at shlImm
  rw [intShr_eq _ _ (src_lt s a)] at shrImm
  rw [ofNat_intSra] at sraImm
  rw [intRotl_eq _ _ _ (by decide)] at rotlImm
  rw [intRotr_eq _ _ _ (by decide)] at rotrImm
  exact ⟨shl.1, shl.2, shr.1, shr.2, sra.1, sra.2, rotl.1, rotl.2, rotr.1, rotr.2, shlImm, shrImm, sraImm, rotlImm, rotrImm⟩

/-! ### Bit counts, bit fields, funnel shifts, LUT3 and SEL -/

theorem gives_aluU (s : State) (t : IType) (d a : Reg) (i : AluU → Instr) (f : Nat → Nat → Nat)
    (hi : ∀ o, exec (i o) s = aluU f o s) : Gives (i ⟨t, d, a⟩) s d (putT t (f (itypeWidth t) (src s a))) 4 :=
  gives_putReg _ _ _ _ _ (hi _)

theorem funnelLeft_eq (x y : Word) (k : Nat) :
    funnelLeft x y k = BitVec.ofNat 64 ((x.toNat * 2 ^ 64 + y.toNat) / 2 ^ (64 - k)) := by
  unfold funnelLeft; rw [Nat.shiftRight_eq_div_pow]

theorem funnelRight_eq (x y : Word) (k : Nat) : funnelRight x y k = BitVec.ofNat 64 ((x.toNat * 2 ^ 64 + y.toNat) / 2 ^ k) := by
  unfold funnelRight; rw [Nat.shiftRight_eq_div_pow]

/-- Bit `i` of a LUT3 result is the table's bit at the three operands' bits `i` (R129). -/
theorem getLsbD_lutBits (tab x y z i : Nat) (hi : i < 64) : (BitVec.ofNat 64 (lutBits tab x y z 64)).getLsbD i =
    bitAt tab (4 * flag01 (bitAt x i) + 2 * flag01 (bitAt y i) + flag01 (bitAt z i)) := by
  rw [BitVec.getLsbD_ofNat, testBit_lutBits]
  simp [hi, lutBit]

theorem ofNat_src (s : State) (a : Reg) : BitVec.ofNat 64 (src s a) = getS s s.clk.cur a.toNat := by simp [src]

theorem src_ne_zero (s : State) (a : Reg) : src s a ≠ 0 ↔ getS s s.clk.cur a.toNat ≠ 0 := by
  unfold src; simp [← BitVec.toNat_inj]

theorem bitOperations : Claim.BitOperations := by
  intro s t d a b c k f tab
  refine ⟨gives_aluU s t d a .clz intClz fun _ => rfl, gives_aluU s t d a .ctz intCtz fun _ => rfl,
    gives_aluU s t d a .popc intPopc fun _ => rfl, gives_aluU s t d a .brev intBrev fun _ => rfl,
    gives_putReg _ _ _ _ _ rfl, gives_putReg _ _ _ _ _ rfl, gives_putReg _ _ _ _ _ rfl, ?fshl, ?fshr, ?fshlReg, ?fshrReg, ?lut3, ?sel⟩
  case fshl => exact gives_eq (gives_putReg _ _ _ _ _ rfl) (funnelLeft_eq _ _ _)
  case fshr => exact gives_eq (gives_putReg _ _ _ _ _ rfl) (funnelRight_eq _ _ _)
  case fshlReg => exact gives_eq (gives_putReg _ _ _ _ _ rfl) (funnelLeft_eq _ _ _)
  case fshrReg => exact gives_eq (gives_putReg _ _ _ _ _ rfl) (funnelRight_eq _ _ _)
  case lut3 => exact ⟨_, gives_putReg _ _ _ _ _ rfl, fun i hi => getLsbD_lutBits _ _ _ _ i hi⟩
  case sel => simp only [src_ne_zero, ofNat_src]; exact gives_putReg _ _ _ _ _ rfl

/-- Settles O2: each operation by the lemma of its operand form and the value that `put` sees; rotations are unions (`rotl_or`, `rotr_or`). -/
theorem shiftsAndBitOperationsGiveTheirResults : Obligations.ShiftsAndBitOperationsGiveTheirResults := ⟨shifts, bitOperations⟩

/-! ### MIN, MAX, comparisons, constants -/

/-- `put` of the operand that a MIN or MAX picks (R135). -/
theorem putT_pick (t : IType) (c : Prop) [Decidable c] (x y : Nat) :
    putT t (if c then y % 2 ^ itypeWidth t else x % 2 ^ itypeWidth t) = putT t (if decide c then y else x) := by
  by_cases h : c <;> simp [h, putT_mod]

theorem minMaxAndCompares : Claim.MinMaxAndCompares := by
  intro s t d a b l
  have min := gives_alu s t d a b l .min .minSl opMin (fun _ => rfl) (fun _ => rfl)
  have max := gives_alu s t d a b l .max .maxSl opMax (fun _ => rfl) (fun _ => rfl)
  have minn := gives_alu s t d a b l .minn .minnSl opMinn (fun _ => rfl) (fun _ => rfl)
  have maxn := gives_alu s t d a b l .maxn .maxnSl opMaxn (fun _ => rfl) (fun _ => rfl)
  have ceq := gives_alu s t d a b l .ceq .ceqSl opCeq (fun _ => rfl) (fun _ => rfl)
  have cne := gives_alu s t d a b l .cne .cneSl opCne (fun _ => rfl) (fun _ => rfl)
  have clt := gives_alu s t d a b l .clt .cltSl opClt (fun _ => rfl) (fun _ => rfl)
  have cle := gives_alu s t d a b l .cle .cleSl opCle (fun _ => rfl) (fun _ => rfl)
  have cltn := gives_alu s t d a b l .cltn .cltnSl opCltn (fun _ => rfl) (fun _ => rfl)
  have clen := gives_alu s t d a b l .clen .clenSl opClen (fun _ => rfl) (fun _ => rfl)
  simp only [opMin, opMax, opMinn, opMaxn, intMinOf, intMaxOf, putT_pick] at min max minn maxn
  exact ⟨min.1, min.2, max.1, max.2, minn.1, minn.2, maxn.1, maxn.2, ceq.1, ceq.2, cne.1, cne.2, clt.1, clt.2, cle.1, cle.2,
    cltn.1, cltn.2, clen.1, clen.2⟩

theorem gives_imm (s : State) (d a : Reg) (m : BitVec 12) (l : Word) (i : ImmI → Instr) (j : ImmL → Instr) (f : Word → Word → Word)
    (hi : ∀ o, exec (i o) s = immI f o s) (hj : ∀ o, exec (j o) s = immL f o s) :
    Gives (i ⟨d, a, m⟩) s d (f (getS s s.clk.cur a.toNat) (m.signExtend 64)) 4 ∧
    Gives (j ⟨d, a, l⟩) s d (f (getS s s.clk.cur a.toNat) l) 12 :=
  ⟨gives_putReg _ _ _ _ _ (hi _), gives_putReg _ _ _ _ _ (hj _)⟩

theorem constantsAndImmediates : Claim.ConstantsAndImmediates := by
  intro s d a m l
  have addi := gives_imm s d a m l .addi .addiSl (· + ·) (fun _ => rfl) (fun _ => rfl)
  have andi := gives_imm s d a m l .andi .andiSl (· &&& ·) (fun _ => rfl) (fun _ => rfl)
  have ori := gives_imm s d a m l .ori .oriSl (· ||| ·) (fun _ => rfl) (fun _ => rfl)
  have xori := gives_imm s d a m l .xori .xoriSl (· ^^^ ·) (fun _ => rfl) (fun _ => rfl)
  exact ⟨gives_putReg _ _ _ _ _ rfl, gives_putReg _ _ _ _ _ rfl, gives_putReg _ _ _ _ _ rfl, gives_putReg _ _ _ _ _ rfl,
    addi.1, addi.2, andi.1, andi.2, ori.1, ori.2, xori.1, xori.2⟩

/-- Settles O3: each operation by the lemma of its operand form; MIN and MAX by `putT_pick`. -/
theorem comparesAndConstantsGiveTheirResults : Obligations.ComparesAndConstantsGiveTheirResults :=
  ⟨minMaxAndCompares, constantsAndImmediates⟩

/-! ### Divides and square roots -/

/-- The widths are 8, 16, 32 and 64, so "at most 32 bits" and "not 64 bits" are one (R59, R127). -/
theorem divTime_eq (t : IType) : divTime t = if itypeWidth t = 64 then 24 else 16 := by cases t <;> rfl

/-- Both forms of a divide leave rotation with the result standing ready (R127). -/
theorem goesLong_alu (s : State) (t : IType) (d a b : Reg) (l : Word) (i : AluR → Instr) (j : AluL → Instr)
    (f : Nat → Bool → Nat → Nat → Nat) (hi : ∀ o, exec (i o) s = aluLong f o s) (hj : ∀ o, exec (j o) s = aluLongL f o s) :
    GoesLong (i ⟨t, d, a, b⟩) s 2 4 (if itypeWidth t = 64 then 24 else 16)
      ⟨[⟨d.toNat, putT t (f (itypeWidth t) (itypeSigned t) (src s a) (src s b))⟩], 0, none⟩ ∧
    GoesLong (j ⟨t, d, a, l⟩) s 2 12 (if itypeWidth t = 64 then 24 else 16)
      ⟨[⟨d.toNat, putT t (f (itypeWidth t) (itypeSigned t) (src s a) l.toNat)⟩], 0, none⟩ := by
  rw [← divTime_eq]
  exact ⟨goLong_goes _ _ _ _ _ _ (by decide) (hi _), goLong_goes _ _ _ _ _ _ (by decide) (hj _)⟩

theorem divides : Claim.Divides := by
  intro s t d a b l
  have div := goesLong_alu s t d a b l .div .divSl opDiv (fun _ => rfl) (fun _ => rfl)
  have divn := goesLong_alu s t d a b l .divn .divnSl opDivn (fun _ => rfl) (fun _ => rfl)
  have rem := goesLong_alu s t d a b l .rem .remSl opRem (fun _ => rfl) (fun _ => rfl)
  have remn := goesLong_alu s t d a b l .remn .remnSl opRemn (fun _ => rfl) (fun _ => rfl)
  exact ⟨div.1, div.2, divn.1, divn.2, rem.1, rem.2, remn.1, remn.2⟩

/-- A long floating-point instruction takes 24 cycles for f64 and 16 otherwise (R153). -/
theorem goesLong_putF (i : Instr) (s : State) (t : FType) (d : Reg) (x : Nat × Flags) (h : exec i s = putFLong s t d x) :
    GoesLong i s 2 4 (if t = .f64 then 24 else 16) ⟨[⟨d.toNat, BitVec.ofNat 64 x.1⟩], flagsToNat x.2, none⟩ := by
  refine goLong_goes _ _ _ _ _ _ (by decide) (h.trans ?_)
  cases t <;> rfl

theorem floatDividesAndRoots : Claim.FloatDividesAndRoots :=
  fun _ _ _ _ _ _ => ⟨goesLong_putF _ _ _ _ _ rfl, goesLong_putF _ _ _ _ _ rfl⟩

/-- Settles O4: both kinds of divide go through `goLong` (`goLong_goes`) with their results at issue. -/
theorem dividesLeaveRotation : Obligations.DividesLeaveRotation := ⟨divides, floatDividesAndRoots⟩

/-! ## Transfers of control (R140 to R142, R147) -/

theorem branchTarget_eq (s : State) {n : Nat} (off : BitVec n) (hn : 0 < n) :
    branchTarget s n off.toNat = (((getF s s.clk.cur fPc : Int) + 4 * off.toInt) % 2 ^ 40).toNat := by
  unfold branchTarget; rw [signedOf_toNat off hn, Int.mul_comm]

theorem branchTarget_lt (s : State) (n off : Nat) : branchTarget s n off < 2 ^ 40 := by
  unfold branchTarget; omega

/-- A transfer inside code space commits at its target. -/
theorem jumpTo_of_lt (s : State) (r n : Nat) (h : n < 2 ^ 40) : jumpTo s r n = finishAt s r n true none := by
  unfold jumpTo; rw [Nat.mod_eq_of_lt h]

/-- A branch whose test decides `p` (R140). -/
theorem branchIf_eq (s : State) (c : Bool) (p : Prop) [Decidable p] (off : BitVec 12) (h : c = true ↔ p) :
    branchIf s c off = .next (if p then
      finishAt s s.clk.cur (((getF s s.clk.cur fPc : Int) + 4 * off.toInt) % 2 ^ 40).toNat true none else finish s s.clk.cur 4) := by
  unfold branchIf
  rw [jumpTo_of_lt _ _ _ (branchTarget_lt _ _ _), branchTarget_eq s off (by decide)]
  simp only [h]

theorem branches : Claim.Branches := by
  intro s a b off
  refine ⟨branchIf_eq s _ _ off ?beq, branchIf_eq s _ _ off ?bne, branchIf_eq s _ _ off ?blt, branchIf_eq s _ _ off ?bge,
    branchIf_eq s _ _ off ?bltn, branchIf_eq s _ _ off ?bgen, branchIf_eq s _ _ off ?bz, branchIf_eq s _ _ off ?bnz⟩
  case beq => exact beq_iff_eq
  case bne => exact bne_iff_ne
  case blt => exact BitVec.slt_iff_toInt_lt
  case bge => rw [Bool.not_eq_true', ← Bool.not_eq_true, BitVec.slt_iff_toInt_lt, Int.not_lt]
  case bltn => exact decide_eq_true_iff
  case bgen => exact decide_eq_true_iff
  case bz => rw [beq_iff_eq, ← BitVec.toNat_inj]; rfl
  case bnz => rw [bne_iff_ne, ne_eq, ← BitVec.toNat_inj]; rfl

theorem exec_j (s : State) (off : BitVec 22) :
    exec (.j off) s = .next (jumpTo s s.clk.cur (branchTarget s 22 off.toNat)) := (rfl)

theorem exec_jal (s : State) (off : BitVec 22) : exec (.jal off) s =
    .next (jumpTo (setS s s.clk.cur 29 (codeOffset s 4)) s.clk.cur (branchTarget s 22 off.toNat)) := (rfl)

theorem exec_jSl (s : State) (l : Word) : exec (.jSl l) s =
    .next (if l.toNat % 4 ≠ 0 ∨ 2 ^ 40 ≤ l.toNat then faultInstr s s.clk.cur cILLOP 0 else jumpTo s s.clk.cur l.toNat) := (rfl)

theorem exec_jalSl (s : State) (l : Word) : exec (.jalSl l) s =
    .next (if l.toNat % 4 ≠ 0 ∨ 2 ^ 40 ≤ l.toNat then faultInstr s s.clk.cur cILLOP 0
      else jumpTo (setS s s.clk.cur 29 (codeOffset s 12)) s.clk.cur l.toNat) := (rfl)

theorem jumps : Claim.Jumps := by
  intro s off l r pc target good link
  have hbad : (l.toNat % 4 ≠ 0 ∨ 2 ^ 40 ≤ l.toNat) ↔ ¬ good := by simp only [good]; omega
  have hj : ∀ u, jumpTo u r (branchTarget s 22 off.toNat) = finishAt u r target true none := fun u => by
    rw [jumpTo_of_lt _ _ _ (branchTarget_lt _ _ _), branchTarget_eq s off (by decide)]
  refine ⟨?j, fun h => ?jSl, fun h => ?jSlBad, ?jal, fun h => ?jalSl, fun h => ?jalSlBad, rfl⟩
  case j => rw [exec_j, hj]
  case jSl => rw [exec_jSl, if_neg fun hc => hbad.1 hc h, jumpTo_of_lt _ _ _ h.2]
  case jSlBad => rw [Traps, exec_jSl, if_pos (hbad.2 h)]; rfl
  case jal =>
    refine ⟨_, ?_, setS_writes _ _ _ _⟩
    rw [exec_jal, hj]; rfl
  case jalSl =>
    refine ⟨_, ?_, setS_writes _ _ _ _⟩
    rw [exec_jalSl, if_neg fun hc => hbad.1 hc h, jumpTo_of_lt _ _ _ h.2]; rfl
  case jalSlBad => rw [Traps, exec_jalSl, if_pos (hbad.2 h)]; rfl

/-- JR through the exact target, read from the signed immediate (R142). -/
theorem exec_jr (s : State) (d a : Reg) (m : BitVec 12) :
    let r := s.clk.cur
    let t := (src s a : Int) + m.toInt
    let g := getSeg s r 0
    let fa := (g.base + (t % 2 ^ 40).toNat) % 2 ^ 48
    exec (.jr ⟨d, a, m⟩) s = .next (
      if t < 0 ∨ 2 ^ 40 ≤ t then faultNow s r ⟨cSEG, 0x03, fa, g.kind⟩
      else if t % 4 ≠ 0 then faultNow s r ⟨cALIGN, 0, fa, g.kind⟩
      else jumpTo (setS s r d.toNat (codeOffset s 4)) r t.toNat) := by
  rw [← signedOf_toNat m (by decide)]; rfl

theorem jumpsToRegister : Claim.JumpsToRegister := by
  intro s d a m r t g f
  have hexec := exec_jr s d a m
  refine ⟨fun hout => ?seg, fun h0 h1 hodd => ?align, fun h0 h1 heven => ?go⟩
  case seg => rw [Traps, hexec, if_pos hout]; rfl
  case align => rw [Traps, hexec, if_neg (by omega), if_pos hodd]; rfl
  case go =>
    refine ⟨_, ?_, setS_writes _ _ _ _⟩
    rw [hexec, if_neg (by omega), if_neg (by omega), jumpTo_of_lt _ _ _ (by omega)]; rfl

/-- Settles O7: a transfer inside code space is `finishAt` at its target (`jumpTo_of_lt`); what is left is which test each instruction makes. -/
theorem transfersOfControl : Obligations.TransfersOfControl := ⟨branches, jumps, jumpsToRegister⟩

/-! ## Hardware loops (R144, R145) -/

/-! ### Bytes of a field -/

/-- A byte of memory is a byte of the number that holds it (R3). -/
theorem memByte_eq_memNat (m : Memory) (n : Nat) : ∀ a i, i < n → memByte m (a + i) = BitVec.ofNat 8 (bitsAt (memNat m a n) (8 * i) 8) := by
  induction n with
  | zero => intro a i h; omega
  | succ n ih =>
    intro a i h
    have hb := (memByte m a).isLt
    apply BitVec.eq_of_toNat_eq
    cases i with
    | zero => simp [memNat, memRead, natOfBytes, bitsAt]; omega
    | succ i =>
      have hshift : memNat m a (n + 1) / 2 ^ 8 = memNat m (a + 1) n := by
        simp only [memNat, memRead, natOfBytes]; omega
      rw [show a + (i + 1) = a + 1 + i by omega, ih (a + 1) i (by omega), bitsAt, bitsAt, Nat.shiftRight_eq_div_pow,
        Nat.shiftRight_eq_div_pow, show 8 * (i + 1) = 8 + 8 * i by omega, Nat.pow_add, ← Nat.div_div_eq_div_mul, hshift]

/-- A write of a field keeps every byte in which the field has no bit. -/
theorem memByte_setF_apart (s : State) (r : Nat) (f : Fld) (v x : Nat)
    (h : 8 * x + 8 ≤ 8 * (rowDpa r + f.off) + f.lo ∨ 8 * (rowDpa r + f.off) + f.lo + f.len ≤ 8 * x) :
    memByte (setF s r f v).mem x = memByte s.mem x := by
  by_cases hx : x < rowDpa r + f.off ∨ rowDpa r + f.off + 8 ≤ x
  · exact memByte_setF_out _ _ _ _ _ hx
  · obtain ⟨i, rfl⟩ : ∃ i, x = rowDpa r + f.off + i := ⟨x - (rowDpa r + f.off), by omega⟩
    have hi : i < 8 := by omega
    have hword : memNat (setF s r f v).mem (rowDpa r + f.off) 8 = setBits (rowNat s r f.off 8) f.lo f.len v % 2 ^ (8 * 8) :=
      memNat_memSetNat _ _ _ _
    rw [memByte_eq_memNat _ 8 _ _ hi, memByte_eq_memNat _ 8 _ _ hi, hword, bitsAt_mod _ _ _ _ (by omega),
      bitsAt_setBits_ne _ _ _ _ _ _ (by omega)]
    rfl

/-! ### One level (R145) -/

theorem onlyMem_setF (s : State) (r : Nat) (f : Fld) (v : Nat) : OnlyMem s (setF s r f v) := (rfl)

theorem apart_armed_count (l m : Nat) (hl : l < 2) : Fld.Apart (fLoopArmed l) (fCount m) := by
  simp only [Fld.Apart, fLoopArmed, fCount]; omega

theorem apart_count_armed (l m : Nat) (hl : l < 2) : Fld.Apart (fCount m) (fLoopArmed l) := by
  simp only [Fld.Apart, fLoopArmed, fCount]; omega

theorem getF_armed_setF_armed (s : State) (r l v : Nat) : getF (setF s r (fLoopArmed l) v) r (fLoopArmed l) = v % 2 :=
  getF_setF _ _ _ _ (by simp only [fLoopArmed]; omega)

theorem getF_count_setF_count (s : State) (r l v : Nat) (hl : l < 2) : getF (setF s r (fCount l) v) r (fCount l) = v % 2 ^ 32 :=
  getF_setF _ _ _ _ (by simp only [fCount]; omega)

theorem getF_count_setF_armed (s : State) (r l m v : Nat) (hl : l < 2) (hm : m < 2) :
    getF (setF s r (fLoopArmed l) v) r (fCount m) = getF s r (fCount m) :=
  getF_setF_ne _ _ _ _ _ (apart_armed_count l m hl) (by simp only [fCount]; omega)

theorem getF_armed_setF_count (s : State) (r l m v : Nat) (hl : l < 2) :
    getF (setF s r (fCount m) v) r (fLoopArmed l) = getF s r (fLoopArmed l) :=
  getF_setF_ne _ _ _ _ _ (apart_count_armed l m hl) (by simp only [fLoopArmed]; omega)

/-- What the rule of R145 gives for level `l` with the row's fields of that level. -/
def ruleAt (s : State) (r l : Nat) (skip : Bool) (n : Int) (tr : Bool) : LoopOut :=
  loopRule (getF s r (fLoopArmed l)) (getF s r (fLoopEnd l)) (getF s r (fLoopSpan l)) (getF s r (fCount l)) skip n tr

/-- A level follows its rule: the PC and the kind of commit that it hands on, and its ARMED bit and count afterwards. -/
theorem loopLevel_rule (s : State) (r l : Nat) (skip : Bool) (n : Int) (tr : Bool) (hl : l < 2) :
    let x := loopLevel s r l skip n tr
    let o := ruleAt s r l skip n tr
    x.2 = (o.pc, o.transfer) ∧ getF x.1 r (fLoopArmed l) = o.armed ∧ getF x.1 r (fCount l) = o.count := by
  have hcount : getF s r (fCount l) < 2 ^ 32 := getF_lt s r (fCount l)
  have hdisarm : ∀ u : State, getF (setF u r (fLoopArmed l) 0) r (fCount l) = getF u r (fCount l) := fun u =>
    getF_count_setF_armed u r l l 0 hl hl
  intro x o
  simp only [x, o, loopLevel, ruleAt, loopRule]
  by_cases hoff : getF s r (fLoopArmed l) = 0 ∨ skip = true
  case pos => simp only [if_pos hoff, and_self]
  simp only [if_neg hoff]
  by_cases htr : tr = true
  case pos =>
    simp only [if_pos htr]
    split
    · exact ⟨rfl, getF_armed_setF_armed _ _ _ _, hdisarm s⟩
    · exact ⟨rfl, rfl, rfl⟩
  simp only [if_neg htr]
  by_cases hend : n = getF s r (fLoopEnd l)
  case pos =>
    simp only [if_pos hend]
    split
    · exact ⟨rfl, getF_armed_setF_count _ _ _ _ _ hl, (getF_count_setF_count _ _ _ _ hl).trans (Nat.mod_eq_of_lt (by omega))⟩
    · exact ⟨rfl, getF_armed_setF_armed _ _ _ _, (hdisarm _).trans (getF_count_setF_count _ _ _ _ hl)⟩
  case neg =>
    simp only [if_neg hend]
    split
    · exact ⟨rfl, getF_armed_setF_armed _ _ _ _, hdisarm s⟩
    · exact ⟨rfl, rfl, rfl⟩

/-- A level writes at most its own count and its own ARMED bit. -/
theorem loopLevel_writes (s : State) (r l : Nat) (skip : Bool) (n : Int) (tr : Bool) :
    let u := (loopLevel s r l skip n tr).1
    u = s ∨ u = setF s r (fLoopArmed l) 0 ∨ u = setF s r (fCount l) (getF s r (fCount l) - 1) ∨
      u = setF (setF s r (fCount l) 0) r (fLoopArmed l) 0 := by
  simp only [loopLevel]
  split
  case isTrue => exact .inl rfl
  split
  case isTrue =>
    split
    · exact .inr (.inl rfl)
    · exact .inl rfl
  split
  case isTrue =>
    split
    · exact .inr (.inr (.inl rfl))
    · exact .inr (.inr (.inr rfl))
  case isFalse =>
    split
    · exact .inr (.inl rfl)
    · exact .inl rfl

/-- A level keeps every field but its own count and ARMED bit, and every byte outside the loop words. -/
theorem loopLevel_keeps (s : State) (r l : Nat) (skip : Bool) (n : Int) (tr : Bool) (hl : l < 2) :
    let u := (loopLevel s r l skip n tr).1
    OnlyMem s u ∧ BytesKept s u (rowDpa r + 0x28) 24 ∧
    ∀ g : Fld, Fld.Apart (fLoopArmed l) g → Fld.Apart (fCount l) g → g.lo + g.len ≤ 64 → getF u r g = getF s r g := by
  have harmed : ∀ u : State, BytesKept u (setF u r (fLoopArmed l) 0) (rowDpa r + 0x28) 24 := fun u x hx =>
    memByte_setF_out _ _ _ _ _ (by simp only [fLoopArmed]; omega)
  have hcount : ∀ (u : State) (v : Nat), BytesKept u (setF u r (fCount l) v) (rowDpa r + 0x28) 24 := fun u v x hx =>
    memByte_setF_out _ _ _ _ _ (by simp only [fCount]; omega)
  intro u
  rcases loopLevel_writes s r l skip n tr with hu | hu | hu | hu <;> simp only [u, hu]
  · exact ⟨rfl, fun _ _ => rfl, fun _ _ _ _ => trivial⟩
  · exact ⟨rfl, harmed s, fun g h1 _ h3 => getF_setF_ne _ _ _ _ _ h1 h3⟩
  · exact ⟨rfl, hcount s _, fun g _ h2 h3 => getF_setF_ne _ _ _ _ _ h2 h3⟩
  · exact ⟨OnlyMem.trans _ _ _ (onlyMem_setF s r _ 0) (onlyMem_setF _ r _ 0), fun x hx => (harmed _ x hx).trans (hcount s 0 x hx),
      fun g h1 h2 h3 => (getF_setF_ne _ _ _ _ _ h1 h3).trans (getF_setF_ne _ _ _ _ _ h2 h3)⟩

/-! ### Both levels, and PC (R145) -/

/-- The state in which a commit writes PC: at a transfer that is no LOOP the row lets go of its old code (R51). -/
def commitCode (s : State) (r : Nat) (tr : Bool) (skip : Option Nat) : State :=
  if tr ∧ skip = none ∧ (tabGet s.rows.oldCode r).isSome then freshCode s r else s

/-- Both levels, 1 then 0 from what level 1 hands on. -/
def loopLevels (s : State) (r : Nat) (n : Int) (tr : Bool) (skip : Option Nat) : State × Int × Bool :=
  let x := loopLevel s r 1 (skip == some 1) n tr
  loopLevel x.1 r 0 (skip == some 0) x.2.1 x.2.2

theorem resolvePc_eq (s : State) (r n : Nat) (tr : Bool) (skip : Option Nat) :
    resolvePc s r n tr skip = setF (commitCode (loopLevels s r n tr skip).1 r (loopLevels s r n tr skip).2.2 skip) r fPc
      (lowBits 40 (loopLevels s r n tr skip).2.1) := (rfl)

/-- Both levels follow their rules, and level 0 sees the fields that the row had before level 1: level 1 writes none of them. -/
theorem loopLevels_rule (s : State) (r : Nat) (n : Int) (tr : Bool) (skip : Option Nat) :
    let y := loopLevels s r n tr skip
    let a := ruleAt s r 1 (skip == some 1) n tr
    let b := ruleAt s r 0 (skip == some 0) a.pc a.transfer
    y.2 = (b.pc, b.transfer) ∧ getF y.1 r (fLoopArmed 1) = a.armed ∧ getF y.1 r (fCount 1) = a.count ∧
    getF y.1 r (fLoopArmed 0) = b.armed ∧ getF y.1 r (fCount 0) = b.count := by
  intro y a b
  obtain ⟨hout1, harmed1, hcount1⟩ := loopLevel_rule s r 1 (skip == some 1) n tr (by decide)
  obtain ⟨-, -, hkeep1⟩ := loopLevel_keeps s r 1 (skip == some 1) n tr (by decide)
  have hy : y = loopLevel (loopLevel s r 1 (skip == some 1) n tr).1 r 0 (skip == some 0) a.pc a.transfer := by
    simp only [y, loopLevels, hout1, a]
  generalize (loopLevel s r 1 (skip == some 1) n tr).1 = v at hy harmed1 hcount1 hkeep1
  have hb : ruleAt v r 0 (skip == some 0) a.pc a.transfer = b := by
    simp only [b, ruleAt]
    rw [hkeep1 (fLoopArmed 0) (by decide) (by decide) (by decide), hkeep1 (fLoopEnd 0) (by decide) (by decide) (by decide),
      hkeep1 (fLoopSpan 0) (by decide) (by decide) (by decide), hkeep1 (fCount 0) (by decide) (by decide) (by decide)]
  obtain ⟨hout0, harmed0, hcount0⟩ := loopLevel_rule v r 0 (skip == some 0) a.pc a.transfer (by decide)
  obtain ⟨-, -, hkeep0⟩ := loopLevel_keeps v r 0 (skip == some 0) a.pc a.transfer (by decide)
  rw [hb] at hout0 harmed0 hcount0
  rw [hy]
  exact ⟨hout0, (hkeep0 _ (by decide) (by decide) (by decide)).trans harmed1,
    (hkeep0 _ (by decide) (by decide) (by decide)).trans hcount1, harmed0, hcount0⟩

/-- Both levels keep every byte outside the loop words. -/
theorem loopLevels_keeps (s : State) (r : Nat) (n : Int) (tr : Bool) (skip : Option Nat) :
    let u := (loopLevels s r n tr skip).1
    OnlyMem s u ∧ BytesKept s u (rowDpa r + 0x28) 24 := by
  obtain ⟨honly1, hbytes1, -⟩ := loopLevel_keeps s r 1 (skip == some 1) n tr (by decide)
  obtain ⟨honly0, hbytes0, -⟩ := loopLevel_keeps (loopLevel s r 1 (skip == some 1) n tr).1 r 0 (skip == some 0)
    (loopLevel s r 1 (skip == some 1) n tr).2.1 (loopLevel s r 1 (skip == some 1) n tr).2.2 (by decide)
  exact ⟨OnlyMem.trans _ _ _ honly1 honly0, fun x hx => (hbytes0 x hx).trans (hbytes1 x hx)⟩

theorem commitCode_mem (s : State) (r : Nat) (tr : Bool) (skip : Option Nat) : (commitCode s r tr skip).mem = s.mem := by
  unfold commitCode; split <;> rfl

theorem onlyMemCode_commitCode {s y : State} (r : Nat) (tr : Bool) (skip : Option Nat) (h : OnlyMem s y) :
    OnlyMemCode s (commitCode y r tr skip) := by
  have hy := congrArg (fun x : State => { x with rows := { x.rows with oldCode := s.rows.oldCode } }) (OnlyMem.eq s y h)
  unfold commitCode
  split <;> exact hy

theorem oldCode_commitCode (s : State) (r : Nat) (tr : Bool) (skip : Option Nat) :
    tabGet (commitCode s r tr skip).rows.oldCode r =
      if tr ∧ skip = none then (tabGet s.rows.oldCode r).map fun _ => [] else tabGet s.rows.oldCode r := by
  unfold commitCode
  by_cases h : tr = true ∧ skip = none
  · cases hc : tabGet s.rows.oldCode r with
    | none => simp [h, hc]
    | some c => simp [h, freshCode, tabGet_tabSet]
  · rw [if_neg h, if_neg fun hc => h ⟨hc.1, hc.2.1⟩]

theorem bothLevelsResolve : Claim.LoopLevelsResolve := by
  intro s r n tr skip lvl a b u
  obtain ⟨hout, harmed1, hcount1, harmed0, hcount0⟩ := loopLevels_rule s r n tr skip
  obtain ⟨honly, hbytes⟩ := loopLevels_keeps s r n tr skip
  have hu : u = setF (commitCode (loopLevels s r n tr skip).1 r b.transfer skip) r fPc (lowBits 40 b.pc) := by
    have h := resolvePc_eq s r n tr skip
    rwa [hout] at h
  generalize (loopLevels s r n tr skip).1 = y at hu harmed1 hcount1 harmed0 hcount0 honly hbytes
  have hmem : (commitCode y r b.transfer skip).mem = y.mem := commitCode_mem _ _ _ _
  have hfield : ∀ g : Fld, Fld.Apart fPc g → g.lo + g.len ≤ 64 → getF u r g = getF y r g := fun g h1 h2 => by
    rw [hu, getF_setF_ne _ _ _ _ _ h1 h2, getF_congr _ _ _ _ hmem]
  refine ⟨?pc, ?armed1, ?count1, ?armed0, ?count0, ?only, ?code, ?bytes⟩
  case pc =>
    rw [hu, getF_setF _ _ _ _ (by decide)]
    exact Nat.mod_eq_of_lt (lowBits_lt 40 b.pc)
  case armed1 => exact (hfield _ (by decide) (by decide)).trans harmed1
  case count1 => exact (hfield _ (by decide) (by decide)).trans hcount1
  case armed0 => exact (hfield _ (by decide) (by decide)).trans harmed0
  case count0 => exact (hfield _ (by decide) (by decide)).trans hcount0
  case only => rw [hu]; exact onlyMemCode_commitCode r _ _ honly
  case code => rw [hu, setF_rows, oldCode_commitCode, OnlyMem.rows_eq _ _ honly]
  case bytes =>
    intro x hpc hloop
    rw [hu, memByte_setF_out _ _ _ _ _ hpc, hmem]
    exact hbytes x hloop

/-! ### LOOP and LOOPX (R144) -/

/-- The loop registers that LOOP and LOOPX write: END, SPAN, the count and ARMED of level `l`. -/
def writeLoop (s : State) (r l e span c armed : Nat) : State :=
  setF (setF (setF (setF s r (fLoopEnd l) e) r (fLoopSpan l) span) r (fCount l) c) r (fLoopArmed l) armed

theorem writeLoop_fields (s : State) (r l e span c armed : Nat) (hl : l < 2) :
    let u := writeLoop s r l e span c armed
    getF u r (fLoopEnd l) = e % 2 ^ 40 ∧ getF u r (fLoopSpan l) = span % 2 ^ 12 ∧ getF u r (fCount l) = c % 2 ^ 32 ∧
    getF u r (fLoopArmed l) = armed % 2 := by
  refine ⟨?_, ?_, ?_, getF_armed_setF_armed _ _ _ _⟩
  · simp only [writeLoop]
    rw [getF_setF_ne, getF_setF_ne, getF_setF_ne, getF_setF] <;>
      simp only [Fld.Apart, fLoopEnd, fLoopSpan, fLoopArmed, fCount, true_and] <;> omega
  · simp only [writeLoop]
    rw [getF_setF_ne, getF_setF_ne, getF_setF] <;> simp only [Fld.Apart, fLoopSpan, fLoopArmed, fCount, true_and] <;> omega
  · simp only [writeLoop]
    rw [getF_count_setF_armed _ _ _ _ _ hl hl, getF_count_setF_count _ _ _ _ hl]

theorem writeLoop_bytes (s : State) (r l e span c armed : Nat) :
    BytesKept2 s (writeLoop s r l e span c armed) (rowDpa r + (0x28 + 8 * l)) 8 (rowDpa r + (0x38 + 4 * l)) 4 := by
  intro x hloop hcount
  simp only [writeLoop]
  rw [memByte_setF_out, memByte_setF_apart, memByte_setF_out, memByte_setF_out] <;>
    simp only [fLoopEnd, fLoopSpan, fLoopArmed, fCount] <;> omega

theorem onlyMem_writeLoop (s : State) (r l e span c armed : Nat) : OnlyMem s (writeLoop s r l e span c armed) :=
  OnlyMem.trans _ _ _ (OnlyMem.trans _ _ _ (OnlyMem.trans _ _ _ (onlyMem_setF _ _ _ _) (onlyMem_setF _ _ _ _)) (onlyMem_setF _ _ _ _))
    (onlyMem_setF _ _ _ _)

/-- Arming in one piece: an empty body writes nothing; else the four fields, ARMED and the next PC by the count. -/
theorem armLoop_eq (s : State) (l len off c : Nat) (hl : l < 2) :
    let r := s.clk.cur
    let e := (getF s r fPc + 4 * off) % 2 ^ 40
    let n := c % 2 ^ 32
    armLoop s l len off c = .next (if off ≤ len / 4 then finishAt s r e true (some l) else
      finishAt (writeLoop s r l e (off - len / 4) n (if n = 0 then 0 else 1)) r
        (if n = 0 then e else (getF s r fPc + len) % 2 ^ 40) true (some l)) := by
  have hskip : (if l = 1 then some 1 else some 0) = some l := by
    rcases (by omega : l = 0 ∨ l = 1) with rfl | rfl <;> rfl
  simp only [armLoop, hskip, Nat.sub_eq_zero_iff_le, writeLoop]
  split
  · rfl
  · split <;> rfl

/-- What LOOP and LOOPX do, once for both (R144): `len` bytes, `off` words to the end label, count `c`. -/
theorem armLoop_arms (i : Instr) (s : State) (l len off c : Nat) (hl : l < 2) (hi : exec i s = armLoop s l len off c) :
    let r := s.clk.cur
    let e := (getF s r fPc + 4 * off) % 2 ^ 40
    let n := c % 2 ^ 32
    if off ≤ len / 4 then exec i s = .next (finishAt s r e true (some l))
    else ∃ u, exec i s = .next (finishAt u r (if n = 0 then e else (getF s r fPc + len) % 2 ^ 40) true (some l)) ∧
      getF u r (fLoopEnd l) = e ∧ getF u r (fLoopSpan l) = (off - len / 4) % 2 ^ 12 ∧
      getF u r (fCount l) = n ∧ getF u r (fLoopArmed l) = (if n = 0 then 0 else 1) ∧
      OnlyMem s u ∧ BytesKept2 s u (rowDpa r + (0x28 + 8 * l)) 8 (rowDpa r + (0x38 + 4 * l)) 4 := by
  intro r e n
  have harm := hi.trans (armLoop_eq s l len off c hl)
  by_cases hempty : off ≤ len / 4
  · rw [if_pos hempty] at harm ⊢
    exact harm
  · rw [if_neg hempty] at harm ⊢
    obtain ⟨hend, hspan, hcount, harmed⟩ := writeLoop_fields s r l e (off - len / 4) n (if n = 0 then 0 else 1) hl
    refine ⟨_, harm, hend.trans (Nat.mod_mod _ _), hspan, hcount.trans (Nat.mod_mod _ _), harmed.trans ?_, ?_,
      writeLoop_bytes _ _ _ _ _ _ _⟩
    · split <;> rfl
    · exact onlyMem_writeLoop _ _ _ _ _ _ _

theorem exec_loop (s : State) (l a : Reg) (imm : BitVec 12) :
    exec (.loop l a imm) s = armLoop s l.toNat 4 imm.toNat (src s a) := (rfl)

theorem exec_loopx (s : State) (o : LoopX) :
    exec (.loopx o) s = armLoop s o.l.toNat 12 o.dist.toNat (if o.immCount then o.count.toNat else src s o.a) := (rfl)

theorem loopsArm : Claim.LoopsArm := fun s l a imm ic cnt dist hl =>
  ⟨armLoop_arms (.loop l a imm) s l.toNat 4 imm.toNat (src s a) hl (exec_loop s l a imm),
    armLoop_arms (.loopx ⟨l, a, ic, cnt, dist⟩) s l.toNat 12 dist.toNat (if ic then cnt.toNat else src s a) hl (exec_loopx s _)⟩

/-- Settles O6: level by level (`loopLevel_rule`), level 0 seeing the fields that level 1 leaves alone; LOOP and LOOPX by `armLoop_eq`. -/
theorem loopLevelsResolve : Obligations.LoopLevelsResolve := ⟨bothLevelsResolve, loopsArm⟩

end Sys2Proof.Machine

namespace Sys2Proof.Machine

/-! ## The walk of a MIGRATE (R191, R206): a queued walk that bears the machine's next name takes its place

A miss names its walk `clk.ids`, and the beginning of a walk is recorded by its name (`setWalk`). -/

theorem meetError_ms (s : State) (l : Nat) : (meetError s l).ms = s.ms := by
  unfold meetError
  split
  · rfl
  · dsimp only; split <;> rfl

theorem meetLines_ms (s : State) (a n : Nat) : (meetLines s a n).ms = s.ms :=
  List.foldlRecOn (motive := fun t : State => t.ms = s.ms) _ _ rfl fun _ h _ _ => (meetError_ms _ _).trans h

/-- The errors that a walk's reads meet touch no walk. -/
theorem meetReads_ms (s : State) (as : List Nat) :
    (as.foldl (fun s a => if isReg a then s else meetLines s a 8) s).ms = s.ms :=
  List.foldlRecOn (motive := fun t : State => t.ms = s.ms) _ _ rfl fun t h a _ => by
    split
    · exact h
    · exact (meetLines_ms t a 8).trans h

theorem admitWalk_noneHeld {s : State} {st : Nat} (h : ∀ w ∈ s.ms.walks, w.held = false) : admitWalk s st = s := by
  have hnone : (s.ms.walks.find? fun w => w.studio == st && w.held) = none :=
    List.find?_eq_none.2 fun w hw => by simp [h w hw]
  simp [admitWalk, hnone]

theorem startWalks_emptyQueue {s : State} {st : Nat} (h : walkQueue s st = []) (n : Nat) : startWalks s st n = s := by
  cases n <;> simp [startWalks, h]

/-- With room for it the oldest walk in the queue begins: every walk of its name becomes what it is now. -/
theorem startWalks_head {s : State} {st : Nat} {w : Walk} (n : Nat)
    (hroom : (s.ms.walks.filter fun x => x.studio == st && x.started).length < 64) (hhead : (walkQueue s st).head? = some w) :
    ∃ t b, startWalks s st (n + 1) = startWalks (admitWalk t st) st n ∧
      t.ms.walks = s.ms.walks.map (fun x => if x.id = w.id then b else x) ∧
      b.started = true ∧ b.held = w.held ∧ b.serves = w.serves := by
  rw [startWalks, if_neg (by omega), hhead]
  exact ⟨_, _, rfl, congrArg (fun ms : MemSys => ms.walks.map _) (meetReads_ms s _), rfl, rfl, rfl⟩

/-- When the oldest walk in the queue begins, a walk that bears the same name becomes a copy of it, and what that one was to serve is
lost. -/
theorem startWalks_namesake {s : State} {st : Nat} {v w : Walk} (n : Nat) (hwalks : s.ms.walks = [v, w]) (hname : w.id = v.id)
    (hstudio : v.studio = st) (hqueued : v.started = false ∧ v.held = false) (hwaits : w.started = false) :
    ∀ x ∈ (startWalks s st (n + 1)).ms.walks, x.serves = v.serves := by
  obtain ⟨hstarted, hheld⟩ := hqueued
  have hroom : (s.ms.walks.filter fun x => x.studio == st && x.started).length < 64 := by simp [hwalks, hstarted, hwaits]
  have hhead : (walkQueue s st).head? = some v := by simp [walkQueue, hwalks, hstudio, hstarted, hheld]
  obtain ⟨t, b, hstep, hboth, hbegun, hbheld, hserves⟩ := startWalks_head n hroom hhead
  have htwice : t.ms.walks = [b, b] := by simp [hboth, hwalks, hname]
  have hadmit : admitWalk t st = t := admitWalk_noneHeld (by simp [htwice, hbheld, hheld])
  have hempty : walkQueue t st = [] := by simp [walkQueue, htwice, hbegun]
  simp [hstep, hadmit, startWalks_emptyQueue hempty, htwice, hserves]

/-- Walks of different pages of 2 MiB do not look up one page (R191). -/
theorem samePage_apart {s : State} {w : Walk} {va : Nat} (h : w.va / 2 ^ 21 ≠ va / 2 ^ 21) : samePage s w va = false := by
  have hsmall : w.va / 2 ^ 16 ≠ va / 2 ^ 16 := by omega
  simp only [samePage, beq_false_of_ne hsmall, beq_false_of_ne h, Bool.false_and, Bool.or_false]

/-- A miss whose name the oldest walk in the queue bears already, for another page, is lost: every walk then
serves what that one did. -/
theorem addWalk_namesake {s : State} {ex part ctx va : Nat} {v : Walk} (row need : Nat) (serve : WalkFor) (hwalks : s.ms.walks = [v])
    (hname : v.id = s.clk.ids) (hstudio : v.studio = studioOf ex) (hqueued : v.started = false ∧ v.held = false)
    (hpage : v.va / 2 ^ 21 ≠ va / 2 ^ 21) : ∀ x ∈ (addWalk s ex row part ctx va need serve).ms.walks, x.serves = v.serves := by
  have hnew : s.ms.walks.find? (fun w => w.studio == studioOf ex && w.part == part && w.ctx == ctx && samePage s w va) = none := by
    simp [hwalks, samePage_apart hpage]
  unfold addWalk
  simp only [hnew]
  exact startWalks_namesake 63 (congrArg (· ++ [_]) hwalks) hname.symm hstudio hqueued rfl

/-- One byte of a VIRT segment that grants W passes the first six checks of R183 for a MIGRATE. -/
theorem segChecks_virtByte (s : State) (r : Nat) :
    segChecks s r ⟨0, 4, false, true, false, 0, 1, false⟩ 0 { kinds := 0x10, wr := true, size := 1 } = .ok 0 := (rfl)

/-- MIGRATE through a segment that passes those checks leaves rotation and asks for a walk (R206). -/
theorem exec_migrate_of_ok {s : State} {d b : Reg} {m : XMem} {va : Nat}
    (h : segChecks s s.clk.cur (memSeg s m) (memOff s m) { kinds := 0x10, wr := true, size := 1 } = .ok va) :
    exec (.migrate d b m) s = .next (addWalk (beginLong s s.clk.cur 2 12) (exOf s.clk.cur) s.clk.cur (partOf s s.clk.cur)
      (ctxOf s s.clk.cur) va 4 (.migrate s.clk.cur d.toNat (src s b) va)) := by
  show execMigrate d b m s = _
  simp only [execMigrate, h]

/-- Refutes O19: `Claim.Migrations` promises a walk that serves the MIGRATE from every state, and does not ask that the name which the machine
gives next, `clk.ids`, be free. Below, in the module as reset leaves it but for this: sg0 of row 0 is a VIRT segment with W (byte 0x86) of one
byte (0x88), and a fetch of row 1 stands in the studio's queue, for another page, under the name 0. The MIGRATE's walk gets that name too, the fetch's walk begins, and
no walk serves the MIGRATE. The state is one that `freshId` would not lead to; the statement is about every state. -/
theorem not_translationAndMigration : ¬ Obligations.TranslationAndMigration := by
  unfold Obligations.TranslationAndMigration
  rintro ⟨-, hmigrations, -, -⟩
  let v : Walk := { id := 0, studio := 0, ex := 0, row := 1, part := 32, ctx := 0, va := 2 ^ 21, need := 2, started := false, began := 0,
                    serves := [.reissue 1 (2 ^ 21)], entry := none, seen := none, bad := 0, b1 := 0, b2 := 0, fills := [], stale := false }
  let s : State := { State.reset with mem := [(0x86, 0x14), (0x88, 1)], ms := { MemSys.reset with walks := [v] } }
  let m : XMem := ⟨0, false, 0, 0⟩
  have hseg : memSeg s m = ⟨0, 4, false, true, false, 0, 1, false⟩ := by decide +zetaReduce
  have hoff : memOff s m = 0 := rfl
  have hchecks : segChecks s 0 (memSeg s m) 0 { kinds := 0x10, wr := true, size := 1 } = .ok 0 := hseg ▸ segChecks_virtByte s 0
  obtain ⟨hwalk, -⟩ := hmigrations s 0 0 m
  obtain ⟨t, ht, -, -, -, -, w, hw, -, -, -, hserves⟩ := hwalk 0 hchecks
  rw [exec_migrate_of_ok (va := 0) (hoff ▸ hchecks)] at ht
  cases ht
  have hstudio : v.studio = studioOf (exOf s.clk.cur) := by decide +zetaReduce
  have hlost : w.serves = [.reissue 1 (2 ^ 21)] :=
    addWalk_namesake (v := v) 0 4 _ rfl rfl hstudio ⟨rfl, rfl⟩ (by decide +zetaReduce) w hw
  rw [hlost] at hserves
  exact absurd hserves (by simp)

end Sys2Proof.Machine
